-- ==== Sys2Proof/Word.lean ====
section
/-!
DEFINITION. The plain number types of the model: bytes and words of the links, and readings of the time base.
-/
namespace Sys2Proof

/-- One byte of a frame (chapter 10). -/
abbrev Byte := BitVec 8

/-- One sixteen-bit word of a station's answer (Table 10-1). -/
abbrev Word16 := BitVec 16

/-- A wrapping 32-bit count or number: round number, link counts, line statistics (R10, R11, R163). -/
abbrev Count32 := BitVec 32

/-- An unsigned 64-bit quantity: lifetime totals and the mass, heat and ms fields of a shift record (R87, Table 8-2). -/
abbrev Count64 := BitVec 64

/-- A reading of the time base in ms. R1: a 64-bit count that does not wrap within the life of the part, so the
model counts it without wrapping (log entry 1). -/
abbrev Time := Nat

end Sys2Proof
end

