-- ==== Sys2Proof/Syntax.lean ====
section
/-!
DEFINITION. The commands of the part: one constructor for each row of spec/opcode_table.json.

A row is one event of the part (section 1.7). Rows that reach the part from outside carry the time-base reading `t`
at which they happen and what arrives with them. A timer expiry happens at the reading its timer holds and names
only its object. A request row is the taking of the request at the head of the receive queue (R157); its arguments
travel in that frame. Log entries 5 and 6. Objects are numbered from 0 here: burner 0 is B1, line 5 is L6.
-/
namespace Sys2Proof

/-- One character as the receiver of the plant link sees it (R152, R153). -/
structure PlantChar where
  data : Byte
  mark : Bool
  parity : Bool
  /-- The level of the stop bit; low is a framing error. -/
  stopHigh : Bool
  /-- The three samples of some bit disagreed. -/
  noisy : Bool
  /-- The character arrived before the receiver had taken the one before. -/
  overrun : Bool
  deriving DecidableEq, Repr

inductive Instr where
  /-- POWER_ON_RESET with the levels of the two strap pins. -/
  | powerOnReset (strap1 strap2 : Bool)
  /-- RESET_PIN_RESET with the levels of the two strap pins. -/
  | resetPinReset (t : Time) (strap1 strap2 : Bool)
  /-- COMMANDED_RESET with the levels of the two strap pins. -/
  | commandedReset (strap1 strap2 : Bool)
  /-- ROUND_MARK, P ms after the previous mark. -/
  | roundMark
  /-- SLOT_OUTCOME: the bytes that arrived within the slot on lines A and B; no byte means that no answer began. -/
  | slotOutcome (t : Time) (onA onB : List Byte)
  | roundJudgement
  | commandSlot (t : Time)
  | haltedDigestTimerExpiry
  | purgeTimerExpiry (b : Fin 3)
  | ignitionTrialExpiry (b : Fin 3)
  | lightoffTimerExpiry (b : Fin 3)
  | doseTimerExpiry (l : Fin 6)
  | deviationTimerExpiry (l : Fin 6)
  | startTimerExpiry
  | strokeTimerExpiry (g : Fin 4)
  | onDelayExpiry (a : Fin 192)
  | shelveTimerExpiry (a : Fin 192)
  | boundaryTimerExpiry
  | characterArrival (t : Time) (c : PlantChar)
  /-- BREAK: the line held low for 13 bit times. -/
  | lineBreak (t : Time)
  | gapTimerExpiry
  | silenceTimerExpiry
  /-- FRAME_SENT: the last stop bit of the frame in transmission has been sent. -/
  | frameSent (t : Time)
  | unknownKindRequest
  | writeEntry
  | readEntry
  | clearEntry
  | commitRound
  | lineEnable
  | startRounds
  | singleRound
  | stopRounds
  | force
  | unforce
  | readPoint
  | burnerStart
  | burnerStop
  | burnerReset
  | setDemand
  | lineService
  | lineMode
  | lineReset
  | coolerStart
  | coolerStop
  | coolerSafe
  | coolerResetSafe
  | runReset
  | runMode
  | operatorCommand
  | ack
  | shelve
  | unshelve
  | silence
  | firstoutRearm
  | readAlarm
  | readReport
  | closeShift
  | setClock
  | readStatus
  | setSilenceTime
  /-- RESET, the request that asks for a commanded reset. -/
  | resetRequest
  deriving DecidableEq, Repr

end Sys2Proof
end

