-- ==== Sys2Proof/Decode.lean ====
section
/-!
DEFINITION. The commands that a word of spec/opcode_table.json spells.
-/
namespace Sys2Proof

/-- No row of spec/opcode_table.json gives any bits (every row's "fields" is empty), so no word spells a command. The
part's own codes, those of the frames on its two links (chapter 10), are decoded by the machine: Machine/Operands.lean
reads request payloads and Machine/Floor.lean reads station answers. -/
def decodeTableWord (_nbits _w : Nat) : Option Instr := none

end Sys2Proof
end

