-- ==== Sys2Proof/Config.lean ====
section
/-!
DEFINITION. What the part fixes as constants, and the free values: results the spec leaves open, about which
nothing can be proved.
-/
namespace Sys2Proof.Config

/-- FREE VALUE (log entry 2). A 64-bit total whose exact sum does not fit in 64 bits: the spec states no result
there (R87, Table 8-2). The argument is the exact sum. -/
opaque overflow64 : Nat → Count64

/-- FREE VALUE (log entry 3). The request number carried in a reply to a frame whose payload is empty, so that the
number is missing (R157, R166). The argument counts the free values taken so far. -/
opaque missingRequestNumber : Nat → Byte

/-- Slot time of a round, in microseconds (section 1.2.1). -/
def slotMicros : Nat := 64

/-- Start timer of the cooler, ms (R91). -/
def coolerStartMs : Nat := 30000

/-- Period of the digests built while the floor is HALTED, ms (R161). -/
def haltedDigestMs : Nat := 1000

/-- Gap timer of the receiver, ms (R154). -/
def gapMs : Nat := 2

/-- The silence time after a power-on reset, s (R156). -/
def silenceDefault : Nat := 5

/-- Places of the command queue (R108). -/
def queuePlaces : Nat := 32

/-- Places of the receive queue (R155). -/
def receivePlaces : Nat := 4

/-- Places of the transmit queue (R159). -/
def transmitPlaces : Nat := 16

/-- Records of the report ring (R145). -/
def ringPlaces : Nat := 8

/-- Payload bytes of a plant frame (R152). -/
def payloadMax : Nat := 250

/-- Round marks after which a cooler refresh is due (R96). -/
def coolerRefreshMarks : Nat := 99

/-- Passes over the alarm table that one event may take before what is left waits for the next event. The chain of
consequences of one event is shorter (log entry 4). -/
def settlePasses : Nat := 64

end Sys2Proof.Config
end

