-- ==== Sys2Proof/Machine/Wire.lean ====
section
/-!
DEFINITION. Bytes, the frame check that both links use, and the characters of the plant link (R152, R164).
-/
namespace Sys2Proof.Machine

/-! ### Bytes and the check (R152, R164) -/

/-- The low `k` bytes of a number, more significant byte first. -/
def beBytes : Nat → Nat → List Byte
  | 0, _ => []
  | k + 1, n => BitVec.ofNat 8 (n / 256 ^ k) :: beBytes k n

/-- A signed number in `k` bytes, two's complement. -/
def beInt (k : Nat) (i : Int) : List Byte := beBytes k (i % (256 ^ k : Nat)).toNat

/-- The unsigned number that bytes spell, more significant byte first. -/
def beNat (bs : List Byte) : Nat := bs.foldl (fun n b => n * 256 + b.toNat) 0

/-- The two's complement number that bytes spell. -/
def beSigned (bs : List Byte) : Int :=
  if 2 * beNat bs < 256 ^ bs.length then beNat bs else (beNat bs : Int) - (256 ^ bs.length : Nat)

/-- One bit of the check: polynomial x^16 + x^12 + x^5 + 1, most significant bit first. -/
def crcBit (c : BitVec 16) : BitVec 16 := if c.msb then (c <<< 1) ^^^ 0x1021#16 else c <<< 1

def crcByte (c : BitVec 16) (b : Byte) : BitVec 16 :=
  (List.range 8).foldl (fun x _ => crcBit x) (c ^^^ (b.setWidth 16 <<< 8))

/-- R152: the check over kind, length and payload, starting from all ones. -/
def frameCheck (bs : List Byte) : BitVec 16 := bs.foldl crcByte 0xFFFF#16

/-- A frame as bytes: kind, length, payload, then the check, more significant half first (R152, R164). -/
def frameBytes (kind : Byte) (payload : List Byte) : List Byte :=
  let body := kind :: BitVec.ofNat 8 payload.length :: payload
  body ++ beBytes 2 (frameCheck body).toNat

/-! ### Characters sent on the plant link (R152) -/

/-- The number of ones among eight data bits. -/
def onesOf (b : Byte) : Nat := ((List.range 8).filter b.getLsbD).length

/-- A character sent up the plant link: its data, mark and parity bits. -/
structure SentChar where
  data : Byte
  mark : Bool
  parity : Bool
  deriving DecidableEq, Repr

/-- R152: the parity bit makes the number of ones among data bits, mark bit and parity bit even. -/
def SentChar.of (mark : Bool) (data : Byte) : SentChar :=
  { data := data, mark := mark, parity := (onesOf data + mark.toNat) % 2 == 1 }

/-- R152: the levels of the twelve bit times of a character, true for high: the start bit, the data bits with the least
significant first, the mark bit, the parity bit and the stop bit. -/
def SentChar.levels (c : SentChar) : List Bool :=
  false :: (List.range 8).map c.data.getLsbD ++ [c.mark, c.parity, true]

/-- R152: the characters of a frame; the kind alone is marked. -/
def frameChars : List Byte → List SentChar
  | [] => []
  | kind :: rest => SentChar.of true kind :: rest.map (SentChar.of false)

end Sys2Proof.Machine
end

