-- ==== Sys2Proof/Machine/State.lean ====
section
/-!
DEFINITION. The state of the AKF-612 as plain data, block by block, and its value after a power-on reset.
-/
namespace Sys2Proof.Machine

/-! ### Why a step can stop -/

/-- The part has no fault: whatever reaches it is taken, refused with a result or discarded and counted (R153, R157).
No constructor, so no meaning can raise one. -/
inductive Fault where
  deriving DecidableEq, Repr

inductive Refusal where
  /-- Raised by exec alone, for a row that has no meaning yet. Safe: the step stops where the part goes on. -/
  | notModelled (mnemonic : String)
  deriving DecidableEq, Repr

/-! ### Floor engine (chapter 1) -/

/-- Table 1-2. -/
inductive FloorState where
  | halted | starting | normal | degraded | single
  deriving DecidableEq, Repr

/-- Section 1.1: the state of a floor line. -/
inductive LinkState where
  | disabled | ok | failed
  deriving DecidableEq, Repr

/-- Floor line A or B. -/
inductive LinkId where
  | a | b
  deriving DecidableEq, Repr

/-- R11: the outcome of one line in one station slot. -/
inductive SlotOutcome where
  | good | silent | corrupt | foreign
  deriving DecidableEq, Repr

/-- R11: the per-line statistics. -/
structure LinkStats where
  calls : Count32 := 0
  good : Count32 := 0
  silent : Count32 := 0
  corrupt : Count32 := 0
  foreign : Count32 := 0
  dead : Count32 := 0
  deriving DecidableEq, Repr

/-- One floor line: its state, its run counts (R15), its statistics (R11) and the frame last driven on it. -/
structure FloorLink where
  state : LinkState := .disabled
  deadRun : Nat := 0
  liveRun : Nat := 0
  stats : LinkStats := {}
  sent : List Byte := []
  deriving DecidableEq, Repr

/-- R19: the cause set. -/
structure CauseSet where
  lineA : Bool := false
  lineB : Bool := false
  quorum : Bool := false
  deriving DecidableEq, Repr

/-- Table 1-1. -/
structure RoundTable where
  ordinary : List Nat
  quick : List Nat
  gap : Nat
  period : Nat
  cmdSlots : Nat
  quorum : Nat
  window : Nat
  deriving DecidableEq, Repr

/-- What the floor engine keeps of one station (R12, R13). -/
structure Station where
  present : Bool := false
  absence : Nat := 0
  disagree : Nat := 0
  misplaced : Bool := false
  deriving DecidableEq, Repr

/-- The round in progress, or the last round when it has ended: its line set (R2), the station slots still to come with
their stations and whether they are quick slots (R4), and what has happened in it so far (R11 to R15). -/
structure Round where
  markTime : Time
  period : Nat
  onA : Bool
  onB : Bool
  slots : List (Nat × Bool)
  slotsDone : Nat := 0
  accepted : List Nat := []
  foreign : List Nat := []
  goodA : Bool := false
  goodB : Bool := false
  judged : Bool := false
  cmdLeft : Nat
  deriving DecidableEq, Repr

structure Floor where
  active : Option RoundTable := none
  pendingCopy : Option RoundTable := none
  staged : Option RoundTable := none
  state : FloorState := .halted
  causes : CauseSet := {}
  linkA : FloorLink := {}
  linkB : FloorLink := {}
  roundNo : Count32 := 0
  stations : Vector Station 60 := Vector.replicate 60 {}
  atQuorum : Nat := 0
  belowQuorum : Nat := 0
  startCount : Nat := 0
  presence : Nat := 0
  stopWaiting : Bool := false
  round : Option Round := none
  haltTimer : Option Time := none
  deriving DecidableEq, Repr

/-! ### Point unit (chapter 2) -/

/-- Table 2-1, tag 4. -/
inductive RawKind where
  | u12 | u16 | s16 | counter16 | flags16
  deriving DecidableEq, Repr

/-- Table 2-2. -/
inductive Quality where
  | unset | good | stale | bad | forced
  deriving DecidableEq, Repr

/-- Table 2-1. Fields that R24 holds as absent for a kind are none. -/
structure PointEntry where
  inUse : Bool
  station : Nat
  field : Nat
  kind : RawKind
  gain : Option Int
  offset : Option Int
  low : Int
  high : Int
  shift : Option Nat
  fresh : Nat
  incLimit : Option Nat
  deriving DecidableEq, Repr

/-- One point: its configured entry, the dynamic fields of Table 2-2 and its condition POINT_IMPLAUSIBLE (R32). -/
structure Point where
  entry : Option PointEntry := none
  value : Int := 0
  quality : Quality := .unset
  lastRaw : Word16 := 0
  lastRound : Count32 := 0
  implCount : Nat := 0
  forced : Option Int := none
  implausible : Bool := false
  deriving DecidableEq, Repr

/-! ### Burner unit and the burner fields of the fuel unit (chapters 3 and 4) -/

/-- Table 3-4. -/
inductive BurnerState where
  | off | purge | ignition | lightoff | run | lockout
  deriving DecidableEq, Repr

inductive Vote where
  | any | all
  deriving DecidableEq, Repr

/-- The intensity and flicker points of a scanner (Table 3-1, tags 2 to 5). -/
structure Scanner where
  intensity : Fin 256
  flicker : Fin 256
  deriving DecidableEq, Repr

/-- What a permissive asks (Table 3-2, tags 1 to 3). -/
inductive PermKind where
  | pointAtLeast (p : Fin 256) (threshold : Int)
  | pointAtMost (p : Fin 256) (threshold : Int)
  | coolerRunning
  deriving DecidableEq, Repr

structure Permissive where
  kind : PermKind
  running : Bool
  deriving DecidableEq, Repr

/-- How a burner lights its fuel: tag 17, or tags 18 and 19, of Table 3-1. R42 asks for exactly one. -/
inductive Ignition where
  | line (l : Fin 6)
  | selfPoint (p : Fin 256) (threshold : Int)
  deriving DecidableEq, Repr

/-- Table 3-1. -/
structure BurnerEntry where
  inUse : Bool
  scanner1 : Scanner
  scanner2 : Option Scanner
  onThreshold : Int
  offThreshold : Int
  flickerLow : Int
  flickerHigh : Int
  vote : Vote
  confirmCount : Nat
  failureCount : Nat
  purgeTime : Nat
  ignitionTrial : Nat
  lightoffTime : Nat
  lightoffFeed : Nat
  ignition : Ignition
  maxDemand : Nat
  demandRamp : Nat
  permissives : List Permissive
  deriving DecidableEq, Repr

/-- Table 3-3: the running timer of a burner. -/
inductive BurnerTimer where
  | purge | trial | lightoff
  deriving DecidableEq, Repr

/-- Table 3-6. -/
inductive LockoutCause where
  | flameInPurge | noIgnitionSource | noLightoffLine | ignitionFail | lightoffFail | lineFault | flameFail
  | permissiveLost | alarmTrip
  deriving DecidableEq, Repr

/-- A reading of the day clock: day number and millisecond of the day (R140). -/
structure DayReading where
  day : Nat
  ms : Nat
  deriving DecidableEq, Repr

/-- Table 3-6. -/
structure LockoutRecord where
  cause : LockoutCause
  stateLeft : BurnerState
  time : Time
  dayClock : Option DayReading
  roundNo : Count32
  alarm : Option (Fin 192)
  line : Option (Fin 6)
  /-- The permissive's number, 1 to 6. -/
  permissive : Option Nat
  scanner1 : Bool
  scanner2 : Bool
  vote : Bool
  presentRun : Nat
  absentRun : Nat
  deriving DecidableEq, Repr

/-- R70: the hold-cause set of a burner. -/
structure HoldSet where
  alarm : Bool := false
  quorum : Bool := false
  silence : Bool := false
  cooler : Bool := false
  deriving DecidableEq, Repr

/-- One burner: the dynamic fields of Table 3-3, and the demand record and hold-cause set that the fuel unit keeps for
it (R70, R71, R76). A scanner or vote is true when PRESENT. -/
structure Burner where
  entry : Option BurnerEntry := none
  state : BurnerState := .off
  scanner1 : Bool := false
  scanner2 : Bool := false
  vote : Bool := false
  presentRun : Nat := 0
  absentRun : Nat := 0
  confirmed : Bool := false
  permOk : List Bool := []
  timer : Option (BurnerTimer × Time) := none
  trialInLightoff : Option Time := none
  lightoffLine : Option (Fin 6) := none
  purgeAborts : Nat := 0
  lockout : Option LockoutRecord := none
  /-- R62: the later of the entry to RUN and the last posting of run time. -/
  runPosted : Time := 0
  requested : Nat := 0
  demand : Nat := 0
  undelivered : Nat := 0
  excess : Nat := 0
  hold : HoldSet := {}
  deriving DecidableEq, Repr

/-! ### Fuel unit (chapter 4) -/

/-- The fields of Table 4-1 that CONTINUOUS and PIECE lines share. -/
structure Metering where
  counter : Fin 256
  cv : Nat
  weight : Nat
  priority : Nat
  fmin : Nat
  fmax : Nat
  ramp : Nat
  deriving DecidableEq, Repr

/-- The kind of a line with the fields Table 4-1 marks for it. -/
inductive LineKind where
  | continuous (m : Metering) (tolerance window : Nat)
  | piece (m : Metering) (mass gap : Nat)
  | ignition
  deriving DecidableEq, Repr

/-- Table 4-1. -/
structure LineEntry where
  inUse : Bool
  kind : LineKind
  burner : Fin 3
  station : Nat
  flagPoint : Fin 256
  flagBit : Nat
  absenceLimit : Nat
  refresh : Nat
  deriving DecidableEq, Repr

/-- Table 4-2. -/
inductive FuelState where
  | out | ready | feeding | held | fault
  deriving DecidableEq, Repr

inductive Mode where
  | auto | manual
  deriving DecidableEq, Repr

/-- R83: the fault causes of a line. -/
inductive FaultCause where
  | faultBit | absent | deviation
  | alarm (a : Fin 192)
  deriving DecidableEq, Repr

/-- R80: a dose timer. -/
structure DoseTimer where
  start : Time
  interval : Nat
  deriving DecidableEq, Repr

/-- R85: the deviation check of a line. -/
structure Deviation where
  timer : Option Time := none
  seconds : Nat := 0
  expected : Nat := 0
  delivered : Nat := 0
  increments : Nat := 0
  deriving DecidableEq, Repr

/-- R87: the lifetime totals of a line. -/
structure Lifetime where
  mass : Count64 := 0
  heat : Count64 := 0
  pieces : Count64 := 0
  deriving DecidableEq, Repr

/-- Table 4-2 with the counts of R78, R81, R85 and R87. The defaults are those of a cleared line, which a line also has
after a power-on reset (R89 names the empty entry and the totals alone: DESIGN CHOICE, log entry 39). -/
structure Line where
  entry : Option LineEntry := none
  state : FuelState := .out
  mode : Mode := .auto
  feed : Nat := 0
  target : Nat := 0
  igniter : Bool := false
  dose : Option DoseTimer := none
  deviation : Deviation := {}
  refresh : Nat := 0
  lostDoses : Nat := 0
  faultCause : Option FaultCause := none
  lifetime : Lifetime := {}
  deriving DecidableEq, Repr

/-! ### Cooler unit (chapter 5) -/

/-- Table 5-1. -/
structure RunEntry where
  inUse : Bool
  station : Nat
  counter : Fin 256
  pressure : Fin 256
  pressureSet : Int
  baseRate : Int
  gain : Int
  minRate : Nat
  maxRate : Nat
  safeRate : Nat
  strokeMass : Nat
  timeoutFactor : Nat
  deriving DecidableEq, Repr

/-- Table 5-2. -/
structure CompartmentEntry where
  inUse : Bool
  station : Nat
  base : Nat
  safe : Nat
  boost : Nat
  zone : Option (Fin 8)
  deriving DecidableEq, Repr

/-- Table 5-3. -/
structure ZoneEntry where
  inUse : Bool
  point : Fin 256
  delta : Int
  hysteresis : Int
  persist : Nat
  deriving DecidableEq, Repr

/-- Table 5-5. -/
inductive CoolerState where
  | stopped | starting | running | safe
  deriving DecidableEq, Repr

/-- Table 5-4. -/
inductive RunState where
  | idle | stroking | stalled
  deriving DecidableEq, Repr

/-- Table 5-7. The table says 32-bit and not how a count passes its greatest value: it wraps, as the link counts do
(DESIGN CHOICE, log entry 40). -/
structure RunCounts where
  expiries : Count32 := 0
  skipped : Count32 := 0
  sent : Count32 := 0
  dropped : Count32 := 0
  confirmed : Count32 := 0
  abandoned : Count32 := 0
  unexpected : Count32 := 0
  deriving DecidableEq, Repr

/-- R99: a stroke timer. -/
structure StrokeTimer where
  start : Time
  period : Nat
  deriving DecidableEq, Repr

structure Run where
  entry : Option RunEntry := none
  state : RunState := .idle
  mode : Mode := .auto
  manualRate : Nat := 0
  rate : Nat := 0
  timer : Option StrokeTimer := none
  outstanding : List Time := []
  waiting : Nat := 0
  counts : RunCounts := {}
  refresh : Nat := 0
  deriving DecidableEq, Repr

structure Compartment where
  entry : Option CompartmentEntry := none
  speed : Nat := 0
  refresh : Nat := 0
  deriving DecidableEq, Repr

structure Zone where
  entry : Option ZoneEntry := none
  active : Bool := false
  onRun : Nat := 0
  offRun : Nat := 0
  diff : Int := 0
  deriving DecidableEq, Repr

structure Cooler where
  state : CoolerState := .stopped
  startTimer : Option Time := none
  /-- R92: the cooler is RUNNING since a start expiry that no round mark has followed, so the law does not yet apply. -/
  lawHeld : Bool := false
  redMark : Option Time := none
  runs : Vector Run 4 := Vector.replicate 4 {}
  compartments : Vector Compartment 12 := Vector.replicate 12 {}
  zones : Vector Zone 8 := Vector.replicate 8 {}
  deriving DecidableEq, Repr

/-! ### Command queue (chapter 6) -/

/-- Table 6-1. FEED, IGNITER, FAN and RATE are the level kinds, DOSE and STROKE the action kinds (R108). -/
inductive CommandKind where
  | feed | dose | igniter | stroke | fan | rate
  deriving DecidableEq, Repr

/-- R108: TRIP is the highest class, ROUTINE the lowest. -/
inductive CommandClass where
  | trip | control | routine
  deriving DecidableEq, Repr

inductive Origin where
  | fuel | cooler | passThrough
  deriving DecidableEq, Repr

/-- A proposed entry (section 6.2): an entry of Table 6-1 without its enqueue time. -/
structure Proposal where
  station : Nat
  kind : CommandKind
  value : Nat
  cls : CommandClass
  origin : Origin
  deriving DecidableEq, Repr

/-- Table 6-1. -/
structure QueueEntry where
  station : Nat
  kind : CommandKind
  value : Nat
  cls : CommandClass
  origin : Origin
  time : Time
  deriving DecidableEq, Repr

/-- Who queues a command of the fuel or the cooler unit: a line, a run or a compartment (R108). -/
inductive Sender where
  | line (l : Fin 6)
  | run (g : Fin 4)
  | compartment (k : Fin 12)
  deriving DecidableEq, Repr

/-- A command that waits for the end of its event, when the units hand over theirs in the order of R108. -/
structure Submission where
  sender : Sender
  command : Proposal
  deriving DecidableEq, Repr

/-- The command queue with its counts (R108, R112, R117). -/
structure CommandQueue where
  list : List QueueEntry := []
  /-- The model's own: the commands of the event in progress. Empty between events (log entry 37). -/
  submitted : List Submission := []
  overruns : Count32 := 0
  overrunsTrip : Count32 := 0
  overrunsControl : Count32 := 0
  overrunsRoutine : Count32 := 0
  merges : Count32 := 0
  lost : Count32 := 0
  overrun : Bool := false
  overrunSinceMark : Bool := false
  deriving DecidableEq, Repr

inductive FilterAction where
  | pass | clamp (min max : Nat) | block
  deriving DecidableEq, Repr

/-- Table 6-2. -/
structure FilterEntry where
  inUse : Bool
  station : Nat
  kind : CommandKind
  action : FilterAction
  deriving DecidableEq, Repr

/-! ### Alarm unit (chapter 7) -/

/-- Table 7-4: the internal conditions with their instances. -/
inductive Condition where
  | flameFail (b : Fin 3)
  | ignitionFail (b : Fin 3)
  | burnerLockout (b : Fin 3)
  | lineFault (l : Fin 6)
  | heatShortfall (b : Fin 3)
  | excessFire (b : Fin 3)
  | grateStall (g : Fin 4)
  | redRiver (z : Fin 8)
  | coolerSafe
  | lineFailed (x : LinkId)
  | quorumLost
  | stationAbsent (st : Fin 60)
  | stationMisplaced (st : Fin 60)
  | commandOverrun
  | plantSilent
  | pointImplausible (p : Fin 256)
  deriving DecidableEq, Repr

/-- Table 7-2, with the limit and deadband of Table 7-1 for the kinds that have them. -/
inductive AlarmSource where
  | pointHigh (p : Fin 256) (limit deadband : Int)
  | pointLow (p : Fin 256) (limit deadband : Int)
  | pointQuality (p : Fin 256)
  | internal (c : Condition)
  deriving DecidableEq, Repr

/-- Table 7-3. -/
inductive AlarmAction where
  | none
  | tripBurner (b : Fin 3)
  | holdFuel (b : Fin 3)
  | lineFault (l : Fin 6)
  | coolerSafe
  deriving DecidableEq, Repr

/-- Table 7-1. -/
structure AlarmEntry where
  inUse : Bool
  source : AlarmSource
  priority : Nat
  onDelay : Nat
  action : AlarmAction
  horn : Bool
  trip : Bool
  parent : Option (Fin 192)
  group : Option (Fin 4)
  shelving : Bool
  deriving DecidableEq, Repr

/-- Table 7-5. -/
inductive AlarmState where
  | normal | raised | held | returned | shelved | suppressed
  deriving DecidableEq, Repr

structure Alarm where
  entry : Option AlarmEntry := none
  state : AlarmState := .normal
  condition : Bool := false
  occurrence : BitVec 16 := 0
  raiseTime : Option Time := none
  ackTime : Option Time := none
  lastValue : Int := 0
  onDelay : Option Time := none
  shelve : Option Time := none
  /-- R121: the value last reported with the condition, for an internal source. -/
  reported : Int := 0
  deriving DecidableEq, Repr

/-- Table 7-7. -/
structure GroupEntry where
  inUse : Bool
  points : List (Fin 256)
  deriving DecidableEq, Repr

structure SnapshotItem where
  point : Fin 256
  value : Int
  quality : Quality
  deriving DecidableEq, Repr

/-- What a capture holds once a first alarm has been captured (Table 7-8). -/
structure Capture where
  alarm : Fin 192
  occurrence : BitVec 16
  time : Time
  dayClock : Option DayReading
  roundNo : Count32
  snapshot : List SnapshotItem
  deriving DecidableEq, Repr

/-- Table 7-8. The first alarm and what is recorded with it are absent while the record is empty (R135). -/
structure CaptureRecord where
  armed : Bool := true
  first : Option Capture := none
  followers : Nat := 0
  deriving DecidableEq, Repr

structure AlarmUnit where
  alarms : Vector Alarm 192 := Vector.replicate 192 {}
  /-- R130: the raised list, most urgent first. -/
  raisedList : List (Fin 192) := []
  silenced : Bool := false
  groups : Vector (Option GroupEntry) 4 := Vector.replicate 4 none
  captures : Vector CaptureRecord 4 := Vector.replicate 4 {}
  deriving DecidableEq, Repr

/-! ### Shift unit (chapter 8) -/

/-- R140: the base of a set day clock. -/
structure ClockBase where
  time : Time
  day : Nat
  ms : Nat
  deriving DecidableEq, Repr

/-- R147. -/
structure ShiftFlags where
  clockUnset : Bool := false
  clockChanged : Bool := false
  continued : Bool := false
  countersImplausible : Bool := false
  reportsLost : Bool := false
  deriving DecidableEq, Repr

/-- Table 8-2, per line. Pieces are a saturating 32-bit count. -/
structure LineAccount where
  mass : Count64 := 0
  heat : Count64 := 0
  pieces : Nat := 0
  deriving DecidableEq, Repr

/-- Table 8-2, per burner. -/
structure BurnerAccount where
  runTime : Count64 := 0
  starts : Nat := 0
  lockouts : Nat := 0
  deriving DecidableEq, Repr

/-- Table 8-2, per run. -/
structure RunAccount where
  confirmed : Nat := 0
  dropped : Nat := 0
  skipped : Nat := 0
  abandoned : Nat := 0
  clinker : Count64 := 0
  deriving DecidableEq, Repr

/-- Table 8-2: what the open record holds. -/
structure ShiftRecord where
  index : Nat := 0
  openTime : Time := 0
  openDay : Option DayReading := none
  flags : ShiftFlags := {}
  lines : Vector LineAccount 6 := Vector.replicate 6 {}
  burners : Vector BurnerAccount 3 := Vector.replicate 3 {}
  runs : Vector RunAccount 4 := Vector.replicate 4 {}
  redRiver : Count64 := 0
  raised : Vector Nat 4 := Vector.replicate 4 0
  shelves : Nat := 0
  lostA : Nat := 0
  lostB : Nat := 0
  overruns : Nat := 0
  noticesLost : Nat := 0
  deriving DecidableEq, Repr

/-- R144. -/
inductive CloseCause where
  | scheduled | commanded | reset
  deriving DecidableEq, Repr

/-- A record of the report ring: what it held when open, with what it took at its close (R144, step 2). -/
structure ClosedRecord where
  body : ShiftRecord
  sequence : Count32
  closeTime : Time
  closeDay : Option DayReading
  cause : CloseCause
  collected : Bool
  deriving DecidableEq, Repr

/-- R142: the boundary timer, with the position (1 to 4) of its start time in the plan. -/
structure Boundary where
  time : Time
  index : Nat
  deriving DecidableEq, Repr

structure Shift where
  clock : Option ClockBase := none
  plan : List Nat := []
  boundary : Option Boundary := none
  record : ShiftRecord := {}
  ring : List ClosedRecord := []
  nextSequence : Count32 := 1
  deriving DecidableEq, Repr

/-! ### Plant port (chapter 9) -/

/-- A good frame in the receive queue. -/
structure RxFrame where
  kind : Byte
  payload : List Byte
  deriving DecidableEq, Repr

inductive TxKind where
  | reply | report | digest | notice
  deriving DecidableEq, Repr

structure TxFrame where
  kind : TxKind
  payload : List Byte
  deriving DecidableEq, Repr

/-- The receiver inside a frame: the characters kept, kind first, the bad mark, and when the last was kept. -/
structure Partial where
  chars : List Byte
  bad : Bool
  last : Time
  deriving DecidableEq, Repr

/-- R163. -/
structure LinkCounts where
  good : Count32 := 0
  stray : Count32 := 0
  truncated : Count32 := 0
  badLength : Count32 := 0
  parity : Count32 := 0
  framing : Count32 := 0
  noise : Count32 := 0
  overrun : Count32 := 0
  badCheck : Count32 := 0
  idle : Count32 := 0
  breaks : Count32 := 0
  rxOverrun : Count32 := 0
  noticesLost : Count32 := 0
  deriving DecidableEq, Repr

inductive ResetCause where
  | power | pin | commanded
  deriving DecidableEq, Repr

/-- Table 9-3. -/
structure DigestEntry where
  inUse : Bool
  point : Fin 256
  deriving DecidableEq, Repr

structure Port where
  receiver : Option Partial := none
  rxQueue : List RxFrame := []
  txQueue : List TxFrame := []
  sending : Option TxFrame := none
  /-- The characters of the frame last taken by the transmitter, in the order in which they go out (R152, R160). -/
  sent : List SentChar := []
  /-- When the frame in transmission began. -/
  sendStart : Time := 0
  silent : Bool := false
  silenceTime : Nat := Config.silenceDefault
  /-- The last restart of the silence timer, which runs while `silent` is false (R156). -/
  silenceStart : Time := 0
  counts : LinkCounts := {}
  deferredCommit : Option Byte := none
  deferredSingle : Option Byte := none
  deferredStop : Option Byte := none
  resetPending : Bool := false
  /-- The reply of the pending RESET has been sent (R162). -/
  resetReplySent : Bool := false
  /-- The levels of the strap pins read at the last reset (R152). -/
  strap1 : Bool := false
  strap2 : Bool := false
  resetCause : ResetCause := .power
  digestList : Vector (Option DigestEntry) 16 := Vector.replicate 16 none
  deriving DecidableEq, Repr

/-! ### The part -/

structure State where
  timeBase : Time := 0
  floor : Floor := {}
  points : Vector Point 256 := Vector.replicate 256 {}
  burners : Vector Burner 3 := Vector.replicate 3 {}
  lines : Vector Line 6 := Vector.replicate 6 {}
  cooler : Cooler := {}
  queue : CommandQueue := {}
  filters : Vector (Option FilterEntry) 32 := Vector.replicate 32 none
  alarm : AlarmUnit := {}
  shift : Shift := {}
  port : Port := {}
  /-- The TRIP and HORN outputs, true when asserted (section 1.4). -/
  trip : Bool := false
  horn : Bool := false
  /-- The model's own count of free values taken (log entry 3). -/
  freeIndex : Nat := 0
  /-- The commands that wait, first in first out (the model's own). -/
  pending : List Instr := []
  deriving DecidableEq, Repr

/-- The payload of the digest built at a power-on reset (Table 10-4): every field is 0 but the top vector at 0FH,
which is 255 for NONE. -/
def firstDigest : List Byte := List.replicate 15 0 ++ 255#8 :: List.replicate 217 0

/-- The part right after a power-on reset (R1, R22, R41, R63, R89, R107, R118, R139, R151, R163). The entry to HALTED
starts the digest timer and builds a digest (R161, kind 43H by R165), which the idle transmitter takes (R160). -/
def State.reset : State :=
  { floor := { haltTimer := some Config.haltedDigestMs }
    shift := { record := { flags := { clockUnset := true } } }
    port :=
      { sending := some { kind := .digest, payload := firstDigest }
        sent := frameChars (frameBytes 0x43#8 firstDigest) } }

end Sys2Proof.Machine
end

