-- ==== Sys2Proof/Machine/Ops.lean ====
section
/-!
DEFINITION. Operations shared by all units: arithmetic as section 1.5 names it, updates of
one part of the state, the day clock, postings to the open shift record, and the transmit queue.
-/
namespace Sys2Proof.Machine

/-! ### Arithmetic (section 1.5) -/

/-- Division rounded to the nearest integer, halves away from zero. -/
def roundedDiv (n : Int) (d : Nat) : Int := n.sign * (((2 * n.natAbs + d) / (2 * d) : Nat) : Int)

/-- Division rounded toward zero. -/
def truncatedDiv (n d : Int) : Int := n.tdiv d

/-- Division of naturals rounded up. -/
def ceilDiv (n d : Nat) : Nat := (n + d - 1) / d

/-- The value brought within the limits. -/
def clampInt (x lo hi : Int) : Int := if x < lo then lo else if hi < x then hi else x

/-- The value brought within the limits. -/
def clampNat (x lo hi : Nat) : Nat := if x < lo then lo else if hi < x then hi else x

/-- A count that saturates at its greatest value. -/
def satAdd (top n k : Nat) : Nat := min top (n + k)

/-- An addition to an unsigned 64-bit total (R87, Table 8-2). A sum that does not fit is a free value (log entry 2). -/
def add64 (x : Count64) (n : Nat) : Count64 :=
  if x.toNat + n < 2 ^ 64 then BitVec.ofNat 64 (x.toNat + n) else Config.overflow64 (x.toNat + n)

/-- The object number `n` of a range that starts at `base`, as an index from 0. -/
def objectIndex (size : Nat) (base n : Int) : Option (Fin size) :=
  if h : base ≤ n ∧ (n - base).toNat < size then some ⟨(n - base).toNat, h.2⟩ else none

/-! ### Updates of one part of the state -/

def State.modFloor (s : State) (f : Floor → Floor) : State := { s with floor := f s.floor }

def State.modPoint (s : State) (p : Fin 256) (f : Point → Point) : State :=
  { s with points := s.points.set p (f s.points[p]) }

def State.modBurner (s : State) (b : Fin 3) (f : Burner → Burner) : State :=
  { s with burners := s.burners.set b (f s.burners[b]) }

def State.modLine (s : State) (l : Fin 6) (f : Line → Line) : State :=
  { s with lines := s.lines.set l (f s.lines[l]) }

def State.modCooler (s : State) (f : Cooler → Cooler) : State := { s with cooler := f s.cooler }

def State.modRun (s : State) (g : Fin 4) (f : Run → Run) : State :=
  s.modCooler fun c => { c with runs := c.runs.set g (f c.runs[g]) }

def State.modCompartment (s : State) (k : Fin 12) (f : Compartment → Compartment) : State :=
  s.modCooler fun c => { c with compartments := c.compartments.set k (f c.compartments[k]) }

def State.modZone (s : State) (z : Fin 8) (f : Zone → Zone) : State :=
  s.modCooler fun c => { c with zones := c.zones.set z (f c.zones[z]) }

def State.modQueue (s : State) (f : CommandQueue → CommandQueue) : State := { s with queue := f s.queue }

def State.modAlarmUnit (s : State) (f : AlarmUnit → AlarmUnit) : State := { s with alarm := f s.alarm }

def State.modAlarm (s : State) (a : Fin 192) (f : Alarm → Alarm) : State :=
  s.modAlarmUnit fun u => { u with alarms := u.alarms.set a (f u.alarms[a]) }

def State.modShift (s : State) (f : Shift → Shift) : State := { s with shift := f s.shift }

def State.modPort (s : State) (f : Port → Port) : State := { s with port := f s.port }

def State.modCounts (s : State) (f : LinkCounts → LinkCounts) : State :=
  s.modPort fun p => { p with counts := f p.counts }

/-- The event happens at reading `t`. The time base never goes back (R1, log entry 5). -/
def State.advance (s : State) (t : Time) : State := { s with timeBase := max s.timeBase t }

def State.alarmAt (s : State) (a : Fin 192) : Alarm := s.alarm.alarms[a]

def State.runAt (s : State) (g : Fin 4) : Run := s.cooler.runs[g]

/-! ### What other units see of configured entries -/

/-- The entry of a point that is in use. -/
def State.pointEntry? (s : State) (p : Fin 256) : Option PointEntry :=
  (s.points[p]).entry.filter (·.inUse)

/-- The quality others see: a point that is not in use is seen as UNSET (R25). -/
def State.pointQuality (s : State) (p : Fin 256) : Quality :=
  if (s.pointEntry? p).isSome then (s.points[p]).quality else .unset

/-- A point that is GOOD. -/
def State.pointGood (s : State) (p : Fin 256) : Bool := s.pointQuality p == .good

/-- The entry of a burner that is in use. -/
def State.burnerEntry? (s : State) (b : Fin 3) : Option BurnerEntry := (s.burners[b]).entry.filter (·.inUse)

/-- The entry of a fuel line that is in use. -/
def State.lineEntry? (s : State) (l : Fin 6) : Option LineEntry := (s.lines[l]).entry.filter (·.inUse)

def State.runEntry? (s : State) (g : Fin 4) : Option RunEntry := (s.runAt g).entry.filter (·.inUse)

def State.compartmentEntry? (s : State) (k : Fin 12) : Option CompartmentEntry :=
  (s.cooler.compartments[k]).entry.filter (·.inUse)

def State.zoneEntry? (s : State) (z : Fin 8) : Option ZoneEntry := (s.cooler.zones[z]).entry.filter (·.inUse)

/-- The entry of an alarm that is in use. -/
def State.alarmEntry? (s : State) (a : Fin 192) : Option AlarmEntry := (s.alarmAt a).entry.filter (·.inUse)

/-- The metering fields of a CONTINUOUS or PIECE line. -/
def LineKind.metering? : LineKind → Option Metering
  | .continuous m _ _ => some m
  | .piece m _ _ => some m
  | .ignition => none

/-- The indices of the objects of a table, in number order. -/
def indices (n : Nat) : List (Fin n) := List.finRange n

/-- Station ids 1 to 60 as indices (Table 2). -/
def stationIndex (id : Nat) : Option (Fin 60) := objectIndex 60 1 id

/-- The stations of the active round table's lists: ordinary, then quick (Table 1-1). -/
def RoundTable.stations (t : RoundTable) : List Nat := t.ordinary ++ t.quick

def State.onActiveList (s : State) (id : Nat) : Bool :=
  match s.floor.active with
  | none => false
  | some t => t.stations.contains id

def State.onQuickList (s : State) (id : Nat) : Bool :=
  match s.floor.active with
  | none => false
  | some t => t.quick.contains id

/-! ### Day clock (R140) -/

def dayMs : Nat := 86400000

/-- R140: a reading of the day clock at a time-base reading. -/
def ClockBase.reading (c : ClockBase) (now : Time) : DayReading :=
  let total := c.ms + (now - c.time)
  { day := (c.day + total / dayMs) % 65536, ms := total % dayMs }

/-- The present reading of the day clock, or none where it is unset. -/
def State.dayClock (s : State) : Option DayReading := s.shift.clock.map (·.reading s.timeBase)

/-! ### Postings to the open shift record (R146) -/

/-- Greatest value of a saturating 32-bit count (Table 8-2). -/
def top32 : Nat := 2 ^ 32 - 1

def State.post (s : State) (f : ShiftRecord → ShiftRecord) : State :=
  s.modShift fun x => { x with record := f x.record }

def State.flagRecord (s : State) (f : ShiftFlags → ShiftFlags) : State :=
  s.post fun r => { r with flags := f r.flags }

def State.postLine (s : State) (l : Fin 6) (f : LineAccount → LineAccount) : State :=
  s.post fun r => { r with lines := r.lines.set l (f r.lines[l]) }

def State.postBurner (s : State) (b : Fin 3) (f : BurnerAccount → BurnerAccount) : State :=
  s.post fun r => { r with burners := r.burners.set b (f r.burners[b]) }

def State.postRun (s : State) (g : Fin 4) (f : RunAccount → RunAccount) : State :=
  s.post fun r => { r with runs := r.runs.set g (f r.runs[g]) }

/-! ### The transmit queue and the transmitter (R159, R160) -/

/-- R165: the kind of an upward frame. -/
def TxKind.code : TxKind → Byte
  | .reply => 0x41#8 | .report => 0x42#8 | .digest => 0x43#8 | .notice => 0x44#8

/-- R152, R160: the characters of a frame, in the order in which they are sent. -/
def TxFrame.characters (f : TxFrame) : List SentChar := frameChars (frameBytes f.kind.code f.payload)

/-- R160: an idle transmitter takes the head of a queue that is not empty, and sends its characters back to back. -/
def Port.startSending (p : Port) (now : Time) : Port :=
  match p.sending, p.txQueue with
  | none, f :: rest => { p with sending := some f, sent := f.characters, txQueue := rest, sendStart := now }
  | _, _ => p

/-- R159: one notice lost, counted by the port and posted. -/
def State.noticeLost (s : State) : State :=
  (s.modCounts fun c => { c with noticesLost := c.noticesLost + 1 }).post
    fun r => { r with noticesLost := satAdd top32 r.noticesLost 1 }

/-- The list without its first frame of a kind. -/
def dropFirstKind (k : TxKind) (q : List TxFrame) : List TxFrame := q.eraseP (·.kind == k)

def holdsKind (k : TxKind) (q : List TxFrame) : Bool := q.any (·.kind == k)

def State.setTxQueue (s : State) (q : List TxFrame) : State := s.modPort fun p => { p with txQueue := q }

def State.appendTx (s : State) (f : TxFrame) : State := s.setTxQueue (s.port.txQueue ++ [f])

/-- R159 for a REPLY or REPORT. A full queue without NOTICE and DIGEST does not arise (R158); the frame is then
discarded (log entry 19). -/
def State.queueReplyFrame (s : State) (f : TxFrame) : State :=
  if s.port.txQueue.length < Config.transmitPlaces then s.appendTx f
  else if holdsKind .notice s.port.txQueue then
    (s.noticeLost.setTxQueue (dropFirstKind .notice s.port.txQueue)).appendTx f
  else if holdsKind .digest s.port.txQueue then
    (s.setTxQueue (dropFirstKind .digest s.port.txQueue)).appendTx f
  else s

/-- R159 for a DIGEST. -/
def State.queueDigestFrame (s : State) (f : TxFrame) : State :=
  if holdsKind .digest s.port.txQueue then
    s.setTxQueue (s.port.txQueue.map fun g => if g.kind == .digest then f else g)
  else if s.port.txQueue.length < Config.transmitPlaces then s.appendTx f
  else s

/-- R159 for a NOTICE. -/
def State.queueNoticeFrame (s : State) (f : TxFrame) : State :=
  if s.port.txQueue.length < Config.transmitPlaces then s.appendTx f else s.noticeLost

/-- R159 and R160: a frame is offered to the transmit queue, and an idle transmitter takes the head. -/
def State.offerFrame (s : State) (f : TxFrame) : State :=
  let queued := match f.kind with
    | .reply => s.queueReplyFrame f
    | .report => s.queueReplyFrame f
    | .digest => s.queueDigestFrame f
    | .notice => s.queueNoticeFrame f
  queued.modPort fun p => p.startSending s.timeBase

/-! ### Results and replies (R157, R158, R165) -/

/-- Table 9-2, in the order that numbers the results. -/
inductive Result where
  | done | clamped | passed | blocked | replaced | badFrame | unknownKind | badIndex | invalid | inUse | notPermitted
  | notConfigured | notAckable | stale | notFound
  deriving DecidableEq, Repr

def Result.code : Result → Nat
  | .done => 0 | .clamped => 1 | .passed => 2 | .blocked => 3 | .replaced => 4 | .badFrame => 5 | .unknownKind => 6
  | .badIndex => 7 | .invalid => 8 | .inUse => 9 | .notPermitted => 10 | .notConfigured => 11 | .notAckable => 12
  | .stale => 13 | .notFound => 14

/-- R167: check codes and reasons are one enumerator, numbered in this order. -/
inductive CheckCode where
  | state | floor | scanner | permissive | lines | noLightoffLine | alarm | flame | faultBit | feeding | presence
  | station | burner | mode | lineState | cooler | value | owned | filter | queueFull
  deriving DecidableEq, Repr

def CheckCode.code : CheckCode → Nat
  | .state => 0 | .floor => 1 | .scanner => 2 | .permissive => 3 | .lines => 4 | .noLightoffLine => 5 | .alarm => 6
  | .flame => 7 | .faultBit => 8 | .feeding => 9 | .presence => 10 | .station => 11 | .burner => 12 | .mode => 13
  | .lineState => 14 | .cooler => 15 | .value => 16 | .owned => 17 | .filter => 18 | .queueFull => 19

/-- R167: an integer item in the narrowest encoding that holds it. An integer below −2147483648, which no encoding of Table
10-2 holds, is sent as 09H with its eight two's complement bytes (DESIGN CHOICE, log entry 49). -/
def itemInt (tag : Nat) (i : Int) : List Byte :=
  BitVec.ofNat 8 tag ::
    (if 0 ≤ i ∧ i ≤ 255 then 1#8 :: beInt 1 i
     else if -32768 ≤ i ∧ i ≤ 32767 then 2#8 :: beInt 2 i
     else if -2147483648 ≤ i ∧ i ≤ 2147483647 then 3#8 :: beInt 4 i
     else 9#8 :: beInt 8 i)

/-- Table 10-2: an enumerator item. -/
def itemEnum (tag n : Nat) : List Byte := [BitVec.ofNat 8 tag, 4#8, BitVec.ofNat 8 n]

/-- An answer of an owning block: its result and the items that follow the three header bytes. -/
structure Answer where
  result : Result
  body : List Byte := []
  deriving DecidableEq, Repr

def Answer.ok : Answer := { result := .done }

/-- R167: a refusal that names a check code. -/
def Answer.check (r : Result) (c : CheckCode) : Answer := { result := r, body := itemEnum 1 c.code }

/-- R167: a refusal that names a check code and an object's number. -/
def Answer.checkObject (r : Result) (c : CheckCode) (n : Nat) : Answer :=
  { result := r, body := itemEnum 1 c.code ++ itemInt 2 n }

/-- R167: a CLAMPED reply carries the value held. -/
def Answer.clampedTo (i : Int) : Answer := { result := .clamped, body := itemInt 1 i }

/-- R165: the payload of a REPLY. -/
def replyPayload (number kind : Byte) (a : Answer) : List Byte :=
  number :: kind :: BitVec.ofNat 8 a.result.code :: a.body

/-- The reply to the request of a kind and number is queued (R157, R159). -/
def State.reply (s : State) (number kind : Byte) (a : Answer) : State :=
  s.offerFrame { kind := .reply, payload := replyPayload number kind a }

end Sys2Proof.Machine
end

