-- ==== Sys2Proof/Machine/Flags.lean ====
section
/-!
DEFINITION. The conditions the units read from one another's state: internal conditions (Table 7-4), permissives (R47),
fault bits (R84), hold causes (R70), alarm conditions (R38, R121), and the HORN and TRIP lines (R131, R132).
-/
namespace Sys2Proof.Machine

/-! ### Internal conditions (Table 7-4) -/

def LockoutCause.isFlameFail : LockoutCause → Bool
  | .flameFail => true | .lightoffFail => true | .flameInPurge => true
  | _ => false

def LockoutCause.isIgnitionFail : LockoutCause → Bool
  | .ignitionFail => true | .noIgnitionSource => true
  | _ => false

/-- R60: the burner is in LOCKOUT and the cause of its record satisfies `f`. -/
def Burner.lockedOutWith (b : Burner) (f : LockoutCause → Bool) : Bool :=
  b.state == .lockout && b.lockout.any fun r => f r.cause

def Floor.link (fl : Floor) : LinkId → FloorLink
  | .a => fl.linkA
  | .b => fl.linkB

/-- A station's record, for an id of a list. -/
def Floor.stationAt (fl : Floor) (id : Nat) : Station :=
  match stationIndex id with
  | some i => fl.stations[i]
  | none => {}

/-- R13: STATION_ABSENT of a station. -/
def State.stationAbsent (s : State) (st : Fin 60) : Bool :=
  s.onActiveList (st.val + 1) && 1 ≤ (s.floor.stations[st]).absence

/-- The present truth of an internal condition, as its owning block keeps it (Table 7-4). -/
def State.conditionHolds (s : State) : Condition → Bool
  | .flameFail b => (s.burners[b]).lockedOutWith LockoutCause.isFlameFail
  | .ignitionFail b => (s.burners[b]).lockedOutWith LockoutCause.isIgnitionFail
  | .burnerLockout b => (s.burners[b]).state == .lockout
  | .lineFault l => (s.lines[l]).state == .fault
  | .heatShortfall b => 0 < (s.burners[b]).undelivered
  | .excessFire b => 0 < (s.burners[b]).excess
  | .grateStall g => (s.runAt g).state == .stalled
  | .redRiver z => (s.cooler.zones[z]).active
  | .coolerSafe => s.cooler.state == .safe
  | .lineFailed x => (s.floor.link x).state == .failed
  | .quorumLost => s.floor.causes.quorum
  | .stationAbsent st => s.stationAbsent st
  | .stationMisplaced st => (s.floor.stations[st]).misplaced
  | .commandOverrun => s.queue.overrun
  | .plantSilent => s.port.silent
  | .pointImplausible p => (s.points[p]).implausible

def truthValue (t : Bool) : Int := if t then 1 else 0

/-- The value an internal condition carries (Table 7-4, last column). -/
def State.conditionValue (s : State) : Condition → Int
  | .heatShortfall b => (s.burners[b]).undelivered
  | .excessFire b => (s.burners[b]).excess
  | .redRiver z => (s.cooler.zones[z]).diff
  | .quorumLost => s.floor.presence
  | .stationAbsent st => (s.floor.stations[st]).absence
  | .commandOverrun => s.queue.overruns.toNat
  | .pointImplausible p => (s.points[p]).implCount
  | .flameFail b => truthValue (s.conditionHolds (.flameFail b))
  | .ignitionFail b => truthValue (s.conditionHolds (.ignitionFail b))
  | .burnerLockout b => truthValue (s.conditionHolds (.burnerLockout b))
  | .lineFault l => truthValue (s.conditionHolds (.lineFault l))
  | .grateStall g => truthValue (s.conditionHolds (.grateStall g))
  | .coolerSafe => truthValue (s.conditionHolds .coolerSafe)
  | .lineFailed x => truthValue (s.conditionHolds (.lineFailed x))
  | .stationMisplaced st => truthValue (s.conditionHolds (.stationMisplaced st))
  | .plantSilent => truthValue (s.conditionHolds .plantSilent)

/-! ### Alarm conditions (R38, R121) -/

def Quality.readable (q : Quality) : Bool := q == .good || q == .forced

/-- R38: a POINT_HIGH condition with limit `h` and deadband `d`; `old` is the condition kept. -/
def highCondition (q : Quality) (v h d : Int) (old : Bool) : Bool :=
  if q.readable then if h ≤ v then true else if v < h - d then false else old else old

/-- R38: a POINT_LOW condition. -/
def lowCondition (q : Quality) (v h d : Int) (old : Bool) : Bool :=
  if q.readable then if v ≤ h then true else if h + d < v then false else old else old

/-- R38, R121: the condition of an entry with source `src`, where `old` is the condition it had. -/
def State.sourceHolds (s : State) (src : AlarmSource) (old : Bool) : Bool :=
  match src with
  | .pointHigh p h d => highCondition (s.pointQuality p) (s.points[p]).value h d old
  | .pointLow p h d => lowCondition (s.pointQuality p) (s.points[p]).value h d old
  | .pointQuality p => !(s.pointQuality p).readable
  | .internal c => s.conditionHolds c

/-- R121: the value reported with a change of the condition; a point source reads its point at the change of state. -/
def State.reportedValue (s : State) (src : AlarmSource) (old : Int) : Int :=
  match src with
  | .internal c => s.conditionValue c
  | _ => old

/-- R121: the source value recorded at a state change. -/
def State.sourceValue (s : State) (src : AlarmSource) (reported : Int) : Int :=
  match src with
  | .pointHigh p _ _ => (s.points[p]).value
  | .pointLow p _ _ => (s.points[p]).value
  | .pointQuality p => (s.points[p]).value
  | .internal _ => reported

/-- R122: the active states. -/
def AlarmState.active : AlarmState → Bool
  | .raised => true | .held => true | .suppressed => true
  | _ => false

/-- R122: the parent's entry is in use and in an active state. -/
def State.parentActive (s : State) (e : AlarmEntry) : Bool :=
  e.parent.any fun p => (s.alarmEntry? p).isSome && (s.alarmAt p).state.active

/-- R42: an alarm targets a burner when its action is TRIP_BURNER or HOLD_FUEL of it. -/
def AlarmAction.targets (b : Fin 3) : AlarmAction → Bool
  | .tripBurner b' => b' == b
  | .holdFuel b' => b' == b
  | _ => false

/-- The lowest-numbered in-use alarm whose entry and state satisfy `f`. -/
def State.findAlarm (s : State) (f : AlarmEntry → AlarmState → Bool) : Option (Fin 192) :=
  (indices 192).find? fun a => (s.alarmEntry? a).any fun e => f e (s.alarmAt a).state

/-- R48, R61: a priority-1 alarm that targets the burner and is RAISED, HELD or SUPPRESSED. -/
def State.burnerBlockedBy (s : State) (b : Fin 3) : Option (Fin 192) :=
  s.findAlarm fun e st => e.priority == 1 && e.action.targets b && st.active

/-- R91, R94: an alarm whose action is COOLER_SAFE and that is RAISED or HELD. -/
def State.coolerBlockedBy (s : State) : Option (Fin 192) :=
  s.findAlarm fun e st => e.action == .coolerSafe && (st == .raised || st == .held)

/-! ### Permissives (R47) and fault bits (R84) -/

/-- R47: a permissive is satisfied. -/
def State.permissiveMet (s : State) : PermKind → Bool
  | .pointAtLeast p t => s.pointGood p && t ≤ (s.points[p]).value
  | .pointAtMost p t => s.pointGood p && (s.points[p]).value ≤ t
  | .coolerRunning => s.cooler.state == .running

/-- R84: a FLAGS16 point that is GOOD or FORCED. -/
def State.flagsReadable (s : State) (p : Fin 256) : Bool :=
  (s.pointEntry? p).any (·.kind == .flags16) && (s.pointQuality p).readable

/-- R84: the fault bit of a line reads as set. -/
def State.faultBitSet (s : State) (e : LineEntry) : Bool :=
  s.flagsReadable e.flagPoint && ((s.points[e.flagPoint]).value.toNat / 2 ^ e.flagBit) % 2 == 1

/-! ### Hold causes (R70) -/

def HoldSet.nonempty (h : HoldSet) : Bool := h.alarm || h.quorum || h.silence || h.cooler

inductive HoldCause where
  | alarm | quorum | silence | cooler
  deriving DecidableEq, Repr

def HoldSet.put (h : HoldSet) (c : HoldCause) (v : Bool) : HoldSet :=
  match c with
  | .alarm => { h with alarm := v }
  | .quorum => { h with quorum := v }
  | .silence => { h with silence := v }
  | .cooler => { h with cooler := v }

/-- R129: some in-use HOLD_FUEL entry of the burner is RAISED or HELD. -/
def State.alarmHolds (s : State) (b : Fin 3) : Bool :=
  (s.findAlarm fun e st => e.action == .holdFuel b && (st == .raised || st == .held)).isSome

/-- R70: the floor is DEGRADED with QUORUM in its cause set. -/
def State.quorumHolds (s : State) : Bool := s.floor.state == .degraded && s.floor.causes.quorum

/-! ### HORN and TRIP (R131, R132) -/

/-- R132: any burner in LOCKOUT, or any in-use trip-routed entry RAISED or HELD. -/
def State.tripDemanded (s : State) : Bool :=
  (indices 3).any (fun b => (s.burners[b]).state == .lockout) ||
    (s.findAlarm fun e st => e.trip && (st == .raised || st == .held)).isSome

/-- R131: an in-use horn-routed entry RAISED or RETURNED, and the silenced flag clear. -/
def State.hornDemanded (s : State) : Bool :=
  (s.findAlarm fun e st => e.horn && (st == .raised || st == .returned)).isSome && !s.alarm.silenced

/-- R131, R132: the two lines follow the state at the end of each event. -/
def State.driveLines (s : State) : State := { s with trip := s.tripDemanded, horn := s.hornDemanded }

/-- The outcome of an event: the state with the HORN and TRIP lines computed again. No event stops the part. -/
def State.conclude (s : State) : Host.Outcome State Fault Refusal := .next s.driveLines

end Sys2Proof.Machine
end

