-- ==== Sys2Proof/Machine/Apportion.lean ====
section
/-!
DEFINITION. Apportionment as pure arithmetic (R73 to R76) and the feed ramp (R77).
-/
namespace Sys2Proof.Machine

/-- What apportionment reads of one eligible line: its commanded feed C and its configured fields. -/
structure Share where
  line : Fin 6
  feed : Nat
  cv : Nat
  weight : Nat
  priority : Nat
  fmin : Nat
  fmax : Nat
  deriving DecidableEq, Repr

/-- The heat of a feed, floor(C × CV / 3600). -/
def heatOf (feed cv : Nat) : Nat := feed * cv / 3600

/-- The feed that carries a heat, rounded to nearest: (H × 3600 + CV div 2) div CV. -/
def feedOf (heat cv : Nat) : Nat := (heat * 3600 + cv / 2) / cv

/-- R74, step 5: the cap of a line; a held line can deliver no more than its present feed. -/
def Share.cap (x : Share) (held : Bool) : Nat :=
  if held then min (heatOf x.fmax x.cv) (ceilDiv (x.feed * x.cv) 3600) else heatOf x.fmax x.cv

def insertShare (x : Share) : List Share → List Share
  | [] => [x]
  | y :: ys => if x.priority ≤ y.priority then x :: y :: ys else y :: insertShare x ys

/-- The eligible lines in ascending priority number. -/
def sortShares (xs : List Share) : List Share := xs.foldr insertShare []

def totalWeight (xs : List Share) : Nat := (xs.map (·.weight)).sum

/-- R73, step 3: each line's share by weight, without the remainder. -/
def baseShares (dn : Nat) (xs : List Share) : List (Share × Nat) :=
  xs.map fun x => (x, dn * x.weight / totalWeight xs)

/-- R73, step 3: the remainder goes to the line with the lowest priority number, which stands first. -/
def withRemainder (dn : Nat) (hs : List (Share × Nat)) : List (Share × Nat) :=
  match hs with
  | [] => []
  | (x, h) :: rest => (x, h + (dn - (hs.map (·.2)).sum)) :: rest

/-- One line after steps 4 and 5 of R74. -/
structure Part where
  share : Share
  cap : Nat
  assigned : Nat
  spill : Nat
  cut : Bool
  deriving DecidableEq, Repr

/-- R74, steps 4 and 5: minimum cut and cap clamp. -/
def fitShare (held : Bool) (xh : Share × Nat) : Part :=
  let cap := xh.1.cap held
  if feedOf xh.2 xh.1.cv < xh.1.fmin then
    { share := xh.1, cap := cap, assigned := 0, spill := xh.2, cut := true }
  else
    { share := xh.1, cap := cap, assigned := min xh.2 cap, spill := xh.2 - min xh.2 cap, cut := false }

/-- R74, step 5: a line whose assigned heat equals its cap is capped. -/
def Part.capped (p : Part) : Bool := !p.cut && p.assigned == p.cap

/-- R74, step 6: one pass in ascending priority; what is left of the spill is the second result. -/
def substitute : List Part → Nat → List Part × Nat
  | [], spill => ([], spill)
  | p :: ps, spill =>
    if p.cut || p.capped then
      let r := substitute ps spill
      (p :: r.1, r.2)
    else
      let t := min spill (p.cap - p.assigned)
      let r := substitute ps (spill - t)
      ({ p with assigned := p.assigned + t } :: r.1, r.2)

/-- The outcome of an apportionment: assigned heat of each eligible line, undelivered heat U and fire excess Xf. -/
structure Apportionment where
  assigned : List (Fin 6 × Nat)
  undelivered : Nat
  fireExcess : Nat
  deriving DecidableEq, Repr

/-- R75, step 7: the line with the lowest priority number fires at its least feed. -/
def minimumFire (dn : Nat) (held : Bool) (x : Share) (rest : List Share) : Apportionment :=
  let a := max (ceilDiv (x.fmin * x.cv) 3600) (min dn (x.cap held))
  { assigned := (x.line, a) :: rest.map fun y => (y.line, 0), undelivered := dn - a, fireExcess := a - dn }

/-- R73 to R75: net demand `dn` is shared among the eligible lines, given in ascending priority number. -/
def apportion (dn : Nat) (held : Bool) (xs : List Share) : Apportionment :=
  match xs with
  | [] => { assigned := [], undelivered := dn, fireExcess := 0 }
  | x :: rest =>
    let parts := (withRemainder dn (baseShares dn xs)).map (fitShare held)
    if parts.all (·.cut) && 0 < dn then minimumFire dn held x rest
    else
      let r := substitute parts (parts.map (·.spill)).sum
      { assigned := r.1.map fun p => (p.share.line, p.assigned), undelivered := r.2, fireExcess := 0 }

/-- The heat assigned to a line; a line outside the eligible set has none (R76, step 8). -/
def Apportionment.heat (r : Apportionment) (l : Fin 6) : Nat :=
  match r.assigned.find? (·.1 == l) with
  | some x => x.2
  | none => 0

/-- R76, step 8: the target feed of an automatic line. -/
def targetFeed (m : Metering) (heat : Nat) : Nat :=
  let f := feedOf heat m.cv
  if f = 0 then 0 else clampNat f m.fmin m.fmax

/-- R72: the step of a ramp per round. -/
def rampStep (ramp period : Nat) : Nat := max 1 (ramp * period / 1000)

/-- R72: the effective demand after one round mark. -/
def nextDemand (d requested step : Nat) (held : Bool) : Nat :=
  if d < requested then (if held then d else min requested (d + step)) else max requested (d - step)

/-- R77: the feed of an automatic line after one round mark, before the hold. -/
def rampedFeed (m : Metering) (period c target : Nat) : Nat :=
  let step := rampStep m.ramp period
  if c = 0 then (if 0 < target then m.fmin else 0)
  else if c < target then (if m.ramp = 0 then target else min target (c + step))
  else if target = 0 then (if m.ramp = 0 then 0 else if m.fmin ≤ c - step then c - step else 0)
  else (if m.ramp = 0 then target else max target (c - step))

/-- R77: while the hold-cause set is not empty, the new feed may not exceed the old. -/
def nextFeed (m : Metering) (period c target : Nat) (held : Bool) : Nat :=
  let n := rampedFeed m period c target
  if held && c < n then c else n

end Sys2Proof.Machine
end

