-- ==== Sys2Proof/Machine/Queue.lean ====
section
/-!
DEFINITION. The command queue (chapter 6): order, merging, the full queue, and the report of a loss to its owner.
-/
namespace Sys2Proof.Machine

/-- R108: TRIP before CONTROL before ROUTINE. -/
def CommandClass.rank : CommandClass → Nat
  | .trip => 0 | .control => 1 | .routine => 2

/-- R108: the level kinds. -/
def CommandKind.isLevel : CommandKind → Bool
  | .feed => true | .igniter => true | .fan => true | .rate => true
  | .dose => false | .stroke => false

def Proposal.entry (p : Proposal) (now : Time) : QueueEntry :=
  { station := p.station, kind := p.kind, value := p.value, cls := p.cls, origin := p.origin, time := now }

/-- R108: an entry takes the tail of its class. -/
def insertTail (e : QueueEntry) (q : List QueueEntry) : List QueueEntry :=
  q.takeWhile (fun x => x.cls.rank ≤ e.cls.rank) ++ e :: q.dropWhile (fun x => x.cls.rank ≤ e.cls.rank)

def sameCommand (st : Nat) (k : CommandKind) (e : QueueEntry) : Bool := e.station == st && e.kind == k

/-- R109: the list after a merge, or none where nothing waits to merge with or the kind is an action kind. -/
def mergeCommand (q : List QueueEntry) (p : Proposal) (now : Time) : Option (List QueueEntry) :=
  if p.kind.isLevel then
    match q.find? (sameCommand p.station p.kind) with
    | none => none
    | some w =>
      if p.cls.rank < w.cls.rank then
        some (insertTail (p.entry now) (q.eraseP (sameCommand p.station p.kind)))
      else
        some (q.map fun e =>
          if sameCommand p.station p.kind e then { e with value := p.value, origin := p.origin } else e)
  else none

def holdsClass (c : CommandClass) (q : List QueueEntry) : Bool := q.any (·.cls == c)

/-- R111: the class a proposal evicts from when the queue is full. -/
def evictionClass (q : List QueueEntry) (c : CommandClass) : Option CommandClass :=
  if c != .routine && holdsClass .routine q then some .routine
  else if c == .trip && holdsClass .control q then some .control
  else none

/-- R108: the youngest entry of a class is its last. -/
def youngest (c : CommandClass) (q : List QueueEntry) : Option QueueEntry := q.reverse.find? (·.cls == c)

def dropYoungest (c : CommandClass) (q : List QueueEntry) : List QueueEntry :=
  (q.reverse.eraseP (·.cls == c)).reverse

/-! ### The owner of a command (R112) -/

/-- The in-use line that a FEED, IGNITER or DOSE to a station belongs to. -/
def State.commandLine (s : State) (st : Nat) (k : CommandKind) : Option (Fin 6) :=
  (indices 6).find? fun l => (s.lineEntry? l).any fun e =>
    e.station == st && match k, e.kind with
      | .feed, .continuous _ _ _ => true
      | .feed, .piece _ _ _ => true
      | .igniter, .ignition => true
      | .dose, .piece _ _ _ => true
      | _, _ => false

/-- The in-use run whose drive station a STROKE or RATE names. -/
def State.commandRun (s : State) (st : Nat) : Option (Fin 4) :=
  (indices 4).find? fun g => (s.runEntry? g).any (·.station == st)

/-- The in-use compartment whose fan station a FAN names. -/
def State.commandCompartment (s : State) (st : Nat) : Option (Fin 12) :=
  (indices 12).find? fun k => (s.compartmentEntry? k).any (·.station == st)

/-- R78: a lost FEED or IGNITER of a line that is not OUT is queued again at the next round mark. -/
def State.tellLineLost (s : State) (l : Fin 6) : State :=
  s.modLine l fun x =>
    if x.state == .out then x else
      { x with refresh := match x.entry with
        | some e => e.refresh - 1
        | none => x.refresh }

/-- R81: a lost DOSE is counted. -/
def State.tellDoseLost (s : State) (l : Fin 6) : State :=
  s.modLine l fun x => { x with lostDoses := satAdd 65535 x.lostDoses 1 }

/-- R100: a STROKE dropped or evicted. -/
def State.tellStrokeLost (s : State) (g : Fin 4) : State :=
  (s.modRun g fun r =>
    { r with waiting := r.waiting - 1, counts := { r.counts with dropped := r.counts.dropped + 1 } }).postRun g
      fun a => { a with dropped := satAdd top32 a.dropped 1 }

/-- R112: what the owner named by the origin does. -/
def State.tellOwner (s : State) (e : QueueEntry) (evicted : Bool) : State :=
  match e.origin, e.kind with
  | .fuel, .dose => (s.commandLine e.station .dose).elim s s.tellDoseLost
  | .fuel, k => (s.commandLine e.station k).elim s s.tellLineLost
  | .cooler, .fan =>
    (s.commandCompartment e.station).elim s fun k =>
      s.modCompartment k fun c => { c with refresh := Config.coolerRefreshMarks }
  | .cooler, .rate =>
    (s.commandRun e.station).elim s fun g => s.modRun g fun r => { r with refresh := Config.coolerRefreshMarks }
  | .cooler, .stroke => (s.commandRun e.station).elim s s.tellStrokeLost
  | .cooler, _ => s
  | .passThrough, _ => if evicted then s.modQueue fun q => { q with lost := q.lost + 1 } else s

def CommandQueue.countOverrun (q : CommandQueue) (c : CommandClass) : CommandQueue :=
  let q := { q with overruns := q.overruns + 1, overrun := true, overrunSinceMark := true }
  match c with
  | .trip => { q with overrunsTrip := q.overrunsTrip + 1 }
  | .control => { q with overrunsControl := q.overrunsControl + 1 }
  | .routine => { q with overrunsRoutine := q.overrunsRoutine + 1 }

/-- R112: an eviction or a drop is counted, posted, makes COMMAND_OVERRUN true and is told to the owner. -/
def State.commandLost (s : State) (e : QueueEntry) (evicted : Bool) : State :=
  (((s.modQueue fun q => q.countOverrun e.cls).post fun r => { r with overruns := satAdd top32 r.overruns 1 })).tellOwner
    e evicted

def State.setCommands (s : State) (q : List QueueEntry) : State := s.modQueue fun x => { x with list := q }

def State.insertCommand (s : State) (p : Proposal) : State :=
  s.setCommands (insertTail (p.entry s.timeBase) s.queue.list)

/-- R109 to R111: a proposal is merged, queued, or settled against a full queue. -/
def State.propose (s : State) (p : Proposal) : State :=
  match mergeCommand s.queue.list p s.timeBase with
  | some q => s.modQueue fun x => { x with list := q, merges := x.merges + 1 }
  | none =>
    if s.queue.list.length < Config.queuePlaces then s.insertCommand p
    else match (evictionClass s.queue.list p.cls).bind fun c => (youngest c s.queue.list).map fun e => (c, e) with
      | some (c, e) =>
        ((s.setCommands (dropYoungest c s.queue.list)).insertCommand p).commandLost e true
      | none => s.commandLost (p.entry s.timeBase) false

/-! ### The commands of one event (R108) -/

/-- A command of the fuel or the cooler unit is kept until the end of its event. -/
def State.submit (s : State) (x : Sender) (p : Proposal) : State :=
  s.modQueue fun q => { q with submitted := q.submitted ++ [{ sender := x, command := p }] }

/-- R108: the order in which the commands of one event are queued: those of the fuel unit in ascending line number, then
those of the cooler unit in ascending run number and then ascending compartment number. That the fuel unit comes first is
log entry 37. -/
def senders : List Sender :=
  (indices 6).map .line ++ (indices 4).map .run ++ (indices 12).map .compartment

/-- The commands of one sender, in the order in which it gave them. -/
def givenBy (x : Sender) (l : List Submission) : List Proposal := (l.filter (·.sender == x)).map (·.command)

/-- The commands of an event in the order of R108. -/
def inOrder (l : List Submission) : List Proposal := senders.flatMap fun x => givenBy x l

/-- R108: the units hand the commands of the event to the queue, which settles each (R109 to R111). -/
def State.flush (s : State) : State :=
  (inOrder s.queue.submitted).foldl State.propose (s.modQueue fun q => { q with submitted := [] })

/-- R111: the proposal would be dropped. -/
def State.wouldDrop (s : State) (p : Proposal) : Bool :=
  (mergeCommand s.queue.list p s.timeBase).isNone && Config.queuePlaces ≤ s.queue.list.length &&
    (evictionClass s.queue.list p.cls).isNone

end Sys2Proof.Machine
end

