-- ==== Sys2Proof/Machine/Fuel.lean ====
section
/-!
DEFINITION. The fuel unit's own operations (chapter 4): line states, feeds, igniters, dose timers, hold causes, and its
work at a round mark. Taking a line into FAULT, which can lock a burner out, stands in Faults.lean.
-/
namespace Sys2Proof.Machine

/-! ### Line states (R67) and the deviation check's start and end (R85) -/

def LineKind.isContinuous : LineKind → Bool
  | .continuous _ _ _ => true
  | _ => false

def LineKind.isMetered (k : LineKind) : Bool := k.metering?.isSome

/-- R85: entry to FEEDING starts the check of a CONTINUOUS line; in every other state it is stopped and empty. -/
def Line.deviationIn (x : Line) (st : FuelState) (now : Time) : Deviation :=
  if st == .feeding && x.entry.any (·.kind.isContinuous) then { timer := some (now + 1000) } else {}

def State.setLineState (s : State) (l : Fin 6) (st : FuelState) : State :=
  if (s.lines[l]).state = st then s
  else s.modLine l fun x => { x with state := st, deviation := x.deviationIn st s.timeBase }

/-- R67: the state of an in-use line that is not OUT or FAULT. -/
def State.ruledState (s : State) (l : Fin 6) (e : LineEntry) : FuelState :=
  if e.kind.isMetered && (s.burners[e.burner]).state == .run && (s.burners[e.burner]).hold.nonempty then .held
  else if e.kind.isMetered && 0 < (s.lines[l]).feed then .feeding
  else if !e.kind.isMetered && (s.lines[l]).igniter then .feeding
  else .ready

/-- R67: the state changes at the event that changes the feed, the igniter, the burner's state or the hold set. -/
def State.refreshLineState (s : State) (l : Fin 6) : State :=
  match s.lineEntry? l with
  | none => s
  | some e =>
    if (s.lines[l]).state = .out ∨ (s.lines[l]).state = .fault then s
    else s.setLineState l (s.ruledState l e)

/-- The line belongs to the burner: an in-use entry whose burner field names it (R42). -/
def State.lineOf (s : State) (b : Fin 3) (l : Fin 6) : Bool := (s.lineEntry? l).any (·.burner == b)

def State.refreshBurnerLines (s : State) (b : Fin 3) : State :=
  (indices 6).foldl (fun s l => if s.lineOf b l then s.refreshLineState l else s) s

/-- R70: a cause enters or leaves a burner's hold-cause set, and its lines follow by R67. -/
def State.setHold (s : State) (b : Fin 3) (c : HoldCause) (v : Bool) : State :=
  (s.modBurner b fun x => { x with hold := x.hold.put c v }).refreshBurnerLines b

/-- A cause reported for all three burners (R70, R91, R156). -/
def State.setHoldAll (s : State) (c : HoldCause) (v : Bool) : State :=
  (indices 3).foldl (fun s b => s.setHold b c v) s

/-! ### Feeds, doses and igniters (R78 to R80) -/

/-- R80: the interval of a dose timer. -/
def doseInterval (mass gap feed : Nat) : Nat := max gap (mass * 3600000 / feed)

/-- R80: the dose timer after the feed has become `feed`. -/
def Line.doseFor (x : Line) (feed : Nat) (now : Time) : Option DoseTimer :=
  match x.entry.map LineEntry.kind with
  | some (LineKind.piece _ mass gap) =>
    if feed = 0 then none
    else some { start := (x.dose.map (·.start)).getD now, interval := doseInterval mass gap feed }
  | _ => none

/-- The commanded feed of a CONTINUOUS or PIECE line becomes `c`: its dose timer is started, re-timed or stopped (R80)
and its state follows (R67). -/
def State.setFeed (s : State) (l : Fin 6) (c : Nat) : State :=
  (s.modLine l fun x => { x with feed := c, dose := x.doseFor c s.timeBase }).refreshLineState l

/-- R78: the present FEED of a line is queued, and its refresh count is set to 0. -/
def State.queueFeed (s : State) (l : Fin 6) (cls : CommandClass) : State :=
  match s.lineEntry? l with
  | none => s
  | some e =>
    (s.modLine l fun x => { x with refresh := 0 }).submit (.line l)
      { station := e.station, kind := .feed, value := (s.lines[l]).feed, cls := cls, origin := .fuel }

/-- R78, R79: the present IGNITER of a line is queued, and its refresh count is set to 0. -/
def State.queueIgniter (s : State) (l : Fin 6) (cls : CommandClass) : State :=
  match s.lineEntry? l with
  | none => s
  | some e =>
    (s.modLine l fun x => { x with refresh := 0 }).submit (.line l)
      { station := e.station, kind := .igniter, value := if (s.lines[l]).igniter then 1 else 0, cls := cls,
        origin := .fuel }

/-- R78: a FEED is queued in CONTROL class when the commanded feed changes. -/
def State.changeFeed (s : State) (l : Fin 6) (c : Nat) : State :=
  if (s.lines[l]).feed = c then s else (s.setFeed l c).queueFeed l .control

/-- R79: the igniter is set and its state commanded. -/
def State.setIgniter (s : State) (l : Fin 6) (on : Bool) (cls : CommandClass) : State :=
  ((s.modLine l fun x => { x with igniter := on }).refreshLineState l).queueIgniter l cls

/-- R79: an igniter already in the state asked for is not commanded again. -/
def State.changeIgniter (s : State) (l : Fin 6) (on : Bool) : State :=
  if (s.lines[l]).igniter = on then s else s.setIgniter l on .control

/-! ### Eligibility and apportionment (R48, R73) -/

/-- R48, R73: in use, CONTINUOUS or PIECE, in AUTO mode, neither OUT nor FAULT, of the burner. -/
def State.eligible (s : State) (b : Fin 3) (l : Fin 6) : Bool :=
  s.lineOf b l && (s.lineEntry? l).any (·.kind.isMetered) && (s.lines[l]).mode == .auto &&
    (s.lines[l]).state != .out && (s.lines[l]).state != .fault

def State.shareOf (s : State) (b : Fin 3) (l : Fin 6) : Option Share :=
  if s.eligible b l then
    ((s.lineEntry? l).bind (·.kind.metering?)).map fun m =>
      { line := l, feed := (s.lines[l]).feed, cv := m.cv, weight := m.weight, priority := m.priority, fmin := m.fmin,
        fmax := m.fmax }
  else none

/-- R73, step 2: the eligible set of a burner, in ascending priority number. -/
def State.eligibleSet (s : State) (b : Fin 3) : List Share := sortShares ((indices 6).filterMap (s.shareOf b))

/-- R73, step 1: the heat of the burner's MANUAL lines at their present feeds. -/
def State.manualHeat (s : State) (b : Fin 3) : Nat :=
  ((indices 6).map fun l =>
    if s.lineOf b l && (s.lines[l]).mode == .manual then
      match (s.lineEntry? l).bind (·.kind.metering?) with
      | some m => heatOf (s.lines[l]).feed m.cv
      | none => 0
    else 0).sum

def State.burnerHeld (s : State) (b : Fin 3) : Bool := (s.burners[b]).hold.nonempty

/-- R73 to R75 for the burner as it stands. -/
def State.apportionmentOf (s : State) (b : Fin 3) : Apportionment :=
  apportion ((s.burners[b]).demand - s.manualHeat b) (s.burnerHeld b) (s.eligibleSet b)

/-- R76, step 8: the target of one line; a MANUAL line's is left as it is (log entry 27). -/
def State.setTarget (s : State) (b : Fin 3) (r : Apportionment) (l : Fin 6) : State :=
  if s.lineOf b l && (s.lines[l]).mode == .auto then
    match (s.lineEntry? l).bind (·.kind.metering?) with
    | some m => s.modLine l fun x => { x with target := targetFeed m (r.heat l) }
    | none => s
  else s

/-- R72: the demand step of a burner in RUN. -/
def State.demandStep (s : State) (period : Nat) (b : Fin 3) : State :=
  match s.burnerEntry? b with
  | some e =>
    if (s.burners[b]).state = .run then
      s.modBurner b fun x =>
        { x with demand := nextDemand x.demand x.requested (rampStep e.demandRamp period) x.hold.nonempty }
    else s
  | none => s

/-- R73 to R76: apportionment of a burner in RUN, whose results are the targets, U and X. -/
def State.apportionBurner (s : State) (b : Fin 3) : State :=
  if (s.burners[b]).state = .run then
    let r := s.apportionmentOf b
    let manualExcess := s.manualHeat b - (s.burners[b]).demand
    (indices 6).foldl (fun s l => s.setTarget b r l)
      (s.modBurner b fun x => { x with undelivered := r.undelivered, excess := manualExcess + r.fireExcess })
  else s

/-- R77: one automatic line of a burner in RUN moves towards its target. -/
def State.rampLine (s : State) (period : Nat) (l : Fin 6) : State :=
  match s.lineEntry? l with
  | none => s
  | some e =>
    match e.kind.metering? with
    | none => s
    | some m =>
      if (s.lines[l]).mode = .auto ∧ (s.burners[e.burner]).state = .run then
        s.changeFeed l (nextFeed m period (s.lines[l]).feed (s.lines[l]).target (s.burnerHeld e.burner))
      else s

/-- R78: at a round mark the refresh count of an in-use line that is not OUT is incremented. -/
def Line.countMark (x : Line) : Line :=
  if (x.entry.filter (·.inUse)).isSome && x.state != .out then { x with refresh := x.refresh + 1 } else x

/-- R78: the refresh count, counted at this mark, has reached the line's refresh. -/
def State.refreshLine (s : State) (l : Fin 6) : State :=
  match s.lineEntry? l with
  | none => s
  | some e =>
    if (s.lines[l]).state ≠ .out ∧ e.refresh ≤ (s.lines[l]).refresh then
      (if e.kind.isMetered then s.queueFeed l .control else s.queueIgniter l .control)
    else s

/-- The fuel unit's work at a round mark that opens a round of `period` ms (R72 to R78). -/
def State.fuelMark (s : State) (period : Nat) : State :=
  let s := (indices 3).foldl (fun s b => (s.demandStep period b).apportionBurner b) s
  (indices 6).foldl (fun s l => (s.rampLine period l).refreshLine l) s

/-! ### Delivered accounting (R87) -/

/-- R87: mass (tenths of a kg) and pieces of an increment. -/
def deliveredMass (k : LineKind) (n : Nat) : Nat :=
  match k with
  | .continuous _ _ _ => n
  | .piece _ mass _ => n * mass * 10
  | .ignition => 0

def deliveredPieces (k : LineKind) (n : Nat) : Nat :=
  match k with
  | .piece _ _ _ => n
  | _ => 0

/-- R85, R87: an increment handed to a line is accounted, and added to the running second while the line is FEEDING. -/
def State.deliverToLine (s : State) (l : Fin 6) (k : LineKind) (m : Metering) (n : Nat) : State :=
  let mass := deliveredMass k n
  let heat := mass * m.cv
  let pieces := deliveredPieces k n
  let s := s.modLine l fun x =>
    { x with
      lifetime :=
        { mass := add64 x.lifetime.mass mass, heat := add64 x.lifetime.heat heat,
          pieces := add64 x.lifetime.pieces pieces }
      deviation :=
        if x.state == .feeding && k.isContinuous then
          { x.deviation with increments := x.deviation.increments + n }
        else x.deviation }
  s.postLine l fun a =>
    { mass := add64 a.mass mass, heat := add64 a.heat heat, pieces := satAdd top32 a.pieces pieces }

/-- R33, R87: the in-use lines that name the point as their delivered counter. -/
def State.deliverLines (s : State) (p : Fin 256) (n : Nat) : State :=
  (indices 6).foldl (fun s l =>
    match s.lineEntry? l with
    | some e =>
      match e.kind.metering? with
      | some m => if m.counter = p then s.deliverToLine l e.kind m n else s
      | none => s
    | none => s) s

end Sys2Proof.Machine
end

