-- ==== Sys2Proof/Machine/Burner.lean ====
section
/-!
DEFINITION. The burner unit (chapter 3): entries to OFF, LIGHTOFF, RUN and LOCKOUT, scanners and the flame vote,
permissives, and the timer expiries.
-/
namespace Sys2Proof.Machine

def State.setBurnerState (s : State) (b : Fin 3) (st : BurnerState) : State :=
  (s.modBurner b fun x => { x with state := st }).refreshBurnerLines b

/-- R62: run time since the later of the entry to RUN and the last posting is posted. -/
def State.postRunTime (s : State) (b : Fin 3) : State :=
  if (s.burners[b]).state = .run then
    (s.postBurner b fun a => { a with runTime := add64 a.runTime (s.timeBase - (s.burners[b]).runPosted) }).modBurner b
      fun x => { x with runPosted := s.timeBase }
  else s

/-- Timers cancelled, confirmed mark cleared, light-off line none (R56, R58). -/
def Burner.clearFiring (x : Burner) : Burner :=
  { x with timer := none, trialInLightoff := none, confirmed := false, lightoffLine := none }

/-- The in-use IGNITION line of this burner that its entry names (R51). -/
def State.ignitionLine (s : State) (b : Fin 3) : Option (Fin 6) :=
  match (s.burnerEntry? b).map BurnerEntry.ignition with
  | some (Ignition.line l) => if s.lineOf b l && (s.lineEntry? l).any (fun e => !e.kind.isMetered) then some l else none
  | _ => none

/-- R56, R58: one line of a burner that stops. A CONTINUOUS or PIECE line goes to 0 without a ramp and a FEED of 0 is
queued. The igniter of the ignition line is commanded off, in TRIP class whatever its state (R79, log entry 20). -/
def State.stopLine (s : State) (b : Fin 3) (cls : CommandClass) (l : Fin 6) : State :=
  match s.lineEntry? l with
  | none => s
  | some e =>
    if e.burner ≠ b then s
    else if e.kind.isMetered then
      ((s.modLine l fun x => { x with target := 0 }).setFeed l 0).queueFeed l cls
    else if s.ignitionLine b = some l then
      (if cls = .trip then s.setIgniter l false cls else s.changeIgniter l false)
    else s

/-- R56, R58, R76: every line of the burner stops, in ascending line number, and the demand record is emptied. -/
def State.stopLines (s : State) (b : Fin 3) (cls : CommandClass) : State :=
  ((indices 6).foldl (fun s l => s.stopLine b cls l) s).modBurner b fun x =>
    { x with demand := 0, undelivered := 0, excess := 0 }

/-- R56: an orderly stop. -/
def State.stopBurner (s : State) (b : Fin 3) : State :=
  (((s.postRunTime b).stopLines b .control).modBurner b Burner.clearFiring).setBurnerState b .off

/-! ### LOCKOUT (R58, R59) -/

/-- What a lockout names beside its cause (Table 3-6). -/
structure LockoutDetail where
  alarm : Option (Fin 192) := none
  line : Option (Fin 6) := none
  permissive : Option Nat := none

/-- R59: the lockout record of this moment. -/
def State.lockoutRecord (s : State) (b : Fin 3) (c : LockoutCause) (d : LockoutDetail) : LockoutRecord :=
  let x := s.burners[b]
  { cause := c, stateLeft := x.state, time := s.timeBase, dayClock := s.dayClock, roundNo := s.floor.roundNo,
    alarm := d.alarm, line := d.line, permissive := d.permissive, scanner1 := x.scanner1, scanner2 := x.scanner2,
    vote := x.vote, presentRun := x.presentRun, absentRun := x.absentRun }

/-- R58: the entry to LOCKOUT, whatever the state left. -/
def State.enterLockout (s : State) (b : Fin 3) (c : LockoutCause) (d : LockoutDetail := {}) : State :=
  let recorded := s.modBurner b fun x => { x with lockout := some (s.lockoutRecord b c d) }
  ((((recorded.postRunTime b).stopLines b .trip).modBurner b Burner.clearFiring).setBurnerState b .lockout).postBurner b
    fun a => { a with lockouts := satAdd top32 a.lockouts 1 }

/-- PURGE, IGNITION, LIGHTOFF or RUN. -/
def BurnerState.firing : BurnerState → Bool
  | .purge => true | .ignition => true | .lightoff => true | .run => true
  | .off => false | .lockout => false

/-- R57: the action TRIP_BURNER of alarm `a`. -/
def State.tripBurner (s : State) (b : Fin 3) (a : Fin 192) : State :=
  if (s.burners[b]).state.firing then s.enterLockout b .alarmTrip { alarm := some a } else s

/-! ### Entries to the other states -/

/-- R49: the entry to PURGE. -/
def State.enterPurge (s : State) (b : Fin 3) (e : BurnerEntry) : State :=
  (s.modBurner b fun x =>
    { x with presentRun := 0, absentRun := 0, confirmed := false, lightoffLine := none, trialInLightoff := none,
             timer := some (.purge, s.timeBase + e.purgeTime * 1000) }).setBurnerState b .purge

/-- R53: the eligible CONTINUOUS line with the lowest priority number. -/
def State.chooseLightoffLine (s : State) (b : Fin 3) : Option (Fin 6) :=
  ((s.eligibleSet b).find? fun x => (s.lineEntry? x.line).any (·.kind.isContinuous)).map (·.line)

/-- R53: the light-off feed, clamped to the line's limits. -/
def State.lightoffFeed (s : State) (e : BurnerEntry) (l : Fin 6) : Nat :=
  match (s.lineEntry? l).bind (·.kind.metering?) with
  | some m => clampNat e.lightoffFeed m.fmin m.fmax
  | none => 0

/-- R53: the entry to LIGHTOFF, from PURGE on self-ignition or from IGNITION. -/
def State.enterLightoff (s : State) (b : Fin 3) (e : BurnerEntry) (selfIgnition : Bool) : State :=
  match s.chooseLightoffLine b with
  | none => s.enterLockout b .noLightoffLine
  | some l =>
    let timed := s.modBurner b fun x =>
      { x with
        lightoffLine := some l
        timer := some (.lightoff, s.timeBase + e.lightoffTime * 1000)
        trialInLightoff := if selfIgnition then some (s.timeBase + e.ignitionTrial * 1000) else none
        confirmed := if selfIgnition then false else x.confirmed
        presentRun := if selfIgnition then 0 else x.presentRun
        absentRun := if selfIgnition then 0 else x.absentRun }
    ((timed.setBurnerState b .lightoff).setFeed l (s.lightoffFeed e l)).queueFeed l .control

/-- R55: the effective demand at the entry to RUN. -/
def State.demandFromLightoff (s : State) (b : Fin 3) (e : BurnerEntry) : Nat :=
  match (s.burners[b]).lightoffLine with
  | none => 0
  | some l =>
    match (s.lineEntry? l).bind (·.kind.metering?) with
    | some m => min e.maxDemand (heatOf (s.lines[l]).feed m.cv)
    | none => 0

/-- R55, R62: the entry to RUN. -/
def State.enterRun (s : State) (b : Fin 3) (e : BurnerEntry) : State :=
  let d := s.demandFromLightoff b e
  let off := match s.ignitionLine b with
    | some l => s.changeIgniter l false
    | none => s
  ((off.modBurner b fun x =>
      { x with demand := d, timer := none, trialInLightoff := none, lightoffLine := none,
               runPosted := s.timeBase }).setBurnerState b .run).postBurner b
    fun a => { a with starts := satAdd top32 a.starts 1 }

/-! ### Permissives (R47, R50, R52, R54, R55) -/

/-- A permissive of the burner is lost; `n` is its number. -/
def State.permissiveLost (s : State) (b : Fin 3) (n : Nat) (running : Bool) : State :=
  match (s.burners[b]).state with
  | .purge =>
    ((s.modBurner b Burner.clearFiring).modBurner b
      fun x => { x with purgeAborts := satAdd 65535 x.purgeAborts 1 }).setBurnerState b .off
  | .ignition => s.enterLockout b .permissiveLost { permissive := some n }
  | .lightoff => s.enterLockout b .permissiveLost { permissive := some n }
  | .run => if running then s.enterLockout b .permissiveLost { permissive := some n } else s
  | .off => s
  | .lockout => s

/-- One permissive, number `n`, is computed again. A flag that falls is a loss. -/
def State.visitPermissive (s : State) (b : Fin 3) (n : Nat) (p : Permissive) : State :=
  let old := (s.burners[b]).permOk.getD (n - 1) false
  let new := s.permissiveMet p.kind
  let s := s.modBurner b fun x => { x with permOk := x.permOk.set (n - 1) new }
  if old && !new then s.permissiveLost b n p.running else s

/-- R47: the permissives of every in-use burner that `sel` selects are computed again, in ascending burner number. R47 gives
the permissives of one burner no order; the model takes them in list order, so that where one event loses several of one
burner its lockout record names the first of them (DESIGN CHOICE, log entry 48). -/
def State.visitPermissives (s : State) (sel : PermKind → Bool) : State :=
  (indices 3).foldl (fun s b =>
    match s.burnerEntry? b with
    | none => s
    | some e =>
      e.permissives.zipIdx.foldl (fun s pi => if sel pi.1.kind then s.visitPermissive b (pi.2 + 1) pi.1 else s) s) s

/-- R47: the flags as computed when an entry is written and after every reset. -/
def State.freshFlags (s : State) (e : Option BurnerEntry) : List Bool :=
  match e.filter (·.inUse) with
  | none => []
  | some e => e.permissives.map fun p => s.permissiveMet p.kind

/-! ### Scanners and the flame vote (R44 to R46) -/

/-- The station of a scanner: that of its points, which name the same one (R42). -/
def State.scannerStation (s : State) (x : Scanner) : Option Nat := (s.points[x.intensity]).entry.map (·.station)

/-- R26, R44: the point is updated by an answer of `n` words. -/
def State.updatedBy (s : State) (p : Fin 256) (n : Nat) : Bool := (s.pointEntry? p).any (·.field < n)

/-- R44: a scanner's state after an accepted answer of `n` words. -/
def State.judgeScanner (s : State) (e : BurnerEntry) (x : Scanner) (was : Bool) (n : Nat) : Bool :=
  s.pointGood x.intensity && s.pointGood x.flicker && s.updatedBy x.intensity n && s.updatedBy x.flicker n &&
    (if was then e.offThreshold ≤ (s.points[x.intensity]).value else e.onThreshold ≤ (s.points[x.intensity]).value) &&
    e.flickerLow ≤ (s.points[x.flicker]).value && (s.points[x.flicker]).value ≤ e.flickerHigh

/-- R46: the flame vote of the present scanner states. -/
def flameVote (e : BurnerEntry) (s1 s2 : Bool) : Bool :=
  match e.scanner2, e.vote with
  | none, _ => s1
  | some _, .any => s1 || s2
  | some _, .all => s1 && s2

/-- R46: the vote and the two runs after one evaluation. -/
def Burner.takeVote (x : Burner) (e : BurnerEntry) : Burner :=
  if flameVote e x.scanner1 x.scanner2 then
    { x with vote := true, presentRun := satAdd 255 x.presentRun 1, absentRun := 0 }
  else
    { x with vote := false, absentRun := satAdd 255 x.absentRun 1, presentRun := 0 }

/-- R50, R52, R54, R55: what a vote evaluation does in the burner's state. -/
def State.actOnVote (s : State) (b : Fin 3) (e : BurnerEntry) : State :=
  let x := s.burners[b]
  let confirmed := x.vote && x.presentRun == e.confirmCount
  let failed := !x.vote && x.absentRun == e.failureCount
  match x.state with
  | .purge => if confirmed then s.enterLockout b .flameInPurge else s
  | .ignition =>
    if confirmed then
      (s.modBurner b fun x => { x with confirmed := true, timer := none }).enterLightoff b e false
    else s
  | .lightoff =>
    if confirmed && !x.confirmed then
      s.modBurner b fun x => { x with confirmed := true, trialInLightoff := none }
    else if failed && x.confirmed then s.enterLockout b .lightoffFail
    else s
  | .run => if failed then s.enterLockout b .flameFail else s
  | .off => s
  | .lockout => s

/-- R46: one vote evaluation. -/
def State.evaluateVote (s : State) (b : Fin 3) (e : BurnerEntry) : State :=
  (s.modBurner b fun x => x.takeVote e).actOnVote b e

/-- The station is that of one of the burner's scanners. -/
def State.scansStation (s : State) (e : BurnerEntry) (st : Nat) : Bool :=
  s.scannerStation e.scanner1 == some st || e.scanner2.any fun x => s.scannerStation x == some st

/-- R44: the scanner event of one burner after an answer of `n` words in a quick slot of station `st`. -/
def State.scannerEvent (s : State) (st n : Nat) (b : Fin 3) : State :=
  match s.burnerEntry? b with
  | none => s
  | some e =>
    if s.scansStation e st then
      (s.modBurner b fun x =>
        { x with
          scanner1 := if s.scannerStation e.scanner1 == some st then s.judgeScanner e e.scanner1 x.scanner1 n
                      else x.scanner1
          scanner2 := match e.scanner2 with
            | some sc => if s.scannerStation sc == some st then s.judgeScanner e sc x.scanner2 n else x.scanner2
            | none => x.scanner2 }).evaluateVote b e
    else s

def State.scannerEvents (s : State) (st n : Nat) : State :=
  (indices 3).foldl (fun s b => s.scannerEvent st n b) s

/-- R45: the scanners whose station satisfies `gone` become ABSENT, and the vote is evaluated once for each burner that
has such a scanner (log entry 21). -/
def State.dropScanners (s : State) (gone : Nat → Bool) : State :=
  (indices 3).foldl (fun s b =>
    match s.burnerEntry? b with
    | none => s
    | some e =>
      let gone1 := (s.scannerStation e.scanner1).any gone
      let gone2 := e.scanner2.any fun x => (s.scannerStation x).any gone
      if gone1 || gone2 then
        (s.modBurner b fun x =>
          { x with scanner1 := x.scanner1 && !gone1, scanner2 := x.scanner2 && !gone2 }).evaluateVote b e
      else s) s

/-! ### Timer expiries -/

/-- R51: the end of the purge. -/
def State.purgeEnds (s : State) (b : Fin 3) (e : BurnerEntry) : State :=
  match e.ignition with
  | .line _ =>
    match s.ignitionLine b with
    | some l =>
      if (s.lines[l]).state = .out ∨ (s.lines[l]).state = .fault then s.enterLockout b .noIgnitionSource
      else
        ((s.modBurner b fun x =>
          { x with presentRun := 0, absentRun := 0,
                   timer := some (.trial, s.timeBase + e.ignitionTrial * 1000) }).setBurnerState b
          .ignition).changeIgniter l true
    | none => s.enterLockout b .noIgnitionSource
  | .selfPoint p t =>
    if s.pointGood p && t ≤ (s.points[p]).value then s.enterLightoff b e true
    else s.enterLockout b .noIgnitionSource

/-- The expiry of the running timer `k` of burner `b`, at the reading it holds; none where it does not run. -/
def State.burnerTimer (s : State) (b : Fin 3) (k : BurnerTimer) : Option Time :=
  match (s.burners[b]).timer with
  | some (k', t) => if k' = k then some t else none
  | none => none

def State.purgeExpiry (s : State) (b : Fin 3) : State :=
  match s.burnerTimer b .purge, s.burnerEntry? b with
  | some t, some e => (s.advance t).purgeEnds b e
  | _, _ => s

/-- R52, R54: the trial runs in IGNITION as the running timer and in LIGHTOFF as the second timer. -/
def State.trialExpiry (s : State) (b : Fin 3) : State :=
  match s.burnerTimer b .trial, (s.burners[b]).trialInLightoff with
  | some t, _ => (s.advance t).enterLockout b .ignitionFail
  | none, some t => if (s.burners[b]).confirmed then s else (s.advance t).enterLockout b .ignitionFail
  | none, none => s

/-- R54: at the end of light-off a burner whose mark is set enters RUN. -/
def State.lightoffExpiry (s : State) (b : Fin 3) : State :=
  match s.burnerTimer b .lightoff, s.burnerEntry? b with
  | some t, some e => if (s.burners[b]).confirmed then (s.advance t).enterRun b e else s
  | _, _ => s

end Sys2Proof.Machine
end

