-- ==== Sys2Proof/Machine/Faults.lean ====
section
/-!
DEFINITION. Feeder faults (R83 to R85), dose and deviation timers (R81, R85), and operator feeds (R82).
-/
namespace Sys2Proof.Machine

/-- R83: the line is the light-off line of its burner in LIGHTOFF. -/
def State.isLightoffLine (s : State) (e : LineEntry) (l : Fin 6) : Bool :=
  (s.burners[e.burner]).state == .lightoff && (s.burners[e.burner]).lightoffLine == some l

/-- R83: the entry to FAULT of a line in READY, FEEDING or HELD. A line in OUT or FAULT is not changed. -/
def State.faultLine (s : State) (l : Fin 6) (c : FaultCause) : State :=
  match s.lineEntry? l with
  | none => s
  | some e =>
    if (s.lines[l]).state = .out ∨ (s.lines[l]).state = .fault then s
    else
      let recorded := s.modLine l fun x => { x with faultCause := some c }
      let stopped :=
        if e.kind.isMetered then
          ((recorded.setFeed l 0).setLineState l .fault).queueFeed l
            (if s.isLightoffLine e l then .trip else .control)
        else
          ((recorded.modLine l fun x => { x with igniter := false }).setLineState l .fault).queueIgniter l .control
      if s.isLightoffLine e l then stopped.enterLockout e.burner .lineFault { line := some l } else stopped

/-- R84: the fault bits of the lines whose flag point is among the changed points. -/
def State.checkFaultBits (s : State) (changed : List (Fin 256)) : State :=
  (indices 6).foldl (fun s l =>
    match s.lineEntry? l with
    | some e => if changed.contains e.flagPoint && s.faultBitSet e then s.faultLine l .faultBit else s
    | none => s) s

/-- R84: at a round judgement, the absence counter of each line's feeder station. A station on neither list of the
active table has an absence counter of 0. -/
def State.checkAbsences (s : State) : State :=
  (indices 6).foldl (fun s l =>
    match s.lineEntry? l with
    | some e => if e.absenceLimit ≤ (s.floor.stationAt e.station).absence then s.faultLine l .absent else s
    | none => s) s

/-- R81: a dose timer expires. -/
def State.doseExpiry (s : State) (l : Fin 6) : State :=
  match (s.lines[l]).dose, s.lineEntry? l with
  | some d, some e =>
    let s := s.advance (d.start + d.interval)
    (s.modLine l fun x => { x with dose := some { d with start := s.timeBase } }).submit (.line l)
      { station := e.station, kind := .dose, value := 1, cls := .control, origin := .fuel }
  | _, _ => s

/-- R85: the deviation check after one more second at the feed `c`. -/
def Deviation.second (d : Deviation) (c : Nat) (now : Time) : Deviation :=
  { timer := some (now + 1000), seconds := d.seconds + 1, expected := d.expected + c,
    delivered := d.delivered + 360 * d.increments, increments := 0 }

/-- R85: the deviation of a window, |E_acc − D_acc|. -/
def Deviation.difference (d : Deviation) : Nat := (d.expected - d.delivered) + (d.delivered - d.expected)

/-- R85: the window has failed. -/
def Deviation.failed (d : Deviation) (tolerance : Nat) : Bool :=
  0 < d.expected && tolerance * d.expected < d.difference * 100

/-- R85: the one-second deviation timer expires. -/
def State.deviationExpiry (s : State) (l : Fin 6) : State :=
  match (s.lines[l]).deviation.timer, (s.lineEntry? l).map LineEntry.kind with
  | some t, some (LineKind.continuous _ tolerance window) =>
    let s := s.advance t
    let d := (s.lines[l]).deviation.second (s.lines[l]).feed s.timeBase
    let counted := s.modLine l fun x => { x with deviation := d }
    if window ≤ d.seconds then
      if d.failed tolerance then counted.faultLine l .deviation
      else counted.modLine l fun x => { x with deviation := { timer := d.timer } }
    else counted
  | _, _ => s

/-! ### Operator feeds (R82) -/

/-- R82, steps 5 and 6: the value set for an operator FEED. -/
def operatorFeedValue (m : Metering) (v : Nat) (held : Bool) (c : Nat) : Nat :=
  let limited := if v = 0 then 0 else clampNat v m.fmin m.fmax
  if held && c < limited then c else limited

/-- R82: why an operator FEED is BLOCKED. -/
def State.operatorFeedBlock (s : State) (l : Fin 6) (e : LineEntry) (v : Int) : Option CheckCode :=
  if !e.kind.isMetered then some .mode
  else if (s.lines[l]).mode = .auto then some .mode
  else if (s.lines[l]).state = .out ∨ (s.lines[l]).state = .fault then some .lineState
  else if (s.burners[e.burner]).state ≠ .run then some .burner
  else if v < 0 then some .value
  else none

/-- R82: an operator FEED to the feeder station of line `l`. -/
def State.operatorFeed (s : State) (l : Fin 6) (e : LineEntry) (v : Int) : State × Answer :=
  match s.operatorFeedBlock l e v, e.kind.metering? with
  | some c, _ => (s, Answer.check .blocked c)
  | none, none => (s, Answer.check .blocked .mode)
  | none, some m =>
    let f := operatorFeedValue m v.toNat (s.burnerHeld e.burner) (s.lines[l]).feed
    (s.changeFeed l f, if (f : Int) = v then { result := .passed } else Answer.clampedTo f)

end Sys2Proof.Machine
end

