-- ==== Sys2Proof/Machine/Cooler.lean ====
section
/-!
DEFINITION. The cooler unit (chapter 5): cooler and run states, the stroke-rate law, stroke timers and confirmation,
fan speeds, stalls and red rivers.
-/
namespace Sys2Proof.Machine

/-! ### Rates (R97) and stroke timers (R99) -/

/-- R97: the law's rate at pressure `p`. -/
def lawRate (e : RunEntry) (p : Int) : Nat :=
  (clampInt (e.baseRate + truncatedDiv (e.gain * (p - e.pressureSet)) 100) e.minRate e.maxRate).toNat

/-- R97: the law's rate where the pressure point is GOOD, and `held` where it is not. -/
def State.lawRateOr (s : State) (e : RunEntry) (held : Nat) : Nat :=
  if s.pointGood e.pressure then lawRate e (s.points[e.pressure]).value else held

/-- R99: the period of a rate, in ms. -/
def strokePeriod (rate : Nat) : Nat := 600000 / rate

/-- R96: the present RATE of a run is queued, and its cooler refresh count is set to 0. -/
def State.queueRate (s : State) (g : Fin 4) : State :=
  match s.runEntry? g with
  | none => s
  | some e =>
    (s.modRun g fun r => { r with refresh := 0 }).submit (.run g)
      { station := e.station, kind := .rate, value := (s.runAt g).rate, cls := .control, origin := .cooler }

/-- R96, R99: a change of rate re-times a running stroke timer, and a RATE is queued while the run is not IDLE. -/
def State.setRate (s : State) (g : Fin 4) (rate : Nat) : State :=
  if (s.runAt g).rate = rate then s
  else
    let changed := s.modRun g fun r =>
      { r with rate := rate, timer := r.timer.map fun t => { t with period := strokePeriod rate } }
    if (s.runAt g).state = .idle then changed else changed.queueRate g

/-- R92, R93, R99, R103: the entry to STROKING at a rate; the stroke timer starts and a RATE is queued. -/
def State.startStroking (s : State) (g : Fin 4) (rate : Nat) : State :=
  (s.modRun g fun r =>
    { r with state := .stroking, rate := rate,
             timer := some { start := s.timeBase, period := strokePeriod rate } }).queueRate g

/-- R97: the law of an AUTO run in STROKING or STALLED while the cooler is RUNNING, from the round mark after the start
expiry on (R92). -/
def State.applyLaw (s : State) (g : Fin 4) : State :=
  match s.runEntry? g with
  | none => s
  | some e =>
    if s.cooler.state = .running ∧ s.cooler.lawHeld = false ∧ (s.runAt g).state ≠ .idle ∧ (s.runAt g).mode = .auto then
      s.setRate g (s.lawRateOr e (s.runAt g).rate)
    else s

/-- R97: the law is evaluated when the pressure point of a run changes. -/
def State.pressureChanged (s : State) (changed : List (Fin 256)) : State :=
  (indices 4).foldl (fun s g =>
    if (s.runEntry? g).any fun e => changed.contains e.pressure then s.applyLaw g else s) s

/-- R94, R97, R103: the rate of a run that strokes on, where an AUTO run without a GOOD pressure point takes `held`. -/
def State.ruledRate (s : State) (g : Fin 4) (e : RunEntry) (held : Nat) : Nat :=
  if s.cooler.state = .safe then e.safeRate
  else if (s.runAt g).mode = .manual then (s.runAt g).manualRate
  else s.lawRateOr e held

/-! ### Fan speeds (R96) -/

/-- R96: the commanded speed of an in-use compartment. -/
def State.fanSpeed (s : State) (e : CompartmentEntry) : Nat :=
  let boosted := fun basis =>
    if e.zone.any fun z => (s.cooler.zones[z]).active then min 1000 (basis + e.boost) else basis
  match s.cooler.state with
  | .stopped => 0
  | .starting => boosted e.base
  | .running => boosted e.base
  | .safe => boosted e.safe

/-- R96: the present FAN of a compartment is queued, and its cooler refresh count is set to 0. -/
def State.queueFan (s : State) (k : Fin 12) : State :=
  match s.compartmentEntry? k with
  | none => s
  | some e =>
    (s.modCompartment k fun c => { c with refresh := 0 }).submit (.compartment k)
      { station := e.station, kind := .fan, value := (s.cooler.compartments[k]).speed, cls := .control,
        origin := .cooler }

/-- R96: the speed is computed again; a FAN is queued when it has changed, or always with `force`. A compartment not in
use has speed 0 and is not commanded. -/
def State.applyFan (s : State) (force : Bool) (k : Fin 12) : State :=
  match s.compartmentEntry? k with
  | none => s.modCompartment k fun c => { c with speed := 0 }
  | some e =>
    let v := s.fanSpeed e
    if (s.cooler.compartments[k]).speed = v && !force then s
    else (s.modCompartment k fun c => { c with speed := v }).queueFan k

def State.applyFans (s : State) (force : Bool) : State :=
  (indices 12).foldl (fun s k => s.applyFan force k) s

/-! ### Cooler states (R91 to R95) -/

/-- R91: a change of the cooler state is told to the burner unit, and COOLER is held while the cooler is in SAFE. The wait
for the first mark of a start (R92) ends with RUNNING. -/
def State.setCoolerState (s : State) (st : CoolerState) : State :=
  ((s.modCooler fun c => { c with state := st, lawHeld := false }).setHoldAll .cooler (st == .safe)).visitPermissives
    (· == .coolerRunning)

/-- The in-use runs, in number order. -/
def State.usedRuns (s : State) : List (Fin 4) := (indices 4).filter fun g => (s.runEntry? g).isSome

/-- R91: the cooler enters STARTING. -/
def State.coolerStarts (s : State) : State :=
  ((s.modCooler fun c => { c with startTimer := some (s.timeBase + Config.coolerStartMs) }).setCoolerState
    .starting).applyFans true

/-- R92: at the end of the start every in-use run enters STROKING, and the law waits for the next round mark. -/
def State.coolerRuns (s : State) : State :=
  let s := ((s.modCooler fun c => { c with startTimer := none }).setCoolerState .running).modCooler fun c =>
    { c with lawHeld := true }
  ((indices 4).foldl (fun s g =>
    match s.runEntry? g with
    | none => s
    | some e => s.startStroking g (if (s.runAt g).mode = .manual then (s.runAt g).manualRate else e.minRate)) s).applyFans
    false

/-- R92: the start timer expires. -/
def State.startExpiry (s : State) : State :=
  match s.cooler.startTimer with
  | some t => (s.advance t).coolerRuns
  | none => s

/-- R93: the cooler goes to SAFE from STARTING or RUNNING; in STOPPED and SAFE nothing happens. What the change does to the
burners comes before the runs and fans; which unit's commands are queued first is log entry 37. -/
def State.coolerToSafe (s : State) : State :=
  if s.cooler.state = .starting then
    let s := (s.modCooler fun c => { c with startTimer := none }).setCoolerState .safe
    ((indices 4).foldl (fun s g =>
      match s.runEntry? g with
      | none => s
      | some e => s.startStroking g e.safeRate) s).applyFans false
  else if s.cooler.state = .running then
    let s := s.setCoolerState .safe
    ((indices 4).foldl (fun s g =>
      match s.runEntry? g with
      | none => s
      | some e => if (s.runAt g).state = .stroking then s.setRate g e.safeRate else s) s).applyFans false
  else s

/-- R94: one in-use run at the return from SAFE. A STALLED run in MANUAL takes its manual rate by R97; in AUTO it keeps its
rate until the law is next evaluated (log entry 22). -/
def State.runLeavesSafe (s : State) (g : Fin 4) (e : RunEntry) : State :=
  match (s.runAt g).state with
  | .stroking => s.setRate g (s.ruledRate g e e.minRate)
  | .stalled => if (s.runAt g).mode = .manual then s.setRate g (s.runAt g).manualRate else s
  | .idle => s

/-- R94: the cooler returns from SAFE to RUNNING. -/
def State.coolerLeavesSafe (s : State) : State :=
  let s := s.setCoolerState .running
  ((indices 4).foldl (fun s g =>
    match s.runEntry? g with
    | none => s
    | some e => s.runLeavesSafe g e) s).applyFans false

/-- R95, R103: every entry of the outstanding list is abandoned, and counted. -/
def State.abandonStrokes (s : State) (g : Fin 4) : State :=
  let n := (s.runAt g).outstanding.length
  (s.modRun g fun r =>
    { r with outstanding := [],
             counts := { r.counts with abandoned := r.counts.abandoned + BitVec.ofNat 32 n } }).postRun g
    fun a => { a with abandoned := satAdd top32 a.abandoned n }

/-- R95: a run enters IDLE. -/
def State.idleRun (s : State) (g : Fin 4) : State :=
  (s.abandonStrokes g).modRun g fun r => { r with state := .idle, rate := 0, timer := none }

/-- R95: the cooler enters STOPPED. -/
def State.coolerStops (s : State) : State :=
  let s := (s.modCooler fun c => { c with startTimer := none }).setCoolerState .stopped
  ((indices 4).foldl (fun s g => s.idleRun g) s).applyFans true

/-! ### Strokes (R99 to R101) -/

/-- R99: a stroke timer expires, and the stroke is skipped or queued. -/
def State.strokeExpiry (s : State) (g : Fin 4) : State :=
  match (s.runAt g).timer, s.runEntry? g with
  | some t, some e =>
    let s := s.advance (t.start + t.period)
    let s := s.modRun g fun r =>
      { r with timer := some { t with start := s.timeBase },
               counts := { r.counts with expiries := r.counts.expiries + 1 } }
    if 4 ≤ (s.runAt g).outstanding.length + (s.runAt g).waiting then
      (s.modRun g fun r => { r with counts := { r.counts with skipped := r.counts.skipped + 1 } }).postRun g
        fun a => { a with skipped := satAdd top32 a.skipped 1 }
    else
      (s.modRun g fun r => { r with waiting := r.waiting + 1 }).submit (.run g)
        { station := e.station, kind := .stroke, value := 1, cls := .control, origin := .cooler }
  | _, _ => s

/-- R100: a STROKE of the run was sent at a command slot. -/
def State.strokeSent (s : State) (g : Fin 4) : State :=
  let sent := s.modRun g fun r =>
    { r with waiting := r.waiting - 1, counts := { r.counts with sent := r.counts.sent + 1 } }
  if (s.runAt g).state = .idle then
    (sent.modRun g fun r => { r with counts := { r.counts with abandoned := r.counts.abandoned + 1 } }).postRun g
      fun a => { a with abandoned := satAdd top32 a.abandoned 1 }
  else sent.modRun g fun r => { r with outstanding := r.outstanding ++ [s.timeBase] }

/-- R101: a delivered increment `n` of a run's stroke counter. -/
def State.confirmStrokes (s : State) (g : Fin 4) (e : RunEntry) (n : Nat) : State :=
  let k := min n (s.runAt g).outstanding.length
  (s.modRun g fun r =>
    { r with
      outstanding := r.outstanding.drop k
      counts :=
        { r.counts with
          confirmed := r.counts.confirmed + BitVec.ofNat 32 k
          unexpected := r.counts.unexpected + BitVec.ofNat 32 (n - k) } }).postRun g
    fun a => { a with confirmed := satAdd top32 a.confirmed k, clinker := add64 a.clinker (k * e.strokeMass) }

/-- R33, R101: the in-use runs that name the point as their stroke counter. -/
def State.deliverRuns (s : State) (p : Fin 256) (n : Nat) : State :=
  (indices 4).foldl (fun s g =>
    match s.runEntry? g with
    | some e => if e.counter = p then s.confirmStrokes g e n else s
    | none => s) s

/-- R102: a STROKING run whose oldest outstanding stroke is older than the timeout enters STALLED. -/
def State.checkStall (s : State) (g : Fin 4) : State :=
  match s.runEntry? g, (s.runAt g).outstanding, (s.runAt g).timer with
  | some e, oldest :: _, some t =>
    if (s.runAt g).state = .stroking ∧ e.timeoutFactor * t.period < s.timeBase - oldest then
      s.modRun g fun r => { r with state := .stalled, timer := none }
    else s
  | _, _, _ => s

/-! ### Red rivers (R104, R105) -/

def State.usedZones (s : State) : List (Fin 8) := (indices 8).filter fun z => (s.zoneEntry? z).isSome

/-- At least one in-use zone is active (R105). -/
def State.anyZoneActive (s : State) : Bool := s.usedZones.any fun z => (s.cooler.zones[z]).active

/-- R105: the red-river time since the posting mark is posted. -/
def State.postRedRiver (s : State) : State :=
  match s.cooler.redMark with
  | some t => s.post fun r => { r with redRiver := add64 r.redRiver (s.timeBase - t) }
  | none => s

/-- R105: the posting mark follows the zones; `before` says whether a zone was active before the event. -/
def State.settleRedMark (s : State) (before : Bool) : State :=
  if !before && s.anyZoneActive then s.modCooler fun c => { c with redMark := some s.timeBase }
  else if before && !s.anyZoneActive then s.postRedRiver.modCooler fun c => { c with redMark := none }
  else s

/-- R104: one zone after an evaluation with difference `d`. -/
def Zone.evaluate (z : Zone) (e : ZoneEntry) (d : Int) : Zone :=
  if z.active then
    if d < e.delta - e.hysteresis then
      if e.persist ≤ z.offRun + 1 then { z with active := false, onRun := 0, offRun := 0, diff := d }
      else { z with offRun := z.offRun + 1, diff := d }
    else { z with offRun := 0, diff := d }
  else
    if e.delta ≤ d then
      if e.persist ≤ z.onRun + 1 then { z with active := true, onRun := 0, offRun := 0, diff := d }
      else { z with onRun := z.onRun + 1, diff := d }
    else { z with onRun := 0, diff := d }

/-- R104: the mean of the in-use zones' values. -/
def State.zoneMean (s : State) : Int :=
  truncatedDiv
    ((s.usedZones.map fun z => ((s.zoneEntry? z).map fun e => (s.points[e.point]).value).getD 0).sum)
    s.usedZones.length

/-- R104: the zones are evaluated, unless some in-use zone's point is not GOOD. -/
def State.evaluateZones (s : State) : State :=
  if s.usedZones.all fun z => (s.zoneEntry? z).any fun e => s.pointGood e.point then
    let mean := s.zoneMean
    (s.usedZones.foldl (fun s z =>
      match s.zoneEntry? z with
      | some e => s.modZone z fun x => x.evaluate e ((s.points[e.point]).value - mean)
      | none => s) s).settleRedMark s.anyZoneActive
  else s

/-! ### The cooler unit at a round mark -/

/-- R96: at a round mark the cooler refresh count of an in-use run that is not IDLE is incremented. -/
def Run.countMark (x : Run) : Run :=
  if (x.entry.filter (·.inUse)).isSome && x.state != .idle then { x with refresh := x.refresh + 1 } else x

/-- R96: at a round mark the cooler refresh count of an in-use compartment is incremented. -/
def Compartment.countMark (x : Compartment) : Compartment :=
  if (x.entry.filter (·.inUse)).isSome then { x with refresh := x.refresh + 1 } else x

/-- R96: the cooler refresh count of a run that is not IDLE stood at 99 when the mark counted it. -/
def State.refreshRun (s : State) (g : Fin 4) : State :=
  if (s.runAt g).state ≠ .idle ∧ Config.coolerRefreshMarks < (s.runAt g).refresh then s.queueRate g else s

/-- R96: the cooler refresh count of a compartment stood at 99 when the mark counted it. -/
def State.refreshCompartment (s : State) (k : Fin 12) : State :=
  if Config.coolerRefreshMarks < (s.cooler.compartments[k]).refresh then s.queueFan k else s

/-- The cooler unit's work at a round mark: law, then stall check (R102), refresh; zones (R104), fans and their
refresh (R96). A mark ends the wait of R92. A stroke timer that the check stops does not expire any more, even where the
law's rise of the rate had just made it due (R99 is silent: DESIGN CHOICE, log entry 41). -/
def State.coolerMark (s : State) : State :=
  let s := s.modCooler fun c => { c with lawHeld := false }
  let s := (indices 4).foldl (fun s g => ((s.applyLaw g).checkStall g).refreshRun g) s
  let s := s.evaluateZones
  (indices 12).foldl (fun s k => (s.applyFan false k).refreshCompartment k) s

end Sys2Proof.Machine
end

