-- ==== Sys2Proof/Machine/Alarm.lean ====
section
/-!
DEFINITION. The alarm unit (chapter 7): changes of state, the entry to RAISED, suppression, shelving, and the settling of
all conditions at the end of an event.
-/
namespace Sys2Proof.Machine

/-! ### The raised list (R130) -/

/-- R130: the order of the raised list, by priority, raise time and alarm number. -/
def State.raisedBefore (s : State) (a b : Fin 192) : Bool :=
  let key := fun x : Fin 192 =>
    (((s.alarmAt x).entry.map (·.priority)).getD 0, ((s.alarmAt x).raiseTime).getD 0, x.val)
  let ka := key a
  let kb := key b
  ka.1 < kb.1 || (ka.1 == kb.1 && (ka.2.1 < kb.2.1 || (ka.2.1 == kb.2.1 && ka.2.2 < kb.2.2)))

/-- The raised list with alarm `a` in its place. -/
def State.placeRaised (s : State) (a : Fin 192) : List (Fin 192) → List (Fin 192)
  | [] => [a]
  | b :: rest => if s.raisedBefore a b then a :: b :: rest else b :: s.placeRaised a rest

def State.joinRaised (s : State) (a : Fin 192) : State :=
  s.modAlarmUnit fun u => { u with raisedList := s.placeRaised a u.raisedList }

def State.leaveRaised (s : State) (a : Fin 192) : State :=
  s.modAlarmUnit fun u => { u with raisedList := u.raisedList.filter (· != a) }

/-- R130: the top vector, 255 for NONE. -/
def State.topVector (s : State) : Nat := (s.alarm.raisedList.head?.map (·.val)).getD 255

/-! ### Changes of state (R121, R129, R136) -/

def AlarmState.code : AlarmState → Nat
  | .normal => 0 | .raised => 1 | .held => 2 | .returned => 3 | .shelved => 4 | .suppressed => 5

/-- Table 10-5: the payload of a NOTICE of alarm `a` as it stands. A last value that four signed bytes do not hold is carried
modulo 2^32 (DESIGN CHOICE, log entry 50). -/
def State.noticePayload (s : State) (a : Fin 192) : List Byte :=
  let x := s.alarmAt a
  BitVec.ofNat 8 a.val :: BitVec.ofNat 8 x.state.code ::
    (beBytes 2 x.occurrence.toNat ++ beBytes 6 s.timeBase ++ beInt 4 x.lastValue)

/-- R136: the notice of a state change is queued. -/
def State.notice (s : State) (a : Fin 192) : State :=
  s.offerFrame { kind := .notice, payload := s.noticePayload a }

/-- R129: the hold cause ALARM of every burner follows the HOLD_FUEL entries. -/
def State.reportAlarmHolds (s : State) : State :=
  (indices 3).foldl (fun s b => s.setHold b .alarm (s.alarmHolds b)) s

/-- R121: the last value is recorded at a state change. -/
def State.recordValue (s : State) (a : Fin 192) (src : AlarmSource) : State :=
  s.modAlarm a fun x => { x with lastValue := s.sourceValue src x.reported }

/-- An entry changes to a state other than RAISED: it leaves the raised list, records its last value, and its notice and
its hold follow (R121, R129, R130, R136). -/
def State.alarmTo (s : State) (a : Fin 192) (e : AlarmEntry) (st : AlarmState) : State :=
  ((((s.recordValue a e.source).modAlarm a fun x => { x with state := st }).leaveRaised a).notice a).reportAlarmHolds

/-! ### First-out groups (R134) -/

/-- R134: the snapshot of a group's points; a point not in use is recorded as UNSET with value 0. -/
def State.snapshot (s : State) (g : Fin 4) : List SnapshotItem :=
  match (s.alarm.groups[g]).filter (·.inUse) with
  | none => []
  | some e => e.points.map fun p =>
      if (s.pointEntry? p).isSome then
        { point := p, value := (s.points[p]).value, quality := (s.points[p]).quality }
      else { point := p, value := 0, quality := .unset }

/-- R134: an armed record captures; a record that is not armed counts a follower. -/
def CaptureRecord.offer (r : CaptureRecord) (c : Capture) : CaptureRecord :=
  if r.armed then { armed := false, first := some c, followers := 0 }
  else { r with followers := satAdd 255 r.followers 1 }

/-- R134: the raise of alarm `a` as group `g` captures it. -/
def State.captureOf (s : State) (a : Fin 192) (g : Fin 4) : Capture :=
  { alarm := a, occurrence := (s.alarmAt a).occurrence, time := s.timeBase, dayClock := s.dayClock,
    roundNo := s.floor.roundNo, snapshot := s.snapshot g }

/-- R134: the raise of alarm `a` is offered to a capture record. -/
def State.offerFirstOut (s : State) (a : Fin 192) (g : Fin 4) : State :=
  s.modAlarmUnit fun u => { u with captures := u.captures.set g ((u.captures[g]).offer (s.captureOf a g)) }

/-! ### The entry to RAISED (R123) -/

/-- R129: the action handed on at a raise. HOLD_FUEL is reported after every state change instead. -/
def State.act (s : State) (a : Fin 192) : AlarmAction → State
  | .none => s
  | .holdFuel _ => s
  | .tripBurner b => s.tripBurner b a
  | .lineFault l => s.faultLine l (.alarm a)
  | .coolerSafe => s.coolerToSafe

/-- R123, R146: one raised alarm of a priority is posted. -/
def State.postRaised (s : State) (priority : Nat) : State :=
  match objectIndex 4 1 priority with
  | some i => s.post fun r => { r with raised := r.raised.set i (satAdd top32 (r.raised[i]) 1) }
  | none => s

/-- R123: a new occurrence, raised at the present time. -/
def Alarm.newOccurrence (x : Alarm) (now : Time) : Alarm :=
  { x with state := .raised, occurrence := x.occurrence + 1, raiseTime := some now, ackTime := none, onDelay := none }

/-- R123: the entry to RAISED. What the entry itself records comes first; its action, whose consequences may raise other
entries, comes last (log entry 14). -/
def State.raise (s : State) (a : Fin 192) (e : AlarmEntry) : State :=
  let s := (s.recordValue a e.source).modAlarm a fun x => x.newOccurrence s.timeBase
  let s := (s.leaveRaised a).joinRaised a
  let s := if e.horn then s.modAlarmUnit fun u => { u with silenced := false } else s
  let s := match e.group with
    | some g => s.offerFirstOut a g
    | none => s
  (((s.postRaised e.priority).notice a).reportAlarmHolds).act a e.action

/-- R122: the expiry of an on-delay. -/
def State.onDelayEnds (s : State) (a : Fin 192) (e : AlarmEntry) : State :=
  let s := s.modAlarm a fun x => { x with onDelay := none }
  if s.parentActive e then s.alarmTo a e .suppressed else s.raise a e

/-- R128: the end of a shelve. -/
def State.shelveEnds (s : State) (a : Fin 192) (e : AlarmEntry) : State :=
  let s := s.modAlarm a fun x => { x with shelve := none }
  if (s.alarmAt a).condition then
    if s.parentActive e then s.alarmTo a e .suppressed else s.raise a e
  else s.alarmTo a e .normal

/-! ### Conditions (R121, R122, R124, R125) -/

/-- A rising condition (R122, R124). -/
def State.conditionRises (s : State) (a : Fin 192) (e : AlarmEntry) : State :=
  match (s.alarmAt a).state with
  | .normal =>
    if (s.alarmAt a).onDelay.isSome then s
    else if e.onDelay = 0 then s.onDelayEnds a e
    else s.modAlarm a fun x => { x with onDelay := some (s.timeBase + e.onDelay) }
  | .returned => s.raise a e
  | .raised => s
  | .held => s
  | .shelved => s
  | .suppressed => s

/-- A falling condition (R122, R124, R125). -/
def State.conditionFalls (s : State) (a : Fin 192) (e : AlarmEntry) : State :=
  match (s.alarmAt a).state with
  | .normal => s.modAlarm a fun x => { x with onDelay := none }
  | .raised => s.alarmTo a e .returned
  | .held => s.alarmTo a e .normal
  | .suppressed => s.alarmTo a e .normal
  | .returned => s
  | .shelved => s

/-- R121: the condition of an in-use entry is brought into line with its source. -/
def State.visitCondition (s : State) (a : Fin 192) (e : AlarmEntry) : State :=
  let new := s.sourceHolds e.source (s.alarmAt a).condition
  if new = (s.alarmAt a).condition then s
  else
    let s := s.modAlarm a fun x =>
      { x with condition := new, reported := s.reportedValue e.source x.reported }
    if new then s.conditionRises a e else s.conditionFalls a e

/-- R125: the entry is SUPPRESSED, its condition is true and its parent is not in an active state. -/
def State.orphaned (s : State) (a : Fin 192) (e : AlarmEntry) : Bool :=
  (s.alarmAt a).state == .suppressed && (s.alarmAt a).condition && !s.parentActive e

/-- The entry is out of line with its condition or its parent. -/
def State.unsettled (s : State) (a : Fin 192) : Bool :=
  (s.alarmEntry? a).any fun e =>
    s.sourceHolds e.source (s.alarmAt a).condition != (s.alarmAt a).condition || s.orphaned a e

/-- The condition that the entry holds as true no longer holds. -/
def State.falling (s : State) (a : Fin 192) : Bool :=
  (s.alarmEntry? a).any fun e => (s.alarmAt a).condition && !s.sourceHolds e.source true

/-- The conditions that fall, in ascending alarm number. -/
def State.fallPass (s : State) : State :=
  (indices 192).foldl (fun s a =>
    match s.alarmEntry? a with
    | some e => if s.falling a then s.visitCondition a e else s
    | none => s) s

/-- One entry that was out of line when the raises of a pass began; `orphan` says that it had then lost its parent (R125),
and it is raised whatever its parent has done in the pass since. -/
def State.visitAlarm (s : State) (orphan : Bool) (a : Fin 192) : State :=
  match s.alarmEntry? a with
  | none => s
  | some e => if orphan then s.raise a e else s.visitCondition a e

/-- The entry is orphaned by its parent (R125). -/
def State.orphan (s : State) (a : Fin 192) : Bool := (s.alarmEntry? a).any (s.orphaned a)

/-- R123: the entries that are out of line, one after another in ascending alarm number. -/
def State.risePass (s : State) : State :=
  ((indices 192).filter s.unsettled).foldl (fun t a => t.visitAlarm (s.orphan a) a) s

/-- One pass over the alarms: first the conditions that fall, which may free suppressed children, then every entry that is
out of line, so that the raises of one event come in ascending alarm number (R123, R134, log entry 14). -/
def State.alarmPass (s : State) : State := s.fallPass.risePass

def State.settleFor (s : State) : Nat → State
  | 0 => s
  | n + 1 => if (indices 192).any s.unsettled then s.alarmPass.settleFor n else s

/-- All conditions of the event are handed to the alarm unit, and what they raise acts in turn, until every in-use entry
is in line (log entries 4 and 14). -/
def State.settle (s : State) : State := s.settleFor Config.settlePasses

/-- The end of an event: the alarm conditions are settled, then the commands of the event are queued in the order of R108.
Where a command is lost by that, COMMAND_OVERRUN is settled too, and the commands which that brings are queued behind
(log entry 37). -/
def State.finish (s : State) : State := s.settle.flush.settle.flush

/-- The expiry of an on-delay (R122). -/
def State.onDelayExpiry (s : State) (a : Fin 192) : State :=
  match (s.alarmAt a).onDelay, s.alarmEntry? a with
  | some t, some e => (s.advance t).onDelayEnds a e
  | _, _ => s

/-- The expiry of a shelve (R128). -/
def State.shelveExpiry (s : State) (a : Fin 192) : State :=
  match (s.alarmAt a).shelve, s.alarmEntry? a with
  | some t, some e => (s.advance t).shelveEnds a e
  | _, _ => s

end Sys2Proof.Machine
end

