-- ==== Sys2Proof/Machine/Points.lean ====
section
/-!
DEFINITION. The point unit (chapter 2): scaling, filter, counters, aging, forcing, and what the consumers are told.
-/
namespace Sys2Proof.Machine

/-! ### Taking one word (R26 to R32) -/

/-- R27: the decoded raw value of a scaled kind. -/
def decodeRaw (k : RawKind) (w : Word16) : Int :=
  match k with
  | .u12 => (w.toNat / 16 : Nat)
  | .u16 => w.toNat
  | .s16 => w.toInt
  | .counter16 => w.toNat
  | .flags16 => w.toNat

/-- R28: the scaled value. -/
def scaledValue (e : PointEntry) (w : Word16) : Int :=
  roundedDiv (decodeRaw e.kind w * e.gain.getD 0) 1024 + e.offset.getD 0

/-- R28: the margin about the range. -/
def rangeMargin (e : PointEntry) : Int := truncatedDiv (e.high - e.low) 16

/-- R28: the scaled value lies outside the margin. -/
def outsideMargin (e : PointEntry) (v : Int) : Bool := v < e.low - rangeMargin e || e.high + rangeMargin e < v

/-- R29: the filter's step for a difference `d` with shift `k`. -/
def filterStep (d : Int) (k : Nat) : Int :=
  let step := truncatedDiv d (2 ^ k : Nat)
  if step = 0 then d.sign else step

/-- R29: the value after the clamped value `c`, where `q` is the quality before. -/
def filteredValue (q : Quality) (present c : Int) (k : Nat) : Int :=
  if q = .good then present + filterStep (c - present) k else c

/-- R28, R29: value and quality of a scaled point after a word. -/
def Point.takeScaled (x : Point) (e : PointEntry) (w : Word16) : Point :=
  if outsideMargin e (scaledValue e w) then { x with quality := .bad }
  else
    { x with
      value := filteredValue x.quality x.value (clampInt (scaledValue e w) e.low e.high) (e.shift.getD 0)
      quality := .good }

/-- R31: the increment of a counter that is GOOD; a point that is UNSET or STALE takes a baseline only. -/
def Point.increment (x : Point) (w : Word16) : Option Nat :=
  if x.quality = .good then some (w - x.lastRaw).toNat else none

/-- R32: rounds elapsed since the previous accepted answer, counted as 1 when the difference is 0. -/
def roundsElapsed (now before : Count32) : Nat := if now = before then 1 else (now - before).toNat

/-- R32: the increment is not greater than the increment limit × rounds elapsed. -/
def Point.plausible (x : Point) (e : PointEntry) (n : Nat) (round : Count32) : Bool :=
  n ≤ e.incLimit.getD 0 * roundsElapsed round x.lastRound

/-- R31, R32: a counter point after a word. -/
def Point.takeCounter (x : Point) (e : PointEntry) (w : Word16) (round : Count32) : Point :=
  let taken := { x with value := w.toNat, quality := .good, lastRaw := w }
  match x.increment w with
  | none => taken
  | some n =>
    if x.plausible e n round then { taken with implausible := false }
    else { taken with implausible := true, implCount := satAdd 65535 x.implCount 1 }

/-- R26: an in-use point after the word at its field index, in an answer of round `round`. A FORCED point is updated in
its last raw and last accepted round only. -/
def Point.take (x : Point) (e : PointEntry) (w : Word16) (round : Count32) : Point :=
  let taken :=
    if x.quality = .forced then { x with lastRaw := w }
    else match e.kind with
      | .counter16 => x.takeCounter e w round
      | .flags16 => { x with value := w.toNat, quality := .good, lastRaw := w }
      | .u12 => { x.takeScaled e w with lastRaw := w }
      | .u16 => { x.takeScaled e w with lastRaw := w }
      | .s16 => { x.takeScaled e w with lastRaw := w }
  { taken with lastRound := round }

/-- R31, R32: what a counter point makes of a word: none where no increment is formed, otherwise the increment and
whether it is kept. -/
def Point.formed (x : Point) (e : PointEntry) (w : Word16) (round : Count32) : Option (Nat × Bool) :=
  if e.kind = .counter16 then (x.increment w).map fun n => (n, x.plausible e n round) else none

/-! ### Telling the consumers (R37) -/

/-- R37: the change of a point is told. -/
def pointChanged (before after : Point) : Bool :=
  before.quality != after.quality || (before.value != after.value && after.quality.readable)

def PermKind.names (changed : List (Fin 256)) : PermKind → Bool
  | .pointAtLeast p _ => changed.contains p
  | .pointAtMost p _ => changed.contains p
  | .coolerRunning => false

/-- R37: burner unit, fuel unit and cooler unit are told of the changed points. Each unit is told of all of them before the
next unit is told of any; the spec leaves that order open (DESIGN CHOICE, log entry 46). -/
def State.tellConsumers (s : State) (changed : List (Fin 256)) : State :=
  ((s.visitPermissives (PermKind.names changed)).checkFaultBits changed).pressureChanged changed

/-- R37: a change of points is told to their consumers. The alarm conditions of the points (R38) follow where the event
settles its alarms, by `State.settle`. -/
def State.pointsChanged (s : State) (changed : List (Fin 256)) : State :=
  if changed.isEmpty then s else s.tellConsumers changed

/-- R33: a delivered increment. -/
def State.deliver (s : State) (pn : Fin 256 × Nat) : State := (s.deliverLines pn.1 pn.2).deliverRuns pn.1 pn.2

/-! ### An accepted answer (R26) -/

/-- R26: the in-use points of a station that an answer reaches, with their words. -/
def State.hitPoints (s : State) (st : Nat) (words : List Word16) : List (Fin 256 × PointEntry × Word16) :=
  (indices 256).filterMap fun p =>
    match s.pointEntry? p with
    | none => none
    | some e => if e.station = st then (words[e.field]?).map fun w => (p, e, w) else none

/-- R26, R33, R37, R38: the answer is taken whole, then consumers are told, conditions evaluated and increments
delivered. The scanner events of a quick slot come after it (R44), as events of their own (log entry 14). -/
def State.takeAnswer (s : State) (st : Nat) (words : List Word16) : State :=
  let hits := s.hitPoints st words
  let round := s.floor.roundNo
  let formed := hits.filterMap fun h => ((s.points[h.1]).formed h.2.1 h.2.2 round).map fun n => (h.1, n)
  let updated := hits.foldl (fun t h => t.modPoint h.1 fun x => x.take h.2.1 h.2.2 round) s
  let changed := (hits.map (·.1)).filter fun p => pointChanged s.points[p] updated.points[p]
  let flagged :=
    if formed.any fun f => !f.2.2 then updated.flagRecord fun f => { f with countersImplausible := true } else updated
  (formed.filter (·.2.2)).foldl (fun t f => t.deliver (f.1, f.2.1)) (flagged.pointsChanged changed).settle

/-! ### Aging (R34) -/

/-- R34, R39: the age of a point at the last round mark. -/
def pointAge (roundNo lastRound : Count32) : Nat := (roundNo - 1 - lastRound).toNat

/-- R34: a GOOD or BAD in-use point whose age has reached its freshness limit. -/
def State.stalePoint (s : State) (p : Fin 256) : Bool :=
  match s.pointEntry? p with
  | none => false
  | some e =>
    ((s.points[p]).quality == .good || (s.points[p]).quality == .bad) &&
      e.fresh ≤ pointAge s.floor.roundNo (s.points[p]).lastRound

/-- R34: aging at a round mark. -/
def State.agePoints (s : State) : State :=
  let stale := (indices 256).filter s.stalePoint
  (stale.foldl (fun t p => t.modPoint p fun x => { x with quality := .stale }) s).pointsChanged stale

/-! ### Writing, forcing (R25, R35, R36) -/

/-- R25: a point as a write or a clear leaves it. -/
def Point.written (e : Option PointEntry) : Point := { entry := e }

/-- R25: the entry of a point is replaced or emptied. -/
def State.writePoint (s : State) (p : Fin 256) (e : Option PointEntry) : State :=
  let changed := pointChanged s.points[p] (Point.written e)
  ((s.modPoint p fun _ => Point.written e).pointsChanged (if changed then [p] else [])).finish

/-- R35: a point given the value `v`, clamped to its range. -/
def State.forcePoint (s : State) (p : Fin 256) (v : Int) : State :=
  let forced := s.modPoint p fun x => { x with value := v, forced := some v, quality := .forced }
  (forced.pointsChanged (if pointChanged s.points[p] forced.points[p] then [p] else [])).finish

/-- R36: the force is removed. -/
def State.unforcePoint (s : State) (p : Fin 256) : State :=
  ((s.modPoint p fun x => { x with forced := none, quality := .unset }).pointsChanged [p]).finish

/-- R25, R35: the in-use entry of burner `b` names the point as a scanner point. -/
def State.namesScanner (s : State) (p : Fin 256) (b : Fin 3) : Bool :=
  (s.burnerEntry? b).any fun e =>
    e.scanner1.intensity == p || e.scanner1.flicker == p ||
      e.scanner2.any fun x => x.intensity == p || x.flicker == p

/-- R35: some in-use burner entry names the point as a scanner point. -/
def State.isScannerPoint (s : State) (p : Fin 256) : Bool := (indices 3).any (s.namesScanner p)

/-- R25: a burner in a state other than OFF names the point as a scanner point. -/
def State.scannerPointBusy (s : State) (p : Fin 256) : Bool :=
  (indices 3).any fun b => s.namesScanner p b && (s.burners[b]).state != .off

end Sys2Proof.Machine
end

