-- ==== Sys2Proof/Machine/Encode.lean ====
section
/-!
DEFINITION. Upward payloads (section 10.3): the digest (Table 10-4), the shift record (Table 10-6), and items
(Table 10-2) with their pages.
-/
namespace Sys2Proof.Machine

/-! ### Codes: enumerators in the order of their tables (section 10.2.1, Table 10-4) -/

def FloorState.code : FloorState → Nat
  | .halted => 0 | .starting => 1 | .normal => 2 | .degraded => 3 | .single => 4

def LinkState.code : LinkState → Nat
  | .disabled => 0 | .ok => 1 | .failed => 2

def Quality.code : Quality → Nat
  | .unset => 0 | .good => 1 | .stale => 2 | .bad => 3 | .forced => 4

def BurnerState.code : BurnerState → Nat
  | .off => 0 | .purge => 1 | .ignition => 2 | .lightoff => 3 | .run => 4 | .lockout => 5

def FuelState.code : FuelState → Nat
  | .out => 0 | .ready => 1 | .feeding => 2 | .held => 3 | .fault => 4

def Mode.code : Mode → Nat
  | .auto => 0 | .manual => 1

def CoolerState.code : CoolerState → Nat
  | .stopped => 0 | .starting => 1 | .running => 2 | .safe => 3

def RunState.code : RunState → Nat
  | .idle => 0 | .stroking => 1 | .stalled => 2

def ResetCause.code : ResetCause → Nat
  | .power => 0 | .pin => 1 | .commanded => 2

def CloseCause.code : CloseCause → Nat
  | .scheduled => 0 | .commanded => 1 | .reset => 2

/-- Bits as a number, bit 0 first. -/
def bitsNat : List Bool → Nat
  | [] => 0
  | b :: bs => (if b then 1 else 0) + 2 * bitsNat bs

def CauseSet.code (c : CauseSet) : Nat := bitsNat [c.lineA, c.lineB, c.quorum]

def HoldSet.code (h : HoldSet) : Nat := bitsNat [h.alarm, h.quorum, h.silence, h.cooler]

/-- The presence map: station s in byte (s − 1) div 8, bit (s − 1) mod 8 (Table 10-4). -/
def Floor.presenceBytes (f : Floor) : List Byte :=
  (List.range 8).map fun i =>
    BitVec.ofNat 8 (bitsNat (((f.stations.toList.drop (8 * i)).take 8).map (·.present)))

/-- R163: the link counts in the row order. -/
def LinkCounts.list (c : LinkCounts) : List Count32 :=
  [c.good, c.stray, c.truncated, c.badLength, c.parity, c.framing, c.noise, c.overrun, c.badCheck, c.idle, c.breaks,
   c.rxOverrun, c.noticesLost]

/-! ### The digest (R161, Table 10-4) -/

/-- R130: the number of RAISED entries of a priority. -/
def State.raisedCount (s : State) (priority : Nat) : Nat :=
  (s.alarm.raisedList.filter fun a => (s.alarmEntry? a).any (·.priority == priority)).length

def Burner.digest (b : Burner) : List Byte :=
  beBytes 1 b.state.code ++ beBytes 4 b.demand ++ beBytes 4 b.undelivered ++ beBytes 4 b.excess ++
    beBytes 1 b.hold.code

def Line.digest (l : Line) : List Byte := beBytes 1 l.state.code ++ beBytes 1 l.mode.code ++ beBytes 2 l.feed

def Run.digest (r : Run) : List Byte := beBytes 1 r.state.code ++ beBytes 2 r.rate

/-- R161: value and quality of a digest point; an entry that is empty or not in use is carried as UNSET with 0. -/
def State.digestPoint (s : State) (e : Option DigestEntry) : List Byte :=
  match e.filter (·.inUse) with
  | some d => beInt 4 (s.points[d.point]).value ++ beBytes 1 (s.pointQuality d.point).code
  | none => beInt 4 0 ++ beBytes 1 Quality.unset.code

/-- Table 10-4. -/
def State.digestPayload (s : State) : List Byte :=
  beBytes 4 s.floor.roundNo.toNat ++ beBytes 1 s.floor.state.code ++ beBytes 1 s.floor.causes.code ++
    beBytes 1 (s.floor.linkA.state.code + 4 * s.floor.linkB.state.code) ++ s.floor.presenceBytes ++
    beBytes 1 s.topVector ++ [1, 2, 3, 4].flatMap (fun p => beBytes 1 (s.raisedCount p)) ++
    beBytes 1 (bitsNat [s.hornDemanded, s.tripDemanded]) ++ s.burners.toList.flatMap Burner.digest ++
    s.lines.toList.flatMap Line.digest ++ beBytes 1 s.cooler.state.code ++ s.cooler.runs.toList.flatMap Run.digest ++
    s.port.digestList.toList.flatMap s.digestPoint ++ s.port.counts.list.flatMap (fun c => beBytes 4 c.toNat) ++
    beBytes 1 s.port.resetCause.code

/-- R161: a digest is built and offered. -/
def State.offerDigest (s : State) : State := s.offerFrame { kind := .digest, payload := s.digestPayload }

/-! ### The shift record (Table 10-6) -/

/-- A time-base reading as its low 48 bits. -/
def timeBytes (t : Time) : List Byte := beBytes 6 t

/-- A day-clock reading; an unset one is carried as 0. -/
def dayBytes : Option DayReading → List Byte
  | some d => beBytes 2 d.day ++ beBytes 4 d.ms
  | none => beBytes 6 0

/-- The amounts of a shift record from 1FH on: width in bytes and value. -/
def ShiftRecord.amounts (r : ShiftRecord) : List (Nat × Nat) :=
  r.lines.toList.flatMap (fun a => [(5, a.mass.toNat), (5, a.heat.toNat), (3, a.pieces)]) ++
    r.burners.toList.flatMap (fun a => [(5, a.runTime.toNat), (3, a.starts), (3, a.lockouts)]) ++
    r.runs.toList.flatMap (fun a =>
      [(3, a.confirmed), (3, a.dropped), (3, a.skipped), (3, a.abandoned), (5, a.clinker.toNat)]) ++
    (5, r.redRiver.toNat) :: r.raised.toList.map (fun n => (3, n)) ++
    [(3, r.shelves), (3, r.lostA), (3, r.lostB), (3, r.overruns), (3, r.noticesLost)]

/-- R167: a field too large for its width is carried as the greatest value the width holds. -/
def narrowBytes (wn : Nat × Nat) : List Byte := beBytes wn.1 (min wn.2 (256 ^ wn.1 - 1))

/-- R167: the field does not fit its width. -/
def tooWide (wn : Nat × Nat) : Bool := 256 ^ wn.1 ≤ wn.2

/-- What a record takes at its close, as Table 10-6 carries it. -/
structure CloseFields where
  sequence : Nat := 0
  time : Time := 0
  day : Option DayReading := none
  cause : Nat := 0
  dayUnset : Bool := false

/-- Table 10-6. -/
def ShiftRecord.layout (r : ShiftRecord) (c : CloseFields) : List Byte :=
  beBytes 4 c.sequence ++ beBytes 1 r.index ++ timeBytes r.openTime ++ dayBytes r.openDay ++ timeBytes c.time ++
    dayBytes c.day ++ beBytes 1 c.cause ++
    beBytes 1 (bitsNat [r.flags.clockUnset, r.flags.clockChanged, r.flags.continued, r.flags.countersImplausible,
      r.flags.reportsLost, c.dayUnset, false, r.amounts.any tooWide]) ++ r.amounts.flatMap narrowBytes

def ClosedRecord.layout (c : ClosedRecord) : List Byte :=
  c.body.layout
    { sequence := c.sequence.toNat, time := c.closeTime, day := c.closeDay, cause := c.cause.code,
      dayUnset := c.closeDay.isNone }

/-- The snapshot of the open record: sequence number, close time and close cause are carried as 0. The close reading is
absent and not unset, so bit 5 is clear (log entry 24). -/
def ShiftRecord.openLayout (r : ShiftRecord) : List Byte := r.layout {}

/-! ### Items (Table 10-2, R167) -/

/-- A list of integers, in the narrower of the two list encodings that holds all of them (log entry 24). -/
def itemInts (tag : Nat) (xs : List Int) : List Byte :=
  let narrow := xs.all fun x => 0 ≤ x && x ≤ 255
  BitVec.ofNat 8 tag :: (if narrow then 5#8 else 6#8) :: BitVec.ofNat 8 xs.length ::
    xs.flatMap (beInt (if narrow then 1 else 2))

/-- A record: its length and its items. -/
def recordBytes (items : List Byte) : List Byte := BitVec.ofNat 8 items.length :: items

def itemRecord (tag : Nat) (items : List Byte) : List Byte := BitVec.ofNat 8 tag :: 7#8 :: recordBytes items

def itemRecords (tag : Nat) (rs : List (List Byte)) : List Byte :=
  BitVec.ofNat 8 tag :: 8#8 :: BitVec.ofNat 8 rs.length :: rs.flatMap recordBytes

/-- An optional item: left out where it is absent. -/
def itemOpt {α : Type} (f : α → List Byte) : Option α → List Byte
  | some x => f x
  | none => []

/-- A truth value as the integer 0 or 1 (section 10.2.1). -/
def itemBool (tag : Nat) (b : Bool) : List Byte := itemInt tag (truthValue b)

/-- A count or other natural. -/
def itemNat (tag n : Nat) : List Byte := itemInt tag n

/-- A time-base reading: an integer of its low 48 bits. -/
def itemTime (tag : Nat) (t : Time) : List Byte := itemNat tag (t % 2 ^ 48)

/-- A day-clock reading: a record of day number and millisecond of the day (log entry 24). -/
def itemDay (tag : Nat) (d : DayReading) : List Byte := itemRecord tag (itemNat 1 d.day ++ itemNat 2 d.ms)

/-! ### Pages (R163, R167) -/

/-- One field of a status record: a whole item, or a group that repeats. -/
inductive Field where
  | item (bytes : List Byte)
  | group (tag : Nat) (records : List (List Byte))

/-- Payload bytes of a reply after its three header bytes. -/
def pageRoom : Nat := Config.payloadMax - 3

/-- How many records of a group fit in the room, and the room they leave. -/
def takeRecords : List (List Byte) → Nat → Nat
  | [], _ => 0
  | r :: rs, room => if r.length + 1 ≤ room then takeRecords rs (room - (r.length + 1)) + 1 else 0

/-- The pages of a record. `page` holds what the present page has so far; `fuel` bounds the number of steps. A record
list that does not fit is cut between records. -/
def paginate : Nat → List Field → List Byte → List (List Byte)
  | 0, _, page => [page]
  | _ + 1, [], page => [page]
  | fuel + 1, .item bytes :: fs, page =>
    if page.length + bytes.length ≤ pageRoom then paginate fuel fs (page ++ bytes)
    else page :: paginate fuel fs bytes
  | fuel + 1, .group tag records :: fs, page =>
    let n := takeRecords records (pageRoom - page.length - 3)
    if n = records.length ∧ page.length + 3 ≤ pageRoom then paginate fuel fs (page ++ itemRecords tag records)
    else if n = 0 then page :: paginate fuel (.group tag records :: fs) []
    else (page ++ itemRecords tag (records.take n)) :: paginate fuel (.group tag (records.drop n) :: fs) []

/-- More than the steps any record of the part takes: one for each item, record and page. -/
def pageFuel : Nat := 2000

/-- R163: page `n` of a record, or none beyond its last page. -/
def pageOf (fs : List Field) (n : Nat) : Option (List Byte) := (paginate pageFuel fs [])[n]?

end Sys2Proof.Machine
end

