-- ==== Sys2Proof/Machine/Shift.lean ====
section
/-!
DEFINITION. The shift unit (chapter 8): the next boundary, closing and opening records, the ring, and the day clock.
-/
namespace Sys2Proof.Machine

/-! ### The next boundary (R142) -/

/-- ms from the ms of the day `now` to the next moment strictly later whose ms of the day is `start` minutes. -/
def boundaryDelay (now start : Nat) : Nat :=
  if now < start * 60000 then start * 60000 - now else start * 60000 + dayMs - now

/-- The earlier of two boundaries. -/
def earlier (x y : Boundary) : Boundary := if y.time < x.time then y else x

/-- R142: the next boundary at the present reading, or none where the clock is unset or the plan empty. -/
def State.nextBoundary (s : State) : Option Boundary :=
  match s.dayClock with
  | none => none
  | some d =>
    match s.shift.plan.zipIdx.map fun mi =>
        ({ time := s.timeBase + boundaryDelay d.ms mi.1, index := mi.2 + 1 } : Boundary) with
    | [] => none
    | x :: xs => some (xs.foldl earlier x)

def State.recomputeBoundary (s : State) : State := s.modShift fun x => { x with boundary := s.nextBoundary }

/-- R140, R141: the boundary is recomputed and the open record flagged CLOCK_CHANGED. -/
def State.clockChanged (s : State) : State := s.recomputeBoundary.flagRecord fun f => { f with clockChanged := true }

/-- R140: the clock is set. -/
def State.setClock (s : State) (day ms : Nat) : State :=
  (s.modShift fun x => { x with clock := some { time := s.timeBase, day := day, ms := ms } }).clockChanged

/-- R141: the plan is replaced or emptied. -/
def State.setPlan (s : State) (plan : List Nat) : State := (s.modShift fun x => { x with plan := plan }).clockChanged

/-! ### A close (R144, R145, R147) -/

/-- R144, step 1: the time postings into the record being closed. -/
def State.timePostings (s : State) : State :=
  ((indices 3).foldl (fun s b => s.postRunTime b) s).postRedRiver.modCooler fun c =>
    { c with redMark := c.redMark.map fun _ => s.timeBase }

/-- R144, step 2: the sealed record. -/
def State.sealedRecord (s : State) (cause : CloseCause) : ClosedRecord :=
  { body := s.shift.record, sequence := s.shift.nextSequence, closeTime := s.timeBase, closeDay := s.dayClock,
    cause := cause, collected := false }

/-- R145: the ring after a record has entered it. -/
def enterRing (ring : List ClosedRecord) (r : ClosedRecord) : List ClosedRecord :=
  (if ring.length < Config.ringPlaces then ring else ring.drop 1) ++ [r]

/-- R145: the entry removes an uncollected record. -/
def ringLoses (ring : List ClosedRecord) : Bool :=
  Config.ringPlaces ≤ ring.length && ring.head?.any fun r => !r.collected

/-- R144, step 4, and R147: the record opened at a close. -/
def State.openedRecord (s : State) (cause : CloseCause) (index : Nat) : ShiftRecord :=
  { index := index, openTime := s.timeBase, openDay := s.dayClock,
    flags :=
      { clockUnset := s.dayClock.isNone, continued := cause == .reset, reportsLost := ringLoses s.shift.ring } }

/-- R144, steps 2 to 4, and the new boundary (R142). -/
def State.turnRecord (s : State) (cause : CloseCause) (index : Nat) : State :=
  (s.modShift fun x =>
    { x with
      ring := enterRing x.ring (s.sealedRecord cause)
      nextSequence := x.nextSequence + 1
      record := s.openedRecord cause index }).recomputeBoundary

/-- R144 for the causes SCHEDULED and COMMANDED, with the report of step 5. -/
def State.closeShift (s : State) (cause : CloseCause) (index : Nat) : State :=
  let s := s.timePostings
  (s.turnRecord cause index).offerFrame { kind := .report, payload := (s.sealedRecord cause).layout }

/-- R143: the boundary timer expires. -/
def State.boundaryExpiry (s : State) : State :=
  match s.shift.boundary with
  | some b => (s.advance b.time).closeShift .scheduled b.index
  | none => s

/-! ### The snapshot of the open record (R149) -/

/-- R149: the open record with the times since the last postings added; nothing is posted. -/
def State.openSnapshot (s : State) : ShiftRecord := s.timePostings.shift.record

/-- R149: the ring with the record of a sequence number marked collected. -/
def markCollected (n : Count32) (ring : List ClosedRecord) : List ClosedRecord :=
  ring.map fun r => if r.sequence = n then { r with collected := true } else r

end Sys2Proof.Machine
end

