-- ==== Sys2Proof/Machine/Floor.lean ====
section
/-!
DEFINITION. The floor engine (chapter 1): round tables and their commit, the round mark, station slots, the judgement of
a round, command slots, line enables, starting and stopping.
-/
namespace Sys2Proof.Machine

/-! ### The layout of a round (R4, R5) -/

/-- A list cut into groups of `n`, the last of which may be shorter; `fuel` is at least the number of groups. -/
def groupsOf (n : Nat) : Nat → List Nat → List (List Nat)
  | 0, _ => []
  | _ + 1, [] => []
  | fuel + 1, x :: xs => (x :: xs).take n :: groupsOf n fuel ((x :: xs).drop n)

/-- R4: the station slots in order, each with whether it is a quick slot. -/
def RoundTable.slots (t : RoundTable) : List (Nat × Bool) :=
  (groupsOf t.gap t.ordinary.length t.ordinary).flatMap fun g =>
    t.quick.map (fun x => (x, true)) ++ g.map (fun x => (x, false))

/-- R4: T, the slot times that a round takes. -/
def RoundTable.slotTimes (t : RoundTable) : Nat := 2 + t.slots.length + t.cmdSlots

/-- R5: a round table may become active. -/
def RoundTable.valid (t : RoundTable) : Bool :=
  decide t.ordinary.Nodup && decide t.quick.Nodup && t.quick.all (fun x => !t.ordinary.contains x) &&
    t.quorum ≤ t.ordinary.length && t.slots.length + t.cmdSlots ≤ 128 &&
    t.slotTimes * Config.slotMicros ≤ t.period * 1000

/-! ### Commit (R5 to R9) -/

/-- R5: on a list of the active copy and on neither list of `t`. -/
def State.removes (s : State) (t : RoundTable) (st : Nat) : Bool := s.onActiveList st && !t.stations.contains st

/-- R5: a scanner station would lose its quick slots. -/
def State.losesQuick (s : State) (t : RoundTable) (st : Nat) : Bool :=
  s.removes t st || (s.onQuickList st && t.ordinary.contains st)

/-- R5: the commit of `t` would take a station away from a running function. -/
def State.commitInUse (s : State) (t : RoundTable) : Bool :=
  (indices 3).any (fun b => (s.burnerEntry? b).any fun e => (s.burners[b]).state != .off &&
      ((s.scannerStation e.scanner1).any (s.losesQuick t) ||
        e.scanner2.any fun x => (s.scannerStation x).any (s.losesQuick t))) ||
    (indices 6).any (fun l => (s.lineEntry? l).any fun e => (s.lines[l]).state != .out && s.removes t e.station) ||
    (s.cooler.state != .stopped &&
      ((indices 4).any (fun g => (s.runEntry? g).any fun e => s.removes t e.station) ||
        (indices 12).any fun k => (s.compartmentEntry? k).any fun e => s.removes t e.station))

/-- R9: a station's record under the new copy. -/
def State.stationUnder (s : State) (t : RoundTable) (st : Fin 60) : Station :=
  if t.stations.contains (st.val + 1) && s.onActiveList (st.val + 1) then s.floor.stations[st] else {}

/-- R9, R45: a new active copy takes effect. The alarms and commands that this brings wait for the end of the event. -/
def State.activate (s : State) (t : RoundTable) : State :=
  (s.modFloor fun f =>
    { f with
      active := some t
      stations := Vector.ofFn (s.stationUnder t)
      atQuorum := 0
      belowQuorum := 0 }).dropScanners fun st => s.onQuickList st && !t.quick.contains st

/-- R5: why a commit of the pending copy is refused, or the copy that passes. -/
def State.checkCommit (s : State) : Except Result RoundTable :=
  match s.floor.pendingCopy with
  | none => .error .notConfigured
  | some t => if !t.valid then .error .invalid else if s.commitInUse t then .error .inUse else .ok t

def commitKind : Byte := 0x04#8
def singleKind : Byte := 0x07#8
def stopKind : Byte := 0x08#8

/-- R158: the deferred reply of a waiting commit is queued. -/
def State.answerCommit (s : State) (r : Result) : State :=
  match s.port.deferredCommit with
  | none => s
  | some n => (s.modPort fun p => { p with deferredCommit := none }).reply n commitKind { result := r }

/-- R158: the deferred reply of a single round. -/
def State.answerSingle (s : State) : State :=
  match s.port.deferredSingle with
  | none => s
  | some n => (s.modPort fun p => { p with deferredSingle := none }).reply n singleKind Answer.ok

/-- R158: the deferred reply of a stop. -/
def State.answerStop (s : State) (r : Result) : State :=
  match s.port.deferredStop with
  | none => s
  | some n => (s.modPort fun p => { p with deferredStop := none }).reply n stopKind { result := r }

/-- R7: the copy that waits takes effect or is discarded; with the answer that this brings, if one waits. -/
def State.commitStaged (s : State) : State × Option Result :=
  match s.floor.staged with
  | none => (s, none)
  | some t =>
    let taken := s.modFloor fun f => { f with staged := none }
    if s.commitInUse t then (taken, some .inUse) else (taken.activate t, some .done)

/-- R7, R10: a waiting commit is settled at a round mark and answered. The alarms that the new copy brings are settled with
the others of the mark, which is one event (section 1.7, R123, log entry 14). -/
def State.settleCommit (s : State) : State :=
  let committed := s.commitStaged
  committed.2.elim committed.1 committed.1.answerCommit

/-- R7, R8: the copy waits, and an earlier commit is answered REPLACED. -/
def State.stageCommit (s : State) (t : RoundTable) (number : Byte) : State :=
  ((s.answerCommit .replaced).modFloor fun f => { f with staged := some t }).modPort fun p =>
    { p with deferredCommit := some number }

/-! ### Frames on the floor lines (R2, R164) -/

/-- A frame goes out on the lines of the round's set. -/
def State.drive (s : State) (onA onB : Bool) (frame : List Byte) : State :=
  s.modFloor fun f =>
    { f with
      linkA := if onA then { f.linkA with sent := frame } else f.linkA
      linkB := if onB then { f.linkB with sent := frame } else f.linkB }

/-- Table 10-1: the round mark. -/
def markFrame (roundNo : Count32) (t : RoundTable) : List Byte :=
  frameBytes 0x01#8 (beBytes 2 roundNo.toNat ++ beBytes 1 t.period ++ beBytes 1 t.cmdSlots)

/-- Table 10-1: the call of a station. -/
def callFrame (st : Nat) : List Byte := frameBytes 0x02#8 (beBytes 1 st)

/-- Table 10-1: the code of a command kind on the floor link. -/
def CommandKind.floorCode : CommandKind → Nat
  | .feed => 1 | .dose => 2 | .igniter => 3 | .stroke => 4 | .fan => 5 | .rate => 6

/-- Table 10-1: a command. -/
def commandFrame (e : QueueEntry) : List Byte :=
  frameBytes 0x04#8 (beBytes 1 e.station ++ beBytes 1 e.kind.floorCode ++ beBytes 2 e.value)

/-! ### The round mark (R10) -/

/-- R10, steps 1 to 5, at the present time. -/
def State.openRound (s : State) : State :=
  let s := (s.modFloor fun f => { f with roundNo := f.roundNo + 1 }).settleCommit
  match s.floor.active with
  | none => s
  | some t =>
    let onA := s.floor.linkA.state != .disabled
    let onB := s.floor.linkB.state != .disabled
    (s.modFloor fun f =>
      { f with
        round :=
          some { markTime := s.timeBase, period := t.period, onA := onA, onB := onB, slots := t.slots,
                 cmdLeft := t.cmdSlots } }).drive onA onB (markFrame s.floor.roundNo t)

/-- R112: COMMAND_OVERRUN at a round mark. -/
def CommandQueue.atMark (q : CommandQueue) : CommandQueue :=
  { q with overrun := q.overrun && q.overrunSinceMark, overrunSinceMark := false }

/-- R78, R96: the refresh counts of lines, runs and compartments count the mark, before anything that the mark brings sets
one back (log entry 15). -/
def State.countMark (s : State) : State :=
  { s with
    lines := s.lines.map Line.countMark
    cooler := { s.cooler with
      runs := s.cooler.runs.map Run.countMark
      compartments := s.cooler.compartments.map Compartment.countMark } }

/-- What the other units do at a round mark (R10): the command queue, the point unit, the fuel unit, the cooler unit, the
alarms and commands they bring, and the digest (log entry 15). -/
def State.markWork (s : State) : State :=
  let period := (s.floor.round.map (·.period)).getD 0
  ((((s.modQueue CommandQueue.atMark).agePoints).fuelMark period).coolerMark).finish.offerDigest

/-- A mark is issued: the refresh counts, the floor engine's part, then the other units'. -/
def State.issueMark (s : State) : State := s.countMark.openRound.markWork

/-- STARTING, NORMAL or DEGRADED: rounds follow one another. -/
def FloorState.runs : FloorState → Bool
  | .starting => true | .normal => true | .degraded => true
  | .halted => false | .single => false

/-- R10: when the next mark falls. -/
def State.markDue (s : State) : Option Time :=
  if s.floor.state.runs && s.floor.active.isSome then s.floor.round.map fun r => r.markTime + r.period else none

def State.roundMark (s : State) : State :=
  match s.markDue with
  | some t => (s.advance t).issueMark
  | none => s

/-! ### Station slots (R11, R12, R164) -/

/-- The words of an answer, more significant byte first. -/
def answerWords : List Byte → List Word16
  | hi :: lo :: rest => (hi ++ lo) :: answerWords rest
  | [_] => []
  | [] => []

/-- R164: the outcome of the bytes that arrived on one line in a slot of station `st`, and the words of the answer. The
bytes between length and check are those before the last two (log entry 29). -/
def judgeBytes (st : Nat) (bytes : List Byte) : SlotOutcome × List Word16 :=
  match bytes with
  | [] => (.silent, [])
  | [_] => (.corrupt, [])
  | kind :: len :: rest =>
    let n := len.toNat
    let payload := rest.take n
    if kind ≠ 0x03#8 ∨ n % 2 = 0 ∨ 17 < n ∨ rest.length ≠ n + 2 then (.corrupt, [])
    else if rest.drop n ≠ beBytes 2 (frameCheck (kind :: len :: payload)).toNat then (.corrupt, [])
    else if payload.head? = some (BitVec.ofNat 8 st) then (.good, answerWords (payload.drop 1))
    else (.foreign, [])

/-- R11: one outcome is counted. -/
def LinkStats.count (x : LinkStats) (o : SlotOutcome) : LinkStats :=
  let x := { x with calls := x.calls + 1 }
  match o with
  | .good => { x with good := x.good + 1 }
  | .silent => { x with silent := x.silent + 1 }
  | .corrupt => { x with corrupt := x.corrupt + 1 }
  | .foreign => { x with foreign := x.foreign + 1 }

/-- R11: the outcome on line A, counted and posted. -/
def State.countA (s : State) (o : SlotOutcome) : State :=
  let s := s.modFloor fun f => { f with linkA := { f.linkA with stats := f.linkA.stats.count o } }
  if o = .good then s else s.post fun r => { r with lostA := satAdd top32 r.lostA 1 }

/-- R11: the outcome on line B, counted and posted. -/
def State.countB (s : State) (o : SlotOutcome) : State :=
  let s := s.modFloor fun f => { f with linkB := { f.linkB with stats := f.linkB.stats.count o } }
  if o = .good then s else s.post fun r => { r with lostB := satAdd top32 r.lostB 1 }

/-- R12: the merge of the outcomes of the lines of the set: the words accepted, or none for a lost slot. -/
def mergeOutcomes (a b : Option (SlotOutcome × List Word16)) : Option (List Word16) :=
  match a, b with
  | some (.good, w), _ => some w
  | _, some (.good, w) => some w
  | _, _ => none

/-- R12: both lines are GOOD and their fields differ. -/
def outcomesDisagree (a b : Option (SlotOutcome × List Word16)) : Bool :=
  match a, b with
  | some (.good, v), some (.good, w) => v != w
  | _, _ => false

def outcomeIs (o : SlotOutcome) (x : Option (SlotOutcome × List Word16)) : Bool := x.any (·.1 == o)

/-- The round after a slot of station `st` with outcomes `a` and `b`. -/
def Round.afterSlot (r : Round) (st : Nat) (rest : List (Nat × Bool)) (a b : Option (SlotOutcome × List Word16)) : Round :=
  { r with
    slots := rest
    slotsDone := r.slotsDone + 1
    accepted := if (mergeOutcomes a b).isSome then r.accepted ++ [st] else r.accepted
    foreign := if outcomeIs .foreign a || outcomeIs .foreign b then r.foreign ++ [st] else r.foreign
    goodA := r.goodA || outcomeIs .good a
    goodB := r.goodB || outcomeIs .good b }

/-- The record of a station, by its id. -/
def Floor.modStation (f : Floor) (st : Nat) (g : Station → Station) : Floor :=
  match stationIndex st with
  | some i => { f with stations := f.stations.set i (g f.stations[i]) }
  | none => f

/-- R12, R26, R34, R45: what a merged slot is handed on as. -/
def State.handOn (s : State) (st : Nat) (quick : Bool) (merged : Option (List Word16)) : State :=
  match merged with
  | some words =>
    let taken := s.takeAnswer st words
    (if quick then taken.scannerEvents st words.length else taken).finish
  | none => if quick then (s.dropScanners (· == st)).finish else s

/-- R11, R12: one station slot of the round in progress. -/
def State.stationSlot (s : State) (r : Round) (st : Nat) (quick : Bool) (rest : List (Nat × Bool))
    (bytesA bytesB : List Byte) : State :=
  let a := if r.onA then some (judgeBytes st bytesA) else none
  let b := if r.onB then some (judgeBytes st bytesB) else none
  let s := s.drive r.onA r.onB (callFrame st)
  let s := match a with
    | some o => s.countA o.1
    | none => s
  let s := match b with
    | some o => s.countB o.1
    | none => s
  let s := s.modFloor fun f => { f with round := some (r.afterSlot st rest a b) }
  let s :=
    if outcomesDisagree a b then
      s.modFloor fun f => f.modStation st fun x => { x with disagree := satAdd 65535 x.disagree 1 }
    else s
  s.handOn st quick (mergeOutcomes a b)

/-- SLOT_OUTCOME: without a station slot to come nothing happens. -/
def State.slotOutcome (s : State) (t : Time) (bytesA bytesB : List Byte) : State :=
  match s.floor.round with
  | none => s
  | some r =>
    match r.slots with
    | [] => s
    | (st, quick) :: rest => (s.advance t).stationSlot r st quick rest bytesA bytesB

/-! ### The judgement of a round (R13, R15, R18, R19) -/

/-- R12, R13: a station's record after the round `r`. -/
def State.judgedStation (s : State) (r : Round) (i : Fin 60) : Station :=
  let x := s.floor.stations[i]
  let x := { x with misplaced := r.foreign.contains (i.val + 1) }
  if s.onActiveList (i.val + 1) then
    if r.accepted.contains (i.val + 1) then { x with present := true, absence := 0 }
    else { x with present := false, absence := satAdd 255 x.absence 1 }
  else x

/-- R13: the presence count. -/
def presenceCount (t : RoundTable) (r : Round) : Nat := (t.ordinary.filter r.accepted.contains).length

/-- R15: the state and the run counts of a line after a judged round; `good` says whether any slot was GOOD on it. A line of
the round's set that was disabled and enabled again within the round is judged by its present state, OK: the spec speaks
of a line that stays disabled alone (DESIGN CHOICE, log entry 42). -/
def FloorLink.judgeRuns (x : FloorLink) (good : Bool) : FloorLink :=
  match x.state, good with
  | .disabled, _ => x
  | .ok, true => { x with deadRun := 0 }
  | .ok, false =>
    if 4 ≤ x.deadRun + 1 then { x with state := .failed, deadRun := 0, liveRun := 0 }
    else { x with deadRun := x.deadRun + 1 }
  | .failed, true =>
    if 8 ≤ x.liveRun + 1 then { x with state := .ok, deadRun := 0, liveRun := 0 }
    else { x with liveRun := x.liveRun + 1 }
  | .failed, false => { x with liveRun := 0 }

/-- R15: the health of a line of the round's set, and its count of dead rounds. -/
def FloorLink.judge (x : FloorLink) (good : Bool) : FloorLink :=
  { x.judgeRuns good with
    stats := { x.stats with dead := if good then x.stats.dead else x.stats.dead + 1 } }

def CauseSet.isEmpty (c : CauseSet) : Bool := !c.lineA && !c.lineB && !c.quorum

/-- R19: in STARTING, NORMAL and DEGRADED the line causes follow the lines. -/
def Floor.lineCauses (f : Floor) : Floor :=
  if f.state.runs then
    { f with causes :=
        { f.causes with lineA := f.linkA.state == .failed, lineB := f.linkB.state == .failed } }
  else f

/-- R19: in NORMAL and DEGRADED the state follows the cause set. -/
def Floor.follow (f : Floor) : Floor :=
  match f.state with
  | .normal => { f with state := if f.causes.isEmpty then .normal else .degraded }
  | .degraded => { f with state := if f.causes.isEmpty then .normal else .degraded }
  | .starting => f
  | .halted => f
  | .single => f

/-- R19: the quorum run counts after a round with `present` ordinary stations. -/
def Floor.countQuorum (f : Floor) (t : RoundTable) (present : Nat) : Floor :=
  if t.quorum ≤ present then { f with atQuorum := satAdd 3 f.atQuorum 1, belowQuorum := 0 }
  else { f with atQuorum := 0, belowQuorum := satAdd 3 f.belowQuorum 1 }

/-- R18: the judgement in STARTING. -/
def Floor.judgeStart (f : Floor) (t : RoundTable) : Floor :=
  let f := { f with startCount := f.startCount + 1 }
  if f.atQuorum = 3 then { f with state := if f.causes.isEmpty then .normal else .degraded }
  else if t.window ≤ f.startCount then
    { f with state := .degraded, causes := { f.causes with quorum := true } }
  else f

/-- R19: the judgement of the quorum in NORMAL and DEGRADED. -/
def Floor.judgeQuorum (f : Floor) : Floor :=
  let quorum := if f.belowQuorum = 3 then true else if f.atQuorum = 3 then false else f.causes.quorum
  { f with causes := { f.causes with quorum := quorum } }.follow

/-- R13 to R19: the floor after the judgement of the round `r` under the table `t`. A single round moves presence and line
health alone (R20). -/
def State.judgedFloor (s : State) (t : RoundTable) (r : Round) : Floor :=
  let present := presenceCount t r
  let f : Floor :=
    { s.floor with
      stations := Vector.ofFn (s.judgedStation r)
      presence := present
      linkA := if r.onA then s.floor.linkA.judge r.goodA else s.floor.linkA
      linkB := if r.onB then s.floor.linkB.judge r.goodB else s.floor.linkB
      round := some { r with judged := true } }
  match f.state with
  | .starting => (f.lineCauses.countQuorum t present).judgeStart t
  | .normal => (f.lineCauses.countQuorum t present).judgeQuorum
  | .degraded => (f.lineCauses.countQuorum t present).judgeQuorum
  | .single => f
  | .halted => f

/-- R70: QUORUM is held on every burner while the floor is DEGRADED with QUORUM in its cause set. -/
def State.reportQuorum (s : State) : State := s.setHoldAll .quorum s.quorumHolds

/-- ROUND_JUDGEMENT: the round whose last station slot is known is judged, once. -/
def State.roundJudgement (s : State) : State :=
  match s.floor.round, s.floor.active with
  | some r, some t =>
    if r.slots.isEmpty && !r.judged then
      ((s.modFloor fun _ => s.judgedFloor t r).reportQuorum.checkAbsences).finish
    else s
  | _, _ => s

/-! ### Halting (R20, R21) -/

/-- R20, R21, R161: the floor enters HALTED, no stop waits any more, and the digest timer starts. -/
def State.haltFloor (s : State) : State :=
  (s.modFloor fun f =>
    { f with state := .halted, causes := {}, round := none, stopWaiting := false,
             haltTimer := some (s.timeBase + Config.haltedDigestMs) }).reportQuorum

/-- The halt with all it settles, as one event: the floor enters HALTED and a waiting commit takes effect (R8); then the
alarms of both are settled together, in ascending number (R123, log entry 14), the digest is offered (R161), and the
deferred replies follow (log entry 16). -/
def State.halt (s : State) : State :=
  let committed := s.haltFloor.commitStaged
  let told := committed.1.finish.offerDigest.answerSingle
  (committed.2.elim told told.answerCommit).answerStop .done

/-- R21: the three conditions of a stop. -/
def State.stopAllowed (s : State) : Bool :=
  (indices 3).all (fun b => (s.burnerEntry? b).isNone || (s.burners[b]).state == .off ||
      (s.burners[b]).state == .lockout) &&
    (indices 6).all (fun l => (s.lineEntry? l).isNone ||
      (((s.lines[l]).state == .out || (s.lines[l]).state == .ready) && (s.lines[l]).feed == 0)) &&
    s.cooler.state == .stopped

/-- R21: a waiting stop is settled at the end of the round. -/
def State.settleStop (s : State) : State :=
  if s.stopAllowed then s.halt
  else (s.modFloor fun f => { f with stopWaiting := false }).answerStop .notPermitted

/-- The end of the last command slot of a round (R20, R21). -/
def State.endRound (s : State) : State :=
  if s.floor.state = .single then s.halt else if s.floor.stopWaiting then s.settleStop else s

/-! ### Command slots (R14, R113) -/

/-- R113: a sent STROKE of COOLER origin is told to the cooler unit. -/
def State.tellSent (s : State) (e : QueueEntry) : State :=
  match e.kind, e.origin with
  | .stroke, .cooler => (s.commandRun e.station).elim s s.strokeSent
  | _, _ => s

/-- R14, R113: the head of the queue leaves and is sent. -/
def State.sendHead (s : State) (r : Round) : State :=
  match s.queue.list with
  | [] => s
  | e :: rest => ((s.setCommands rest).drive r.onA r.onB (commandFrame e)).tellSent e

/-- COMMAND_SLOT: the command slots of a round come after its judgement. -/
def State.commandSlot (s : State) (t : Time) : State :=
  match s.floor.round with
  | none => s
  | some r =>
    if r.judged && 0 < r.cmdLeft then
      let sent := ((s.advance t).modFloor fun f =>
        { f with round := some { r with cmdLeft := r.cmdLeft - 1 } }).sendHead r
      if r.cmdLeft = 1 then sent.endRound else sent
    else s

/-- HALTED_DIGEST_TIMER_EXPIRY (R161). -/
def State.haltedDigest (s : State) : State :=
  match s.floor.haltTimer with
  | none => s
  | some t =>
    let s := s.advance t
    (s.modFloor fun f => { f with haltTimer := some (s.timeBase + Config.haltedDigestMs) }).offerDigest

/-! ### Requests to the floor engine -/

def Floor.modLink (f : Floor) (x : LinkId) (g : FloorLink → FloorLink) : Floor :=
  match x with
  | .a => { f with linkA := g f.linkA }
  | .b => { f with linkB := g f.linkB }

def LinkId.other : LinkId → LinkId
  | .a => .b
  | .b => .a

/-- R16: a line turned on. -/
def FloorLink.enable (x : FloorLink) : FloorLink :=
  if x.state = .disabled then { x with state := .ok, deadRun := 0, liveRun := 0 } else x

/-- R16: a line turned off. -/
def FloorLink.disable (x : FloorLink) : FloorLink :=
  if x.state = .disabled then x else { x with state := .disabled, deadRun := 0, liveRun := 0 }

/-- R16. -/
def State.enableLine (s : State) (x : LinkId) (on : Bool) : State × Answer :=
  if on then (s.modFloor fun f => f.modLink x FloorLink.enable, Answer.ok)
  else if s.floor.state ≠ .halted ∧ (s.floor.link x.other).state = .disabled then
    (s, { result := .notPermitted })
  else ((s.modFloor fun f => (f.modLink x FloorLink.disable).lineCauses.follow).finish, Answer.ok)

/-- R17: why START_ROUNDS and SINGLE_ROUND are refused. -/
def State.startRefusal (s : State) : Option Result :=
  if s.floor.state ≠ .halted then some .notPermitted
  else if s.floor.active.isNone then some .notConfigured
  else if s.floor.linkA.state = .disabled ∧ s.floor.linkB.state = .disabled then some .notPermitted
  else none

/-- R17: the floor becomes STARTING, and the first mark is issued. -/
def State.startRounds (s : State) : State :=
  (s.modFloor fun f =>
    { f with state := .starting, startCount := 0, atQuorum := 0, belowQuorum := 0, haltTimer := none }.lineCauses).issueMark

/-- R20: the floor becomes SINGLE, and its one mark is issued. -/
def State.startSingle (s : State) (number : Byte) : State :=
  ((s.modFloor fun f => { f with state := .single, haltTimer := none }).modPort fun p =>
    { p with deferredSingle := some number }).issueMark

/-- The last command slot of the round in progress has passed. -/
def State.roundEnded (s : State) : Bool :=
  match s.floor.round with
  | none => true
  | some r => r.judged && r.cmdLeft == 0

/-- R21: STOP_ROUNDS is refused. -/
def State.stopRefused (s : State) : Bool :=
  match s.floor.state with
  | .halted => true
  | .single => s.floor.stopWaiting
  | .starting => s.floor.stopWaiting || !s.stopAllowed
  | .normal => s.floor.stopWaiting || !s.stopAllowed
  | .degraded => s.floor.stopWaiting || !s.stopAllowed

/-- R21: a stop is taken, and settled at once when the round has ended. -/
def State.takeStop (s : State) (number : Byte) : State :=
  let s := (s.modFloor fun f => { f with stopWaiting := true }).modPort fun p => { p with deferredStop := some number }
  if s.floor.state.runs && s.roundEnded then s.settleStop else s

end Sys2Proof.Machine
end

