-- ==== Sys2Proof/Machine/Port.lean ====
section
/-!
DEFINITION. The plant port (chapter 9): the receiver, good frames, silence, the transmitter, and the gate through which
requests are taken.
-/
namespace Sys2Proof.Machine

/-! ### Characters (R152, R153) -/

inductive CharError where
  | overrun | framing | noise | parity
  deriving DecidableEq, Repr

/-- R152: the number of ones among data bits, mark bit and parity bit is even. -/
def charParityOk (c : PlantChar) : Bool := (onesOf c.data + c.mark.toNat + c.parity.toNat) % 2 == 0

/-- R153: the first error that applies. -/
def charError (c : PlantChar) : Option CharError :=
  if c.overrun then some .overrun
  else if !c.stopHigh then some .framing
  else if c.noisy then some .noise
  else if !charParityOk c then some .parity
  else none

def LinkCounts.countError (x : LinkCounts) (e : CharError) : LinkCounts :=
  match e with
  | .overrun => { x with overrun := x.overrun + 1 }
  | .framing => { x with framing := x.framing + 1 }
  | .noise => { x with noise := x.noise + 1 }
  | .parity => { x with parity := x.parity + 1 }

/-! ### Good frames and silence (R155, R156) -/

/-- R156: PLANT_SILENT ends, and SILENCE is withdrawn from every burner. -/
def State.endSilence (s : State) : State :=
  if s.port.silent then
    ((s.modPort fun p => { p with silent := false }).setHoldAll .silence false).finish
  else s

/-- R155: a good frame. -/
def State.goodFrame (s : State) (f : RxFrame) : State :=
  ((s.modPort fun p =>
    { p with
      silenceStart := s.timeBase
      counts := { p.counts with
        good := p.counts.good + 1
        rxOverrun := if p.rxQueue.length < Config.receivePlaces then p.counts.rxOverrun else p.counts.rxOverrun + 1 }
      rxQueue := if p.rxQueue.length < Config.receivePlaces then p.rxQueue ++ [f] else p.rxQueue })).endSilence

/-- The reading at which the silence timer expires; it runs while the link is not silent (R156). -/
def Port.silenceDue (p : Port) : Option Time :=
  if p.silent then none else some (p.silenceStart + p.silenceTime * 1000)

/-- SILENCE_TIMER_EXPIRY (R156). -/
def State.silenceExpiry (s : State) : State :=
  match s.port.silenceDue with
  | none => s
  | some t => (((s.advance t).modPort fun p => { p with silent := true }).setHoldAll .silence true).finish

/-! ### The receiver (R153, R154) -/

def State.setReceiver (s : State) (r : Option Partial) : State := s.modPort fun p => { p with receiver := r }

/-- R153: a frame begins with its kind. -/
def State.beginFrame (s : State) (c : PlantChar) : State :=
  s.setReceiver (some { chars := [c.data], bad := false, last := s.timeBase })

/-- R153: a complete frame; `chars` are kind, length, payload and check. -/
def State.completeFrame (s : State) (chars : List Byte) (bad : Bool) : State :=
  let body := chars.take (chars.length - 2)
  if bad then s
  else if chars.drop (chars.length - 2) ≠ beBytes 2 (frameCheck body).toNat then
    s.modCounts fun c => { c with badCheck := c.badCheck + 1 }
  else s.goodFrame { kind := chars.headD 0, payload := body.drop 2 }

/-- R153: the frame's length says that the character kept last was the second check character. -/
def frameComplete (chars : List Byte) : Bool := chars.length == 4 + (chars.getD 1 0).toNat

/-- R153: a character is kept in its place inside the frame. -/
def State.keepChar (s : State) (p : Partial) (c : PlantChar) (bad : Bool) : State :=
  let chars := p.chars ++ [c.data]
  if frameComplete chars then (s.setReceiver none).completeFrame chars bad
  else s.setReceiver (some { chars := chars, bad := bad, last := s.timeBase })

/-- R153: a character without an error inside a frame. -/
def State.goodCharInside (s : State) (p : Partial) (c : PlantChar) : State :=
  if c.mark then (s.modCounts fun x => { x with truncated := x.truncated + 1 }).beginFrame c
  else if p.chars.length = 1 ∧ Config.payloadMax < c.data.toNat then
    (s.modCounts fun x => { x with badLength := x.badLength + 1 }).setReceiver none
  else s.keepChar p c p.bad

/-- R153: a character with an error inside a frame, already counted. -/
def State.badCharInside (s : State) (p : Partial) (c : PlantChar) : State :=
  if p.chars.length = 1 then s.setReceiver none else s.keepChar p c true

/-- R153: a character at the present time. -/
def State.takeChar (s : State) (c : PlantChar) : State :=
  match s.port.receiver, charError c with
  | none, none =>
    if c.mark then s.beginFrame c else s.modCounts fun x => { x with stray := x.stray + 1 }
  | none, some e => s.modCounts fun x => x.countError e
  | some p, none => s.goodCharInside p c
  | some p, some e => (s.modCounts fun x => x.countError e).badCharInside p c

/-- R154: a break, inside or outside a frame. -/
def State.takeBreak (s : State) : State :=
  (s.setReceiver none).modCounts fun x => { x with breaks := x.breaks + 1 }

/-- R154: the gap timer expires 2 ms after the last character kept. -/
def State.gapExpiry (s : State) : State :=
  match s.port.receiver with
  | none => s
  | some p =>
    ((s.advance (p.last + Config.gapMs)).setReceiver none).modCounts fun x => { x with idle := x.idle + 1 }

/-! ### The transmitter (R160, R162) -/

def resetKind : Byte := 0x25#8

/-- The frame is the reply DONE to a RESET. -/
def TxFrame.answersReset (f : TxFrame) : Bool :=
  f.kind == .reply && f.payload.getD 1 0 == resetKind && f.payload.getD 2 0xFF#8 == 0#8

/-- FRAME_SENT (R160): the transmitter becomes idle and takes the next frame. R162: the reply of the pending RESET has
been sent. -/
def State.frameDone (s : State) : State :=
  match s.port.sending with
  | none => s
  | some f =>
    s.modPort fun p =>
      { p with
        sending := none
        resetReplySent := p.resetReplySent || (p.resetPending && f.answersReset) }.startSending s.timeBase

/-- R152: the bit rate of the strap pins. -/
def Port.bitRate (p : Port) : Nat :=
  match p.strap1, p.strap2 with
  | false, false => 115200
  | false, true => 230400
  | true, false => 460800
  | true, true => 921600

/-- The reading at which the last stop bit of the frame in transmission has been sent: twelve bit times for each of
kind, length, payload and check characters (R152, R160). -/
def Port.sentDue (p : Port) : Option Time :=
  p.sending.map fun f => p.sendStart + ceilDiv (12 * (f.payload.length + 4) * 1000) p.bitRate

/-! ### Taking requests (R157) -/

def repliesWaiting (q : List TxFrame) : Nat := (q.filter fun f => f.kind == .reply).length

/-- R157: a request may be taken. -/
def State.gateOpen (s : State) : Bool := repliesWaiting s.port.txQueue ≤ 1 && !s.port.resetPending

/-- The request that the port takes next, if its kind satisfies `sel`. -/
def State.requestHead (s : State) (sel : Byte → Bool) : Option RxFrame :=
  if s.gateOpen then s.port.rxQueue.head?.filter fun f => sel f.kind else none

def State.popRequest (s : State) : State := s.modPort fun p => { p with rxQueue := p.rxQueue.drop 1 }

/-- What an owning block makes of a request: its number and the bytes after it. No answer means a deferred one (R158). -/
abbrev Handler := State → Byte → List Byte → State × Option Answer

/-- R166: a payload without its request number is BAD_FRAME; the number of its reply is a free value (log entry 3). -/
def State.missingNumber (s : State) (kind : Byte) (r : Result) : State :=
  ({ s with freeIndex := s.freeIndex + 1 } : State).reply (Config.missingRequestNumber s.freeIndex) kind
    { result := r }

/-- R157: the answer of the owning block is queued as the reply. -/
def State.queueAnswer (s : State) (number kind : Byte) : Option Answer → State
  | some a => s.reply number kind a
  | none => s

/-- R157: the request at the head, whose kind satisfies `sel`, is taken whole and handed to `handle`. -/
def State.serve (s : State) (sel : Byte → Bool) (missing : Result) (handle : Handler) : State :=
  match s.requestHead sel with
  | none => s
  | some f =>
    match f.payload with
    | [] => s.popRequest.missingNumber f.kind missing
    | number :: args =>
      let r := handle s.popRequest number args
      r.1.queueAnswer number f.kind r.2

/-- R157: a request of one kind. -/
def State.serveKind (s : State) (kind : Byte) (handle : Handler) : State := s.serve (· == kind) .badFrame handle

/-- Section 10.2: the request kinds are 01H to 25H. -/
def isRequestKind (b : Byte) : Bool := 1 ≤ b.toNat && b.toNat ≤ 0x25

/-- R157, step 1. -/
def State.unknownKind (s : State) : State :=
  s.serve (fun b => !isRequestKind b) .unknownKind fun s _ _ => (s, some { result := .unknownKind })

end Sys2Proof.Machine
end

