-- ==== Sys2Proof/Machine/Operands.lean ====
section
/-!
DEFINITION. Request payloads (section 10.2): items, their encodings, what suits a field, and the fields of entries and
arguments.
-/
namespace Sys2Proof.Machine

/-! ### Items (Table 10-2) -/

/-- The value of an item. A record, or each record of a list, is kept as the bytes of its items. -/
inductive Value where
  | int (i : Int)
  | enum (n : Nat)
  | ints (xs : List Int)
  | record (bytes : List Byte)
  | records (rs : List (List Byte))
  deriving DecidableEq, Repr

structure Item where
  tag : Nat
  value : Value
  deriving DecidableEq, Repr

/-- The first `n` bytes and the rest, where there are so many. -/
def splitBytes (n : Nat) (bs : List Byte) : Option (List Byte × List Byte) :=
  if n ≤ bs.length then some (bs.take n, bs.drop n) else none

/-- `count` elements of `width` bytes each. -/
def readElements (width : Nat) (f : List Byte → Int) : Nat → List Byte → Option (List Int × List Byte)
  | 0, bs => some ([], bs)
  | count + 1, bs =>
    match splitBytes width bs with
    | none => none
    | some (e, rest) => (readElements width f count rest).map fun r => (f e :: r.1, r.2)

/-- A length byte and that many bytes. -/
def readRecord (bs : List Byte) : Option (List Byte × List Byte) :=
  match bs with
  | [] => none
  | n :: rest => splitBytes n.toNat rest

def readRecords : Nat → List Byte → Option (List (List Byte) × List Byte)
  | 0, bs => some ([], bs)
  | count + 1, bs =>
    match readRecord bs with
    | none => none
    | some (r, rest) => (readRecords count rest).map fun x => (r :: x.1, x.2)

/-- An integer of `n` bytes. -/
def readInt (n : Nat) (f : List Byte → Int) (bs : List Byte) : Option (Value × List Byte) :=
  (splitBytes n bs).map fun r => (.int (f r.1), r.2)

def unsigned (bs : List Byte) : Int := beNat bs

/-- The value after an encoding byte `enc`; none for an encoding that Table 10-2 does not have, and for a value that
runs past the end. -/
def readValue (enc : Byte) (bs : List Byte) : Option (Value × List Byte) :=
  match enc.toNat, bs with
  | 1, _ => readInt 1 unsigned bs
  | 2, _ => readInt 2 beSigned bs
  | 3, _ => readInt 4 beSigned bs
  | 4, n :: rest => some (.enum n.toNat, rest)
  | 5, n :: rest => (readElements 1 unsigned n.toNat rest).map fun r => (.ints r.1, r.2)
  | 6, n :: rest => (readElements 2 beSigned n.toNat rest).map fun r => (.ints r.1, r.2)
  | 7, _ => (readRecord bs).map fun r => (.record r.1, r.2)
  | 8, n :: rest => (readRecords n.toNat rest).map fun r => (.records r.1, r.2)
  | 9, _ => readInt 8 unsigned bs
  | _, _ => none

/-- The items inside a record read whole; `p` reads items. -/
def Value.innerOk (p : List Byte → Option (List Item)) : Value → Bool
  | .record bs => (p bs).isSome
  | .records rs => rs.all fun bs => (p bs).isSome
  | .int _ => true
  | .enum _ => true
  | .ints _ => true

/-- R166: a run of items; none where it does not decode. `fuel` is more than the number of items and of nestings. -/
def readItems : Nat → List Byte → Option (List Item)
  | 0, _ => none
  | _ + 1, [] => some []
  | _ + 1, [_] => none
  | fuel + 1, tag :: enc :: rest =>
    match readValue enc rest with
    | none => none
    | some (v, rest') =>
      if v.innerOk (readItems fuel) then
        (readItems fuel rest').map fun is => { tag := tag.toNat, value := v } :: is
      else none

/-- R166: the items of a whole run of bytes. -/
def itemsOf (bs : List Byte) : Option (List Item) := readItems (bs.length + 1) bs

/-- The items of a record that has been read. -/
def innerItems (bs : List Byte) : List Item := (itemsOf bs).getD []

/-! ### Reading fields -/

def valueOf (is : List Item) (tag : Nat) : Option Value := (is.find? (·.tag == tag)).map (·.value)

def given (is : List Item) (tag : Nat) : Bool := (valueOf is tag).isSome

/-- None of the tags is given. -/
def noneGiven (is : List Item) (tags : List Nat) : Bool := tags.all fun t => !given is t

/-- The integer of a tag. -/
def intOf (is : List Item) (tag : Nat) : Option Int :=
  match valueOf is tag with
  | some (.int i) => some i
  | _ => none

/-- The enumerator of a tag. -/
def enumOf (is : List Item) (tag : Nat) : Option Nat :=
  match valueOf is tag with
  | some (.enum n) => some n
  | _ => none

/-! ### What suits a field (section 10.2.1, R166) -/

/-- A field with one value: an integer, an enumerator with so many names, or the instance of an alarm source, which is
an enumerator for floor lines A and B and an integer for every other code (log entry 25). -/
inductive SimpleKind where
  | int
  | enum (names : Nat)
  | instanceNo
  deriving DecidableEq, Repr

/-- A field of an entry. Tags number the fields of an entry or record from 1. -/
inductive FieldKind where
  | simple (k : SimpleKind)
  | ints
  | record (fields : List SimpleKind)
  | records (fields : List SimpleKind)
  deriving DecidableEq, Repr

/-- The number of the code LINE_FAILED in Table 7-4. -/
def lineFailedCode : Nat := 9

/-- The value is an integer. -/
def Value.isInt : Value → Bool
  | .int _ => true
  | _ => false

/-- The value is an enumerator. -/
def Value.isEnum : Value → Bool
  | .enum _ => true
  | _ => false

/-- The encoding of a value suits a field of a record whose items are `is`. -/
def SimpleKind.suits (is : List Item) : SimpleKind → Value → Bool
  | .int, v => v.isInt
  | .enum _, v => v.isEnum
  | .instanceNo, v => if enumOf is 3 = some lineFailedCode then v.isEnum else v.isInt

/-- The field of a tag. -/
def fieldOf {α : Type} (fields : List α) (tag : Nat) : Option α := if tag = 0 then none else fields[tag - 1]?

/-- R166: every known tag of a record carries an encoding that suits its field. -/
def recordSuits (fields : List SimpleKind) (is : List Item) : Bool :=
  is.all fun i => (fieldOf fields i.tag).all fun k => k.suits is i.value

def FieldKind.suits : FieldKind → Value → Bool
  | .simple k, v => k.suits [] v
  | .ints, .ints _ => true
  | .record fields, .record bs => recordSuits fields (innerItems bs)
  | .records fields, .records rs => rs.all fun bs => recordSuits fields (innerItems bs)
  | _, _ => false

/-- R166: every known tag of an entry carries an encoding that suits its field. -/
def entrySuits (fields : List FieldKind) (is : List Item) : Bool :=
  is.all fun i => (fieldOf fields i.tag).all fun k => k.suits i.value

/-- R166: an enumerator within the names of its field. -/
def SimpleKind.named : SimpleKind → Value → Bool
  | .enum names, .enum n => n < names
  | _, _ => true

def noTagTwice (is : List Item) : Bool := decide (is.map (·.tag)).Nodup

/-- R166: no unknown tag, no tag twice, no enumerator beyond its names. -/
def recordTakes (fields : List SimpleKind) (is : List Item) : Bool :=
  noTagTwice is && is.all fun i => (fieldOf fields i.tag).any fun k => k.named i.value

def FieldKind.takes : FieldKind → Value → Bool
  | .simple k, v => k.named v
  | .record fields, .record bs => recordTakes fields (innerItems bs)
  | .records fields, .records rs => rs.all fun bs => recordTakes fields (innerItems bs)
  | _, _ => true

/-- R166: no unknown tag, no tag twice, no enumerator beyond its names, in the entry or in a record of it. -/
def entryTakes (fields : List FieldKind) (is : List Item) : Bool :=
  noTagTwice is && is.all fun i => (fieldOf fields i.tag).any fun k => k.takes i.value

/-! ### Fields within their ranges -/

/-- A mandatory integer within its range; none refuses the write. -/
def need (is : List Item) (tag : Nat) (lo hi : Int) : Option Int :=
  (intOf is tag).filter fun i => lo ≤ i && i ≤ hi

/-- A mandatory natural within its range. -/
def needNat (is : List Item) (tag lo hi : Nat) : Option Nat := (need is tag lo hi).map Int.toNat

/-- An optional integer, which must be within its range if given. -/
def opt (is : List Item) (tag : Nat) (lo hi : Int) : Option (Option Int) :=
  if given is tag then (need is tag lo hi).map some else some none

def optNat (is : List Item) (tag lo hi : Nat) : Option (Option Nat) :=
  (opt is tag lo hi).map fun x => x.map Int.toNat

/-- A mandatory object number of a range that starts at `base`. -/
def needObject (is : List Item) (tag size : Nat) (base : Int) : Option (Fin size) :=
  (intOf is tag).bind (objectIndex size base)

/-- An optional object number. -/
def optObject (is : List Item) (tag size : Nat) (base : Int) : Option (Option (Fin size)) :=
  if given is tag then (needObject is tag size base).map some else some none

/-- A mandatory field given as 0 or 1. -/
def needFlag (is : List Item) (tag : Nat) : Option Bool := (need is tag 0 1).map fun i => i == 1

/-- A mandatory enumerator among named values. -/
def needName {α : Type} (is : List Item) (tag : Nat) (names : List α) : Option α := (enumOf is tag).bind (names[·]?)

/-- A list of integers, each within its range. -/
def needInts (is : List Item) (tag : Nat) (lo hi : Int) : Option (List Int) :=
  match valueOf is tag with
  | some (.ints xs) => if xs.all fun i => lo ≤ i && i ≤ hi then some xs else none
  | _ => none

/-- An optional list; absent means empty. -/
def optInts (is : List Item) (tag : Nat) (lo hi : Int) : Option (List Int) :=
  if given is tag then needInts is tag lo hi else some []

/-- A mandatory record. -/
def needRecord (is : List Item) (tag : Nat) : Option (List Item) :=
  match valueOf is tag with
  | some (.record bs) => some (innerItems bs)
  | _ => none

/-- An optional list of records; absent means empty. -/
def optRecords (is : List Item) (tag : Nat) : Option (List (List Item)) :=
  match valueOf is tag with
  | some (.records rs) => some (rs.map innerItems)
  | some _ => none
  | none => some []

/-! ### Arguments (Table 10-3, R166) -/

/-- An argument: its kind and whether it must be given. -/
structure Arg where
  kind : SimpleKind
  mandatory : Bool := true

/-- R166: the arguments of a request; none is BAD_FRAME. -/
def readArgs (args : List Arg) (bs : List Byte) : Option (List Item) :=
  match itemsOf bs with
  | none => none
  | some is =>
    if noTagTwice is && is.all (fun i => (fieldOf args i.tag).any fun a => a.kind.suits [] i.value) &&
        args.zipIdx.all (fun a => !a.1.mandatory || given is (a.2 + 1)) then some is
    else none

/-- A handler over the decoded arguments. -/
def withArgs (args : List Arg) (f : State → Byte → List Item → State × Option Answer) : Handler := fun s number bs =>
  match readArgs args bs with
  | some is => f s number is
  | none => (s, some { result := .badFrame })

/-- A handler over arguments whose answer is never deferred. -/
def answering (args : List Arg) (f : State → List Item → State × Answer) : Handler :=
  withArgs args fun s _ is =>
    let r := f s is
    (r.1, some r.2)

/-- R157: a refusal changes nothing. -/
def refuse (s : State) (r : Result) : State × Answer := (s, { result := r })

/-- The object that argument 1 names; any other number is BAD_INDEX. -/
def withObject (size : Nat) (base : Int) (s : State) (is : List Item) (f : Fin size → State × Answer) :
    State × Answer :=
  match needObject is 1 size base with
  | some n => f n
  | none => refuse s .badIndex

def intArg : Arg := { kind := .int }
def enumArg (names : Nat) : Arg := { kind := .enum names }

end Sys2Proof.Machine
end

