-- ==== Sys2Proof/Machine/Entries.lean ====
section
/-!
DEFINITION. The entries of the twelve tables: the fields of each (with their kinds), an entry from its items, which
checks what the write rules ask of the entry alone, and the items of an entry for READ_ENTRY (R167).
-/
namespace Sys2Proof.Machine

def int : FieldKind := .simple .int
def enumField (names : Nat) : FieldKind := .simple (.enum names)

/-- A name's number in the list of names. -/
def nameCode {α : Type} [DecidableEq α] (names : List α) (x : α) : Nat := names.idxOf x

def itemName {α : Type} [DecidableEq α] (tag : Nat) (names : List α) (x : α) : List Byte :=
  itemEnum tag (nameCode names x)

/-- An object by its number. -/
def itemObject {n : Nat} (tag base : Nat) (x : Fin n) : List Byte := itemNat tag (x.val + base)

/-- An optional list; an empty one is held as an absent one (log entry 24). -/
def itemOptInts (tag : Nat) (xs : List Int) : List Byte := if xs.isEmpty then [] else itemInts tag xs

/-- Least and greatest signed 32-bit values. -/
def int32Low : Int := -2147483648
def int32High : Int := 2147483647

/-! ### Round table (Table 1-1, R3) -/

def roundFields : List FieldKind := [.ints, .ints, int, int, int, int, int]

def buildRound (is : List Item) : Option RoundTable := do
  let ordinary ← (needInts is 1 1 60).filter fun xs => 1 ≤ xs.length && xs.length ≤ 56
  let quick ← (optInts is 2 1 60).filter fun xs => xs.length ≤ 4
  let gap ← needNat is 3 1 8
  let period ← needNat is 4 5 50
  let cmdSlots ← needNat is 5 1 16
  let quorum ← needNat is 6 1 56
  let window ← needNat is 7 10 1000
  return { ordinary := ordinary.map Int.toNat, quick := quick.map Int.toNat, gap, period, cmdSlots, quorum, window }

def ofNats (xs : List Nat) : List Int := xs.map Int.ofNat

def RoundTable.items (t : RoundTable) : List Byte :=
  itemInts 1 (ofNats t.ordinary) ++ itemOptInts 2 (ofNats t.quick) ++ itemNat 3 t.gap ++ itemNat 4 t.period ++
    itemNat 5 t.cmdSlots ++ itemNat 6 t.quorum ++ itemNat 7 t.window

/-! ### Point table (Table 2-1, R24) -/

def rawKinds : List RawKind := [.u12, .u16, .s16, .counter16, .flags16]

/-- U12, U16 and S16. -/
def RawKind.scaled : RawKind → Bool
  | .u12 => true | .u16 => true | .s16 => true
  | .counter16 => false | .flags16 => false

def pointFields : List FieldKind := [int, int, int, enumField 5, int, int, int, int, int, int, int]

/-- R24: an entry of a scaled kind has tags 5 to 10 and not tag 11. -/
def scaledPoint (inUse : Bool) (station field : Nat) (kind : RawKind) (gain offset low high : Option Int)
    (shift fresh incLimit : Option Nat) : Option PointEntry := do
  let gain ← gain
  let offset ← offset
  let low ← low
  let high ← high
  let shift ← shift
  let fresh ← fresh
  if low < high ∧ incLimit = none then
    some { inUse, station, field, kind, gain := some gain, offset := some offset, low, high, shift := some shift,
           fresh, incLimit := none }
  else none

/-- R24: a COUNTER16 or FLAGS16 entry is held to the range 0 to 65535, with tags 5, 6 and 9 absent. -/
def wordPoint (inUse : Bool) (station field : Nat) (kind : RawKind) (low high : Option Int) (fresh incLimit : Option Nat) :
    Option PointEntry := do
  let fresh ← fresh
  if low.all (· == 0) && high.all (· == 65535) && incLimit.isSome == (kind == .counter16) then
    some { inUse, station, field, kind, gain := none, offset := none, low := 0, high := 65535, shift := none, fresh,
           incLimit }
  else none

def buildPoint (is : List Item) : Option PointEntry := do
  let inUse ← needFlag is 1
  let station ← needNat is 2 1 60
  let field ← needNat is 3 0 7
  let kind ← needName is 4 rawKinds
  let gain ← opt is 5 (-32768) 32767
  let offset ← opt is 6 int32Low int32High
  let low ← opt is 7 int32Low int32High
  let high ← opt is 8 int32Low int32High
  let shift ← optNat is 9 0 7
  let fresh ← optNat is 10 1 255
  let incLimit ← optNat is 11 1 65535
  if kind.scaled then scaledPoint inUse station field kind gain offset low high shift fresh incLimit
  else wordPoint inUse station field kind low high fresh incLimit

def PointEntry.items (e : PointEntry) : List Byte :=
  itemBool 1 e.inUse ++ itemNat 2 e.station ++ itemNat 3 e.field ++ itemName 4 rawKinds e.kind ++
    itemOpt (itemInt 5) e.gain ++ itemOpt (itemInt 6) e.offset ++ itemInt 7 e.low ++ itemInt 8 e.high ++
    itemOpt (itemNat 9) e.shift ++ itemNat 10 e.fresh ++ itemOpt (itemNat 11) e.incLimit

/-! ### Burner table (Tables 3-1 and 3-2, R42) -/

def votes : List Vote := [.any, .all]

/-- Table 3-2. -/
def permissiveFields : List SimpleKind := [.enum 3, .int, .int, .int]

def burnerFields : List FieldKind :=
  [int, int, int, int, int, int, int, int, int, enumField 2, int, int, int, int, int, int, int, int, int, int, int,
   .records permissiveFields]

/-- Table 3-2. A permissive without its kind (tag 1) or its running field (tag 4), which R42 does not list among the
refusals, makes the write INVALID (DESIGN CHOICE, log entry 43). -/
def buildPermissive (is : List Item) : Option Permissive := do
  let kind ← enumOf is 1
  let point ← optObject is 2 256 0
  let threshold ← opt is 3 int32Low int32High
  let running ← needFlag is 4
  match kind, point, threshold with
  | 0, some p, some t => some { kind := .pointAtLeast p t, running }
  | 1, some p, some t => some { kind := .pointAtMost p t, running }
  | 2, none, none => some { kind := .coolerRunning, running }
  | _, _, _ => none

/-- R42: tag 17, or tags 18 and 19. -/
def buildIgnition (line : Option (Fin 6)) (point : Option (Fin 256)) (threshold : Option Int) : Option Ignition :=
  match line, point, threshold with
  | some l, none, none => some (.line l)
  | none, some p, some t => some (.selfPoint p t)
  | _, _, _ => none

/-- R42: tags 4 and 5 come together. -/
def buildScanner2 (intensity flicker : Option (Fin 256)) : Option (Option Scanner) :=
  match intensity, flicker with
  | none, none => some none
  | some i, some f => some (some { intensity := i, flicker := f })
  | _, _ => none

def Ignition.isSelf : Ignition → Bool
  | .selfPoint _ _ => true
  | .line _ => false

/-- R42: what the fields of a burner entry ask of one another. -/
def BurnerEntry.coherent (e : BurnerEntry) : Bool :=
  e.offThreshold < e.onThreshold && e.flickerLow ≤ e.flickerHigh && e.permissives.length ≤ 6 &&
    (!e.ignition.isSelf || e.ignitionTrial < e.lightoffTime)

def buildBurner (is : List Item) : Option BurnerEntry := do
  let inUse ← needFlag is 1
  let intensity1 ← needObject is 2 256 0
  let flicker1 ← needObject is 3 256 0
  let intensity2 ← optObject is 4 256 0
  let flicker2 ← optObject is 5 256 0
  let scanner2 ← buildScanner2 intensity2 flicker2
  let onThreshold ← need is 6 int32Low int32High
  let offThreshold ← need is 7 int32Low int32High
  let flickerLow ← need is 8 0 1000
  let flickerHigh ← need is 9 0 1000
  let vote ← needName is 10 votes
  let confirmCount ← needNat is 11 1 8
  let failureCount ← needNat is 12 1 8
  let purgeTime ← needNat is 13 30 900
  let ignitionTrial ← needNat is 14 3 15
  let lightoffTime ← needNat is 15 5 120
  let lightoffFeed ← needNat is 16 1 60000
  let line ← optObject is 17 6 1
  let selfPoint ← optObject is 18 256 0
  let selfThreshold ← opt is 19 0 2000
  let ignition ← buildIgnition line selfPoint selfThreshold
  let maxDemand ← needNat is 20 1 150000
  let demandRamp ← needNat is 21 1 20000
  let records ← optRecords is 22
  let permissives ← records.mapM buildPermissive
  let e : BurnerEntry :=
    { inUse, scanner1 := { intensity := intensity1, flicker := flicker1 }, scanner2, onThreshold, offThreshold,
      flickerLow, flickerHigh, vote, confirmCount, failureCount, purgeTime, ignitionTrial, lightoffTime, lightoffFeed,
      ignition, maxDemand, demandRamp, permissives }
  if e.coherent then some e else none

def Permissive.items (p : Permissive) : List Byte :=
  match p.kind with
  | .pointAtLeast x t => itemEnum 1 0 ++ itemObject 2 0 x ++ itemInt 3 t ++ itemBool 4 p.running
  | .pointAtMost x t => itemEnum 1 1 ++ itemObject 2 0 x ++ itemInt 3 t ++ itemBool 4 p.running
  | .coolerRunning => itemEnum 1 2 ++ itemBool 4 p.running

def Ignition.items : Ignition → List Byte
  | .line l => itemObject 17 1 l
  | .selfPoint p t => itemObject 18 0 p ++ itemInt 19 t

def BurnerEntry.items (e : BurnerEntry) : List Byte :=
  itemBool 1 e.inUse ++ itemObject 2 0 e.scanner1.intensity ++ itemObject 3 0 e.scanner1.flicker ++
    itemOpt (fun x : Scanner => itemObject 4 0 x.intensity ++ itemObject 5 0 x.flicker) e.scanner2 ++
    itemInt 6 e.onThreshold ++ itemInt 7 e.offThreshold ++ itemInt 8 e.flickerLow ++ itemInt 9 e.flickerHigh ++
    itemName 10 votes e.vote ++ itemNat 11 e.confirmCount ++ itemNat 12 e.failureCount ++ itemNat 13 e.purgeTime ++
    itemNat 14 e.ignitionTrial ++ itemNat 15 e.lightoffTime ++ itemNat 16 e.lightoffFeed ++ e.ignition.items ++
    itemNat 20 e.maxDemand ++ itemNat 21 e.demandRamp ++
    if e.permissives.isEmpty then [] else itemRecords 22 (e.permissives.map Permissive.items)

/-! ### Fuel line table (Table 4-1, R65) -/

def lineFields : List FieldKind :=
  [int, enumField 3, int, int, int, int, int, int, int, int, int, int, int, int, int, int, int, int, int]

/-- Tags 5 and 8 to 13 of a CONTINUOUS or PIECE line. -/
def buildMetering (is : List Item) : Option Metering := do
  let counter ← needObject is 5 256 0
  let cv ← needNat is 8 1000 45000
  let weight ← needNat is 9 1 1000
  let priority ← needNat is 10 1 6
  let fmin ← needNat is 11 1 60000
  let fmax ← needNat is 12 fmin 60000
  let ramp ← needNat is 13 0 60000
  return { counter, cv, weight, priority, fmin, fmax, ramp }

/-- R65: the greatest Fmax of a PIECE line. -/
def pieceLimit (mass gap : Nat) : Nat := mass * 3600000 / gap

/-- R65: the fields of each kind, and no field of another kind. -/
def buildLineKind (is : List Item) : Option LineKind :=
  match enumOf is 2 with
  | some 0 => do
    let m ← buildMetering is
    let tolerance ← needNat is 16 1 100
    let window ← needNat is 17 5 300
    if noneGiven is [14, 15] then some (.continuous m tolerance window) else none
  | some 1 => do
    let m ← buildMetering is
    let mass ← needNat is 14 1 200
    let gap ← needNat is 15 1000 600000
    if noneGiven is [16, 17] && m.fmax ≤ pieceLimit mass gap then some (.piece m mass gap) else none
  | some 2 => if noneGiven is [5, 8, 9, 10, 11, 12, 13, 14, 15, 16, 17] then some .ignition else none
  | _ => none

def buildLine (is : List Item) : Option LineEntry := do
  let inUse ← needFlag is 1
  let kind ← buildLineKind is
  let burner ← needObject is 3 3 1
  let station ← needNat is 4 1 60
  let flagPoint ← needObject is 6 256 0
  let flagBit ← needNat is 7 0 15
  let absenceLimit ← needNat is 18 1 255
  let refresh ← needNat is 19 1 255
  return { inUse, kind, burner, station, flagPoint, flagBit, absenceLimit, refresh }

def LineKind.code : LineKind → Nat
  | .continuous _ _ _ => 0
  | .piece _ _ _ => 1
  | .ignition => 2

/-- Tags 14 to 17. -/
def LineKind.items : LineKind → List Byte
  | .continuous _ tolerance window => itemNat 16 tolerance ++ itemNat 17 window
  | .piece _ mass gap => itemNat 14 mass ++ itemNat 15 gap
  | .ignition => []

def Metering.items (m : Metering) : List Byte :=
  itemNat 8 m.cv ++ itemNat 9 m.weight ++ itemNat 10 m.priority ++ itemNat 11 m.fmin ++ itemNat 12 m.fmax ++
    itemNat 13 m.ramp

def LineEntry.items (e : LineEntry) : List Byte :=
  itemBool 1 e.inUse ++ itemEnum 2 e.kind.code ++ itemObject 3 1 e.burner ++ itemNat 4 e.station ++
    itemOpt (fun m : Metering => itemObject 5 0 m.counter) e.kind.metering? ++ itemObject 6 0 e.flagPoint ++
    itemNat 7 e.flagBit ++ itemOpt Metering.items e.kind.metering? ++ e.kind.items ++ itemNat 18 e.absenceLimit ++
    itemNat 19 e.refresh

/-! ### Cooler tables (Tables 5-1 to 5-3, R90) -/

def runFields : List FieldKind := [int, int, int, int, int, int, int, int, int, int, int, int]

def buildRun (is : List Item) : Option RunEntry := do
  let inUse ← needFlag is 1
  let station ← needNat is 2 1 60
  let counter ← needObject is 3 256 0
  let pressure ← needObject is 4 256 0
  let pressureSet ← need is 5 0 20000
  let baseRate ← need is 6 1 300
  let gain ← need is 7 (-3000) 3000
  let minRate ← needNat is 8 1 300
  let maxRate ← needNat is 9 1 300
  let safeRate ← needNat is 10 1 300
  let strokeMass ← needNat is 11 0 5000
  let timeoutFactor ← needNat is 12 2 8
  if minRate ≤ safeRate ∧ safeRate ≤ maxRate then
    some { inUse, station, counter, pressure, pressureSet, baseRate, gain, minRate, maxRate, safeRate, strokeMass,
           timeoutFactor }
  else none

def RunEntry.items (e : RunEntry) : List Byte :=
  itemBool 1 e.inUse ++ itemNat 2 e.station ++ itemObject 3 0 e.counter ++ itemObject 4 0 e.pressure ++
    itemInt 5 e.pressureSet ++ itemInt 6 e.baseRate ++ itemInt 7 e.gain ++ itemNat 8 e.minRate ++
    itemNat 9 e.maxRate ++ itemNat 10 e.safeRate ++ itemNat 11 e.strokeMass ++ itemNat 12 e.timeoutFactor

def compartmentFields : List FieldKind := [int, int, int, int, int, int]

def buildCompartment (is : List Item) : Option CompartmentEntry := do
  let inUse ← needFlag is 1
  let station ← needNat is 2 1 60
  let base ← needNat is 3 0 1000
  let safe ← needNat is 4 0 1000
  let boost ← needNat is 5 0 1000
  let zone ← optObject is 6 8 1
  return { inUse, station, base, safe, boost, zone }

def CompartmentEntry.items (e : CompartmentEntry) : List Byte :=
  itemBool 1 e.inUse ++ itemNat 2 e.station ++ itemNat 3 e.base ++ itemNat 4 e.safe ++ itemNat 5 e.boost ++
    itemOpt (itemObject 6 1) e.zone

def zoneFields : List FieldKind := [int, int, int, int, int]

def buildZone (is : List Item) : Option ZoneEntry := do
  let inUse ← needFlag is 1
  let point ← needObject is 2 256 0
  let delta ← need is 3 1 500
  let hysteresis ← need is 4 0 499
  let persist ← needNat is 5 1 50
  if hysteresis < delta then some { inUse, point, delta, hysteresis, persist } else none

def ZoneEntry.items (e : ZoneEntry) : List Byte :=
  itemBool 1 e.inUse ++ itemObject 2 0 e.point ++ itemInt 3 e.delta ++ itemInt 4 e.hysteresis ++ itemNat 5 e.persist

/-! ### Pass-through filter table (Table 6-2, R114) -/

/-- Table 6-1: the kinds of command. -/
def commandKinds : List CommandKind := [.feed, .dose, .igniter, .stroke, .fan, .rate]

def filterFields : List FieldKind := [int, int, enumField 6, enumField 3, int, int]

/-- R114: minimum and maximum are given for CLAMP only. -/
def buildAction (action : Nat) (min max : Option Nat) : Option FilterAction :=
  match action, min, max with
  | 0, none, none => some .pass
  | 1, some lo, some hi => if lo ≤ hi then some (.clamp lo hi) else none
  | 2, none, none => some .block
  | _, _, _ => none

def buildFilter (is : List Item) : Option FilterEntry := do
  let inUse ← needFlag is 1
  let station ← needNat is 2 1 60
  let kind ← needName is 3 commandKinds
  let code ← enumOf is 4
  let min ← optNat is 5 0 65535
  let max ← optNat is 6 0 65535
  let action ← buildAction code min max
  return { inUse, station, kind, action }

def FilterAction.items : FilterAction → List Byte
  | .pass => itemEnum 4 0
  | .clamp lo hi => itemEnum 4 1 ++ itemNat 5 lo ++ itemNat 6 hi
  | .block => itemEnum 4 2

def FilterEntry.items (e : FilterEntry) : List Byte :=
  itemBool 1 e.inUse ++ itemNat 2 e.station ++ itemName 3 commandKinds e.kind ++ e.action.items

/-! ### Alarm table (Tables 7-1 to 7-4, R119) -/

/-- Table 7-2. -/
def sourceFields : List SimpleKind := [.enum 4, .int, .enum 16, .instanceNo]

/-- Table 7-3. -/
def actionFields : List SimpleKind := [.enum 5, .int]

def alarmFields : List FieldKind :=
  [int, .record sourceFields, int, int, int, int, .record actionFields, int, int, int, int, int]

/-- The floor line that an instance names: A is 0 and B is 1. -/
def linkOf : Nat → Option LinkId
  | 0 => some .a
  | 1 => some .b
  | _ => none

/-- Table 7-4: the condition of a code and an instance given in `is`. A code without instances takes none. -/
def buildCondition (is : List Item) : Option Condition :=
  match enumOf is 3 with
  | some 0 => (needObject is 4 3 1).map .flameFail
  | some 1 => (needObject is 4 3 1).map .ignitionFail
  | some 2 => (needObject is 4 3 1).map .burnerLockout
  | some 3 => (needObject is 4 6 1).map .lineFault
  | some 4 => (needObject is 4 3 1).map .heatShortfall
  | some 5 => (needObject is 4 3 1).map .excessFire
  | some 6 => (needObject is 4 4 1).map .grateStall
  | some 7 => (needObject is 4 8 1).map .redRiver
  | some 8 => if given is 4 then none else some .coolerSafe
  | some 9 => ((enumOf is 4).bind linkOf).map .lineFailed
  | some 10 => if given is 4 then none else some .quorumLost
  | some 11 => (needObject is 4 60 1).map .stationAbsent
  | some 12 => (needObject is 4 60 1).map .stationMisplaced
  | some 13 => if given is 4 then none else some .commandOverrun
  | some 14 => if given is 4 then none else some .plantSilent
  | some 15 => (needObject is 4 256 0).map .pointImplausible
  | _ => none

/-- R119: the source, with the limit and deadband of tags 3 and 4 of the entry. -/
def buildSource (is : List Item) (limit deadband : Option Int) : Option AlarmSource :=
  match enumOf is 1, limit, deadband with
  | some 0, some h, some d =>
    if noneGiven is [3, 4] then (needObject is 2 256 0).map fun p => .pointHigh p h d else none
  | some 1, some h, some d =>
    if noneGiven is [3, 4] then (needObject is 2 256 0).map fun p => .pointLow p h d else none
  | some 2, none, none => if noneGiven is [3, 4] then (needObject is 2 256 0).map .pointQuality else none
  | some 3, none, none => if given is 2 then none else (buildCondition is).map .internal
  | _, _, _ => none

/-- R119: the action record. -/
def buildAlarmAction (is : List Item) : Option AlarmAction :=
  match enumOf is 1 with
  | some 0 => if given is 2 then none else some .none
  | some 1 => (needObject is 2 3 1).map .tripBurner
  | some 2 => (needObject is 2 3 1).map .holdFuel
  | some 3 => (needObject is 2 6 1).map .lineFault
  | some 4 => if given is 2 then none else some .coolerSafe
  | _ => none

def buildAlarm (is : List Item) : Option AlarmEntry := do
  let inUse ← needFlag is 1
  let sourceItems ← needRecord is 2
  let limit ← opt is 3 int32Low int32High
  let deadband ← opt is 4 0 int32High
  let source ← buildSource sourceItems limit deadband
  let priority ← needNat is 5 1 4
  let onDelay ← needNat is 6 0 600000
  let actionItems ← needRecord is 7
  let action ← buildAlarmAction actionItems
  let horn ← needFlag is 8
  let trip ← needFlag is 9
  let parent ← optObject is 10 192 0
  let group ← optObject is 11 4 1
  let shelving ← needFlag is 12
  return { inUse, source, priority, onDelay, action, horn, trip, parent, group, shelving }

/-- Tags 3 and 4 of the source record of an internal condition. -/
def Condition.items : Condition → List Byte
  | .flameFail b => itemEnum 3 0 ++ itemObject 4 1 b
  | .ignitionFail b => itemEnum 3 1 ++ itemObject 4 1 b
  | .burnerLockout b => itemEnum 3 2 ++ itemObject 4 1 b
  | .lineFault l => itemEnum 3 3 ++ itemObject 4 1 l
  | .heatShortfall b => itemEnum 3 4 ++ itemObject 4 1 b
  | .excessFire b => itemEnum 3 5 ++ itemObject 4 1 b
  | .grateStall g => itemEnum 3 6 ++ itemObject 4 1 g
  | .redRiver z => itemEnum 3 7 ++ itemObject 4 1 z
  | .coolerSafe => itemEnum 3 8
  | .lineFailed .a => itemEnum 3 9 ++ itemEnum 4 0
  | .lineFailed .b => itemEnum 3 9 ++ itemEnum 4 1
  | .quorumLost => itemEnum 3 10
  | .stationAbsent st => itemEnum 3 11 ++ itemObject 4 1 st
  | .stationMisplaced st => itemEnum 3 12 ++ itemObject 4 1 st
  | .commandOverrun => itemEnum 3 13
  | .plantSilent => itemEnum 3 14
  | .pointImplausible p => itemEnum 3 15 ++ itemObject 4 0 p

/-- Tags 2 to 4 of an alarm entry. -/
def AlarmSource.items : AlarmSource → List Byte
  | .pointHigh p h d => itemRecord 2 (itemEnum 1 0 ++ itemObject 2 0 p) ++ itemInt 3 h ++ itemInt 4 d
  | .pointLow p h d => itemRecord 2 (itemEnum 1 1 ++ itemObject 2 0 p) ++ itemInt 3 h ++ itemInt 4 d
  | .pointQuality p => itemRecord 2 (itemEnum 1 2 ++ itemObject 2 0 p)
  | .internal c => itemRecord 2 (itemEnum 1 3 ++ c.items)

/-- The items of an action record. -/
def AlarmAction.items : AlarmAction → List Byte
  | .none => itemEnum 1 0
  | .tripBurner b => itemEnum 1 1 ++ itemObject 2 1 b
  | .holdFuel b => itemEnum 1 2 ++ itemObject 2 1 b
  | .lineFault l => itemEnum 1 3 ++ itemObject 2 1 l
  | .coolerSafe => itemEnum 1 4

def AlarmEntry.items (e : AlarmEntry) : List Byte :=
  itemBool 1 e.inUse ++ e.source.items ++ itemNat 5 e.priority ++ itemNat 6 e.onDelay ++
    itemRecord 7 e.action.items ++ itemBool 8 e.horn ++ itemBool 9 e.trip ++ itemOpt (itemObject 10 0) e.parent ++
    itemOpt (itemObject 11 1) e.group ++ itemBool 12 e.shelving

/-! ### First-out groups (Table 7-7), shift plan (Table 8-1) and digest list (Table 9-3) -/

def groupFields : List FieldKind := [int, .ints]

def buildGroup (is : List Item) : Option GroupEntry := do
  let inUse ← needFlag is 1
  let points ← (optInts is 2 0 255).filter fun xs => xs.length ≤ 4
  return { inUse, points := points.filterMap (objectIndex 256 0) }

def GroupEntry.items (e : GroupEntry) : List Byte :=
  itemBool 1 e.inUse ++ itemOptInts 2 (e.points.map fun p => (p.val : Int))

def planFields : List FieldKind := [.ints]

/-- R141: strictly ascending. -/
def ascending : List Nat → Bool
  | [] => true
  | [_] => true
  | x :: y :: rest => x < y && ascending (y :: rest)

def buildPlan (is : List Item) : Option (List Nat) := do
  let starts ← (needInts is 1 0 1439).filter fun xs => 1 ≤ xs.length && xs.length ≤ 4
  let plan := starts.map Int.toNat
  if ascending plan then some plan else none

def planItems (plan : List Nat) : List Byte := itemInts 1 (ofNats plan)

def digestFields : List FieldKind := [int, int]

def buildDigest (is : List Item) : Option DigestEntry := do
  let inUse ← needFlag is 1
  let point ← needObject is 2 256 0
  return { inUse, point }

def DigestEntry.items (e : DigestEntry) : List Byte := itemBool 1 e.inUse ++ itemObject 2 0 e.point

end Sys2Proof.Machine
end

