-- ==== Sys2Proof/Machine/Tables.lean ====
section
/-!
DEFINITION. The twelve tables (section 1.6): the checks of a write that look at the rest of the part, what a write or
clear does, and WRITE_ENTRY, READ_ENTRY and CLEAR_ENTRY.
-/
namespace Sys2Proof.Machine

/-! ### The order of the checks (log entry 18) -/

/-- A write: BAD_INDEX, then INVALID, then IN_USE. -/
def writeAt {E : Type} (size : Nat) (base : Int) (s : State) (index : Nat) (fields : List FieldKind)
    (build : List Item → Option E) (valid busy : Fin size → E → Bool) (take : Fin size → E → State) (is : List Item) :
    State × Answer :=
  match objectIndex size base index with
  | none => refuse s .badIndex
  | some n =>
    match if entryTakes fields is then build is else none with
    | none => refuse s .invalid
    | some e =>
      if valid n e then (if busy n e then refuse s .inUse else (take n e, Answer.ok)) else refuse s .invalid

/-- A clear: BAD_INDEX, then IN_USE. -/
def clearAt (size : Nat) (base : Int) (s : State) (index : Nat) (busy : Fin size → Bool) (take : Fin size → State) :
    State × Answer :=
  match objectIndex size base index with
  | none => refuse s .badIndex
  | some n => if busy n then refuse s .inUse else (take n, Answer.ok)

/-- A read: the items of the entry, or none for an empty entry (R167). -/
def readAt {E : Type} (size : Nat) (base : Int) (index : Nat) (get : Fin size → Option E) (items : E → List Byte) :
    Answer :=
  match objectIndex size base index with
  | none => { result := .badIndex }
  | some n => { result := .done, body := itemOpt items (get n) }

/-- What a table does with its three requests. -/
structure Table where
  fields : List FieldKind
  write : State → Nat → List Item → State × Answer
  clear : State → Nat → State × Answer
  read : State → Nat → Answer

/-! ### Points as other tables ask for them -/

/-- An in-use point of kind U12, U16 or S16. -/
def State.scaledInUse (s : State) (p : Fin 256) : Bool := (s.pointEntry? p).any (·.kind.scaled)

/-- An in-use point of a kind. -/
def State.kindInUse (s : State) (k : RawKind) (p : Fin 256) : Bool := (s.pointEntry? p).any (·.kind == k)

/-! ### ROUND (R3) -/

def setPending (s : State) (t : Option RoundTable) : State := s.modFloor fun f => { f with pendingCopy := t }

def writeRound (s : State) (index : Nat) (is : List Item) : State × Answer :=
  if index = 1 then refuse s .notPermitted
  else writeAt 1 0 s index roundFields buildRound (fun _ _ => true) (fun _ _ => false)
    (fun _ t => setPending s (some t)) is

def clearRound (s : State) (index : Nat) : State × Answer :=
  if index = 1 then refuse s .notPermitted
  else clearAt 1 0 s index (fun _ => false) fun _ => setPending s none

def readRound (s : State) (index : Nat) : Answer :=
  readAt 2 0 index (fun i => if i = 0 then s.floor.pendingCopy else s.floor.active) RoundTable.items

def roundTable : Table := { fields := roundFields, write := writeRound, clear := clearRound, read := readRound }

/-! ### POINT (R24, R25) -/

/-- R25: a write of a point that a burner in OFF names as a scanner point must leave it a scaled point on its station. -/
def keepsScanner (old : Option PointEntry) (e : PointEntry) : Bool :=
  e.inUse && e.kind.scaled && old.all (·.station == e.station)

/-- R25: the write is refused IN_USE. -/
def State.pointWriteBusy (s : State) (p : Fin 256) (e : PointEntry) : Bool :=
  s.scannerPointBusy p || (s.isScannerPoint p && !keepsScanner (s.points[p]).entry e)

def writePointEntry (s : State) (index : Nat) (is : List Item) : State × Answer :=
  writeAt 256 0 s index pointFields buildPoint (fun _ _ => true) s.pointWriteBusy
    (fun p e => s.writePoint p (some e)) is

def clearPointEntry (s : State) (index : Nat) : State × Answer :=
  clearAt 256 0 s index s.isScannerPoint fun p => s.writePoint p none

def readPointEntry (s : State) (index : Nat) : Answer :=
  readAt 256 0 index (fun p => (s.points[p]).entry) PointEntry.items

def pointTable : Table :=
  { fields := pointFields, write := writePointEntry, clear := clearPointEntry, read := readPointEntry }

/-! ### BURNER (R42, R43, R71) -/

/-- R42: both points of a scanner are in-use scaled points of one station, which is on the quick list. -/
def State.scannerValid (s : State) (x : Scanner) : Bool :=
  s.scaledInUse x.intensity && s.scaledInUse x.flicker &&
    (s.pointEntry? x.intensity).map (·.station) == (s.pointEntry? x.flicker).map (·.station) &&
    (s.pointEntry? x.intensity).any fun e => s.onQuickList e.station

/-- R42: tag 17 names an in-use IGNITION line of this burner. -/
def State.ignitionValid (s : State) (b : Fin 3) (x : Ignition) : Bool :=
  match x with
  | .line l => s.lineOf b l && (s.lineEntry? l).any fun e => !e.kind.isMetered
  | .selfPoint _ _ => true

def State.burnerValid (s : State) (b : Fin 3) (e : BurnerEntry) : Bool :=
  s.scannerValid e.scanner1 && e.scanner2.all s.scannerValid && s.ignitionValid b e.ignition

/-- R42: a scanner point named by the entry is FORCED. -/
def State.scannerForced (s : State) (x : Scanner) : Bool :=
  (s.points[x.intensity]).quality == .forced || (s.points[x.flicker]).quality == .forced

/-- R42, R43: the write is refused IN_USE. -/
def State.burnerBusy (s : State) (b : Fin 3) (e : BurnerEntry) : Bool :=
  (s.burners[b]).state != .off || s.scannerForced e.scanner1 || e.scanner2.any s.scannerForced

/-- R43, R47, R71: a burner in OFF as a write or clear leaves it. -/
def State.writeBurner (s : State) (b : Fin 3) (e : Option BurnerEntry) : State :=
  s.modBurner b fun x =>
    { x with
      entry := e
      scanner1 := false
      scanner2 := false
      vote := false
      presentRun := 0
      absentRun := 0
      purgeAborts := 0
      permOk := s.freshFlags e
      requested := match e with
        | some e => min x.requested e.maxDemand
        | none => x.requested }

def writeBurnerEntry (s : State) (index : Nat) (is : List Item) : State × Answer :=
  writeAt 3 1 s index burnerFields buildBurner s.burnerValid s.burnerBusy (fun b e => s.writeBurner b (some e)) is

def clearBurnerEntry (s : State) (index : Nat) : State × Answer :=
  clearAt 3 1 s index (fun b => (s.burners[b]).state != .off) fun b => s.writeBurner b none

def readBurnerEntry (s : State) (index : Nat) : Answer :=
  readAt 3 1 index (fun b => (s.burners[b]).entry) BurnerEntry.items

def burnerTable : Table :=
  { fields := burnerFields, write := writeBurnerEntry, clear := clearBurnerEntry, read := readBurnerEntry }

/-! ### LINE (R65, R66) -/

/-- R65: the delivered counter point of a metered line. -/
def State.counterValid (s : State) (k : LineKind) : Bool :=
  k.metering?.all fun m => s.kindInUse .counter16 m.counter

/-- R65: both lines are metered lines of one burner with the same priority. -/
def samePriority (e e' : LineEntry) : Bool :=
  e.burner == e'.burner &&
    match e.kind.metering?, e'.kind.metering? with
    | some m, some m' => m.priority == m'.priority
    | _, _ => false

/-- R65: another in-use line has the same feeder station, or the same priority on the same burner. -/
def State.lineClash (s : State) (l : Fin 6) (e : LineEntry) : Bool :=
  (indices 6).any fun k => k != l && (s.lineEntry? k).any fun e' => e'.station == e.station || samePriority e e'

def State.lineValid (s : State) (l : Fin 6) (e : LineEntry) : Bool :=
  s.kindInUse .flags16 e.flagPoint && s.counterValid e.kind && !s.lineClash l e

/-- R66: in use and in a state other than OUT. -/
def State.lineBusy (s : State) (l : Fin 6) : Bool := (s.lineEntry? l).isSome && (s.lines[l]).state != .out

/-- R66: a line as a write or clear leaves it; its lifetime totals are kept. -/
def Line.written (x : Line) (e : Option LineEntry) : Line := { entry := e, lifetime := x.lifetime }

def State.writeLine (s : State) (l : Fin 6) (e : Option LineEntry) : State := s.modLine l fun x => x.written e

def writeLineEntry (s : State) (index : Nat) (is : List Item) : State × Answer :=
  writeAt 6 1 s index lineFields buildLine s.lineValid (fun l _ => s.lineBusy l) (fun l e => s.writeLine l (some e)) is

def clearLineEntry (s : State) (index : Nat) : State × Answer :=
  clearAt 6 1 s index s.lineBusy fun l => s.writeLine l none

def readLineEntry (s : State) (index : Nat) : Answer := readAt 6 1 index (fun l => (s.lines[l]).entry) LineEntry.items

def lineTable : Table := { fields := lineFields, write := writeLineEntry, clear := clearLineEntry, read := readLineEntry }

/-! ### RUN, COMPARTMENT and ZONE (R90) -/

def State.runValid (s : State) (g : Fin 4) (e : RunEntry) : Bool :=
  s.kindInUse .counter16 e.counter && s.scaledInUse e.pressure &&
    !(indices 4).any fun k => k != g && (s.runEntry? k).any (·.station == e.station)

/-- R90: the cooler is not STOPPED, or a STROKE of the run waits in the command queue. -/
def State.runBusy (s : State) (g : Fin 4) : Bool := s.cooler.state != .stopped || 0 < (s.runAt g).waiting

def State.writeRun (s : State) (g : Fin 4) (e : Option RunEntry) : State :=
  s.modRun g fun r =>
    { r with entry := e, state := .idle, mode := .auto, manualRate := (e.map (·.minRate)).getD 0, rate := 0,
             refresh := 0 }

def writeRunEntry (s : State) (index : Nat) (is : List Item) : State × Answer :=
  writeAt 4 1 s index runFields buildRun s.runValid (fun g _ => s.runBusy g) (fun g e => s.writeRun g (some e)) is

def clearRunEntry (s : State) (index : Nat) : State × Answer :=
  clearAt 4 1 s index s.runBusy fun g => s.writeRun g none

def readRunEntry (s : State) (index : Nat) : Answer := readAt 4 1 index (fun g => (s.runAt g).entry) RunEntry.items

def runTable : Table := { fields := runFields, write := writeRunEntry, clear := clearRunEntry, read := readRunEntry }

def State.compartmentValid (s : State) (k : Fin 12) (e : CompartmentEntry) : Bool :=
  !(indices 12).any fun j => j != k && (s.compartmentEntry? j).any (·.station == e.station)

/-- R90, R96: the compartment takes its new speed at once. -/
def State.writeCompartment (s : State) (k : Fin 12) (e : CompartmentEntry) : State :=
  ((s.modCompartment k fun c => { c with entry := some e }).applyFan false k).finish

/-- R90, R96: a compartment without an entry has speed 0. -/
def State.clearCompartment (s : State) (k : Fin 12) : State :=
  s.modCompartment k fun c => { c with entry := none, speed := 0 }

def State.coolerBusy (s : State) : Bool := s.cooler.state != .stopped

def writeCompartmentEntry (s : State) (index : Nat) (is : List Item) : State × Answer :=
  writeAt 12 1 s index compartmentFields buildCompartment s.compartmentValid (fun _ _ => s.coolerBusy)
    s.writeCompartment is

def clearCompartmentEntry (s : State) (index : Nat) : State × Answer :=
  clearAt 12 1 s index (fun _ => s.coolerBusy) s.clearCompartment

def readCompartmentEntry (s : State) (index : Nat) : Answer :=
  readAt 12 1 index (fun k => (s.cooler.compartments[k]).entry) CompartmentEntry.items

def compartmentTable : Table :=
  { fields := compartmentFields, write := writeCompartmentEntry, clear := clearCompartmentEntry,
    read := readCompartmentEntry }

/-- R90: the zone becomes inactive, with its runs at 0. -/
def State.emptyZone (s : State) (z : Fin 8) (e : Option ZoneEntry) : State :=
  s.modZone z fun x => { x with entry := e, active := false, onRun := 0, offRun := 0 }

/-- R90, R105: the red-river time follows, and the compartments of the zone lose their boost. -/
def State.rewriteZone (s : State) (z : Fin 8) (e : Option ZoneEntry) : State :=
  ((s.emptyZone z e).settleRedMark s.anyZoneActive).applyFans false

def State.writeZone (s : State) (z : Fin 8) (e : Option ZoneEntry) : State := (s.rewriteZone z e).finish

def State.zoneValid (s : State) (_ : Fin 8) (e : ZoneEntry) : Bool := s.scaledInUse e.point

def writeZoneEntry (s : State) (index : Nat) (is : List Item) : State × Answer :=
  writeAt 8 1 s index zoneFields buildZone s.zoneValid (fun _ _ => false) (fun z e => s.writeZone z (some e)) is

def clearZoneEntry (s : State) (index : Nat) : State × Answer :=
  clearAt 8 1 s index (fun _ => false) fun z => s.writeZone z none

def readZoneEntry (s : State) (index : Nat) : Answer :=
  readAt 8 1 index (fun z => (s.cooler.zones[z]).entry) ZoneEntry.items

def zoneTable : Table := { fields := zoneFields, write := writeZoneEntry, clear := clearZoneEntry, read := readZoneEntry }

/-! ### PASS (R114) -/

/-- R114: the entry is in use and another in-use entry names the same station and kind. -/
def State.filterValid (s : State) (i : Fin 32) (e : FilterEntry) : Bool :=
  !(e.inUse && (indices 32).any fun j =>
    j != i && (s.filters[j]).any fun x => x.inUse && x.station == e.station && x.kind == e.kind)

def State.writeFilter (s : State) (i : Fin 32) (e : Option FilterEntry) : State :=
  { s with filters := s.filters.set i e }

def writeFilterEntry (s : State) (index : Nat) (is : List Item) : State × Answer :=
  writeAt 32 1 s index filterFields buildFilter s.filterValid (fun _ _ => false) (fun i e => s.writeFilter i (some e)) is

def clearFilterEntry (s : State) (index : Nat) : State × Answer :=
  clearAt 32 1 s index (fun _ => false) fun i => s.writeFilter i none

def readFilterEntry (s : State) (index : Nat) : Answer := readAt 32 1 index (fun i => s.filters[i]) FilterEntry.items

def filterTable : Table :=
  { fields := filterFields, write := writeFilterEntry, clear := clearFilterEntry, read := readFilterEntry }

/-! ### ALARM (R119, R120) -/

/-- R119: the chain of parents that starts at `p`, followed through the entries as held, comes to `a`; `fuel` is the
number of alarms still to follow. -/
def State.chainMeets (s : State) (a : Fin 192) : Nat → Fin 192 → Bool
  | 0, _ => false
  | fuel + 1, p =>
    p == a || ((s.alarmAt p).entry.bind (·.parent)).any (s.chainMeets a fuel)

def State.alarmValid (s : State) (a : Fin 192) (e : AlarmEntry) : Bool :=
  e.parent.all fun p => !s.chainMeets a 192 p

/-- R120: an active priority-1 alarm that targets a burner not in OFF. -/
def State.alarmBusy (s : State) (a : Fin 192) : Bool :=
  (s.alarmEntry? a).any fun e =>
    (s.alarmAt a).state.active && e.priority == 1 &&
      (indices 3).any fun b => e.action.targets b && (s.burners[b]).state != .off

/-- R121: the value reported with an internal condition at a write or a reset. -/
def State.freshReport (s : State) (e : Option AlarmEntry) : Int :=
  match e.map AlarmEntry.source with
  | some (.internal c) => s.conditionValue c
  | _ => 0

/-- R120: the exit of a rewritten or cleared entry from the state it was in. Children that it suppressed are orphaned by it
(R125) and raised when the event is settled. -/
def State.leaveState (s : State) (a : Fin 192) (was : AlarmState) : State :=
  if was = .normal then s else ((s.leaveRaised a).reportAlarmHolds).notice a

/-- R120, R121: an alarm entry is replaced, and leaves the state it was in. -/
def State.rewriteAlarm (s : State) (a : Fin 192) (e : Option AlarmEntry) : State :=
  (s.modAlarm a fun x =>
    { x with entry := e, state := .normal, condition := false, onDelay := none, shelve := none,
             reported := s.freshReport e }).leaveState a (s.alarmAt a).state

/-- R120, R121: an alarm entry is written or cleared. -/
def State.writeAlarm (s : State) (a : Fin 192) (e : Option AlarmEntry) : State := (s.rewriteAlarm a e).finish

def writeAlarmEntry (s : State) (index : Nat) (is : List Item) : State × Answer :=
  writeAt 192 0 s index alarmFields buildAlarm s.alarmValid (fun a _ => s.alarmBusy a) (fun a e => s.writeAlarm a (some e))
    is

def clearAlarmEntry (s : State) (index : Nat) : State × Answer :=
  clearAt 192 0 s index s.alarmBusy fun a => s.writeAlarm a none

def readAlarmEntry (s : State) (index : Nat) : Answer :=
  readAt 192 0 index (fun a => (s.alarmAt a).entry) AlarmEntry.items

def alarmTable : Table :=
  { fields := alarmFields, write := writeAlarmEntry, clear := clearAlarmEntry, read := readAlarmEntry }

/-! ### GROUP, SHIFT_PLAN and DIGEST (R133, R141, R161) -/

def State.writeGroup (s : State) (g : Fin 4) (e : Option GroupEntry) : State :=
  s.modAlarmUnit fun u => { u with groups := u.groups.set g e }

def writeGroupEntry (s : State) (index : Nat) (is : List Item) : State × Answer :=
  writeAt 4 1 s index groupFields buildGroup (fun _ _ => true) (fun _ _ => false) (fun g e => s.writeGroup g (some e)) is

def clearGroupEntry (s : State) (index : Nat) : State × Answer :=
  clearAt 4 1 s index (fun _ => false) fun g => s.writeGroup g none

def readGroupEntry (s : State) (index : Nat) : Answer := readAt 4 1 index (fun g => s.alarm.groups[g]) GroupEntry.items

def groupTable : Table :=
  { fields := groupFields, write := writeGroupEntry, clear := clearGroupEntry, read := readGroupEntry }

def writePlanEntry (s : State) (index : Nat) (is : List Item) : State × Answer :=
  writeAt 1 1 s index planFields buildPlan (fun _ _ => true) (fun _ _ => false) (fun _ p => s.setPlan p) is

def clearPlanEntry (s : State) (index : Nat) : State × Answer :=
  clearAt 1 1 s index (fun _ => false) fun _ => s.setPlan []

def readPlanEntry (s : State) (index : Nat) : Answer :=
  readAt 1 1 index (fun _ => if s.shift.plan.isEmpty then none else some s.shift.plan) planItems

def planTable : Table := { fields := planFields, write := writePlanEntry, clear := clearPlanEntry, read := readPlanEntry }

def State.writeDigest (s : State) (i : Fin 16) (e : Option DigestEntry) : State :=
  s.modPort fun p => { p with digestList := p.digestList.set i e }

def writeDigestEntry (s : State) (index : Nat) (is : List Item) : State × Answer :=
  writeAt 16 1 s index digestFields buildDigest (fun _ _ => true) (fun _ _ => false)
    (fun i e => s.writeDigest i (some e)) is

def clearDigestEntry (s : State) (index : Nat) : State × Answer :=
  clearAt 16 1 s index (fun _ => false) fun i => s.writeDigest i none

def readDigestEntry (s : State) (index : Nat) : Answer :=
  readAt 16 1 index (fun i => s.port.digestList[i]) DigestEntry.items

def digestTable : Table :=
  { fields := digestFields, write := writeDigestEntry, clear := clearDigestEntry, read := readDigestEntry }

/-! ### The requests (R157, R166) -/

/-- Table ids in the order of R157, ROUND 0 to DIGEST 11. -/
def tables : List Table :=
  [roundTable, pointTable, burnerTable, lineTable, runTable, compartmentTable, zoneTable, filterTable, alarmTable,
   groupTable, planTable, digestTable]

/-- WRITE_ENTRY. A known table's fields must decode for it; of an unknown table id only the items must. -/
def handleWrite : Handler := fun s _ bs =>
  match bs with
  | table :: index :: rest =>
    match itemsOf rest, tables[table.toNat]? with
    | none, _ => (s, some { result := .badFrame })
    | some _, none => (s, some { result := .badIndex })
    | some is, some t =>
      if entrySuits t.fields is then
        let r := t.write s index.toNat is
        (r.1, some r.2)
      else (s, some { result := .badFrame })
  | _ => (s, some { result := .badFrame })

/-- CLEAR_ENTRY. -/
def handleClear : Handler := fun s _ bs =>
  match bs with
  | [table, index] =>
    match tables[table.toNat]? with
    | none => (s, some { result := .badIndex })
    | some t =>
      let r := t.clear s index.toNat
      (r.1, some r.2)
  | _ => (s, some { result := .badFrame })

/-- READ_ENTRY. -/
def handleRead : Handler := fun s _ bs =>
  match bs with
  | [table, index] =>
    match tables[table.toNat]? with
    | none => (s, some { result := .badIndex })
    | some t => (s, some (t.read s index.toNat))
  | _ => (s, some { result := .badFrame })

end Sys2Proof.Machine
end

