-- ==== Sys2Proof/Machine/Status.lean ====
section
/-!
DEFINITION. What READ_POINT, READ_ALARM and READ_STATUS return (R23, R39, R40, R64, R88, R106, R117, R137, R138, R150,
R163), as items tagged from 1 in the order the owning rule or table lists them (R167, log entry 24).
-/
namespace Sys2Proof.Machine

/-- ms from the present to an expiry. -/
def State.remaining (s : State) (t : Time) : Nat := t - s.timeBase

/-- Names whose order is that of a table, as an enumerator. -/
def itemCode (tag code : Nat) : List Byte := itemEnum tag code

/-- A 32-bit count. -/
def itemCount (tag : Nat) (c : Count32) : List Byte := itemNat tag c.toNat

/-! ### Points (R39, R40) -/

/-- R39: the present age, 0 for an UNSET point. -/
def State.ageOf (s : State) (p : Fin 256) : Nat :=
  if s.pointQuality p = .unset then 0 else pointAge s.floor.roundNo (s.points[p]).lastRound

/-- R39: the dynamic fields of Table 2-2 and the age. -/
def State.pointItems (s : State) (p : Fin 256) : List Byte :=
  let x := s.points[p]
  itemInt 1 x.value ++ itemCode 2 (s.pointQuality p).code ++ itemNat 3 x.lastRaw.toNat ++ itemCount 4 x.lastRound ++
    itemNat 5 x.implCount ++ itemOpt (itemInt 6) x.forced ++ itemNat 7 (s.ageOf p)

/-- R40: one point of the point unit's record. -/
def State.pointRecord (s : State) (p : Fin 256) : List Byte :=
  let x := s.points[p]
  itemBool 1 (s.pointEntry? p).isSome ++ itemCode 2 (s.pointQuality p).code ++ itemInt 3 x.value ++
    itemCount 4 x.lastRound ++ itemNat 5 (s.ageOf p) ++ itemNat 6 x.implCount ++ itemBool 7 x.implausible

def State.pointStatus (s : State) : List Field := [.group 1 ((indices 256).map s.pointRecord)]

/-! ### Floor engine (R23) -/

def FloorLink.items (x : FloorLink) : List Byte :=
  itemCode 1 x.state.code ++ itemNat 2 x.deadRun ++ itemNat 3 x.liveRun ++ itemCount 4 x.stats.calls ++
    itemCount 5 x.stats.good ++ itemCount 6 x.stats.silent ++ itemCount 7 x.stats.corrupt ++
    itemCount 8 x.stats.foreign ++ itemCount 9 x.stats.dead

/-- R23: absence counter and disagreement count of a station on the lists. -/
def State.stationItems (s : State) (id : Nat) : List Byte :=
  let x := s.floor.stationAt id
  itemNat 1 x.absence ++ itemNat 2 x.disagree

/-- The stations of the active copy, ordinary before quick, or none where it is empty. -/
def State.activeStations (s : State) : List Nat := (s.floor.active.map RoundTable.stations).getD []

/-- R23. Open there and chosen in log entry 24: the waits for a commit and a stop as two flags (tags 3 and 4), the presence
map as a list of the eight bytes of Table 10-4, and the station records in the order of the lists. -/
def State.floorStatus (s : State) : List Field :=
  [.item (itemCode 1 s.floor.state.code), .item (itemNat 2 s.floor.causes.code),
   .item (itemBool 3 s.floor.staged.isSome), .item (itemBool 4 s.floor.stopWaiting),
   .group 5 [s.floor.linkA.items, s.floor.linkB.items], .item (itemCount 6 s.floor.roundNo),
   .item (itemInts 7 (s.floor.presenceBytes.map fun b => (b.toNat : Int))),
   .group 8 (s.activeStations.map s.stationItems)]

/-! ### Burner unit (R59, R64) -/

def LockoutCause.code : LockoutCause → Nat
  | .flameInPurge => 0 | .noIgnitionSource => 1 | .noLightoffLine => 2 | .ignitionFail => 3 | .lightoffFail => 4
  | .lineFault => 5 | .flameFail => 6 | .permissiveLost => 7 | .alarmTrip => 8

/-- Table 3-6 lists PURGE, IGNITION, LIGHTOFF and RUN. -/
def stateLeftCode (st : BurnerState) : Nat := st.code - 1

/-- ABSENT 0, PRESENT 1 (Table 3-3). -/
def itemPresent (tag : Nat) (present : Bool) : List Byte := itemCode tag present.toNat

/-- Table 3-6, with an item for each value: a row of the table that holds several, the scanner states and vote and the run
counts, is spread over the tags 9 to 11 and 12 to 13 (DESIGN CHOICE, log entry 24). -/
def LockoutRecord.items (r : LockoutRecord) : List Byte :=
  itemCode 1 r.cause.code ++ itemCode 2 (stateLeftCode r.stateLeft) ++ itemTime 3 r.time ++
    itemOpt (itemDay 4) r.dayClock ++ itemCount 5 r.roundNo ++ itemOpt (itemObject 6 0) r.alarm ++
    itemOpt (itemObject 7 1) r.line ++ itemOpt (itemNat 8) r.permissive ++ itemPresent 9 r.scanner1 ++
    itemPresent 10 r.scanner2 ++ itemPresent 11 r.vote ++ itemNat 12 r.presentRun ++ itemNat 13 r.absentRun

/-- The running timer of Table 3-3, numbered from purge on, since a burner without one carries no such item (DESIGN CHOICE,
log entry 24). -/
def BurnerTimer.code : BurnerTimer → Nat
  | .purge => 0 | .trial => 1 | .lightoff => 2

/-- A running timer as a record of which (tag 1) and the ms remaining (tag 2) (DESIGN CHOICE, log entry 24). -/
def State.timerItems (s : State) (x : BurnerTimer × Time) : List Byte :=
  itemCode 1 x.1.code ++ itemNat 2 (s.remaining x.2)

/-- Table 3-3. Scanner 2 of a burner with one scanner is carried as ABSENT (DESIGN CHOICE, log entry 44). The satisfied
flags are one list of the integers 0 and 1 (tag 8); the running timer is a record (tag 9), and the ignition trial that runs
beside the light-off timer (R54) only the ms remaining (tag 10) (DESIGN CHOICE, log entry 24). -/
def State.burnerRecord (s : State) (b : Fin 3) : List Byte :=
  let x := s.burners[b]
  itemCode 1 x.state.code ++ itemPresent 2 x.scanner1 ++ itemPresent 3 x.scanner2 ++ itemPresent 4 x.vote ++
    itemNat 5 x.presentRun ++ itemNat 6 x.absentRun ++ itemBool 7 x.confirmed ++
    itemInts 8 (x.permOk.map truthValue) ++ itemOpt (fun t => itemRecord 9 (s.timerItems t)) x.timer ++
    itemOpt (fun t => itemNat 10 (s.remaining t)) x.trialInLightoff ++ itemOpt (itemObject 11 1) x.lightoffLine ++
    itemNat 12 x.purgeAborts ++ itemOpt (fun r => itemRecord 13 r.items) x.lockout

def State.burnerStatus (s : State) : List Field := [.group 1 ((indices 3).map s.burnerRecord)]

/-! ### Fuel unit (R88) -/

def State.demandRecord (s : State) (b : Fin 3) : List Byte :=
  let x := s.burners[b]
  itemNat 1 x.requested ++ itemNat 2 x.demand ++ itemNat 3 x.undelivered ++ itemNat 4 x.excess ++
    itemNat 5 x.hold.code

/-- R83: fault cause and, for ALARM, its number. -/
def FaultCause.items : FaultCause → List Byte
  | .faultBit => itemCode 6 0
  | .absent => itemCode 6 1
  | .deviation => itemCode 6 2
  | .alarm a => itemCode 6 3 ++ itemObject 7 0 a

/-- R88: the fields of a PIECE line and of a CONTINUOUS line. -/
def State.kindItems (s : State) (x : Line) : List Byte :=
  match x.entry.map LineEntry.kind with
  | some (LineKind.piece _ _ _) =>
    itemOpt (fun d : DoseTimer => itemNat 9 d.interval ++ itemNat 10 (s.remaining (d.start + d.interval))) x.dose
  | some (LineKind.continuous _ _ _) =>
    itemNat 11 x.deviation.seconds ++ itemNat 12 x.deviation.expected ++ itemNat 13 x.deviation.delivered
  | _ => []

def State.lineRecord (s : State) (l : Fin 6) : List Byte :=
  let x := s.lines[l]
  itemCode 1 x.state.code ++ itemCode 2 x.mode.code ++ itemNat 3 x.feed ++ itemNat 4 x.target ++
    itemBool 5 x.igniter ++ itemOpt FaultCause.items x.faultCause ++ itemNat 8 x.refresh ++ s.kindItems x ++
    itemNat 14 x.lostDoses ++ itemNat 15 x.lifetime.mass.toNat ++ itemNat 16 x.lifetime.heat.toNat ++
    itemNat 17 x.lifetime.pieces.toNat

def State.fuelStatus (s : State) : List Field :=
  [.group 1 ((indices 3).map s.demandRecord), .group 2 ((indices 6).map s.lineRecord)]

/-! ### Cooler unit (R106) -/

def RunCounts.items (c : RunCounts) : List Byte :=
  itemCount 9 c.expiries ++ itemCount 10 c.skipped ++ itemCount 11 c.sent ++ itemCount 12 c.dropped ++
    itemCount 13 c.confirmed ++ itemCount 14 c.abandoned ++ itemCount 15 c.unexpected

def State.runRecord (s : State) (g : Fin 4) : List Byte :=
  let x := s.runAt g
  itemCode 1 x.state.code ++ itemCode 2 x.mode.code ++ itemNat 3 x.manualRate ++ itemNat 4 x.rate ++
    itemOpt (fun t : StrokeTimer => itemNat 5 t.period ++ itemNat 6 (s.remaining (t.start + t.period))) x.timer ++
    itemRecords 7 (x.outstanding.map (itemTime 1)) ++ itemNat 8 x.waiting ++ x.counts.items

def State.zoneRecord (s : State) (z : Fin 8) : List Byte :=
  let x := s.cooler.zones[z]
  itemBool 1 x.active ++ itemNat 2 x.onRun ++ itemNat 3 x.offRun ++ itemInt 4 x.diff

def State.coolerStatus (s : State) : List Field :=
  [.item (itemCode 1 s.cooler.state.code),
   .item (itemOpt (fun t => itemNat 2 (s.remaining t)) s.cooler.startTimer),
   .group 3 ((indices 4).map s.runRecord),
   .group 4 ((indices 12).map fun k => itemNat 1 (s.cooler.compartments[k]).speed),
   .group 5 ((indices 8).map s.zoneRecord)]

/-! ### Command queue (R117) -/

def CommandClass.code : CommandClass → Nat
  | .trip => 0 | .control => 1 | .routine => 2

def Origin.code : Origin → Nat
  | .fuel => 0 | .cooler => 1 | .passThrough => 2

/-- Table 6-1. -/
def QueueEntry.items (e : QueueEntry) : List Byte :=
  itemNat 1 e.station ++ itemName 2 commandKinds e.kind ++ itemNat 3 e.value ++ itemCode 4 e.cls.code ++
    itemCode 5 e.origin.code ++ itemTime 6 e.time

def CommandQueue.inClass (q : CommandQueue) (c : CommandClass) : Nat := (q.list.filter (·.cls == c)).length

/-- R117. The counts of entries per class and of overruns per class are single items, in the order of Table 6-1 (tags 2 to
4 and 7 to 9; DESIGN CHOICE, log entry 24). -/
def State.queueStatus (s : State) : List Field :=
  let q := s.queue
  [.item (itemNat 1 q.list.length), .item (itemNat 2 (q.inClass .trip)), .item (itemNat 3 (q.inClass .control)),
   .item (itemNat 4 (q.inClass .routine)), .group 5 (q.list.map QueueEntry.items), .item (itemCount 6 q.overruns),
   .item (itemCount 7 q.overrunsTrip), .item (itemCount 8 q.overrunsControl), .item (itemCount 9 q.overrunsRoutine),
   .item (itemCount 10 q.merges), .item (itemCount 11 q.lost), .item (itemBool 12 q.overrun)]

/-! ### Alarm unit (R137, R138) -/

/-- R137: the dynamic fields of Table 7-5, in-use, and whether a named parent is in an active state. -/
def State.alarmItems (s : State) (a : Fin 192) : List Byte :=
  let x := s.alarmAt a
  itemCode 1 x.state.code ++ itemBool 2 x.condition ++ itemNat 3 x.occurrence.toNat ++
    itemOpt (itemTime 4) x.raiseTime ++ itemOpt (itemTime 5) x.ackTime ++ itemInt 6 x.lastValue ++
    itemOpt (fun t => itemNat 7 (s.remaining t)) x.onDelay ++ itemOpt (fun t => itemNat 8 (s.remaining t)) x.shelve ++
    itemBool 9 (s.alarmEntry? a).isSome ++
    itemOpt (fun e : AlarmEntry => if e.parent.isSome then itemBool 10 (s.parentActive e) else []) x.entry

/-- R138: alarm number, priority and raise time of an entry of the raised list. -/
def State.raisedItems (s : State) (a : Fin 192) : List Byte :=
  let x := s.alarmAt a
  itemObject 1 0 a ++ itemOpt (fun e : AlarmEntry => itemNat 2 e.priority) x.entry ++ itemOpt (itemTime 3) x.raiseTime

/-- R138: the number of entries in a state. -/
def State.inState (s : State) (st : AlarmState) : Nat :=
  ((indices 192).filter fun a => (s.alarmEntry? a).isSome && (s.alarmAt a).state == st).length

def SnapshotItem.items (x : SnapshotItem) : List Byte :=
  itemObject 1 0 x.point ++ itemInt 2 x.value ++ itemCode 3 x.quality.code

/-- Table 7-8. -/
def CaptureRecord.items (r : CaptureRecord) : List Byte :=
  itemBool 1 r.armed ++
    itemOpt (fun c : Capture => itemObject 2 0 c.alarm ++ itemNat 3 c.occurrence.toNat ++ itemTime 4 c.time ++
      itemOpt (itemDay 5) c.dayClock ++ itemCount 6 c.roundNo) r.first ++
    itemNat 7 r.followers ++
    itemOpt (fun c : Capture => itemRecords 8 (c.snapshot.map SnapshotItem.items)) r.first

/-- R138. The numbers of RAISED entries per priority are four single items (tags 3 to 6; DESIGN CHOICE, log entry 24). -/
def State.alarmStatus (s : State) : List Field :=
  [.group 1 (s.alarm.raisedList.map s.raisedItems), .item (itemNat 2 s.topVector)] ++
    [1, 2, 3, 4].map (fun p => .item (itemNat (2 + p) (s.raisedCount p))) ++
    [.item (itemNat 7 (s.inState .held)), .item (itemNat 8 (s.inState .returned)),
     .item (itemNat 9 (s.inState .shelved)), .item (itemNat 10 (s.inState .suppressed)),
     .item (itemBool 11 s.hornDemanded), .item (itemBool 12 s.tripDemanded), .item (itemBool 13 s.alarm.silenced),
     .group 14 (s.alarm.captures.toList.map CaptureRecord.items)]

/-! ### Shift unit (R150) -/

def ShiftFlags.code (f : ShiftFlags) : Nat :=
  bitsNat [f.clockUnset, f.clockChanged, f.continued, f.countersImplausible, f.reportsLost]

/-- R150: the next boundary as a day-clock reading with its shift index. -/
def State.boundaryItems (s : State) : List Byte :=
  match s.shift.clock, s.shift.boundary with
  | some c, some b => itemDay 4 (c.reading b.time) ++ itemNat 5 b.index
  | _, _ => []

def ClosedRecord.items (r : ClosedRecord) : List Byte := itemCount 1 r.sequence ++ itemBool 2 r.collected

/-- R150. Open there and chosen in log entry 24: the open time as its reading (tag 8) and its day-clock reading (tag 9), the
next boundary as its day-clock reading (tag 4) and its index (tag 5), and an empty plan as an empty list. -/
def State.shiftStatus (s : State) : List Field :=
  [.item (itemBool 1 s.shift.clock.isSome), .item (itemOpt (itemDay 2) s.dayClock),
   .item (itemInts 3 (ofNats s.shift.plan)), .item s.boundaryItems, .item (itemCount 6 s.shift.nextSequence),
   .item (itemNat 7 s.shift.record.index), .item (itemTime 8 s.shift.record.openTime),
   .item (itemOpt (itemDay 9) s.shift.record.openDay), .item (itemNat 10 s.shift.record.flags.code),
   .group 11 (s.shift.ring.map ClosedRecord.items)]

/-! ### Plant port (R163) -/

/-- R158: the number of deferred replies. -/
def Port.deferred (p : Port) : Nat :=
  p.deferredCommit.isSome.toNat + p.deferredSingle.isSome.toNat + p.deferredStop.isSome.toNat

/-- R163. The length of the receive queue comes before that of the transmit queue (tags 18 and 19), an order that R163 leaves
open (DESIGN CHOICE, log entry 24). -/
def State.portStatus (s : State) : List Field :=
  let p := s.port
  (p.counts.list.zipIdx.map fun c => .item (itemCount (c.2 + 1) c.1)) ++
    [.item (itemBool 14 p.silent), .item (itemNat 15 p.silenceTime),
     .item (itemOpt (fun t => itemNat 16 (s.remaining t)) p.silenceDue), .item (itemNat 17 p.bitRate),
     .item (itemNat 18 p.rxQueue.length), .item (itemNat 19 p.txQueue.length), .item (itemNat 20 p.deferred),
     .item (itemBool 21 p.resetPending), .item (itemCode 22 p.resetCause.code)]

/-- R163: the record of a block, FLOOR 0 to PORT 8. -/
def State.statusOf (s : State) (block : Nat) : Option (List Field) :=
  match block with
  | 0 => some s.floorStatus
  | 1 => some s.pointStatus
  | 2 => some s.burnerStatus
  | 3 => some s.fuelStatus
  | 4 => some s.coolerStatus
  | 5 => some s.queueStatus
  | 6 => some s.alarmStatus
  | 7 => some s.shiftStatus
  | 8 => some s.portStatus
  | _ => none

end Sys2Proof.Machine
end

