-- ==== Sys2Proof/Machine/Reset.lean ====
section
/-!
DEFINITION. The three resets (section 1.7; R1, R22, R41, R63, R89, R107, R118, R139, R151, R161 to R163). The order of
the parts of a reset-pin or commanded reset is log entry 17.
-/
namespace Sys2Proof.Machine

/-- R22, Table 1-3. The entry to HALTED starts the digest timer (R161). -/
def Floor.afterReset (f : Floor) (now : Time) : Floor :=
  { active := f.active, pendingCopy := f.active, haltTimer := some (now + Config.haltedDigestMs) }

/-- R41. -/
def Point.afterReset (x : Point) : Point := { entry := x.entry }

/-- R63, R89: a burner; its permissive flags are computed afterwards. -/
def Burner.afterReset (x : Burner) : Burner :=
  { entry := x.entry, state := if x.state = .lockout then .lockout else .off, lockout := x.lockout,
    runPosted := x.runPosted }

/-- R89: a line. -/
def Line.afterReset (x : Line) : Line :=
  { entry := x.entry
    state := if x.state = .fault then .fault else if x.state = .out then .out else .ready
    faultCause := if x.state = .fault then x.faultCause else none
    lifetime := x.lifetime }

/-- R107: a run. -/
def Run.afterReset (x : Run) : Run := { entry := x.entry, manualRate := (x.entry.map (·.minRate)).getD 0 }

/-- R107. -/
def Cooler.afterReset (c : Cooler) : Cooler :=
  { runs := c.runs.map Run.afterReset
    compartments := c.compartments.map fun x => { entry := x.entry }
    zones := c.zones.map fun x => { entry := x.entry } }

/-- R139: an alarm, before its condition is computed afresh. -/
def Alarm.afterReset (x : Alarm) : Alarm :=
  { entry := x.entry, occurrence := x.occurrence, raiseTime := x.raiseTime, ackTime := x.ackTime,
    lastValue := x.lastValue }

/-- R139. -/
def AlarmUnit.afterReset (u : AlarmUnit) : AlarmUnit :=
  { alarms := u.alarms.map Alarm.afterReset, groups := u.groups, captures := u.captures }

/-- R162, R163. -/
def Port.afterReset (p : Port) (now : Time) (cause : ResetCause) (strap1 strap2 : Bool) : Port :=
  { silenceTime := p.silenceTime, silenceStart := now, strap1 := strap1, strap2 := strap2, resetCause := cause,
    digestList := p.digestList }

/-- R22 to R163: every block but the shift unit. -/
def State.resetBlocks (s : State) (cause : ResetCause) (strap1 strap2 : Bool) : State :=
  { s with
    floor := s.floor.afterReset s.timeBase
    points := s.points.map Point.afterReset
    burners := s.burners.map Burner.afterReset
    lines := s.lines.map Line.afterReset
    cooler := s.cooler.afterReset
    queue := {}
    alarm := s.alarm.afterReset
    port := s.port.afterReset s.timeBase cause strap1 strap2 }

/-- R63: the satisfied flags after a reset. -/
def State.freshPermissives (s : State) : State :=
  (indices 3).foldl (fun s b => s.modBurner b fun x => { x with permOk := s.freshFlags x.entry }) s

/-- R121: the values reported with the internal conditions as they are computed afresh. -/
def State.freshReports (s : State) : State :=
  s.modAlarmUnit fun u => { u with alarms := u.alarms.map fun x => { x with reported := s.freshReport x.entry } }

/-- A reset-pin or commanded reset at the present time, up to the fresh evaluation of the alarms: time postings, the
blocks, the close of the shift record with cause RESET (R151), and the digest of the halt. -/
def State.resetWork (s : State) (cause : ResetCause) (strap1 strap2 : Bool) : State :=
  let s := (s.timePostings.resetBlocks cause strap1 strap2).freshPermissives
  ((s.turnRecord .reset s.shift.record.index).offerDigest).freshReports

/-- A reset-pin or commanded reset at the present time, with the fresh evaluation of the alarms. -/
def State.resetPart (s : State) (cause : ResetCause) (strap1 strap2 : Bool) : State :=
  (s.resetWork cause strap1 strap2).finish

/-- R1, R22: a power-on reset. The command queue of the model and its count of free values are not the part's. -/
def State.powerOn (s : State) (strap1 strap2 : Bool) : State :=
  { State.reset with
    port := { State.reset.port with strap1 := strap1, strap2 := strap2 }
    freeIndex := s.freeIndex
    pending := s.pending }

def execPowerOnReset (strap1 strap2 : Bool) (s : State) : Host.Outcome State Fault Refusal :=
  (s.powerOn strap1 strap2).conclude

def execResetPinReset (t : Time) (strap1 strap2 : Bool) (s : State) : Host.Outcome State Fault Refusal :=
  ((s.advance t).resetPart .pin strap1 strap2).conclude

/-- R162: the commanded reset follows the last stop bit of the RESET's reply. -/
def State.commandedReset (s : State) (strap1 strap2 : Bool) : State :=
  if s.port.resetReplySent then s.resetPart .commanded strap1 strap2 else s

def execCommandedReset (strap1 strap2 : Bool) (s : State) : Host.Outcome State Fault Refusal :=
  (s.commandedReset strap1 strap2).conclude

end Sys2Proof.Machine
end

