-- ==== Sys2Proof/Machine/Clock.lean ====
section
/-!
DEFINITION. What the part does by itself when no command waits: the event that has come due (log entry 7).
-/
namespace Sys2Proof.Machine

/-- `i` once the present time has reached `t`. -/
def State.dueAt (s : State) (t : Option Time) (i : Instr) : Option Instr :=
  match t with
  | some t => if t ≤ s.timeBase then some i else none
  | none => none

/-- The first event of a list that is due. -/
def firstDue (xs : List (Option Instr)) : Option Instr := xs.findSome? id

/-- The present time has reached the end of slot time `n` of the round (section 1.2.1). -/
def State.slotOver (s : State) (r : Round) (n : Nat) : Bool :=
  r.markTime * 1000 + n * Config.slotMicros ≤ s.timeBase * 1000

/-- The command slots of the round that have passed. -/
def State.commandSlotsDone (s : State) (r : Round) : Nat := ((s.floor.active.map (·.cmdSlots)).getD 0) - r.cmdLeft

/-- The next event of the round in progress: a station slot in which no answer began, the judgement, or a command
slot. -/
def State.roundDue (s : State) : Option Instr :=
  match s.floor.round with
  | none => none
  | some r =>
    if !r.slots.isEmpty then
      if s.slotOver r (r.slotsDone + 3) then some (.slotOutcome s.timeBase [] []) else none
    else if !r.judged then some .roundJudgement
    else if 0 < r.cmdLeft then
      if s.slotOver r (r.slotsDone + s.commandSlotsDone r + 3) then some (.commandSlot s.timeBase) else none
    else none

/-- Timers of the burners, the fuel lines and the cooler. -/
def State.unitDue (s : State) : List (Option Instr) :=
  (indices 3).map (fun b => s.dueAt (s.burnerTimer b .purge) (.purgeTimerExpiry b)) ++
    (indices 3).map (fun b => s.dueAt (s.burnerTimer b .trial) (.ignitionTrialExpiry b)) ++
    (indices 3).map (fun b => s.dueAt (s.burners[b]).trialInLightoff (.ignitionTrialExpiry b)) ++
    (indices 3).map (fun b => s.dueAt (s.burnerTimer b .lightoff) (.lightoffTimerExpiry b)) ++
    (indices 6).map (fun l => s.dueAt ((s.lines[l]).dose.map fun d => d.start + d.interval) (.doseTimerExpiry l)) ++
    (indices 6).map (fun l => s.dueAt (s.lines[l]).deviation.timer (.deviationTimerExpiry l)) ++
    s.dueAt s.cooler.startTimer .startTimerExpiry ::
    (indices 4).map fun g => s.dueAt ((s.runAt g).timer.map fun t => t.start + t.period) (.strokeTimerExpiry g)

/-- Timers of the alarms. -/
def State.alarmDue (s : State) : List (Option Instr) :=
  (indices 192).map (fun a => s.dueAt (s.alarmAt a).onDelay (.onDelayExpiry a)) ++
    (indices 192).map fun a => s.dueAt (s.alarmAt a).shelve (.shelveTimerExpiry a)

/-- The request kinds 01H to 25H in order (Table 9-1). -/
def requestRows : List Instr :=
  [.writeEntry, .readEntry, .clearEntry, .commitRound, .lineEnable, .startRounds, .singleRound, .stopRounds, .force,
   .unforce, .readPoint, .burnerStart, .burnerStop, .burnerReset, .setDemand, .lineService, .lineMode, .lineReset,
   .coolerStart, .coolerStop, .coolerSafe, .coolerResetSafe, .runReset, .runMode, .operatorCommand, .ack, .shelve,
   .unshelve, .silence, .firstoutRearm, .readAlarm, .readReport, .closeShift, .setClock, .readStatus, .setSilenceTime,
   .resetRequest]

/-- The row that takes a request of a kind. -/
def rowOfKind (kind : Byte) : Instr :=
  if isRequestKind kind then (requestRows[kind.toNat - 1]?).getD .unknownKindRequest else .unknownKindRequest

/-- The request that the port takes next (R157). -/
def State.requestDue (s : State) : Option Instr := (s.requestHead fun _ => true).map fun f => rowOfKind f.kind

/-- R162: the commanded reset that follows the reply, with the straps as last read. -/
def State.resetDue (s : State) : Option Instr :=
  if s.port.resetReplySent then some (.commandedReset s.port.strap1 s.port.strap2) else none

/-- The events of the plant port and the shift unit. -/
def State.portDue (s : State) : List (Option Instr) :=
  [s.dueAt s.port.sentDue (.frameSent s.timeBase),
   s.dueAt (s.port.receiver.map fun p => p.last + Config.gapMs) .gapTimerExpiry,
   s.dueAt s.port.silenceDue .silenceTimerExpiry,
   s.dueAt (s.shift.boundary.map (·.time)) .boundaryTimerExpiry,
   s.dueAt s.floor.haltTimer .haltedDigestTimerExpiry]

/-- The event that the part takes next by itself, if one has come due. -/
def State.nextDue (s : State) : Option Instr :=
  firstDue (s.resetDue :: s.requestDue :: s.portDue ++ s.unitDue ++ s.alarmDue ++
    [s.roundDue, s.dueAt s.markDue .roundMark])

/-- One ms passes. -/
def State.tick (s : State) : State := { s with timeBase := s.timeBase + 1 }

end Sys2Proof.Machine
end

