-- ==== Sys2Proof/Machine/AlarmCommands.lean ====
section
/-!
DEFINITION. The meanings of the alarm unit's timers and requests (R122, R126 to R128, R131, R135, R137).
-/
namespace Sys2Proof.Machine

def execOnDelayExpiry (a : Fin 192) (s : State) : Host.Outcome State Fault Refusal :=
  (s.onDelayExpiry a).finish.conclude

def execShelveTimerExpiry (a : Fin 192) (s : State) : Host.Outcome State Fault Refusal :=
  (s.shelveExpiry a).finish.conclude

/-- R126: an ACK of the present occurrence. -/
def State.acknowledge (s : State) (a : Fin 192) (e : AlarmEntry) : State × Answer :=
  let acked := s.modAlarm a fun x => { x with ackTime := some s.timeBase }
  match (s.alarmAt a).state with
  | .raised => ((acked.alarmTo a e .held).finish, Answer.ok)
  | .returned => ((acked.alarmTo a e .normal).finish, Answer.ok)
  | .normal => refuse s .notAckable
  | .held => refuse s .notAckable
  | .shelved => refuse s .notAckable
  | .suppressed => refuse s .notAckable

/-- ACK (R126): an alarm and an occurrence number. -/
def handleAck : Handler := answering [intArg, intArg] fun s is =>
  withObject 192 0 s is fun a =>
    match s.alarmEntry? a with
    | none => refuse s .notConfigured
    | some e =>
      if intOf is 2 = some ((s.alarmAt a).occurrence.toNat : Int) then s.acknowledge a e else refuse s .stale

def execAck (s : State) : Host.Outcome State Fault Refusal := (s.serveKind 0x1A#8 handleAck).conclude

/-- R127: the shelve of an entry, for `ms` from the present time. -/
def State.shelveAlarm (s : State) (a : Fin 192) (e : AlarmEntry) (ms : Nat) : State :=
  let due := s.timeBase + ms
  if (s.alarmAt a).state = .shelved then
    s.modAlarm a fun x => { x with shelve := some (max (x.shelve.getD due) due) }
  else
    (((s.modAlarm a fun x => { x with onDelay := none, shelve := some due }).alarmTo a e .shelved).post fun r =>
      { r with shelves := satAdd top32 r.shelves 1 }).finish

/-- SHELVE (R127): an alarm and a duration in minutes. -/
def handleShelve : Handler := answering [intArg, intArg] fun s is =>
  withObject 192 0 s is fun a =>
    match needNat is 2 1 480 with
    | none => refuse s .invalid
    | some minutes =>
      match s.alarmEntry? a with
      | none => refuse s .notConfigured
      | some e =>
        if e.priority = 1 ∨ e.shelving = false then refuse s .notPermitted
        else (s.shelveAlarm a e (minutes * 60000), Answer.ok)

def execShelve (s : State) : Host.Outcome State Fault Refusal := (s.serveKind 0x1B#8 handleShelve).conclude

/-- UNSHELVE (R128). -/
def handleUnshelve : Handler := answering [intArg] fun s is =>
  withObject 192 0 s is fun a =>
    match s.alarmEntry? a with
    | none => refuse s .notConfigured
    | some e =>
      if (s.alarmAt a).state = .shelved then ((s.shelveEnds a e).finish, Answer.ok) else refuse s .notPermitted

def execUnshelve (s : State) : Host.Outcome State Fault Refusal := (s.serveKind 0x1C#8 handleUnshelve).conclude

/-- SILENCE (R131). -/
def handleSilence : Handler := answering [] fun s _ =>
  (s.modAlarmUnit fun u => { u with silenced := true }, Answer.ok)

def execSilence (s : State) : Host.Outcome State Fault Refusal := (s.serveKind 0x1D#8 handleSilence).conclude

/-- FIRSTOUT_REARM (R135). -/
def handleRearm : Handler := answering [intArg] fun s is =>
  withObject 4 1 s is fun g => (s.modAlarmUnit fun u => { u with captures := u.captures.set g {} }, Answer.ok)

def execFirstoutRearm (s : State) : Host.Outcome State Fault Refusal := (s.serveKind 0x1E#8 handleRearm).conclude

/-- READ_ALARM (R137). An entry not in use is answered DONE with its in-use flag 0, as R137 lists it, though R120 refuses
requests for such an entry NOT_CONFIGURED (DESIGN CHOICE, log entry 45). -/
def handleReadAlarm : Handler := answering [intArg] fun s is =>
  withObject 192 0 s is fun a => (s, { result := .done, body := s.alarmItems a })

def execReadAlarm (s : State) : Host.Outcome State Fault Refusal := (s.serveKind 0x1F#8 handleReadAlarm).conclude

end Sys2Proof.Machine
end

