-- ==== Sys2Proof/Machine/BurnerCommands.lean ====
section
/-!
DEFINITION. The meanings of the burner unit's timers and requests (R48, R51, R52, R54, R56, R61).
-/
namespace Sys2Proof.Machine

def execPurgeTimerExpiry (b : Fin 3) (s : State) : Host.Outcome State Fault Refusal := (s.purgeExpiry b).finish.conclude

def execIgnitionTrialExpiry (b : Fin 3) (s : State) : Host.Outcome State Fault Refusal :=
  (s.trialExpiry b).finish.conclude

def execLightoffTimerExpiry (b : Fin 3) (s : State) : Host.Outcome State Fault Refusal :=
  (s.lightoffExpiry b).finish.conclude

/-! ### BURNER_START (R48, R49) -/

/-- Table 3-5, check 3: the station of every scanner is on the quick list. -/
def State.scannersQuick (s : State) (e : BurnerEntry) : Bool :=
  (s.scannerStation e.scanner1).any s.onQuickList &&
    e.scanner2.all fun x => (s.scannerStation x).any s.onQuickList

/-- Table 3-5, check 5: every line at 0 and the igniter commanded off. -/
def State.linesOff (s : State) (b : Fin 3) : Bool :=
  (indices 6).all (fun l => !s.lineOf b l || (s.lines[l]).feed == 0) &&
    (s.ignitionLine b).all fun l => !(s.lines[l]).igniter

/-- Table 3-5: the first check that fails, as the refusal. -/
def State.startCheck (s : State) (b : Fin 3) (e : BurnerEntry) : Option Answer :=
  if (s.burners[b]).state ≠ .off then some (Answer.check .notPermitted .state)
  else if s.floor.state ≠ .normal then some (Answer.check .notPermitted .floor)
  else if !s.scannersQuick e then some (Answer.check .notPermitted .scanner)
  else match (s.burners[b]).permOk.findIdx? (!·) with
  | some i => some (Answer.checkObject .notPermitted .permissive (i + 1))
  | none =>
    if !s.linesOff b then some (Answer.check .notPermitted .lines)
    else if (s.chooseLightoffLine b).isNone then some (Answer.check .notPermitted .noLightoffLine)
    else match s.burnerBlockedBy b with
    | some a => some (Answer.checkObject .notPermitted .alarm a.val)
    | none => if (s.burners[b]).vote then some (Answer.check .notPermitted .flame) else none

/-- A request that names an in-use burner. -/
def withBurner (s : State) (is : List Item) (f : Fin 3 → BurnerEntry → State × Answer) : State × Answer :=
  withObject 3 1 s is fun b =>
    match s.burnerEntry? b with
    | some e => f b e
    | none => refuse s .notConfigured

/-- BURNER_START (R48, R49). -/
def handleBurnerStart : Handler := answering [intArg] fun s is =>
  withBurner s is fun b e =>
    match s.startCheck b e with
    | some a => (s, a)
    | none => (s.enterPurge b e, Answer.ok)

def execBurnerStart (s : State) : Host.Outcome State Fault Refusal := (s.serveKind 0x0C#8 handleBurnerStart).conclude

/-- BURNER_STOP (R56). -/
def handleBurnerStop : Handler := answering [intArg] fun s is =>
  withBurner s is fun b _ =>
    if (s.burners[b]).state.firing then ((s.stopBurner b).finish, Answer.ok) else refuse s .notPermitted

def execBurnerStop (s : State) : Host.Outcome State Fault Refusal := (s.serveKind 0x0D#8 handleBurnerStop).conclude

/-- BURNER_RESET (R61). -/
def handleBurnerReset : Handler := answering [intArg] fun s is =>
  withBurner s is fun b _ =>
    if (s.burners[b]).state ≠ .lockout then (s, Answer.check .notPermitted .state)
    else if (s.burners[b]).vote then (s, Answer.check .notPermitted .flame)
    else match s.burnerBlockedBy b with
    | some a => (s, Answer.checkObject .notPermitted .alarm a.val)
    | none => ((s.setBurnerState b .off).finish, Answer.ok)

def execBurnerReset (s : State) : Host.Outcome State Fault Refusal := (s.serveKind 0x0E#8 handleBurnerReset).conclude

end Sys2Proof.Machine
end

