-- ==== Sys2Proof/Machine/FuelCommands.lean ====
section
/-!
DEFINITION. The meanings of the fuel unit's timers and requests (R68, R69, R71, R81, R85, R86).
-/
namespace Sys2Proof.Machine

def execDoseTimerExpiry (l : Fin 6) (s : State) : Host.Outcome State Fault Refusal := (s.doseExpiry l).finish.conclude

def execDeviationTimerExpiry (l : Fin 6) (s : State) : Host.Outcome State Fault Refusal :=
  (s.deviationExpiry l).finish.conclude

/-- R71: a heat is stored, at most the max demand. -/
def State.storeDemand (s : State) (b : Fin 3) (e : BurnerEntry) (heat : Nat) : State × Answer :=
  (s.modBurner b fun x => { x with requested := min heat e.maxDemand },
    if heat ≤ e.maxDemand then Answer.ok else Answer.clampedTo e.maxDemand)

/-- SET_DEMAND (R71). -/
def handleSetDemand : Handler := answering [intArg, intArg] fun s is =>
  withBurner s is fun b e =>
    match intOf is 2 with
    | some heat => if heat < 0 then refuse s .invalid else s.storeDemand b e heat.toNat
    | none => refuse s .invalid

def execSetDemand (s : State) : Host.Outcome State Fault Refusal := (s.serveKind 0x0F#8 handleSetDemand).conclude

/-- A request that names an in-use line. -/
def withLine (s : State) (is : List Item) (f : Fin 6 → LineEntry → State × Answer) : State × Answer :=
  withObject 6 1 s is fun l =>
    match s.lineEntry? l with
    | some e => f l e
    | none => refuse s .notConfigured

/-- R68: a line is brought into service. -/
def State.serviceIn (s : State) (l : Fin 6) (e : LineEntry) : State × Answer :=
  if (s.lines[l]).state ≠ .out then (s, Answer.check .notPermitted .state)
  else if s.faultBitSet e then (s, Answer.check .notPermitted .faultBit)
  else ((s.modLine l fun x => { x with refresh := 0 }).setLineState l (s.ruledState l e), Answer.ok)

/-- R68: a line is taken out of service. -/
def State.serviceOut (s : State) (l : Fin 6) : State × Answer :=
  if (s.lines[l]).feed = 0 ∧ (s.lines[l]).igniter = false then
    ((s.modLine l fun x => { x with state := .out, dose := none, deviation := {}, faultCause := none }).finish, Answer.ok)
  else (s, Answer.check .notPermitted .feeding)

/-- LINE_SERVICE (R68): IN 0, OUT 1. -/
def handleLineService : Handler := answering [intArg, enumArg 2] fun s is =>
  withLine s is fun l e =>
    match enumOf is 2 with
    | some 0 => s.serviceIn l e
    | some 1 => s.serviceOut l
    | _ => refuse s .invalid

def execLineService (s : State) : Host.Outcome State Fault Refusal := (s.serveKind 0x10#8 handleLineService).conclude

/-- Table 10-3: AUTO 0, MANUAL 1. -/
def modes : List Mode := [.auto, .manual]

/-- LINE_MODE (R69). -/
def handleLineMode : Handler := answering [intArg, enumArg 2] fun s is =>
  withLine s is fun l e =>
    match needName is 2 modes with
    | none => refuse s .invalid
    | some m =>
      if !e.kind.isMetered then refuse s .invalid
      else if s.isLightoffLine e l then refuse s .notPermitted
      else (s.modLine l fun x => { x with mode := m }, Answer.ok)

def execLineMode (s : State) : Host.Outcome State Fault Refusal := (s.serveKind 0x11#8 handleLineMode).conclude

/-- R86: a line in FAULT whose checks pass is reset. -/
def State.resetLine (s : State) (l : Fin 6) (e : LineEntry) : State :=
  ((s.modLine l fun x => { x with faultCause := none }).setLineState l (s.ruledState l e)).finish

/-- LINE_RESET (R86). -/
def handleLineReset : Handler := answering [intArg] fun s is =>
  withLine s is fun l e =>
    if (s.lines[l]).state ≠ .fault then (s, Answer.check .notPermitted .state)
    else if !(s.floor.stationAt e.station).present then (s, Answer.check .notPermitted .presence)
    else if !s.flagsReadable e.flagPoint || s.faultBitSet e then (s, Answer.check .notPermitted .faultBit)
    else (s.resetLine l e, Answer.ok)

def execLineReset (s : State) : Host.Outcome State Fault Refusal := (s.serveKind 0x12#8 handleLineReset).conclude

end Sys2Proof.Machine
end

