-- ==== Sys2Proof/Machine/CoolerCommands.lean ====
section
/-!
DEFINITION. The meanings of the cooler unit's timers and requests (R91 to R95, R98, R99, R103).
-/
namespace Sys2Proof.Machine

def execStartTimerExpiry (s : State) : Host.Outcome State Fault Refusal := s.startExpiry.finish.conclude

def execStrokeTimerExpiry (g : Fin 4) (s : State) : Host.Outcome State Fault Refusal :=
  (s.strokeExpiry g).finish.conclude

/-- Table 5-6, check 4: every drive and fan station is on a list of the active copy. -/
def State.coolerReachable (s : State) : Bool :=
  (indices 4).all (fun g => (s.runEntry? g).all fun e => s.onActiveList e.station) &&
    (indices 12).all fun k => (s.compartmentEntry? k).all fun e => s.onActiveList e.station

/-- COOLER_START (R91, Table 5-6). -/
def handleCoolerStart : Handler := answering [] fun s _ =>
  if s.cooler.state ≠ .stopped then (s, Answer.check .notPermitted .state)
  else if !s.floor.state.runs then (s, Answer.check .notPermitted .floor)
  else if s.usedRuns.isEmpty then refuse s .notConfigured
  else if !s.coolerReachable then (s, Answer.check .notPermitted .station)
  else match s.coolerBlockedBy with
  | some a => (s, Answer.checkObject .notPermitted .alarm a.val)
  | none => (s.coolerStarts.finish, Answer.ok)

def execCoolerStart (s : State) : Host.Outcome State Fault Refusal := (s.serveKind 0x13#8 handleCoolerStart).conclude

/-- R95: an in-use burner is in PURGE, IGNITION, LIGHTOFF or RUN. -/
def State.anyBurnerFiring (s : State) : Bool :=
  (indices 3).any fun b => (s.burnerEntry? b).isSome && (s.burners[b]).state.firing

/-- COOLER_STOP (R95). -/
def handleCoolerStop : Handler := answering [] fun s _ =>
  if s.anyBurnerFiring then (s, Answer.check .notPermitted .burner)
  else if s.cooler.state = .stopped then (s, Answer.check .notPermitted .state)
  else (s.coolerStops.finish, Answer.ok)

def execCoolerStop (s : State) : Host.Outcome State Fault Refusal := (s.serveKind 0x14#8 handleCoolerStop).conclude

/-- COOLER_SAFE (R93). -/
def handleCoolerSafe : Handler := answering [] fun s _ =>
  if s.cooler.state = .stopped then (s, Answer.check .notPermitted .state) else (s.coolerToSafe.finish, Answer.ok)

def execCoolerSafe (s : State) : Host.Outcome State Fault Refusal := (s.serveKind 0x15#8 handleCoolerSafe).conclude

/-- COOLER_RESET_SAFE (R94). -/
def handleCoolerResetSafe : Handler := answering [] fun s _ =>
  if s.cooler.state ≠ .safe then (s, Answer.check .notPermitted .state)
  else match s.coolerBlockedBy with
  | some a => (s, Answer.checkObject .notPermitted .alarm a.val)
  | none => (s.coolerLeavesSafe.finish, Answer.ok)

def execCoolerResetSafe (s : State) : Host.Outcome State Fault Refusal :=
  (s.serveKind 0x16#8 handleCoolerResetSafe).conclude

/-- A request that names an in-use run. -/
def withRun (s : State) (is : List Item) (f : Fin 4 → RunEntry → State × Answer) : State × Answer :=
  withObject 4 1 s is fun g =>
    match s.runEntry? g with
    | some e => f g e
    | none => refuse s .notConfigured

/-- R103: a STALLED run is reset. -/
def State.resetRun (s : State) (g : Fin 4) (e : RunEntry) : State :=
  ((s.abandonStrokes g).startStroking g (s.ruledRate g e (s.runAt g).rate)).finish

/-- RUN_RESET (R103). -/
def handleRunReset : Handler := answering [intArg] fun s is =>
  withRun s is fun g e =>
    if (s.runAt g).state = .stalled then (s.resetRun g e, Answer.ok) else (s, Answer.check .notPermitted .state)

def execRunReset (s : State) : Host.Outcome State Fault Refusal := (s.serveKind 0x17#8 handleRunReset).conclude

/-- R98: MANUAL with the rate `v`, brought within the run's limits. -/
def State.runManual (s : State) (g : Fin 4) (e : RunEntry) (v : Int) : State × Answer :=
  let rate := clampInt v e.minRate e.maxRate
  let set := s.modRun g fun r => { r with mode := .manual, manualRate := rate.toNat }
  (if s.cooler.state = .running ∧ (s.runAt g).state ≠ .idle then (set.setRate g rate.toNat).finish else set,
    if rate = v then Answer.ok else Answer.clampedTo rate)

/-- RUN_MODE (R98): AUTO keeps the manual rate and the present rate; a rate given with AUTO is ignored (log entry 26). -/
def handleRunMode : Handler := answering [intArg, enumArg 2, { kind := .int, mandatory := false }] fun s is =>
  withRun s is fun g e =>
    match needName is 2 modes, intOf is 3 with
    | some .manual, some v => s.runManual g e v
    | some .manual, none => refuse s .invalid
    | some .auto, _ => (s.modRun g fun r => { r with mode := .auto }, Answer.ok)
    | none, _ => refuse s .invalid

def execRunMode (s : State) : Host.Outcome State Fault Refusal := (s.serveKind 0x18#8 handleRunMode).conclude

end Sys2Proof.Machine
end

