-- ==== Sys2Proof/Machine/FloorCommands.lean ====
section
/-!
DEFINITION. The meanings of the floor engine's commands (chapter 1): round mark, slots, judgement, and the requests it
owns.
-/
namespace Sys2Proof.Machine

def execRoundMark (s : State) : Host.Outcome State Fault Refusal := s.roundMark.conclude

def execSlotOutcome (t : Time) (onA onB : List Byte) (s : State) : Host.Outcome State Fault Refusal :=
  (s.slotOutcome t onA onB).conclude

def execRoundJudgement (s : State) : Host.Outcome State Fault Refusal := s.roundJudgement.conclude

def execCommandSlot (t : Time) (s : State) : Host.Outcome State Fault Refusal := (s.commandSlot t).conclude

def execHaltedDigestTimerExpiry (s : State) : Host.Outcome State Fault Refusal := s.haltedDigest.conclude

/-- COMMIT_ROUND (R5 to R8): in HALTED the copy takes effect at once, otherwise it waits. -/
def handleCommit : Handler := withArgs [] fun s number _ =>
  match s.checkCommit with
  | .error r => (s, some { result := r })
  | .ok t =>
    if s.floor.state = .halted then ((s.activate t).finish, some Answer.ok) else (s.stageCommit t number, none)

def execCommitRound (s : State) : Host.Outcome State Fault Refusal := (s.serveKind 0x04#8 handleCommit).conclude

/-- LINE_ENABLE (R16): the line, and 1 for on or 0 for off. -/
def handleLineEnable : Handler := answering [enumArg 2, intArg] fun s is =>
  match (enumOf is 1).bind linkOf, needFlag is 2 with
  | some x, some on => s.enableLine x on
  | _, _ => refuse s .invalid

def execLineEnable (s : State) : Host.Outcome State Fault Refusal := (s.serveKind 0x05#8 handleLineEnable).conclude

/-- START_ROUNDS (R17). -/
def handleStart : Handler := answering [] fun s _ =>
  match s.startRefusal with
  | some r => refuse s r
  | none => (s.startRounds, Answer.ok)

def execStartRounds (s : State) : Host.Outcome State Fault Refusal := (s.serveKind 0x06#8 handleStart).conclude

/-- SINGLE_ROUND (R20), answered at the end of its round. -/
def handleSingle : Handler := withArgs [] fun s number _ =>
  match s.startRefusal with
  | some r => (s, some { result := r })
  | none => (s.startSingle number, none)

def execSingleRound (s : State) : Host.Outcome State Fault Refusal := (s.serveKind 0x07#8 handleSingle).conclude

/-- STOP_ROUNDS (R21), answered when the stop is settled. -/
def handleStop : Handler := withArgs [] fun s number _ =>
  if s.stopRefused then (s, some { result := .notPermitted }) else (s.takeStop number, none)

def execStopRounds (s : State) : Host.Outcome State Fault Refusal := (s.serveKind 0x08#8 handleStop).conclude

end Sys2Proof.Machine
end

