-- ==== Sys2Proof/Machine/PointCommands.lean ====
section
/-!
DEFINITION. The meanings of the point unit's requests (R35, R36, R39).
-/
namespace Sys2Proof.Machine

/-- R35: FORCE of an in-use point with the entry `e`. -/
def State.force (s : State) (p : Fin 256) (e : PointEntry) (v : Int) : State × Answer :=
  if e.kind = .counter16 then refuse s .invalid
  else if s.isScannerPoint p then refuse s .inUse
  else
    let held := clampInt v e.low e.high
    (s.forcePoint p held, if held = v then Answer.ok else Answer.clampedTo held)

/-- FORCE names a point and a value. -/
def handleForce : Handler := answering [intArg, intArg] fun s is =>
  withObject 256 0 s is fun p =>
    match s.pointEntry? p, intOf is 2 with
    | some e, some v => s.force p e v
    | _, _ => refuse s .notConfigured

def execForce (s : State) : Host.Outcome State Fault Refusal := (s.serveKind 0x09#8 handleForce).conclude

/-- UNFORCE (R36). -/
def handleUnforce : Handler := answering [intArg] fun s is =>
  withObject 256 0 s is fun p =>
    if s.pointQuality p = .forced then (s.unforcePoint p, Answer.ok) else refuse s .notPermitted

def execUnforce (s : State) : Host.Outcome State Fault Refusal := (s.serveKind 0x0A#8 handleUnforce).conclude

/-- READ_POINT (R39). -/
def handleReadPoint : Handler := answering [intArg] fun s is =>
  withObject 256 0 s is fun p => (s, { result := .done, body := s.pointItems p })

def execReadPoint (s : State) : Host.Outcome State Fault Refusal := (s.serveKind 0x0B#8 handleReadPoint).conclude

end Sys2Proof.Machine
end

