-- ==== Sys2Proof/Machine/PortCommands.lean ====
section
/-!
DEFINITION. The meanings of the plant port's events and requests (R153 to R157, R160, R162, R163).
-/
namespace Sys2Proof.Machine

def execCharacterArrival (t : Time) (c : PlantChar) (s : State) : Host.Outcome State Fault Refusal :=
  ((s.advance t).takeChar c).conclude

def execBreak (t : Time) (s : State) : Host.Outcome State Fault Refusal := (s.advance t).takeBreak.conclude

def execGapTimerExpiry (s : State) : Host.Outcome State Fault Refusal := s.gapExpiry.conclude

def execSilenceTimerExpiry (s : State) : Host.Outcome State Fault Refusal := s.silenceExpiry.conclude

def execFrameSent (t : Time) (s : State) : Host.Outcome State Fault Refusal := (s.advance t).frameDone.conclude

def execUnknownKindRequest (s : State) : Host.Outcome State Fault Refusal := s.unknownKind.conclude

/-- READ_STATUS (R163): a block and a page. -/
def handleReadStatus : Handler := answering [enumArg 9, intArg] fun s is =>
  match (enumOf is 1).bind s.statusOf, intOf is 2 with
  | some fields, some n =>
    if n < 0 then refuse s .badIndex
    else match pageOf fields n.toNat with
    | some page => (s, { result := .done, body := page })
    | none => refuse s .badIndex
  | _, _ => refuse s .invalid

def execReadStatus (s : State) : Host.Outcome State Fault Refusal := (s.serveKind 0x23#8 handleReadStatus).conclude

/-- SET_SILENCE_TIME (R156). -/
def handleSetSilence : Handler := answering [intArg] fun s is =>
  match needNat is 1 1 60 with
  | some n => (s.modPort fun p => { p with silenceTime := n }, Answer.ok)
  | none => refuse s .invalid

def execSetSilenceTime (s : State) : Host.Outcome State Fault Refusal := (s.serveKind 0x24#8 handleSetSilence).conclude

/-- RESET (R162): the request is pending, and its reply DONE is queued. -/
def handleReset : Handler := answering [] fun s _ => (s.modPort fun p => { p with resetPending := true }, Answer.ok)

def execResetRequest (s : State) : Host.Outcome State Fault Refusal := (s.serveKind 0x25#8 handleReset).conclude

end Sys2Proof.Machine
end

