-- ==== Sys2Proof/Machine/QueueCommands.lean ====
section
/-!
DEFINITION. The meaning of OPERATOR_COMMAND (R82, R98, R115, R116).
-/
namespace Sys2Proof.Machine

/-- R98: an operator RATE to the drive station of run `g`. A STALLED run takes the new rate at its reset (log
entry 22). -/
def State.operatorRate (s : State) (g : Fin 4) (e : RunEntry) (v : Int) : State × Answer :=
  if (s.runAt g).mode = .auto then (s, Answer.check .blocked .mode)
  else if s.cooler.state ≠ .running then (s, Answer.check .blocked .cooler)
  else if v < 0 then (s, Answer.check .blocked .value)
  else
    let rate := clampInt v e.minRate e.maxRate
    let set := s.modRun g fun r => { r with manualRate := rate.toNat }
    (if (s.runAt g).state = .stroking then set.setRate g rate.toNat else set,
      if rate = v then { result := .passed } else Answer.clampedTo rate)

/-- R114: the action for a station and kind. -/
def State.filterAction (s : State) (st : Nat) (k : CommandKind) : FilterAction :=
  match (s.filters.toList.filterMap id).find? fun e => e.inUse && e.station == st && e.kind == k with
  | some e => e.action
  | none => .block

/-- R116, steps 1 to 4: the value proposed, or the reason of a BLOCKED reply. -/
def State.filterValue (s : State) (st : Nat) (k : CommandKind) (v : Int) : Except CheckCode Int :=
  if !s.onActiveList st then .error .station
  else match s.filterAction st k with
  | .block => .error .filter
  | .pass => if 0 ≤ v ∧ v ≤ 65535 then .ok v else .error .value
  | .clamp lo hi => .ok (clampInt v lo hi)

/-- R116: a command that reaches the filter. -/
def State.passThrough (s : State) (st : Nat) (k : CommandKind) (v : Int) : State × Answer :=
  match s.filterValue st k v with
  | .error c => (s, Answer.check .blocked c)
  | .ok w =>
    let p : Proposal := { station := st, kind := k, value := w.toNat, cls := .routine, origin := .passThrough }
    (s.propose p,
      if s.wouldDrop p then Answer.check .blocked .queueFull
      else if w = v then { result := .passed }
      else Answer.clampedTo w)

/-- The in-use line whose feeder station it is. -/
def State.lineAt (s : State) (st : Nat) : Option (Fin 6 × LineEntry) :=
  ((indices 6).filterMap fun l => (s.lineEntry? l).map fun e => (l, e)).find? fun x => x.2.station == st

/-- The in-use run whose drive station it is. -/
def State.runAtStation (s : State) (st : Nat) : Option (Fin 4 × RunEntry) :=
  ((indices 4).filterMap fun g => (s.runEntry? g).map fun e => (g, e)).find? fun x => x.2.station == st

/-- R115, steps 1 to 5. -/
def State.operatorCommand (s : State) (st : Nat) (k : CommandKind) (v : Int) : State × Answer :=
  match s.lineAt st with
  | some (l, e) => if k = .feed then s.operatorFeed l e v else (s, Answer.check .blocked .owned)
  | none =>
    match s.runAtStation st with
    | some (g, e) => if k = .rate then s.operatorRate g e v else (s, Answer.check .blocked .owned)
    | none => s.passThrough st k v

/-- OPERATOR_COMMAND (R115). -/
def handleOperatorCommand : Handler := answering [intArg, enumArg 6, intArg] fun s is =>
  match needNat is 1 1 60 with
  | none => refuse s .badIndex
  | some st =>
    match needName is 2 commandKinds, need is 3 int32Low int32High with
    | some k, some v =>
      let r := s.operatorCommand st k v
      (r.1.finish, r.2)
    | _, _ => refuse s .invalid

def execOperatorCommand (s : State) : Host.Outcome State Fault Refusal :=
  (s.serveKind 0x19#8 handleOperatorCommand).conclude

end Sys2Proof.Machine
end

