-- ==== Sys2Proof/Machine/ShiftCommands.lean ====
section
/-!
DEFINITION. The meanings of the shift unit's timer and requests (R140, R143, R148, R149).
-/
namespace Sys2Proof.Machine

def execBoundaryTimerExpiry (s : State) : Host.Outcome State Fault Refusal := s.boundaryExpiry.conclude

/-- R149: the record of a sequence number is read and marked collected. -/
def State.readClosed (s : State) (n : Int) : State × Answer :=
  match s.shift.ring.find? fun r => (r.sequence.toNat : Int) == n with
  | some r =>
    (s.modShift fun x => { x with ring := markCollected r.sequence x.ring }, { result := .done, body := r.layout })
  | none => refuse s .notFound

/-- READ_REPORT (R149): a sequence number, or none for the open record. -/
def handleReadReport : Handler := answering [{ kind := .int, mandatory := false }] fun s is =>
  match intOf is 1 with
  | some n => s.readClosed n
  | none => (s, { result := .done, body := s.openSnapshot.openLayout })

def execReadReport (s : State) : Host.Outcome State Fault Refusal := (s.serveKind 0x20#8 handleReadReport).conclude

/-- CLOSE_SHIFT (R148). -/
def handleCloseShift : Handler := answering [] fun s _ => (s.closeShift .commanded 0, Answer.ok)

def execCloseShift (s : State) : Host.Outcome State Fault Refusal := (s.serveKind 0x21#8 handleCloseShift).conclude

/-- SET_CLOCK (R140): a day and a millisecond of the day. -/
def handleSetClock : Handler := answering [intArg, intArg] fun s is =>
  match needNat is 1 0 65535, needNat is 2 0 86399999 with
  | some day, some ms => (s.setClock day ms, Answer.ok)
  | _, _ => refuse s .invalid

def execSetClock (s : State) : Host.Outcome State Fault Refusal := (s.serveKind 0x22#8 handleSetClock).conclude

end Sys2Proof.Machine
end

