-- ==== Sys2Proof/Machine/TableCommands.lean ====
section
/-!
DEFINITION. The meanings of WRITE_ENTRY, READ_ENTRY and CLEAR_ENTRY.
-/
namespace Sys2Proof.Machine

def execWriteEntry (s : State) : Host.Outcome State Fault Refusal := (s.serveKind 0x01#8 handleWrite).conclude

def execReadEntry (s : State) : Host.Outcome State Fault Refusal := (s.serveKind 0x02#8 handleRead).conclude

def execClearEntry (s : State) : Host.Outcome State Fault Refusal := (s.serveKind 0x03#8 handleClear).conclude

end Sys2Proof.Machine
end

