-- ==== Sys2Proof/Machine/Dispatch.lean ====
section
/-!
DEFINITION. The meaning of every command: one arm per constructor of Instr.
-/
namespace Sys2Proof.Machine

def exec (i : Instr) (s : State) : Host.Outcome State Fault Refusal :=
  match i with
  | .powerOnReset strap1 strap2 => Sys2Proof.Machine.execPowerOnReset strap1 strap2 s
  | .resetPinReset t strap1 strap2 => Sys2Proof.Machine.execResetPinReset t strap1 strap2 s
  | .commandedReset strap1 strap2 => Sys2Proof.Machine.execCommandedReset strap1 strap2 s
  | .roundMark => Sys2Proof.Machine.execRoundMark s
  | .slotOutcome t onA onB => Sys2Proof.Machine.execSlotOutcome t onA onB s
  | .roundJudgement => Sys2Proof.Machine.execRoundJudgement s
  | .commandSlot t => Sys2Proof.Machine.execCommandSlot t s
  | .haltedDigestTimerExpiry => Sys2Proof.Machine.execHaltedDigestTimerExpiry s
  | .purgeTimerExpiry b => Sys2Proof.Machine.execPurgeTimerExpiry b s
  | .ignitionTrialExpiry b => Sys2Proof.Machine.execIgnitionTrialExpiry b s
  | .lightoffTimerExpiry b => Sys2Proof.Machine.execLightoffTimerExpiry b s
  | .doseTimerExpiry l => Sys2Proof.Machine.execDoseTimerExpiry l s
  | .deviationTimerExpiry l => Sys2Proof.Machine.execDeviationTimerExpiry l s
  | .startTimerExpiry => Sys2Proof.Machine.execStartTimerExpiry s
  | .strokeTimerExpiry g => Sys2Proof.Machine.execStrokeTimerExpiry g s
  | .onDelayExpiry a => Sys2Proof.Machine.execOnDelayExpiry a s
  | .shelveTimerExpiry a => Sys2Proof.Machine.execShelveTimerExpiry a s
  | .boundaryTimerExpiry => Sys2Proof.Machine.execBoundaryTimerExpiry s
  | .characterArrival t c => Sys2Proof.Machine.execCharacterArrival t c s
  | .lineBreak t => Sys2Proof.Machine.execBreak t s
  | .gapTimerExpiry => Sys2Proof.Machine.execGapTimerExpiry s
  | .silenceTimerExpiry => Sys2Proof.Machine.execSilenceTimerExpiry s
  | .frameSent t => Sys2Proof.Machine.execFrameSent t s
  | .unknownKindRequest => Sys2Proof.Machine.execUnknownKindRequest s
  | .writeEntry => Sys2Proof.Machine.execWriteEntry s
  | .readEntry => Sys2Proof.Machine.execReadEntry s
  | .clearEntry => Sys2Proof.Machine.execClearEntry s
  | .commitRound => Sys2Proof.Machine.execCommitRound s
  | .lineEnable => Sys2Proof.Machine.execLineEnable s
  | .startRounds => Sys2Proof.Machine.execStartRounds s
  | .singleRound => Sys2Proof.Machine.execSingleRound s
  | .stopRounds => Sys2Proof.Machine.execStopRounds s
  | .force => Sys2Proof.Machine.execForce s
  | .unforce => Sys2Proof.Machine.execUnforce s
  | .readPoint => Sys2Proof.Machine.execReadPoint s
  | .burnerStart => Sys2Proof.Machine.execBurnerStart s
  | .burnerStop => Sys2Proof.Machine.execBurnerStop s
  | .burnerReset => Sys2Proof.Machine.execBurnerReset s
  | .setDemand => Sys2Proof.Machine.execSetDemand s
  | .lineService => Sys2Proof.Machine.execLineService s
  | .lineMode => Sys2Proof.Machine.execLineMode s
  | .lineReset => Sys2Proof.Machine.execLineReset s
  | .coolerStart => Sys2Proof.Machine.execCoolerStart s
  | .coolerStop => Sys2Proof.Machine.execCoolerStop s
  | .coolerSafe => Sys2Proof.Machine.execCoolerSafe s
  | .coolerResetSafe => Sys2Proof.Machine.execCoolerResetSafe s
  | .runReset => Sys2Proof.Machine.execRunReset s
  | .runMode => Sys2Proof.Machine.execRunMode s
  | .operatorCommand => Sys2Proof.Machine.execOperatorCommand s
  | .ack => Sys2Proof.Machine.execAck s
  | .shelve => Sys2Proof.Machine.execShelve s
  | .unshelve => Sys2Proof.Machine.execUnshelve s
  | .silence => Sys2Proof.Machine.execSilence s
  | .firstoutRearm => Sys2Proof.Machine.execFirstoutRearm s
  | .readAlarm => Sys2Proof.Machine.execReadAlarm s
  | .readReport => Sys2Proof.Machine.execReadReport s
  | .closeShift => Sys2Proof.Machine.execCloseShift s
  | .setClock => Sys2Proof.Machine.execSetClock s
  | .readStatus => Sys2Proof.Machine.execReadStatus s
  | .setSilenceTime => Sys2Proof.Machine.execSetSilenceTime s
  | .resetRequest => Sys2Proof.Machine.execResetRequest s

end Sys2Proof.Machine
end

