-- ==== Sys2Proof/Machine/Step.lean ====
section
/-!
DEFINITION. One step of the machine: the command at the front of the queue, or what the idle part does by itself.
-/
namespace Sys2Proof.Machine

/-- No command waits: the event that has come due happens, or one ms passes (log entry 7). -/
def State.idle (s : State) : Host.Outcome State Fault Refusal :=
  match s.nextDue with
  | some i => exec i s
  | none => .next s.tick

/-- The command at the front is taken with the queue's rest. -/
def step (s : State) : Host.Outcome State Fault Refusal :=
  match s.pending with
  | c :: rest => exec c { s with pending := rest }
  | [] => s.idle

/-- The state with the command that a word spells at the front of its queue. The opcode table gives no row any bits, so
no word spells one. -/
def State.withFetchWord (s : State) (nbits w : Nat) : State :=
  match decodeTableWord nbits w with
  | some c => { s with pending := c :: s.pending }
  | none => s

end Sys2Proof.Machine
end

