-- ==== Sys2Proof/Safety.lean ====
section
/-!
DEFINITION. Predicates and parts of the state that the statements about the part speak of.
-/
namespace Sys2Proof.Machine

/-! ### Requests -/

/-- The port takes next the request of a kind that carries `number` and the argument bytes `args` (R157). -/
def State.offers (s : State) (kind number : Byte) (args : List Byte) : Prop :=
  s.gateOpen = true ∧ s.port.rxQueue.head? = some { kind := kind, payload := number :: args }

/-- The reply to a request is queued on `s`, and the HORN and TRIP lines follow: the end of every request that is
answered in its own event. -/
def State.answered (s : State) (number kind : Byte) (a : Answer) : State := (s.reply number kind a).driveLines

/-- The state at reading `t` with the receiver `r` and the link counts `c`. -/
def State.receiving (s : State) (t : Time) (r : Option Partial) (c : LinkCounts) : State :=
  { s with timeBase := max s.timeBase t, port := { s.port with receiver := r, counts := c } }

/-! ### What a queued command may change (R108 to R112) -/

/-- A line without the refresh count and the lost-dose count, which the loss of a command changes. -/
def Line.own (x : Line) : Line := { x with refresh := 0, lostDoses := 0 }

/-- A run without its waiting count, cooler refresh count and dropped count. -/
def Run.own (r : Run) : Run := { r with waiting := 0, refresh := 0, counts := { r.counts with dropped := 0 } }

/-- A compartment without its cooler refresh count. -/
def Compartment.own (c : Compartment) : Compartment := { c with refresh := 0 }

def Cooler.own (c : Cooler) : Cooler :=
  { c with runs := c.runs.map Run.own, compartments := c.compartments.map Compartment.own }

/-- A shift record without the overruns and the dropped strokes posted to it. -/
def ShiftRecord.own (r : ShiftRecord) : ShiftRecord :=
  { r with overruns := 0, runs := r.runs.map fun a => { a with dropped := 0 } }

/-- The state without the command queue and without what the loss of a queued command may change. -/
def State.own (s : State) : State :=
  { s with
    queue := {}, lines := s.lines.map Line.own, cooler := s.cooler.own
    shift := { s.shift with record := s.shift.record.own } }

/-! ### What the working units may change on one another's account -/

/-- What the units keep of their objects: the configured entries, and the requested demand of a burner. -/
abbrev Burner.kept (x : Burner) : Burner := { entry := x.entry, requested := x.requested }
abbrev Line.kept (x : Line) : Line := { entry := x.entry }
abbrev Run.kept (x : Run) : Run := { entry := x.entry }
abbrev Compartment.kept (x : Compartment) : Compartment := { entry := x.entry }
abbrev Zone.kept (x : Zone) : Zone := { entry := x.entry }
abbrev Alarm.kept (x : Alarm) : Alarm := { entry := x.entry }

abbrev Cooler.kept (c : Cooler) : Cooler :=
  { runs := c.runs.map Run.kept, compartments := c.compartments.map Compartment.kept, zones := c.zones.map Zone.kept }

abbrev AlarmUnit.kept (u : AlarmUnit) : AlarmUnit := { alarms := u.alarms.map Alarm.kept, groups := u.groups }

/-- The state without what the burner, fuel, cooler and alarm units may change on one another's account: of burners,
lines, cooler and alarms the configured entries are left; queue, open record, transmitter, HORN and TRIP are blank. Two
states with the same outer part agree on time base, floor engine, points, filters, day clock, plan, boundary, ring,
receiver, receive queue, silence, link counts but the lost notices, straps, digest list and waiting commands. -/
def State.outer (s : State) : State :=
  { s with
    burners := s.burners.map Burner.kept, lines := s.lines.map Line.kept, cooler := s.cooler.kept, queue := {}
    alarm := s.alarm.kept, shift := { s.shift with record := {} }
    port := { s.port with
      txQueue := [], sending := none, sent := [], sendStart := 0, counts := { s.port.counts with noticesLost := 0 } }
    trip := false, horn := false }

/-! ### Holds (R70) -/

/-- R85: the deviation check of a line after its state has become `st` at `now`. The entry to FEEDING of a CONTINUOUS line
starts it with its one-second timer, any other change of state stops it and empties it, and a line whose state is as it
was keeps it. -/
def Line.checkAfter (x : Line) (st : FuelState) (now : Time) : Deviation :=
  if st = x.state then x.deviation
  else match st, x.entry.map LineEntry.kind with
    | .feeding, some (.continuous _ _ _) =>
      { timer := some (now + 1000), seconds := 0, expected := 0, delivered := 0, increments := 0 }
    | _, _ => { timer := none, seconds := 0, expected := 0, delivered := 0, increments := 0 }

/-- `u` is `s` after the hold cause `c` was reported present or absent for each burner, as `v` says: each burner's set takes
it, and each line in service follows by R67, its deviation check with it (R85). -/
structure State.HoldsReported (s u : State) (c : HoldCause) (v : Fin 3 → Bool) : Prop where
  burners : ∀ b : Fin 3, u.burners[b] = { s.burners[b] with hold := (s.burners[b]).hold.put c (v b) }
  lines : ∀ l : Fin 6, { u.lines[l] with state := .out } =
    { s.lines[l] with state := .out, deviation := (s.lines[l]).checkAfter (u.lines[l]).state s.timeBase }
  standing : ∀ l : Fin 6, (s.lines[l]).state = .out ∨ (s.lines[l]).state = .fault → u.lines[l] = s.lines[l]
  ruled : ∀ (l : Fin 6) (e : LineEntry), s.lineEntry? l = some e → (s.lines[l]).state ≠ .out →
    (s.lines[l]).state ≠ .fault → (u.lines[l]).state = u.ruledState l e
  rest : { u with burners := s.burners, lines := s.lines } = s

/-- `u` is `s` after the hold cause `c` was reported present (`v`) or absent for all three burners. -/
abbrev State.HoldReported (s u : State) (c : HoldCause) (v : Bool) : Prop := s.HoldsReported u c fun _ => v

/-! ### Rounds (R10) -/

/-- R2, R10: a round of table `t` is opened at the present time, and its mark goes out on each line of its set. -/
def State.roundOpened (s : State) (t : RoundTable) : State :=
  { s with floor := { s.floor with
      round := some
        { markTime := s.timeBase, period := t.period, onA := s.floor.linkA.state != .disabled
          onB := s.floor.linkB.state != .disabled, slots := t.slots, cmdLeft := t.cmdSlots }
      linkA := if s.floor.linkA.state = .disabled then s.floor.linkA
        else { s.floor.linkA with sent := markFrame s.floor.roundNo t }
      linkB := if s.floor.linkB.state = .disabled then s.floor.linkB
        else { s.floor.linkB with sent := markFrame s.floor.roundNo t } } }

/-- R11: the statistics of a line with one more outcome. -/
def LinkStats.plus (x : LinkStats) (o : SlotOutcome) : LinkStats :=
  { calls := x.calls + 1
    good := if o = .good then x.good + 1 else x.good
    silent := if o = .silent then x.silent + 1 else x.silent
    corrupt := if o = .corrupt then x.corrupt + 1 else x.corrupt
    foreign := if o = .foreign then x.foreign + 1 else x.foreign
    dead := x.dead }

/-- R2, R11: a line of the round's set after a station slot with an outcome; a line outside the set is left alone. -/
def FloorLink.slot (x : FloorLink) (frame : List Byte) (o : Option (SlotOutcome × List Word16)) : FloorLink :=
  match o with
  | some y => { x with sent := frame, stats := x.stats.plus y.1 }
  | none => x

/-- R11: the lost slots of a line posted to the open record. -/
def lostAfter (n : Nat) (o : Option (SlotOutcome × List Word16)) : Nat :=
  if o.any (·.1 != .good) then min top32 (n + 1) else n

/-! ### Burners and their lines (chapter 3) -/

/-- `u` is `s` after the lines of burner `b` that are in service took the states R67 gives them, each with its deviation
check (R85). -/
structure State.LinesRuled (s u : State) (b : Fin 3) : Prop where
  others : ∀ l, s.lineOf b l = false → u.lines[l] = s.lines[l]
  fields : ∀ l : Fin 6, { u.lines[l] with state := .out } =
    { s.lines[l] with state := .out, deviation := (s.lines[l]).checkAfter (u.lines[l]).state s.timeBase }
  standing : ∀ l : Fin 6, (s.lines[l]).state = .out ∨ (s.lines[l]).state = .fault → u.lines[l] = s.lines[l]
  ruled : ∀ (l : Fin 6) (e : LineEntry), s.lineEntry? l = some e → e.burner = b → (s.lines[l]).state ≠ .out →
    (s.lines[l]).state ≠ .fault → (u.lines[l]).state = u.ruledState l e
  rest : { u with lines := s.lines } = s

/-- A burner that leaves its state for `st`: timers, confirmed mark, light-off line and demand record are emptied (R56,
R58, R76), and run time is posted up to now (R62). -/
def Burner.halted (x : Burner) (st : BurnerState) (now : Time) : Burner :=
  { x with
    state := st, timer := none, trialInLightoff := none, confirmed := false, lightoffLine := none
    demand := 0, undelivered := 0, excess := 0, runPosted := if x.state = .run then now else x.runPosted }

/-- The command that stops line `l` of burner `b` in class `cls` (R56, R58): a FEED of 0 of a metered line whatever its feed
was; an IGNITER off of the ignition line, always in TRIP class and otherwise where it was on (log entry 20). -/
def State.stopCommand (s : State) (b : Fin 3) (cls : CommandClass) (l : Fin 6) : Option Submission :=
  match s.lineEntry? l with
  | none => none
  | some e =>
    if e.burner ≠ b then none
    else if e.kind.isMetered = true then
      some
        { sender := .line l
          command := { station := e.station, kind := .feed, value := 0, cls := cls, origin := .fuel } }
    else if s.ignitionLine b = some l ∧ (cls = .trip ∨ (s.lines[l]).igniter = true) then
      some
        { sender := .line l
          command := { station := e.station, kind := .igniter, value := 0, cls := cls, origin := .fuel } }
    else none

/-- `u` is `s` after burner `b` stopped with the state, record and account given: its metered lines are at 0 and its
ignition line's igniter off, each line in service in the state R67 gives it, and the stopping commands in class `cls` of
its lines, in ascending line number, wait for the end of the event. A line that changes its state ends its deviation check,
and one that stays OUT or in FAULT keeps it as it is (R85). -/
structure State.BurnerStopped (s u : State) (b : Fin 3) (st : BurnerState) (record : Option LockoutRecord)
    (account : BurnerAccount) (cls : CommandClass) : Prop where
  burner : u.burners[b] = Burner.halted { s.burners[b] with lockout := record } st s.timeBase
  burners : ∀ b' : Fin 3, b' ≠ b → u.burners[b'] = s.burners[b']
  metered : ∀ (l : Fin 6) (e : LineEntry), s.lineEntry? l = some e → e.burner = b → e.kind.isMetered = true →
    { u.lines[l] with state := .out, deviation := {} } =
      { s.lines[l] with state := .out, deviation := {}, feed := 0, target := 0, dose := none, refresh := 0 }
  igniters : ∀ (l : Fin 6) (e : LineEntry), s.lineEntry? l = some e → e.burner = b → e.kind.isMetered = false →
    { u.lines[l] with state := .out, deviation := {} } =
      { s.lines[l] with
        state := .out, deviation := {}
        igniter := if s.ignitionLine b = some l then false else (s.lines[l]).igniter
        refresh := if (s.stopCommand b cls l).isSome then 0 else (s.lines[l]).refresh }
  states : ∀ (l : Fin 6) (e : LineEntry), s.lineEntry? l = some e → e.burner = b → (u.lines[l]).state =
    if (s.lines[l]).state = .out ∨ (s.lines[l]).state = .fault then (s.lines[l]).state
    else if (u.lines[l]).igniter = true ∧ e.kind.isMetered = false then .feeding else .ready
  checks : ∀ (l : Fin 6) (e : LineEntry), s.lineEntry? l = some e → e.burner = b →
    ((u.lines[l]).deviation = {} ∨
      (u.lines[l]).deviation = (s.lines[l]).deviation ∧ (u.lines[l]).state = (s.lines[l]).state) ∧
      ((s.lines[l]).state = .out ∨ (s.lines[l]).state = .fault → (u.lines[l]).deviation = (s.lines[l]).deviation)
  lines : ∀ l : Fin 6, s.lineOf b l = false → u.lines[l] = s.lines[l]
  accounts : u.shift.record.burners = s.shift.record.burners.set b account
  commands : u.queue = { s.queue with
    submitted := s.queue.submitted ++ (List.finRange 6).filterMap (s.stopCommand b cls) }
  rest : { u with
    burners := s.burners, lines := s.lines, queue := s.queue
    shift := { u.shift with record := { u.shift.record with burners := s.shift.record.burners } } } = s

/-- R62: a burner's run time with the time since the last posting, where it is in RUN. -/
def State.runTimeNow (s : State) (b : Fin 3) : Count64 :=
  if (s.burners[b]).state = .run then
    add64 (s.shift.record.burners[b]).runTime (s.timeBase - (s.burners[b]).runPosted)
  else (s.shift.record.burners[b]).runTime

/-- R58, R59, R62: `u` is `s` after the entry of burner `b` to LOCKOUT, with the record of that moment. -/
def State.LockedOut (s u : State) (b : Fin 3) (c : LockoutCause) (d : LockoutDetail) : Prop :=
  s.BurnerStopped u b .lockout
    (some
      { cause := c, stateLeft := (s.burners[b]).state, time := s.timeBase, dayClock := s.dayClock
        roundNo := s.floor.roundNo, alarm := d.alarm, line := d.line, permissive := d.permissive
        scanner1 := (s.burners[b]).scanner1, scanner2 := (s.burners[b]).scanner2, vote := (s.burners[b]).vote
        presentRun := (s.burners[b]).presentRun, absentRun := (s.burners[b]).absentRun })
    { s.shift.record.burners[b] with
      runTime := s.runTimeNow b, lockouts := min top32 ((s.shift.record.burners[b]).lockouts + 1) }
    .trip

/-! ### The cooler (chapter 5) -/

/-- R47, R67, R91: what the other units of `u` have made of the news, in `s`, that the cooler state is `st`. COOLER is held
while that is SAFE, and the lines follow; then the COOLER_RUNNING permissives of the in-use burners are computed again, with
the losses that this brings. Burners, lines, burner accounts and the commands of the lines are as this leaves them. -/
def State.CoolerTold (s u : State) (st : CoolerState) (timer : Option Time) : Prop :=
  ∃ held told : State,
    State.HoldReported { s with cooler := { s.cooler with state := st, startTimer := timer, lawHeld := false } } held
      .cooler (st == .safe) ∧
    told = held.visitPermissives (fun k => k == .coolerRunning) ∧
    u.burners = told.burners ∧ u.lines = told.lines ∧ u.shift.record.burners = told.shift.record.burners ∧
    ∀ l, givenBy (.line l) u.queue.submitted = givenBy (.line l) told.queue.submitted

/-- `u` is `s` after the cooler entered the state `st` with the start timer given (R91, R96), where `held` says that the law
waits for the next round mark (R92): each compartment has the speed of the new state, and where that speed is a new one, or
with `all` for every in-use compartment, a FAN waits for the end of the event and the refresh count is 0; the hold cause
COOLER is reported for the three burners, whose permissives follow. What becomes of the runs is said beside. -/
structure State.CoolerEntered (s u : State) (st : CoolerState) (timer : Option Time) (held all : Bool) : Prop where
  state : u.cooler.state = st
  startTimer : u.cooler.startTimer = timer
  lawHeld : u.cooler.lawHeld = held
  zones : u.cooler.zones = s.cooler.zones ∧ u.cooler.redMark = s.cooler.redMark
  speeds : ∀ k : Fin 12, (u.cooler.compartments[k]).speed = ((s.compartmentEntry? k).map u.fanSpeed).getD 0
  fans : ∀ (k : Fin 12) (e : CompartmentEntry), s.compartmentEntry? k = some e →
    (all = true ∨ (s.cooler.compartments[k]).speed ≠ u.fanSpeed e →
      u.cooler.compartments[k] = { s.cooler.compartments[k] with speed := u.fanSpeed e, refresh := 0 } ∧
      givenBy (.compartment k) u.queue.submitted = givenBy (.compartment k) s.queue.submitted ++
        [{ station := e.station, kind := .fan, value := u.fanSpeed e, cls := .control, origin := .cooler }]) ∧
    (all = false → (s.cooler.compartments[k]).speed = u.fanSpeed e →
      u.cooler.compartments[k] = s.cooler.compartments[k] ∧
      givenBy (.compartment k) u.queue.submitted = givenBy (.compartment k) s.queue.submitted)
  noFans : ∀ k : Fin 12, s.compartmentEntry? k = none →
    u.cooler.compartments[k] = { s.cooler.compartments[k] with speed := 0 } ∧
    givenBy (.compartment k) u.queue.submitted = givenBy (.compartment k) s.queue.submitted
  queue : u.queue = { s.queue with submitted := u.queue.submitted }
  holds : ∀ b : Fin 3, (u.burners[b]).hold = (s.burners[b]).hold.put .cooler (st == .safe)
  told : s.CoolerTold u st timer
  alarm : u.alarm = s.alarm
  outer : u.outer = s.outer

/-- R99: a run that enters STROKING at a rate, at the present time. -/
def Run.stroking (r : Run) (rate : Nat) (now : Time) : Run :=
  { r with state := .stroking, rate := rate, timer := some { start := now, period := 600000 / rate } }

/-- R99: a run that takes another rate; its timer, if it runs, is re-timed. -/
def Run.retimed (r : Run) (rate : Nat) : Run :=
  if r.rate = rate then r
  else { r with rate := rate, timer := r.timer.map fun t => { t with period := 600000 / rate } }

/-- The RATE that run `g` queues (R96). -/
def rateCommand (e : RunEntry) (rate : Nat) : Proposal :=
  { station := e.station, kind := .rate, value := rate, cls := .control, origin := .cooler }

/-- R92, R93: run `g`, in use by the entry `e`, entered STROKING at a rate, and a RATE waits for the end of the event. -/
def State.RunStarted (s u : State) (g : Fin 4) (e : RunEntry) (rate : Nat) : Prop :=
  u.cooler.runs[g] = { (s.cooler.runs[g]).stroking rate s.timeBase with refresh := 0 } ∧
    givenBy (.run g) u.queue.submitted = givenBy (.run g) s.queue.submitted ++ [rateCommand e rate]

/-- R93, R94, R97: run `g`, in use by the entry `e` and not IDLE, took a rate; where that is a new one its timer is re-timed
and a RATE waits for the end of the event. -/
def State.RunRated (s u : State) (g : Fin 4) (e : RunEntry) (rate : Nat) : Prop :=
  if (s.cooler.runs[g]).rate = rate then
    u.cooler.runs[g] = s.cooler.runs[g] ∧ givenBy (.run g) u.queue.submitted = givenBy (.run g) s.queue.submitted
  else
    u.cooler.runs[g] = { (s.cooler.runs[g]).retimed rate with refresh := 0 } ∧
      givenBy (.run g) u.queue.submitted = givenBy (.run g) s.queue.submitted ++ [rateCommand e rate]

/-- Run `g` is as it was, and queues nothing. -/
def State.RunLeft (s u : State) (g : Fin 4) : Prop :=
  u.cooler.runs[g] = s.cooler.runs[g] ∧ givenBy (.run g) u.queue.submitted = givenBy (.run g) s.queue.submitted

/-- R95, R103: a run whose outstanding list is abandoned. -/
def Run.abandoned (r : Run) : Run :=
  { r with
    outstanding := []
    counts := { r.counts with abandoned := r.counts.abandoned + BitVec.ofNat 32 r.outstanding.length } }

/-- R105: what the rewriting of a zone, which turns `s` into `emptied`, makes of the red-river time: where no zone is active
any more it is posted up to now, and the posting mark is emptied. -/
def State.zoneLeft (s emptied : State) : State :=
  match s.anyZoneActive, emptied.anyZoneActive, s.cooler.redMark with
  | true, false, some t =>
    { emptied with
      cooler := { emptied.cooler with redMark := none }
      shift := { emptied.shift with record := { emptied.shift.record with
        redRiver := add64 emptied.shift.record.redRiver (s.timeBase - t) } } }
  | _, _, _ => emptied

/-! ### Requests by kind (Table 10-3) -/

/-- The rows of the requests with arguments as items: each with its kind and its arguments. WRITE_ENTRY, READ_ENTRY and
CLEAR_ENTRY, whose payload begins with a table and an index, stand apart. -/
def requestArgs : List (Instr × Byte × List Arg) :=
  [(.commitRound, 0x04, []), (.lineEnable, 0x05, [enumArg 2, intArg]), (.startRounds, 0x06, []),
    (.singleRound, 0x07, []), (.stopRounds, 0x08, []), (.force, 0x09, [intArg, intArg]), (.unforce, 0x0A, [intArg]),
    (.readPoint, 0x0B, [intArg]), (.burnerStart, 0x0C, [intArg]), (.burnerStop, 0x0D, [intArg]),
    (.burnerReset, 0x0E, [intArg]), (.setDemand, 0x0F, [intArg, intArg]), (.lineService, 0x10, [intArg, enumArg 2]),
    (.lineMode, 0x11, [intArg, enumArg 2]), (.lineReset, 0x12, [intArg]), (.coolerStart, 0x13, []),
    (.coolerStop, 0x14, []), (.coolerSafe, 0x15, []), (.coolerResetSafe, 0x16, []), (.runReset, 0x17, [intArg])] ++
  [(.runMode, 0x18, [intArg, enumArg 2, { kind := .int, mandatory := false }]),
    (.operatorCommand, 0x19, [intArg, enumArg 6, intArg]), (.ack, 0x1A, [intArg, intArg]),
    (.shelve, 0x1B, [intArg, intArg]), (.unshelve, 0x1C, [intArg]), (.silence, 0x1D, []),
    (.firstoutRearm, 0x1E, [intArg]), (.readAlarm, 0x1F, [intArg]),
    (.readReport, 0x20, [{ kind := .int, mandatory := false }]), (.closeShift, 0x21, []),
    (.setClock, 0x22, [intArg, intArg]), (.readStatus, 0x23, [enumArg 9, intArg]), (.setSilenceTime, 0x24, [intArg]),
    (.resetRequest, 0x25, [])]

/-- The requests whose first argument is the number of an object, with the least and greatest number. -/
def objectArgs : List (Instr × Byte × List Arg × Int × Int) :=
  [(.force, 0x09, [intArg, intArg], 0, 255), (.unforce, 0x0A, [intArg], 0, 255), (.readPoint, 0x0B, [intArg], 0, 255),
    (.burnerStart, 0x0C, [intArg], 1, 3), (.burnerStop, 0x0D, [intArg], 1, 3), (.burnerReset, 0x0E, [intArg], 1, 3),
    (.setDemand, 0x0F, [intArg, intArg], 1, 3), (.lineService, 0x10, [intArg, enumArg 2], 1, 6),
    (.lineMode, 0x11, [intArg, enumArg 2], 1, 6), (.lineReset, 0x12, [intArg], 1, 6), (.runReset, 0x17, [intArg], 1, 4),
    (.runMode, 0x18, [intArg, enumArg 2, { kind := .int, mandatory := false }], 1, 4),
    (.operatorCommand, 0x19, [intArg, enumArg 6, intArg], 1, 60), (.ack, 0x1A, [intArg, intArg], 0, 191),
    (.shelve, 0x1B, [intArg, intArg], 0, 191), (.unshelve, 0x1C, [intArg], 0, 191),
    (.firstoutRearm, 0x1E, [intArg], 1, 4), (.readAlarm, 0x1F, [intArg], 0, 191)]

/-! ### Fields of an entry (sections 1.6 and 10.2) -/

/-- Tag `t` of the items is the integer `i`, which lies in the range of its field. -/
def IntField (is : List Item) (t : Nat) (i lo hi : Int) : Prop := intOf is t = some i ∧ lo ≤ i ∧ i ≤ hi

/-- Tag `t` of the items is left out. -/
def NoField (is : List Item) (t : Nat) : Prop := valueOf is t = none

/-- Tag `t` of the items is `x` within the range of its field, or is left out where `x` is none. -/
def OptField (is : List Item) (t : Nat) (x : Option Int) (lo hi : Int) : Prop :=
  match x with
  | none => NoField is t
  | some i => IntField is t i lo hi

/-- Tag `t` of the items is 0 or 1, as `b` says. -/
def FlagField (is : List Item) (t : Nat) (b : Bool) : Prop := intOf is t = some (b.toNat : Int)

/-- Tag `t` of the items is the number of the object `x`, where the first object has the number `base`. -/
def ObjectField {n : Nat} (is : List Item) (t base : Nat) (x : Fin n) : Prop := intOf is t = some ((x.val + base : Nat) : Int)

/-- Tag `t` of the items is the number of an object, or is left out where `x` is none. -/
def OptObjectField {n : Nat} (is : List Item) (t base : Nat) (x : Option (Fin n)) : Prop :=
  match x with
  | none => NoField is t
  | some i => ObjectField is t base i

/-- The fields that the CONTINUOUS and the PIECE lines of Table 4-1 share. -/
def MeteringFields (is : List Item) (m : Metering) : Prop :=
  ObjectField is 5 0 m.counter ∧ IntField is 8 m.cv 1000 45000 ∧ IntField is 9 m.weight 1 1000 ∧
    IntField is 10 m.priority 1 6 ∧ IntField is 11 m.fmin 1 60000 ∧ IntField is 12 m.fmax m.fmin 60000 ∧
    IntField is 13 m.ramp 0 60000

/-- Table 3-2: the items of a permissive. -/
def PermissiveFields (is : List Item) (p : Permissive) : Prop :=
  FlagField is 4 p.running ∧
    match p.kind with
    | .pointAtLeast x v => enumOf is 1 = some 0 ∧ ObjectField is 2 0 x ∧ IntField is 3 v (-2147483648) 2147483647
    | .pointAtMost x v => enumOf is 1 = some 1 ∧ ObjectField is 2 0 x ∧ IntField is 3 v (-2147483648) 2147483647
    | .coolerRunning => enumOf is 1 = some 2 ∧ NoField is 2 ∧ NoField is 3

/-- Table 7-4: code and instance of an internal condition. -/
def ConditionFields (is : List Item) : Condition → Prop
  | .flameFail b => enumOf is 3 = some 0 ∧ ObjectField is 4 1 b
  | .ignitionFail b => enumOf is 3 = some 1 ∧ ObjectField is 4 1 b
  | .burnerLockout b => enumOf is 3 = some 2 ∧ ObjectField is 4 1 b
  | .lineFault l => enumOf is 3 = some 3 ∧ ObjectField is 4 1 l
  | .heatShortfall b => enumOf is 3 = some 4 ∧ ObjectField is 4 1 b
  | .excessFire b => enumOf is 3 = some 5 ∧ ObjectField is 4 1 b
  | .grateStall g => enumOf is 3 = some 6 ∧ ObjectField is 4 1 g
  | .redRiver z => enumOf is 3 = some 7 ∧ ObjectField is 4 1 z
  | .coolerSafe => enumOf is 3 = some 8 ∧ NoField is 4
  | .lineFailed x => enumOf is 3 = some 9 ∧ enumOf is 4 = some (if x = .a then 0 else 1)
  | .quorumLost => enumOf is 3 = some 10 ∧ NoField is 4
  | .stationAbsent st => enumOf is 3 = some 11 ∧ ObjectField is 4 1 st
  | .stationMisplaced st => enumOf is 3 = some 12 ∧ ObjectField is 4 1 st
  | .commandOverrun => enumOf is 3 = some 13 ∧ NoField is 4
  | .plantSilent => enumOf is 3 = some 14 ∧ NoField is 4
  | .pointImplausible p => enumOf is 3 = some 15 ∧ ObjectField is 4 0 p

/-- Tables 7-1 and 7-2: the source record `src` of an alarm entry, with tags 3 and 4 of the entry `is`. -/
def SourceFields (is src : List Item) : AlarmSource → Prop
  | .pointHigh p h d => enumOf src 1 = some 0 ∧ ObjectField src 2 0 p ∧ NoField src 3 ∧ NoField src 4 ∧
      IntField is 3 h (-2147483648) 2147483647 ∧ IntField is 4 d 0 2147483647
  | .pointLow p h d => enumOf src 1 = some 1 ∧ ObjectField src 2 0 p ∧ NoField src 3 ∧ NoField src 4 ∧
      IntField is 3 h (-2147483648) 2147483647 ∧ IntField is 4 d 0 2147483647
  | .pointQuality p => enumOf src 1 = some 2 ∧ ObjectField src 2 0 p ∧ NoField src 3 ∧ NoField src 4 ∧
      NoField is 3 ∧ NoField is 4
  | .internal c => enumOf src 1 = some 3 ∧ NoField src 2 ∧ ConditionFields src c ∧ NoField is 3 ∧ NoField is 4

/-- Table 7-3: the items of an action. -/
def ActionFields (is : List Item) : AlarmAction → Prop
  | .none => enumOf is 1 = some 0 ∧ NoField is 2
  | .tripBurner b => enumOf is 1 = some 1 ∧ ObjectField is 2 1 b
  | .holdFuel b => enumOf is 1 = some 2 ∧ ObjectField is 2 1 b
  | .lineFault l => enumOf is 1 = some 3 ∧ ObjectField is 2 1 l
  | .coolerSafe => enumOf is 1 = some 4 ∧ NoField is 2

/-- What a table reads of an entry it has taken is that entry again: its items read whole, suit the table's fields, are
taken, and build it. -/
def RoundTrips {E : Type} (fields : List FieldKind) (build : List Item → Option E) (items : E → List Byte) : Prop :=
  ∀ (e : E) (is : List Item), build is = some e →
    ∃ read, itemsOf (items e) = some read ∧ entrySuits fields read = true ∧ entryTakes fields read = true ∧
      build read = some e

/-! ### A frame, character by character (R152, R153) -/

/-- The part after the characters given have arrived, each at its reading. -/
def State.afterChars (s : State) (cs : List (Time × PlantChar)) : State :=
  cs.foldl (fun s x =>
    match Machine.exec (.characterArrival x.1 x.2) s with
    | .next u => u
    | _ => s) s

/-- The HORN and TRIP lines are what the state demands (R131, R132). -/
def State.LinesFollow (s : State) : Prop := s.trip = s.tripDemanded ∧ s.horn = s.hornDemanded

/-! ### The queues, the ring and the flags (R47, R108, R109, R145, R155, R159, R160) -/

/-- What holds of the queues, the ring, the permissive flags and the two output lines after every command: each list keeps
within its places; the command queue is in class order, and no two of its entries of a level kind share station and kind;
no command of an event waits to be queued; the closed records carry consecutive sequence numbers up to the one before the
next; at most one DIGEST waits; an idle transmitter has nothing to send; an in-use burner has one satisfied flag for each
of its permissives (R47, R63); HORN and TRIP follow. -/
structure State.Sound (s : State) : Prop where
  commands : s.queue.list.length ≤ 32
  order : s.queue.list.Pairwise fun e f => e.cls.rank ≤ f.cls.rank
  single : s.queue.list.Pairwise fun e f => ¬ (e.kind.isLevel = true ∧ e.station = f.station ∧ e.kind = f.kind)
  submitted : s.queue.submitted = []
  ring : s.shift.ring.length ≤ 8
  numbers : ∀ i (h : i < s.shift.ring.length),
    (s.shift.ring[i]).sequence + BitVec.ofNat 32 (s.shift.ring.length - i) = s.shift.nextSequence
  requests : s.port.rxQueue.length ≤ 4
  frames : s.port.txQueue.length ≤ 16
  digest : (s.port.txQueue.filter (·.kind == .digest)).length ≤ 1
  idle : s.port.sending = none → s.port.txQueue = []
  permissives : ∀ b e, s.burnerEntry? b = some e → (s.burners[b]).permOk.length = e.permissives.length
  lines : s.LinesFollow

/-! ### Refused writes and clears (section 1.6, log entry 18) -/

/-- The refusals of a table's WRITE_ENTRY and CLEAR_ENTRY, in their order. The table has `size` entries from index `base`;
`valid` is the check of a write against the rest of the part, `busy` and `kept` say when a write and a clear are IN_USE. -/
structure Table.Refuses {E : Type} (t : Table) (s : State) (size base : Nat) (build : List Item → Option E)
    (valid busy : Fin size → E → Bool) (kept : Fin size → Bool) : Prop where
  writeIndex : ∀ n is, n < base ∨ base + size ≤ n → t.write s n is = (s, { result := .badIndex })
  clearIndex : ∀ n, n < base ∨ base + size ≤ n → t.clear s n = (s, { result := .badIndex })
  fields : ∀ (i : Fin size) is, entryTakes t.fields is = false ∨ build is = none →
    t.write s (i.val + base) is = (s, { result := .invalid })
  invalid : ∀ (i : Fin size) is e, build is = some e → valid i e = false →
    t.write s (i.val + base) is = (s, { result := .invalid })
  inUse : ∀ (i : Fin size) is e, entryTakes t.fields is = true → build is = some e → valid i e = true →
    busy i e = true → t.write s (i.val + base) is = (s, { result := .inUse })
  clearInUse : ∀ i : Fin size, kept i = true → t.clear s (i.val + base) = (s, { result := .inUse })

/-! ### Resets -/

/-- What a reset-pin or commanded reset of cause `cause` makes of the part as it stood in `s`, apart from the shift unit
and the transmitter (R22, R41, R63, R89, R107, R118, R139, R163). A burner in use has one permissive flag, not satisfied, for
each of its permissives (R47, R63): no point is GOOD and the cooler is STOPPED. The alarm conditions are then computed afresh. -/
structure State.ResetBlocks (s u : State) (cause : ResetCause) (strap1 strap2 : Bool) : Prop where
  timeBase : u.timeBase = s.timeBase
  floor : u.floor =
    { active := s.floor.active, pendingCopy := s.floor.active, haltTimer := some (s.timeBase + 1000) }
  points : ∀ p : Fin 256, u.points[p] = { entry := (s.points[p]).entry }
  burners : ∀ b : Fin 3, { u.burners[b] with permOk := [], runPosted := 0 } =
    { entry := (s.burners[b]).entry, lockout := (s.burners[b]).lockout,
      state := if (s.burners[b]).state = .lockout then .lockout else .off }
  permissives : ∀ b : Fin 3,
    (∀ e, s.burnerEntry? b = some e → (u.burners[b]).permOk = e.permissives.map fun _ => false) ∧
      (s.burnerEntry? b = none → (u.burners[b]).permOk = [])
  lines : ∀ l : Fin 6, u.lines[l] =
    { entry := (s.lines[l]).entry, lifetime := (s.lines[l]).lifetime,
      state := if (s.lines[l]).state = .fault then .fault else if (s.lines[l]).state = .out then .out else .ready,
      faultCause := if (s.lines[l]).state = .fault then (s.lines[l]).faultCause else none }
  cooler : u.cooler.state = .stopped ∧ u.cooler.startTimer = none ∧ u.cooler.redMark = none ∧
    u.cooler.lawHeld = false
  runs : ∀ g : Fin 4, u.cooler.runs[g] =
    { entry := (s.cooler.runs[g]).entry, manualRate := ((s.cooler.runs[g]).entry.map (·.minRate)).getD 0 }
  compartments : ∀ k : Fin 12, u.cooler.compartments[k] = { entry := (s.cooler.compartments[k]).entry }
  zones : ∀ z : Fin 8, u.cooler.zones[z] = { entry := (s.cooler.zones[z]).entry }
  queue : u.queue = {}
  filters : u.filters = s.filters
  alarms : ∀ a : Fin 192, { u.alarm.alarms[a] with reported := 0 } =
    { entry := (s.alarm.alarms[a]).entry, occurrence := (s.alarm.alarms[a]).occurrence,
      raiseTime := (s.alarm.alarms[a]).raiseTime, ackTime := (s.alarm.alarms[a]).ackTime,
      lastValue := (s.alarm.alarms[a]).lastValue }
  alarmLists : u.alarm.raisedList = [] ∧ u.alarm.silenced = false
  groups : u.alarm.groups = s.alarm.groups ∧ u.alarm.captures = s.alarm.captures
  port : { u.port with sending := none, sent := [], sendStart := 0 } =
    { silenceTime := s.port.silenceTime, silenceStart := s.timeBase, strap1 := strap1, strap2 := strap2,
      resetCause := cause, digestList := s.port.digestList }
  pending : u.pending = s.pending

/-- R151: the open record is closed with cause RESET and a record with the same shift index is opened. -/
structure State.ResetShift (s u : State) : Prop where
  clock : u.shift.clock = s.shift.clock ∧ u.shift.plan = s.shift.plan
  closed : ∃ r : ClosedRecord, u.shift.ring = enterRing s.shift.ring r ∧ r.cause = .reset ∧
    r.sequence = s.shift.nextSequence ∧ r.closeTime = s.timeBase ∧ r.closeDay = s.dayClock ∧ r.collected = false ∧
    r.body = s.openSnapshot
  opened : u.shift.record =
    { index := s.shift.record.index, openTime := s.timeBase, openDay := s.dayClock,
      flags := { clockUnset := s.dayClock.isNone, continued := true, reportsLost := ringLoses s.shift.ring } }
  sequence : u.shift.nextSequence = s.shift.nextSequence + 1
  boundary : u.shift.boundary = s.nextBoundary

end Sys2Proof.Machine
end

