-- ==== Sys2Proof/Certificates/Slice0/Obligations.lean ====
section
/-!
DEFINITION. What the model is claimed to do: one Prop for each statement listed in OBLIGATIONS.json.
-/
open Sys2Proof Sys2Proof.Machine

/-! ### The machine -/

/-- A step takes the command at the front of the queue and runs it with the queue's rest. -/
def Obligations.StepRunsFrontCommand : Prop :=
  ∀ (c : Instr) (rest : List Instr) (s : State), s.pending = c :: rest →
    Machine.step s = Machine.exec c { s with pending := rest }

/-- The model's choice (log entry 7): with no command waiting a step takes the event that has come due, and with none
due one ms passes. -/
def Obligations.StepWithoutCommand : Prop :=
  ∀ s : State, s.pending = [] →
    (∀ i, s.nextDue = some i → Machine.step s = Machine.exec i s) ∧
      (s.nextDue = none → Machine.step s = .next { s with timeBase := s.timeBase + 1 })

/-- Whatever the command, a step keeps the command queue within 32 entries, in class order and with at most one entry of
a level kind for a station and kind (R108, R109) and no command of an event left over (log entry 37), the ring within 8
records with consecutive sequence numbers (R145), the receive and transmit queues within 4 and 16 frames with at most
one waiting DIGEST and none beside an idle transmitter (R155, R159, R160), one satisfied flag for each permissive of an
in-use burner (R47, R63), and the TRIP and HORN lines what the state demands (R131, R132). -/
def Obligations.StepKeepsSound : Prop := ∀ s u : State, s.Sound → Machine.step s = .next u → u.Sound

/-- The state at reset has the queues, the ring, the permissive flags and the output lines that every step keeps. -/
def Obligations.ResetHasSound : Prop := State.reset.Sound

/-! ### Resets -/

/-- The part after power-on, and the POWER_ON_RESET that leads there from every state. Values that the spec does not
give (log entries 8 to 11, 13 and 39) are left out, but for the digest that the transmitter holds (log entries 12 and
47). -/
def Obligations.PowerOn : Prop :=
  -- The part after power-on, as R1, R22, R41, R63, R89, R107, R118, R139, R140, R151, R156, R161 and R163 give it.
  (∀ s : State, s = State.reset →
    (s.timeBase = 0 ∧ s.floor.active = none ∧ s.floor.pendingCopy = none ∧ s.floor.staged = none ∧
      s.floor.state = .halted ∧ s.floor.causes = { lineA := false, lineB := false, quorum := false } ∧
      (∀ x : LinkId, { s.floor.link x with sent := [] } =
        { state := .disabled, deadRun := 0, liveRun := 0, sent := []
          stats := { calls := 0, good := 0, silent := 0, corrupt := 0, foreign := 0, dead := 0 } }) ∧
      s.floor.roundNo = 0 ∧ s.floor.round = none ∧ s.floor.stopWaiting = false ∧ s.floor.haltTimer = some 1000 ∧
      s.floor.atQuorum = 0 ∧ s.floor.belowQuorum = 0 ∧ s.floor.startCount = 0 ∧
      ∀ i : Fin 60, s.floor.stations[i] = { present := false, absence := 0, disagree := 0, misplaced := false }) ∧
    (∀ p : Fin 256, (s.points[p]).entry = none ∧ (s.points[p]).value = 0 ∧ (s.points[p]).quality = .unset ∧
      (s.points[p]).lastRaw = 0 ∧ (s.points[p]).lastRound = 0 ∧ (s.points[p]).implCount = 0 ∧
      (s.points[p]).forced = none ∧ (s.points[p]).implausible = false) ∧
    (∀ b : Fin 3, (s.burners[b]).entry = none ∧ (s.burners[b]).state = .off ∧ (s.burners[b]).lockout = none ∧
      (s.burners[b]).scanner1 = false ∧ (s.burners[b]).scanner2 = false ∧ (s.burners[b]).vote = false ∧
      (s.burners[b]).presentRun = 0 ∧ (s.burners[b]).absentRun = 0 ∧ (s.burners[b]).timer = none ∧
      (s.burners[b]).trialInLightoff = none ∧ (s.burners[b]).purgeAborts = 0 ∧
      (s.burners[b]).requested = 0 ∧ (s.burners[b]).demand = 0 ∧ (s.burners[b]).undelivered = 0 ∧
      (s.burners[b]).excess = 0 ∧ (s.burners[b]).hold.nonempty = false) ∧
    (∀ l : Fin 6, (s.lines[l]).entry = none ∧ (s.lines[l]).lifetime = { mass := 0, heat := 0, pieces := 0 }) ∧
    (s.cooler.state = .stopped ∧ s.cooler.startTimer = none ∧ s.cooler.redMark = none ∧
      (∀ g : Fin 4, (s.cooler.runs[g]).entry = none ∧ (s.cooler.runs[g]).state = .idle ∧
        (s.cooler.runs[g]).mode = .auto ∧ (s.cooler.runs[g]).rate = 0 ∧ (s.cooler.runs[g]).manualRate = 0 ∧
        (s.cooler.runs[g]).timer = none ∧ (s.cooler.runs[g]).outstanding = [] ∧ (s.cooler.runs[g]).waiting = 0 ∧
        (s.cooler.runs[g]).refresh = 0 ∧ (s.cooler.runs[g]).counts =
          { expiries := 0, skipped := 0, sent := 0, dropped := 0, confirmed := 0, abandoned := 0, unexpected := 0 }) ∧
      (∀ k : Fin 12, s.cooler.compartments[k] = { entry := none, speed := 0, refresh := 0 }) ∧
      ∀ z : Fin 8, s.cooler.zones[z] = { entry := none, active := false, onRun := 0, offRun := 0, diff := 0 }) ∧
    (s.queue.list = [] ∧ s.queue.overruns = 0 ∧ s.queue.overrunsTrip = 0 ∧ s.queue.overrunsControl = 0 ∧
      s.queue.overrunsRoutine = 0 ∧ s.queue.merges = 0 ∧ s.queue.lost = 0 ∧ s.queue.overrun = false ∧
      ∀ i : Fin 32, s.filters[i] = none) ∧
    ((∀ a : Fin 192, (s.alarm.alarms[a]).entry = none ∧ (s.alarm.alarms[a]).state = .normal ∧
        (s.alarm.alarms[a]).occurrence = 0 ∧ (s.alarm.alarms[a]).raiseTime = none ∧
        (s.alarm.alarms[a]).ackTime = none ∧ (s.alarm.alarms[a]).onDelay = none ∧
        (s.alarm.alarms[a]).shelve = none) ∧
      s.alarm.raisedList = [] ∧ s.alarm.silenced = false ∧ s.trip = false ∧ s.horn = false ∧
      ∀ g : Fin 4, s.alarm.groups[g] = none ∧ (s.alarm.captures[g]).armed = true ∧
        (s.alarm.captures[g]).first = none ∧ (s.alarm.captures[g]).followers = 0) ∧
    (s.shift.clock = none ∧ s.shift.plan = [] ∧ s.shift.boundary = none ∧ s.shift.ring = [] ∧
      s.shift.nextSequence = 1 ∧ s.shift.record.index = 0 ∧ s.shift.record.openTime = 0 ∧
      s.shift.record = { flags := { clockUnset := true } }) ∧
    (s.port.receiver = none ∧ s.port.rxQueue = [] ∧ s.port.silent = false ∧ s.port.silenceTime = 5 ∧
      s.port.counts.list = List.replicate 13 0 ∧ s.port.resetPending = false ∧ s.port.resetCause = .power ∧
      (∀ i : Fin 16, s.port.digestList[i] = none) ∧ s.port.txQueue = [] ∧
      s.port.sending = some { kind := .digest, payload := s.digestPayload } ∧
      s.port.sent = TxFrame.characters { kind := .digest, payload := s.digestPayload })) ∧
  -- POWER_ON_RESET, in every state: the part is as after power-on, with the bit rate of the straps. That it is
  -- modelled from every state and keeps the waiting commands and the model's count of free values are log entries 35
  -- and 3.
  (∀ (strap1 strap2 : Bool) (s : State), Machine.exec (.powerOnReset strap1 strap2) s =
    .next { State.reset with
      port := { State.reset.port with strap1 := strap1, strap2 := strap2 }
      freeIndex := s.freeIndex
      pending := s.pending })

/-- RESET_PIN_RESET in every state, and COMMANDED_RESET once the RESET's reply has been sent: every block's reset
effects, among them one flag, not satisfied, for each permissive of an in-use burner (R63), the close of the shift
record, and a digest that the idle transmitter takes; then the alarms are computed afresh. The order, with the record
closed and the digest taken before the alarms, is log entry 17; the empty frames last driven on the floor lines and the
presence count 0 are log entries 8 and 9. Before its reply has been sent a COMMANDED_RESET does not come about (log
entry 6). -/
def Obligations.ResetsKeepTables : Prop :=
  ∀ (strap1 strap2 : Bool) (s : State),
    (∀ t : Time, ∃ u : State, Machine.exec (.resetPinReset t strap1 strap2) s = .next u.finish.driveLines ∧
      (s.advance t).ResetBlocks u .pin strap1 strap2 ∧ (s.advance t).ResetShift u ∧
      u.port.sending.any (·.kind == .digest) = true) ∧
    (s.port.resetReplySent = true →
      ∃ u : State, Machine.exec (.commandedReset strap1 strap2) s = .next u.finish.driveLines ∧
        s.ResetBlocks u .commanded strap1 strap2 ∧ s.ResetShift u ∧ u.port.sending.any (·.kind == .digest) = true) ∧
    (s.port.resetReplySent = false →
      Machine.exec (.commandedReset strap1 strap2) s = .next s.driveLines)

/-! ### The alarm unit's work at the end of an event -/

/-- R108, R121, R123, R125: what the end of an event brings about, in the order of log entries 4, 14 and 37. -/
def Obligations.AlarmConsequences : Prop :=
  -- What the alarms of an event bring about (`settle`): passes over the alarms follow one another while some in-use
  -- entry is out of line with its condition or has lost its parent, at most 64 of them (log entry 4). They leave the
  -- outer part of the state alone; with no entry in use nothing happens.
  (∀ s : State, s.settle.outer = s.outer ∧
    (∃ n ≤ 64, s.settle = State.alarmPass^[n] s ∧ (∀ m < n, ∃ a, (State.alarmPass^[m] s).unsettled a = true) ∧
      (n = 64 ∨ ∀ a, s.settle.unsettled a = false)) ∧
    (∀ a, s.unsettled a = true ↔ ∃ e, s.alarmEntry? a = some e ∧
      (s.sourceHolds e.source (s.alarm.alarms[a]).condition ≠ (s.alarm.alarms[a]).condition ∨
        s.orphaned a e = true)) ∧
    ((∀ a : Fin 192, s.alarmEntry? a = none) → s.settle = s)) ∧
  -- R123: one pass. First the conditions that fall are taken, in ascending alarm number; then every entry that is
  -- then out of line, in ascending alarm number, where an entry that has then lost its parent is raised (log entry
  -- 14).
  (∀ s u : State, u = s.fallPass →
    (∃ fall : State → Fin 192 → State, u = (List.finRange 192).foldl fall s ∧ ∀ (t : State) (a : Fin 192),
      (∀ e, t.alarmEntry? a = some e → (t.alarm.alarms[a]).condition = true → t.sourceHolds e.source true = false →
        fall t a = t.visitAlarm false a) ∧
      ((∀ e, t.alarmEntry? a = some e → (t.alarm.alarms[a]).condition = false ∨ t.sourceHolds e.source true = true) →
        fall t a = t)) ∧
    s.alarmPass = ((List.finRange 192).filter u.unsettled).foldl (fun t a => t.visitAlarm (u.orphan a) a) u ∧
    (∀ a, u.orphan a = true ↔ ∃ e, u.alarmEntry? a = some e ∧ u.orphaned a e = true) ∧
    ∀ (t : State) (a : Fin 192) (orphan : Bool), t.alarmEntry? a = none → t.visitAlarm orphan a = t) ∧
  -- R108: the end of an event. The alarms are settled, then the commands that the event's work has given are proposed
  -- to the queue: those of the fuel lines in ascending line number, then those of the runs and of the compartments in
  -- theirs, each in the order in which they were given; beside the queue only what the loss of a command changes is
  -- changed. Where a loss makes COMMAND_OVERRUN true, both are done once more (log entry 37).
  (∀ (s : State) (given : Sender → List Proposal),
    (∀ x, given x = (s.queue.submitted.filter fun y => decide (y.sender = x)).map (·.command)) →
    s.flush = ((List.finRange 6).flatMap (fun l => given (.line l)) ++
        (List.finRange 4).flatMap (fun g => given (.run g)) ++
        (List.finRange 12).flatMap fun k => given (.compartment k)).foldl State.propose
      { s with queue := { s.queue with submitted := [] } } ∧
    s.flush.queue.submitted = [] ∧ s.flush.own = s.own ∧ s.finish = s.settle.flush.settle.flush)

/-! ### Plant port (chapters 9 and 10) -/

/-- R152 to R154: what breaks, gaps and characters do to the partial frame and the link counts; a gap timer that does
not run does nothing (log entry 5). -/
def Obligations.CharactersReceived : Prop :=
  -- R153 and R154: a break, and the expiry of the gap timer 2 ms after the last character kept, drop the partial
  -- frame and are counted; nothing else changes. A gap timer that does not run does not expire (log entry 5).
  (∀ s : State,
    (∀ t : Time, Machine.exec (.lineBreak t) s = .next (State.driveLines
      { s with
        timeBase := max s.timeBase t
        port := { s.port with
          receiver := none, counts := { s.port.counts with breaks := s.port.counts.breaks + 1 } } })) ∧
    (∀ p : Partial, s.port.receiver = some p → Machine.exec .gapTimerExpiry s = .next (State.driveLines
      { s with
        timeBase := max s.timeBase (p.last + 2)
        port := { s.port with
          receiver := none, counts := { s.port.counts with idle := s.port.counts.idle + 1 } } })) ∧
    (s.port.receiver = none → Machine.exec .gapTimerExpiry s = .next s.driveLines)) ∧
  -- R152, R153: the error of a character: overrun before framing before noise before parity. Its parity is right
  -- where the ones among data bits, mark bit and parity bit are even in number. Each error has its own link count.
  (∀ (c : PlantChar) (ones : Nat) (x : LinkCounts),
    ones = ((List.range 8).filter c.data.getLsbD).length + c.mark.toNat + c.parity.toNat →
    (c.overrun = true → charError c = some .overrun) ∧
    (c.overrun = false → c.stopHigh = false → charError c = some .framing) ∧
    (c.overrun = false → c.stopHigh = true → c.noisy = true → charError c = some .noise) ∧
    (c.overrun = false → c.stopHigh = true → c.noisy = false → ¬ 2 ∣ ones → charError c = some .parity) ∧
    (c.overrun = false → c.stopHigh = true → c.noisy = false → 2 ∣ ones → charError c = none) ∧
    x.countError .overrun = { x with overrun := x.overrun + 1 } ∧
    x.countError .framing = { x with framing := x.framing + 1 } ∧
    x.countError .noise = { x with noise := x.noise + 1 } ∧
    x.countError .parity = { x with parity := x.parity + 1 }) ∧
  -- R153, outside a frame: a marked character without error begins a frame, an unmarked one is counted stray, and one
  -- with an error is counted under its error.
  (∀ (s : State) (t : Time) (c : PlantChar), s.port.receiver = none →
    (charError c = none → c.mark = true → Machine.exec (.characterArrival t c) s = .next
      (s.receiving t (some { chars := [c.data], bad := false, last := max s.timeBase t }) s.port.counts).driveLines) ∧
    (charError c = none → c.mark = false → Machine.exec (.characterArrival t c) s = .next
      (s.receiving t none { s.port.counts with stray := s.port.counts.stray + 1 }).driveLines) ∧
    (∀ e, charError c = some e → Machine.exec (.characterArrival t c) s = .next
      (s.receiving t none (s.port.counts.countError e)).driveLines)) ∧
  -- R153, inside a frame that the character does not complete: a marked character without error drops the frame and
  -- begins a new one; a length above 250 drops it; an error in the length position drops it; an error later is
  -- counted and the character kept with the bad mark; any other character is kept. Each character kept restarts the
  -- gap timer.
  (∀ (s : State) (t : Time) (c : PlantChar) (p : Partial), s.port.receiver = some p →
    (charError c = none → c.mark = true → Machine.exec (.characterArrival t c) s = .next
      (s.receiving t (some { chars := [c.data], bad := false, last := max s.timeBase t })
        { s.port.counts with truncated := s.port.counts.truncated + 1 }).driveLines) ∧
    (charError c = none → c.mark = false → p.chars.length = 1 → 250 < c.data.toNat →
      Machine.exec (.characterArrival t c) s = .next
        (s.receiving t none { s.port.counts with badLength := s.port.counts.badLength + 1 }).driveLines) ∧
    (∀ e, charError c = some e → p.chars.length = 1 → Machine.exec (.characterArrival t c) s = .next
      (s.receiving t none (s.port.counts.countError e)).driveLines) ∧
    (frameComplete (p.chars ++ [c.data]) = false →
      (∀ e, charError c = some e → p.chars.length ≠ 1 → Machine.exec (.characterArrival t c) s = .next
        (s.receiving t (some { chars := p.chars ++ [c.data], bad := true, last := max s.timeBase t })
          (s.port.counts.countError e)).driveLines) ∧
      (charError c = none → c.mark = false → (p.chars.length = 1 → c.data.toNat ≤ 250) →
        Machine.exec (.characterArrival t c) s = .next
          (s.receiving t (some { chars := p.chars ++ [c.data], bad := p.bad, last := max s.timeBase t })
            s.port.counts).driveLines)))

/-- R153, R155: the character that completes a frame. -/
def Obligations.FrameCompletes : Prop :=
  -- R153 and R155: the character that completes a frame. With the bad mark the frame is discarded; with a wrong check
  -- it is discarded and counted; otherwise it is good: it is counted, it restarts the silence timer, and it enters
  -- the receive queue if that holds fewer than 4 frames, or is counted as a receive overrun. While PLANT_SILENT is
  -- true the end of the silence follows (R156).
  (∀ (s : State) (t : Time) (c : PlantChar) (p : Partial) (body : List Byte), s.port.receiver = some p →
    charError c = none → c.mark = false → 3 ≤ p.chars.length → frameComplete (p.chars ++ [c.data]) = true →
    body = (p.chars ++ [c.data]).take (p.chars.length - 1) →
    (p.bad = true → Machine.exec (.characterArrival t c) s = .next
      (s.receiving t none s.port.counts).driveLines) ∧
    (p.bad = false → (p.chars ++ [c.data]).drop (p.chars.length - 1) ≠ beBytes 2 (frameCheck body).toNat →
      Machine.exec (.characterArrival t c) s = .next
        (s.receiving t none { s.port.counts with badCheck := s.port.counts.badCheck + 1 }).driveLines) ∧
    (p.bad = false → (p.chars ++ [c.data]).drop (p.chars.length - 1) = beBytes 2 (frameCheck body).toNat →
      ∃ u : State, Machine.exec (.characterArrival t c) s = .next u.endSilence.driveLines ∧
        (s.port.rxQueue.length < 4 → u =
          { s.receiving t none { s.port.counts with good := s.port.counts.good + 1 } with
            port := { s.port with
              receiver := none
              counts := { s.port.counts with good := s.port.counts.good + 1 }
              silenceStart := max s.timeBase t
              rxQueue := s.port.rxQueue ++ [{ kind := body.headD 0, payload := body.drop 2 }] } }) ∧
        (4 ≤ s.port.rxQueue.length → u =
          { s.receiving t none s.port.counts with
            port := { s.port with
              receiver := none
              counts := { s.port.counts with
                good := s.port.counts.good + 1, rxOverrun := s.port.counts.rxOverrun + 1 }
              silenceStart := max s.timeBase t } }))) ∧
  -- R153: the second check character arriving with an error is counted and kept with the bad mark, so that the
  -- complete frame is discarded.
  (∀ (s : State) (t : Time) (c : PlantChar) (p : Partial) (e : CharError), s.port.receiver = some p →
    charError c = some e → frameComplete (p.chars ++ [c.data]) = true → Machine.exec (.characterArrival t c) s = .next
      (s.receiving t none (s.port.counts.countError e)).driveLines)

/-- R152, R164, R165: the bytes of a frame with their check, numbers as bytes, and the frame received as it was sent. -/
def Obligations.FramesAreReceived : Prop :=
  -- R152, R153, R155, R164: every frame of a kind and a payload of at most 250 bytes, sent character by character
  -- without an error while the receiver is outside a frame and the link is not silent, is received: it is counted
  -- good, restarts the silence timer, and enters the receive queue while that has room. No bit of it is lost or
  -- changed.
  (∀ (s : State) (kind : Byte) (payload : List Byte) (cs : List (Time × PlantChar)) (now : Time),
    s.port.receiver = none → s.port.silent = false → s.port.rxQueue.length < 4 → payload.length ≤ 250 →
    cs.map (fun x => x.2.data) = frameBytes kind payload →
    cs.map (fun x => x.2.mark) = true :: List.replicate (payload.length + 3) false →
    (∀ x ∈ cs, charError x.2 = none) → now = cs.foldl (fun t x => max t x.1) s.timeBase →
    s.afterChars cs = State.driveLines { s with
      timeBase := now
      port := { s.port with
        receiver := none, silenceStart := now
        counts := { s.port.counts with good := s.port.counts.good + 1 }
        rxQueue := s.port.rxQueue ++ [{ kind := kind, payload := payload }] } }) ∧
  -- R152, R164: a frame on either link is kind, length, payload and check, the check's more significant half first.
  -- The check starts from all ones and takes each byte, most significant bit first, by the polynomial x^16 + x^12 +
  -- x^5 + 1.
  (∀ (kind : Byte) (payload body : List Byte) (b : Byte) (step : BitVec 16 → BitVec 16),
    body = kind :: BitVec.ofNat 8 payload.length :: payload →
    (∀ c, step c = if c.msb then (c <<< 1) ^^^ 0x1021#16 else c <<< 1) →
    frameBytes kind payload = body ++ [(frameCheck body).extractLsb' 8 8, (frameCheck body).extractLsb' 0 8] ∧
    frameCheck [] = 0xFFFF#16 ∧
    frameCheck (payload ++ [b]) = step^[8] (frameCheck payload ^^^ (b.setWidth 16 <<< 8))) ∧
  -- R165: a number in `k` bytes, the more significant byte first; a signed one as two's complement. A number that the
  -- bytes do not hold is cut to their low bits.
  (∀ (k n : Nat) (i : Int) (bs : List Byte) (b : Byte),
    (beBytes k n).length = k ∧ beNat (beBytes k n) = n % 256 ^ k ∧
    (beInt k i).length = k ∧ beInt k i = beBytes k (i % (256 ^ k : Nat)).toNat ∧
    (0 < k → -(256 ^ k : Nat) ≤ 2 * i → 2 * i < (256 ^ k : Nat) → beSigned (beInt k i) = i) ∧
    beNat [] = 0 ∧ beNat (bs ++ [b]) = beNat bs * 256 + b.toNat ∧
    beSigned bs =
      if 2 * beNat bs < 256 ^ bs.length then (beNat bs : Int) else (beNat bs : Int) - (256 ^ bs.length : Nat))

/-- R156, R162, R163: silence and what it holds, the three requests that the plant port takes for itself, and what
READ_STATUS returns. A silence timer that does not run does nothing (log entry 5). -/
def Obligations.SilenceAndPortRequests : Prop :=
  -- R156, R70: the expiry of the silence timer makes PLANT_SILENT true and reports SILENCE for all three burners; the
  -- end of the silence, which R156 puts in the event of a good frame's arrival, makes it false and withdraws SILENCE.
  -- A silence timer that does not run does not expire (log entry 5).
  (∀ s : State,
    (s.port.silent = false → ∃ u : State, Machine.exec .silenceTimerExpiry s = .next u.finish.driveLines ∧
      State.HoldReported
        { s with
          timeBase := max s.timeBase (s.port.silenceStart + s.port.silenceTime * 1000)
          port := { s.port with silent := true } } u .silence true) ∧
    (s.port.silent = true → Machine.exec .silenceTimerExpiry s = .next s.driveLines) ∧
    (s.port.silent = true → ∃ u : State, s.endSilence = u.finish ∧
      State.HoldReported { s with port := { s.port with silent := false } } u .silence false) ∧
    (s.port.silent = false → s.endSilence = s)) ∧
  -- R156: SET_SILENCE_TIME of 1 to 60 s sets the silence time, which re-times the running timer from its last
  -- restart; any other value is INVALID. R162: RESET is answered DONE and is pending.
  (∀ (s : State) (number : Byte) (args : List Byte),
    (∀ (is : List Item) (n : Int), s.offers 0x24#8 number args → readArgs [intArg] args = some is →
      intOf is 1 = some n →
      (1 ≤ n → n ≤ 60 → Machine.exec .setSilenceTime s = .next (State.answered
        { s.popRequest with port := { s.popRequest.port with silenceTime := n.toNat } } number 0x24#8 Answer.ok)) ∧
      (n < 1 ∨ 60 < n → Machine.exec .setSilenceTime s =
        .next (s.popRequest.answered number 0x24#8 { result := .invalid }))) ∧
    (s.offers 0x25#8 number args → args = [] → Machine.exec .resetRequest s = .next (State.answered
      { s.popRequest with port := { s.popRequest.port with resetPending := true } } number 0x25#8 Answer.ok))) ∧
  -- R163: READ_STATUS of one of the nine blocks carries the page of its record; a page beyond the last, and a
  -- negative one, is BAD_INDEX. Nothing else changes.
  (∀ (s : State) (number : Byte) (args : List Byte) (is : List Item) (block : Nat) (page : Int)
    (fields : List Field), s.offers 0x23#8 number args → readArgs [enumArg 9, intArg] args = some is →
    enumOf is 1 = some block → s.popRequest.statusOf block = some fields → intOf is 2 = some page →
    (∀ bytes, 0 ≤ page → pageOf fields page.toNat = some bytes →
      Machine.exec .readStatus s = .next (s.popRequest.answered number 0x23#8 { result := .done, body := bytes })) ∧
    (page < 0 ∨ pageOf fields page.toNat = none →
      Machine.exec .readStatus s = .next (s.popRequest.answered number 0x23#8 { result := .badIndex }))) ∧
  -- R23, R40, R163: the records of FLOOR and POINT. Their shapes, where the rules leave them open, are log entry 24.
  (∀ (s : State) (link : FloorLink → List Byte) (station : Nat → List Byte) (stations : List Nat),
    (∀ x, link x = itemEnum 1 x.state.code ++ itemInt 2 x.deadRun ++ itemInt 3 x.liveRun ++
      itemInt 4 x.stats.calls.toNat ++ itemInt 5 x.stats.good.toNat ++ itemInt 6 x.stats.silent.toNat ++
      itemInt 7 x.stats.corrupt.toNat ++ itemInt 8 x.stats.foreign.toNat ++ itemInt 9 x.stats.dead.toNat) →
    (∀ st, station st = itemInt 1 (s.floor.stationAt st).absence ++ itemInt 2 (s.floor.stationAt st).disagree) →
    stations = (match s.floor.active with
      | some t => t.ordinary ++ t.quick
      | none => []) →
    s.statusOf 0 = some
      [.item (itemEnum 1 s.floor.state.code), .item (itemInt 2 s.floor.causes.code),
        .item (itemInt 3 s.floor.staged.isSome.toNat), .item (itemInt 4 s.floor.stopWaiting.toNat),
        .group 5 [link s.floor.linkA, link s.floor.linkB], .item (itemInt 6 s.floor.roundNo.toNat),
        .item (itemInts 7 (s.floor.presenceBytes.map fun b => (b.toNat : Int))), .group 8 (stations.map station)] ∧
    s.statusOf 1 = some [.group 1 ((List.finRange 256).map fun p =>
      itemInt 1 (s.pointEntry? p).isSome.toNat ++ itemEnum 2 (s.pointQuality p).code ++
        itemInt 3 (s.points[p]).value ++ itemInt 4 (s.points[p]).lastRound.toNat ++
        itemInt 5 (if s.pointQuality p = .unset then 0
          else ((s.floor.roundNo - 1 - (s.points[p]).lastRound).toNat : Int)) ++
        itemInt 6 (s.points[p]).implCount ++ itemInt 7 (s.points[p]).implausible.toNat)] ∧
    (∀ i : Fin 60, s.floor.stationAt (i.val + 1) = s.floor.stations[i]) ∧
    (∀ n, 8 < n → s.statusOf n = none)) ∧
  -- R64, R163, Tables 3-3 and 3-6: the record of BURNER, where `left` is the time that a timer still has to run. The
  -- shapes that the rules leave open are log entries 24 and 44.
  (∀ (s : State) (opt : Option (List Byte) → List Byte) (left : Time → Int) (timer : BurnerTimer → Nat)
    (record : LockoutRecord → List Byte),
    (∀ x, opt x = x.getD []) → (∀ t, left t = ((t - s.timeBase : Nat) : Int)) →
    [BurnerTimer.purge, .trial, .lightoff].map timer = [0, 1, 2] →
    (∀ r, record r =
      itemEnum 1 ([LockoutCause.flameInPurge, .noIgnitionSource, .noLightoffLine, .ignitionFail, .lightoffFail,
        .lineFault, .flameFail, .permissiveLost, .alarmTrip].idxOf r.cause) ++
      itemEnum 2 (r.stateLeft.code - 1) ++ itemInt 3 (r.time % 2 ^ 48 : Nat) ++
      opt (r.dayClock.map fun d => itemRecord 4 (itemInt 1 d.day ++ itemInt 2 d.ms)) ++ itemInt 5 r.roundNo.toNat ++
      opt (r.alarm.map fun a => itemInt 6 a.val) ++ opt (r.line.map fun l => itemInt 7 (l.val + 1 : Nat)) ++
      opt (r.permissive.map fun n : Nat => itemInt 8 n) ++ itemEnum 9 r.scanner1.toNat ++ itemEnum 10 r.scanner2.toNat ++
      itemEnum 11 r.vote.toNat ++ itemInt 12 r.presentRun ++ itemInt 13 r.absentRun) →
    s.statusOf 2 = some [.group 1 ((List.finRange 3).map fun b =>
      itemEnum 1 (s.burners[b]).state.code ++ itemEnum 2 (s.burners[b]).scanner1.toNat ++
        itemEnum 3 (s.burners[b]).scanner2.toNat ++ itemEnum 4 (s.burners[b]).vote.toNat ++
        itemInt 5 (s.burners[b]).presentRun ++ itemInt 6 (s.burners[b]).absentRun ++
        itemInt 7 (s.burners[b]).confirmed.toNat ++
        itemInts 8 ((s.burners[b]).permOk.map fun ok => (ok.toNat : Int)) ++
        opt ((s.burners[b]).timer.map fun t => itemRecord 9 (itemEnum 1 (timer t.1) ++ itemInt 2 (left t.2))) ++
        opt ((s.burners[b]).trialInLightoff.map fun t => itemInt 10 (left t)) ++
        opt ((s.burners[b]).lightoffLine.map fun l => itemInt 11 (l.val + 1 : Nat)) ++
        itemInt 12 (s.burners[b]).purgeAborts ++
        opt ((s.burners[b]).lockout.map fun r => itemRecord 13 (record r)))]) ∧
  -- R88, R163: the record of FUEL. The numbering of the fields that only some lines have is log entry 24.
  (∀ (s : State) (fault kind : Fin 6 → List Byte),
    (∀ l, (s.lines[l]).faultCause = none → fault l = []) →
    (∀ l c n, (s.lines[l]).faultCause = some c → (c, n) ∈ [(FaultCause.faultBit, 0), (.absent, 1), (.deviation, 2)] →
      fault l = itemEnum 6 n) →
    (∀ l a, (s.lines[l]).faultCause = some (.alarm a) → fault l = itemEnum 6 3 ++ itemInt 7 a.val) →
    (∀ l e, (s.lines[l]).entry = some e → ∀ m x y, e.kind = .piece m x y → ∀ d : DoseTimer,
      ((s.lines[l]).dose = none → kind l = []) ∧
      ((s.lines[l]).dose = some d → kind l =
        itemInt 9 d.interval ++ itemInt 10 (d.start + d.interval - s.timeBase : Nat))) →
    (∀ l e, (s.lines[l]).entry = some e → ∀ m x y, e.kind = .continuous m x y → kind l =
      itemInt 11 (s.lines[l]).deviation.seconds ++ itemInt 12 (s.lines[l]).deviation.expected ++
        itemInt 13 (s.lines[l]).deviation.delivered) →
    (∀ l, (∀ e, (s.lines[l]).entry = some e → e.kind = .ignition) → kind l = []) →
    s.statusOf 3 = some
      [.group 1 ((List.finRange 3).map fun b =>
          itemInt 1 (s.burners[b]).requested ++ itemInt 2 (s.burners[b]).demand ++
            itemInt 3 (s.burners[b]).undelivered ++ itemInt 4 (s.burners[b]).excess ++
            itemInt 5 (s.burners[b]).hold.code),
        .group 2 ((List.finRange 6).map fun l =>
          itemEnum 1 (s.lines[l]).state.code ++ itemEnum 2 (s.lines[l]).mode.code ++ itemInt 3 (s.lines[l]).feed ++
            itemInt 4 (s.lines[l]).target ++ itemInt 5 (s.lines[l]).igniter.toNat ++ fault l ++
            itemInt 8 (s.lines[l]).refresh ++ kind l ++ itemInt 14 (s.lines[l]).lostDoses ++
            itemInt 15 (s.lines[l]).lifetime.mass.toNat ++ itemInt 16 (s.lines[l]).lifetime.heat.toNat ++
            itemInt 17 (s.lines[l]).lifetime.pieces.toNat)]) ∧
  -- R106, R117, R163, Tables 5-7 and 6-1: the records of COOLER and QUEUE (log entry 24).
  (∀ (s : State) (left : Time → Int) (timer : Run → List Byte) (inClass : CommandClass → Nat),
    (∀ t, left t = ((t - s.timeBase : Nat) : Int)) →
    (∀ x, timer x = match x.timer with
      | some t => itemInt 5 t.period ++ itemInt 6 (left (t.start + t.period))
      | none => []) →
    (∀ c, inClass c = (s.queue.list.filter fun e => e.cls == c).length) →
    s.statusOf 4 = some
      [.item (itemEnum 1 s.cooler.state.code),
        .item (match s.cooler.startTimer with
          | some t => itemInt 2 (left t)
          | none => []),
        .group 3 ((List.finRange 4).map fun g =>
          itemEnum 1 (s.cooler.runs[g]).state.code ++ itemEnum 2 (s.cooler.runs[g]).mode.code ++
            itemInt 3 (s.cooler.runs[g]).manualRate ++ itemInt 4 (s.cooler.runs[g]).rate ++
            timer s.cooler.runs[g] ++
            itemRecords 7 ((s.cooler.runs[g]).outstanding.map fun t => itemInt 1 (t % 2 ^ 48 : Nat)) ++
            itemInt 8 (s.cooler.runs[g]).waiting ++
            itemInt 9 (s.cooler.runs[g]).counts.expiries.toNat ++
            itemInt 10 (s.cooler.runs[g]).counts.skipped.toNat ++ itemInt 11 (s.cooler.runs[g]).counts.sent.toNat ++
            itemInt 12 (s.cooler.runs[g]).counts.dropped.toNat ++
            itemInt 13 (s.cooler.runs[g]).counts.confirmed.toNat ++
            itemInt 14 (s.cooler.runs[g]).counts.abandoned.toNat ++
            itemInt 15 (s.cooler.runs[g]).counts.unexpected.toNat),
        .group 4 ((List.finRange 12).map fun k => itemInt 1 (s.cooler.compartments[k]).speed),
        .group 5 ((List.finRange 8).map fun z =>
          itemInt 1 (s.cooler.zones[z]).active.toNat ++ itemInt 2 (s.cooler.zones[z]).onRun ++
            itemInt 3 (s.cooler.zones[z]).offRun ++ itemInt 4 (s.cooler.zones[z]).diff)] ∧
    s.statusOf 5 = some
      [.item (itemInt 1 s.queue.list.length), .item (itemInt 2 (inClass .trip)),
        .item (itemInt 3 (inClass .control)), .item (itemInt 4 (inClass .routine)),
        .group 5 (s.queue.list.map fun e =>
          itemInt 1 e.station ++
            itemEnum 2 ([CommandKind.feed, .dose, .igniter, .stroke, .fan, .rate].idxOf e.kind) ++
            itemInt 3 e.value ++ itemEnum 4 ([CommandClass.trip, .control, .routine].idxOf e.cls) ++
            itemEnum 5 ([Origin.fuel, .cooler, .passThrough].idxOf e.origin) ++ itemInt 6 (e.time % 2 ^ 48 : Nat)),
        .item (itemInt 6 s.queue.overruns.toNat), .item (itemInt 7 s.queue.overrunsTrip.toNat),
        .item (itemInt 8 s.queue.overrunsControl.toNat), .item (itemInt 9 s.queue.overrunsRoutine.toNat),
        .item (itemInt 10 s.queue.merges.toNat), .item (itemInt 11 s.queue.lost.toNat),
        .item (itemInt 12 s.queue.overrun.toNat)]) ∧
  -- R138, R163, Table 7-8: the record of ALARM (log entry 24).
  (∀ (s : State) (opt : Option (List Byte) → List Byte) (inState : AlarmState → Nat)
    (record : CaptureRecord → List Byte),
    (∀ x, opt x = x.getD []) →
    (∀ st, inState st =
      ((List.finRange 192).filter fun a => (s.alarmEntry? a).isSome && (s.alarm.alarms[a]).state == st).length) →
    (∀ r, record r = itemInt 1 r.armed.toNat ++
      opt (r.first.map fun c => itemInt 2 c.alarm.val ++ itemInt 3 c.occurrence.toNat ++
        itemInt 4 (c.time % 2 ^ 48 : Nat) ++
        opt (c.dayClock.map fun d => itemRecord 5 (itemInt 1 d.day ++ itemInt 2 d.ms)) ++
        itemInt 6 c.roundNo.toNat) ++
      itemInt 7 r.followers ++
      opt (r.first.map fun c => itemRecords 8 (c.snapshot.map fun x =>
        itemInt 1 x.point.val ++ itemInt 2 x.value ++ itemEnum 3 x.quality.code))) →
    s.statusOf 6 = some
      [.group 1 (s.alarm.raisedList.map fun a => itemInt 1 a.val ++
          opt ((s.alarm.alarms[a]).entry.map fun e => itemInt 2 e.priority) ++
          opt ((s.alarm.alarms[a]).raiseTime.map fun t => itemInt 3 (t % 2 ^ 48 : Nat))),
        .item (itemInt 2 s.topVector), .item (itemInt 3 (s.raisedCount 1)), .item (itemInt 4 (s.raisedCount 2)),
        .item (itemInt 5 (s.raisedCount 3)), .item (itemInt 6 (s.raisedCount 4)),
        .item (itemInt 7 (inState .held)), .item (itemInt 8 (inState .returned)),
        .item (itemInt 9 (inState .shelved)), .item (itemInt 10 (inState .suppressed)),
        .item (itemInt 11 s.hornDemanded.toNat), .item (itemInt 12 s.tripDemanded.toNat),
        .item (itemInt 13 s.alarm.silenced.toNat),
        .group 14 ((List.finRange 4).map fun g => record s.alarm.captures[g])]) ∧
  -- R150, R163: the records of SHIFT and PORT, with the lengths of the receive and then the transmit queue (log entry
  -- 24).
  (∀ (s : State) (opt : Option (List Byte) → List Byte) (day : Nat → DayReading → List Byte),
    (∀ x, opt x = x.getD []) → (∀ t d, day t d = itemRecord t (itemInt 1 d.day ++ itemInt 2 d.ms)) →
    s.statusOf 7 = some
      [.item (itemInt 1 s.shift.clock.isSome.toNat), .item (opt (s.dayClock.map (day 2))),
        .item (itemInts 3 (s.shift.plan.map Int.ofNat)),
        .item (opt (s.shift.clock.bind fun c => s.shift.boundary.map fun b =>
          day 4 (c.reading b.time) ++ itemInt 5 b.index)),
        .item (itemInt 6 s.shift.nextSequence.toNat), .item (itemInt 7 s.shift.record.index),
        .item (itemInt 8 (s.shift.record.openTime % 2 ^ 48 : Nat)),
        .item (opt (s.shift.record.openDay.map (day 9))),
        .item (itemInt 10 ((s.shift.record.flags.clockUnset.toNat + 2 * s.shift.record.flags.clockChanged.toNat +
          4 * s.shift.record.flags.continued.toNat + 8 * s.shift.record.flags.countersImplausible.toNat +
          16 * s.shift.record.flags.reportsLost.toNat : Nat) : Int)),
        .group 11 (s.shift.ring.map fun r => itemInt 1 r.sequence.toNat ++ itemInt 2 r.collected.toNat)] ∧
    s.statusOf 8 = some (([s.port.counts.good, s.port.counts.stray, s.port.counts.truncated, s.port.counts.badLength,
        s.port.counts.parity, s.port.counts.framing, s.port.counts.noise, s.port.counts.overrun,
        s.port.counts.badCheck, s.port.counts.idle, s.port.counts.breaks, s.port.counts.rxOverrun,
        s.port.counts.noticesLost].mapIdx fun i n => Field.item (itemInt (i + 1) n.toNat)) ++
      [.item (itemInt 14 s.port.silent.toNat), .item (itemInt 15 s.port.silenceTime),
        .item (if s.port.silent = true then []
          else itemInt 16 (s.port.silenceStart + s.port.silenceTime * 1000 - s.timeBase : Nat)),
        .item (itemInt 17 (match s.port.strap1, s.port.strap2 with
          | false, false => 115200
          | false, true => 230400
          | true, false => 460800
          | true, true => 921600)),
        .item (itemInt 18 s.port.rxQueue.length), .item (itemInt 19 s.port.txQueue.length),
        .item (itemInt 20 ((s.port.deferredCommit.isSome.toNat + s.port.deferredSingle.isSome.toNat +
          s.port.deferredStop.isSome.toNat : Nat) : Int)),
        .item (itemInt 21 s.port.resetPending.toNat), .item (itemEnum 22 s.port.resetCause.code)])) ∧
  -- R163, R167: the pages of a record, each of at most 247 bytes after the three header bytes. An item that no longer
  -- fits begins the next page; a record list that does not fit is cut between records, each part with its own count.
  (∃ pages : List Field → List Byte → List (List Byte),
    (∀ page, pages [] page = [page]) ∧
    (∀ bytes rest page, pages (.item bytes :: rest) page =
      if page.length + bytes.length ≤ 247 then pages rest (page ++ bytes) else page :: pages rest bytes) ∧
    (∀ tag records rest page, (∀ r ∈ records, r.length ≤ 243) →
      (page.length + 3 + (records.map fun r => r.length + 1).sum ≤ 247 →
        pages (.group tag records :: rest) page = pages rest (page ++ itemRecords tag records)) ∧
      (∀ first next last, records = first ++ next :: last →
        page.length + 3 + (first.map fun r => r.length + 1).sum + (next.length + 1) > 247 →
        (page.length + 3 + (first.map fun r => r.length + 1).sum ≤ 247 → first ≠ [] →
          pages (.group tag records :: rest) page =
            (page ++ itemRecords tag first) :: pages (.group tag (next :: last) :: rest) []) ∧
        (first = [] → pages (.group tag records :: rest) page = page :: pages (.group tag records :: rest) []))) ∧
    ∀ (fields : List Field) (n : Nat),
      (∀ tag records, Field.group tag records ∈ fields → ∀ r ∈ records, r.length ≤ 243) →
      (fields.map fun f => match f with
        | .item _ => 1
        | .group _ records => 2 * records.length + 2).sum ≤ 1000 →
      pageOf fields n = (pages fields [])[n]?)

/-- R159: a frame offered to the transmit queue is settled by its kind; R152, R160, R162, R165: how frames leave the
queue, where port.sent after the last frame is the model's choice (log entry 47), and a frame that is sent while a break
stands (log entry 19) is left out; R161: what a digest carries. -/
def Obligations.FramesQueuedAndSent : Prop :=
  -- R159: a frame offered while the transmitter is sending is settled by its kind.
  (∀ (s : State) (f g : TxFrame), s.port.sending = some g →
    (f.kind = .reply ∨ f.kind = .report →
      (s.port.txQueue.length < 16 → s.offerFrame f = s.setTxQueue (s.port.txQueue ++ [f])) ∧
      (16 ≤ s.port.txQueue.length → ∀ q₁ n q₂, s.port.txQueue = q₁ ++ n :: q₂ → n.kind = .notice →
        (∀ x ∈ q₁, x.kind ≠ .notice) → s.offerFrame f = s.noticeLost.setTxQueue (q₁ ++ q₂ ++ [f])) ∧
      (16 ≤ s.port.txQueue.length → (∀ x ∈ s.port.txQueue, x.kind ≠ .notice) → ∀ q₁ d q₂,
        s.port.txQueue = q₁ ++ d :: q₂ → d.kind = .digest → (∀ x ∈ q₁, x.kind ≠ .digest) →
        s.offerFrame f = s.setTxQueue (q₁ ++ q₂ ++ [f]))) ∧
    (f.kind = .digest →
      (∀ q₁ d q₂, s.port.txQueue = q₁ ++ d :: q₂ → d.kind = .digest → (∀ x ∈ q₁ ++ q₂, x.kind ≠ .digest) →
        s.offerFrame f = s.setTxQueue (q₁ ++ f :: q₂)) ∧
      ((∀ x ∈ s.port.txQueue, x.kind ≠ .digest) → s.port.txQueue.length < 16 →
        s.offerFrame f = s.setTxQueue (s.port.txQueue ++ [f])) ∧
      ((∀ x ∈ s.port.txQueue, x.kind ≠ .digest) → 16 ≤ s.port.txQueue.length → s.offerFrame f = s)) ∧
    (f.kind = .notice →
      (s.port.txQueue.length < 16 → s.offerFrame f = s.setTxQueue (s.port.txQueue ++ [f])) ∧
      (16 ≤ s.port.txQueue.length → s.offerFrame f = s.noticeLost))) ∧
  -- R160: a frame offered to the idle transmitter with an empty queue is sent at once. What is sent are the
  -- characters of kind, length, payload and check in that order (R152, R165): the kind code of the frame, marked, and
  -- the rest unmarked, each with an even number of ones among data, mark and parity bits.
  (∀ (s : State) (f : TxFrame),
    (s.port.sending = none → s.port.txQueue = [] → s.offerFrame f =
      { s with port := { s.port with sending := some f, sent := f.characters, sendStart := s.timeBase } }) ∧
    f.characters.map (·.data) = frameBytes f.kind.code f.payload ∧
    f.characters.map (·.mark) = true :: List.replicate (f.payload.length + 3) false ∧
    (∀ c ∈ f.characters, 2 ∣ ((List.range 8).filter c.data.getLsbD).length + c.mark.toNat + c.parity.toNat) ∧
    f.kind.code = (match f.kind with | .reply => 0x41 | .report => 0x42 | .digest => 0x43 | .notice => 0x44)) ∧
  -- R160 and R162: when the last stop bit has been sent the transmitter takes the next frame of the queue, in order,
  -- or becomes idle; and if the frame was the reply DONE of the pending RESET, that reply has now been sent.
  (∀ (s : State) (t : Time) (f : TxFrame), s.port.sending = some f →
    Machine.exec (.frameSent t) s = .next (State.driveLines
    { s with
      timeBase := max s.timeBase t
      port := { s.port with
        sending := s.port.txQueue.head?
        sent := (s.port.txQueue.head?.map TxFrame.characters).getD s.port.sent
        txQueue := s.port.txQueue.tail
        sendStart := if s.port.txQueue = [] then s.port.sendStart else max s.timeBase t
        resetReplySent := s.port.resetReplySent || (s.port.resetPending && f.answersReset) } })) ∧
  -- Section 10.2.1, Table 10-4: states, qualities, modes and causes are numbered in the order of their tables, and a
  -- set by its bits.
  ([FloorState.halted, .starting, .normal, .degraded, .single].map FloorState.code = List.range 5 ∧
    [LinkState.disabled, .ok, .failed].map LinkState.code = List.range 3 ∧
    [Quality.unset, .good, .stale, .bad, .forced].map Quality.code = List.range 5 ∧
    [BurnerState.off, .purge, .ignition, .lightoff, .run, .lockout].map BurnerState.code = List.range 6 ∧
    [FuelState.out, .ready, .feeding, .held, .fault].map FuelState.code = List.range 5 ∧
    [Mode.auto, .manual].map Mode.code = List.range 2 ∧
    [CoolerState.stopped, .starting, .running, .safe].map CoolerState.code = List.range 4 ∧
    [RunState.idle, .stroking, .stalled].map RunState.code = List.range 3 ∧
    [AlarmState.normal, .raised, .held, .returned, .shelved, .suppressed].map AlarmState.code = List.range 6 ∧
    [ResetCause.power, .pin, .commanded].map ResetCause.code = List.range 3 ∧
    [CloseCause.scheduled, .commanded, .reset].map CloseCause.code = List.range 3 ∧
    (∀ c : CauseSet, c.code = c.lineA.toNat + 2 * c.lineB.toNat + 4 * c.quorum.toNat) ∧
    (∀ h : HoldSet, h.code = h.alarm.toNat + 2 * h.quorum.toNat + 4 * h.silence.toNat + 8 * h.cooler.toNat) ∧
    (∀ f : Floor, f.presenceBytes.length = 8 ∧
      (∀ st : Fin 60, (f.presenceBytes.getD (st.val / 8) 0).getLsbD (st.val % 8) = (f.stations[st]).present) ∧
      ∀ n, 4 ≤ n → (f.presenceBytes.getD 7 0).getLsbD n = false)) ∧
  -- R161, Table 10-4: the 233 bytes of a digest, with the HORN and TRIP lines as R131 and R132 demand them and the
  -- top vector and raised counts of R130.
  (∀ (s : State) (code : Nat → Byte), (∀ n, code n = BitVec.ofNat 8 n) →
    s.digestPayload = beBytes 4 s.floor.roundNo.toNat ++
      [code s.floor.state.code, code s.floor.causes.code,
        code (s.floor.linkA.state.code + 4 * s.floor.linkB.state.code)] ++
      s.floor.presenceBytes ++
      [code s.topVector, code (s.raisedCount 1), code (s.raisedCount 2), code (s.raisedCount 3),
        code (s.raisedCount 4), code (s.hornDemanded.toNat + 2 * s.tripDemanded.toNat)] ++
      (List.finRange 3).flatMap (fun b => code (s.burners[b]).state.code :: beBytes 4 (s.burners[b]).demand ++
        beBytes 4 (s.burners[b]).undelivered ++ beBytes 4 (s.burners[b]).excess ++
        [code (s.burners[b]).hold.code]) ++
      (List.finRange 6).flatMap (fun l => code (s.lines[l]).state.code :: code (s.lines[l]).mode.code ::
        beBytes 2 (s.lines[l]).feed) ++
      [code s.cooler.state.code] ++
      (List.finRange 4).flatMap (fun g => code (s.cooler.runs[g]).state.code :: beBytes 2 (s.cooler.runs[g]).rate) ++
      (List.finRange 16).flatMap (fun i => match s.port.digestList[i] with
        | some e => if e.inUse = true then
            beInt 4 (s.points[e.point]).value ++ [code (s.pointQuality e.point).code] else [0, 0, 0, 0, 0]
        | none => [0, 0, 0, 0, 0]) ++
      [s.port.counts.good, s.port.counts.stray, s.port.counts.truncated, s.port.counts.badLength,
        s.port.counts.parity, s.port.counts.framing, s.port.counts.noise, s.port.counts.overrun,
        s.port.counts.badCheck, s.port.counts.idle, s.port.counts.breaks, s.port.counts.rxOverrun,
        s.port.counts.noticesLost].flatMap (fun n => beBytes 4 n.toNat) ++
      [code s.port.resetCause.code] ∧
    s.digestPayload.length = 233 ∧
    (s.alarm.raisedList = [] → s.topVector = 255) ∧
    (∀ a rest, s.alarm.raisedList = a :: rest → s.topVector = a.val) ∧
    (∀ n, s.raisedCount n =
      (s.alarm.raisedList.filter fun a => (s.alarmEntry? a).any fun e => e.priority == n).length) ∧
    (s.tripDemanded = true ↔ (∃ b : Fin 3, (s.burners[b]).state = .lockout) ∨
      ∃ a e, s.alarmEntry? a = some e ∧ e.trip = true ∧
        ((s.alarm.alarms[a]).state = .raised ∨ (s.alarm.alarms[a]).state = .held)) ∧
    (s.hornDemanded = true ↔ s.alarm.silenced = false ∧ ∃ a e, s.alarmEntry? a = some e ∧ e.horn = true ∧
      ((s.alarm.alarms[a]).state = .raised ∨ (s.alarm.alarms[a]).state = .returned)))

/-- R157, R166: how requests fare before their owner judges them, and how the items of a payload decode and make
arguments. -/
def Obligations.RequestsJudgedFirst : Prop :=
  -- R157, R166: how requests fare before their owner judges them. An unknown kind is UNKNOWN_KIND. Arguments that do
  -- not decode, repeat or lack a tag, or do not suit their field are BAD_FRAME, as are a payload without table and
  -- index and an entry that does not decode or suit its table; a payload without its request number is answered under
  -- some number (log entry 3). An object number outside its range is BAD_INDEX. A row whose kind is not the head's,
  -- or while the gate is closed, is no event (log entry 6). Nothing else changes. R165, R167: the reply is a REPLY
  -- frame of number, kind and result code, with the items that the answer carries.
  (∀ (s : State) (number kind : Byte) (args : List Byte),
    (s.offers kind number args → kind.toNat = 0 ∨ 37 < kind.toNat →
      Machine.exec .unknownKindRequest s = .next (s.popRequest.answered number kind { result := .unknownKind })) ∧
    (∀ row spec, (row, kind, spec) ∈ requestArgs → s.offers kind number args → readArgs spec args = none →
      Machine.exec row s = .next (s.popRequest.answered number kind { result := .badFrame })) ∧
    (∀ row spec low high is n, (row, kind, spec, low, high) ∈ objectArgs → s.offers kind number args →
      readArgs spec args = some is → intOf is 1 = some n → n < low ∨ high < n →
      Machine.exec row s = .next (s.popRequest.answered number kind { result := .badIndex })) ∧
    (s.offers 0x01#8 number args →
      args.length < 2 ∨ (∃ table index bytes, args = table :: index :: bytes ∧ (itemsOf bytes = none ∨
        ∃ is t, itemsOf bytes = some is ∧ tables[table.toNat]? = some t ∧ entrySuits t.fields is = false)) →
      Machine.exec .writeEntry s = .next (s.popRequest.answered number 0x01#8 { result := .badFrame })) ∧
    (args.length ≠ 2 →
      (s.offers 0x02#8 number args →
        Machine.exec .readEntry s = .next (s.popRequest.answered number 0x02#8 { result := .badFrame })) ∧
      (s.offers 0x03#8 number args →
        Machine.exec .clearEntry s = .next (s.popRequest.answered number 0x03#8 { result := .badFrame }))) ∧
    (∀ row, (row, kind) ∈ [(.writeEntry, 0x01), (.readEntry, 0x02), (.clearEntry, 0x03)] ++
        requestArgs.map (fun x => (x.1, x.2.1)) →
      (s.gateOpen = true → s.port.rxQueue.head? = some { kind := kind, payload := [] } → ∃ n : Byte,
        Machine.exec row s = .next (State.answered { s.popRequest with freeIndex := s.freeIndex + 1 } n kind
          { result := .badFrame })) ∧
      (s.gateOpen = false ∨ (∀ f, s.port.rxQueue.head? = some f → f.kind ≠ kind) →
        Machine.exec row s = .next s.driveLines)) ∧
    (s.gateOpen = true ↔ (s.port.txQueue.filter fun f => f.kind == .reply).length ≤ 1 ∧ s.port.resetPending = false) ∧
    (∀ a : Answer, s.reply number kind a =
      s.offerFrame { kind := .reply, payload := number :: kind :: BitVec.ofNat 8 a.result.code :: a.body }) ∧
    ([Result.done, .clamped, .passed, .blocked, .replaced, .badFrame, .unknownKind, .badIndex, .invalid, .inUse,
      .notPermitted, .notConfigured, .notAckable, .stale, .notFound].map Result.code = List.range 15) ∧
    ([CheckCode.state, .floor, .scanner, .permissive, .lines, .noLightoffLine, .alarm, .flame, .faultBit, .feeding,
      .presence, .station, .burner, .mode, .lineState, .cooler, .value, .owned, .filter, .queueFull].map CheckCode.code =
      List.range 20) ∧
    (∀ (r : Result) (c : CheckCode) (n : Nat) (i : Int),
      Answer.check r c = { result := r, body := [1, 4, BitVec.ofNat 8 c.code] } ∧
      Answer.checkObject r c n = { result := r, body := [1, 4, BitVec.ofNat 8 c.code] ++ itemInt 2 n } ∧
      Answer.clampedTo i = { result := .clamped, body := itemInt 1 i })) ∧
  -- R166, Table 10-2: a run of items. Each item is a tag, an encoding and a value; a byte that begins no whole item,
  -- an encoding that the table does not have, and a value, list or record that runs past the end leave nothing
  -- decoded.
  (∀ (tag : Byte) (rest : List Byte) (item : Value → Option (List Item)) (framed : List (List Byte) → List Byte),
    (∀ v, item v = (itemsOf rest).map fun is => { tag := tag.toNat, value := v } :: is) →
    (∀ rs, framed rs = rs.flatMap fun r => BitVec.ofNat 8 r.length :: r) →
    itemsOf [] = some [] ∧ itemsOf [tag] = none ∧
    (∀ b : Byte, itemsOf (tag :: 1#8 :: b :: rest) = item (.int b.toNat)) ∧
    (∀ bs, bs.length = 2 → itemsOf (tag :: 2#8 :: (bs ++ rest)) = item (.int (beSigned bs))) ∧
    (∀ bs, bs.length = 4 → itemsOf (tag :: 3#8 :: (bs ++ rest)) = item (.int (beSigned bs))) ∧
    (∀ bs, bs.length = 8 → itemsOf (tag :: 9#8 :: (bs ++ rest)) = item (.int (beNat bs))) ∧
    (∀ n : Byte, itemsOf (tag :: 4#8 :: n :: rest) = item (.enum n.toNat)) ∧
    (∀ bs : List Byte, bs.length < 256 → itemsOf (tag :: 5#8 :: BitVec.ofNat 8 bs.length :: (bs ++ rest)) =
      item (.ints (bs.map fun b => (b.toNat : Int)))) ∧
    (∀ ws : List (Byte × Byte), ws.length < 256 →
      itemsOf (tag :: 6#8 :: BitVec.ofNat 8 ws.length :: (ws.flatMap (fun w => [w.1, w.2]) ++ rest)) =
        item (.ints (ws.map fun w => beSigned [w.1, w.2]))) ∧
    (∀ bs : List Byte, bs.length < 256 → itemsOf (tag :: 7#8 :: BitVec.ofNat 8 bs.length :: (bs ++ rest)) =
      if (itemsOf bs).isSome then item (.record bs) else none) ∧
    (∀ rs : List (List Byte), rs.length < 256 → (∀ r ∈ rs, r.length < 256) →
      itemsOf (tag :: 8#8 :: BitVec.ofNat 8 rs.length :: (framed rs ++ rest)) =
        if ∀ r ∈ rs, (itemsOf r).isSome then item (.records rs) else none) ∧
    (∀ (enc : Byte) (bs : List Byte),
      enc = 0 ∨ 9 < enc.toNat ∨ bs = [] ∨ (enc = 2 ∧ bs.length < 2) ∨ (enc = 3 ∧ bs.length < 4) ∨
        (enc = 9 ∧ bs.length < 8) ∨ (enc = 5 ∧ bs.length < 1 + (bs.headD 0).toNat) ∨
        (enc = 6 ∧ bs.length < 1 + 2 * (bs.headD 0).toNat) ∨ (enc = 7 ∧ bs.length < 1 + (bs.headD 0).toNat) ∨
        (enc = 8 ∧ ∀ rs more, rs.length = (bs.headD 0).toNat → (∀ r ∈ rs, r.length < 256) →
          bs.tail ≠ framed rs ++ more) →
      itemsOf (tag :: enc :: bs) = none)) ∧
  -- R166, Table 10-3: the arguments of a request decode where its items do, no tag is given twice, every tag is one
  -- of the request's and carries an encoding that suits it, and no mandatory one is missing.
  ((∀ (args : List Arg) (bs : List Byte) (is : List Item), readArgs args bs = some is ↔
    itemsOf bs = some is ∧ (is.map (·.tag)).Nodup ∧
    (∀ i ∈ is, ∃ a, 1 ≤ i.tag ∧ args[i.tag - 1]? = some a ∧ a.kind.suits [] i.value = true) ∧
    ∀ n a, args[n]? = some a → a.mandatory = true → ∃ i ∈ is, i.tag = n + 1) ∧
  (∀ n : Nat, intArg = { kind := .int, mandatory := true } ∧ enumArg n = { kind := .enum n, mandatory := true }) ∧
  (∀ (is : List Item) (t : Nat), (is.map (·.tag)).Nodup →
    (∀ v : Value, valueOf is t = some v ↔ { tag := t, value := v } ∈ is) ∧
    (valueOf is t = none ↔ ∀ i ∈ is, i.tag ≠ t)) ∧
  (∀ (is : List Item) (t : Nat),
    (∀ i, intOf is t = some i ↔ valueOf is t = some (.int i)) ∧
    (∀ n, enumOf is t = some n ↔ valueOf is t = some (.enum n))))

/-! ### The tables (section 1.6) -/

/-- The three entry requests reach the owner of their table, and a read returns the entry as held, in items that read
back as that entry. -/
def Obligations.EntriesReadAndHandedOn : Prop :=
  -- WRITE_ENTRY, READ_ENTRY and CLEAR_ENTRY of a table id of R157 are handed to the table's owner, whose answer is
  -- the reply; any other table id is BAD_INDEX and changes nothing. What the owners do stands in the three statements
  -- below.
  (∀ (s : State) (number table index : Byte),
    (∀ (bytes : List Byte) (is : List Item), s.offers 0x01#8 number (table :: index :: bytes) →
      itemsOf bytes = some is →
      (∀ t, tables[table.toNat]? = some t → entrySuits t.fields is = true → Machine.exec .writeEntry s =
        .next ((t.write s.popRequest index.toNat is).1.answered number 0x01#8
          (t.write s.popRequest index.toNat is).2)) ∧
      (12 ≤ table.toNat → Machine.exec .writeEntry s =
        .next (s.popRequest.answered number 0x01#8 { result := .badIndex }))) ∧
    (s.offers 0x02#8 number [table, index] →
      (∀ t, tables[table.toNat]? = some t → Machine.exec .readEntry s =
        .next (s.popRequest.answered number 0x02#8 (t.read s.popRequest index.toNat))) ∧
      (12 ≤ table.toNat → Machine.exec .readEntry s =
        .next (s.popRequest.answered number 0x02#8 { result := .badIndex }))) ∧
    (s.offers 0x03#8 number [table, index] →
      (∀ t, tables[table.toNat]? = some t → Machine.exec .clearEntry s =
        .next ((t.clear s.popRequest index.toNat).1.answered number 0x03#8 (t.clear s.popRequest index.toNat).2)) ∧
      (12 ≤ table.toNat → Machine.exec .clearEntry s =
        .next (s.popRequest.answered number 0x03#8 { result := .badIndex })))) ∧
  -- READ_ENTRY returns the entry of each table as held, or no item for an empty entry; an index that the table does
  -- not have is BAD_INDEX.
  (∀ s : State,
    roundTable.read s 0 = { result := .done, body := itemOpt RoundTable.items s.floor.pendingCopy } ∧
    roundTable.read s 1 = { result := .done, body := itemOpt RoundTable.items s.floor.active } ∧
    (∀ p : Fin 256, pointTable.read s p.val =
      { result := .done, body := itemOpt PointEntry.items (s.points[p]).entry }) ∧
    (∀ b : Fin 3, burnerTable.read s (b.val + 1) =
      { result := .done, body := itemOpt BurnerEntry.items (s.burners[b]).entry }) ∧
    (∀ l : Fin 6, lineTable.read s (l.val + 1) =
      { result := .done, body := itemOpt LineEntry.items (s.lines[l]).entry }) ∧
    (∀ g : Fin 4, runTable.read s (g.val + 1) =
      { result := .done, body := itemOpt RunEntry.items (s.runAt g).entry }) ∧
    (∀ k : Fin 12, compartmentTable.read s (k.val + 1) =
      { result := .done, body := itemOpt CompartmentEntry.items (s.cooler.compartments[k]).entry }) ∧
    (∀ z : Fin 8, zoneTable.read s (z.val + 1) =
      { result := .done, body := itemOpt ZoneEntry.items (s.cooler.zones[z]).entry }) ∧
    (∀ i : Fin 32, filterTable.read s (i.val + 1) =
      { result := .done, body := itemOpt FilterEntry.items s.filters[i] }) ∧
    (∀ a : Fin 192, alarmTable.read s a.val =
      { result := .done, body := itemOpt AlarmEntry.items (s.alarmAt a).entry }) ∧
    (∀ g : Fin 4, groupTable.read s (g.val + 1) =
      { result := .done, body := itemOpt GroupEntry.items s.alarm.groups[g] }) ∧
    planTable.read s 1 =
      { result := .done, body := if s.shift.plan = [] then [] else planItems s.shift.plan } ∧
    (∀ i : Fin 16, digestTable.read s (i.val + 1) =
      { result := .done, body := itemOpt DigestEntry.items s.port.digestList[i] }) ∧
    (∀ n : Nat, (1 < n → roundTable.read s n = { result := .badIndex }) ∧
      (255 < n → pointTable.read s n = { result := .badIndex }) ∧
      (n = 0 ∨ 3 < n → burnerTable.read s n = { result := .badIndex }) ∧
      (n = 0 ∨ 6 < n → lineTable.read s n = { result := .badIndex }) ∧
      (n = 0 ∨ 4 < n → runTable.read s n = { result := .badIndex }) ∧
      (n = 0 ∨ 12 < n → compartmentTable.read s n = { result := .badIndex }) ∧
      (n = 0 ∨ 8 < n → zoneTable.read s n = { result := .badIndex }) ∧
      (n = 0 ∨ 32 < n → filterTable.read s n = { result := .badIndex }) ∧
      (191 < n → alarmTable.read s n = { result := .badIndex }) ∧
      (n = 0 ∨ 4 < n → groupTable.read s n = { result := .badIndex }) ∧
      (n = 0 ∨ 1 < n → planTable.read s n = { result := .badIndex }) ∧
      (n = 0 ∨ 16 < n → digestTable.read s n = { result := .badIndex }))) ∧
  -- R167, Table 10-2: items as the part spells them. An integer has the narrowest of the encodings 01H, 02H, 03H and
  -- 09H that holds it, a list 05H where its elements are bytes and 06H otherwise (log entry 24).
  ((∀ (t n : Nat) (i : Int),
    (0 ≤ i → i ≤ 255 → itemInt t i = BitVec.ofNat 8 t :: 1#8 :: beInt 1 i) ∧
    (-32768 ≤ i → i ≤ 32767 → (i < 0 ∨ 255 < i) → itemInt t i = BitVec.ofNat 8 t :: 2#8 :: beInt 2 i) ∧
    (-2147483648 ≤ i → i ≤ 2147483647 → (i < -32768 ∨ 32767 < i) →
      itemInt t i = BitVec.ofNat 8 t :: 3#8 :: beInt 4 i) ∧
    (2147483647 < i → itemInt t i = BitVec.ofNat 8 t :: 9#8 :: beInt 8 i) ∧
    itemEnum t n = [BitVec.ofNat 8 t, 4, BitVec.ofNat 8 n]) ∧
  (∀ (t : Nat) (xs : List Int) (items : List Byte) (records : List (List Byte)),
    ((∀ x ∈ xs, 0 ≤ x ∧ x ≤ 255) → itemInts t xs =
      BitVec.ofNat 8 t :: 5#8 :: BitVec.ofNat 8 xs.length :: xs.flatMap (beInt 1)) ∧
    ((∃ x ∈ xs, x < 0 ∨ 255 < x) → itemInts t xs =
      BitVec.ofNat 8 t :: 6#8 :: BitVec.ofNat 8 xs.length :: xs.flatMap (beInt 2)) ∧
    itemRecord t items = BitVec.ofNat 8 t :: 7#8 :: BitVec.ofNat 8 items.length :: items ∧
    itemRecords t records = BitVec.ofNat 8 t :: 8#8 :: BitVec.ofNat 8 records.length ::
      records.flatMap fun r => BitVec.ofNat 8 r.length :: r) ∧
  (∀ (t : Nat) (i : Int), t < 256 → -2147483648 ≤ i → i < 2 ^ 64 →
    itemsOf (itemInt t i) = some [{ tag := t, value := .int i }])) ∧
  -- R166, R167: the items that READ_ENTRY sends of an entry read back as that entry, for every entry that some write
  -- spells: they decode, suit the fields of their table, are taken, and spell it.
  (RoundTrips roundFields buildRound RoundTable.items ∧ RoundTrips pointFields buildPoint PointEntry.items ∧
    RoundTrips burnerFields buildBurner BurnerEntry.items ∧ RoundTrips lineFields buildLine LineEntry.items ∧
    RoundTrips runFields buildRun RunEntry.items ∧
    RoundTrips compartmentFields buildCompartment CompartmentEntry.items ∧
    RoundTrips zoneFields buildZone ZoneEntry.items ∧ RoundTrips filterFields buildFilter FilterEntry.items ∧
    RoundTrips alarmFields buildAlarm AlarmEntry.items ∧ RoundTrips groupFields buildGroup GroupEntry.items ∧
    RoundTrips planFields buildPlan planItems ∧ RoundTrips digestFields buildDigest DigestEntry.items)

/-- The refusals of WRITE_ENTRY and CLEAR_ENTRY in the order of log entry 18, and the checks behind them: of the fields
(R3, R24, R42, R65, R90, R114, R119, R133, R141, R161, R166), and of the rest of the part. -/
def Obligations.EntryWritesRefused : Prop :=
  -- The refusals of WRITE_ENTRY and CLEAR_ENTRY: an index that the table does not have, an entry that its table does
  -- not take, and an object in use. Nothing changes.
  (∀ s : State,
    (∀ is, roundTable.write s 1 is = (s, { result := .notPermitted })) ∧
    roundTable.clear s 1 = (s, { result := .notPermitted }) ∧
    (∀ n is, 1 < n → roundTable.write s n is = (s, { result := .badIndex })) ∧
    (∀ n, 1 < n → roundTable.clear s n = (s, { result := .badIndex })) ∧
    (∀ is, entryTakes roundFields is = false ∨ buildRound is = none →
      roundTable.write s 0 is = (s, { result := .invalid })) ∧
    pointTable.Refuses s 256 0 buildPoint (fun _ _ => true) s.pointWriteBusy s.isScannerPoint ∧
    burnerTable.Refuses s 3 1 buildBurner s.burnerValid s.burnerBusy (fun b => (s.burners[b]).state != .off) ∧
    lineTable.Refuses s 6 1 buildLine s.lineValid (fun l _ => s.lineBusy l) s.lineBusy ∧
    runTable.Refuses s 4 1 buildRun s.runValid (fun g _ => s.runBusy g) s.runBusy ∧
    compartmentTable.Refuses s 12 1 buildCompartment s.compartmentValid (fun _ _ => s.coolerBusy)
      (fun _ => s.coolerBusy) ∧
    zoneTable.Refuses s 8 1 buildZone s.zoneValid (fun _ _ => false) (fun _ => false) ∧
    filterTable.Refuses s 32 1 buildFilter s.filterValid (fun _ _ => false) (fun _ => false) ∧
    alarmTable.Refuses s 192 0 buildAlarm s.alarmValid (fun a _ => s.alarmBusy a) s.alarmBusy ∧
    groupTable.Refuses s 4 1 buildGroup (fun _ _ => true) (fun _ _ => false) (fun _ => false) ∧
    planTable.Refuses s 1 1 buildPlan (fun _ _ => true) (fun _ _ => false) (fun _ => false) ∧
    digestTable.Refuses s 16 1 buildDigest (fun _ _ => true) (fun _ _ => false) (fun _ => false)) ∧
  -- R166: what suits a field. An integer suits an integer field, an enumerator an enumerator field, a list a list
  -- field and a record a record field whose own known tags suit; the instance of an alarm source is an enumerator for
  -- LINE_FAILED and an integer otherwise (log entry 25).
  ((∀ (fields : List FieldKind) (is : List Item), entrySuits fields is = true ↔
    ∀ i ∈ is, ∀ k, 1 ≤ i.tag → fields[i.tag - 1]? = some k → k.suits i.value = true) ∧
  (∀ (is : List Item) (v : Value) (names : Nat),
    (SimpleKind.int.suits is v = true ↔ ∃ i, v = .int i) ∧
    ((SimpleKind.enum names).suits is v = true ↔ ∃ n, v = .enum n) ∧
    (SimpleKind.instanceNo.suits is v = true ↔ (enumOf is 3 = some 9 ∧ ∃ n, v = .enum n) ∨
      (enumOf is 3 ≠ some 9 ∧ ∃ i, v = .int i))) ∧
  (∀ (v : Value) (k : SimpleKind) (fields : List SimpleKind) (suit : List Byte → Prop),
    (∀ bs, suit bs ↔ ∀ is, itemsOf bs = some is → ∀ i ∈ is, ∀ x, 1 ≤ i.tag → fields[i.tag - 1]? = some x →
      x.suits is i.value = true) →
    (FieldKind.simple k).suits v = k.suits [] v ∧
    (FieldKind.ints.suits v = true ↔ ∃ xs, v = .ints xs) ∧
    ((FieldKind.record fields).suits v = true ↔ ∃ bs, v = .record bs ∧ suit bs) ∧
    ((FieldKind.records fields).suits v = true ↔ ∃ rs, v = .records rs ∧ ∀ bs ∈ rs, suit bs))) ∧
  -- R166: an entry is taken where no tag is unknown, none is given twice, and no enumerator is beyond the names of
  -- its field, in the entry itself and in each record of it.
  ((∀ (fields : List FieldKind) (is : List Item), entryTakes fields is = true ↔ (is.map (·.tag)).Nodup ∧
    ∀ i ∈ is, ∃ k, 1 ≤ i.tag ∧ fields[i.tag - 1]? = some k ∧ k.takes i.value = true) ∧
  (∀ (names n : Nat) (xs : List Int) (i : Int), (FieldKind.simple .int).takes (.int i) = true ∧
    ((FieldKind.simple (.enum names)).takes (.enum n) = true ↔ n < names) ∧
    FieldKind.ints.takes (.ints xs) = true) ∧
  (∀ (fields : List SimpleKind) (bs : List Byte) (rs : List (List Byte)) (take : List Byte → Prop),
    (∀ bs, take bs ↔ ∀ is, itemsOf bs = some is → (is.map (·.tag)).Nodup ∧
      ∀ i ∈ is, ∃ x, 1 ≤ i.tag ∧ fields[i.tag - 1]? = some x ∧
        ∀ names n, x = .enum names → i.value = .enum n → n < names) →
    ((itemsOf bs).isSome → ((FieldKind.record fields).takes (.record bs) = true ↔ take bs)) ∧
    ((∀ r ∈ rs, (itemsOf r).isSome) →
      ((FieldKind.records fields).takes (.records rs) = true ↔ ∀ r ∈ rs, take r))) ∧
  (∀ (source action permissive : List SimpleKind), source = [.enum 4, .int, .enum 16, .instanceNo] →
    action = [.enum 5, .int] → permissive = [.enum 3, .int, .int, .int] →
    roundTable.fields = [.ints, .ints, .simple .int, .simple .int, .simple .int, .simple .int, .simple .int] ∧
    pointTable.fields = List.replicate 3 (.simple .int) ++ .simple (.enum 5) :: List.replicate 7 (.simple .int) ∧
    burnerTable.fields = List.replicate 9 (.simple .int) ++ .simple (.enum 2) :: List.replicate 11 (.simple .int) ++
      [.records permissive] ∧
    lineTable.fields = .simple .int :: .simple (.enum 3) :: List.replicate 17 (.simple .int) ∧
    runTable.fields = List.replicate 12 (.simple .int) ∧ compartmentTable.fields = List.replicate 6 (.simple .int) ∧
    zoneTable.fields = List.replicate 5 (.simple .int) ∧
    filterTable.fields =
      [.simple .int, .simple .int, .simple (.enum 6), .simple (.enum 3), .simple .int, .simple .int] ∧
    alarmTable.fields = [.simple .int, .record source, .simple .int, .simple .int, .simple .int, .simple .int,
      .record action] ++ List.replicate 5 (.simple .int) ∧
    groupTable.fields = [.simple .int, .ints] ∧ planTable.fields = [.ints] ∧
    digestTable.fields = [.simple .int, .simple .int])) ∧
  -- R3, R90, R114, R133, R141, R161: the entry that a write of the round table, a compartment, a zone, a filter, a
  -- first-out group, the shift plan or the digest list spells, with the range of each field; items that spell none
  -- are refused.
  (∀ is : List Item,
    (∀ t : RoundTable, buildRound is = some t ↔
      valueOf is 1 = some (.ints (t.ordinary.map Int.ofNat)) ∧ (∀ x ∈ t.ordinary, 1 ≤ x ∧ x ≤ 60) ∧
      1 ≤ t.ordinary.length ∧ t.ordinary.length ≤ 56 ∧
      (valueOf is 2).getD (.ints []) = .ints (t.quick.map Int.ofNat) ∧ (∀ x ∈ t.quick, 1 ≤ x ∧ x ≤ 60) ∧
      t.quick.length ≤ 4 ∧ IntField is 3 t.gap 1 8 ∧ IntField is 4 t.period 5 50 ∧ IntField is 5 t.cmdSlots 1 16 ∧
      IntField is 6 t.quorum 1 56 ∧ IntField is 7 t.window 10 1000) ∧
    (∀ e : CompartmentEntry, buildCompartment is = some e ↔ FlagField is 1 e.inUse ∧ IntField is 2 e.station 1 60 ∧
      IntField is 3 e.base 0 1000 ∧ IntField is 4 e.safe 0 1000 ∧ IntField is 5 e.boost 0 1000 ∧
      OptObjectField is 6 1 e.zone) ∧
    (∀ e : ZoneEntry, buildZone is = some e ↔ FlagField is 1 e.inUse ∧ ObjectField is 2 0 e.point ∧
      IntField is 3 e.delta 1 500 ∧ IntField is 4 e.hysteresis 0 499 ∧ e.hysteresis < e.delta ∧
      IntField is 5 e.persist 1 50) ∧
    (∀ e : FilterEntry, buildFilter is = some e ↔ FlagField is 1 e.inUse ∧ IntField is 2 e.station 1 60 ∧
      (∃ n, enumOf is 3 = some n ∧ [CommandKind.feed, .dose, .igniter, .stroke, .fan, .rate][n]? = some e.kind) ∧
      match e.action with
      | .pass => enumOf is 4 = some 0 ∧ NoField is 5 ∧ NoField is 6
      | .clamp lo hi => enumOf is 4 = some 1 ∧ IntField is 5 lo 0 65535 ∧ IntField is 6 hi 0 65535 ∧ lo ≤ hi
      | .block => enumOf is 4 = some 2 ∧ NoField is 5 ∧ NoField is 6) ∧
    (∀ e : GroupEntry, buildGroup is = some e ↔ FlagField is 1 e.inUse ∧
      (valueOf is 2).getD (.ints []) = .ints (e.points.map fun p => (p.val : Int)) ∧ e.points.length ≤ 4) ∧
    (∀ plan : List Nat, buildPlan is = some plan ↔ valueOf is 1 = some (.ints (plan.map Int.ofNat)) ∧
      1 ≤ plan.length ∧ plan.length ≤ 4 ∧ plan.Pairwise (· < ·) ∧ ∀ m ∈ plan, m ≤ 1439) ∧
    (∀ e : DigestEntry, buildDigest is = some e ↔ FlagField is 1 e.inUse ∧ ObjectField is 2 0 e.point)) ∧
  -- R24, R65, R90: the entry that a write of a point, a fuel line or a run spells. A COUNTER16 or FLAGS16 point has
  -- the range 0 to 65535 and holds tags 5, 6 and 9 as absent; a line has the fields of its kind and none of another.
  (∀ is : List Item,
    (∀ e : PointEntry, buildPoint is = some e ↔ FlagField is 1 e.inUse ∧ IntField is 2 e.station 1 60 ∧
      IntField is 3 e.field 0 7 ∧
      (∃ n, enumOf is 4 = some n ∧ [RawKind.u12, .u16, .s16, .counter16, .flags16][n]? = some e.kind) ∧
      IntField is 10 e.fresh 1 255 ∧
      (e.kind = .u12 ∨ e.kind = .u16 ∨ e.kind = .s16 → (∃ gain, e.gain = some gain ∧ IntField is 5 gain (-32768) 32767) ∧
        (∃ offset, e.offset = some offset ∧ IntField is 6 offset (-2147483648) 2147483647) ∧
        IntField is 7 e.low (-2147483648) 2147483647 ∧ IntField is 8 e.high (-2147483648) 2147483647 ∧
        e.low < e.high ∧ (∃ shift, e.shift = some shift ∧ IntField is 9 shift 0 7) ∧ e.incLimit = none ∧
        NoField is 11) ∧
      (e.kind = .counter16 ∨ e.kind = .flags16 → e.gain = none ∧ e.offset = none ∧ e.low = 0 ∧ e.high = 65535 ∧
        e.shift = none ∧ (∃ x, OptField is 5 x (-32768) 32767) ∧
        (∃ x, OptField is 6 x (-2147483648) 2147483647) ∧ (∃ x, OptField is 7 x 0 0) ∧
        (∃ x, OptField is 8 x 65535 65535) ∧ (∃ x, OptField is 9 x 0 7)) ∧
      (e.kind = .counter16 → ∃ limit, e.incLimit = some limit ∧ IntField is 11 limit 1 65535) ∧
      (e.kind = .flags16 → e.incLimit = none ∧ NoField is 11)) ∧
    (∀ e : LineEntry, buildLine is = some e ↔ FlagField is 1 e.inUse ∧ ObjectField is 3 1 e.burner ∧
      IntField is 4 e.station 1 60 ∧ ObjectField is 6 0 e.flagPoint ∧ IntField is 7 e.flagBit 0 15 ∧
      IntField is 18 e.absenceLimit 1 255 ∧ IntField is 19 e.refresh 1 255 ∧
      match e.kind with
      | .continuous m tolerance window => enumOf is 2 = some 0 ∧ MeteringFields is m ∧
          IntField is 16 tolerance 1 100 ∧ IntField is 17 window 5 300 ∧ NoField is 14 ∧ NoField is 15
      | .piece m mass gap => enumOf is 2 = some 1 ∧ MeteringFields is m ∧ IntField is 14 mass 1 200 ∧
          IntField is 15 gap 1000 600000 ∧ m.fmax ≤ mass * 3600000 / gap ∧ NoField is 16 ∧ NoField is 17
      | .ignition => enumOf is 2 = some 2 ∧ NoField is 5 ∧ ∀ t, 8 ≤ t → t ≤ 17 → NoField is t) ∧
    (∀ e : RunEntry, buildRun is = some e ↔ FlagField is 1 e.inUse ∧ IntField is 2 e.station 1 60 ∧
      ObjectField is 3 0 e.counter ∧ ObjectField is 4 0 e.pressure ∧ IntField is 5 e.pressureSet 0 20000 ∧
      IntField is 6 e.baseRate 1 300 ∧ IntField is 7 e.gain (-3000) 3000 ∧ IntField is 8 e.minRate 1 300 ∧
      IntField is 9 e.maxRate 1 300 ∧ IntField is 10 e.safeRate 1 300 ∧ e.minRate ≤ e.safeRate ∧
      e.safeRate ≤ e.maxRate ∧ IntField is 11 e.strokeMass 0 5000 ∧ IntField is 12 e.timeoutFactor 2 8)) ∧
  -- R42, R119: the entry that a write of a burner or an alarm spells. A permissive without its kind or its running
  -- field is refused (log entry 43).
  (∀ is : List Item,
    (∀ e : BurnerEntry, buildBurner is = some e ↔ FlagField is 1 e.inUse ∧ ObjectField is 2 0 e.scanner1.intensity ∧
      ObjectField is 3 0 e.scanner1.flicker ∧
      (match e.scanner2 with
        | some x => ObjectField is 4 0 x.intensity ∧ ObjectField is 5 0 x.flicker
        | none => NoField is 4 ∧ NoField is 5) ∧
      IntField is 6 e.onThreshold (-2147483648) 2147483647 ∧ IntField is 7 e.offThreshold (-2147483648) 2147483647 ∧
      e.offThreshold < e.onThreshold ∧ IntField is 8 e.flickerLow 0 1000 ∧ IntField is 9 e.flickerHigh 0 1000 ∧
      e.flickerLow ≤ e.flickerHigh ∧ enumOf is 10 = some (if e.vote = .any then 0 else 1) ∧
      IntField is 11 e.confirmCount 1 8 ∧ IntField is 12 e.failureCount 1 8 ∧ IntField is 13 e.purgeTime 30 900 ∧
      IntField is 14 e.ignitionTrial 3 15 ∧ IntField is 15 e.lightoffTime 5 120 ∧
      IntField is 16 e.lightoffFeed 1 60000 ∧
      (match e.ignition with
        | .line l => ObjectField is 17 1 l ∧ NoField is 18 ∧ NoField is 19
        | .selfPoint p v => NoField is 17 ∧ ObjectField is 18 0 p ∧ IntField is 19 v 0 2000 ∧
            e.ignitionTrial < e.lightoffTime) ∧
      IntField is 20 e.maxDemand 1 150000 ∧ IntField is 21 e.demandRamp 1 20000 ∧ e.permissives.length ≤ 6 ∧
      ∃ records, (valueOf is 22).getD (.records []) = .records records ∧
        List.Forall₂ (fun bs p => PermissiveFields (innerItems bs) p) records e.permissives) ∧
    (∀ e : AlarmEntry, buildAlarm is = some e ↔ FlagField is 1 e.inUse ∧ IntField is 5 e.priority 1 4 ∧
      IntField is 6 e.onDelay 0 600000 ∧ FlagField is 8 e.horn ∧ FlagField is 9 e.trip ∧
      OptObjectField is 10 0 e.parent ∧ OptObjectField is 11 1 e.group ∧ FlagField is 12 e.shelving ∧
      ∃ source action, valueOf is 2 = some (.record source) ∧ valueOf is 7 = some (.record action) ∧
        SourceFields is (innerItems source) e.source ∧ ActionFields (innerItems action) e.action) ∧
    (∀ bs read, itemsOf bs = some read → innerItems bs = read)) ∧
  -- What the checks of a write against the rest of the part ask (R25, R42, R43, R65, R66, R90, R114, R119, R120).
  (∀ s : State,
    (∀ p e, s.pointWriteBusy p e = true ↔
      (∃ b x y, s.burnerEntry? b = some x ∧ (y = x.scanner1 ∨ x.scanner2 = some y) ∧
        (y.intensity = p ∨ y.flicker = p) ∧ (s.burners[b]).state ≠ .off) ∨
      (s.isScannerPoint p = true ∧ (e.inUse = false ∨ e.kind.scaled = false ∨
        ∃ y, (s.points[p]).entry = some y ∧ y.station ≠ e.station))) ∧
    (∀ p, s.isScannerPoint p = true ↔ ∃ b x y, s.burnerEntry? b = some x ∧ (y = x.scanner1 ∨ x.scanner2 = some y) ∧
      (y.intensity = p ∨ y.flicker = p)) ∧
    (∀ b e, s.burnerValid b e = true ↔
      (∀ x, x = e.scanner1 ∨ e.scanner2 = some x → ∃ i f, s.pointEntry? x.intensity = some i ∧
        s.pointEntry? x.flicker = some f ∧ i.kind.scaled = true ∧ f.kind.scaled = true ∧ i.station = f.station ∧
        s.onQuickList i.station = true) ∧
      (∀ l, e.ignition = .line l → ∃ le, s.lineEntry? l = some le ∧ le.burner = b ∧ le.kind = .ignition)) ∧
    (∀ b e, s.burnerBusy b e = true ↔ (s.burners[b]).state ≠ .off ∨ ∃ x, (x = e.scanner1 ∨ e.scanner2 = some x) ∧
      ((s.points[x.intensity]).quality = .forced ∨ (s.points[x.flicker]).quality = .forced)) ∧
    (∀ l e, s.lineValid l e = true ↔ (∃ p, s.pointEntry? e.flagPoint = some p ∧ p.kind = .flags16) ∧
      (∀ m, e.kind.metering? = some m → ∃ p, s.pointEntry? m.counter = some p ∧ p.kind = .counter16) ∧
      ∀ k x, k ≠ l → s.lineEntry? k = some x → x.station ≠ e.station ∧
        ∀ m m', e.kind.metering? = some m → x.kind.metering? = some m' → x.burner = e.burner →
          m.priority ≠ m'.priority) ∧
    (∀ l, s.lineBusy l = true ↔ s.lineEntry? l ≠ none ∧ (s.lines[l]).state ≠ .out) ∧
    (∀ g e, s.runValid g e = true ↔ (∃ p, s.pointEntry? e.counter = some p ∧ p.kind = .counter16) ∧
      (∃ p, s.pointEntry? e.pressure = some p ∧ p.kind.scaled = true) ∧
      ∀ k x, k ≠ g → s.runEntry? k = some x → x.station ≠ e.station) ∧
    (∀ g, s.runBusy g = true ↔ s.cooler.state ≠ .stopped ∨ 0 < (s.cooler.runs[g]).waiting) ∧
    (∀ k e, s.compartmentValid k e = true ↔
      ∀ j x, j ≠ k → s.compartmentEntry? j = some x → x.station ≠ e.station) ∧
    (s.coolerBusy = true ↔ s.cooler.state ≠ .stopped) ∧
    (∀ z e, s.zoneValid z e = true ↔ ∃ p, s.pointEntry? e.point = some p ∧ p.kind.scaled = true) ∧
    (∀ i e, s.filterValid i e = true ↔ (e.inUse = true → ∀ (j : Fin 32) x, j ≠ i → s.filters[j] = some x →
      x.inUse = true → x.station = e.station → x.kind ≠ e.kind)) ∧
    (∀ (a : Fin 192) (e : AlarmEntry) (next : Option (Fin 192) → Option (Fin 192)),
      (∀ p, next p = p.bind fun p => (s.alarm.alarms[p]).entry.bind (·.parent)) →
      (s.alarmValid a e = true ↔ ∀ n < 192, next^[n] e.parent ≠ some a)) ∧
    (∀ a, s.alarmBusy a = true ↔ ∃ e, s.alarmEntry? a = some e ∧ e.priority = 1 ∧
      ((s.alarm.alarms[a]).state = .raised ∨ (s.alarm.alarms[a]).state = .held ∨
        (s.alarm.alarms[a]).state = .suppressed) ∧
      ∃ b : Fin 3, (e.action = .tripBurner b ∨ e.action = .holdFuel b) ∧ (s.burners[b]).state ≠ .off) ∧
    (∀ k : RawKind, k.scaled = true ↔ k = .u12 ∨ k = .u16 ∨ k = .s16))

/-- The writes that are taken. The value reported with a fresh internal condition is log entry 23. -/
def Obligations.EntriesWritten : Prop :=
  -- The writes that the floor engine, the burner, fuel and cooler units, the filter, the group table and the digest
  -- list take: the entry is replaced, the object's dynamic fields are set as R3, R43, R66, R71, R90, R114, R133 and
  -- R161 say, and nothing else changes.
  (∀ (s : State) (is : List Item),
    (∀ t, entryTakes roundFields is = true → buildRound is = some t → roundTable.write s 0 is =
      ({ s with floor := { s.floor with pendingCopy := some t } }, Answer.ok)) ∧
    (∀ (b : Fin 3) e, entryTakes burnerFields is = true → buildBurner is = some e → s.burnerValid b e = true →
      s.burnerBusy b e = false → burnerTable.write s (b.val + 1) is =
      (s.modBurner b fun x =>
        { x with
          entry := some e, scanner1 := false, scanner2 := false, vote := false, presentRun := 0, absentRun := 0
          purgeAborts := 0, requested := min x.requested e.maxDemand
          permOk := if e.inUse then e.permissives.map fun p => s.permissiveMet p.kind else [] }, Answer.ok)) ∧
    (∀ (l : Fin 6) e, entryTakes lineFields is = true → buildLine is = some e → s.lineValid l e = true →
      s.lineBusy l = false → lineTable.write s (l.val + 1) is =
      (s.modLine l fun x =>
        { entry := some e, state := .out, mode := .auto, feed := 0, target := 0, igniter := false, dose := none,
          deviation := {}, refresh := 0, lostDoses := 0, faultCause := none, lifetime := x.lifetime }, Answer.ok)) ∧
    (∀ (g : Fin 4) e, entryTakes runFields is = true → buildRun is = some e → s.runValid g e = true →
      s.cooler.state = .stopped → (s.runAt g).waiting = 0 → runTable.write s (g.val + 1) is =
      (s.modRun g fun r =>
        { r with entry := some e, state := .idle, mode := .auto, manualRate := e.minRate, rate := 0, refresh := 0 },
        Answer.ok)) ∧
    (∀ (i : Fin 32) e, entryTakes filterFields is = true → buildFilter is = some e → s.filterValid i e = true →
      filterTable.write s (i.val + 1) is = ({ s with filters := s.filters.set i (some e) }, Answer.ok)) ∧
    (∀ (g : Fin 4) e, entryTakes groupFields is = true → buildGroup is = some e →
      groupTable.write s (g.val + 1) is =
      ({ s with alarm := { s.alarm with groups := s.alarm.groups.set g (some e) } }, Answer.ok)) ∧
    (∀ (i : Fin 16) e, entryTakes digestFields is = true → buildDigest is = some e →
      digestTable.write s (i.val + 1) is =
      ({ s with port := { s.port with digestList := s.port.digestList.set i (some e) } }, Answer.ok)) ∧
    (∀ p, entryTakes planFields is = true → buildPlan is = some p → planTable.write s 1 is =
      ({ s with shift := { s.shift with
          plan := p
          boundary := State.nextBoundary { s with shift := { s.shift with plan := p } }
          record := { s.shift.record with flags := { s.shift.record.flags with clockChanged := true } } } },
        Answer.ok))) ∧
  -- The writes whose consequences reach other units: of a point (R25, R37), whose consumers are told where it was not
  -- UNSET; of a compartment (R90, R96); of a zone (R90, R96, R105), whose red-river time is posted where no zone is
  -- active any more, and whose fans follow; and of an alarm (R120, R121), which keeps occurrence, times and last
  -- value, and which leaves a state other than NORMAL with the holds and a notice.
  (∀ (s : State) (is : List Item),
    (s.anyZoneActive = true ↔ ∃ z e, s.zoneEntry? z = some e ∧ (s.cooler.zones[z]).active = true) ∧
    (∀ (p : Fin 256) e, entryTakes pointFields is = true → buildPoint is = some e → s.pointWriteBusy p e = false →
      pointTable.write s p.val is = (State.finish (State.pointsChanged
        { s with
          points := s.points.set p
            { entry := some e, value := 0, quality := .unset, lastRaw := 0, lastRound := 0, implCount := 0,
              forced := none, implausible := false } }
        (if (s.points[p]).quality = .unset then [] else [p])), Answer.ok)) ∧
    (∀ (k : Fin 12) e, entryTakes compartmentFields is = true → buildCompartment is = some e →
      s.compartmentValid k e = true → s.cooler.state = .stopped →
      compartmentTable.write s (k.val + 1) is =
        (State.finish (if e.inUse = true ∧ (s.cooler.compartments[k]).speed ≠ 0 then
          (s.modCompartment k fun c => { c with entry := some e, speed := 0, refresh := 0 }).submit (.compartment k)
            { station := e.station, kind := .fan, value := 0, cls := .control, origin := .cooler }
          else s.modCompartment k fun c => { c with entry := some e, speed := 0 }), Answer.ok)) ∧
    (∀ (z : Fin 8) e, entryTakes zoneFields is = true → buildZone is = some e → s.zoneValid z e = true →
      ∀ emptied : State, emptied = { s with cooler := { s.cooler with
          zones := s.cooler.zones.set z
            { s.cooler.zones[z] with entry := some e, active := false, onRun := 0, offRun := 0 } } } →
        zoneTable.write s (z.val + 1) is =
          (State.finish ((List.finRange 12).foldl (fun t k => t.applyFan false k) (s.zoneLeft emptied)), Answer.ok)) ∧
    (∀ (a : Fin 192) e, entryTakes alarmFields is = true → buildAlarm is = some e → s.alarmValid a e = true →
      s.alarmBusy a = false →
      ∀ (fresh : Alarm) (left : State),
        fresh = { s.alarm.alarms[a] with
          entry := some e, state := .normal, condition := false, onDelay := none, shelve := none
          reported := match e.source with
            | .internal c => s.conditionValue c
            | _ => 0 } →
        left = { s with alarm := { s.alarm with
          alarms := s.alarm.alarms.set a fresh, raisedList := s.alarm.raisedList.filter (· ≠ a) } } →
        ((s.alarm.alarms[a]).state = .normal → alarmTable.write s a.val is =
          (State.finish { s with alarm := { s.alarm with alarms := s.alarm.alarms.set a fresh } }, Answer.ok)) ∧
        ((s.alarm.alarms[a]).state ≠ .normal → alarmTable.write s a.val is =
          ((left.reportAlarmHolds.notice a).finish, Answer.ok))))

/-- The clears that are taken: the entry is empty, the dynamic fields are set as by a write, and the consequences for
other units are those of a write. -/
def Obligations.ClearsEmptyEntries : Prop :=
  ∀ s : State,
    roundTable.clear s 0 = ({ s with floor := { s.floor with pendingCopy := none } }, Answer.ok) ∧
    (∀ p : Fin 256, s.isScannerPoint p = false → pointTable.clear s p.val = (State.finish
      (State.pointsChanged { s with points := s.points.set p {} }
        (if (s.points[p]).quality = .unset then [] else [p])), Answer.ok)) ∧
    (∀ b : Fin 3, (s.burners[b]).state = .off → burnerTable.clear s (b.val + 1) =
      (s.modBurner b fun x =>
        { x with
          entry := none, scanner1 := false, scanner2 := false, vote := false, presentRun := 0, absentRun := 0
          purgeAborts := 0, permOk := [] }, Answer.ok)) ∧
    (∀ l : Fin 6, s.lineBusy l = false → lineTable.clear s (l.val + 1) =
      (s.modLine l fun x => { lifetime := x.lifetime }, Answer.ok)) ∧
    (∀ g : Fin 4, s.cooler.state = .stopped → (s.runAt g).waiting = 0 → runTable.clear s (g.val + 1) =
      (s.modRun g fun r =>
        { r with entry := none, state := .idle, mode := .auto, manualRate := 0, rate := 0, refresh := 0 },
        Answer.ok)) ∧
    (∀ k : Fin 12, s.cooler.state = .stopped → compartmentTable.clear s (k.val + 1) =
      (s.modCompartment k fun c => { c with entry := none, speed := 0 }, Answer.ok)) ∧
    (∀ (z : Fin 8) (emptied : State), emptied = { s with cooler := { s.cooler with
        zones := s.cooler.zones.set z
          { s.cooler.zones[z] with entry := none, active := false, onRun := 0, offRun := 0 } } } →
      zoneTable.clear s (z.val + 1) =
        (State.finish ((List.finRange 12).foldl (fun t k => t.applyFan false k) (s.zoneLeft emptied)), Answer.ok)) ∧
    (∀ i : Fin 32, filterTable.clear s (i.val + 1) = ({ s with filters := s.filters.set i none }, Answer.ok)) ∧
    (∀ a : Fin 192, s.alarmBusy a = false → ∀ (fresh : Alarm) (left : State),
      fresh = { s.alarm.alarms[a] with
        entry := none, state := .normal, condition := false, onDelay := none, shelve := none, reported := 0 } →
      left = { s with alarm := { s.alarm with
        alarms := s.alarm.alarms.set a fresh, raisedList := s.alarm.raisedList.filter (· ≠ a) } } →
      ((s.alarm.alarms[a]).state = .normal → alarmTable.clear s a.val =
        (State.finish { s with alarm := { s.alarm with alarms := s.alarm.alarms.set a fresh } }, Answer.ok)) ∧
      ((s.alarm.alarms[a]).state ≠ .normal → alarmTable.clear s a.val =
        ((left.reportAlarmHolds.notice a).finish, Answer.ok))) ∧
    (∀ g : Fin 4, groupTable.clear s (g.val + 1) =
      ({ s with alarm := { s.alarm with groups := s.alarm.groups.set g none } }, Answer.ok)) ∧
    planTable.clear s 1 =
      ({ s with shift := { s.shift with
          plan := []
          boundary := none
          record := { s.shift.record with flags := { s.shift.record.flags with clockChanged := true } } } },
        Answer.ok) ∧
    (∀ i : Fin 16, digestTable.clear s (i.val + 1) =
      ({ s with port := { s.port with digestList := s.port.digestList.set i none } }, Answer.ok))

/-! ### Points (chapter 2) -/

/-- R26 to R32: what a word makes of an in-use point, and the rounding of section 1.5. -/
def Obligations.WordUpdatesPoint : Prop :=
  -- R26 to R32: what a word makes of an in-use point. A FORCED point keeps value and quality. A scaled value beyond
  -- the margin makes the point BAD with the value held; within it the clamped value goes through the filter. A
  -- FLAGS16 point takes the word. A counter that is GOOD forms the increment modulo 65536, which is implausible when
  -- it exceeds the limit times the rounds elapsed; an UNSET or STALE counter takes its baseline.
  (∀ (x : Point) (e : PointEntry) (w : Word16) (round : Count32),
    (x.quality = .forced → x.take e w round = { x with lastRaw := w, lastRound := round }) ∧
    (x.quality ≠ .forced → e.kind = .flags16 → x.take e w round =
      { x with value := w.toNat, quality := .good, lastRaw := w, lastRound := round }) ∧
    (∀ (raw scaled margin : Int), x.quality ≠ .forced →
      (e.kind = .u12 ∧ raw = (w.toNat / 16 : Nat) ∨ e.kind = .u16 ∧ raw = (w.toNat : Int) ∨
        e.kind = .s16 ∧ raw = w.toInt) →
      scaled = roundedDiv (raw * e.gain.getD 0) 1024 + e.offset.getD 0 → margin = (e.high - e.low).tdiv 16 →
      (scaled < e.low - margin ∨ e.high + margin < scaled → x.take e w round =
        { x with quality := .bad, lastRaw := w, lastRound := round }) ∧
      (e.low - margin ≤ scaled → scaled ≤ e.high + margin → x.take e w round =
        { x with
          value := filteredValue x.quality x.value (clampInt scaled e.low e.high) (e.shift.getD 0)
          quality := .good, lastRaw := w, lastRound := round })) ∧
    (e.kind = .counter16 →
      (x.quality = .unset ∨ x.quality = .stale →
        x.take e w round = { x with value := w.toNat, quality := .good, lastRaw := w, lastRound := round } ∧
          x.formed e w round = none) ∧
      (∀ (n elapsed : Nat), x.quality = .good → n = (w.toNat + 65536 - x.lastRaw.toNat) % 65536 →
        elapsed = (if round = x.lastRound then 1 else (round - x.lastRound).toNat) →
        (n ≤ e.incLimit.getD 0 * elapsed → x.take e w round =
          { x with
            value := w.toNat, quality := .good, lastRaw := w, lastRound := round, implausible := false } ∧
          x.formed e w round = some (n, true)) ∧
        (e.incLimit.getD 0 * elapsed < n → x.take e w round =
          { x with
            value := w.toNat, quality := .good, lastRaw := w, lastRound := round, implausible := true
            implCount := min 65535 (x.implCount + 1) } ∧
          x.formed e w round = some (n, false))))) ∧
  -- Section 1.5: a rounded quotient is a nearest integer, and of two it is the one farther from zero; R28 scales with
  -- it.
  (∀ (n : Int) (d : Nat), 0 < d →
    2 * (n - d * roundedDiv n d).natAbs ≤ d ∧
      (2 * (n - d * roundedDiv n d).natAbs = d → n.natAbs < d * (roundedDiv n d).natAbs))

/-- R29: the filter. A point that was not GOOD takes the clamped value. A GOOD point moves by the truncated share of the
difference, by at least one unit; it reaches a steady sample in finitely many updates, and never leaves a range that
holds both values. -/
def Obligations.FilterMovesTowardSample : Prop :=
  ∀ (v c low high : Int) (k : Nat),
    (∀ q : Quality, q = .unset ∨ q = .stale ∨ q = .bad → filteredValue q v c k = c) ∧
    ((c - v).tdiv (2 ^ k : Nat) ≠ 0 → filteredValue .good v c k = v + (c - v).tdiv (2 ^ k : Nat)) ∧
    ((c - v).tdiv (2 ^ k : Nat) = 0 → filteredValue .good v c k = v + (c - v).sign) ∧
    filteredValue .good v c 0 = c ∧
    (v < c → v + 1 ≤ filteredValue .good v c k ∧ filteredValue .good v c k ≤ c) ∧
    (c < v → c ≤ filteredValue .good v c k ∧ filteredValue .good v c k ≤ v - 1) ∧
    (∃ n : Nat, (fun x => filteredValue .good x c k)^[n] v = c) ∧
    (low ≤ v → v ≤ high → low ≤ c → c ≤ high →
      low ≤ filteredValue .good v c k ∧ filteredValue .good v c k ≤ high)

/-- R35, R36, R39: the requests that concern points. -/
def Obligations.ForceAndUnforce : Prop :=
  -- R35, R37: FORCE gives an in-use point the value clamped to its range, unless it is a counter or a scanner point;
  -- where value or quality changes, the consumers are told, and then the alarms follow.
  (∀ (s : State) (number : Byte) (args : List Byte) (is : List Item) (p : Fin 256) (v : Int),
    s.offers 0x09#8 number args → readArgs [intArg, intArg] args = some is → intOf is 1 = some (p.val : Int) →
    intOf is 2 = some v →
    (∀ e, s.pointEntry? p = some e → e.kind ≠ .counter16 → s.isScannerPoint p = false → ∀ held : Int,
      held = (if v < e.low then e.low else if e.high < v then e.high else v) →
      Machine.exec .force s = .next (State.answered (State.finish (State.pointsChanged
        { s.popRequest with
          points := s.points.set p { s.points[p] with value := held, forced := some held, quality := .forced } }
        (if (s.points[p]).quality = .forced ∧ (s.points[p]).value = held then [] else [p]))) number 0x09#8
        (if e.low ≤ v ∧ v ≤ e.high then Answer.ok else Answer.clampedTo held))) ∧
    (∀ e, s.pointEntry? p = some e → e.kind = .counter16 →
      Machine.exec .force s = .next (s.popRequest.answered number 0x09#8 { result := .invalid })) ∧
    (∀ e, s.pointEntry? p = some e → e.kind ≠ .counter16 → s.isScannerPoint p = true →
      Machine.exec .force s = .next (s.popRequest.answered number 0x09#8 { result := .inUse })) ∧
    (s.pointEntry? p = none →
      Machine.exec .force s = .next (s.popRequest.answered number 0x09#8 { result := .notConfigured }))) ∧
  -- R36, R37: UNFORCE of a FORCED point leaves it UNSET with its value held, and tells its consumers; of any other it
  -- is NOT_PERMITTED. R39: READ_POINT answers for every point with its dynamic fields and its age, and changes
  -- nothing.
  (∀ (s : State) (number : Byte) (args : List Byte) (is : List Item) (p : Fin 256),
    readArgs [intArg] args = some is → intOf is 1 = some (p.val : Int) →
    (s.offers 0x0A#8 number args →
      (s.pointQuality p = .forced → Machine.exec .unforce s = .next (State.answered (State.finish (State.pointsChanged
        { s.popRequest with points := s.points.set p { s.points[p] with forced := none, quality := .unset } } [p]))
        number 0x0A#8 Answer.ok)) ∧
      (s.pointQuality p ≠ .forced →
        Machine.exec .unforce s = .next (s.popRequest.answered number 0x0A#8 { result := .notPermitted }))) ∧
    (s.offers 0x0B#8 number args → Machine.exec .readPoint s =
      .next (s.popRequest.answered number 0x0B#8 { result := .done, body := s.pointItems p })) ∧
    s.pointItems p = itemInt 1 (s.points[p]).value ++ itemEnum 2 (s.pointQuality p).code ++
      itemInt 3 (s.points[p]).lastRaw.toNat ++ itemInt 4 (s.points[p]).lastRound.toNat ++
      itemInt 5 (s.points[p]).implCount ++
      (match (s.points[p]).forced with
        | some v => itemInt 6 v
        | none => []) ++
      itemInt 7 (if s.pointQuality p = .unset then 0
        else ((s.floor.roundNo - 1 - (s.points[p]).lastRound).toNat : Int)) ∧
    [Quality.unset, .good, .stale, .bad, .forced].map Quality.code = List.range 5)

/-- R38 and Table 7-4: the conditions of alarms. -/
def Obligations.AlarmConditionsFollowPoints : Prop :=
  -- R38: the condition of a limit alarm follows its point with the deadband while the point is GOOD or FORCED, and is
  -- kept otherwise; that of a quality alarm is the point's not being GOOD or FORCED. A point not in use is seen as
  -- UNSET.
  (∀ (s : State) (p : Fin 256) (h b v : Int) (old : Bool), v = (s.points[p]).value → 0 ≤ b →
    (s.pointQuality p = .good ∨ s.pointQuality p = .forced →
      (h ≤ v → s.sourceHolds (.pointHigh p h b) old = true) ∧
      (v < h - b → s.sourceHolds (.pointHigh p h b) old = false) ∧
      (h - b ≤ v → v < h → s.sourceHolds (.pointHigh p h b) old = old) ∧
      (v ≤ h → s.sourceHolds (.pointLow p h b) old = true) ∧
      (h + b < v → s.sourceHolds (.pointLow p h b) old = false) ∧
      (h < v → v ≤ h + b → s.sourceHolds (.pointLow p h b) old = old) ∧
      s.sourceHolds (.pointQuality p) old = false) ∧
    (s.pointQuality p = .unset ∨ s.pointQuality p = .stale ∨ s.pointQuality p = .bad →
      s.sourceHolds (.pointHigh p h b) old = old ∧ s.sourceHolds (.pointLow p h b) old = old ∧
        s.sourceHolds (.pointQuality p) old = true) ∧
    (s.pointEntry? p = none → s.pointQuality p = .unset)) ∧
  -- Table 7-4: the internal conditions, each with its present truth and the value it carries (R13, R15, R19, R32,
  -- R60, R83, R91, R102, R104, R112, R156). A condition for which the table names no value carries 1 while it is true
  -- and 0 otherwise.
  (∀ (s : State) (b : Fin 3) (l : Fin 6) (g : Fin 4) (z : Fin 8) (st : Fin 60) (p : Fin 256)
    (lockedOut : List LockoutCause → Prop) (carries : Condition → Int → Prop),
    (∀ cs, lockedOut cs ↔ (s.burners[b]).state = .lockout ∧ ∃ r, (s.burners[b]).lockout = some r ∧ r.cause ∈ cs) →
    (∀ c v, carries c v ↔ s.conditionValue c = v) →
    (s.conditionHolds (.flameFail b) = true ↔ lockedOut [.flameFail, .lightoffFail, .flameInPurge]) ∧
    (s.conditionHolds (.ignitionFail b) = true ↔ lockedOut [.ignitionFail, .noIgnitionSource]) ∧
    (s.conditionHolds (.burnerLockout b) = true ↔ (s.burners[b]).state = .lockout) ∧
    (s.conditionHolds (.lineFault l) = true ↔ (s.lines[l]).state = .fault) ∧
    (s.conditionHolds (.heatShortfall b) = true ↔ 0 < (s.burners[b]).undelivered) ∧
    (s.conditionHolds (.excessFire b) = true ↔ 0 < (s.burners[b]).excess) ∧
    (s.conditionHolds (.grateStall g) = true ↔ (s.cooler.runs[g]).state = .stalled) ∧
    (s.conditionHolds (.redRiver z) = true ↔ (s.cooler.zones[z]).active = true) ∧
    (s.conditionHolds .coolerSafe = true ↔ s.cooler.state = .safe) ∧
    (s.conditionHolds (.lineFailed .a) = true ↔ s.floor.linkA.state = .failed) ∧
    (s.conditionHolds (.lineFailed .b) = true ↔ s.floor.linkB.state = .failed) ∧
    (s.conditionHolds .quorumLost = true ↔ s.floor.causes.quorum = true) ∧
    (s.conditionHolds (.stationAbsent st) = true ↔
      (∃ t, s.floor.active = some t ∧ st.val + 1 ∈ t.ordinary ++ t.quick) ∧ 1 ≤ (s.floor.stations[st]).absence) ∧
    (s.conditionHolds (.stationMisplaced st) = true ↔ (s.floor.stations[st]).misplaced = true) ∧
    (s.conditionHolds .commandOverrun = true ↔ s.queue.overrun = true) ∧
    (s.conditionHolds .plantSilent = true ↔ s.port.silent = true) ∧
    (s.conditionHolds (.pointImplausible p) = true ↔ (s.points[p]).implausible = true) ∧
    (∀ (c : Condition) (old : Bool), s.sourceHolds (.internal c) old = s.conditionHolds c) ∧
    carries (.heatShortfall b) (s.burners[b]).undelivered ∧ carries (.excessFire b) (s.burners[b]).excess ∧
    carries (.redRiver z) (s.cooler.zones[z]).diff ∧ carries .quorumLost s.floor.presence ∧
    carries (.stationAbsent st) (s.floor.stations[st]).absence ∧ carries .commandOverrun s.queue.overruns.toNat ∧
    carries (.pointImplausible p) (s.points[p]).implCount ∧
    ∀ c ∈ [Condition.flameFail b, .ignitionFail b, .burnerLockout b, .lineFault l, .grateStall g, .coolerSafe,
      .lineFailed .a, .lineFailed .b, .stationMisplaced st, .plantSilent], carries c (s.conditionHolds c).toNat)

/-! ### The floor round (chapter 1) -/

/-- R4: the sweep with a priority interleave. Each ordinary group of G stations follows a quick group, the last group
may be shorter, an empty ordinary list has no slot, and the round takes 2 + S + C slot times. -/
def Obligations.RoundLayout : Prop :=
  ∀ (t : RoundTable), 0 < t.gap →
    (t.ordinary = [] → t.slots = []) ∧
    (∀ (group rest : List Nat), t.ordinary = group ++ rest → group.length = t.gap →
      t.slots = t.quick.map (fun x => (x, true)) ++ group.map (fun x => (x, false)) ++
        RoundTable.slots { t with ordinary := rest }) ∧
    (t.ordinary ≠ [] → t.ordinary.length ≤ t.gap →
      t.slots = t.quick.map (fun x => (x, true)) ++ t.ordinary.map (fun x => (x, false))) ∧
    t.slots.length = t.ordinary.length + t.quick.length * ((t.ordinary.length + t.gap - 1) / t.gap) ∧
    t.slotTimes = 2 + t.slots.length + t.cmdSlots

/-- R5 to R9: COMMIT_ROUND, and a new active copy taking effect. -/
def Obligations.CommitTakesEffect : Prop :=
  -- R5 to R8: COMMIT_ROUND. An empty copy is NOT_CONFIGURED, one that fails a check of its fields INVALID, one that
  -- would take a station away from a running function IN_USE. In HALTED the copy that passes takes effect at once.
  -- Otherwise it waits, and an earlier commit that waits is answered REPLACED.
  (∀ (s : State) (number : Byte), s.offers 0x04#8 number [] →
    (s.floor.pendingCopy = none →
      Machine.exec .commitRound s = .next (s.popRequest.answered number 0x04#8 { result := .notConfigured })) ∧
    (∀ t, s.floor.pendingCopy = some t →
      (¬ (t.ordinary.Nodup ∧ t.quick.Nodup ∧ (∀ x ∈ t.quick, x ∉ t.ordinary) ∧ t.quorum ≤ t.ordinary.length ∧
          t.slots.length + t.cmdSlots ≤ 128 ∧ (2 + t.slots.length + t.cmdSlots) * 64 ≤ t.period * 1000) →
        Machine.exec .commitRound s = .next (s.popRequest.answered number 0x04#8 { result := .invalid })) ∧
      (t.ordinary.Nodup → t.quick.Nodup → (∀ x ∈ t.quick, x ∉ t.ordinary) → t.quorum ≤ t.ordinary.length →
        t.slots.length + t.cmdSlots ≤ 128 → (2 + t.slots.length + t.cmdSlots) * 64 ≤ t.period * 1000 →
        (s.commitInUse t = true →
          Machine.exec .commitRound s = .next (s.popRequest.answered number 0x04#8 { result := .inUse })) ∧
        (s.commitInUse t = false → s.floor.state = .halted →
          Machine.exec .commitRound s = .next ((s.popRequest.activate t).finish.answered number 0x04#8 Answer.ok)) ∧
        (s.commitInUse t = false → s.floor.state ≠ .halted → Machine.exec .commitRound s =
          .next (State.driveLines { s.popRequest.answerCommit .replaced with
            floor := { s.floor with staged := some t }
            port := { (s.popRequest.answerCommit .replaced).port with deferredCommit := some number } }))))) ∧
  -- R5: what makes a commit IN_USE, unit by unit.
  (∀ (s : State) (t : RoundTable), s.commitInUse t = true ↔
    (∃ b e x st, s.burnerEntry? b = some e ∧ (s.burners[b]).state ≠ .off ∧ (x = e.scanner1 ∨ e.scanner2 = some x) ∧
      s.scannerStation x = some st ∧
      ((s.onActiveList st = true ∧ st ∉ t.stations) ∨ (s.onQuickList st = true ∧ st ∈ t.ordinary))) ∨
    (∃ l e, s.lineEntry? l = some e ∧ (s.lines[l]).state ≠ .out ∧ s.onActiveList e.station = true ∧
      e.station ∉ t.stations) ∨
    (s.cooler.state ≠ .stopped ∧
      ((∃ g e, s.runEntry? g = some e ∧ s.onActiveList e.station = true ∧ e.station ∉ t.stations) ∨
        ∃ k e, s.compartmentEntry? k = some e ∧ s.onActiveList e.station = true ∧ e.station ∉ t.stations))) ∧
  -- R9, R45: a new active copy. Stations on both copies keep their records and every other record is emptied; the
  -- quorum run counts are 0; the scanners of stations that leave the quick list are lost. The alarms follow with the
  -- event.
  (∀ (s : State) (t : RoundTable), ∃ u : State, s.activate t = u ∧
    { u.floor with stations := s.floor.stations } =
      { s.floor with active := some t, atQuorum := 0, belowQuorum := 0 } ∧
    (∀ i : Fin 60, i.val + 1 ∈ t.stations → s.onActiveList (i.val + 1) = true →
      u.floor.stations[i] = s.floor.stations[i]) ∧
    (∀ i : Fin 60, (i.val + 1 ∉ t.stations ∨ s.onActiveList (i.val + 1) = false) → u.floor.stations[i] = {}) ∧
    (∀ b e st, s.burnerEntry? b = some e → s.onQuickList st = true → st ∉ t.quick →
      (s.scannerStation e.scanner1 = some st → (u.burners[b]).scanner1 = false) ∧
      (∀ x, e.scanner2 = some x → s.scannerStation x = some st → (u.burners[b]).scanner2 = false)) ∧
    u.outer = State.outer { s with floor := u.floor } ∧
    ∀ gone : Nat → Bool, (∀ st, gone st = true ↔ s.onQuickList st = true ∧ st ∉ t.quick) →
      u = State.dropScanners { s with floor := { s.floor with
        active := some t, atQuorum := 0, belowQuorum := 0, stations := u.floor.stations } } gone)

/-- R7, R10, R34: the issue of a round mark and the work done at it (log entries 6 and 15). -/
def Obligations.RoundMarksIssued : Prop :=
  -- R10: ROUND_MARK, P ms after the last mark while rounds follow one another. A mark takes effect even while slots
  -- of the round before are open (log entry 15); in HALTED and SINGLE no mark comes about (log entry 6).
  (∀ s : State,
    (∀ t r, (s.floor.state = .starting ∨ s.floor.state = .normal ∨ s.floor.state = .degraded) →
      s.floor.active = some t → s.floor.round = some r → Machine.exec .roundMark s =
        .next (State.issueMark { s with timeBase := max s.timeBase (r.markTime + r.period) }).driveLines) ∧
    (s.floor.state = .halted ∨ s.floor.state = .single ∨ s.floor.active = none ∨ s.floor.round = none →
      Machine.exec .roundMark s = .next s.driveLines)) ∧
  -- R7, R10: the issue of a round mark. The refresh counts count the mark (log entry 15). The round number rises by
  -- 1, wrapping; a waiting commit is checked again and takes effect or is dropped, with its reply, and its alarms
  -- wait for the end of the mark (log entry 14); the round of the active copy is opened; then the other units do
  -- their work.
  (∀ (s v : State) (t : RoundTable), s.floor.active = some t →
    v = { s.countMark with floor := { s.floor with roundNo := s.floor.roundNo + 1, staged := none } } →
    (s.floor.staged = none → s.issueMark = (v.roundOpened t).markWork) ∧
    (∀ c, s.floor.staged = some c → v.commitInUse c = true →
      s.issueMark = ((v.answerCommit .inUse).roundOpened t).markWork) ∧
    (∀ c, s.floor.staged = some c → v.commitInUse c = false →
      s.issueMark = (((v.activate c).answerCommit .done).roundOpened c).markWork)) ∧
  -- R78, R96: a mark adds 1 to the refresh count of each in-use line that is not OUT, of each in-use run that is not
  -- IDLE and of each in-use compartment, and changes nothing else.
  (∀ s u : State, u = s.countMark →
    (∀ l : Fin 6, u.lines[l] = if s.lineEntry? l ≠ none ∧ (s.lines[l]).state ≠ .out then
      { s.lines[l] with refresh := (s.lines[l]).refresh + 1 } else s.lines[l]) ∧
    (∀ g : Fin 4, u.cooler.runs[g] = if s.runEntry? g ≠ none ∧ (s.cooler.runs[g]).state ≠ .idle then
      { s.cooler.runs[g] with refresh := (s.cooler.runs[g]).refresh + 1 } else s.cooler.runs[g]) ∧
    (∀ k : Fin 12, u.cooler.compartments[k] = if s.compartmentEntry? k ≠ none then
      { s.cooler.compartments[k] with refresh := (s.cooler.compartments[k]).refresh + 1 }
      else s.cooler.compartments[k]) ∧
    u = { s with
      lines := u.lines
      cooler := { s.cooler with runs := u.cooler.runs, compartments := u.cooler.compartments } }) ∧
  -- The other units' work at a mark, in the order of log entry 15: COMMAND_OVERRUN becomes false where no overrun has
  -- occurred since the mark before (R112); points age (R34); the demand step and the apportionment of each burner
  -- (R72 to R76), then ramp and refresh of each line (R77, R78); the law, the stall check and the refresh of each
  -- run, where the law is held no longer (R92, R96, R97, R102); the zones (R104); speed and refresh of each
  -- compartment (R96); the end of the event; and the digest (R161).
  (∀ (s q f c : State) (r : Round), s.floor.round = some r →
    q = { s with queue := { s.queue with
      overrun := s.queue.overrun && s.queue.overrunSinceMark, overrunSinceMark := false } } →
    f = (List.finRange 6).foldl (fun t l => (t.rampLine r.period l).refreshLine l)
      ((List.finRange 3).foldl (fun t b => (t.demandStep r.period b).apportionBurner b) q.agePoints) →
    c = (List.finRange 12).foldl (fun t k => (t.applyFan false k).refreshCompartment k)
      (State.evaluateZones ((List.finRange 4).foldl (fun t g => ((t.applyLaw g).checkStall g).refreshRun g)
        { f with cooler := { f.cooler with lawHeld := false } })) →
    s.markWork = c.finish.offerDigest ∧
      ∀ u : State, u.offerDigest = u.offerFrame { kind := .digest, payload := u.digestPayload }) ∧
  -- R34, R37: the aging of points at a mark. An in-use GOOD or BAD point whose age has reached its freshness limit
  -- becomes STALE, and its consumers are told of all such points; every other point, and all that no working unit
  -- changes on another's account, is left as it is.
  (∀ s u : State, u = s.markWork →
    (∀ (p : Fin 256) (e : PointEntry), s.pointEntry? p = some e →
      ((s.points[p]).quality = .good ∨ (s.points[p]).quality = .bad) →
      e.fresh ≤ (s.floor.roundNo - 1 - (s.points[p]).lastRound).toNat →
      u.points[p] = { s.points[p] with quality := .stale }) ∧
    (∀ p : Fin 256, (∀ e, s.pointEntry? p = some e →
        (s.floor.roundNo - 1 - (s.points[p]).lastRound).toNat < e.fresh) ∨
        (s.points[p]).quality = .unset ∨ (s.points[p]).quality = .stale ∨ (s.points[p]).quality = .forced →
      u.points[p] = s.points[p]) ∧
    u.outer = State.outer { s with points := u.points } ∧
    ∀ (stale : List (Fin 256)) (aged : State), stale.Pairwise (· < ·) →
      (∀ p : Fin 256, p ∈ stale ↔ ∃ e, s.pointEntry? p = some e ∧
        ((s.points[p]).quality = .good ∨ (s.points[p]).quality = .bad) ∧
        e.fresh ≤ (s.floor.roundNo - 1 - (s.points[p]).lastRound).toNat) →
      aged = { s with points := aged.points } →
      (∀ p : Fin 256, aged.points[p] =
        if p ∈ stale then { s.points[p] with quality := .stale } else s.points[p]) →
      s.agePoints = aged.pointsChanged stale)

/-- A station slot (log entries 6 and 46). -/
def Obligations.SlotOutcomesMerged : Prop :=
  -- R2, R11, R12: a station slot. The call goes out on each line of the round's set; each such line gets one outcome,
  -- which is counted, and posted where it is not GOOD; a disagreement is counted for the station; the merged outcome
  -- is handed on. Without a station slot to come the row has no effect (log entry 6).
  (∀ (s : State) (time : Time) (bytesA bytesB : List Byte),
    (∀ (r : Round) (st : Nat) (quick : Bool) (rest : List (Nat × Bool)) (a b : Option (SlotOutcome × List Word16)),
      s.floor.round = some r → r.slots = (st, quick) :: rest →
      a = (if r.onA then some (judgeBytes st bytesA) else none) →
      b = (if r.onB then some (judgeBytes st bytesB) else none) →
      Machine.exec (.slotOutcome time bytesA bytesB) s = .next (State.driveLines (State.handOn
        { s with
          timeBase := max s.timeBase time
          floor := Floor.modStation
            { s.floor with
              linkA := s.floor.linkA.slot (callFrame st) a
              linkB := s.floor.linkB.slot (callFrame st) b
              round := some { r with
                slots := rest
                slotsDone := r.slotsDone + 1
                accepted := if (mergeOutcomes a b).isSome then r.accepted ++ [st] else r.accepted
                foreign := if outcomeIs .foreign a || outcomeIs .foreign b then r.foreign ++ [st] else r.foreign
                goodA := r.goodA || outcomeIs .good a
                goodB := r.goodB || outcomeIs .good b } } st fun x =>
              { x with disagree := if outcomesDisagree a b then min 65535 (x.disagree + 1) else x.disagree }
          shift := { s.shift with record := { s.shift.record with
            lostA := lostAfter s.shift.record.lostA a
            lostB := lostAfter s.shift.record.lostB b } } }
        st quick (mergeOutcomes a b)))) ∧
    (s.floor.round = none ∨ (∃ r, s.floor.round = some r ∧ r.slots = []) →
      Machine.exec (.slotOutcome time bytesA bytesB) s = .next s.driveLines)) ∧
  -- R12: an answer is accepted when a line is GOOD, and then line A's words are taken if A is GOOD and line B's
  -- otherwise; without a GOOD line the slot is lost.
  (∀ (a b : Option (SlotOutcome × List Word16)) (v w : List Word16),
    (a = some (.good, v) → mergeOutcomes a b = some v) ∧
    (outcomeIs .good a = false → b = some (.good, w) → mergeOutcomes a b = some w) ∧
    (outcomeIs .good a = false → outcomeIs .good b = false → mergeOutcomes a b = none) ∧
    (outcomesDisagree a b = true ↔ ∃ x y, a = some (.good, x) ∧ b = some (.good, y) ∧ x ≠ y)) ∧
  -- R26, R45: what a merged slot is handed on as. An accepted answer changes the in-use points of its station whose
  -- field the answer reaches, and no other point; a lost slot of an ordinary station is no event for any unit.
  (∀ (s u : State) (st : Nat) (quick : Bool),
    s.handOn st false none = s ∧
    s.handOn st true none = (s.dropScanners (· == st)).finish ∧
    (∀ words : List Word16, u = s.handOn st quick (some words) →
      (∀ p e w, s.pointEntry? p = some e → e.station = st → words[e.field]? = some w →
        u.points[p] = (s.points[p]).take e w s.floor.roundNo) ∧
      (∀ p : Fin 256, (∀ e, s.pointEntry? p = some e → e.station ≠ st ∨ words.length ≤ e.field) →
        u.points[p] = s.points[p]) ∧
      u.outer = State.outer { s with points := u.points })) ∧
  -- R26, R31 to R33, R38, R44: how an accepted answer is handed on. Its points are taken whole; an implausible
  -- increment flags the record (R147); the consumers are told of the points that changed, in one list; the alarms
  -- settle; each kept increment is delivered to the lines and the runs; and in a quick slot the scanners are then
  -- judged, before the event ends.
  (∀ (s u : State) (st : Nat) (words : List Word16) (round : Count32) (changed : List (Fin 256))
    (increments : List (Fin 256 × Nat)), round = s.floor.roundNo →
    (∀ p e w, s.pointEntry? p = some e → e.station = st → words[e.field]? = some w →
      u.points[p] = (s.points[p]).take e w round) →
    (∀ p : Fin 256, (∀ e, s.pointEntry? p = some e → e.station ≠ st ∨ words.length ≤ e.field) →
      u.points[p] = s.points[p]) →
    (∀ flag : Bool, (flag = true ↔ ∃ p e w n, s.pointEntry? p = some e ∧ e.station = st ∧ words[e.field]? = some w ∧
        (s.points[p]).formed e w round = some (n, false)) →
      u = { s with
        points := u.points
        shift := { s.shift with record := { s.shift.record with flags := { s.shift.record.flags with
          countersImplausible := s.shift.record.flags.countersImplausible || flag } } } }) →
    changed.Pairwise (· < ·) →
    (∀ p : Fin 256, p ∈ changed ↔ (u.points[p]).quality ≠ (s.points[p]).quality ∨
      ((u.points[p]).value ≠ (s.points[p]).value ∧
        ((u.points[p]).quality = .good ∨ (u.points[p]).quality = .forced))) →
    (increments.map (·.1)).Pairwise (· < ·) →
    (∀ p n, (p, n) ∈ increments ↔ ∃ e w, s.pointEntry? p = some e ∧ e.station = st ∧ words[e.field]? = some w ∧
      (s.points[p]).formed e w round = some (n, true)) →
    s.takeAnswer st words =
      increments.foldl (fun t i => (t.deliverLines i.1 i.2).deliverRuns i.1 i.2) (u.pointsChanged changed).settle ∧
    s.handOn st false (some words) = (s.takeAnswer st words).finish ∧
    s.handOn st true (some words) =
      ((List.finRange 3).foldl (fun t b => t.scannerEvent st words.length b) (s.takeAnswer st words)).finish) ∧
  -- R37: who is told of changed points: the burner unit of its permissives on them, then the fuel unit of the fault
  -- bits (R84), then the cooler unit of the runs' pressures (R97), each in ascending number (log entry 46). Where one
  -- event loses several permissives of a burner they are taken in list order (log entry 48).
  (∀ (s : State) (changed : List (Fin 256)) (sel : PermKind → Bool),
    (∀ k, sel k = true ↔ ∃ p t, p ∈ changed ∧ (k = .pointAtLeast p t ∨ k = .pointAtMost p t)) →
    s.pointsChanged [] = s ∧
    (changed ≠ [] → s.pointsChanged changed =
      ((s.visitPermissives sel).checkFaultBits changed).pressureChanged changed) ∧
    (∀ sel' : PermKind → Bool, ∃ visit : State → Fin 3 → State,
      s.visitPermissives sel' = (List.finRange 3).foldl visit s ∧
      ∀ (t : State) (b : Fin 3), (t.burnerEntry? b = none → visit t b = t) ∧
        ∀ e, t.burnerEntry? b = some e → visit t b = e.permissives.zipIdx.foldl
          (fun t x => if sel' x.1.kind = true then t.visitPermissive b (x.2 + 1) x.1 else t) t) ∧
    (∃ law : State → Fin 4 → State, s.pressureChanged changed = (List.finRange 4).foldl law s ∧
      ∀ (t : State) (g : Fin 4),
        (∀ e, t.runEntry? g = some e → e.pressure ∈ changed → law t g = t.applyLaw g) ∧
        ((∀ e, t.runEntry? g = some e → e.pressure ∉ changed) → law t g = t)) ∧
    (∀ (p : Fin 256) (n : Nat), ∃ take : State → Fin 4 → State, s.deliverRuns p n = (List.finRange 4).foldl take s ∧
      ∀ (t : State) (g : Fin 4),
        (∀ e, t.runEntry? g = some e → e.counter = p → take t g = t.confirmStrokes g e n) ∧
        ((∀ e, t.runEntry? g = some e → e.counter ≠ p) → take t g = t))) ∧
  -- R33, R87: an increment of a delivered counter reaches every in-use CONTINUOUS or PIECE line that names the point,
  -- in ascending number: its lifetime totals and its account in the open record grow by the mass, the heat and the
  -- pieces of the increment, and while it is FEEDING the running second of its deviation check takes it (R85).
  (∀ (s : State) (p : Fin 256) (n : Nat), ∃ take : State → Fin 6 → State,
    s.deliverLines p n = (List.finRange 6).foldl take s ∧
    ∀ (t : State) (l : Fin 6),
      (∀ e m (mass pieces : Nat), t.lineEntry? l = some e → e.kind.metering? = some m → m.counter = p →
        (∀ m' tol win, e.kind = .continuous m' tol win → mass = n ∧ pieces = 0) →
        (∀ m' kg gap, e.kind = .piece m' kg gap → mass = n * kg * 10 ∧ pieces = n) →
        take t l =
          { t with
            lines := t.lines.set l { t.lines[l] with
              lifetime :=
                { mass := add64 (t.lines[l]).lifetime.mass mass
                  heat := add64 (t.lines[l]).lifetime.heat (mass * m.cv)
                  pieces := add64 (t.lines[l]).lifetime.pieces pieces }
              deviation :=
                if (t.lines[l]).state = .feeding ∧ e.kind.isContinuous = true then
                  { (t.lines[l]).deviation with increments := (t.lines[l]).deviation.increments + n }
                else (t.lines[l]).deviation }
            shift := { t.shift with record := { t.shift.record with
              lines := t.shift.record.lines.set l
                { mass := add64 (t.shift.record.lines[l]).mass mass
                  heat := add64 (t.shift.record.lines[l]).heat (mass * m.cv)
                  pieces := min top32 ((t.shift.record.lines[l]).pieces + pieces) } } } }) ∧
      ((∀ e m, t.lineEntry? l = some e → e.kind.metering? = some m → m.counter ≠ p) → take t l = t))

/-- R164: what arrives in a slot of a station is GOOD exactly when it is the answer frame of that station, with 0 to 8
words, and these are its words; nothing at all is SILENT. That an answer with bytes after its check is not GOOD is the
model's choice (log entry 29). -/
def Obligations.AnswerBytesJudged : Prop :=
  ∀ (st : Nat) (bytes : List Byte) (words : List Word16),
    (judgeBytes st bytes = (.good, words) ↔ words.length ≤ 8 ∧
      bytes = frameBytes 0x03#8 (BitVec.ofNat 8 st :: words.flatMap fun w => beBytes 2 w.toNat)) ∧
    ((judgeBytes st bytes).1 = .silent ↔ bytes = []) ∧
    ((judgeBytes st bytes).1 = .foreign ↔ ∃ (other : Nat) (ws : List Word16), judgeBytes other bytes = (.good, ws) ∧
      BitVec.ofNat 8 other ≠ BitVec.ofNat 8 st)

/-- R12, R13, R70, R84: the judgement of a round (log entry 6), and what faults a line for its station or its fault bit.
-/
def Obligations.RoundsJudged : Prop :=
  -- ROUND_JUDGEMENT: the round whose last station slot is known is judged once; the fuel unit is told of QUORUM (R70)
  -- and of the absence counters (R84). Before that, and after it, the row has no effect (log entry 6).
  (∀ s : State,
    (∀ r t, s.floor.round = some r → s.floor.active = some t → r.slots = [] → r.judged = false → ∃ u : State,
      Machine.exec .roundJudgement s = .next u.checkAbsences.finish.driveLines ∧
      State.HoldReported { s with floor := s.judgedFloor t r } u .quorum
        ((s.judgedFloor t r).state == .degraded && (s.judgedFloor t r).causes.quorum)) ∧
    (s.floor.round = none ∨ s.floor.active = none ∨
        (∃ r, s.floor.round = some r ∧ (r.slots ≠ [] ∨ r.judged = true)) →
      Machine.exec .roundJudgement s = .next s.driveLines)) ∧
  -- R12, R13: presence, absence counters and misplaced stations at a judgement.
  (∀ (s : State) (t : RoundTable) (r : Round) (f : Floor), f = s.judgedFloor t r →
    f.presence = (t.ordinary.filter fun st => decide (st ∈ r.accepted)).length ∧
    f.round = some { r with judged := true } ∧
    ∀ i : Fin 60, (f.stations[i]).disagree = (s.floor.stations[i]).disagree ∧
      ((f.stations[i]).misplaced = true ↔ i.val + 1 ∈ r.foreign) ∧
      (s.onActiveList (i.val + 1) = true → i.val + 1 ∈ r.accepted →
        (f.stations[i]).present = true ∧ (f.stations[i]).absence = 0) ∧
      (s.onActiveList (i.val + 1) = true → i.val + 1 ∉ r.accepted →
        (f.stations[i]).present = false ∧
          (f.stations[i]).absence = min 255 ((s.floor.stations[i]).absence + 1)) ∧
      (s.onActiveList (i.val + 1) = false → (f.stations[i]).present = (s.floor.stations[i]).present ∧
        (f.stations[i]).absence = (s.floor.stations[i]).absence)) ∧
  -- R84: at a judgement an in-use line whose station's absence counter has reached the line's absence limit is
  -- faulted ABSENT; and where the line's fault-flag point is among the changed points and its fault bit reads as set,
  -- the line is faulted FAULT_BIT. The lines are judged in ascending number.
  (∀ s : State,
    (∃ judge : State → Fin 6 → State, s.checkAbsences = (List.finRange 6).foldl judge s ∧
      ∀ (t : State) (l : Fin 6),
        (∀ e, t.lineEntry? l = some e → e.absenceLimit ≤ (t.floor.stationAt e.station).absence →
          judge t l = t.faultLine l .absent) ∧
        ((∀ e, t.lineEntry? l = some e → (t.floor.stationAt e.station).absence < e.absenceLimit) → judge t l = t)) ∧
    (∀ changed : List (Fin 256), ∃ judge : State → Fin 6 → State,
      s.checkFaultBits changed = (List.finRange 6).foldl judge s ∧
      ∀ (t : State) (l : Fin 6),
        (∀ e, t.lineEntry? l = some e → e.flagPoint ∈ changed → t.faultBitSet e = true →
          judge t l = t.faultLine l .faultBit) ∧
        ((∀ e, t.lineEntry? l = some e → e.flagPoint ∉ changed ∨ t.faultBitSet e = false) → judge t l = t)))

/-- R15: the health of a line at a judgement. A round without a GOOD slot is dead and counted. The fourth dead round in
a row makes an OK line FAILED, the eighth live one in a row makes a FAILED line OK, and both run counts start again. A
line outside the round's set is not judged. -/
def Obligations.LineHealthJudged : Prop :=
  ∀ (s : State) (t : RoundTable) (r : Round) (x : FloorLink) (dead : LinkStats),
    dead = { x.stats with dead := x.stats.dead + 1 } →
    (s.judgedFloor t r).linkA = (if r.onA then s.floor.linkA.judge r.goodA else s.floor.linkA) ∧
    (s.judgedFloor t r).linkB = (if r.onB then s.floor.linkB.judge r.goodB else s.floor.linkB) ∧
    (x.state = .ok → x.judge true = { x with deadRun := 0 }) ∧
    (x.state = .ok → x.deadRun < 3 → x.judge false = { x with deadRun := x.deadRun + 1, stats := dead }) ∧
    (x.state = .ok → 3 ≤ x.deadRun →
      x.judge false = { x with state := .failed, deadRun := 0, liveRun := 0, stats := dead }) ∧
    (x.state = .failed → x.judge false = { x with liveRun := 0, stats := dead }) ∧
    (x.state = .failed → x.liveRun < 7 → x.judge true = { x with liveRun := x.liveRun + 1 }) ∧
    (x.state = .failed → 7 ≤ x.liveRun → x.judge true = { x with state := .ok, deadRun := 0, liveRun := 0 })

/-- R18, R19: state, cause set and quorum run counts at a judgement. `f` is the floor after it; the line causes follow
the lines as judged. -/
def Obligations.FloorStateJudged : Prop :=
  ∀ (s : State) (t : RoundTable) (r : Round) (f : Floor) (p : Nat), f = s.judgedFloor t r → p = f.presence →
    ((s.floor.state = .halted ∨ s.floor.state = .single) → f.state = s.floor.state ∧ f.causes = s.floor.causes ∧
      f.atQuorum = s.floor.atQuorum ∧ f.belowQuorum = s.floor.belowQuorum ∧ f.startCount = s.floor.startCount) ∧
    ((s.floor.state = .starting ∨ s.floor.state = .normal ∨ s.floor.state = .degraded) →
      f.causes.lineA = (f.linkA.state == .failed) ∧ f.causes.lineB = (f.linkB.state == .failed) ∧
      (t.quorum ≤ p → f.atQuorum = min 3 (s.floor.atQuorum + 1) ∧ f.belowQuorum = 0) ∧
      (p < t.quorum → f.atQuorum = 0 ∧ f.belowQuorum = min 3 (s.floor.belowQuorum + 1))) ∧
    ((s.floor.state = .normal ∨ s.floor.state = .degraded) → f.startCount = s.floor.startCount ∧
      (f.belowQuorum = 3 → f.causes.quorum = true) ∧
      (f.atQuorum = 3 → f.causes.quorum = false) ∧
      (f.belowQuorum ≠ 3 → f.atQuorum ≠ 3 → f.causes.quorum = s.floor.causes.quorum) ∧
      f.state = if f.causes = {} then .normal else .degraded) ∧
    (s.floor.state = .starting → f.startCount = s.floor.startCount + 1 ∧
      (f.atQuorum = 3 → f.causes.quorum = s.floor.causes.quorum ∧
        f.state = if f.causes = {} then .normal else .degraded) ∧
      (f.atQuorum ≠ 3 → t.window ≤ f.startCount → f.causes.quorum = true ∧ f.state = .degraded) ∧
      (f.atQuorum ≠ 3 → f.startCount < t.window → f.causes.quorum = s.floor.causes.quorum ∧ f.state = .starting))

/-- R14, R113: a command slot sends the head of the command queue, its owner is told, and the last slot ends the round;
and the frames that the part sends on a floor line. -/
def Obligations.CommandSlotSendsHead : Prop :=
  -- R14, R113: a command slot of a judged round. The head of the command queue leaves it and goes out on each line of
  -- the round's set; an empty queue leaves the slot empty. After the last command slot the round ends. Without a
  -- judged round or without slots left the row has no effect (log entry 6).
  (∀ (s : State) (time : Time),
    (∀ (r : Round) (u : State), s.floor.round = some r → r.judged = true → 0 < r.cmdLeft →
      (s.queue.list = [] → u = { s with
        timeBase := max s.timeBase time
        floor := { s.floor with round := some { r with cmdLeft := r.cmdLeft - 1 } } }) →
      (∀ e rest, s.queue.list = e :: rest → u = State.tellSent { s with
        timeBase := max s.timeBase time
        floor := { s.floor with
          round := some { r with cmdLeft := r.cmdLeft - 1 }
          linkA := if r.onA then { s.floor.linkA with sent := commandFrame e } else s.floor.linkA
          linkB := if r.onB then { s.floor.linkB with sent := commandFrame e } else s.floor.linkB }
        queue := { s.queue with list := rest } } e) →
      Machine.exec (.commandSlot time) s = .next (if r.cmdLeft = 1 then u.endRound else u).driveLines) ∧
    (s.floor.round = none ∨ (∃ r, s.floor.round = some r ∧ (r.judged = false ∨ r.cmdLeft = 0)) →
      Machine.exec (.commandSlot time) s = .next s.driveLines)) ∧
  -- R113: what is told of a command that has been sent. A STROKE of COOLER origin is told to the run whose drive
  -- station it went to, if an in-use run has it; nobody is told of any other.
  (∀ (s : State) (e : QueueEntry),
    (e.kind = .stroke → e.origin = .cooler →
      (∀ g, s.commandRun e.station = some g → s.tellSent e = s.strokeSent g) ∧
      (s.commandRun e.station = none → s.tellSent e = s)) ∧
    (e.kind ≠ .stroke ∨ e.origin ≠ .cooler → s.tellSent e = s)) ∧
  -- Table 10-1: the three frames that the part sends on a floor line: the round mark with the low 16 bits of the
  -- round number, the period and the command slots; the call of a station; and a command with station, kind and
  -- value.
  (∀ (roundNo : Count32) (t : RoundTable) (st code : Nat) (e : QueueEntry),
    markFrame roundNo t = frameBytes 0x01#8 [BitVec.ofNat 8 (roundNo.toNat / 256), BitVec.ofNat 8 roundNo.toNat,
      BitVec.ofNat 8 t.period, BitVec.ofNat 8 t.cmdSlots] ∧
    callFrame st = frameBytes 0x02#8 [BitVec.ofNat 8 st] ∧
    ((e.kind, code) ∈ [(CommandKind.feed, 1), (.dose, 2), (.igniter, 3), (.stroke, 4), (.fan, 5), (.rate, 6)] →
      commandFrame e = frameBytes 0x04#8 [BitVec.ofNat 8 e.station, BitVec.ofNat 8 code,
        BitVec.ofNat 8 (e.value / 256), BitVec.ofNat 8 e.value]))

/-- R20, R21, R158, R161: what the end of a round settles, and the floor in HALTED. The order of digest and replies is
log entry 16. -/
def Obligations.RoundEnds : Prop :=
  -- R20, R21: what the end of a round settles. A single round halts the floor. A stop that waits halts it where that
  -- is still allowed, and is abandoned otherwise.
  (∀ s : State,
    (s.floor.state = .single → s.endRound = s.halt) ∧
    (s.floor.state ≠ .single → s.floor.stopWaiting = false → s.endRound = s) ∧
    (s.floor.state ≠ .single → s.floor.stopWaiting = true →
      (s.stopAllowed = true → s.endRound = s.halt) ∧
      (s.stopAllowed = false → s.endRound =
        State.answerStop { s with floor := { s.floor with stopWaiting := false } } .notPermitted)) ∧
    (s.stopAllowed = true ↔
      (∀ b e, s.burnerEntry? b = some e → (s.burners[b]).state = .off ∨ (s.burners[b]).state = .lockout) ∧
      (∀ l e, s.lineEntry? l = some e →
        ((s.lines[l]).state = .out ∨ (s.lines[l]).state = .ready) ∧ (s.lines[l]).feed = 0) ∧
      s.cooler.state = .stopped)) ∧
  -- R8, R20, R21, R123, R161: the halt, one event. The floor enters HALTED: the round is over, no stop waits, the
  -- cause set is empty and QUORUM withdrawn, and the digest timer starts; line states, run counts, presence and the
  -- round number are kept. A waiting commit is settled then. The alarms of both settle together, the digest is
  -- offered, and the replies that wait follow: SINGLE_ROUND's, the commit's, the stop's.
  (∀ s : State, ∃ halted : State,
    State.HoldReported
      { s with floor := { s.floor with
          state := .halted, causes := {}, round := none, stopWaiting := false
          haltTimer := some (s.timeBase + 1000) } } halted .quorum false ∧
    (s.floor.staged = none →
      s.halt = (halted.finish.offerDigest.answerSingle).answerStop .done) ∧
    (∀ (t : RoundTable) (taken : State), s.floor.staged = some t →
      taken = { halted with floor := { halted.floor with staged := none } } →
      (halted.commitInUse t = true →
        s.halt = ((taken.finish.offerDigest.answerSingle).answerCommit .inUse).answerStop .done) ∧
      (halted.commitInUse t = false →
        s.halt = (((taken.activate t).finish.offerDigest.answerSingle).answerCommit .done).answerStop .done))) ∧
  -- R158: a deferred reply is queued with the number of its request; with none waiting nothing is sent.
  (∀ (s : State) (n : Byte) (r : Result),
    (s.port.deferredCommit = some n → s.answerCommit r =
      State.reply { s with port := { s.port with deferredCommit := none } } n 0x04#8 { result := r }) ∧
    (s.port.deferredCommit = none → s.answerCommit r = s) ∧
    (s.port.deferredSingle = some n → s.answerSingle =
      State.reply { s with port := { s.port with deferredSingle := none } } n 0x07#8 { result := .done }) ∧
    (s.port.deferredSingle = none → s.answerSingle = s) ∧
    (s.port.deferredStop = some n → s.answerStop r =
      State.reply { s with port := { s.port with deferredStop := none } } n 0x08#8 { result := r }) ∧
    (s.port.deferredStop = none → s.answerStop r = s)) ∧
  -- R161: in HALTED the digest timer restarts every second and a digest is offered; otherwise the timer does not run.
  (∀ s : State,
    (∀ t, s.floor.haltTimer = some t →
      Machine.exec .haltedDigestTimerExpiry s = .next (State.driveLines (State.offerDigest
      { s with
        timeBase := max s.timeBase t
        floor := { s.floor with haltTimer := some (max s.timeBase t + 1000) } }))) ∧
    (s.floor.haltTimer = none → Machine.exec .haltedDigestTimerExpiry s = .next s.driveLines))

/-- R17, R20, R21: the requests that start and stop rounds. -/
def Obligations.RoundsStartAndStop : Prop :=
  -- R17, R20: START_ROUNDS and SINGLE_ROUND outside HALTED, without an active copy or with both lines DISABLED are
  -- refused; taken, they change the floor state, and the first mark is issued at once. The reply to SINGLE_ROUND
  -- waits.
  (∀ (s : State) (number : Byte),
    (s.floor.state ≠ .halted ∨ (s.floor.active ≠ none ∧ s.floor.linkA.state = .disabled ∧
        s.floor.linkB.state = .disabled) →
      (s.offers 0x06#8 number [] →
        Machine.exec .startRounds s = .next (s.popRequest.answered number 0x06#8 { result := .notPermitted })) ∧
      (s.offers 0x07#8 number [] →
        Machine.exec .singleRound s = .next (s.popRequest.answered number 0x07#8 { result := .notPermitted }))) ∧
    (s.floor.state = .halted → s.floor.active = none →
      (s.offers 0x06#8 number [] →
        Machine.exec .startRounds s = .next (s.popRequest.answered number 0x06#8 { result := .notConfigured })) ∧
      (s.offers 0x07#8 number [] →
        Machine.exec .singleRound s = .next (s.popRequest.answered number 0x07#8 { result := .notConfigured }))) ∧
    (s.floor.state = .halted → s.floor.active ≠ none →
      (s.floor.linkA.state ≠ .disabled ∨ s.floor.linkB.state ≠ .disabled) →
      (s.offers 0x06#8 number [] → Machine.exec .startRounds s = .next (State.answered (State.issueMark
        { s.popRequest with floor := { s.floor with
            state := .starting, startCount := 0, atQuorum := 0, belowQuorum := 0, haltTimer := none
            causes := { s.floor.causes with
              lineA := s.floor.linkA.state == .failed, lineB := s.floor.linkB.state == .failed } } })
        number 0x06#8 Answer.ok)) ∧
      (s.offers 0x07#8 number [] → Machine.exec .singleRound s = .next (State.driveLines (State.issueMark
        { s.popRequest with
          floor := { s.floor with state := .single, haltTimer := none }
          port := { s.popRequest.port with deferredSingle := some number } }))))) ∧
  -- R21: STOP_ROUNDS. It is refused in HALTED, while a stop waits, and, outside SINGLE, while something on the floor
  -- runs. Taken during a round it waits; taken after the last command slot it is settled at once.
  (∀ (s w : State) (number : Byte), s.offers 0x08#8 number [] →
    w = { s.popRequest with
      floor := { s.floor with stopWaiting := true }
      port := { s.popRequest.port with deferredStop := some number } } →
    (s.floor.state = .halted ∨ s.floor.stopWaiting = true ∨ (s.floor.state ≠ .single ∧ s.stopAllowed = false) →
      Machine.exec .stopRounds s = .next (s.popRequest.answered number 0x08#8 { result := .notPermitted })) ∧
    (s.floor.state = .single → s.floor.stopWaiting = false → Machine.exec .stopRounds s = .next w.driveLines) ∧
    (s.floor.state ≠ .halted → s.floor.state ≠ .single → s.floor.stopWaiting = false → s.stopAllowed = true →
      (∀ r, s.floor.round = some r → (r.judged = false ∨ r.cmdLeft ≠ 0) →
        Machine.exec .stopRounds s = .next w.driveLines) ∧
      (s.floor.round = none ∨ (∃ r, s.floor.round = some r ∧ r.judged = true ∧ r.cmdLeft = 0) →
        Machine.exec .stopRounds s = .next w.halt.driveLines)))

/-- R16: LINE_ENABLE. A DISABLED line turned on becomes OK with its run counts 0, an enabled one is left alone. A line
is not turned off while rounds run and the other line is DISABLED. A line turned off becomes DISABLED, and where rounds
run the cause set and the state follow. -/
def Obligations.LineEnabled : Prop :=
  ∀ (s : State) (number : Byte) (args : List Byte) (is : List Item) (x : LinkId),
    s.offers 0x05#8 number args → readArgs [enumArg 2, intArg] args = some is →
    enumOf is 1 = some (if x = .a then 0 else 1) →
    (intOf is 2 = some 1 → Machine.exec .lineEnable s = .next (State.answered
      { s.popRequest with floor := s.floor.modLink x fun k =>
          if k.state = .disabled then { k with state := .ok, deadRun := 0, liveRun := 0 } else k }
      number 0x05#8 Answer.ok)) ∧
    (intOf is 2 = some 0 → s.floor.state ≠ .halted → (s.floor.link x.other).state = .disabled →
      Machine.exec .lineEnable s = .next (s.popRequest.answered number 0x05#8 { result := .notPermitted })) ∧
    (intOf is 2 = some 0 → (s.floor.state = .halted ∨ (s.floor.link x.other).state ≠ .disabled) → ∃ f : Floor,
      Machine.exec .lineEnable s =
        .next ((State.finish { s.popRequest with floor := f }).answered number 0x05#8 Answer.ok) ∧
      f.link x = (if (s.floor.link x).state = .disabled then s.floor.link x
        else { s.floor.link x with state := .disabled, deadRun := 0, liveRun := 0 }) ∧
      f.link x.other = s.floor.link x.other ∧
      f.causes = (if s.floor.state.runs then
        { s.floor.causes with lineA := f.linkA.state == .failed, lineB := f.linkB.state == .failed }
        else s.floor.causes) ∧
      f.state = (if s.floor.state = .normal ∨ s.floor.state = .degraded then
        (if f.causes = {} then .normal else .degraded) else s.floor.state) ∧
      { f with linkA := s.floor.linkA, linkB := s.floor.linkB, causes := s.floor.causes, state := s.floor.state } =
        s.floor) ∧
    (∀ n, intOf is 2 = some n → n ≠ 0 → n ≠ 1 →
      Machine.exec .lineEnable s = .next (s.popRequest.answered number 0x05#8 { result := .invalid }))

/-! ### Burner supervision (chapter 3) -/

/-- R46: the flame vote, and what an evaluation does in each burner state. -/
def Obligations.FlameVote : Prop :=
  -- R46: the flame vote of the scanners configured, and the two runs, which saturate at 255.
  (∀ (x : Burner) (e : BurnerEntry) (vote : Bool),
    (e.scanner2 = none → vote = x.scanner1) → (e.scanner2 ≠ none → e.vote = .any → vote = (x.scanner1 || x.scanner2)) →
    (e.scanner2 ≠ none → e.vote = .all → vote = (x.scanner1 && x.scanner2)) →
    x.takeVote e = { x with
      vote := vote
      presentRun := if vote then min 255 (x.presentRun + 1) else 0
      absentRun := if vote then 0 else min 255 (x.absentRun + 1) }) ∧
  -- R46, R50, R52, R54, R55: what a vote evaluation does in the burner's state, where `x` is the burner with its vote
  -- and runs moved. Where no clause names an effect the evaluation moves vote and runs and does nothing more.
  (∀ (s v : State) (b : Fin 3) (e : BurnerEntry) (x : Burner), x = (s.burners[b]).takeVote e →
    v = { s with burners := s.burners.set b x } →
    (x.state = .purge → x.vote = true → x.presentRun = e.confirmCount →
      s.evaluateVote b e = v.enterLockout b .flameInPurge) ∧
    (x.state = .ignition → x.vote = true → x.presentRun = e.confirmCount → s.evaluateVote b e =
      State.enterLightoff
        { s with
          burners := s.burners.set b { x with confirmed := true, timer := none } } b e false) ∧
    (x.state = .lightoff → x.vote = true → x.presentRun = e.confirmCount → x.confirmed = false → s.evaluateVote b e =
      { s with
        burners := s.burners.set b { x with confirmed := true, trialInLightoff := none } }) ∧
    (x.state = .lightoff → x.vote = false → x.absentRun = e.failureCount → x.confirmed = true →
      s.evaluateVote b e = v.enterLockout b .lightoffFail) ∧
    (x.state = .run → x.vote = false → x.absentRun = e.failureCount →
      s.evaluateVote b e = v.enterLockout b .flameFail) ∧
    ((x.state = .off ∨ x.state = .lockout ∨
        (x.vote = true ∧ (x.presentRun ≠ e.confirmCount ∨ x.state = .run ∨
          (x.state = .lightoff ∧ x.confirmed = true))) ∨
        (x.vote = false ∧ (x.absentRun ≠ e.failureCount ∨ x.state = .purge ∨ x.state = .ignition ∨
          (x.state = .lightoff ∧ x.confirmed = false)))) →
      s.evaluateVote b e = v))

/-- R44, R45: scanners. -/
def Obligations.ScannersJudged : Prop :=
  -- R44: a scanner is PRESENT after an accepted answer of `n` words when both its points are GOOD and were updated by
  -- it, the intensity reaches the threshold that its state asks for, and the flicker lies within the band.
  (∀ (s : State) (e : BurnerEntry) (x : Scanner) (was : Bool) (n : Nat), s.judgeScanner e x was n = true ↔
    (∃ i f, s.pointEntry? x.intensity = some i ∧ s.pointEntry? x.flicker = some f ∧
      (s.points[x.intensity]).quality = .good ∧ (s.points[x.flicker]).quality = .good ∧ i.field < n ∧ f.field < n) ∧
    (if was then e.offThreshold else e.onThreshold) ≤ (s.points[x.intensity]).value ∧
    e.flickerLow ≤ (s.points[x.flicker]).value ∧ (s.points[x.flicker]).value ≤ e.flickerHigh) ∧
  -- R44 to R46: a scanner event reaches an in-use burner with a scanner on the station: each such scanner is judged,
  -- then the vote is evaluated once. Where stations lose their quick slots, each in-use burner with a scanner on one
  -- of them, in ascending number, takes these scanners as ABSENT and evaluates its vote once; another burner is left
  -- alone (log entry 21).
  (∀ (s : State) (b : Fin 3),
    (∀ (e : BurnerEntry) (st n : Nat), s.burnerEntry? b = some e →
      (s.scannerStation e.scanner1 = some st ∨ (∃ x, e.scanner2 = some x ∧ s.scannerStation x = some st)) →
      s.scannerEvent st n b = (s.modBurner b fun y =>
        { y with
          scanner1 := if s.scannerStation e.scanner1 = some st then s.judgeScanner e e.scanner1 y.scanner1 n
            else y.scanner1
          scanner2 := match e.scanner2 with
            | some x => if s.scannerStation x = some st then s.judgeScanner e x y.scanner2 n else y.scanner2
            | none => y.scanner2 }).evaluateVote b e) ∧
    (∀ st n : Nat, (∀ e, s.burnerEntry? b = some e → s.scannerStation e.scanner1 ≠ some st ∧
      ∀ x, e.scanner2 = some x → s.scannerStation x ≠ some st) → s.scannerEvent st n b = s) ∧
    (∀ (gone : Nat → Bool) (e : BurnerEntry), s.burnerEntry? b = some e →
      ((s.dropScanners gone).burners[b]).scanner1 =
        ((s.burners[b]).scanner1 && !(s.scannerStation e.scanner1).any gone) ∧
      ((s.dropScanners gone).burners[b]).scanner2 =
        ((s.burners[b]).scanner2 && !e.scanner2.any fun x => (s.scannerStation x).any gone)) ∧
    (∀ gone : Nat → Bool, ∃ drop : State → Fin 3 → State, s.dropScanners gone = (List.finRange 3).foldl drop s ∧
      ∀ (t : State) (b : Fin 3), (t.burnerEntry? b = none → drop t b = t) ∧
        ∀ (e : BurnerEntry) (lost : Scanner → Bool), t.burnerEntry? b = some e →
          (∀ x, lost x = true ↔ ∃ st, t.scannerStation x = some st ∧ gone st = true) →
          (lost e.scanner1 = false → (∀ x, e.scanner2 = some x → lost x = false) → drop t b = t) ∧
          (lost e.scanner1 = true ∨ (∃ x, e.scanner2 = some x ∧ lost x = true) → drop t b = State.evaluateVote
            { t with
              burners := t.burners.set b
                { t.burners[b] with
                  scanner1 := (t.burners[b]).scanner1 && !lost e.scanner1
                  scanner2 := (t.burners[b]).scanner2 && !e.scanner2.any lost } } b e)) ∧
    (∀ (x : Scanner) (st : Nat), s.scannerStation x = some st ↔
      ∃ e, (s.points[x.intensity]).entry = some e ∧ e.station = st))

/-- R56, R58, R59: the entry to LOCKOUT and the stop, with the commands of the lines in ascending number. -/
def Obligations.LockoutAndStop : Prop :=
  -- R58, R59, R62, R76: the entry to LOCKOUT, from any state and for any cause, and the stop of R56. The lines of the
  -- burner stop in ascending number, and their commands wait for the end of the event, in TRIP class at a lockout and
  -- in CONTROL class at a stop (log entries 20 and 37).
  (∀ (s : State) (b : Fin 3),
    (∀ (c : LockoutCause) (d : LockoutDetail), s.LockedOut (s.enterLockout b c d) b c d) ∧
    s.BurnerStopped (s.stopBurner b) b .off (s.burners[b]).lockout
      { s.shift.record.burners[b] with runTime := s.runTimeNow b } .control) ∧
  -- R56, R58, R79: what a stopping line queues: a FEED of 0 whatever its feed was; the igniter off always in TRIP
  -- class, and in CONTROL class where it was on (log entry 20).
  (∀ (s : State) (b : Fin 3) (c : CommandClass) (l : Fin 6) (e : LineEntry), s.lineEntry? l = some e → e.burner = b →
    (c = .trip ∨ c = .control) →
    (e.kind.isMetered = true → ∃ v : State, v.queue = s.queue ∧ (v.lines[l]).feed = 0 ∧
      s.stopLine b c l = v.submit (.line l)
        { station := e.station, kind := .feed, value := 0, cls := c, origin := .fuel }) ∧
    (e.kind.isMetered = false → s.ignitionLine b = some l → (c = .trip ∨ (s.lines[l]).igniter = true) →
      ∃ v : State, v.queue = s.queue ∧ (v.lines[l]).igniter = false ∧ s.stopLine b c l = v.submit (.line l)
        { station := e.station, kind := .igniter, value := 0, cls := c, origin := .fuel }) ∧
    (e.kind.isMetered = false → (s.ignitionLine b ≠ some l ∨ (c ≠ .trip ∧ (s.lines[l]).igniter = false)) →
      s.stopLine b c l = s))

/-- R57: TRIP_BURNER locks out a burner in PURGE, IGNITION, LIGHTOFF or RUN, naming the alarm; in OFF and LOCKOUT it has
no effect. -/
def Obligations.TripBurner : Prop :=
  ∀ (s : State) (b : Fin 3) (a : Fin 192),
    ((s.burners[b]).state ≠ .off → (s.burners[b]).state ≠ .lockout →
      s.LockedOut (s.tripBurner b a) b .alarmTrip { alarm := some a }) ∧
    ((s.burners[b]).state = .off ∨ (s.burners[b]).state = .lockout → s.tripBurner b a = s)

/-- R47 and the losses of R50, R52, R54, R55. -/
def Obligations.PermissiveLosses : Prop :=
  -- R47: a permissive that is computed again: its flag is the present truth, and a flag that falls is a loss.
  (∀ (s v : State) (b : Fin 3) (n : Nat) (p : Permissive), n < (s.burners[b]).permOk.length →
    v = { s with
      burners := s.burners.set b
        { s.burners[b] with permOk := (s.burners[b]).permOk.set n (s.permissiveMet p.kind) } } →
    (((s.burners[b]).permOk[n]? = some false ∨ s.permissiveMet p.kind = true) → s.visitPermissive b (n + 1) p = v) ∧
    ((s.burners[b]).permOk[n]? = some true → s.permissiveMet p.kind = false →
      s.visitPermissive b (n + 1) p = v.permissiveLost b (n + 1) p.running) ∧
    (∀ q t, (s.permissiveMet (.pointAtLeast q t) = true ↔ s.pointQuality q = .good ∧ t ≤ (s.points[q]).value) ∧
      (s.permissiveMet (.pointAtMost q t) = true ↔ s.pointQuality q = .good ∧ (s.points[q]).value ≤ t)) ∧
    (s.permissiveMet .coolerRunning = true ↔ s.cooler.state = .running)) ∧
  -- R50, R52, R54, R55: the loss of permissive `n`.
  (∀ (s : State) (b : Fin 3) (n : Nat) (running : Bool),
    ((s.burners[b]).state = .purge → State.LinesRuled
      { s with
        burners := s.burners.set b
          { s.burners[b] with
            state := .off, timer := none, trialInLightoff := none, confirmed := false, lightoffLine := none
            purgeAborts := min 65535 ((s.burners[b]).purgeAborts + 1) } } (s.permissiveLost b n running) b) ∧
    ((s.burners[b]).state = .ignition ∨ (s.burners[b]).state = .lightoff ∨
        ((s.burners[b]).state = .run ∧ running = true) →
      s.LockedOut (s.permissiveLost b n running) b .permissiveLost { permissive := some n }) ∧
    ((s.burners[b]).state = .off ∨ (s.burners[b]).state = .lockout ∨ ((s.burners[b]).state = .run ∧ running = false) →
      s.permissiveLost b n running = s))

/-- R53: the light-off line, and the entry to LIGHTOFF. -/
def Obligations.LightoffEntered : Prop :=
  -- R53: the light-off line is the eligible CONTINUOUS line of the burner with the lowest priority number.
  (∀ (s : State) (b : Fin 3),
    (∀ l, s.chooseLightoffLine b = some l → ∃ e m tol win, s.lineEntry? l = some e ∧ s.eligible b l = true ∧
      e.kind = .continuous m tol win ∧
      ∀ l' e' m' tol' win', s.lineEntry? l' = some e' → s.eligible b l' = true → e'.kind = .continuous m' tol' win' →
        m.priority ≤ m'.priority) ∧
    (s.chooseLightoffLine b = none → ∀ l e m tol win, s.lineEntry? l = some e → s.eligible b l = true →
      e.kind ≠ .continuous m tol win) ∧
    (∀ l, s.eligible b l = true ↔ ∃ e, s.lineEntry? l = some e ∧ e.burner = b ∧ e.kind.isMetered = true ∧
      (s.lines[l]).mode = .auto ∧ (s.lines[l]).state ≠ .out ∧ (s.lines[l]).state ≠ .fault)) ∧
  -- R53: the entry to LIGHTOFF. Without an eligible CONTINUOUS line it is a LOCKOUT; otherwise the burner enters
  -- LIGHTOFF with its timers, the line's feed is the light-off feed within its limits, and a FEED is queued in
  -- CONTROL class; the state of the line follows (R67), and its deviation check with that (R85).
  (∀ (s : State) (b : Fin 3) (e : BurnerEntry) (self : Bool),
    (s.chooseLightoffLine b = none → s.enterLightoff b e self = s.enterLockout b .noLightoffLine) ∧
    (∀ l le m, s.chooseLightoffLine b = some l → s.lineEntry? l = some le → le.kind.metering? = some m →
      ∃ v w : State, s.enterLightoff b e self = w.submit (.line l)
          { station := le.station, kind := .feed, value := clampNat e.lightoffFeed m.fmin m.fmax, cls := .control,
            origin := .fuel } ∧
        State.LinesRuled
          { s with
            burners := s.burners.set b
              { s.burners[b] with
                state := .lightoff, lightoffLine := some l
                timer := some (.lightoff, s.timeBase + e.lightoffTime * 1000)
                trialInLightoff := if self then some (s.timeBase + e.ignitionTrial * 1000) else none
                confirmed := if self then false else (s.burners[b]).confirmed
                presentRun := if self then 0 else (s.burners[b]).presentRun
                absentRun := if self then 0 else (s.burners[b]).absentRun } } v b ∧
        { w.lines[l] with state := .out } =
          { v.lines[l] with
            state := .out, deviation := (v.lines[l]).checkAfter (w.lines[l]).state s.timeBase
            feed := clampNat e.lightoffFeed m.fmin m.fmax, refresh := 0, dose := none } ∧
        (0 < clampNat e.lightoffFeed m.fmin m.fmax → (w.lines[l]).state = .feeding) ∧
        (∀ l', l' ≠ l → w.lines[l'] = v.lines[l']) ∧ { w with lines := v.lines } = v))

/-- R51, R79: the end of the purge and the igniter. -/
def Obligations.PurgeEnds : Prop :=
  -- R51: the end of the purge. With its ignition line in service the burner enters IGNITION: its runs are 0, its
  -- trial timer starts, and its igniter is commanded on. A self-ignition burner enters LIGHTOFF where the point is
  -- GOOD and reaches its threshold. Otherwise the burner enters LOCKOUT.
  (∀ (s w : State) (b : Fin 3) (e : BurnerEntry) (t : Time), s.burnerEntry? b = some e →
    (s.burners[b]).timer = some (.purge, t) → w = { s with timeBase := max s.timeBase t } →
    (∀ l, e.ignition = .line l →
      (s.ignitionLine b = some l → (s.lines[l]).state ≠ .out → (s.lines[l]).state ≠ .fault → ∃ v : State,
        Machine.exec (.purgeTimerExpiry b) s = .next (v.changeIgniter l true).finish.driveLines ∧
        State.LinesRuled
          { w with
            burners := s.burners.set b
              { s.burners[b] with
                state := .ignition, presentRun := 0, absentRun := 0
                timer := some (.trial, w.timeBase + e.ignitionTrial * 1000) } } v b) ∧
      ((s.ignitionLine b = none ∨ (s.lines[l]).state = .out ∨ (s.lines[l]).state = .fault) → ∃ v : State,
        Machine.exec (.purgeTimerExpiry b) s = .next v.finish.driveLines ∧ w.LockedOut v b .noIgnitionSource {})) ∧
    (∀ p v, e.ignition = .selfPoint p v →
      (s.pointQuality p = .good → v ≤ (s.points[p]).value → Machine.exec (.purgeTimerExpiry b) s =
        .next (w.enterLightoff b e true).finish.driveLines) ∧
      ((s.pointQuality p ≠ .good ∨ (s.points[p]).value < v) → ∃ v : State,
        Machine.exec (.purgeTimerExpiry b) s = .next v.finish.driveLines ∧ w.LockedOut v b .noIgnitionSource {}))) ∧
  -- R51, R79: an igniter is commanded when its state changes: an IGNITER in CONTROL class, with its refresh count 0;
  -- the state of the line follows (R67), and its deviation check with that (R85).
  (∀ (s : State) (l : Fin 6) (e : LineEntry) (on : Bool), s.lineEntry? l = some e →
    ((s.lines[l]).igniter = on → s.changeIgniter l on = s) ∧
    ((s.lines[l]).igniter ≠ on → ∃ w : State, s.changeIgniter l on = w.submit (.line l)
        { station := e.station, kind := .igniter, value := if on then 1 else 0, cls := .control, origin := .fuel } ∧
      { w.lines[l] with state := .out } =
        { s.lines[l] with
          state := .out, deviation := (s.lines[l]).checkAfter (w.lines[l]).state s.timeBase
          igniter := on, refresh := 0 } ∧
      ((s.lines[l]).state = .out ∨ (s.lines[l]).state = .fault → (w.lines[l]).state = (s.lines[l]).state) ∧
      ((s.lines[l]).state ≠ .out → (s.lines[l]).state ≠ .fault → (w.lines[l]).state = w.ruledState l e) ∧
      (∀ l', l' ≠ l → w.lines[l'] = s.lines[l']) ∧ { w with lines := s.lines } = s))

/-- R52, R54, R55: the expiry of the trial and light-off timers, and timers that do not run. -/
def Obligations.LightoffEnds : Prop :=
  -- R52, R54: the expiry of the ignition trial locks the burner out, in IGNITION and, while the mark is clear, in
  -- LIGHTOFF. A timer that does not run does not expire.
  (∀ (s : State) (b : Fin 3),
    (∀ t, (s.burners[b]).timer = some (.trial, t) ∨ ((∀ t', (s.burners[b]).timer ≠ some (.trial, t')) ∧
        (s.burners[b]).trialInLightoff = some t ∧ (s.burners[b]).confirmed = false) → ∃ v : State,
      Machine.exec (.ignitionTrialExpiry b) s = .next v.finish.driveLines ∧
        State.LockedOut { s with timeBase := max s.timeBase t } v b .ignitionFail {}) ∧
    ((∀ t, (s.burners[b]).timer ≠ some (.trial, t)) →
      ((s.burners[b]).trialInLightoff = none ∨ (s.burners[b]).confirmed = true) →
      Machine.exec (.ignitionTrialExpiry b) s = .next s.finish.driveLines)) ∧
  -- R54, R55, R62: the end of light-off. A burner whose mark is set enters RUN: its igniter is commanded off, its
  -- demand is the heat of the light-off line's feed, at most the max demand, and a start is posted.
  (∀ (s w : State) (b : Fin 3) (e : BurnerEntry) (t : Time), s.burnerEntry? b = some e →
    (s.burners[b]).timer = some (.lightoff, t) → w = { s with timeBase := max s.timeBase t } →
    ((s.burners[b]).confirmed = true → ∃ v u : State,
      Machine.exec (.lightoffTimerExpiry b) s = .next u.finish.driveLines ∧
      (∀ l, s.ignitionLine b = some l → v = w.changeIgniter l false) ∧ (s.ignitionLine b = none → v = w) ∧
      State.LinesRuled
        { v with
          burners := s.burners.set b
            { s.burners[b] with
              state := .run, timer := none, trialInLightoff := none, lightoffLine := none
              runPosted := w.timeBase, demand := s.demandFromLightoff b e }
          shift := { v.shift with record := { v.shift.record with
            burners := s.shift.record.burners.set b
              { s.shift.record.burners[b] with
                starts := min top32 ((s.shift.record.burners[b]).starts + 1) } } } } u b) ∧
    ((s.burners[b]).confirmed = false →
      Machine.exec (.lightoffTimerExpiry b) s = .next s.finish.driveLines) ∧
    (∀ l le m, (s.burners[b]).lightoffLine = some l → s.lineEntry? l = some le → le.kind.metering? = some m →
      s.demandFromLightoff b e = min e.maxDemand ((s.lines[l]).feed * m.cv / 3600))) ∧
  -- A timer of a burner, a fuel line or the cooler that does not run brings nothing about (log entry 5).
  (∀ s : State,
    (∀ b : Fin 3, (∀ t, (s.burners[b]).timer ≠ some (.purge, t)) →
      Machine.exec (.purgeTimerExpiry b) s = .next s.finish.driveLines) ∧
    (∀ b : Fin 3, (∀ t, (s.burners[b]).timer ≠ some (.lightoff, t)) →
      Machine.exec (.lightoffTimerExpiry b) s = .next s.finish.driveLines) ∧
    (∀ l : Fin 6, (s.lines[l]).dose = none →
      Machine.exec (.doseTimerExpiry l) s = .next s.finish.driveLines) ∧
    (∀ l : Fin 6, (s.lines[l]).deviation.timer = none →
      Machine.exec (.deviationTimerExpiry l) s = .next s.finish.driveLines) ∧
    (s.cooler.startTimer = none → Machine.exec .startTimerExpiry s = .next s.finish.driveLines) ∧
    (∀ g : Fin 4, (s.cooler.runs[g]).timer = none →
      Machine.exec (.strokeTimerExpiry g) s = .next s.finish.driveLines))

/-- R48, R49, R56, R61: the requests that concern burners. -/
def Obligations.BurnerRequests : Prop :=
  -- R48, R49: BURNER_START. The checks of Table 3-5 in their order, and the entry to PURGE of a start that passes.
  (∀ (s : State) (number : Byte) (args : List Byte) (is : List Item) (b : Fin 3)
    (refusal : Answer → Host.Outcome State Fault Refusal),
    s.offers 0x0C#8 number args → readArgs [intArg] args = some is → intOf is 1 = some (b.val + 1 : Int) →
    (∀ a, refusal a = .next (s.popRequest.answered number 0x0C#8 a)) →
    (s.burnerEntry? b = none → Machine.exec .burnerStart s = refusal { result := .notConfigured }) ∧
    (∀ e, s.burnerEntry? b = some e →
      ((s.burners[b]).state ≠ .off → Machine.exec .burnerStart s = refusal (Answer.check .notPermitted .state)) ∧
      ((s.burners[b]).state = .off → s.floor.state ≠ .normal →
        Machine.exec .burnerStart s = refusal (Answer.check .notPermitted .floor)) ∧
      ((s.burners[b]).state = .off → s.floor.state = .normal → s.scannersQuick e = false →
        Machine.exec .burnerStart s = refusal (Answer.check .notPermitted .scanner)) ∧
      ((s.burners[b]).state = .off → s.floor.state = .normal → s.scannersQuick e = true →
        (∀ n, (s.burners[b]).permOk[n]? = some false → (∀ m, m < n → (s.burners[b]).permOk[m]? ≠ some false) →
          Machine.exec .burnerStart s = refusal (Answer.checkObject .notPermitted .permissive (n + 1))) ∧
        ((∀ n : Nat, (s.burners[b]).permOk[n]? ≠ some false) →
          (s.linesOff b = false → Machine.exec .burnerStart s = refusal (Answer.check .notPermitted .lines)) ∧
          (s.linesOff b = true → s.chooseLightoffLine b = none →
            Machine.exec .burnerStart s = refusal (Answer.check .notPermitted .noLightoffLine)) ∧
          (s.linesOff b = true → s.chooseLightoffLine b ≠ none → ∀ a, s.burnerBlockedBy b = some a →
            Machine.exec .burnerStart s = refusal (Answer.checkObject .notPermitted .alarm a.val)) ∧
          (s.linesOff b = true → s.chooseLightoffLine b ≠ none → s.burnerBlockedBy b = none →
            (s.burners[b]).vote = true →
            Machine.exec .burnerStart s = refusal (Answer.check .notPermitted .flame)) ∧
          (s.linesOff b = true → s.chooseLightoffLine b ≠ none → s.burnerBlockedBy b = none →
            (s.burners[b]).vote = false → ∃ u : State,
            Machine.exec .burnerStart s = .next (u.answered number 0x0C#8 Answer.ok) ∧
            State.LinesRuled
              { s.popRequest with
                burners := s.burners.set b
                  { s.burners[b] with
                    state := .purge, presentRun := 0, absentRun := 0, confirmed := false, lightoffLine := none
                    trialInLightoff := none
                    timer := some (.purge, s.timeBase + e.purgeTime * 1000) } } u b))))) ∧
  -- R48: what the checks of Table 3-5 ask, and of the alarm checks of R48 and R61: the lowest-numbered in-use alarm
  -- of priority 1 that targets the burner and is RAISED, HELD or SUPPRESSED.
  (∀ (s : State) (b : Fin 3) (e : BurnerEntry),
    (s.scannersQuick e = true ↔ (∃ st, s.scannerStation e.scanner1 = some st ∧ s.onQuickList st = true) ∧
      ∀ x, e.scanner2 = some x → ∃ st, s.scannerStation x = some st ∧ s.onQuickList st = true) ∧
    (s.linesOff b = true ↔ (∀ l le, s.lineEntry? l = some le → le.burner = b → (s.lines[l]).feed = 0) ∧
      ∀ l, s.ignitionLine b = some l → (s.lines[l]).igniter = false) ∧
    (∀ l, s.ignitionLine b = some l ↔ ∃ be le, s.burnerEntry? b = some be ∧ be.ignition = .line l ∧
      s.lineEntry? l = some le ∧ le.burner = b ∧ le.kind = .ignition) ∧
    (∀ a, s.burnerBlockedBy b = some a ↔ (∀ a' ≤ a, (∃ x, s.alarmEntry? a' = some x ∧ x.priority = 1 ∧
      (x.action = .tripBurner b ∨ x.action = .holdFuel b) ∧ ((s.alarmAt a').state = .raised ∨
        (s.alarmAt a').state = .held ∨ (s.alarmAt a').state = .suppressed)) ↔ a' = a)) ∧
    (s.burnerBlockedBy b = none ↔ ∀ a x, s.alarmEntry? a = some x → x.priority = 1 →
      (x.action = .tripBurner b ∨ x.action = .holdFuel b) →
      (s.alarmAt a).state ≠ .raised ∧ (s.alarmAt a).state ≠ .held ∧ (s.alarmAt a).state ≠ .suppressed)) ∧
  -- R56: BURNER_STOP is taken in PURGE, IGNITION, LIGHTOFF and RUN. R61: BURNER_RESET is taken in LOCKOUT with the
  -- vote ABSENT and no alarm of R48's check 7.
  (∀ (s : State) (number : Byte) (args : List Byte) (is : List Item) (b : Fin 3),
    readArgs [intArg] args = some is → intOf is 1 = some (b.val + 1 : Int) →
    (s.offers 0x0D#8 number args →
      (s.burnerEntry? b = none →
        Machine.exec .burnerStop s = .next (s.popRequest.answered number 0x0D#8 { result := .notConfigured })) ∧
      (s.burnerEntry? b ≠ none → ((s.burners[b]).state = .off ∨ (s.burners[b]).state = .lockout) →
        Machine.exec .burnerStop s = .next (s.popRequest.answered number 0x0D#8 { result := .notPermitted })) ∧
      (s.burnerEntry? b ≠ none → (s.burners[b]).state ≠ .off → (s.burners[b]).state ≠ .lockout → ∃ u : State,
        Machine.exec .burnerStop s = .next (u.finish.answered number 0x0D#8 Answer.ok) ∧
        s.popRequest.BurnerStopped u b .off (s.burners[b]).lockout
          { s.shift.record.burners[b] with runTime := s.runTimeNow b } .control)) ∧
    (s.offers 0x0E#8 number args →
      (s.burnerEntry? b = none →
        Machine.exec .burnerReset s = .next (s.popRequest.answered number 0x0E#8 { result := .notConfigured })) ∧
      (s.burnerEntry? b ≠ none →
        ((s.burners[b]).state ≠ .lockout → Machine.exec .burnerReset s =
          .next (s.popRequest.answered number 0x0E#8 (Answer.check .notPermitted .state))) ∧
        ((s.burners[b]).state = .lockout → (s.burners[b]).vote = true → Machine.exec .burnerReset s =
          .next (s.popRequest.answered number 0x0E#8 (Answer.check .notPermitted .flame))) ∧
        ((s.burners[b]).state = .lockout → (s.burners[b]).vote = false → ∀ a, s.burnerBlockedBy b = some a →
          Machine.exec .burnerReset s =
            .next (s.popRequest.answered number 0x0E#8 (Answer.checkObject .notPermitted .alarm a.val))) ∧
        ((s.burners[b]).state = .lockout → (s.burners[b]).vote = false → s.burnerBlockedBy b = none → ∃ u : State,
          Machine.exec .burnerReset s = .next (u.finish.answered number 0x0E#8 Answer.ok) ∧
          State.LinesRuled
            { s.popRequest with
              burners := s.burners.set b { s.burners[b] with state := .off } } u b))))

/-! ### Fuel lines and heat (chapter 4) -/

/-- R71: SET_DEMAND stores the heat, at most the max demand, in every burner state; a negative heat is INVALID. -/
def Obligations.DemandStored : Prop :=
  ∀ (s : State) (number : Byte) (args : List Byte) (is : List Item) (b : Fin 3) (heat : Int),
    s.offers 0x0F#8 number args → readArgs [intArg, intArg] args = some is → intOf is 1 = some (b.val + 1 : Int) →
    intOf is 2 = some heat →
    (s.burnerEntry? b = none →
      Machine.exec .setDemand s = .next (s.popRequest.answered number 0x0F#8 { result := .notConfigured })) ∧
    (∀ e, s.burnerEntry? b = some e →
      (heat < 0 →
        Machine.exec .setDemand s = .next (s.popRequest.answered number 0x0F#8 { result := .invalid })) ∧
      (0 ≤ heat → heat ≤ e.maxDemand → Machine.exec .setDemand s = .next (State.answered
        { s.popRequest with
          burners := s.burners.set b { s.burners[b] with requested := heat.toNat } } number 0x0F#8 Answer.ok)) ∧
      (e.maxDemand < heat → Machine.exec .setDemand s = .next (State.answered
        { s.popRequest with
          burners := s.burners.set b { s.burners[b] with requested := e.maxDemand } } number 0x0F#8
        (Answer.clampedTo e.maxDemand))))

/-- R72 to R76: the demand step of a burner and the apportionment of its heat. -/
def Obligations.HeatIsBalanced : Prop :=
  -- R72, R73, R76: the demand step of a burner in RUN, and its apportionment. The heat assigned to the automatic
  -- lines, the manual heat and the undelivered heat together are the effective demand and the excess heat, of U and X
  -- one is 0, and each automatic line's target is its assigned heat as a feed, within its limits when it is not 0.
  (∀ (s : State) (b : Fin 3),
    (∀ (e : BurnerEntry) (period : Nat), s.burnerEntry? b = some e → (s.burners[b]).state = .run →
      ∃ d : Nat, s.demandStep period b = { s with burners := s.burners.set b { s.burners[b] with demand := d } } ∧
        ((s.burners[b]).requested ≤ (s.burners[b]).demand →
          d = max (s.burners[b]).requested ((s.burners[b]).demand - max 1 (e.demandRamp * period / 1000))) ∧
        ((s.burners[b]).demand < (s.burners[b]).requested → (s.burners[b]).hold.nonempty = false →
          d = min (s.burners[b]).requested ((s.burners[b]).demand + max 1 (e.demandRamp * period / 1000))) ∧
        ((s.burners[b]).demand < (s.burners[b]).requested → (s.burners[b]).hold.nonempty = true →
          d = (s.burners[b]).demand)) ∧
    ((s.burners[b]).state ≠ .run → ∀ period, s.demandStep period b = s ∧ s.apportionBurner b = s) ∧
    ((s.burners[b]).state = .run → ∃ (heat : Fin 6 → Nat) (r : Apportionment),
      r = apportion ((s.burners[b]).demand - s.manualHeat b) (s.burners[b]).hold.nonempty (s.eligibleSet b) ∧
      (∀ l a, (l, a) ∈ r.assigned → heat l = a) ∧ (∀ l, s.eligible b l = false → heat l = 0) ∧
      ((indices 6).map heat).sum + s.manualHeat b + ((s.apportionBurner b).burners[b]).undelivered =
        (s.burners[b]).demand + ((s.apportionBurner b).burners[b]).excess ∧
      (((s.apportionBurner b).burners[b]).undelivered = 0 ∨ ((s.apportionBurner b).burners[b]).excess = 0) ∧
      (∀ l e m, s.lineEntry? l = some e → e.burner = b → e.kind.metering? = some m → (s.lines[l]).mode = .auto →
        (s.apportionBurner b).lines[l] = { s.lines[l] with
          target := if (heat l * 3600 + m.cv / 2) / m.cv = 0 then 0
            else clampNat ((heat l * 3600 + m.cv / 2) / m.cv) m.fmin m.fmax }) ∧
      (∀ l : Fin 6, s.lineOf b l = false ∨ (s.lines[l]).mode = .manual →
        (s.apportionBurner b).lines[l] = s.lines[l]) ∧
      s.apportionBurner b =
        { s with
          lines := (s.apportionBurner b).lines
          burners := s.burners.set b { s.burners[b] with
            undelivered := r.undelivered
            excess := (s.manualHeat b - (s.burners[b]).demand) + r.fireExcess } })) ∧
  -- R73: the manual heat, and the eligible set in ascending priority number.
  (∀ (s : State) (b : Fin 3),
    (∀ manual : Fin 6 → Nat,
      (∀ l e m, s.lineEntry? l = some e → e.burner = b → e.kind.metering? = some m → (s.lines[l]).mode = .manual →
        manual l = (s.lines[l]).feed * m.cv / 3600) →
      (∀ l, (∀ e m, s.lineEntry? l = some e → e.burner = b → e.kind.metering? = some m →
        (s.lines[l]).mode ≠ .manual) → manual l = 0) →
      s.manualHeat b = ((indices 6).map manual).sum) ∧
    (∀ x : Share, x ∈ s.eligibleSet b ↔ ∃ e m, s.lineEntry? x.line = some e ∧ e.kind.metering? = some m ∧
      s.eligible b x.line = true ∧ x = { line := x.line, feed := (s.lines[x.line]).feed, cv := m.cv, weight := m.weight,
                                         priority := m.priority, fmin := m.fmin, fmax := m.fmax }) ∧
    ((s.eligibleSet b).map (·.line)).Nodup ∧ (s.eligibleSet b).Pairwise fun x y => x.priority ≤ y.priority) ∧
  -- R73 to R75: a net demand is shared among the eligible lines. Line `i` of the list has the share `share i`, which
  -- is cut where the feed it needs is below the line's least, and is clamped to the cap `cap i` otherwise; the spill
  -- goes, in one pass, to the lines neither cut nor capped, of which `left i` is left before line `i`. Where every
  -- line is cut and the net demand is not 0, the first line fires at its least feed.
  (∀ (dn : Nat) (held : Bool) (xs : List Share) (weights : Nat) (need share cap start left given : Nat → Nat),
    weights = (xs.map (·.weight)).sum →
    (∀ i x, xs[i]? = some x →
      share i = dn * x.weight / weights +
        (if i = 0 then dn - (xs.map fun y => dn * y.weight / weights).sum else 0) ∧
      need i = (share i * 3600 + x.cv / 2) / x.cv ∧
      cap i = (if held then min (x.fmax * x.cv / 3600) ((x.feed * x.cv + 3599) / 3600) else x.fmax * x.cv / 3600) ∧
      start i = (if need i < x.fmin then 0 else min (share i) (cap i)) ∧
      given i = (if need i < x.fmin ∨ start i = cap i then start i else start i + min (left i) (cap i - start i)) ∧
      left (i + 1) = left i - (given i - start i)) →
    left 0 = ((List.range xs.length).map fun i => share i - start i).sum →
    (xs = [] → apportion dn held xs = { assigned := [], undelivered := dn, fireExcess := 0 }) ∧
    (xs ≠ [] → (dn = 0 ∨ ∃ i x, xs[i]? = some x ∧ x.fmin ≤ need i) → apportion dn held xs =
      { assigned := xs.mapIdx fun i x => (x.line, given i), undelivered := left xs.length, fireExcess := 0 }) ∧
    (∀ x rest a, xs = x :: rest → 0 < dn → (∀ i y, xs[i]? = some y → need i < y.fmin) →
      a = max ((x.fmin * x.cv + 3599) / 3600) (min dn (cap 0)) → apportion dn held xs =
      { assigned := (x.line, a) :: rest.map fun y => (y.line, 0), undelivered := dn - a, fireExcess := a - dn }))

/-- R67, R77, R78, R80, R85: the ramp of an automatic line at a round mark, the change of a feed with its FEED command,
its dose timer, its state and its deviation check, the refresh of a command whose count the mark has brought to the
line's refresh, and the state that a line in service has: HELD, FEEDING or READY. A command given waits for the end of
its event (log entry 37). -/
def Obligations.FeedsFollowTargets : Prop :=
  ∀ (s : State) (l : Fin 6) (e : LineEntry), s.lineEntry? l = some e →
    (∀ (m : Metering) (period : Nat), e.kind.metering? = some m → (s.lines[l]).mode = .auto →
      (s.burners[e.burner]).state = .run → ∃ n : Nat,
        s.rampLine period l = s.changeFeed l
          (if (s.burners[e.burner]).hold.nonempty = true ∧ (s.lines[l]).feed < n then (s.lines[l]).feed else n) ∧
        ((s.lines[l]).feed = (s.lines[l]).target → n = (s.lines[l]).feed) ∧
        ((s.lines[l]).feed = 0 → 0 < (s.lines[l]).target → n = m.fmin) ∧
        (0 < (s.lines[l]).feed → (s.lines[l]).feed < (s.lines[l]).target → n =
          if m.ramp = 0 then (s.lines[l]).target
          else min (s.lines[l]).target ((s.lines[l]).feed + max 1 (m.ramp * period / 1000))) ∧
        (0 < (s.lines[l]).feed → (s.lines[l]).target = 0 → n =
          if m.ramp ≠ 0 ∧ m.fmin ≤ (s.lines[l]).feed - max 1 (m.ramp * period / 1000) then
            (s.lines[l]).feed - max 1 (m.ramp * period / 1000) else 0) ∧
        (0 < (s.lines[l]).target → (s.lines[l]).target < (s.lines[l]).feed → n =
          if m.ramp = 0 then (s.lines[l]).target
          else max (s.lines[l]).target ((s.lines[l]).feed - max 1 (m.ramp * period / 1000)))) ∧
    (e.kind.isMetered = false ∨ (s.lines[l]).mode = .manual ∨ (s.burners[e.burner]).state ≠ .run →
      ∀ period, s.rampLine period l = s) ∧
    (∀ c : Nat, ((s.lines[l]).feed = c → s.changeFeed l c = s) ∧
      ((s.lines[l]).feed ≠ c → ∃ w : State, s.changeFeed l c = w.submit (.line l)
          { station := e.station, kind := .feed, value := c, cls := .control, origin := .fuel } ∧
        { w.lines[l] with state := .out, dose := none } =
          { s.lines[l] with
            state := .out, deviation := (s.lines[l]).checkAfter (w.lines[l]).state s.timeBase
            dose := none, feed := c, refresh := 0 } ∧
        (∀ m mass gap, e.kind = .piece m mass gap → (c = 0 → (w.lines[l]).dose = none) ∧
          (c ≠ 0 → (w.lines[l]).dose =
            some
              { start := match (s.lines[l]).dose with
                  | some d => d.start
                  | none => s.timeBase
                interval := max gap (mass * 3600000 / c) })) ∧
        ((s.lines[l]).state = .out ∨ (s.lines[l]).state = .fault → (w.lines[l]).state = (s.lines[l]).state) ∧
        ((s.lines[l]).state ≠ .out → (s.lines[l]).state ≠ .fault → (w.lines[l]).state = w.ruledState l e) ∧
        (∀ l', l' ≠ l → w.lines[l'] = s.lines[l']) ∧ { w with lines := s.lines } = s)) ∧
    ((s.lines[l]).state = .out ∨ (s.lines[l]).refresh < e.refresh → s.refreshLine l = s) ∧
    ((s.lines[l]).state ≠ .out → e.refresh ≤ (s.lines[l]).refresh → s.refreshLine l =
      State.submit { s with lines := s.lines.set l { s.lines[l] with refresh := 0 } } (.line l)
        { station := e.station
          kind := if e.kind.isMetered then .feed else .igniter
          value := if e.kind.isMetered then (s.lines[l]).feed else if (s.lines[l]).igniter then 1 else 0
          cls := .control, origin := .fuel }) ∧
    (e.kind.isMetered = true → (s.burners[e.burner]).state = .run → (s.burners[e.burner]).hold.nonempty = true →
      s.ruledState l e = .held) ∧
    (e.kind.isMetered = true → ((s.burners[e.burner]).state ≠ .run ∨ (s.burners[e.burner]).hold.nonempty = false) →
      s.ruledState l e = if 0 < (s.lines[l]).feed then .feeding else .ready) ∧
    (e.kind.isMetered = false → s.ruledState l e = if (s.lines[l]).igniter = true then .feeding else .ready)

/-- R81, R83, R85: line faults and the two timers of a line. -/
def Obligations.LineFaultsAndTimers : Prop :=
  -- R83: a line in READY, FEEDING or HELD enters FAULT; a line in OUT or FAULT is not changed. The fault of the
  -- light-off line of a burner in LIGHTOFF locks the burner out.
  (∀ (s : State) (l : Fin 6) (e : LineEntry) (c : FaultCause), s.lineEntry? l = some e →
    ((s.lines[l]).state = .out ∨ (s.lines[l]).state = .fault → s.faultLine l c = s) ∧
    ((s.lines[l]).state ≠ .out → (s.lines[l]).state ≠ .fault → ∃ v : State,
      (e.kind.isMetered = true → v = State.submit
        { s with
          lines := s.lines.set l
            { s.lines[l] with
              state := .fault, faultCause := some c, feed := 0, dose := none, deviation := {}, refresh := 0 } } (.line l)
        { station := e.station, kind := .feed, value := 0, origin := .fuel
          cls := if (s.burners[e.burner]).state = .lightoff ∧ (s.burners[e.burner]).lightoffLine = some l then .trip
            else .control }) ∧
      (e.kind.isMetered = false → v = State.submit
        { s with
          lines := s.lines.set l
            { s.lines[l] with
              state := .fault, faultCause := some c, igniter := false, deviation := {}, refresh := 0 } } (.line l)
        { station := e.station, kind := .igniter, value := 0, cls := .control, origin := .fuel }) ∧
      ((s.burners[e.burner]).state = .lightoff → (s.burners[e.burner]).lightoffLine = some l →
        v.LockedOut (s.faultLine l c) e.burner .lineFault { line := some l }) ∧
      ((s.burners[e.burner]).state ≠ .lightoff ∨ (s.burners[e.burner]).lightoffLine ≠ some l →
        s.faultLine l c = v))) ∧
  -- R81: the expiry of a dose timer queues one DOSE and restarts the timer. R85: a second of the deviation check, and
  -- the end of its window.
  (∀ (s w : State) (l : Fin 6) (e : LineEntry) (t : Time), s.lineEntry? l = some e →
    w = { s with timeBase := max s.timeBase t } →
    (∀ d : DoseTimer, (s.lines[l]).dose = some d → t = d.start + d.interval →
      Machine.exec (.doseTimerExpiry l) s = .next (State.driveLines (State.finish (State.submit
        { w with
          lines := s.lines.set l
            { s.lines[l] with dose := some { start := w.timeBase, interval := d.interval } } } (.line l)
        { station := e.station, kind := .dose, value := 1, cls := .control, origin := .fuel })))) ∧
    (∀ (m : Metering) (tolerance window : Nat) (d : Deviation), e.kind = .continuous m tolerance window →
      (s.lines[l]).deviation.timer = some t →
      d = { timer := some (w.timeBase + 1000)
            seconds := (s.lines[l]).deviation.seconds + 1
            expected := (s.lines[l]).deviation.expected + (s.lines[l]).feed
            delivered := (s.lines[l]).deviation.delivered + 360 * (s.lines[l]).deviation.increments
            increments := 0 } →
      (d.seconds < window → Machine.exec (.deviationTimerExpiry l) s = .next (State.driveLines (State.finish
        { w with lines := s.lines.set l { s.lines[l] with deviation := d } }))) ∧
      (window ≤ d.seconds → 0 < d.expected →
        (tolerance : Int) * d.expected < |(d.expected : Int) - d.delivered| * 100 →
        Machine.exec (.deviationTimerExpiry l) s = .next (State.driveLines (State.finish (State.faultLine
          { w with lines := s.lines.set l { s.lines[l] with deviation := d } } l .deviation)))) ∧
      (window ≤ d.seconds → (d.expected = 0 ∨
          |(d.expected : Int) - d.delivered| * 100 ≤ (tolerance : Int) * d.expected) →
        Machine.exec (.deviationTimerExpiry l) s = .next (State.driveLines (State.finish
          { w with lines := s.lines.set l { s.lines[l] with deviation := { timer := d.timer } } })))))

/-- R68: LINE_SERVICE. R69: LINE_MODE. R86: LINE_RESET, with R84 for the fault bit. -/
def Obligations.LineServiceModeReset : Prop :=
  ∀ (s : State) (number : Byte) (args : List Byte) (is : List Item) (l : Fin 6)
    (refusal : Byte → Answer → Host.Outcome State Fault Refusal), intOf is 1 = some (l.val + 1 : Int) →
    (∀ k a, refusal k a = .next (s.popRequest.answered number k a)) →
    (∀ e, s.faultBitSet e = true ↔ (∃ p, s.pointEntry? e.flagPoint = some p ∧ p.kind = .flags16) ∧
      (s.pointQuality e.flagPoint = .good ∨ s.pointQuality e.flagPoint = .forced) ∧
      (s.points[e.flagPoint]).value.toNat.testBit e.flagBit = true) ∧
    (s.offers 0x10#8 number args → readArgs [intArg, enumArg 2] args = some is →
      (s.lineEntry? l = none → Machine.exec .lineService s = refusal 0x10#8 { result := .notConfigured }) ∧
      (∀ e, s.lineEntry? l = some e →
        (enumOf is 2 = some 0 →
          ((s.lines[l]).state ≠ .out →
            Machine.exec .lineService s = refusal 0x10#8 (Answer.check .notPermitted .state)) ∧
          ((s.lines[l]).state = .out → s.faultBitSet e = true →
            Machine.exec .lineService s = refusal 0x10#8 (Answer.check .notPermitted .faultBit)) ∧
          ((s.lines[l]).state = .out → s.faultBitSet e = false → ∃ st : FuelState, st = s.ruledState l e ∧
            Machine.exec .lineService s = .next (State.answered
              { s.popRequest with
                lines := s.lines.set l
                  { s.lines[l] with
                    state := st, refresh := 0
                    deviation := if st = .feeding ∧ e.kind.isContinuous = true then
                        { timer := some (s.timeBase + 1000) } else {} } } number 0x10#8 Answer.ok))) ∧
        (enumOf is 2 = some 1 →
          ((s.lines[l]).feed = 0 → (s.lines[l]).igniter = false → Machine.exec .lineService s =
            .next (State.answered (State.finish
              { s.popRequest with
                lines := s.lines.set l
                  { s.lines[l] with state := .out, dose := none, deviation := {}, faultCause := none } })
              number 0x10#8 Answer.ok)) ∧
          ((s.lines[l]).feed ≠ 0 ∨ (s.lines[l]).igniter = true →
            Machine.exec .lineService s = refusal 0x10#8 (Answer.check .notPermitted .feeding))))) ∧
    (s.offers 0x11#8 number args → readArgs [intArg, enumArg 2] args = some is →
      (s.lineEntry? l = none → Machine.exec .lineMode s = refusal 0x11#8 { result := .notConfigured }) ∧
      (∀ e m, s.lineEntry? l = some e → (enumOf is 2 = some 0 ∧ m = .auto ∨ enumOf is 2 = some 1 ∧ m = .manual) →
        (e.kind.isMetered = false → Machine.exec .lineMode s = refusal 0x11#8 { result := .invalid }) ∧
        (e.kind.isMetered = true → (s.burners[e.burner]).state = .lightoff →
          (s.burners[e.burner]).lightoffLine = some l →
          Machine.exec .lineMode s = refusal 0x11#8 { result := .notPermitted }) ∧
        (e.kind.isMetered = true → ((s.burners[e.burner]).state ≠ .lightoff ∨
            (s.burners[e.burner]).lightoffLine ≠ some l) →
          Machine.exec .lineMode s = .next (State.answered
            { s.popRequest with lines := s.lines.set l { s.lines[l] with mode := m } } number 0x11#8 Answer.ok)))) ∧
    (s.offers 0x12#8 number args → readArgs [intArg] args = some is →
      (s.lineEntry? l = none → Machine.exec .lineReset s = refusal 0x12#8 { result := .notConfigured }) ∧
      (∀ e, s.lineEntry? l = some e →
        ((s.lines[l]).state ≠ .fault →
          Machine.exec .lineReset s = refusal 0x12#8 (Answer.check .notPermitted .state)) ∧
        ((s.lines[l]).state = .fault → (s.floor.stationAt e.station).present = false →
          Machine.exec .lineReset s = refusal 0x12#8 (Answer.check .notPermitted .presence)) ∧
        ((s.lines[l]).state = .fault → (s.floor.stationAt e.station).present = true →
          ((s.flagsReadable e.flagPoint = false ∨ s.faultBitSet e = true) →
            Machine.exec .lineReset s = refusal 0x12#8 (Answer.check .notPermitted .faultBit)) ∧
          (s.flagsReadable e.flagPoint = true → s.faultBitSet e = false → ∃ st : FuelState, st = s.ruledState l e ∧
            Machine.exec .lineReset s = .next (State.answered (State.finish
              { s.popRequest with
                lines := s.lines.set l
                  { s.lines[l] with
                    state := st, faultCause := none
                    deviation := if st = .feeding ∧ e.kind.isContinuous = true then
                        { timer := some (s.timeBase + 1000) } else {} } }) number 0x12#8 Answer.ok)))))

/-! ### Clinker cooler (chapter 5) -/

/-- R47, R67, R91 to R96: the cooler states and what follows them, the fan speeds, and the FAN and RATE commands (log
entries 5, 22 and 38). -/
def Obligations.CoolerStates : Prop :=
  -- R91: COOLER_START with the checks of Table 5-6. R92: the end of the start, after which the law waits for the next
  -- mark (log entry 38). R47, R67, R70, R91, R96: at every change of the cooler state the holds and the lines, the
  -- COOLER_RUNNING permissives and the fans follow. R96: the fan speed of a compartment. A start timer that does not
  -- run does not expire (log entry 5).
  (∀ (s : State) (number : Byte) (refusal : Answer → Host.Outcome State Fault Refusal),
    (∀ a, refusal a = .next (s.popRequest.answered number 0x13#8 a)) →
    (s.offers 0x13#8 number [] →
      (s.cooler.state ≠ .stopped → Machine.exec .coolerStart s = refusal (Answer.check .notPermitted .state)) ∧
      (s.cooler.state = .stopped →
        (s.floor.state = .halted ∨ s.floor.state = .single →
          Machine.exec .coolerStart s = refusal (Answer.check .notPermitted .floor)) ∧
        (s.floor.state = .starting ∨ s.floor.state = .normal ∨ s.floor.state = .degraded →
          ((∀ g, s.runEntry? g = none) → Machine.exec .coolerStart s = refusal { result := .notConfigured }) ∧
          ((∃ g, s.runEntry? g ≠ none) →
            (s.coolerReachable = false →
              Machine.exec .coolerStart s = refusal (Answer.check .notPermitted .station)) ∧
            (s.coolerReachable = true →
              (∀ a, s.coolerBlockedBy = some a →
                Machine.exec .coolerStart s = refusal (Answer.checkObject .notPermitted .alarm a.val)) ∧
              (s.coolerBlockedBy = none → ∃ u : State,
                Machine.exec .coolerStart s = .next (u.finish.answered number 0x13#8 Answer.ok) ∧
                s.popRequest.CoolerEntered u .starting (some (s.timeBase + 30000)) false true ∧
                ∀ g : Fin 4, s.popRequest.RunLeft u g)))))) ∧
    (s.coolerReachable = true ↔ (∀ g e, s.runEntry? g = some e → s.onActiveList e.station = true) ∧
      ∀ k e, s.compartmentEntry? k = some e → s.onActiveList e.station = true) ∧
    (∀ a, s.coolerBlockedBy = some a ↔ (∀ a' ≤ a, (∃ x, s.alarmEntry? a' = some x ∧ x.action = .coolerSafe ∧
      ((s.alarmAt a').state = .raised ∨ (s.alarmAt a').state = .held)) ↔ a' = a)) ∧
    (∀ t, s.cooler.startTimer = some t → ∃ u : State,
      Machine.exec .startTimerExpiry s = .next u.finish.driveLines ∧
      State.CoolerEntered { s with timeBase := max s.timeBase t } u .running none true false ∧
      ∀ g : Fin 4, (s.runEntry? g = none → s.RunLeft u g) ∧
        ∀ e, s.runEntry? g = some e → State.RunStarted { s with timeBase := max s.timeBase t } u g e
          (if (s.cooler.runs[g]).mode = .manual then (s.cooler.runs[g]).manualRate else e.minRate)) ∧
    (s.cooler.startTimer = none → Machine.exec .startTimerExpiry s = .next s.finish.driveLines) ∧
    (∀ (e : CompartmentEntry) (basis : Nat), basis = (if s.cooler.state = .safe then e.safe else e.base) →
      (s.cooler.state = .stopped → s.fanSpeed e = 0) ∧
      (s.cooler.state ≠ .stopped → s.fanSpeed e =
        if ∃ z, e.zone = some z ∧ (s.cooler.zones[z]).active = true then min 1000 (basis + e.boost) else basis))) ∧
  -- R93: COOLER_SAFE and the action of an alarm. R94, R97: COOLER_RESET_SAFE, at which a STALLED run in MANUAL takes
  -- its manual rate and one in AUTO waits for the law (log entry 22). R95: COOLER_STOP.
  (∀ (s : State) (number : Byte) (refusal : Byte → Answer → Host.Outcome State Fault Refusal),
    (∀ k a, refusal k a = .next (s.popRequest.answered number k a)) →
    (s.offers 0x15#8 number [] →
      (s.cooler.state = .stopped →
        Machine.exec .coolerSafe s = refusal 0x15#8 (Answer.check .notPermitted .state)) ∧
      (s.cooler.state ≠ .stopped → Machine.exec .coolerSafe s =
        .next (s.popRequest.coolerToSafe.finish.answered number 0x15#8 Answer.ok))) ∧
    (s.cooler.state = .stopped ∨ s.cooler.state = .safe → s.coolerToSafe = s) ∧
    (s.cooler.state = .starting → s.CoolerEntered s.coolerToSafe .safe none false false ∧ ∀ g : Fin 4,
      (s.runEntry? g = none → s.RunLeft s.coolerToSafe g) ∧
      ∀ e, s.runEntry? g = some e → s.RunStarted s.coolerToSafe g e e.safeRate) ∧
    (s.cooler.state = .running → s.CoolerEntered s.coolerToSafe .safe s.cooler.startTimer false false ∧ ∀ g : Fin 4,
      (s.runEntry? g = none ∨ (s.cooler.runs[g]).state ≠ .stroking → s.RunLeft s.coolerToSafe g) ∧
      ∀ e, s.runEntry? g = some e → (s.cooler.runs[g]).state = .stroking →
        s.RunRated s.coolerToSafe g e e.safeRate) ∧
    (s.offers 0x16#8 number [] →
      (s.cooler.state ≠ .safe →
        Machine.exec .coolerResetSafe s = refusal 0x16#8 (Answer.check .notPermitted .state)) ∧
      (s.cooler.state = .safe →
        (∀ a, s.coolerBlockedBy = some a →
          Machine.exec .coolerResetSafe s = refusal 0x16#8 (Answer.checkObject .notPermitted .alarm a.val)) ∧
        (s.coolerBlockedBy = none → ∃ u : State,
          Machine.exec .coolerResetSafe s = .next (u.finish.answered number 0x16#8 Answer.ok) ∧
          s.popRequest.CoolerEntered u .running s.cooler.startTimer false false ∧ ∀ g : Fin 4,
            (s.runEntry? g = none ∨ (s.cooler.runs[g]).state = .idle ∨
                ((s.cooler.runs[g]).state = .stalled ∧ (s.cooler.runs[g]).mode = .auto) → s.popRequest.RunLeft u g) ∧
            ∀ e, s.runEntry? g = some e →
              ((s.cooler.runs[g]).state ≠ .idle → (s.cooler.runs[g]).mode = .manual →
                s.popRequest.RunRated u g e (s.cooler.runs[g]).manualRate) ∧
              ((s.cooler.runs[g]).state = .stroking → (s.cooler.runs[g]).mode = .auto → s.popRequest.RunRated u g e
                (if s.pointQuality e.pressure = .good then lawRate e (s.points[e.pressure]).value
                 else e.minRate))))) ∧
    (s.offers 0x14#8 number [] →
      ((∃ b e, s.burnerEntry? b = some e ∧ (s.burners[b]).state ≠ .off ∧ (s.burners[b]).state ≠ .lockout) →
        Machine.exec .coolerStop s = refusal 0x14#8 (Answer.check .notPermitted .burner)) ∧
      ((∀ b e, s.burnerEntry? b = some e → (s.burners[b]).state = .off ∨ (s.burners[b]).state = .lockout) →
        (s.cooler.state = .stopped →
          Machine.exec .coolerStop s = refusal 0x14#8 (Answer.check .notPermitted .state)) ∧
        (s.cooler.state ≠ .stopped → ∃ u : State,
          Machine.exec .coolerStop s = .next (u.finish.answered number 0x14#8 Answer.ok) ∧
          s.popRequest.CoolerEntered u .stopped none false true ∧ ∀ g : Fin 4,
            u.cooler.runs[g] = { (s.cooler.runs[g]).abandoned with state := .idle, rate := 0, timer := none } ∧
            givenBy (.run g) u.queue.submitted = givenBy (.run g) s.queue.submitted ∧
            (u.shift.record.runs[g]).abandoned =
              min top32 ((s.shift.record.runs[g]).abandoned + (s.cooler.runs[g]).outstanding.length))))) ∧
  -- R96: when a FAN or a RATE is queued, beside the entries to cooler states. A speed that is computed again is
  -- queued when it has changed; a mark that finds a refresh count at 99, and has counted it, queues the present speed
  -- or rate again; whatever is queued sets the count to 0.
  (∀ s : State,
    (∀ (k : Fin 12) (e : CompartmentEntry) (fan : Nat → State), s.compartmentEntry? k = some e →
      (∀ v, fan v = State.submit
        { s with cooler := { s.cooler with
            compartments := s.cooler.compartments.set k
              { s.cooler.compartments[k] with speed := v, refresh := 0 } } } (.compartment k)
        { station := e.station, kind := .fan, value := v, cls := .control, origin := .cooler }) →
      ((s.cooler.compartments[k]).speed = s.fanSpeed e → s.applyFan false k = s) ∧
      ((s.cooler.compartments[k]).speed ≠ s.fanSpeed e → s.applyFan false k = fan (s.fanSpeed e)) ∧
      ((s.cooler.compartments[k]).refresh ≤ 99 → s.refreshCompartment k = s) ∧
      (99 < (s.cooler.compartments[k]).refresh →
        s.refreshCompartment k = fan (s.cooler.compartments[k]).speed)) ∧
    (∀ k : Fin 12, s.compartmentEntry? k = none → s.refreshCompartment k = s ∧ s.applyFan false k =
      { s with cooler := { s.cooler with
          compartments := s.cooler.compartments.set k { s.cooler.compartments[k] with speed := 0 } } }) ∧
    (∀ (g : Fin 4) (e : RunEntry), s.runEntry? g = some e →
      ((s.cooler.runs[g]).state = .idle ∨ (s.cooler.runs[g]).refresh ≤ 99 → s.refreshRun g = s) ∧
      ((s.cooler.runs[g]).state ≠ .idle → 99 < (s.cooler.runs[g]).refresh → s.refreshRun g = State.submit
        { s with cooler := { s.cooler with
            runs := s.cooler.runs.set g { s.cooler.runs[g] with refresh := 0 } } } (.run g)
        { station := e.station, kind := .rate, value := (s.cooler.runs[g]).rate, cls := .control
          origin := .cooler })) ∧
    (∀ g : Fin 4, s.runEntry? g = none → s.refreshRun g = s))

/-- R99: a stroke timer's expiry. R100: the sending of a STROKE. R101: its confirmation. R102: the stall check. -/
def Obligations.StrokesCounted : Prop :=
  ∀ (s w : State) (g : Fin 4) (e : RunEntry) (r : Run), s.runEntry? g = some e → r = s.cooler.runs[g] →
    (∀ t : StrokeTimer, r.timer = some t → w = { s with timeBase := max s.timeBase (t.start + t.period) } →
      (4 ≤ r.outstanding.length + r.waiting →
        Machine.exec (.strokeTimerExpiry g) s = .next (State.driveLines (State.finish
        { w with
          cooler := { s.cooler with
          runs := s.cooler.runs.set g
            { r with
              timer := some { t with start := w.timeBase }
              counts := { r.counts with expiries := r.counts.expiries + 1, skipped := r.counts.skipped + 1 } } }
          shift := { s.shift with record := { s.shift.record with
          runs := s.shift.record.runs.set g
            { s.shift.record.runs[g] with
              skipped := min top32 ((s.shift.record.runs[g]).skipped + 1) } } } }))) ∧
      (r.outstanding.length + r.waiting < 4 → Machine.exec (.strokeTimerExpiry g) s =
        .next (State.driveLines (State.finish (State.submit
          { w with
            cooler := { s.cooler with
            runs := s.cooler.runs.set g
              { r with
                timer := some { t with start := w.timeBase }
                waiting := r.waiting + 1
                counts := { r.counts with expiries := r.counts.expiries + 1 } } } } (.run g)
          { station := e.station, kind := .stroke, value := 1, cls := .control, origin := .cooler }))))) ∧
    (r.state ≠ .idle → s.strokeSent g = { s with cooler := { s.cooler with
    runs := s.cooler.runs.set g
      { r with
        waiting := r.waiting - 1
        outstanding := r.outstanding ++ [s.timeBase]
        counts := { r.counts with sent := r.counts.sent + 1 } } } }) ∧
    (r.state = .idle → s.strokeSent g =
      { s with
        cooler := { s.cooler with
        runs := s.cooler.runs.set g
          { r with
            waiting := r.waiting - 1
            counts := { r.counts with sent := r.counts.sent + 1, abandoned := r.counts.abandoned + 1 } } }
        shift := { s.shift with record := { s.shift.record with
        runs := s.shift.record.runs.set g
          { s.shift.record.runs[g] with
            abandoned := min top32 ((s.shift.record.runs[g]).abandoned + 1) } } } }) ∧
    (∀ n k : Nat, k = min n r.outstanding.length → s.confirmStrokes g e n =
      { s with
        cooler := { s.cooler with
        runs := s.cooler.runs.set g
          { r with
            outstanding := r.outstanding.drop k
            counts := { r.counts with
              confirmed := r.counts.confirmed + BitVec.ofNat 32 k
              unexpected := r.counts.unexpected + BitVec.ofNat 32 (n - k) } } }
        shift := { s.shift with record := { s.shift.record with
        runs := s.shift.record.runs.set g
          { s.shift.record.runs[g] with
            confirmed := min top32 ((s.shift.record.runs[g]).confirmed + k)
            clinker := add64 (s.shift.record.runs[g]).clinker (k * e.strokeMass) } } } }) ∧
    (∀ oldest rest t, r.outstanding = oldest :: rest → r.timer = some t → r.state = .stroking →
      e.timeoutFactor * t.period < s.timeBase - oldest → s.checkStall g =
        { s with
          cooler := { s.cooler with runs := s.cooler.runs.set g { r with state := .stalled, timer := none } } }) ∧
    (r.outstanding = [] ∨ r.state ≠ .stroking ∨ (∃ oldest t, r.outstanding.head? = some oldest ∧ r.timer = some t ∧
      s.timeBase - oldest ≤ e.timeoutFactor * t.period) → s.checkStall g = s)

/-- R97: the law of an AUTO run, which waits for the mark after a start (R92, log entry 38). R98: RUN_MODE; a rate given
with AUTO is ignored (log entry 26). R103: RUN_RESET. -/
def Obligations.RunRequests : Prop :=
  ∀ (s : State) (number : Byte) (args : List Byte) (is : List Item) (g : Fin 4)
    (refusal : Byte → Answer → Host.Outcome State Fault Refusal), intOf is 1 = some (g.val + 1 : Int) →
    (∀ k a, refusal k a = .next (s.popRequest.answered number k a)) →
    (∀ (e : RunEntry) (p raw : Int), raw = e.baseRate + (e.gain * (p - e.pressureSet)).tdiv 100 →
      (lawRate e p : Int) = if raw < e.minRate then (e.minRate : Int) else if e.maxRate < raw then e.maxRate else raw) ∧
    (∀ e, s.runEntry? g = some e →
      (s.cooler.state = .running → s.cooler.lawHeld = false → (s.cooler.runs[g]).state ≠ .idle →
        (s.cooler.runs[g]).mode = .auto → s.applyLaw g = s.setRate g
          (if s.pointQuality e.pressure = .good then lawRate e (s.points[e.pressure]).value
            else (s.cooler.runs[g]).rate)) ∧
      (s.cooler.state ≠ .running ∨ s.cooler.lawHeld = true ∨ (s.cooler.runs[g]).state = .idle ∨
          (s.cooler.runs[g]).mode = .manual → s.applyLaw g = s) ∧
      (∀ rate, ((s.cooler.runs[g]).rate = rate → s.setRate g rate = s) ∧
        ((s.cooler.runs[g]).rate ≠ rate → (s.cooler.runs[g]).state = .idle → s.setRate g rate =
          { s with cooler := { s.cooler with
              runs := s.cooler.runs.set g ((s.cooler.runs[g]).retimed rate) } }) ∧
        ((s.cooler.runs[g]).rate ≠ rate → (s.cooler.runs[g]).state ≠ .idle → s.setRate g rate = State.submit
          { s with cooler := { s.cooler with
              runs := s.cooler.runs.set g { (s.cooler.runs[g]).retimed rate with refresh := 0 } } } (.run g)
          { station := e.station, kind := .rate, value := rate, cls := .control, origin := .cooler }))) ∧
    (s.offers 0x17#8 number args → readArgs [intArg] args = some is →
      (s.runEntry? g = none → Machine.exec .runReset s = refusal 0x17#8 { result := .notConfigured }) ∧
      (∀ e, s.runEntry? g = some e →
        ((s.cooler.runs[g]).state ≠ .stalled →
          Machine.exec .runReset s = refusal 0x17#8 (Answer.check .notPermitted .state)) ∧
        ((s.cooler.runs[g]).state = .stalled → ∃ rate : Nat,
          (s.cooler.state = .safe → rate = e.safeRate) ∧
          (s.cooler.state ≠ .safe → (s.cooler.runs[g]).mode = .manual → rate = (s.cooler.runs[g]).manualRate) ∧
          (s.cooler.state ≠ .safe → (s.cooler.runs[g]).mode = .auto → rate =
            if s.pointQuality e.pressure = .good then lawRate e (s.points[e.pressure]).value
            else (s.cooler.runs[g]).rate) ∧
          Machine.exec .runReset s = .next (State.answered (State.finish (State.submit
            { s.popRequest with
              cooler := { s.cooler with
              runs := s.cooler.runs.set g
                { ((s.cooler.runs[g]).abandoned).stroking rate s.timeBase with refresh := 0 } }
              shift := { s.shift with record := { s.shift.record with
              runs := s.shift.record.runs.set g
                { s.shift.record.runs[g] with
                  abandoned := min top32 ((s.shift.record.runs[g]).abandoned +
                    (s.cooler.runs[g]).outstanding.length) } } } } (.run g)
            { station := e.station, kind := .rate, value := rate, cls := .control, origin := .cooler }))
            number 0x17#8 Answer.ok)))) ∧
    (s.offers 0x18#8 number args →
      readArgs [intArg, enumArg 2, { kind := .int, mandatory := false }] args = some is →
      (s.runEntry? g = none → Machine.exec .runMode s = refusal 0x18#8 { result := .notConfigured }) ∧
      (∀ e, s.runEntry? g = some e →
        (enumOf is 2 = some 0 → Machine.exec .runMode s = .next (State.answered
          { s.popRequest with
            cooler := { s.cooler with runs := s.cooler.runs.set g { s.cooler.runs[g] with mode := .auto } } }
          number 0x18#8 Answer.ok)) ∧
        (enumOf is 2 = some 1 → intOf is 3 = none →
          Machine.exec .runMode s = refusal 0x18#8 { result := .invalid }) ∧
        (∀ (v rate : Int) (set : State), enumOf is 2 = some 1 → intOf is 3 = some v →
          rate = clampInt v e.minRate e.maxRate →
          set = { s.popRequest with
            cooler := { s.cooler with
            runs := s.cooler.runs.set g
              { s.cooler.runs[g] with mode := .manual, manualRate := rate.toNat } } } →
          Machine.exec .runMode s = .next (State.answered
            (if s.cooler.state = .running ∧ (s.cooler.runs[g]).state ≠ .idle then (set.setRate g rate.toNat).finish
             else set) number 0x18#8 (if rate = v then Answer.ok else Answer.clampedTo rate)))))

/-- R104, R105: the evaluation of the zones at a round mark, and the red-river time. -/
def Obligations.RedRiversFound : Prop :=
  ∀ (s : State) (zones : List (Fin 8)) (value : Fin 8 → Int) (mean : Int),
    zones = (indices 8).filter (fun z => (s.zoneEntry? z).isSome) →
    (∀ z e, s.zoneEntry? z = some e → value z = (s.points[e.point]).value) →
    mean = ((zones.map value).sum).tdiv zones.length →
    ((∃ z e, s.zoneEntry? z = some e ∧ s.pointQuality e.point ≠ .good) → s.evaluateZones = s) ∧
    ((∀ z e, s.zoneEntry? z = some e → s.pointQuality e.point = .good) → ∃ u : State,
      u = { s with cooler := { s.cooler with zones := u.cooler.zones } } ∧
      (∀ z, s.zoneEntry? z = none → u.cooler.zones[z] = s.cooler.zones[z]) ∧
      (∀ (z : Fin 8) (e : ZoneEntry) (x : Zone) (d : Int), s.zoneEntry? z = some e → x = s.cooler.zones[z] →
        d = value z - mean →
        (x.active = false → d < e.delta → u.cooler.zones[z] = { x with onRun := 0, diff := d }) ∧
        (x.active = false → e.delta ≤ d → x.onRun + 1 < e.persist →
          u.cooler.zones[z] = { x with onRun := x.onRun + 1, diff := d }) ∧
        (x.active = false → e.delta ≤ d → e.persist ≤ x.onRun + 1 →
          u.cooler.zones[z] = { x with active := true, onRun := 0, offRun := 0, diff := d }) ∧
        (x.active = true → e.delta - e.hysteresis ≤ d → u.cooler.zones[z] = { x with offRun := 0, diff := d }) ∧
        (x.active = true → d < e.delta - e.hysteresis → x.offRun + 1 < e.persist →
          u.cooler.zones[z] = { x with offRun := x.offRun + 1, diff := d }) ∧
        (x.active = true → d < e.delta - e.hysteresis → e.persist ≤ x.offRun + 1 →
          u.cooler.zones[z] = { x with active := false, onRun := 0, offRun := 0, diff := d })) ∧
      (s.anyZoneActive = u.anyZoneActive → s.evaluateZones = u) ∧
      (s.anyZoneActive = false → u.anyZoneActive = true →
        s.evaluateZones = { u with cooler := { u.cooler with redMark := some s.timeBase } }) ∧
      (∀ t, s.anyZoneActive = true → u.anyZoneActive = false → s.cooler.redMark = some t →
        s.evaluateZones =
          { u with
            cooler := { u.cooler with redMark := none }
            shift := { s.shift with record := { s.shift.record with
              redRiver := add64 s.shift.record.redRiver (s.timeBase - t) } } }))

/-! ### Command queue (chapter 6) -/

/-- R109: a proposed entry of a level kind is merged with the waiting entry of its station and kind. That entry takes
the proposed value and origin; under a higher class it takes that class and leaves its place for the tail of the class,
at the present time; otherwise it keeps class, place and enqueue time. No other entry changes, and the merge is counted.
-/
def Obligations.MergesReplaceValue : Prop :=
  ∀ (s : State) (p : Proposal) (w : QueueEntry) (q₁ q₂ : List QueueEntry), p.kind.isLevel = true →
    s.queue.list = q₁ ++ w :: q₂ → w.station = p.station → w.kind = p.kind →
    (∀ e ∈ q₁ ++ q₂, e.station = p.station → e.kind ≠ p.kind) →
    (w.cls.rank ≤ p.cls.rank → s.propose p =
      { s with queue := { s.queue with
          list := q₁ ++ { w with value := p.value, origin := p.origin } :: q₂, merges := s.queue.merges + 1 } }) ∧
    (p.cls.rank < w.cls.rank → ∀ before after, q₁ ++ q₂ = before ++ after →
      (∀ e ∈ before, e.cls.rank ≤ p.cls.rank) → (∀ e ∈ after, p.cls.rank < e.cls.rank) → s.propose p =
      { s with queue := { s.queue with
          list := before ++
            { w with value := p.value, origin := p.origin, cls := p.cls, time := s.timeBase } :: after
          merges := s.queue.merges + 1 } })

/-- R110 and R111: a proposal that finds nothing to merge with takes the tail of its class where the list holds fewer
than 32 entries. A full list loses the youngest ROUTINE entry to a TRIP or CONTROL proposal, or else the youngest
CONTROL entry to a TRIP proposal; where there is none of these, the proposal is dropped. What a loss brings about stands
in LossesTold. -/
def Obligations.ProposalsQueued : Prop :=
  ∀ (s : State) (p : Proposal) (entry : QueueEntry),
    entry = { station := p.station, kind := p.kind, value := p.value, cls := p.cls, origin := p.origin,
              time := s.timeBase } →
    (p.kind.isLevel = true → ∀ e ∈ s.queue.list, e.station = p.station → e.kind ≠ p.kind) →
    (s.queue.list.length < 32 → ∀ before after, s.queue.list = before ++ after →
      (∀ e ∈ before, e.cls.rank ≤ p.cls.rank) → (∀ e ∈ after, p.cls.rank < e.cls.rank) →
      s.propose p = { s with queue := { s.queue with list := before ++ entry :: after } }) ∧
    (32 ≤ s.queue.list.length →
      (∀ c, (c = .routine ∧ p.cls ≠ .routine) ∨
          (c = .control ∧ p.cls = .trip ∧ ∀ e ∈ s.queue.list, e.cls ≠ .routine) →
        ∀ q₁ lost q₂, s.queue.list = q₁ ++ lost :: q₂ → lost.cls = c → (∀ e ∈ q₂, e.cls ≠ c) →
        ∀ before after, q₁ ++ q₂ = before ++ after → (∀ e ∈ before, e.cls.rank ≤ p.cls.rank) →
        (∀ e ∈ after, p.cls.rank < e.cls.rank) → s.propose p = State.commandLost
          { s with queue := { s.queue with list := before ++ entry :: after } } lost true) ∧
      (p.cls = .routine ∨ (p.cls = .control ∧ ∀ e ∈ s.queue.list, e.cls ≠ .routine) ∨
          (p.cls = .trip ∧ ∀ e ∈ s.queue.list, e.cls = .trip) →
        s.propose p = s.commandLost entry false))

/-- R112: a loss is counted for the queue and for the entry's class, posted, makes COMMAND_OVERRUN true and is told to
the owner that the origin names: a FEED or IGNITER brings its line's refresh one short of due unless the line is OUT, a
DOSE is counted lost, a FAN or RATE is refreshed at the next mark, a STROKE is counted dropped and waits no more, and an
evicted operator's command is counted lost. An entry is told to none only where no in-use entry of its owner has its
station, and for a line its kind. -/
def Obligations.LossesTold : Prop :=
  ∀ (s : State) (e : QueueEntry) (evicted : Bool) (t : State),
    t = { s with
      queue := { s.queue with
        overruns := s.queue.overruns + 1
        overrunsTrip := if e.cls = .trip then s.queue.overrunsTrip + 1 else s.queue.overrunsTrip
        overrunsControl := if e.cls = .control then s.queue.overrunsControl + 1 else s.queue.overrunsControl
        overrunsRoutine := if e.cls = .routine then s.queue.overrunsRoutine + 1 else s.queue.overrunsRoutine
        overrun := true, overrunSinceMark := true }
      shift := { s.shift with record := { s.shift.record with overruns := min top32 (s.shift.record.overruns + 1) } } } →
    (e.origin = .fuel →
      (∀ l x, s.commandLine e.station e.kind = some l → s.lineEntry? l = some x →
        (e.kind ≠ .dose → (s.lines[l]).state = .out → s.commandLost e evicted = t) ∧
        (e.kind ≠ .dose → (s.lines[l]).state ≠ .out → s.commandLost e evicted =
          { t with lines := s.lines.set l { s.lines[l] with refresh := x.refresh - 1 } }) ∧
        (e.kind = .dose → s.commandLost e evicted =
          { t with
            lines := s.lines.set l
              { s.lines[l] with lostDoses := min 65535 ((s.lines[l]).lostDoses + 1) } })) ∧
      (s.commandLine e.station e.kind = none → s.commandLost e evicted = t)) ∧
    (e.origin = .cooler →
      (e.kind = .fan →
        (∀ k, s.commandCompartment e.station = some k → s.commandLost e evicted =
          { t with cooler := { s.cooler with
              compartments := s.cooler.compartments.set k { s.cooler.compartments[k] with refresh := 99 } } }) ∧
        (s.commandCompartment e.station = none → s.commandLost e evicted = t)) ∧
      (∀ g, s.commandRun e.station = some g →
        (e.kind = .rate → s.commandLost e evicted =
          { t with cooler := { s.cooler with
              runs := s.cooler.runs.set g { s.cooler.runs[g] with refresh := 99 } } }) ∧
        (e.kind = .stroke → s.commandLost e evicted =
          { t with
            cooler := { s.cooler with
              runs := s.cooler.runs.set g { s.cooler.runs[g] with
                waiting := (s.cooler.runs[g]).waiting - 1
                counts := { (s.cooler.runs[g]).counts with dropped := (s.cooler.runs[g]).counts.dropped + 1 } } }
            shift := { t.shift with record := { t.shift.record with
              runs :=
                s.shift.record.runs.set g
                  { s.shift.record.runs[g] with dropped := min top32 ((s.shift.record.runs[g]).dropped + 1) } } } })) ∧
      (s.commandRun e.station = none → e.kind = .rate ∨ e.kind = .stroke → s.commandLost e evicted = t)) ∧
    (e.origin = .passThrough →
      s.commandLost e evicted =
        { t with queue := { t.queue with lost := if evicted = true then s.queue.lost + 1 else s.queue.lost } }) ∧
    (∀ owns : LineEntry → Prop, (∀ x, owns x ↔ x.station = e.station ∧
        ((e.kind = .feed ∧ x.kind.isMetered = true) ∨ (e.kind = .igniter ∧ x.kind = .ignition) ∨
          (e.kind = .dose ∧ ∃ m mass gap, x.kind = .piece m mass gap))) →
      (∀ l, s.commandLine e.station e.kind = some l → ∃ x, s.lineEntry? l = some x ∧ owns x) ∧
      (s.commandLine e.station e.kind = none ↔ ∀ l x, s.lineEntry? l = some x → ¬ owns x)) ∧
    (∀ g, s.commandRun e.station = some g → ∃ x, s.runEntry? g = some x ∧ x.station = e.station) ∧
    (s.commandRun e.station = none ↔ ∀ g x, s.runEntry? g = some x → x.station ≠ e.station) ∧
    (∀ k, s.commandCompartment e.station = some k → ∃ x, s.compartmentEntry? k = some x ∧ x.station = e.station) ∧
    (s.commandCompartment e.station = none ↔ ∀ k x, s.compartmentEntry? k = some x → x.station ≠ e.station)

/-- R82, R98, R114 to R116: operator commands. -/
def Obligations.OperatorCommands : Prop :=
  -- R115: OPERATOR_COMMAND. A station outside 1 to 60 is BAD_INDEX; a kind without a name or a value that does not
  -- fit 32 bits is INVALID. To the feeder station of an in-use fuel line only a FEED is judged, by the fuel unit, and
  -- to the drive station of an in-use run only a RATE, by the cooler unit; any other kind is BLOCKED with reason
  -- OWNED. Every other command is judged by the filter.
  (∀ (s : State) (number : Byte) (args : List Byte) (is : List Item) (station value : Int) (n : Nat),
    s.offers 0x19#8 number args → readArgs [intArg, enumArg 6, intArg] args = some is →
    intOf is 1 = some station → enumOf is 2 = some n → intOf is 3 = some value →
    (station < 1 ∨ 60 < station → Machine.exec .operatorCommand s =
      .next (s.popRequest.answered number 0x19#8 { result := .badIndex })) ∧
    (1 ≤ station → station ≤ 60 → 6 ≤ n ∨ value < -2147483648 ∨ 2147483647 < value →
      Machine.exec .operatorCommand s = .next (s.popRequest.answered number 0x19#8 { result := .invalid })) ∧
    (1 ≤ station → station ≤ 60 → -2147483648 ≤ value → value ≤ 2147483647 →
      ∀ k, [CommandKind.feed, .dose, .igniter, .stroke, .fan, .rate][n]? = some k →
      ∃ judged : State × Answer,
        Machine.exec .operatorCommand s = .next (judged.1.finish.answered number 0x19#8 judged.2) ∧
        (∀ l e, s.lineAt station.toNat = some (l, e) →
          (k = .feed → judged = s.popRequest.operatorFeed l e value) ∧
          (k ≠ .feed → judged = (s.popRequest, Answer.check .blocked .owned))) ∧
        (s.lineAt station.toNat = none → ∀ g e, s.runAtStation station.toNat = some (g, e) →
          (k = .rate → judged = s.popRequest.operatorRate g e value) ∧
          (k ≠ .rate → judged = (s.popRequest, Answer.check .blocked .owned))) ∧
        (s.lineAt station.toNat = none → s.runAtStation station.toNat = none →
          judged = s.popRequest.passThrough station.toNat k value)) ∧
    (∀ st : Nat, (∀ l e, s.lineAt st = some (l, e) → s.lineEntry? l = some e ∧ e.station = st) ∧
      (s.lineAt st = none ↔ ∀ l e, s.lineEntry? l = some e → e.station ≠ st) ∧
      (∀ g e, s.runAtStation st = some (g, e) → s.runEntry? g = some e ∧ e.station = st) ∧
      (s.runAtStation st = none ↔ ∀ g e, s.runEntry? g = some e → e.station ≠ st))) ∧
  -- R82: an operator FEED to a line, with the reasons of a BLOCKED reply in their order, and the feed set otherwise.
  -- R98: an operator RATE to a run; a STALLED run takes the rate at its reset (log entry 22).
  (∀ (s : State) (value : Int),
    (∀ (l : Fin 6) (e : LineEntry),
      (e.kind.isMetered = false ∨ (s.lines[l]).mode = .auto →
        s.operatorFeed l e value = (s, Answer.check .blocked .mode)) ∧
      (e.kind.isMetered = true → (s.lines[l]).mode = .manual →
        ((s.lines[l]).state = .out ∨ (s.lines[l]).state = .fault →
          s.operatorFeed l e value = (s, Answer.check .blocked .lineState)) ∧
        ((s.lines[l]).state ≠ .out → (s.lines[l]).state ≠ .fault →
          ((s.burners[e.burner]).state ≠ .run →
            s.operatorFeed l e value = (s, Answer.check .blocked .burner)) ∧
          ((s.burners[e.burner]).state = .run → value < 0 →
            s.operatorFeed l e value = (s, Answer.check .blocked .value)) ∧
          ((s.burners[e.burner]).state = .run → 0 ≤ value → ∀ (m : Metering) (limited feed : Int),
            e.kind.metering? = some m →
            limited = (if value = 0 then 0 else if value < m.fmin then (m.fmin : Int)
              else if m.fmax < value then (m.fmax : Int) else value) →
            feed = (if (s.burners[e.burner]).hold.nonempty = true ∧ (s.lines[l]).feed < limited
              then ((s.lines[l]).feed : Int) else limited) →
            s.operatorFeed l e value = (s.changeFeed l feed.toNat,
              if feed = value then { result := .passed } else Answer.clampedTo feed))))) ∧
    (∀ (g : Fin 4) (e : RunEntry),
      ((s.cooler.runs[g]).mode = .auto → s.operatorRate g e value = (s, Answer.check .blocked .mode)) ∧
      ((s.cooler.runs[g]).mode = .manual →
        (s.cooler.state ≠ .running → s.operatorRate g e value = (s, Answer.check .blocked .cooler)) ∧
        (s.cooler.state = .running → value < 0 → s.operatorRate g e value = (s, Answer.check .blocked .value)) ∧
        (s.cooler.state = .running → 0 ≤ value → ∀ rate : Nat, e.minRate ≤ e.maxRate →
          rate = max e.minRate (min e.maxRate value.toNat) →
          ∀ set : State, set = { s with cooler := { s.cooler with
            runs := s.cooler.runs.set g { s.cooler.runs[g] with manualRate := rate } } } →
          s.operatorRate g e value =
            (if (s.cooler.runs[g]).state = .stroking then set.setRate g rate else set,
              if (rate : Int) = value then { result := .passed } else Answer.clampedTo rate))))) ∧
  -- R116: the filter. A station on no list of the active round table, and a pair that no in-use entry admits, are
  -- BLOCKED; PASS takes a value of 0 to 65535 as given, and CLAMP brings it within the entry's limits. The value is
  -- proposed in ROUTINE class; the reply is PASSED, CLAMPED with the value, or BLOCKED with reason QUEUE_FULL where
  -- the proposal is dropped.
  (∀ (s : State) (station : Nat) (k : CommandKind) (value : Int) (blocked : CheckCode → State × Answer)
    (proposal : Nat → Proposal) (admitted : Nat → State × Answer),
    (∀ c, blocked c = (s, Answer.check .blocked c)) →
    (∀ v, proposal v = { station := station, kind := k, value := v, cls := .routine, origin := .passThrough }) →
    (∀ v : Nat, admitted v = (s.propose (proposal v),
      if (s.queue.list.length < 32 ∨ (k.isLevel = true ∧ ∃ e ∈ s.queue.list, e.station = station ∧ e.kind = k))
      then (if (v : Int) = value then { result := .passed } else Answer.clampedTo v)
      else Answer.check .blocked .queueFull)) →
    (s.onActiveList station = false → s.passThrough station k value = blocked .station) ∧
    (s.onActiveList station = true →
      ((∀ (i : Fin 32) e, s.filters[i] = some e → e.inUse = true → e.station = station → e.kind ≠ k) →
        s.passThrough station k value = blocked .filter) ∧
      (∀ (i : Fin 32) e, s.filters[i] = some e → e.inUse = true → e.station = station → e.kind = k →
        (∀ (j : Fin 32) e', s.filters[j] = some e' → e'.inUse = true → e'.station = station → e'.kind = k → j = i) →
        (e.action = .block → s.passThrough station k value = blocked .filter) ∧
        (e.action = .pass → value < 0 ∨ 65535 < value → s.passThrough station k value = blocked .value) ∧
        (e.action = .pass → 0 ≤ value → value ≤ 65535 → s.passThrough station k value = admitted value.toNat) ∧
        (∀ lo hi : Nat, e.action = .clamp lo hi → lo ≤ hi →
          (value < lo → s.passThrough station k value = admitted lo) ∧
          (hi < value → s.passThrough station k value = admitted hi) ∧
          (lo ≤ value → value ≤ hi → s.passThrough station k value = admitted value.toNat)))))

/-! ### Alarms (chapter 7) -/

/-- R121 to R125, R128 to R130, R134, R136: how alarm entries change state. -/
def Obligations.AlarmsChangeState : Prop :=
  -- R67, R123, R129, R130, R134, R136: the entry to RAISED. The entry takes a new occurrence, raised now, and its
  -- last value; it takes its place in the raised list by priority, raise time and number; a horn-routed entry clears
  -- the silenced flag; an armed first-out record captures the raise, and another counts a follower; the raise is
  -- posted under its priority; then come the notice, the hold causes and the action (log entry 14). Every other
  -- change of state records the last value, leaves the raised list, and brings the notice and the hold causes.
  (∀ (s : State) (a : Fin 192) (e : AlarmEntry) (value : Int) (key : State → Fin 192 → Nat × Nat × Nat)
    (before : Nat × Nat × Nat → Nat × Nat × Nat → Prop),
    value = (match e.source with
      | .pointHigh p _ _ => (s.points[p]).value
      | .pointLow p _ _ => (s.points[p]).value
      | .pointQuality p => (s.points[p]).value
      | .internal _ => (s.alarm.alarms[a]).reported) →
    (∀ u x, key u x = ((((u.alarm.alarms[x]).entry.map (·.priority)).getD 0), ((u.alarm.alarms[x]).raiseTime).getD 0,
      x.val)) →
    (∀ x y, before x y ↔ x.1 < y.1 ∨ (x.1 = y.1 ∧ (x.2.1 < y.2.1 ∨ (x.2.1 = y.2.1 ∧ x.2.2 < y.2.2)))) →
    (∀ st : AlarmState, s.alarmTo a e st = State.reportAlarmHolds (State.notice
      { s with alarm := { s.alarm with
          alarms := s.alarm.alarms.set a { s.alarm.alarms[a] with state := st, lastValue := value }
          raisedList := s.alarm.raisedList.filter (· ≠ a) } } a)) ∧
    (∀ raised : State, s.alarmEntry? a = some e →
      ∀ i : Fin 4, e.priority = i.val + 1 →
      raised = { s with
        alarm := { s.alarm with
          alarms := s.alarm.alarms.set a
            { s.alarm.alarms[a] with
              state := .raised, occurrence := (s.alarm.alarms[a]).occurrence + 1, raiseTime := some s.timeBase
              ackTime := none, onDelay := none, lastValue := value }
          silenced := if e.horn = true then false else s.alarm.silenced
          captures := match e.group with
            | none => s.alarm.captures
            | some g => s.alarm.captures.set g
              (if (s.alarm.captures[g]).armed = true then
                { armed := false, followers := 0
                  first := some
                    { alarm := a, occurrence := (s.alarm.alarms[a]).occurrence + 1, time := s.timeBase
                      dayClock := s.dayClock, roundNo := s.floor.roundNo, snapshot := s.snapshot g } }
              else { s.alarm.captures[g] with followers := min 255 ((s.alarm.captures[g]).followers + 1) }) }
        shift := { s.shift with record := { s.shift.record with
          raised := s.shift.record.raised.set i (min top32 (s.shift.record.raised[i] + 1)) } } } →
      ∀ first last, s.alarm.raisedList.filter (· ≠ a) = first ++ last →
        (∀ x ∈ first, ¬ before (key raised a) (key raised x)) →
        (∀ x ∈ last.head?, before (key raised a) (key raised x)) →
        s.raise a e = State.act (State.reportAlarmHolds (State.notice
          { raised with alarm := { raised.alarm with raisedList := first ++ a :: last } } a)) a e.action) ∧
    (∀ g : Fin 4, ((∀ x, s.alarm.groups[g] = some x → x.inUse = false) → s.snapshot g = []) ∧
      ∀ x, s.alarm.groups[g] = some x → x.inUse = true → s.snapshot g = x.points.map fun p =>
        { point := p, value := if s.pointEntry? p = none then 0 else (s.points[p]).value
          quality := if s.pointEntry? p = none then .unset else (s.points[p]).quality }) ∧
    s.notice a = s.offerFrame
      { kind := .notice
        payload := BitVec.ofNat 8 a.val :: BitVec.ofNat 8 (s.alarm.alarms[a]).state.code ::
          (beBytes 2 (s.alarm.alarms[a]).occurrence.toNat ++ beBytes 6 s.timeBase ++
            beInt 4 (s.alarm.alarms[a]).lastValue) } ∧
    (∀ b : Fin 3, (s.reportAlarmHolds.burners[b]).hold = (s.burners[b]).hold.put .alarm (s.alarmHolds b)) ∧
    s.HoldsReported s.reportAlarmHolds .alarm s.alarmHolds ∧
    (∀ b : Fin 3, s.alarmHolds b = true ↔ ∃ x y, s.alarmEntry? x = some y ∧ y.action = .holdFuel b ∧
      ((s.alarm.alarms[x]).state = .raised ∨ (s.alarm.alarms[x]).state = .held)) ∧
    (s.act a .none = s ∧ (∀ b, s.act a (.holdFuel b) = s) ∧ (∀ b, s.act a (.tripBurner b) = s.tripBurner b a) ∧
      (∀ l, s.act a (.lineFault l) = s.faultLine l (.alarm a)) ∧ s.act a .coolerSafe = s.coolerToSafe)) ∧
  -- R121, R122, R124, R125: how an in-use entry moves when its condition rises or falls, and when it is SUPPRESSED
  -- with a true condition and its parent is not in an active state. R122, R128: the expiry of the on-delay and of the
  -- shelve.
  (∀ (s : State) (a : Fin 192) (e : AlarmEntry), s.alarmEntry? a = some e →
    (∀ u : State, s.sourceHolds e.source (s.alarm.alarms[a]).condition ≠ (s.alarm.alarms[a]).condition →
      u = { s with alarm := { s.alarm with
        alarms := s.alarm.alarms.set a
          { s.alarm.alarms[a] with
            condition := !(s.alarm.alarms[a]).condition
            reported := match e.source with
              | .internal c => s.conditionValue c
              | _ => (s.alarm.alarms[a]).reported } } } →
      s.visitAlarm false a =
        if (s.alarm.alarms[a]).condition = false then u.conditionRises a e else u.conditionFalls a e) ∧
    (s.sourceHolds e.source (s.alarm.alarms[a]).condition = (s.alarm.alarms[a]).condition →
      s.visitAlarm false a = s) ∧
    s.visitAlarm true a = s.raise a e ∧
    (s.orphaned a e = true ↔ (s.alarm.alarms[a]).state = .suppressed ∧ (s.alarm.alarms[a]).condition = true ∧
      s.parentActive e = false) ∧
    (s.parentActive e = true ↔ ∃ p y, e.parent = some p ∧ s.alarmEntry? p = some y ∧
      ((s.alarm.alarms[p]).state = .raised ∨ (s.alarm.alarms[p]).state = .held ∨
        (s.alarm.alarms[p]).state = .suppressed)) ∧
    (∀ u : State, u = { s with alarm := { s.alarm with
        alarms := s.alarm.alarms.set a { s.alarm.alarms[a] with onDelay := none } } } →
      s.onDelayEnds a e = (if u.parentActive e = true then u.alarmTo a e .suppressed else u.raise a e) ∧
      ((s.alarm.alarms[a]).state = .normal →
        s.conditionFalls a e = u ∧
        (∀ t, (s.alarm.alarms[a]).onDelay = some t → s.conditionRises a e = s) ∧
        ((s.alarm.alarms[a]).onDelay = none → e.onDelay = 0 → s.conditionRises a e = s.onDelayEnds a e) ∧
        ((s.alarm.alarms[a]).onDelay = none → e.onDelay ≠ 0 → s.conditionRises a e =
          { s with alarm := { s.alarm with
              alarms :=
                s.alarm.alarms.set a { s.alarm.alarms[a] with onDelay := some (s.timeBase + e.onDelay) } } }))) ∧
    ((s.alarm.alarms[a]).state = .returned → s.conditionRises a e = s.raise a e) ∧
    ((s.alarm.alarms[a]).state = .raised → s.conditionFalls a e = s.alarmTo a e .returned) ∧
    ((s.alarm.alarms[a]).state = .held ∨ (s.alarm.alarms[a]).state = .suppressed →
      s.conditionFalls a e = s.alarmTo a e .normal ∧ s.conditionRises a e = s) ∧
    ((s.alarm.alarms[a]).state = .shelved → s.conditionRises a e = s ∧ s.conditionFalls a e = s) ∧
    (∀ u : State, u = { s with alarm := { s.alarm with
        alarms := s.alarm.alarms.set a { s.alarm.alarms[a] with shelve := none } } } →
      ((s.alarm.alarms[a]).condition = false → s.shelveEnds a e = u.alarmTo a e .normal) ∧
      ((s.alarm.alarms[a]).condition = true → s.shelveEnds a e =
        if u.parentActive e = true then u.alarmTo a e .suppressed else u.raise a e))) ∧
  -- R122, R128: the expiry of a running on-delay or shelve timer of an in-use entry. A timer that does not run brings
  -- nothing about (log entry 5).
  (∀ (s : State) (a : Fin 192) (e : AlarmEntry) (t : Time), s.alarmEntry? a = some e →
    ((s.alarm.alarms[a]).onDelay = some t → Machine.exec (.onDelayExpiry a) s =
      .next (State.onDelayEnds { s with timeBase := max s.timeBase t } a e).finish.driveLines) ∧
    ((s.alarm.alarms[a]).onDelay = none → Machine.exec (.onDelayExpiry a) s = .next s.finish.driveLines) ∧
    ((s.alarm.alarms[a]).shelve = some t → Machine.exec (.shelveTimerExpiry a) s =
      .next (State.shelveEnds { s with timeBase := max s.timeBase t } a e).finish.driveLines) ∧
    ((s.alarm.alarms[a]).shelve = none → Machine.exec (.shelveTimerExpiry a) s = .next s.finish.driveLines))

/-- R126 to R128, R131, R135, R137: the requests that concern alarms. -/
def Obligations.AlarmRequests : Prop :=
  -- R126 to R128: ACK, SHELVE and UNSHELVE of an alarm, with their refusals in the order of the rules (log entry 18).
  (∀ (s : State) (number : Byte) (args : List Byte) (is : List Item) (a : Fin 192)
    (answered : Byte → State → Answer → Host.Outcome State Fault Refusal),
    (∀ k u x, answered k u x = .next (u.answered number k x)) → intOf is 1 = some (a.val : Int) →
    (∀ n : Int, s.offers 0x1A#8 number args → readArgs [intArg, intArg] args = some is → intOf is 2 = some n →
      (s.alarmEntry? a = none →
        Machine.exec .ack s = answered 0x1A#8 s.popRequest { result := .notConfigured }) ∧
      (∀ e, s.alarmEntry? a = some e →
        (n ≠ (s.alarm.alarms[a]).occurrence.toNat →
          Machine.exec .ack s = answered 0x1A#8 s.popRequest { result := .stale }) ∧
        (n = (s.alarm.alarms[a]).occurrence.toNat → ∀ acked : State,
          acked = { s.popRequest with alarm := { s.alarm with
            alarms := s.alarm.alarms.set a { s.alarm.alarms[a] with ackTime := some s.timeBase } } } →
          ((s.alarm.alarms[a]).state = .raised → Machine.exec .ack s =
            answered 0x1A#8 (acked.alarmTo a e .held).finish Answer.ok) ∧
          ((s.alarm.alarms[a]).state = .returned → Machine.exec .ack s =
            answered 0x1A#8 (acked.alarmTo a e .normal).finish Answer.ok) ∧
          ((s.alarm.alarms[a]).state ≠ .raised → (s.alarm.alarms[a]).state ≠ .returned → Machine.exec .ack s =
            answered 0x1A#8 s.popRequest { result := .notAckable })))) ∧
    (∀ n : Int, s.offers 0x1B#8 number args → readArgs [intArg, intArg] args = some is → intOf is 2 = some n →
      (n < 1 ∨ 480 < n → Machine.exec .shelve s = answered 0x1B#8 s.popRequest { result := .invalid }) ∧
      (1 ≤ n → n ≤ 480 →
        (s.alarmEntry? a = none →
          Machine.exec .shelve s = answered 0x1B#8 s.popRequest { result := .notConfigured }) ∧
        (∀ e, s.alarmEntry? a = some e →
          (e.priority = 1 ∨ e.shelving = false →
            Machine.exec .shelve s = answered 0x1B#8 s.popRequest { result := .notPermitted }) ∧
          (e.priority ≠ 1 → e.shelving = true → ∀ (due : Time) (timed : Option Time → State),
            due = s.timeBase + n.toNat * 60000 →
            (∀ x, timed x = { s.popRequest with alarm := { s.alarm with
              alarms := s.alarm.alarms.set a
                { s.alarm.alarms[a] with
                  shelve := x
                  onDelay := if (s.alarm.alarms[a]).state = .shelved then (s.alarm.alarms[a]).onDelay
                    else none } } }) →
            (∀ t, (s.alarm.alarms[a]).state = .shelved → (s.alarm.alarms[a]).shelve = some t →
              Machine.exec .shelve s = answered 0x1B#8 (timed (some (max t due))) Answer.ok) ∧
            ((s.alarm.alarms[a]).state ≠ .shelved → Machine.exec .shelve s = answered 0x1B#8
              (((timed (some due)).alarmTo a e .shelved).post fun r =>
                { r with shelves := min top32 (r.shelves + 1) }).finish Answer.ok))))) ∧
    (s.offers 0x1C#8 number args → readArgs [intArg] args = some is →
      (s.alarmEntry? a = none →
        Machine.exec .unshelve s = answered 0x1C#8 s.popRequest { result := .notConfigured }) ∧
      (∀ e, s.alarmEntry? a = some e →
        ((s.alarm.alarms[a]).state ≠ .shelved →
          Machine.exec .unshelve s = answered 0x1C#8 s.popRequest { result := .notPermitted }) ∧
        ((s.alarm.alarms[a]).state = .shelved → Machine.exec .unshelve s =
          answered 0x1C#8 (s.popRequest.shelveEnds a e).finish Answer.ok)))) ∧
  -- R131: SILENCE sets the silenced flag. R135: FIRSTOUT_REARM arms and empties the group's record; another group
  -- number is BAD_INDEX. R137: READ_ALARM carries the entry's dynamic fields.
  (∀ (s : State) (number : Byte) (args : List Byte) (is : List Item),
    (s.offers 0x1D#8 number [] → Machine.exec .silence s = .next (State.answered
      { s.popRequest with alarm := { s.alarm with silenced := true } } number 0x1D#8 Answer.ok)) ∧
    (s.offers 0x1E#8 number args → readArgs [intArg] args = some is →
      (∀ g : Fin 4, intOf is 1 = some ((g.val : Int) + 1) → Machine.exec .firstoutRearm s = .next (State.answered
        { s.popRequest with alarm := { s.alarm with
            captures := s.alarm.captures.set g { armed := true, first := none, followers := 0 } } }
        number 0x1E#8 Answer.ok)) ∧
      (∀ n : Int, intOf is 1 = some n → n < 1 ∨ 4 < n → Machine.exec .firstoutRearm s =
        .next (s.popRequest.answered number 0x1E#8 { result := .badIndex }))) ∧
    (s.offers 0x1F#8 number args → readArgs [intArg] args = some is →
      (∀ a : Fin 192, intOf is 1 = some (a.val : Int) → Machine.exec .readAlarm s =
        .next (s.popRequest.answered number 0x1F#8 { result := .done, body := s.alarmItems a })) ∧
      (∀ n : Int, intOf is 1 = some n → n < 0 ∨ 191 < n → Machine.exec .readAlarm s =
        .next (s.popRequest.answered number 0x1F#8 { result := .badIndex })))) ∧
  -- R137: READ_ALARM carries the dynamic fields of Table 7-5, with the ms that each running timer has left, whether
  -- the entry is in use, and, where it names a parent, whether that is in an active state; absent ones are left out
  -- (log entry 24).
  (∀ (s : State) (a : Fin 192) (x : Alarm) (opt : Option (List Byte) → List Byte), x = s.alarm.alarms[a] →
    (∀ y, opt y = y.getD []) →
    (x.entry = none ∨ (∃ e, x.entry = some e ∧ e.parent = none) → s.alarmItems a =
      itemEnum 1 x.state.code ++ itemInt 2 x.condition.toNat ++ itemInt 3 x.occurrence.toNat ++
        opt (x.raiseTime.map fun t => itemInt 4 (t % 2 ^ 48 : Nat)) ++
        opt (x.ackTime.map fun t => itemInt 5 (t % 2 ^ 48 : Nat)) ++ itemInt 6 x.lastValue ++
        opt (x.onDelay.map fun t => itemInt 7 (t - s.timeBase : Nat)) ++
        opt (x.shelve.map fun t => itemInt 8 (t - s.timeBase : Nat)) ++ itemInt 9 (s.alarmEntry? a).isSome.toNat) ∧
    (∀ e p, x.entry = some e → e.parent = some p → s.alarmItems a =
      itemEnum 1 x.state.code ++ itemInt 2 x.condition.toNat ++ itemInt 3 x.occurrence.toNat ++
        opt (x.raiseTime.map fun t => itemInt 4 (t % 2 ^ 48 : Nat)) ++
        opt (x.ackTime.map fun t => itemInt 5 (t % 2 ^ 48 : Nat)) ++ itemInt 6 x.lastValue ++
        opt (x.onDelay.map fun t => itemInt 7 (t - s.timeBase : Nat)) ++
        opt (x.shelve.map fun t => itemInt 8 (t - s.timeBase : Nat)) ++ itemInt 9 (s.alarmEntry? a).isSome.toNat ++
        itemInt 10 (s.parentActive e).toNat))

/-- R132: after every command the TRIP line is asserted exactly while a burner is in LOCKOUT or an in-use trip-routed
entry is RAISED or HELD. R131: the HORN line is asserted exactly while an in-use horn-routed entry is RAISED or RETURNED
and the silenced flag is clear. -/
def Obligations.TripAndHornFollow : Prop :=
  ∀ (i : Instr) (s u : State), Machine.exec i s = .next u →
    (u.trip = true ↔ (∃ b : Fin 3, (u.burners[b]).state = .lockout) ∨
      ∃ a e, u.alarmEntry? a = some e ∧ e.trip = true ∧
        ((u.alarm.alarms[a]).state = .raised ∨ (u.alarm.alarms[a]).state = .held)) ∧
    (u.horn = true ↔ u.alarm.silenced = false ∧ ∃ a e, u.alarmEntry? a = some e ∧ e.horn = true ∧
      ((u.alarm.alarms[a]).state = .raised ∨ (u.alarm.alarms[a]).state = .returned))

/-! ### Shift accounting (chapter 8) -/

/-- R140, R143 to R145, R147 to R149: closes of the record, and the shift unit's requests. -/
def Obligations.ShiftCloses : Prop :=
  -- R144: a close posts the run time of each burner in RUN and the red-river time up to now, seals the record with
  -- the next sequence number, enters it in the ring, opens an empty record and queues the report. R145: a ring of 8
  -- records loses its oldest. R147: the flags of the record opened. R149: the snapshot of the open record is the
  -- record as posted so.
  (∀ (s posted : State), posted = s.timePostings →
    (posted =
      { s with
        burners := Vector.ofFn fun b => if (s.burners[b]).state = .run then
          { s.burners[b] with runPosted := s.timeBase } else s.burners[b]
        cooler := { s.cooler with redMark := s.cooler.redMark.map fun _ => s.timeBase }
        shift := { s.shift with record := { s.shift.record with
          burners := Vector.ofFn fun b => { s.shift.record.burners[b] with runTime := s.runTimeNow b }
          redRiver := match s.cooler.redMark with
            | some t => add64 s.shift.record.redRiver (s.timeBase - t)
            | none => s.shift.record.redRiver } } }) ∧
    s.openSnapshot = posted.shift.record ∧
    (∀ (cause : CloseCause) (index : Nat) (closed : ClosedRecord) (oldest : List ClosedRecord), cause ≠ .reset →
      closed = { body := posted.shift.record, sequence := s.shift.nextSequence, closeTime := s.timeBase
                 closeDay := s.dayClock, cause := cause, collected := false } →
      oldest = (if s.shift.ring.length < 8 then [] else s.shift.ring.take 1) →
      s.closeShift cause index = State.offerFrame
        { posted with shift := { posted.shift with
            ring := s.shift.ring.drop oldest.length ++ [closed]
            nextSequence := s.shift.nextSequence + 1
            boundary := s.nextBoundary
            record :=
              { index := index, openTime := s.timeBase, openDay := s.dayClock
                flags :=
                  { clockUnset := s.dayClock.isNone, clockChanged := false, continued := false
                    countersImplausible := false, reportsLost := oldest.any fun r => !r.collected } } } }
        { kind := .report, payload := closed.layout })) ∧
  -- R143: the expiry of the boundary timer closes the record SCHEDULED. R148: CLOSE_SHIFT closes it COMMANDED. A
  -- boundary timer that does not run brings nothing about (log entry 5).
  (∀ (s : State) (number : Byte),
    (∀ b, s.shift.boundary = some b → Machine.exec .boundaryTimerExpiry s =
      .next (State.closeShift { s with timeBase := max s.timeBase b.time } .scheduled b.index).driveLines) ∧
    (s.shift.boundary = none → Machine.exec .boundaryTimerExpiry s = .next s.driveLines) ∧
    (s.offers 0x21#8 number [] → Machine.exec .closeShift s =
      .next ((s.popRequest.closeShift .commanded 0).answered number 0x21#8 Answer.ok))) ∧
  -- R149: READ_REPORT of a sequence number in the ring carries that record and marks it collected, of another is
  -- NOT_FOUND, and without a number carries the open record, which is left as it is. R140: SET_CLOCK.
  (∀ (s : State) (number : Byte) (args : List Byte) (is : List Item),
    (s.offers 0x20#8 number args → readArgs [{ kind := .int, mandatory := false }] args = some is →
      (∀ q₁ r q₂, s.shift.ring = q₁ ++ r :: q₂ → (∀ x ∈ q₁ ++ q₂, x.sequence ≠ r.sequence) →
        intOf is 1 = some (r.sequence.toNat : Int) → Machine.exec .readReport s = .next (State.answered
          { s.popRequest with shift := { s.shift with ring := q₁ ++ { r with collected := true } :: q₂ } }
          number 0x20#8 { result := .done, body := r.layout })) ∧
      (∀ n : Int, intOf is 1 = some n → (∀ x ∈ s.shift.ring, n ≠ x.sequence.toNat) →
        Machine.exec .readReport s = .next (s.popRequest.answered number 0x20#8 { result := .notFound })) ∧
      (intOf is 1 = none → Machine.exec .readReport s = .next
        (s.popRequest.answered number 0x20#8 { result := .done, body := s.openSnapshot.openLayout }))) ∧
    (s.offers 0x22#8 number args → readArgs [intArg, intArg] args = some is →
      ∀ day ms : Int, intOf is 1 = some day → intOf is 2 = some ms →
      (day < 0 ∨ 65535 < day ∨ ms < 0 ∨ 86399999 < ms → Machine.exec .setClock s =
        .next (s.popRequest.answered number 0x22#8 { result := .invalid })) ∧
      (0 ≤ day → day ≤ 65535 → 0 ≤ ms → ms ≤ 86399999 → ∀ set : State,
        set = { s.popRequest with shift := { s.shift with
          clock := some { time := s.timeBase, day := day.toNat, ms := ms.toNat } } } →
        Machine.exec .setClock s = .next (State.answered
          { set with shift := { set.shift with
              boundary := set.nextBoundary
              record := { s.shift.record with flags := { s.shift.record.flags with clockChanged := true } } } }
          number 0x22#8 Answer.ok)))) ∧
  -- R167, Table 10-6: the 242 bytes of a shift record. An amount that its bytes do not hold is carried as the
  -- greatest value they hold, and sets the saturated bit. The open record carries 0 for sequence number, close time
  -- and cause, and a clear bit 5 (log entry 24).
  (∀ (r : ShiftRecord) (amounts : List (Nat × Nat)) (day : Option DayReading → List Byte) (flags : Bool → Nat)
    (laidOut : Nat → Time → Option DayReading → Nat → Bool → List Byte),
    amounts =
      (List.finRange 6).flatMap (fun l =>
        [(5, (r.lines[l]).mass.toNat), (5, (r.lines[l]).heat.toNat), (3, (r.lines[l]).pieces)]) ++
      (List.finRange 3).flatMap (fun b =>
        [(5, (r.burners[b]).runTime.toNat), (3, (r.burners[b]).starts), (3, (r.burners[b]).lockouts)]) ++
      (List.finRange 4).flatMap (fun g =>
        [(3, (r.runs[g]).confirmed), (3, (r.runs[g]).dropped), (3, (r.runs[g]).skipped), (3, (r.runs[g]).abandoned),
          (5, (r.runs[g]).clinker.toNat)]) ++
      (5, r.redRiver.toNat) :: (List.finRange 4).map (fun i => (3, r.raised[i])) ++
      [(3, r.shelves), (3, r.lostA), (3, r.lostB), (3, r.overruns), (3, r.noticesLost)] →
    (∀ d, day d = match d with
      | some x => beBytes 2 x.day ++ beBytes 4 x.ms
      | none => [0, 0, 0, 0, 0, 0]) →
    (∀ unset, flags unset = r.flags.clockUnset.toNat + 2 * r.flags.clockChanged.toNat +
      4 * r.flags.continued.toNat + 8 * r.flags.countersImplausible.toNat + 16 * r.flags.reportsLost.toNat +
      32 * unset.toNat + if ∃ x ∈ amounts, 256 ^ x.1 ≤ x.2 then 128 else 0) →
    (∀ sequence time d cause unset, laidOut sequence time d cause unset =
      beBytes 4 sequence ++ beBytes 1 r.index ++ beBytes 6 r.openTime ++ day r.openDay ++ beBytes 6 time ++ day d ++
        beBytes 1 cause ++ beBytes 1 (flags unset) ++
        amounts.flatMap fun x => beBytes x.1 (min x.2 (256 ^ x.1 - 1))) →
    (∀ c : ClosedRecord, c.body = r → c.layout =
      laidOut c.sequence.toNat c.closeTime c.closeDay c.cause.code c.closeDay.isNone ∧ c.layout.length = 242) ∧
    r.openLayout = laidOut 0 0 none 0 false)

/-- R142: the next boundary is the earliest moment strictly later than the present whose ms of the day is a start time
of the plan; with the clock unset or the plan empty there is none. -/
def Obligations.NextBoundary : Prop :=
  ∀ s : State,
    (s.shift.clock = none ∨ s.shift.plan = [] → s.nextBoundary = none) ∧
    (∀ c, s.shift.clock = some c → c.time ≤ s.timeBase → s.shift.plan ≠ [] → (∀ m ∈ s.shift.plan, m < 1440) →
      ∃ b, s.nextBoundary = some b ∧ s.timeBase < b.time ∧ 1 ≤ b.index ∧
        (∃ m, s.shift.plan[b.index - 1]? = some m ∧ (c.reading b.time).ms = m * 60000) ∧
        ∀ t, s.timeBase < t → t < b.time → ∀ m ∈ s.shift.plan, (c.reading t).ms ≠ m * 60000)
end

