-- ==== Sys2Proof/Laws/State.lean ====
section
/-!
SUPPORT. What each update of the state does to each field, so that no later proof unfolds a record update.
-/
namespace Sys2Proof.Machine

/-! `modFloor` -/

@[simp] theorem State.modFloor_timeBase (s : State) (f : Floor → Floor) : (s.modFloor f).timeBase = s.timeBase := rfl
@[simp] theorem State.modFloor_floor (s : State) (f : Floor → Floor) : (s.modFloor f).floor = f s.floor := rfl
@[simp] theorem State.modFloor_points (s : State) (f : Floor → Floor) : (s.modFloor f).points = s.points := rfl
@[simp] theorem State.modFloor_burners (s : State) (f : Floor → Floor) : (s.modFloor f).burners = s.burners := rfl
@[simp] theorem State.modFloor_lines (s : State) (f : Floor → Floor) : (s.modFloor f).lines = s.lines := rfl
@[simp] theorem State.modFloor_cooler (s : State) (f : Floor → Floor) : (s.modFloor f).cooler = s.cooler := rfl
@[simp] theorem State.modFloor_queue (s : State) (f : Floor → Floor) : (s.modFloor f).queue = s.queue := rfl
@[simp] theorem State.modFloor_filters (s : State) (f : Floor → Floor) : (s.modFloor f).filters = s.filters := rfl
@[simp] theorem State.modFloor_alarm (s : State) (f : Floor → Floor) : (s.modFloor f).alarm = s.alarm := rfl
@[simp] theorem State.modFloor_shift (s : State) (f : Floor → Floor) : (s.modFloor f).shift = s.shift := rfl
@[simp] theorem State.modFloor_port (s : State) (f : Floor → Floor) : (s.modFloor f).port = s.port := rfl
@[simp] theorem State.modFloor_trip (s : State) (f : Floor → Floor) : (s.modFloor f).trip = s.trip := rfl
@[simp] theorem State.modFloor_horn (s : State) (f : Floor → Floor) : (s.modFloor f).horn = s.horn := rfl
@[simp] theorem State.modFloor_freeIndex (s : State) (f : Floor → Floor) :
    (s.modFloor f).freeIndex = s.freeIndex := rfl
@[simp] theorem State.modFloor_pending (s : State) (f : Floor → Floor) : (s.modFloor f).pending = s.pending := rfl

/-! `modPoint` -/

@[simp] theorem State.modPoint_timeBase (s : State) (p : Fin 256) (f : Point → Point) :
    (s.modPoint p f).timeBase = s.timeBase := rfl
@[simp] theorem State.modPoint_floor (s : State) (p : Fin 256) (f : Point → Point) :
    (s.modPoint p f).floor = s.floor := rfl
@[simp] theorem State.modPoint_points (s : State) (p : Fin 256) (f : Point → Point) :
    (s.modPoint p f).points = s.points.set p (f s.points[p]) := rfl
@[simp] theorem State.modPoint_burners (s : State) (p : Fin 256) (f : Point → Point) :
    (s.modPoint p f).burners = s.burners := rfl
@[simp] theorem State.modPoint_lines (s : State) (p : Fin 256) (f : Point → Point) :
    (s.modPoint p f).lines = s.lines := rfl
@[simp] theorem State.modPoint_cooler (s : State) (p : Fin 256) (f : Point → Point) :
    (s.modPoint p f).cooler = s.cooler := rfl
@[simp] theorem State.modPoint_queue (s : State) (p : Fin 256) (f : Point → Point) :
    (s.modPoint p f).queue = s.queue := rfl
@[simp] theorem State.modPoint_filters (s : State) (p : Fin 256) (f : Point → Point) :
    (s.modPoint p f).filters = s.filters := rfl
@[simp] theorem State.modPoint_alarm (s : State) (p : Fin 256) (f : Point → Point) :
    (s.modPoint p f).alarm = s.alarm := rfl
@[simp] theorem State.modPoint_shift (s : State) (p : Fin 256) (f : Point → Point) :
    (s.modPoint p f).shift = s.shift := rfl
@[simp] theorem State.modPoint_port (s : State) (p : Fin 256) (f : Point → Point) :
    (s.modPoint p f).port = s.port := rfl
@[simp] theorem State.modPoint_trip (s : State) (p : Fin 256) (f : Point → Point) :
    (s.modPoint p f).trip = s.trip := rfl
@[simp] theorem State.modPoint_horn (s : State) (p : Fin 256) (f : Point → Point) :
    (s.modPoint p f).horn = s.horn := rfl
@[simp] theorem State.modPoint_freeIndex (s : State) (p : Fin 256) (f : Point → Point) :
    (s.modPoint p f).freeIndex = s.freeIndex := rfl
@[simp] theorem State.modPoint_pending (s : State) (p : Fin 256) (f : Point → Point) :
    (s.modPoint p f).pending = s.pending := rfl

/-! `modBurner` -/

@[simp] theorem State.modBurner_timeBase (s : State) (b : Fin 3) (f : Burner → Burner) :
    (s.modBurner b f).timeBase = s.timeBase := rfl
@[simp] theorem State.modBurner_floor (s : State) (b : Fin 3) (f : Burner → Burner) :
    (s.modBurner b f).floor = s.floor := rfl
@[simp] theorem State.modBurner_points (s : State) (b : Fin 3) (f : Burner → Burner) :
    (s.modBurner b f).points = s.points := rfl
@[simp] theorem State.modBurner_burners (s : State) (b : Fin 3) (f : Burner → Burner) :
    (s.modBurner b f).burners = s.burners.set b (f s.burners[b]) := rfl
@[simp] theorem State.modBurner_lines (s : State) (b : Fin 3) (f : Burner → Burner) :
    (s.modBurner b f).lines = s.lines := rfl
@[simp] theorem State.modBurner_cooler (s : State) (b : Fin 3) (f : Burner → Burner) :
    (s.modBurner b f).cooler = s.cooler := rfl
@[simp] theorem State.modBurner_queue (s : State) (b : Fin 3) (f : Burner → Burner) :
    (s.modBurner b f).queue = s.queue := rfl
@[simp] theorem State.modBurner_filters (s : State) (b : Fin 3) (f : Burner → Burner) :
    (s.modBurner b f).filters = s.filters := rfl
@[simp] theorem State.modBurner_alarm (s : State) (b : Fin 3) (f : Burner → Burner) :
    (s.modBurner b f).alarm = s.alarm := rfl
@[simp] theorem State.modBurner_shift (s : State) (b : Fin 3) (f : Burner → Burner) :
    (s.modBurner b f).shift = s.shift := rfl
@[simp] theorem State.modBurner_port (s : State) (b : Fin 3) (f : Burner → Burner) :
    (s.modBurner b f).port = s.port := rfl
@[simp] theorem State.modBurner_trip (s : State) (b : Fin 3) (f : Burner → Burner) :
    (s.modBurner b f).trip = s.trip := rfl
@[simp] theorem State.modBurner_horn (s : State) (b : Fin 3) (f : Burner → Burner) :
    (s.modBurner b f).horn = s.horn := rfl
@[simp] theorem State.modBurner_freeIndex (s : State) (b : Fin 3) (f : Burner → Burner) :
    (s.modBurner b f).freeIndex = s.freeIndex := rfl
@[simp] theorem State.modBurner_pending (s : State) (b : Fin 3) (f : Burner → Burner) :
    (s.modBurner b f).pending = s.pending := rfl

/-! `modLine` -/

@[simp] theorem State.modLine_timeBase (s : State) (l : Fin 6) (f : Line → Line) :
    (s.modLine l f).timeBase = s.timeBase := rfl
@[simp] theorem State.modLine_floor (s : State) (l : Fin 6) (f : Line → Line) : (s.modLine l f).floor = s.floor := rfl
@[simp] theorem State.modLine_points (s : State) (l : Fin 6) (f : Line → Line) :
    (s.modLine l f).points = s.points := rfl
@[simp] theorem State.modLine_burners (s : State) (l : Fin 6) (f : Line → Line) :
    (s.modLine l f).burners = s.burners := rfl
@[simp] theorem State.modLine_lines (s : State) (l : Fin 6) (f : Line → Line) :
    (s.modLine l f).lines = s.lines.set l (f s.lines[l]) := rfl
@[simp] theorem State.modLine_cooler (s : State) (l : Fin 6) (f : Line → Line) :
    (s.modLine l f).cooler = s.cooler := rfl
@[simp] theorem State.modLine_queue (s : State) (l : Fin 6) (f : Line → Line) : (s.modLine l f).queue = s.queue := rfl
@[simp] theorem State.modLine_filters (s : State) (l : Fin 6) (f : Line → Line) :
    (s.modLine l f).filters = s.filters := rfl
@[simp] theorem State.modLine_alarm (s : State) (l : Fin 6) (f : Line → Line) : (s.modLine l f).alarm = s.alarm := rfl
@[simp] theorem State.modLine_shift (s : State) (l : Fin 6) (f : Line → Line) : (s.modLine l f).shift = s.shift := rfl
@[simp] theorem State.modLine_port (s : State) (l : Fin 6) (f : Line → Line) : (s.modLine l f).port = s.port := rfl
@[simp] theorem State.modLine_trip (s : State) (l : Fin 6) (f : Line → Line) : (s.modLine l f).trip = s.trip := rfl
@[simp] theorem State.modLine_horn (s : State) (l : Fin 6) (f : Line → Line) : (s.modLine l f).horn = s.horn := rfl
@[simp] theorem State.modLine_freeIndex (s : State) (l : Fin 6) (f : Line → Line) :
    (s.modLine l f).freeIndex = s.freeIndex := rfl
@[simp] theorem State.modLine_pending (s : State) (l : Fin 6) (f : Line → Line) :
    (s.modLine l f).pending = s.pending := rfl

/-! `modCooler` -/

@[simp] theorem State.modCooler_timeBase (s : State) (f : Cooler → Cooler) :
    (s.modCooler f).timeBase = s.timeBase := rfl
@[simp] theorem State.modCooler_floor (s : State) (f : Cooler → Cooler) : (s.modCooler f).floor = s.floor := rfl
@[simp] theorem State.modCooler_points (s : State) (f : Cooler → Cooler) : (s.modCooler f).points = s.points := rfl
@[simp] theorem State.modCooler_burners (s : State) (f : Cooler → Cooler) : (s.modCooler f).burners = s.burners := rfl
@[simp] theorem State.modCooler_lines (s : State) (f : Cooler → Cooler) : (s.modCooler f).lines = s.lines := rfl
@[simp] theorem State.modCooler_cooler (s : State) (f : Cooler → Cooler) : (s.modCooler f).cooler = f s.cooler := rfl
@[simp] theorem State.modCooler_queue (s : State) (f : Cooler → Cooler) : (s.modCooler f).queue = s.queue := rfl
@[simp] theorem State.modCooler_filters (s : State) (f : Cooler → Cooler) : (s.modCooler f).filters = s.filters := rfl
@[simp] theorem State.modCooler_alarm (s : State) (f : Cooler → Cooler) : (s.modCooler f).alarm = s.alarm := rfl
@[simp] theorem State.modCooler_shift (s : State) (f : Cooler → Cooler) : (s.modCooler f).shift = s.shift := rfl
@[simp] theorem State.modCooler_port (s : State) (f : Cooler → Cooler) : (s.modCooler f).port = s.port := rfl
@[simp] theorem State.modCooler_trip (s : State) (f : Cooler → Cooler) : (s.modCooler f).trip = s.trip := rfl
@[simp] theorem State.modCooler_horn (s : State) (f : Cooler → Cooler) : (s.modCooler f).horn = s.horn := rfl
@[simp] theorem State.modCooler_freeIndex (s : State) (f : Cooler → Cooler) :
    (s.modCooler f).freeIndex = s.freeIndex := rfl
@[simp] theorem State.modCooler_pending (s : State) (f : Cooler → Cooler) : (s.modCooler f).pending = s.pending := rfl

/-! `modQueue` -/

@[simp] theorem State.modQueue_timeBase (s : State) (f : CommandQueue → CommandQueue) :
    (s.modQueue f).timeBase = s.timeBase := rfl
@[simp] theorem State.modQueue_floor (s : State) (f : CommandQueue → CommandQueue) :
    (s.modQueue f).floor = s.floor := rfl
@[simp] theorem State.modQueue_points (s : State) (f : CommandQueue → CommandQueue) :
    (s.modQueue f).points = s.points := rfl
@[simp] theorem State.modQueue_burners (s : State) (f : CommandQueue → CommandQueue) :
    (s.modQueue f).burners = s.burners := rfl
@[simp] theorem State.modQueue_lines (s : State) (f : CommandQueue → CommandQueue) :
    (s.modQueue f).lines = s.lines := rfl
@[simp] theorem State.modQueue_cooler (s : State) (f : CommandQueue → CommandQueue) :
    (s.modQueue f).cooler = s.cooler := rfl
@[simp] theorem State.modQueue_queue (s : State) (f : CommandQueue → CommandQueue) :
    (s.modQueue f).queue = f s.queue := rfl
@[simp] theorem State.modQueue_filters (s : State) (f : CommandQueue → CommandQueue) :
    (s.modQueue f).filters = s.filters := rfl
@[simp] theorem State.modQueue_alarm (s : State) (f : CommandQueue → CommandQueue) :
    (s.modQueue f).alarm = s.alarm := rfl
@[simp] theorem State.modQueue_shift (s : State) (f : CommandQueue → CommandQueue) :
    (s.modQueue f).shift = s.shift := rfl
@[simp] theorem State.modQueue_port (s : State) (f : CommandQueue → CommandQueue) :
    (s.modQueue f).port = s.port := rfl
@[simp] theorem State.modQueue_trip (s : State) (f : CommandQueue → CommandQueue) :
    (s.modQueue f).trip = s.trip := rfl
@[simp] theorem State.modQueue_horn (s : State) (f : CommandQueue → CommandQueue) :
    (s.modQueue f).horn = s.horn := rfl
@[simp] theorem State.modQueue_freeIndex (s : State) (f : CommandQueue → CommandQueue) :
    (s.modQueue f).freeIndex = s.freeIndex := rfl
@[simp] theorem State.modQueue_pending (s : State) (f : CommandQueue → CommandQueue) :
    (s.modQueue f).pending = s.pending := rfl

/-! `modAlarmUnit` -/

@[simp] theorem State.modAlarmUnit_timeBase (s : State) (f : AlarmUnit → AlarmUnit) :
    (s.modAlarmUnit f).timeBase = s.timeBase := rfl
@[simp] theorem State.modAlarmUnit_floor (s : State) (f : AlarmUnit → AlarmUnit) :
    (s.modAlarmUnit f).floor = s.floor := rfl
@[simp] theorem State.modAlarmUnit_points (s : State) (f : AlarmUnit → AlarmUnit) :
    (s.modAlarmUnit f).points = s.points := rfl
@[simp] theorem State.modAlarmUnit_burners (s : State) (f : AlarmUnit → AlarmUnit) :
    (s.modAlarmUnit f).burners = s.burners := rfl
@[simp] theorem State.modAlarmUnit_lines (s : State) (f : AlarmUnit → AlarmUnit) :
    (s.modAlarmUnit f).lines = s.lines := rfl
@[simp] theorem State.modAlarmUnit_cooler (s : State) (f : AlarmUnit → AlarmUnit) :
    (s.modAlarmUnit f).cooler = s.cooler := rfl
@[simp] theorem State.modAlarmUnit_queue (s : State) (f : AlarmUnit → AlarmUnit) :
    (s.modAlarmUnit f).queue = s.queue := rfl
@[simp] theorem State.modAlarmUnit_filters (s : State) (f : AlarmUnit → AlarmUnit) :
    (s.modAlarmUnit f).filters = s.filters := rfl
@[simp] theorem State.modAlarmUnit_alarm (s : State) (f : AlarmUnit → AlarmUnit) :
    (s.modAlarmUnit f).alarm = f s.alarm := rfl
@[simp] theorem State.modAlarmUnit_shift (s : State) (f : AlarmUnit → AlarmUnit) :
    (s.modAlarmUnit f).shift = s.shift := rfl
@[simp] theorem State.modAlarmUnit_port (s : State) (f : AlarmUnit → AlarmUnit) :
    (s.modAlarmUnit f).port = s.port := rfl
@[simp] theorem State.modAlarmUnit_trip (s : State) (f : AlarmUnit → AlarmUnit) :
    (s.modAlarmUnit f).trip = s.trip := rfl
@[simp] theorem State.modAlarmUnit_horn (s : State) (f : AlarmUnit → AlarmUnit) :
    (s.modAlarmUnit f).horn = s.horn := rfl
@[simp] theorem State.modAlarmUnit_freeIndex (s : State) (f : AlarmUnit → AlarmUnit) :
    (s.modAlarmUnit f).freeIndex = s.freeIndex := rfl
@[simp] theorem State.modAlarmUnit_pending (s : State) (f : AlarmUnit → AlarmUnit) :
    (s.modAlarmUnit f).pending = s.pending := rfl

/-! `modShift` -/

@[simp] theorem State.modShift_timeBase (s : State) (f : Shift → Shift) : (s.modShift f).timeBase = s.timeBase := rfl
@[simp] theorem State.modShift_floor (s : State) (f : Shift → Shift) : (s.modShift f).floor = s.floor := rfl
@[simp] theorem State.modShift_points (s : State) (f : Shift → Shift) : (s.modShift f).points = s.points := rfl
@[simp] theorem State.modShift_burners (s : State) (f : Shift → Shift) : (s.modShift f).burners = s.burners := rfl
@[simp] theorem State.modShift_lines (s : State) (f : Shift → Shift) : (s.modShift f).lines = s.lines := rfl
@[simp] theorem State.modShift_cooler (s : State) (f : Shift → Shift) : (s.modShift f).cooler = s.cooler := rfl
@[simp] theorem State.modShift_queue (s : State) (f : Shift → Shift) : (s.modShift f).queue = s.queue := rfl
@[simp] theorem State.modShift_filters (s : State) (f : Shift → Shift) : (s.modShift f).filters = s.filters := rfl
@[simp] theorem State.modShift_alarm (s : State) (f : Shift → Shift) : (s.modShift f).alarm = s.alarm := rfl
@[simp] theorem State.modShift_shift (s : State) (f : Shift → Shift) : (s.modShift f).shift = f s.shift := rfl
@[simp] theorem State.modShift_port (s : State) (f : Shift → Shift) : (s.modShift f).port = s.port := rfl
@[simp] theorem State.modShift_trip (s : State) (f : Shift → Shift) : (s.modShift f).trip = s.trip := rfl
@[simp] theorem State.modShift_horn (s : State) (f : Shift → Shift) : (s.modShift f).horn = s.horn := rfl
@[simp] theorem State.modShift_freeIndex (s : State) (f : Shift → Shift) :
    (s.modShift f).freeIndex = s.freeIndex := rfl
@[simp] theorem State.modShift_pending (s : State) (f : Shift → Shift) : (s.modShift f).pending = s.pending := rfl

/-! `modPort` -/

@[simp] theorem State.modPort_timeBase (s : State) (f : Port → Port) : (s.modPort f).timeBase = s.timeBase := rfl
@[simp] theorem State.modPort_floor (s : State) (f : Port → Port) : (s.modPort f).floor = s.floor := rfl
@[simp] theorem State.modPort_points (s : State) (f : Port → Port) : (s.modPort f).points = s.points := rfl
@[simp] theorem State.modPort_burners (s : State) (f : Port → Port) : (s.modPort f).burners = s.burners := rfl
@[simp] theorem State.modPort_lines (s : State) (f : Port → Port) : (s.modPort f).lines = s.lines := rfl
@[simp] theorem State.modPort_cooler (s : State) (f : Port → Port) : (s.modPort f).cooler = s.cooler := rfl
@[simp] theorem State.modPort_queue (s : State) (f : Port → Port) : (s.modPort f).queue = s.queue := rfl
@[simp] theorem State.modPort_filters (s : State) (f : Port → Port) : (s.modPort f).filters = s.filters := rfl
@[simp] theorem State.modPort_alarm (s : State) (f : Port → Port) : (s.modPort f).alarm = s.alarm := rfl
@[simp] theorem State.modPort_shift (s : State) (f : Port → Port) : (s.modPort f).shift = s.shift := rfl
@[simp] theorem State.modPort_port (s : State) (f : Port → Port) : (s.modPort f).port = f s.port := rfl
@[simp] theorem State.modPort_trip (s : State) (f : Port → Port) : (s.modPort f).trip = s.trip := rfl
@[simp] theorem State.modPort_horn (s : State) (f : Port → Port) : (s.modPort f).horn = s.horn := rfl
@[simp] theorem State.modPort_freeIndex (s : State) (f : Port → Port) : (s.modPort f).freeIndex = s.freeIndex := rfl
@[simp] theorem State.modPort_pending (s : State) (f : Port → Port) : (s.modPort f).pending = s.pending := rfl

/-! `submit` -/

@[simp] theorem State.submit_timeBase (s : State) (x : Sender) (p : Proposal) :
    (s.submit x p).timeBase = s.timeBase := rfl
@[simp] theorem State.submit_floor (s : State) (x : Sender) (p : Proposal) : (s.submit x p).floor = s.floor := rfl
@[simp] theorem State.submit_points (s : State) (x : Sender) (p : Proposal) : (s.submit x p).points = s.points := rfl
@[simp] theorem State.submit_burners (s : State) (x : Sender) (p : Proposal) :
    (s.submit x p).burners = s.burners := rfl
@[simp] theorem State.submit_lines (s : State) (x : Sender) (p : Proposal) : (s.submit x p).lines = s.lines := rfl
@[simp] theorem State.submit_cooler (s : State) (x : Sender) (p : Proposal) : (s.submit x p).cooler = s.cooler := rfl
@[simp] theorem State.submit_queue (s : State) (x : Sender) (p : Proposal) :
    (s.submit x p).queue = { s.queue with submitted := s.queue.submitted ++ [{ sender := x, command := p }] } := rfl
@[simp] theorem State.submit_filters (s : State) (x : Sender) (p : Proposal) :
    (s.submit x p).filters = s.filters := rfl
@[simp] theorem State.submit_alarm (s : State) (x : Sender) (p : Proposal) : (s.submit x p).alarm = s.alarm := rfl
@[simp] theorem State.submit_shift (s : State) (x : Sender) (p : Proposal) : (s.submit x p).shift = s.shift := rfl
@[simp] theorem State.submit_port (s : State) (x : Sender) (p : Proposal) : (s.submit x p).port = s.port := rfl
@[simp] theorem State.submit_trip (s : State) (x : Sender) (p : Proposal) : (s.submit x p).trip = s.trip := rfl
@[simp] theorem State.submit_horn (s : State) (x : Sender) (p : Proposal) : (s.submit x p).horn = s.horn := rfl
@[simp] theorem State.submit_freeIndex (s : State) (x : Sender) (p : Proposal) :
    (s.submit x p).freeIndex = s.freeIndex := rfl
@[simp] theorem State.submit_pending (s : State) (x : Sender) (p : Proposal) :
    (s.submit x p).pending = s.pending := rfl

/-! `advance` -/

@[simp] theorem State.advance_timeBase (s : State) (t : Time) : (s.advance t).timeBase = max s.timeBase t := rfl
@[simp] theorem State.advance_floor (s : State) (t : Time) : (s.advance t).floor = s.floor := rfl
@[simp] theorem State.advance_points (s : State) (t : Time) : (s.advance t).points = s.points := rfl
@[simp] theorem State.advance_burners (s : State) (t : Time) : (s.advance t).burners = s.burners := rfl
@[simp] theorem State.advance_lines (s : State) (t : Time) : (s.advance t).lines = s.lines := rfl
@[simp] theorem State.advance_cooler (s : State) (t : Time) : (s.advance t).cooler = s.cooler := rfl
@[simp] theorem State.advance_queue (s : State) (t : Time) : (s.advance t).queue = s.queue := rfl
@[simp] theorem State.advance_filters (s : State) (t : Time) : (s.advance t).filters = s.filters := rfl
@[simp] theorem State.advance_alarm (s : State) (t : Time) : (s.advance t).alarm = s.alarm := rfl
@[simp] theorem State.advance_shift (s : State) (t : Time) : (s.advance t).shift = s.shift := rfl
@[simp] theorem State.advance_port (s : State) (t : Time) : (s.advance t).port = s.port := rfl
@[simp] theorem State.advance_trip (s : State) (t : Time) : (s.advance t).trip = s.trip := rfl
@[simp] theorem State.advance_horn (s : State) (t : Time) : (s.advance t).horn = s.horn := rfl
@[simp] theorem State.advance_freeIndex (s : State) (t : Time) : (s.advance t).freeIndex = s.freeIndex := rfl
@[simp] theorem State.advance_pending (s : State) (t : Time) : (s.advance t).pending = s.pending := rfl

/-! `driveLines` -/

@[simp] theorem State.driveLines_timeBase (s : State) : s.driveLines.timeBase = s.timeBase := rfl
@[simp] theorem State.driveLines_floor (s : State) : s.driveLines.floor = s.floor := rfl
@[simp] theorem State.driveLines_points (s : State) : s.driveLines.points = s.points := rfl
@[simp] theorem State.driveLines_burners (s : State) : s.driveLines.burners = s.burners := rfl
@[simp] theorem State.driveLines_lines (s : State) : s.driveLines.lines = s.lines := rfl
@[simp] theorem State.driveLines_cooler (s : State) : s.driveLines.cooler = s.cooler := rfl
@[simp] theorem State.driveLines_queue (s : State) : s.driveLines.queue = s.queue := rfl
@[simp] theorem State.driveLines_filters (s : State) : s.driveLines.filters = s.filters := rfl
@[simp] theorem State.driveLines_alarm (s : State) : s.driveLines.alarm = s.alarm := rfl
@[simp] theorem State.driveLines_shift (s : State) : s.driveLines.shift = s.shift := rfl
@[simp] theorem State.driveLines_port (s : State) : s.driveLines.port = s.port := rfl
@[simp] theorem State.driveLines_trip (s : State) : s.driveLines.trip = s.tripDemanded := rfl
@[simp] theorem State.driveLines_horn (s : State) : s.driveLines.horn = s.hornDemanded := rfl
@[simp] theorem State.driveLines_freeIndex (s : State) : s.driveLines.freeIndex = s.freeIndex := rfl
@[simp] theorem State.driveLines_pending (s : State) : s.driveLines.pending = s.pending := rfl

end Sys2Proof.Machine
end

