-- ==== Sys2Proof/Laws/Frame.lean ====
section
/-!
SUPPORT. What the units leave alone. `State.outer` blanks what the burner, fuel, cooler and alarm units, the command
queue, the open shift record and the transmitter may change on one another's account; every operation of those units
keeps it. One lemma per operation.
-/
namespace Sys2Proof.Machine

theorem vector_map_set {α β : Type} {n : Nat} (g : α → β) (v : Vector α n) (i : Fin n) (x : α) (h : g x = g v[i]) :
    (v.set i x).map g = v.map g := by
  ext j hj
  by_cases e : (i : Nat) = j
  · subst e; simpa using h
  · simp [e]

theorem foldl_keeps {α β : Type} {x : State → β} {f : State → α → State} (h : ∀ s a, x (f s a) = x s) (s : State)
    (l : List α) : x (l.foldl f s) = x s := by
  induction l generalizing s with
  | nil => rfl
  | cons a l ih => exact (ih (f s a)).trans (h s a)

/-! ### Updates -/

section
variable (s : State)

@[simp] theorem State.modBurner_outer (b : Fin 3) (f : Burner → Burner) (h : (f s.burners[b]).kept =
    s.burners[b].kept) :
    (s.modBurner b f).outer = s.outer := by
  simp only [State.modBurner, State.outer, vector_map_set _ _ _ _ h]

@[simp] theorem State.modLine_outer (l : Fin 6) (f : Line → Line) (h : (f s.lines[l]).kept = s.lines[l].kept) :
    (s.modLine l f).outer = s.outer := by
  simp only [State.modLine, State.outer, vector_map_set _ _ _ _ h]

@[simp] theorem State.modCooler_outer (f : Cooler → Cooler) (h : (f s.cooler).kept = s.cooler.kept) :
    (s.modCooler f).outer = s.outer := by
  simp only [State.modCooler, State.outer, h]

@[simp] theorem State.modRun_outer (g : Fin 4) (f : Run → Run) (h : (f s.cooler.runs[g]).kept = s.cooler.runs[g].kept) :
    (s.modRun g f).outer = s.outer :=
  s.modCooler_outer _ (by simp only [Cooler.kept, vector_map_set _ _ _ _ h])

@[simp] theorem State.modCompartment_outer (k : Fin 12) (f : Compartment → Compartment)
    (h : (f s.cooler.compartments[k]).kept = s.cooler.compartments[k].kept) : (s.modCompartment k f).outer = s.outer :=
  s.modCooler_outer _ (by simp only [Cooler.kept, vector_map_set _ _ _ _ h])

@[simp] theorem State.modZone_outer (z : Fin 8) (f : Zone → Zone) (h : (f s.cooler.zones[z]).kept =
    s.cooler.zones[z].kept) :
    (s.modZone z f).outer = s.outer :=
  s.modCooler_outer _ (by simp only [Cooler.kept, vector_map_set _ _ _ _ h])

@[simp] theorem State.modQueue_outer (f : CommandQueue → CommandQueue) : (s.modQueue f).outer = s.outer := rfl
@[simp] theorem State.modAlarmUnit_outer (f : AlarmUnit → AlarmUnit) (h : (f s.alarm).kept = s.alarm.kept) :
    (s.modAlarmUnit f).outer = s.outer := by
  simp only [State.modAlarmUnit, State.outer, h]

@[simp] theorem State.modAlarm_outer (a : Fin 192) (f : Alarm → Alarm) (h : (f s.alarm.alarms[a]).kept =
    s.alarm.alarms[a].kept) :
    (s.modAlarm a f).outer = s.outer :=
  s.modAlarmUnit_outer _ (by simp only [AlarmUnit.kept, vector_map_set _ _ _ _ h])

@[simp] theorem State.post_outer (f : ShiftRecord → ShiftRecord) : (s.post f).outer = s.outer := rfl
@[simp] theorem State.flagRecord_outer (f : ShiftFlags → ShiftFlags) : (s.flagRecord f).outer = s.outer := rfl
@[simp] theorem State.postLine_outer (l : Fin 6) (f : LineAccount → LineAccount) : (s.postLine l f).outer =
    s.outer := rfl
@[simp] theorem State.postBurner_outer (b : Fin 3) (f : BurnerAccount → BurnerAccount) :
    (s.postBurner b f).outer = s.outer := rfl
@[simp] theorem State.postRun_outer (g : Fin 4) (f : RunAccount → RunAccount) : (s.postRun g f).outer = s.outer := rfl
@[simp] theorem State.driveLines_outer : s.driveLines.outer = s.outer := rfl

/-! ### Transmit queue -/

@[simp] theorem State.setTxQueue_outer (q : List TxFrame) : (s.setTxQueue q).outer = s.outer := rfl
@[simp] theorem State.appendTx_outer (f : TxFrame) : (s.appendTx f).outer = s.outer := rfl
@[simp] theorem State.noticeLost_outer : s.noticeLost.outer = s.outer := rfl

theorem State.startSending_outer (t : Time) : (s.modPort fun p => p.startSending t).outer = s.outer := by
  simp only [State.modPort, State.outer, Port.startSending]
  split <;> rfl

@[simp] theorem State.queueReplyFrame_outer (f : TxFrame) : (s.queueReplyFrame f).outer = s.outer := by
  unfold State.queueReplyFrame; split_ifs <;> simp

@[simp] theorem State.queueDigestFrame_outer (f : TxFrame) : (s.queueDigestFrame f).outer = s.outer := by
  unfold State.queueDigestFrame; split_ifs <;> simp

@[simp] theorem State.queueNoticeFrame_outer (f : TxFrame) : (s.queueNoticeFrame f).outer = s.outer := by
  unfold State.queueNoticeFrame; split_ifs <;> simp

@[simp] theorem State.offerFrame_outer (f : TxFrame) : (s.offerFrame f).outer = s.outer := by
  unfold State.offerFrame
  simp only [State.startSending_outer]
  split <;> simp

@[simp] theorem State.reply_outer (n k : Byte) (a : Answer) : (s.reply n k a).outer = s.outer := by
  simp [State.reply]

@[simp] theorem State.offerDigest_outer : s.offerDigest.outer = s.outer := by simp [State.offerDigest]

/-! ### Command queue -/

@[simp] theorem State.setCommands_outer (q : List QueueEntry) : (s.setCommands q).outer = s.outer := rfl
@[simp] theorem State.tellLineLost_outer (l : Fin 6) : (s.tellLineLost l).outer = s.outer := by
  unfold State.tellLineLost; exact s.modLine_outer _ _ (by split <;> rfl)
@[simp] theorem State.tellDoseLost_outer (l : Fin 6) : (s.tellDoseLost l).outer = s.outer := by
  simp [State.tellDoseLost]
@[simp] theorem State.tellStrokeLost_outer (g : Fin 4) : (s.tellStrokeLost g).outer = s.outer := by
  simp [State.tellStrokeLost]
@[simp] theorem State.insertCommand_outer (p : Proposal) : (s.insertCommand p).outer = s.outer := rfl

@[simp] theorem State.tellOwner_outer (e : QueueEntry) (v : Bool) : (s.tellOwner e v).outer = s.outer := by
  unfold State.tellOwner Option.elim
  split <;> (try split) <;> simp

@[simp] theorem State.commandLost_outer (e : QueueEntry) (v : Bool) : (s.commandLost e v).outer = s.outer := by
  simp [State.commandLost]

@[simp] theorem State.propose_outer (p : Proposal) : (s.propose p).outer = s.outer := by
  unfold State.propose
  split
  · simp
  · split
    · simp
    · split <;> simp

@[simp] theorem State.submit_outer (x : Sender) (p : Proposal) : (s.submit x p).outer = s.outer := rfl

/-- What the queue makes of the commands of an event keeps the outer part. -/
@[simp] theorem State.flush_outer : s.flush.outer = s.outer :=
  (foldl_keeps (fun s p => s.propose_outer p) _ _).trans (s.modQueue_outer _)

/-! ### Fuel unit -/

@[simp] theorem State.setLineState_outer (l : Fin 6) (st : FuelState) : (s.setLineState l st).outer = s.outer := by
  unfold State.setLineState; split <;> simp

@[simp] theorem State.refreshLineState_outer (l : Fin 6) : (s.refreshLineState l).outer = s.outer := by
  unfold State.refreshLineState
  split
  · rfl
  · split <;> simp

@[simp] theorem State.refreshBurnerLines_outer (b : Fin 3) : (s.refreshBurnerLines b).outer = s.outer :=
  foldl_keeps (fun s l => by split <;> simp) s _

@[simp] theorem State.setHold_outer (b : Fin 3) (c : HoldCause) (v : Bool) : (s.setHold b c v).outer = s.outer := by
  simp [State.setHold]

@[simp] theorem State.setHoldAll_outer (c : HoldCause) (v : Bool) : (s.setHoldAll c v).outer = s.outer :=
  foldl_keeps (fun s b => by simp) s _

@[simp] theorem State.setFeed_outer (l : Fin 6) (c : Nat) : (s.setFeed l c).outer = s.outer := by simp [State.setFeed]

@[simp] theorem State.queueFeed_outer (l : Fin 6) (c : CommandClass) : (s.queueFeed l c).outer = s.outer := by
  unfold State.queueFeed; split <;> simp

@[simp] theorem State.queueIgniter_outer (l : Fin 6) (c : CommandClass) : (s.queueIgniter l c).outer = s.outer := by
  unfold State.queueIgniter; split <;> simp

@[simp] theorem State.changeFeed_outer (l : Fin 6) (c : Nat) : (s.changeFeed l c).outer = s.outer := by
  unfold State.changeFeed; split <;> simp

@[simp] theorem State.setIgniter_outer (l : Fin 6) (v : Bool) (c : CommandClass) :
    (s.setIgniter l v c).outer = s.outer := by simp [State.setIgniter]

@[simp] theorem State.changeIgniter_outer (l : Fin 6) (v : Bool) : (s.changeIgniter l v).outer = s.outer := by
  unfold State.changeIgniter; split <;> simp

@[simp] theorem State.setTarget_outer (b : Fin 3) (r : Apportionment) (l : Fin 6) :
    (s.setTarget b r l).outer = s.outer := by
  unfold State.setTarget
  split
  · split <;> simp
  · rfl

@[simp] theorem State.demandStep_outer (p : Nat) (b : Fin 3) : (s.demandStep p b).outer = s.outer := by
  unfold State.demandStep
  split
  · split <;> simp
  · rfl

@[simp] theorem State.apportionBurner_outer (b : Fin 3) : (s.apportionBurner b).outer = s.outer := by
  unfold State.apportionBurner
  split
  · exact (foldl_keeps (fun s l => by simp) _ _).trans (by simp)
  · rfl

@[simp] theorem State.rampLine_outer (p : Nat) (l : Fin 6) : (s.rampLine p l).outer = s.outer := by
  unfold State.rampLine
  split
  · rfl
  · split
    · rfl
    · split <;> simp

@[simp] theorem State.refreshLine_outer (l : Fin 6) : (s.refreshLine l).outer = s.outer := by
  unfold State.refreshLine
  split
  · rfl
  · split_ifs <;> simp

@[simp] theorem State.fuelMark_outer (p : Nat) : (s.fuelMark p).outer = s.outer := by
  unfold State.fuelMark
  exact (foldl_keeps (fun s l => by simp) _ _).trans (foldl_keeps (fun s l => by simp) _ _)

@[simp] theorem State.deliverToLine_outer (l : Fin 6) (k : LineKind) (m : Metering) (n : Nat) :
    (s.deliverToLine l k m n).outer = s.outer := by simp [State.deliverToLine]

@[simp] theorem State.deliverLines_outer (p : Fin 256) (n : Nat) : (s.deliverLines p n).outer = s.outer :=
  foldl_keeps (fun s l => by
    split
    · split
      · split <;> simp
      · rfl
    · rfl) s _

/-! ### Burner unit -/

@[simp] theorem State.modBurner_clearFiring_outer (b : Fin 3) : (s.modBurner b Burner.clearFiring).outer = s.outer :=
  s.modBurner_outer _ _ rfl

@[simp] theorem State.modBurner_takeVote_outer (b : Fin 3) (e : BurnerEntry) :
    (s.modBurner b fun x => x.takeVote e).outer = s.outer :=
  s.modBurner_outer _ _ (by unfold Burner.takeVote; split <;> rfl)

@[simp] theorem State.modZone_evaluate_outer (z : Fin 8) (e : ZoneEntry) (d : Int) :
    (s.modZone z fun x => x.evaluate e d).outer = s.outer :=
  s.modZone_outer _ _ (by unfold Zone.evaluate; split_ifs <;> rfl)

@[simp] theorem State.modAlarm_newOccurrence_outer (a : Fin 192) (t : Time) :
    (s.modAlarm a fun x => x.newOccurrence t).outer = s.outer := s.modAlarm_outer _ _ rfl

@[simp] theorem State.setBurnerState_outer (b : Fin 3) (st : BurnerState) : (s.setBurnerState b st).outer =
    s.outer := by
  simp [State.setBurnerState]

@[simp] theorem State.postRunTime_outer (b : Fin 3) : (s.postRunTime b).outer = s.outer := by
  unfold State.postRunTime; split <;> simp

@[simp] theorem State.stopLine_outer (b : Fin 3) (c : CommandClass) (l : Fin 6) :
    (s.stopLine b c l).outer = s.outer := by
  unfold State.stopLine
  split
  · rfl
  · split_ifs <;> simp

@[simp] theorem State.stopLines_outer (b : Fin 3) (c : CommandClass) : (s.stopLines b c).outer = s.outer := by
  unfold State.stopLines
  simp only [State.modBurner_outer]
  exact foldl_keeps (fun s l => by simp) s _

@[simp] theorem State.stopBurner_outer (b : Fin 3) : (s.stopBurner b).outer = s.outer := by simp [State.stopBurner]

@[simp] theorem State.enterLockout_outer (b : Fin 3) (c : LockoutCause) (d : LockoutDetail) :
    (s.enterLockout b c d).outer = s.outer := by simp [State.enterLockout]

@[simp] theorem State.tripBurner_outer (b : Fin 3) (a : Fin 192) : (s.tripBurner b a).outer = s.outer := by
  unfold State.tripBurner; split <;> simp

@[simp] theorem State.enterPurge_outer (b : Fin 3) (e : BurnerEntry) : (s.enterPurge b e).outer = s.outer := by
  simp [State.enterPurge]

@[simp] theorem State.enterLightoff_outer (b : Fin 3) (e : BurnerEntry) (v : Bool) :
    (s.enterLightoff b e v).outer = s.outer := by
  unfold State.enterLightoff; split <;> simp

@[simp] theorem State.enterRun_outer (b : Fin 3) (e : BurnerEntry) : (s.enterRun b e).outer = s.outer := by
  unfold State.enterRun
  simp only [State.postBurner_outer, State.setBurnerState_outer, State.modBurner_outer]
  split <;> simp

@[simp] theorem State.permissiveLost_outer (b : Fin 3) (n : Nat) (v : Bool) :
    (s.permissiveLost b n v).outer = s.outer := by
  unfold State.permissiveLost
  split <;> try split
  all_goals simp

@[simp] theorem State.visitPermissive_outer (b : Fin 3) (n : Nat) (p : Permissive) :
    (s.visitPermissive b n p).outer = s.outer := by
  unfold State.visitPermissive; simp only; split <;> simp

@[simp] theorem State.visitPermissives_outer (sel : PermKind → Bool) : (s.visitPermissives sel).outer = s.outer :=
  foldl_keeps (fun s b => by
    split
    · rfl
    · exact foldl_keeps (fun s x => by split <;> simp) s _) s _

@[simp] theorem State.actOnVote_outer (b : Fin 3) (e : BurnerEntry) : (s.actOnVote b e).outer = s.outer := by
  unfold State.actOnVote; simp only; split <;> (try split_ifs) <;> simp

@[simp] theorem State.evaluateVote_outer (b : Fin 3) (e : BurnerEntry) : (s.evaluateVote b e).outer = s.outer := by
  simp [State.evaluateVote]

@[simp] theorem State.scannerEvent_outer (st n : Nat) (b : Fin 3) : (s.scannerEvent st n b).outer = s.outer := by
  unfold State.scannerEvent
  split
  · rfl
  · split <;> simp

@[simp] theorem State.scannerEvents_outer (st n : Nat) : (s.scannerEvents st n).outer = s.outer :=
  foldl_keeps (fun s b => by simp) s _

@[simp] theorem State.dropScanners_outer (gone : Nat → Bool) : (s.dropScanners gone).outer = s.outer :=
  foldl_keeps (fun s b => by
    split
    · rfl
    · simp only; split <;> simp) s _

@[simp] theorem State.purgeEnds_outer (b : Fin 3) (e : BurnerEntry) : (s.purgeEnds b e).outer = s.outer := by
  unfold State.purgeEnds
  split
  · split
    · split <;> simp
    · simp
  · split <;> simp

/-! ### Faults -/

@[simp] theorem State.faultLine_outer (l : Fin 6) (c : FaultCause) : (s.faultLine l c).outer = s.outer := by
  unfold State.faultLine
  split
  · rfl
  · split
    · rfl
    · simp only; split_ifs <;> simp

@[simp] theorem State.checkFaultBits_outer (ps : List (Fin 256)) : (s.checkFaultBits ps).outer = s.outer :=
  foldl_keeps (fun s l => by
    split
    · split <;> simp
    · rfl) s _

@[simp] theorem State.checkAbsences_outer : s.checkAbsences.outer = s.outer :=
  foldl_keeps (fun s l => by
    split
    · split <;> simp
    · rfl) s _

@[simp] theorem State.operatorFeed_outer (l : Fin 6) (e : LineEntry) (v : Int) :
    (s.operatorFeed l e v).1.outer = s.outer := by
  unfold State.operatorFeed; split <;> simp

/-! ### Cooler unit -/

@[simp] theorem State.queueRate_outer (g : Fin 4) : (s.queueRate g).outer = s.outer := by
  unfold State.queueRate; split <;> simp

@[simp] theorem State.setRate_outer (g : Fin 4) (r : Nat) : (s.setRate g r).outer = s.outer := by
  unfold State.setRate; simp only; split_ifs <;> simp

@[simp] theorem State.startStroking_outer (g : Fin 4) (r : Nat) : (s.startStroking g r).outer = s.outer := by
  simp [State.startStroking]

@[simp] theorem State.applyLaw_outer (g : Fin 4) : (s.applyLaw g).outer = s.outer := by
  unfold State.applyLaw
  split
  · rfl
  · split <;> simp

@[simp] theorem State.pressureChanged_outer (ps : List (Fin 256)) : (s.pressureChanged ps).outer = s.outer :=
  foldl_keeps (fun s g => by split <;> simp) s _

@[simp] theorem State.queueFan_outer (k : Fin 12) : (s.queueFan k).outer = s.outer := by
  unfold State.queueFan; split <;> simp

@[simp] theorem State.applyFan_outer (v : Bool) (k : Fin 12) : (s.applyFan v k).outer = s.outer := by
  unfold State.applyFan
  split
  · simp
  · simp only; split <;> simp

@[simp] theorem State.applyFans_outer (v : Bool) : (s.applyFans v).outer = s.outer :=
    foldl_keeps (fun s k => by simp) s _

@[simp] theorem State.setCoolerState_outer (st : CoolerState) : (s.setCoolerState st).outer = s.outer := by
  simp [State.setCoolerState]

@[simp] theorem State.coolerStarts_outer : s.coolerStarts.outer = s.outer := by simp [State.coolerStarts]

@[simp] theorem State.coolerRuns_outer : s.coolerRuns.outer = s.outer := by
  unfold State.coolerRuns
  simp only [State.applyFans_outer]
  exact (foldl_keeps (fun s g => by split <;> simp) _ _).trans (by simp)

@[simp] theorem State.coolerToSafe_outer : s.coolerToSafe.outer = s.outer := by
  unfold State.coolerToSafe
  split
  · simp only [State.applyFans_outer]
    exact (foldl_keeps (fun s g => by split <;> simp) _ _).trans (by simp)
  · split
    · simp only [State.applyFans_outer]
      exact (foldl_keeps (fun s g => by
        split
        · rfl
        · split <;> simp) _ _).trans (by simp)
    · rfl

@[simp] theorem State.runLeavesSafe_outer (g : Fin 4) (e : RunEntry) : (s.runLeavesSafe g e).outer = s.outer := by
  unfold State.runLeavesSafe
  split
  · simp
  · split <;> simp
  · rfl

@[simp] theorem State.coolerLeavesSafe_outer : s.coolerLeavesSafe.outer = s.outer := by
  unfold State.coolerLeavesSafe
  simp only [State.applyFans_outer]
  exact (foldl_keeps (fun s g => by split <;> simp) _ _).trans (by simp)

@[simp] theorem State.abandonStrokes_outer (g : Fin 4) : (s.abandonStrokes g).outer = s.outer := by
  simp [State.abandonStrokes]

@[simp] theorem State.idleRun_outer (g : Fin 4) : (s.idleRun g).outer = s.outer := by
  simp [State.idleRun]

@[simp] theorem State.coolerStops_outer : s.coolerStops.outer = s.outer := by
  unfold State.coolerStops
  simp only [State.applyFans_outer]
  exact (foldl_keeps (fun s g => by simp) _ _).trans (by simp)

@[simp] theorem State.strokeSent_outer (g : Fin 4) : (s.strokeSent g).outer = s.outer := by
  unfold State.strokeSent; simp only; split <;> simp

@[simp] theorem State.confirmStrokes_outer (g : Fin 4) (e : RunEntry) (n : Nat) :
    (s.confirmStrokes g e n).outer = s.outer := by
  simp [State.confirmStrokes]

@[simp] theorem State.deliverRuns_outer (p : Fin 256) (n : Nat) : (s.deliverRuns p n).outer = s.outer :=
  foldl_keeps (fun s g => by
    split
    · split <;> simp
    · rfl) s _

@[simp] theorem State.checkStall_outer (g : Fin 4) : (s.checkStall g).outer = s.outer := by
  unfold State.checkStall
  split
  · split <;> simp
  · rfl

@[simp] theorem State.postRedRiver_outer : s.postRedRiver.outer = s.outer := by
  unfold State.postRedRiver; split <;> simp

@[simp] theorem State.settleRedMark_outer (v : Bool) : (s.settleRedMark v).outer = s.outer := by
  unfold State.settleRedMark; split_ifs <;> simp

@[simp] theorem State.evaluateZones_outer : s.evaluateZones.outer = s.outer := by
  unfold State.evaluateZones
  split
  · simp only [State.settleRedMark_outer]
    exact foldl_keeps (fun s z => by split <;> simp) s _
  · rfl

@[simp] theorem State.refreshRun_outer (g : Fin 4) : (s.refreshRun g).outer = s.outer := by
  unfold State.refreshRun; split <;> simp

@[simp] theorem State.refreshCompartment_outer (k : Fin 12) : (s.refreshCompartment k).outer = s.outer := by
  unfold State.refreshCompartment; split <;> simp

@[simp] theorem State.coolerMark_outer : s.coolerMark.outer = s.outer := by
  unfold State.coolerMark
  refine (foldl_keeps (fun s k => by simp) _ _).trans ?_
  simp only [State.evaluateZones_outer]
  exact (foldl_keeps (fun s g => by simp) _ _).trans (by simp)

/-! ### Alarm unit -/

@[simp] theorem State.joinRaised_outer (a : Fin 192) : (s.joinRaised a).outer = s.outer := by
  simp [State.joinRaised, AlarmUnit.kept]
@[simp] theorem State.leaveRaised_outer (a : Fin 192) : (s.leaveRaised a).outer = s.outer := by
  simp [State.leaveRaised, AlarmUnit.kept]
@[simp] theorem State.recordValue_outer (a : Fin 192) (x : AlarmSource) : (s.recordValue a x).outer = s.outer := by
  simp [State.recordValue]
@[simp] theorem State.offerFirstOut_outer (a : Fin 192) (g : Fin 4) : (s.offerFirstOut a g).outer = s.outer := by
  simp [State.offerFirstOut, AlarmUnit.kept]
@[simp] theorem State.notice_outer (a : Fin 192) : (s.notice a).outer = s.outer := by simp [State.notice]

@[simp] theorem State.reportAlarmHolds_outer : s.reportAlarmHolds.outer = s.outer :=
  foldl_keeps (fun s b => by simp) s _

@[simp] theorem State.alarmTo_outer (a : Fin 192) (e : AlarmEntry) (st : AlarmState) :
    (s.alarmTo a e st).outer = s.outer := by simp [State.alarmTo]

@[simp] theorem State.act_outer (a : Fin 192) (x : AlarmAction) : (s.act a x).outer = s.outer := by
  unfold State.act; split <;> simp

@[simp] theorem State.postRaised_outer (n : Nat) : (s.postRaised n).outer = s.outer := by
  unfold State.postRaised; split <;> simp

@[simp] theorem State.raise_outer (a : Fin 192) (e : AlarmEntry) : (s.raise a e).outer = s.outer := by
  unfold State.raise
  simp only [State.act_outer, State.reportAlarmHolds_outer, State.notice_outer, State.postRaised_outer]
  split <;> (try simp only [State.offerFirstOut_outer]) <;> split <;> simp

@[simp] theorem State.onDelayEnds_outer (a : Fin 192) (e : AlarmEntry) : (s.onDelayEnds a e).outer = s.outer := by
  unfold State.onDelayEnds; simp only; split <;> simp

@[simp] theorem State.shelveEnds_outer (a : Fin 192) (e : AlarmEntry) : (s.shelveEnds a e).outer = s.outer := by
  unfold State.shelveEnds; simp only; split_ifs <;> simp

@[simp] theorem State.conditionRises_outer (a : Fin 192) (e : AlarmEntry) : (s.conditionRises a e).outer = s.outer := by
  unfold State.conditionRises
  split <;> try split_ifs
  all_goals simp

@[simp] theorem State.conditionFalls_outer (a : Fin 192) (e : AlarmEntry) : (s.conditionFalls a e).outer = s.outer := by
  unfold State.conditionFalls; split <;> simp

@[simp] theorem State.visitCondition_outer (a : Fin 192) (e : AlarmEntry) : (s.visitCondition a e).outer = s.outer := by
  unfold State.visitCondition; simp only; split_ifs <;> simp

@[simp] theorem State.visitAlarm_outer (v : Bool) (a : Fin 192) : (s.visitAlarm v a).outer = s.outer := by
  unfold State.visitAlarm
  split
  · rfl
  · split <;> simp

@[simp] theorem State.fallPass_outer : s.fallPass.outer = s.outer :=
  foldl_keeps (fun s a => by
    split
    · split <;> simp
    · rfl) s _

@[simp] theorem State.risePass_outer : s.risePass.outer = s.outer := foldl_keeps (fun t a => by simp) s _

@[simp] theorem State.alarmPass_outer : s.alarmPass.outer = s.outer := by simp [State.alarmPass]

theorem State.settleFor_outer (s : State) (n : Nat) : (s.settleFor n).outer = s.outer := by
  induction n generalizing s with
  | zero => rfl
  | succ n ih =>
    unfold State.settleFor
    split
    · rw [ih, State.alarmPass_outer]
    · rfl

/-- The alarm unit's work at the end of an event, with everything its actions bring about, keeps the outer part. -/
@[simp] theorem State.settle_outer : s.settle.outer = s.outer := State.settleFor_outer s _

/-- The end of an event keeps the outer part. -/
@[simp] theorem State.finish_outer : s.finish.outer = s.outer := by simp [State.finish]

/-- The refresh counts that count a round mark are none of the outer part. -/
@[simp] theorem State.countMark_outer : s.countMark.outer = s.outer := by
  have lines : (s.lines.map Line.countMark).map Line.kept = s.lines.map Line.kept := by
    ext i hi; simp only [Vector.getElem_map, Line.countMark, Line.kept]; split <;> rfl
  have runs : (s.cooler.runs.map Run.countMark).map Run.kept = s.cooler.runs.map Run.kept := by
    ext i hi; simp only [Vector.getElem_map, Run.countMark, Run.kept]; split <;> rfl
  have fans : (s.cooler.compartments.map Compartment.countMark).map Compartment.kept =
      s.cooler.compartments.map Compartment.kept := by
    ext i hi; simp only [Vector.getElem_map, Compartment.countMark, Compartment.kept]; split <;> rfl
  simp only [State.countMark, State.outer, Cooler.kept, lines, runs, fans]

/-! ### Points: what the consumers of a change do -/

@[simp] theorem State.tellConsumers_outer (ps : List (Fin 256)) : (s.tellConsumers ps).outer = s.outer := by
  simp [State.tellConsumers]

@[simp] theorem State.pointsChanged_outer (ps : List (Fin 256)) : (s.pointsChanged ps).outer = s.outer := by
  unfold State.pointsChanged; split <;> simp

@[simp] theorem State.deliver_outer (x : Fin 256 × Nat) : (s.deliver x).outer = s.outer := by simp [State.deliver]

@[simp] theorem State.timePostings_outer : s.timePostings.outer = s.outer := by
  unfold State.timePostings
  simp only [State.modCooler_outer, State.postRedRiver_outer]
  exact foldl_keeps (fun s b => by simp) s _

end

/-! ### What states with the same outer part agree on -/

section
variable {s t : State}

theorem State.timeBase_of_outer (h : s.outer = t.outer) : s.timeBase = t.timeBase :=
  have e : s.outer.timeBase = t.outer.timeBase := by rw [h]
  e

theorem State.floor_of_outer (h : s.outer = t.outer) : s.floor = t.floor :=
  have e : s.outer.floor = t.outer.floor := by rw [h]
  e

theorem State.points_of_outer (h : s.outer = t.outer) : s.points = t.points :=
  have e : s.outer.points = t.outer.points := by rw [h]
  e

theorem State.filters_of_outer (h : s.outer = t.outer) : s.filters = t.filters :=
  have e : s.outer.filters = t.outer.filters := by rw [h]
  e

theorem State.freeIndex_of_outer (h : s.outer = t.outer) : s.freeIndex = t.freeIndex :=
  have e : s.outer.freeIndex = t.outer.freeIndex := by rw [h]
  e

theorem State.pending_of_outer (h : s.outer = t.outer) : s.pending = t.pending :=
  have e : s.outer.pending = t.outer.pending := by rw [h]
  e

theorem State.shift_clock_of_outer (h : s.outer = t.outer) : s.shift.clock = t.shift.clock :=
  have e : s.outer.shift.clock = t.outer.shift.clock := by rw [h]
  e

theorem State.shift_plan_of_outer (h : s.outer = t.outer) : s.shift.plan = t.shift.plan :=
  have e : s.outer.shift.plan = t.outer.shift.plan := by rw [h]
  e

theorem State.shift_boundary_of_outer (h : s.outer = t.outer) : s.shift.boundary = t.shift.boundary :=
  have e : s.outer.shift.boundary = t.outer.shift.boundary := by rw [h]
  e

theorem State.shift_ring_of_outer (h : s.outer = t.outer) : s.shift.ring = t.shift.ring :=
  have e : s.outer.shift.ring = t.outer.shift.ring := by rw [h]
  e

theorem State.shift_nextSequence_of_outer (h : s.outer = t.outer) : s.shift.nextSequence = t.shift.nextSequence :=
  have e : s.outer.shift.nextSequence = t.outer.shift.nextSequence := by rw [h]
  e

theorem State.port_receiver_of_outer (h : s.outer = t.outer) : s.port.receiver = t.port.receiver :=
  have e : s.outer.port.receiver = t.outer.port.receiver := by rw [h]
  e

theorem State.port_rxQueue_of_outer (h : s.outer = t.outer) : s.port.rxQueue = t.port.rxQueue :=
  have e : s.outer.port.rxQueue = t.outer.port.rxQueue := by rw [h]
  e

theorem State.port_silent_of_outer (h : s.outer = t.outer) : s.port.silent = t.port.silent :=
  have e : s.outer.port.silent = t.outer.port.silent := by rw [h]
  e

theorem State.port_silenceTime_of_outer (h : s.outer = t.outer) : s.port.silenceTime = t.port.silenceTime :=
  have e : s.outer.port.silenceTime = t.outer.port.silenceTime := by rw [h]
  e

theorem State.port_silenceStart_of_outer (h : s.outer = t.outer) : s.port.silenceStart = t.port.silenceStart :=
  have e : s.outer.port.silenceStart = t.outer.port.silenceStart := by rw [h]
  e

theorem State.port_deferredCommit_of_outer (h : s.outer = t.outer) : s.port.deferredCommit = t.port.deferredCommit :=
  have e : s.outer.port.deferredCommit = t.outer.port.deferredCommit := by rw [h]
  e

theorem State.port_deferredSingle_of_outer (h : s.outer = t.outer) : s.port.deferredSingle = t.port.deferredSingle :=
  have e : s.outer.port.deferredSingle = t.outer.port.deferredSingle := by rw [h]
  e

theorem State.port_deferredStop_of_outer (h : s.outer = t.outer) : s.port.deferredStop = t.port.deferredStop :=
  have e : s.outer.port.deferredStop = t.outer.port.deferredStop := by rw [h]
  e

theorem State.port_resetPending_of_outer (h : s.outer = t.outer) : s.port.resetPending = t.port.resetPending :=
  have e : s.outer.port.resetPending = t.outer.port.resetPending := by rw [h]
  e

theorem State.port_resetReplySent_of_outer (h : s.outer = t.outer) : s.port.resetReplySent = t.port.resetReplySent :=
  have e : s.outer.port.resetReplySent = t.outer.port.resetReplySent := by rw [h]
  e

theorem State.port_strap1_of_outer (h : s.outer = t.outer) : s.port.strap1 = t.port.strap1 :=
  have e : s.outer.port.strap1 = t.outer.port.strap1 := by rw [h]
  e

theorem State.port_strap2_of_outer (h : s.outer = t.outer) : s.port.strap2 = t.port.strap2 :=
  have e : s.outer.port.strap2 = t.outer.port.strap2 := by rw [h]
  e

theorem State.port_resetCause_of_outer (h : s.outer = t.outer) : s.port.resetCause = t.port.resetCause :=
  have e : s.outer.port.resetCause = t.outer.port.resetCause := by rw [h]
  e

theorem State.port_digestList_of_outer (h : s.outer = t.outer) : s.port.digestList = t.port.digestList :=
  have e : s.outer.port.digestList = t.outer.port.digestList := by rw [h]
  e

theorem State.burners_entry_of_outer (h : s.outer = t.outer) (i : Fin 3) : (s.burners[i]).entry =
    (t.burners[i]).entry := by
  have e : (s.outer.burners[i]).entry = (t.outer.burners[i]).entry := by rw [h]
  simpa [State.outer] using e

theorem State.lines_entry_of_outer (h : s.outer = t.outer) (i : Fin 6) : (s.lines[i]).entry = (t.lines[i]).entry := by
  have e : (s.outer.lines[i]).entry = (t.outer.lines[i]).entry := by rw [h]
  simpa [State.outer] using e

theorem State.groups_of_outer (h : s.outer = t.outer) : s.alarm.groups = t.alarm.groups :=
  have e : s.outer.alarm.groups = t.outer.alarm.groups := by rw [h]
  e

theorem State.alarm_entry_of_outer (h : s.outer = t.outer) (a : Fin 192) : (s.alarmAt a).entry =
    (t.alarmAt a).entry := by
  have e : (s.outer.alarm.alarms[a]).entry = (t.outer.alarm.alarms[a]).entry := by rw [h]
  simpa [State.outer, State.alarmAt] using e

theorem State.run_entry_of_outer (h : s.outer = t.outer) (g : Fin 4) : (s.runAt g).entry = (t.runAt g).entry := by
  have e : (s.outer.cooler.runs[g]).entry = (t.outer.cooler.runs[g]).entry := by rw [h]
  simpa [State.outer, State.runAt] using e

theorem State.compartment_entry_of_outer (h : s.outer = t.outer) (k : Fin 12) :
    (s.cooler.compartments[k]).entry = (t.cooler.compartments[k]).entry := by
  have e : (s.outer.cooler.compartments[k]).entry = (t.outer.cooler.compartments[k]).entry := by rw [h]
  simpa [State.outer] using e

theorem State.zone_entry_of_outer (h : s.outer = t.outer) (z : Fin 8) :
    (s.cooler.zones[z]).entry = (t.cooler.zones[z]).entry := by
  have e : (s.outer.cooler.zones[z]).entry = (t.outer.cooler.zones[z]).entry := by rw [h]
  simpa [State.outer] using e

theorem State.requested_of_outer (h : s.outer = t.outer) (b : Fin 3) :
    (s.burners[b]).requested = (t.burners[b]).requested := by
  have e : (s.outer.burners[b]).requested = (t.outer.burners[b]).requested := by rw [h]
  simpa [State.outer] using e

end

end Sys2Proof.Machine
end

