-- ==== Sys2Proof/Laws/Queue.lean ====
section
/-!
SUPPORT. What the queueing of a command leaves alone: everything but the queue, and of the owners what a loss changes.
-/
namespace Sys2Proof.Machine

section
variable (s : State)

theorem State.modLine_own (l : Fin 6) (f : Line → Line) (h : (f s.lines[l]).own = (s.lines[l]).own) :
    (s.modLine l f).own = s.own := by
  simp only [State.modLine, State.own, vector_map_set _ _ _ _ h]

theorem State.modRun_own (g : Fin 4) (f : Run → Run) (h : (f s.cooler.runs[g]).own = (s.cooler.runs[g]).own) :
    (s.modRun g f).own = s.own := by
  simp only [State.modRun, State.modCooler, State.own, Cooler.own, vector_map_set _ _ _ _ h]

theorem State.modCompartment_own (k : Fin 12) (f : Compartment → Compartment)
    (h : (f s.cooler.compartments[k]).own = (s.cooler.compartments[k]).own) : (s.modCompartment k f).own = s.own := by
  simp only [State.modCompartment, State.modCooler, State.own, Cooler.own, vector_map_set _ _ _ _ h]

@[simp] theorem State.modQueue_own (f : CommandQueue → CommandQueue) : (s.modQueue f).own = s.own := rfl
@[simp] theorem State.setCommands_own (q : List QueueEntry) : (s.setCommands q).own = s.own := rfl
@[simp] theorem State.insertCommand_own (p : Proposal) : (s.insertCommand p).own = s.own := rfl

@[simp] theorem State.tellLineLost_own (l : Fin 6) : (s.tellLineLost l).own = s.own :=
  s.modLine_own _ _ (by split <;> rfl)

@[simp] theorem State.tellDoseLost_own (l : Fin 6) : (s.tellDoseLost l).own = s.own := s.modLine_own _ _ rfl

theorem State.postRun_own (g : Fin 4) (n : Nat) :
    (s.postRun g fun a => { a with dropped := satAdd top32 a.dropped n }).own = s.own := by
  simp only [State.postRun, State.post, State.modShift, State.own, ShiftRecord.own]
  rw [vector_map_set]; rfl

@[simp] theorem State.tellStrokeLost_own (g : Fin 4) : (s.tellStrokeLost g).own = s.own := by
  unfold State.tellStrokeLost
  rw [State.postRun_own]; exact s.modRun_own _ _ rfl

@[simp] theorem State.tellOwner_own (e : QueueEntry) (v : Bool) : (s.tellOwner e v).own = s.own := by
  unfold State.tellOwner Option.elim
  split
  · split <;> simp
  · split <;> simp
  · split
    · apply State.modCompartment_own; rfl
    · rfl
  · split
    · apply State.modRun_own; rfl
    · rfl
  · split <;> simp
  · rfl
  · split <;> rfl

@[simp] theorem State.commandLost_own (e : QueueEntry) (v : Bool) : (s.commandLost e v).own = s.own := by
  unfold State.commandLost
  rw [State.tellOwner_own]; rfl

/-- A proposal changes the queue, and of its owners what the loss of a command changes. -/
@[simp] theorem State.propose_own (p : Proposal) : (s.propose p).own = s.own := by
  unfold State.propose
  split
  · rfl
  · split
    · rfl
    · split
      · rw [State.commandLost_own]; rfl
      · simp

end

/-! ### The commands of one event (R108) -/

section
variable (s : State)

/-- What waits in the queue for the end of the event is not what a loss changes. -/
theorem State.tellOwner_submitted (e : QueueEntry) (v : Bool) :
    (s.tellOwner e v).queue.submitted = s.queue.submitted := by
  unfold State.tellOwner Option.elim
  split <;> (try split) <;> rfl

theorem State.commandLost_submitted (e : QueueEntry) (v : Bool) :
    (s.commandLost e v).queue.submitted = s.queue.submitted := by
  unfold State.commandLost
  rw [State.tellOwner_submitted]
  unfold CommandQueue.countOverrun State.post State.modQueue State.modShift
  cases e.cls <;> rfl

@[simp] theorem State.propose_submitted (p : Proposal) : (s.propose p).queue.submitted = s.queue.submitted := by
  unfold State.propose
  split
  · rfl
  · split
    · rfl
    · split
      · rw [State.commandLost_submitted]; rfl
      · rw [State.commandLost_submitted]

/-- After the queue has settled the commands of an event, none of them waits any more. -/
@[simp] theorem State.flush_submitted : s.flush.queue.submitted = [] :=
  (foldl_keeps (x := fun s => s.queue.submitted) (fun s p => s.propose_submitted p) _ _).trans rfl

/-- What the queue makes of the commands of an event changes the queue, and of their owners what a loss changes. -/
@[simp] theorem State.flush_own : s.flush.own = s.own :=
  (foldl_keeps (fun s p => s.propose_own p) _ _).trans (s.modQueue_own _)

theorem inOrder_nil : inOrder [] = [] := by simp [inOrder, givenBy, List.flatMap_eq_nil_iff]

/-- Nothing happens to the queue in an event that queues nothing. -/
theorem State.flush_of_nil (h : s.queue.submitted = []) : s.flush = s := by
  unfold State.flush
  rw [h, inOrder_nil]
  show s.modQueue _ = s
  unfold State.modQueue
  rw [← h]

/-- The settling of the queue keeps what changes of lines and cooler, the queue and the open record keep. -/
theorem flush_keeps {β : Type} {x : State → β} (queue : ∀ s f, x (State.modQueue s f) = x s)
    (propose : ∀ s p, x (State.propose s p) = x s) : x s.flush = x s :=
  (foldl_keeps propose _ _).trans (queue _ _)

@[simp] theorem givenBy_nil (x : Sender) : givenBy x [] = [] := rfl

@[simp] theorem givenBy_append (x : Sender) (l m : List Submission) : givenBy x (l ++ m) = givenBy x l ++ givenBy x m := by
  simp [givenBy]

@[simp] theorem givenBy_singleton (x y : Sender) (p : Proposal) :
    givenBy x [{ sender := y, command := p }] = if y = x then [p] else [] := by
  by_cases h : y = x <;> simp [givenBy, h]

/-- What operations of several senders give: each finds its own commands again. -/
theorem givenBy_each {n : Nat} (mk : Fin n → Sender) (hm : ∀ i j, mk i = mk j → i = j) (f : Fin n → List Proposal)
    (i : Fin n) : givenBy (mk i)
      ((indices n).flatMap fun j => (f j).map fun p => { sender := mk j, command := p }) = f i := by
  have one : ∀ j, givenBy (mk i) ((f j).map fun p => { sender := mk j, command := p }) = if j = i then f j else [] := by
    intro j
    by_cases e : j = i
    · subst e; simp [givenBy, List.filter_eq_self.mpr, Function.comp_def]
    · have : mk j ≠ mk i := fun h => e (hm _ _ h)
      simp [givenBy, e, this]
  have key : ∀ (l : List (Fin n)), l.Nodup → givenBy (mk i)
      (l.flatMap fun j => (f j).map fun p => { sender := mk j, command := p }) = if i ∈ l then f i else [] := by
    intro l
    induction l with
    | nil => intro _; rfl
    | cons j l ih =>
      intro hn
      rw [List.nodup_cons] at hn
      rw [List.flatMap_cons, givenBy_append, one, ih hn.2]
      by_cases e : j = i
      · subst e; simp [hn.1]
      · simp [e, Ne.symm e]
  exact (key (indices n) (List.nodup_finRange n)).trans (if_pos (List.mem_finRange i))

/-- A sender finds nothing among the commands of others. -/
theorem givenBy_others {α : Type} (x : Sender) (l : List α) (mk : α → Sender) (f : α → List Proposal)
    (h : ∀ a ∈ l, mk a ≠ x) :
    givenBy x (l.flatMap fun a => (f a).map fun p => { sender := mk a, command := p }) = [] := by
  simp only [givenBy, List.map_eq_nil_iff, List.filter_eq_nil_iff, List.mem_flatMap, List.mem_map]
  rintro _ ⟨a, ha, p, _, rfl⟩
  simpa using h a ha

theorem senders_nodup : senders.Nodup := by decide

theorem mem_senders (x : Sender) : x ∈ senders := by
  cases x <;> simp [senders, indices]

/-- The order of R108 neither loses nor doubles a command of the event. -/
theorem inOrder_perm (l : List Submission) : (inOrder l).Perm (l.map (·.command)) := by
  have h : (senders.flatMap fun x => l.filter (·.sender == x)).Perm l := by
    rw [List.perm_iff_count]
    intro a
    rw [List.count_flatMap]
    have each : ∀ x : Sender, (List.count a ∘ fun x => l.filter (·.sender == x)) x =
        if a.sender = x then List.count a l else 0 := by
      intro x
      by_cases e : a.sender = x
      · simp only [Function.comp, if_pos e]; exact List.count_filter (by simp [e])
      · simp only [Function.comp, if_neg e]
        exact List.count_eq_zero.mpr fun m => e (by simpa using (List.mem_filter.mp m).2)
    rw [List.map_congr_left fun x _ => each x]
    have one : ∀ (xs : List Sender), xs.Nodup → a.sender ∈ xs →
        (xs.map fun x => if a.sender = x then List.count a l else 0).sum = List.count a l := by
      intro xs hn hm
      induction xs with
      | nil => cases hm
      | cons y xs ih =>
        rw [List.map_cons, List.sum_cons]
        rw [List.nodup_cons] at hn
        by_cases e : a.sender = y
        · rw [if_pos e]
          have zero : (xs.map fun x => if a.sender = x then List.count a l else 0).sum = 0 := by
            apply List.sum_eq_zero
            intro n hn'
            obtain ⟨z, hz, rfl⟩ := List.mem_map.mp hn'
            rw [if_neg]
            rintro rfl
            exact hn.1 (e ▸ hz)
          rw [zero]; rfl
        · rw [if_neg e, Nat.zero_add]
          exact ih hn.2 ((List.mem_cons.mp hm).resolve_left e)
    exact one _ senders_nodup (mem_senders _)
  have := h.map (fun x : Submission => x.command)
  rwa [List.map_flatMap] at this

end

/-! ### What states that differ by queued commands agree on -/

section
variable {s t : State}

theorem State.timeBase_of_own (h : s.own = t.own) : s.timeBase = t.timeBase :=
  have e : s.own.timeBase = t.own.timeBase := by rw [h]
  e

theorem State.floor_of_own (h : s.own = t.own) : s.floor = t.floor :=
  have e : s.own.floor = t.own.floor := by rw [h]
  e

theorem State.points_of_own (h : s.own = t.own) : s.points = t.points :=
  have e : s.own.points = t.own.points := by rw [h]
  e

theorem State.burners_of_own (h : s.own = t.own) : s.burners = t.burners :=
  have e : s.own.burners = t.own.burners := by rw [h]
  e

theorem State.filters_of_own (h : s.own = t.own) : s.filters = t.filters :=
  have e : s.own.filters = t.own.filters := by rw [h]
  e

theorem State.alarm_of_own (h : s.own = t.own) : s.alarm = t.alarm :=
  have e : s.own.alarm = t.own.alarm := by rw [h]
  e

theorem State.port_of_own (h : s.own = t.own) : s.port = t.port :=
  have e : s.own.port = t.own.port := by rw [h]
  e

theorem State.line_of_own (h : s.own = t.own) (l : Fin 6) : (s.lines[l]).own = (t.lines[l]).own := by
  have e : s.own.lines[l] = t.own.lines[l] := by rw [h]
  simpa [State.own] using e

theorem State.run_of_own (h : s.own = t.own) (g : Fin 4) : (s.cooler.runs[g]).own = (t.cooler.runs[g]).own := by
  have e : s.own.cooler.runs[g] = t.own.cooler.runs[g] := by rw [h]
  simpa [State.own, Cooler.own] using e

theorem State.zones_of_own (h : s.own = t.own) : s.cooler.zones = t.cooler.zones :=
  have e : s.own.cooler.zones = t.own.cooler.zones := by rw [h]
  e

theorem State.coolerState_of_own (h : s.own = t.own) : s.cooler.state = t.cooler.state :=
  have e : s.own.cooler.state = t.own.cooler.state := by rw [h]
  e

theorem State.burnerAccounts_of_own (h : s.own = t.own) : s.shift.record.burners = t.shift.record.burners :=
  have e : s.own.shift.record.burners = t.own.shift.record.burners := by rw [h]
  e

end

/-! ### Parts of the state that the fuel unit, and all the working units, leave alone -/

/-- A proposal keeps what changes of lines and cooler, the queue and the open record keep. -/
theorem propose_keeps {β : Type} {x : State → β} (line : ∀ s l f, x (State.modLine s l f) = x s)
    (cooler : ∀ s f, x (State.modCooler s f) = x s) (queue : ∀ s f, x (State.modQueue s f) = x s)
    (post : ∀ s f, x (State.post s f) = x s) (s : State) (p : Proposal) : x (s.propose p) = x s := by
  have tell : ∀ (s : State) e v, x (s.tellOwner e v) = x s := by
    intro s e v
    unfold State.tellOwner Option.elim State.tellLineLost State.tellDoseLost State.tellStrokeLost State.postRun
      State.modRun State.modCompartment
    split <;> (try split) <;> simp [post, line, cooler, queue]
  have lost : ∀ (s : State) e v, x (s.commandLost e v) = x s := by
    intro s e v; unfold State.commandLost; rw [tell, post, queue]
  unfold State.propose State.insertCommand State.setCommands
  split
  · rw [queue]
  · split
    · rw [queue]
    · split
      · rw [lost, queue, queue]
      · rw [lost]

/-- A part of the state that the fuel unit's operations leave alone. -/
structure FuelKeeps {β : Type} (x : State → β) : Prop where
  line : ∀ s l f, x (State.modLine s l f) = x s
  submit : ∀ s l p, x (State.submit s (.line l) p) = x s

namespace FuelKeeps
variable {β : Type} {x : State → β} (k : FuelKeeps x) (s : State)
include k

theorem setLineState (l : Fin 6) (st : FuelState) : x (s.setLineState l st) = x s := by
  unfold State.setLineState; split <;> simp [k.line]

theorem refreshLineState (l : Fin 6) : x (s.refreshLineState l) = x s := by
  unfold State.refreshLineState
  split
  · rfl
  · split <;> simp [k.setLineState]

theorem refreshBurnerLines (b : Fin 3) : x (s.refreshBurnerLines b) = x s :=
  foldl_keeps (fun s l => by split <;> simp [k.refreshLineState]) s _

theorem setFeed (l : Fin 6) (c : Nat) : x (s.setFeed l c) = x s := by
  unfold State.setFeed; rw [k.refreshLineState, k.line]

theorem queueFeed (l : Fin 6) (c : CommandClass) : x (s.queueFeed l c) = x s := by
  unfold State.queueFeed; split
  · rfl
  · rw [k.submit, k.line]

theorem queueIgniter (l : Fin 6) (c : CommandClass) : x (s.queueIgniter l c) = x s := by
  unfold State.queueIgniter; split
  · rfl
  · rw [k.submit, k.line]

theorem changeFeed (l : Fin 6) (c : Nat) : x (s.changeFeed l c) = x s := by
  unfold State.changeFeed; split
  · rfl
  · rw [k.queueFeed, k.setFeed]

theorem setIgniter (l : Fin 6) (v : Bool) (c : CommandClass) : x (s.setIgniter l v c) = x s := by
  unfold State.setIgniter; rw [k.queueIgniter, k.refreshLineState, k.line]

theorem changeIgniter (l : Fin 6) (v : Bool) : x (s.changeIgniter l v) = x s := by
  unfold State.changeIgniter; split
  · rfl
  · rw [k.setIgniter]

theorem stopLine (b : Fin 3) (c : CommandClass) (l : Fin 6) : x (s.stopLine b c l) = x s := by
  unfold State.stopLine
  split
  · rfl
  · split_ifs <;> simp [k.queueFeed, k.setFeed, k.line, k.setIgniter, k.changeIgniter]

theorem rampLine (p : Nat) (l : Fin 6) : x (s.rampLine p l) = x s := by
  unfold State.rampLine
  split
  · rfl
  · split
    · rfl
    · split <;> simp [k.changeFeed]

theorem refreshLine (l : Fin 6) : x (s.refreshLine l) = x s := by
  unfold State.refreshLine
  split
  · rfl
  · split_ifs <;> simp [k.queueFeed, k.queueIgniter]

end FuelKeeps

/-- A part of the state that the cooler unit's strokes and fans leave alone. -/
structure CoolerKeeps {β : Type} (x : State → β) : Prop where
  cooler : ∀ s f, x (State.modCooler s f) = x s
  submit : ∀ s y p, x (State.submit s y p) = x s

namespace CoolerKeeps
variable {β : Type} {x : State → β} (k : CoolerKeeps x) (s : State)
include k

theorem queueRate (g : Fin 4) : x (s.queueRate g) = x s := by
  unfold State.queueRate State.modRun; split
  · rfl
  · rw [k.submit, k.cooler]

theorem setRate (g : Fin 4) (r : Nat) : x (s.setRate g r) = x s := by
  unfold State.setRate; simp only; split_ifs
  · rfl
  · unfold State.modRun; rw [k.cooler]
  · rw [k.queueRate]; unfold State.modRun; rw [k.cooler]

theorem startStroking (g : Fin 4) (r : Nat) : x (s.startStroking g r) = x s := by
  unfold State.startStroking State.modRun; rw [k.queueRate, k.cooler]

theorem queueFan (i : Fin 12) : x (s.queueFan i) = x s := by
  unfold State.queueFan State.modCompartment; split
  · rfl
  · rw [k.submit, k.cooler]

theorem applyFan (v : Bool) (i : Fin 12) : x (s.applyFan v i) = x s := by
  unfold State.applyFan State.modCompartment
  split
  · rw [k.cooler]
  · simp only; split
    · rfl
    · rw [k.queueFan, k.cooler]

theorem applyFans (v : Bool) : x (s.applyFans v) = x s := foldl_keeps (fun s i => k.applyFan s v i) s _

end CoolerKeeps

/-- The burners are none of the fuel unit's lines and commands. -/
theorem fuelKeeps_burners : FuelKeeps State.burners := ⟨fun _ _ _ => rfl, fun _ _ _ => rfl⟩

/-- A part of the state that the burner unit and the fuel unit leave alone. -/
structure BurnerKeeps {β : Type} (x : State → β) : Prop extends FuelKeeps x where
  burner : ∀ s b f, x (State.modBurner s b f) = x s
  account : ∀ s b f, x (State.postBurner s b f) = x s

namespace BurnerKeeps
variable {β : Type} {x : State → β} (k : BurnerKeeps x) (s : State)
include k

theorem setHold (b : Fin 3) (c : HoldCause) (v : Bool) : x (s.setHold b c v) = x s := by
  unfold State.setHold; rw [k.refreshBurnerLines, k.burner]

theorem setHoldAll (c : HoldCause) (v : Bool) : x (s.setHoldAll c v) = x s :=
  foldl_keeps (fun s b => k.setHold s b c v) s _

theorem postRunTime (b : Fin 3) : x (s.postRunTime b) = x s := by
  unfold State.postRunTime; split
  · rw [k.burner, k.account]
  · rfl

theorem stopLines (b : Fin 3) (c : CommandClass) : x (s.stopLines b c) = x s := by
  unfold State.stopLines; rw [k.burner]; exact foldl_keeps (fun s l => k.stopLine s b c l) s _

theorem setBurnerState (b : Fin 3) (st : BurnerState) : x (s.setBurnerState b st) = x s := by
  unfold State.setBurnerState; rw [k.refreshBurnerLines, k.burner]

theorem stopBurner (b : Fin 3) : x (s.stopBurner b) = x s := by
  unfold State.stopBurner; rw [k.setBurnerState, k.burner, k.stopLines, k.postRunTime]

theorem enterLockout (b : Fin 3) (c : LockoutCause) (d : LockoutDetail) : x (s.enterLockout b c d) = x s := by
  unfold State.enterLockout
  simp only [k.account, k.setBurnerState, k.burner, k.stopLines, k.postRunTime]

theorem tripBurner (b : Fin 3) (a : Fin 192) : x (s.tripBurner b a) = x s := by
  unfold State.tripBurner; split
  · rw [k.enterLockout]
  · rfl

theorem faultLine (l : Fin 6) (c : FaultCause) : x (s.faultLine l c) = x s := by
  unfold State.faultLine
  split
  · rfl
  · split
    · rfl
    · simp only
      split_ifs <;>
        simp [k.enterLockout, k.queueFeed, k.queueIgniter, k.setLineState, k.setFeed, k.line]

theorem enterLightoff (b : Fin 3) (e : BurnerEntry) (v : Bool) : x (s.enterLightoff b e v) = x s := by
  unfold State.enterLightoff; split
  · rw [k.enterLockout]
  · rw [k.queueFeed, k.setFeed, k.setBurnerState, k.burner]

theorem enterRun (b : Fin 3) (e : BurnerEntry) : x (s.enterRun b e) = x s := by
  unfold State.enterRun
  simp only [k.account, k.setBurnerState, k.burner]
  split
  · rw [k.changeIgniter]
  · rfl

theorem enterPurge (b : Fin 3) (e : BurnerEntry) : x (s.enterPurge b e) = x s := by
  unfold State.enterPurge; rw [k.setBurnerState, k.burner]

theorem permissiveLost (b : Fin 3) (n : Nat) (v : Bool) : x (s.permissiveLost b n v) = x s := by
  unfold State.permissiveLost
  split <;> (try split) <;> simp [k.setBurnerState, k.burner, k.enterLockout]

theorem visitPermissive (b : Fin 3) (n : Nat) (p : Permissive) : x (s.visitPermissive b n p) = x s := by
  unfold State.visitPermissive; simp only; split <;> simp [k.permissiveLost, k.burner]

theorem visitPermissives (sel : PermKind → Bool) : x (s.visitPermissives sel) = x s :=
  foldl_keeps (fun s b => by
    split
    · rfl
    · exact foldl_keeps (fun s x => by split <;> simp [k.visitPermissive]) s _) s _

end BurnerKeeps

/-- A part of the state that the burner, fuel and cooler units leave alone. -/
structure UnitsKeep {β : Type} (x : State → β) : Prop extends BurnerKeeps x where
  cooler : ∀ s f, x (State.modCooler s f) = x s
  submits : ∀ s y p, x (State.submit s y p) = x s

namespace UnitsKeep
variable {β : Type} {x : State → β} (k : UnitsKeep x) (s : State)
include k

theorem coolerKeeps : CoolerKeeps x := ⟨k.cooler, k.submits⟩

theorem setCoolerState (st : CoolerState) : x (s.setCoolerState st) = x s := by
  unfold State.setCoolerState; rw [k.visitPermissives, k.setHoldAll, k.cooler]

theorem coolerToSafe : x s.coolerToSafe = x s := by
  unfold State.coolerToSafe
  split
  · rw [k.coolerKeeps.applyFans]
    refine (foldl_keeps (fun s g => ?_) _ _).trans ?_
    · split <;> simp [k.coolerKeeps.startStroking]
    · rw [k.setCoolerState, k.cooler]
  · split
    · rw [k.coolerKeeps.applyFans]
      refine (foldl_keeps (fun s g => ?_) _ _).trans (k.setCoolerState s _)
      split
      · rfl
      · split <;> simp [k.coolerKeeps.setRate]
    · rfl

/-- The action of an alarm is carried out by the burner, fuel and cooler units. -/
theorem act (a : Fin 192) (y : AlarmAction) : x (s.act a y) = x s := by
  unfold State.act; split <;> simp [k.tripBurner, k.faultLine, k.coolerToSafe]

theorem reportAlarmHolds : x s.reportAlarmHolds = x s := foldl_keeps (fun s b => k.setHold s b _ _) s _

end UnitsKeep

/-- A part of the state that depends on none of the working units' own parts. -/
theorem unitsKeep_of {β : Type} {x : State → β} (line : ∀ s l f, x (State.modLine s l f) = x s)
    (cooler : ∀ s f, x (State.modCooler s f) = x s) (queue : ∀ s f, x (State.modQueue s f) = x s)
    (post : ∀ s f, x (State.post s f) = x s) (burner : ∀ s b f, x (State.modBurner s b f) = x s) : UnitsKeep x :=
  { line := line, submit := fun s _ _ => queue s _, burner := burner
    account := fun s _ _ => post s _, cooler := cooler, submits := fun s _ _ => queue s _ }

/-- The alarm unit, the plant port, the points, the floor engine and the time base are no working unit's. -/
theorem unitsKeep_alarm : UnitsKeep State.alarm :=
  unitsKeep_of (fun _ _ _ => rfl) (fun _ _ => rfl) (fun _ _ => rfl) (fun _ _ => rfl) (fun _ _ _ => rfl)

theorem unitsKeep_port : UnitsKeep State.port :=
  unitsKeep_of (fun _ _ _ => rfl) (fun _ _ => rfl) (fun _ _ => rfl) (fun _ _ => rfl) (fun _ _ _ => rfl)

theorem unitsKeep_points : UnitsKeep State.points :=
  unitsKeep_of (fun _ _ _ => rfl) (fun _ _ => rfl) (fun _ _ => rfl) (fun _ _ => rfl) (fun _ _ _ => rfl)

theorem unitsKeep_floor : UnitsKeep State.floor :=
  unitsKeep_of (fun _ _ _ => rfl) (fun _ _ => rfl) (fun _ _ => rfl) (fun _ _ => rfl) (fun _ _ _ => rfl)

theorem unitsKeep_timeBase : UnitsKeep State.timeBase :=
  unitsKeep_of (fun _ _ _ => rfl) (fun _ _ => rfl) (fun _ _ => rfl) (fun _ _ => rfl) (fun _ _ _ => rfl)

end Sys2Proof.Machine
end

