-- ==== Sys2Proof/Laws/Requests.lean ====
section
/-!
SUPPORT. What every request and every reply does: the taking of the request at the head, its arguments, its reply, and
the end of an event.
-/
namespace Sys2Proof.Machine

variable {s : State} {kind number : Byte} {args : List Byte}

/-! ### Taking a request -/

theorem State.offers.requestHead (h : s.offers kind number args) (sel : Byte → Bool) (k : sel kind = true) :
    s.requestHead sel = some { kind := kind, payload := number :: args } := by
  simp [State.requestHead, h.1, h.2, Option.filter, k]

theorem State.offers.serve (h : s.offers kind number args) (sel : Byte → Bool) (k : sel kind = true) (m : Result)
    (f : Handler) :
    s.serve sel m f = (f s.popRequest number args).1.queueAnswer number kind (f s.popRequest number args).2 := by
  simp [State.serve, h.requestHead sel k]

/-- A request of the kind that a row takes is handed to its owner, whose answer is queued. -/
theorem State.offers.serveKind (h : s.offers kind number args) (f : Handler) :
    s.serveKind kind f = (f s.popRequest number args).1.queueAnswer number kind (f s.popRequest number args).2 :=
  h.serve _ (by simp) _ f

theorem withArgs_of_read {as : List Arg} {bs : List Byte} {is : List Item} (h : readArgs as bs = some is)
    (f : State → Byte → List Item → State × Option Answer) (s : State) (n : Byte) :
    withArgs as f s n bs = f s n is := by simp [withArgs, h]

theorem answering_of_read {as : List Arg} {bs : List Byte} {is : List Item} (h : readArgs as bs = some is)
    (f : State → List Item → State × Answer) (s : State) (n : Byte) :
    answering as f s n bs = ((f s is).1, some (f s is).2) := by simp [answering, withArgs, h]

/-- A row that takes its request answers with what its owner makes of the decoded arguments. -/
theorem State.offers.conclude_answering (h : s.offers kind number args) {as : List Arg} {is : List Item}
    (r : readArgs as args = some is) (f : State → List Item → State × Answer) :
    (s.serveKind kind (answering as f)).conclude =
      .next ((f s.popRequest is).1.answered number kind (f s.popRequest is).2) := by
  simp [h.serveKind, answering_of_read r, State.queueAnswer, State.conclude, State.answered]

theorem State.offers.conclude_withArgs (h : s.offers kind number args) {as : List Arg} {is : List Item}
    (r : readArgs as args = some is) (f : State → Byte → List Item → State × Option Answer) :
    (s.serveKind kind (withArgs as f)).conclude =
      .next ((f s.popRequest number is).1.queueAnswer number kind (f s.popRequest number is).2).driveLines := by
  simp [h.serveKind, withArgs_of_read r, State.conclude]

/-! ### Object numbers -/

theorem objectIndex_one {n : Nat} (i : Fin n) : objectIndex n 1 ((i.val : Int) + 1) = some i := by
  have e : ((i.val : Int) + 1 - 1).toNat = i.val := by omega
  have h : (1 : Int) ≤ (i.val : Int) + 1 ∧ ((i.val : Int) + 1 - 1).toNat < n := ⟨by omega, by rw [e]; exact i.isLt⟩
  rw [objectIndex, dif_pos h]; simp

theorem objectIndex_zero {n : Nat} (i : Fin n) : objectIndex n 0 (i.val : Int) = some i := by
  simp [objectIndex]

theorem withObject_one {n : Nat} (i : Fin n) {is : List Item} (h : intOf is 1 = some ((i.val : Int) + 1)) (s : State)
    (f : Fin n → State × Answer) : withObject n 1 s is f = f i := by
  simp [withObject, needObject, h, objectIndex_one]

theorem withObject_zero {n : Nat} (i : Fin n) {is : List Item} (h : intOf is 1 = some (i.val : Int)) (s : State)
    (f : Fin n → State × Answer) : withObject n 0 s is f = f i := by
  simp [withObject, needObject, h, objectIndex_zero]

/-! ### Fields of the state after a request was taken and after a reply was offered -/

section
variable (s)

@[simp] theorem State.popRequest_timeBase : s.popRequest.timeBase = s.timeBase := rfl
@[simp] theorem State.popRequest_floor : s.popRequest.floor = s.floor := rfl
@[simp] theorem State.popRequest_points : s.popRequest.points = s.points := rfl
@[simp] theorem State.popRequest_burners : s.popRequest.burners = s.burners := rfl
@[simp] theorem State.popRequest_lines : s.popRequest.lines = s.lines := rfl
@[simp] theorem State.popRequest_cooler : s.popRequest.cooler = s.cooler := rfl
@[simp] theorem State.popRequest_queue : s.popRequest.queue = s.queue := rfl
@[simp] theorem State.popRequest_filters : s.popRequest.filters = s.filters := rfl
@[simp] theorem State.popRequest_alarm : s.popRequest.alarm = s.alarm := rfl
@[simp] theorem State.popRequest_shift : s.popRequest.shift = s.shift := rfl
@[simp] theorem State.popRequest_freeIndex : s.popRequest.freeIndex = s.freeIndex := rfl
@[simp] theorem State.popRequest_pending : s.popRequest.pending = s.pending := rfl
@[simp] theorem State.popRequest_burnerEntry? (b : Fin 3) : s.popRequest.burnerEntry? b = s.burnerEntry? b := rfl
@[simp] theorem State.popRequest_lineEntry? (l : Fin 6) : s.popRequest.lineEntry? l = s.lineEntry? l := rfl
@[simp] theorem State.popRequest_runEntry? (g : Fin 4) : s.popRequest.runEntry? g = s.runEntry? g := rfl
@[simp] theorem State.popRequest_runAt (g : Fin 4) : s.popRequest.runAt g = s.runAt g := rfl
@[simp] theorem State.popRequest_pointEntry? (p : Fin 256) : s.popRequest.pointEntry? p = s.pointEntry? p := rfl
@[simp] theorem State.popRequest_pointQuality (p : Fin 256) : s.popRequest.pointQuality p = s.pointQuality p := rfl
@[simp] theorem State.popRequest_pointGood (p : Fin 256) : s.popRequest.pointGood p = s.pointGood p := rfl
@[simp] theorem State.popRequest_alarmEntry? (a : Fin 192) : s.popRequest.alarmEntry? a = s.alarmEntry? a := rfl
@[simp] theorem State.popRequest_alarmAt (a : Fin 192) : s.popRequest.alarmAt a = s.alarmAt a := rfl

end

end Sys2Proof.Machine
end

