-- ==== Sys2Proof/Laws/Reset.lean ====
section
/-!
SUPPORT. What the time postings of a close and the parts of a reset change.
-/
namespace Sys2Proof.Machine

/-- The burner numbers in order. -/
theorem indices3 : indices 3 = [0,1,2] := by decide

@[simp] theorem State.freshFlags_modBurner (s : State) (b f e) : (s.modBurner b f).freshFlags e = s.freshFlags e := by
  unfold State.freshFlags; rfl

theorem State.freshPermissives_eq (s : State) :
    s.freshPermissives = { s with burners := s.burners.map fun x => { x with permOk := s.freshFlags x.entry } } := by
  have : s.freshPermissives = { s with burners := s.freshPermissives.burners } := rfl
  rw [this]; congr 1
  apply Vector.ext
  intro i hi
  simp only [State.freshPermissives, indices3, List.foldl]
  interval_cases i <;> simp [State.modBurner] <;> rfl

theorem State.freshReports_eq (s : State) : s.freshReports =
    { s with alarm := { s.alarm with
        alarms := s.alarm.alarms.map fun x => { x with reported := s.freshReport x.entry } } } := rfl

/-- With every point UNSET and the cooler STOPPED no permissive is satisfied: one false flag for each. -/
theorem State.freshFlags_unmet (s : State) (hp : ∀ p : Fin 256, (s.points[p]).quality = .unset)
    (hc : s.cooler.state = .stopped) (e : Option BurnerEntry) :
    s.freshFlags e = ((e.filter (·.inUse)).elim [] fun e => e.permissives.map fun _ => false) := by
  unfold State.freshFlags
  cases h : e.filter (·.inUse) with
  | none => rfl
  | some e' =>
    have hg : ∀ p, s.pointGood p = false := by
      intro p; rw [State.pointGood, State.pointQuality, hp p]; simp
    simp only [Option.elim_some]
    refine List.map_congr_left fun q _ => ?_
    cases q.kind <;> simp [State.permissiveMet, hg, hc]

theorem State.offerDigest_idle (s : State) (h1 : s.port.sending = none) (h2 : s.port.txQueue = []) :
    s.offerDigest = { s with port := { s.port with
        sending := some { kind := .digest, payload := s.digestPayload }
        sent := ({ kind := .digest, payload := s.digestPayload } : TxFrame).characters
        sendStart := s.timeBase } } := by
  simp [State.offerDigest, State.offerFrame, State.queueDigestFrame, holdsKind, h2, Config.transmitPlaces,
    State.appendTx, State.setTxQueue, State.modPort, Port.startSending, h1]

theorem State.turnRecord_eq (s : State) (c i) : s.turnRecord c i = { s with shift := { s.shift with
    ring := enterRing s.shift.ring (s.sealedRecord c), nextSequence := s.shift.nextSequence + 1
    record := s.openedRecord c i, boundary := s.nextBoundary } } := rfl

theorem State.resetWork_eq (s : State) (c : ResetCause) (a b : Bool) : s.resetWork c a b =
    (((s.timePostings.resetBlocks c a b).freshPermissives.turnRecord .reset
      s.timePostings.shift.record.index).offerDigest).freshReports := rfl

theorem State.postRunTime_keeps {β : Type} (x : State → β) (h1 : ∀ s b f, x (State.postBurner s b f) = x s)
    (h2 : ∀ (s : State) (b : Fin 3) t, x (s.modBurner b fun y => { y with runPosted := t }) = x s) (s : State)
    (b : Fin 3) : x (s.postRunTime b) = x s := by
  unfold State.postRunTime
  split
  · rw [h2, h1]
  · rfl

theorem State.timePostings_keeps {β : Type} (x : State → β) (h1 : ∀ s b f, x (State.postBurner s b f) = x s)
    (h0 : ∀ (s : State) (n : ShiftRecord → Count64), x (s.post fun r => { r with redRiver := n r }) = x s)
    (h2 : ∀ (s : State) (b : Fin 3) t, x (s.modBurner b fun y => { y with runPosted := t }) = x s)
    (h3 : ∀ (s : State) t, x (s.modCooler fun c => { c with redMark := c.redMark.map t }) = x s) (s : State) :
    x s.timePostings = x s := by
  unfold State.timePostings
  rw [h3]
  unfold State.postRedRiver
  split
  · rw [h0 _ (fun r => _)]; exact foldl_keeps (fun s b => State.postRunTime_keeps x h1 h2 s b) s _
  · exact foldl_keeps (fun s b => State.postRunTime_keeps x h1 h2 s b) s _

def Burner.noPost (x : Burner) : Burner := { x with runPosted := 0 }

theorem State.timePostings_burners (s : State) (b : Fin 3): Burner.noPost s.timePostings.burners[b] =
    Burner.noPost s.burners[b] := by
  have := State.timePostings_keeps (fun s => s.burners.map Burner.noPost) (fun s b f => rfl) (fun s n => rfl)
    (fun s b t => ?_) (fun s t => rfl) s
  · have h2 := congrArg (fun v => v[b]) this
    simpa using h2
  · exact vector_map_set _ _ _ _ rfl

theorem State.resetWork_spec (s : State) (c : ResetCause) (a b : Bool) : s.ResetBlocks (s.resetWork c a b) c a b ∧
    s.ResetShift (s.resetWork c a b) ∧
      (s.resetWork c a b).port.sending.any (·.kind == .digest) = true := by
  have ho := s.timePostings_outer
  have t1 : s.timePostings.timeBase = s.timeBase := State.timeBase_of_outer ho
  have t2 : s.timePostings.floor = s.floor := State.floor_of_outer ho
  have t3 : s.timePostings.points = s.points := State.points_of_outer ho
  have t4 : s.timePostings.filters = s.filters := State.filters_of_outer ho
  have t5 : s.timePostings.pending = s.pending := State.pending_of_outer ho
  have t6 : s.timePostings.lines = s.lines := State.timePostings_keeps State.lines (fun _ _ _ => rfl)
    (fun _ _ => rfl) (fun _ _ _ => rfl) (fun _ _ => rfl) s
  have t7 : s.timePostings.alarm = s.alarm := State.timePostings_keeps State.alarm (fun _ _ _ => rfl)
    (fun _ _ => rfl) (fun _ _ _ => rfl) (fun _ _ => rfl) s
  have t8 : s.timePostings.port = s.port := State.timePostings_keeps State.port (fun _ _ _ => rfl) (fun _ _ => rfl)
    (fun _ _ _ => rfl) (fun _ _ => rfl) s
  have t9 : s.timePostings.cooler.runs = s.cooler.runs :=
    State.timePostings_keeps (fun s => s.cooler.runs) (fun _ _ _ => rfl) (fun _ _ => rfl) (fun _ _ _ => rfl)
    (fun _ _ => rfl) s
  have t10 : s.timePostings.cooler.compartments = s.cooler.compartments :=
    State.timePostings_keeps (fun s => s.cooler.compartments) (fun _ _ _ => rfl) (fun _ _ => rfl) (fun _ _ _ => rfl)
    (fun _ _ => rfl) s
  have t11 : s.timePostings.cooler.zones = s.cooler.zones :=
    State.timePostings_keeps (fun s => s.cooler.zones) (fun _ _ _ => rfl) (fun _ _ => rfl) (fun _ _ _ => rfl)
    (fun _ _ => rfl) s
  have t12 : s.timePostings.shift.clock = s.shift.clock := State.shift_clock_of_outer ho
  have t13 : s.timePostings.shift.plan = s.shift.plan := State.shift_plan_of_outer ho
  have t14 : s.timePostings.shift.ring = s.shift.ring := State.shift_ring_of_outer ho
  have t15 : s.timePostings.shift.nextSequence = s.shift.nextSequence := State.shift_nextSequence_of_outer ho
  have t16 : s.timePostings.shift.record.index = s.shift.record.index :=
    State.timePostings_keeps (fun s => s.shift.record.index) (fun _ _ _ => rfl) (fun _ _ => rfl) (fun _ _ _ => rfl)
    (fun _ _ => rfl) s
  have tb := State.timePostings_burners s
  have hr : s.openSnapshot = s.timePostings.shift.record := by unfold State.openSnapshot; rfl
  rw [State.resetWork_eq]
  generalize hq : s.timePostings = q at *
  have hf : ∀ e, (q.resetBlocks c a b).freshFlags e =
      ((e.filter (·.inUse)).elim [] fun e => e.permissives.map fun _ => false) :=
    State.freshFlags_unmet _ (fun p => by simp [State.resetBlocks, Point.afterReset]) rfl
  have dc : ∀ s' : State, s'.shift.clock = s.shift.clock → s'.timeBase = s.timeBase → s'.dayClock = s.dayClock := by
    intro s' h1 h2; simp [State.dayClock, h1, h2]
  rw [State.freshPermissives_eq, State.turnRecord_eq, State.offerDigest_idle, State.freshReports_eq]
  · refine ⟨?_, ?_, ?_⟩
    · constructor
      · exact t1
      · rw [← t1, ← t2]; rfl
      · rw [← t3]; intro p; simp [State.resetBlocks, Point.afterReset]
      · intro i; have := tb i
        simp only [Burner.noPost, Burner.mk.injEq] at this
        simp [State.resetBlocks, Burner.afterReset] at this ⊢; simp [this]
      · intro i
        have he : ((q.resetBlocks c a b).burners[i]).entry = (s.burners[i]).entry := by
          have := tb i
          simp only [Burner.noPost, Burner.mk.injEq] at this
          simp [State.resetBlocks, Burner.afterReset] at this ⊢; simp [this]
        have hx := hf ((q.resetBlocks c a b).burners[i]).entry
        have hp : (((((q.resetBlocks c a b).burners.map fun x =>
            { x with permOk := (q.resetBlocks c a b).freshFlags x.entry }) : Vector Burner 3)[i]).permOk) =
            ((s.burnerEntry? i).elim [] fun e => e.permissives.map fun _ => false) := by
          rw [he] at hx
          rw [State.burnerEntry?, ← hx, ← he]
          simp
        refine ⟨fun e h => ?_, fun h => ?_⟩ <;> rw [h] at hp <;> exact hp
      · rw [← t6]; intro l; simp [State.resetBlocks, Line.afterReset]
      · exact ⟨rfl, rfl, rfl, rfl⟩
      · rw [← t9]; intro g; simp [State.resetBlocks, Cooler.afterReset, Run.afterReset]
      · rw [← t10]; intro g; simp [State.resetBlocks, Cooler.afterReset]
      · rw [← t11]; intro g; simp [State.resetBlocks, Cooler.afterReset]
      · rfl
      · exact t4
      · rw [← t7]; intro a; simp [State.resetBlocks, AlarmUnit.afterReset, Alarm.afterReset]
      · exact ⟨rfl, rfl⟩
      · rw [← t7]; exact ⟨rfl, rfl⟩
      · rw [← t8, ← t1]; rfl
      · exact t5
    · constructor
      · exact ⟨t12, t13⟩
      · refine ⟨q.sealedRecord .reset, ?_, ?_⟩
        · rw [← t14]; rfl
        · refine ⟨rfl, t15, t1, dc _ t12 t1, rfl, hr.symm⟩
      · have hd := dc _ t12 t1
        rw [← hd, ← t16, ← t1, ← t14]; rfl
      · rw [← t15]; rfl
      · unfold State.nextBoundary
        have hd := dc _ t12 t1
        rw [← hd, ← t13, ← t1]; rfl
    · rfl
  · rfl
  · rfl

end Sys2Proof.Machine
end

