-- ==== Sys2Proof/Laws/Fuel.lean ====
section
/-!
SUPPORT. What the line states, feeds and holds of the fuel unit become (R67, R70, R78 to R80).
-/
namespace Sys2Proof.Machine

/-- A pass over some indices that changes each element by itself. -/
theorem foldl_set_get {α : Type} {n : Nat} (g : Fin n → α → α) (l : List (Fin n)) (v : Vector α n) (hn : l.Nodup)
    (j : Fin n) : (l.foldl (fun v i => v.set i (g i v[i])) v)[j] = if j ∈ l then g j v[j] else v[j] := by
  induction l generalizing v with
  | nil => simp
  | cons i l ih =>
    have hn' := List.nodup_cons.mp hn
    rw [List.foldl_cons, ih _ hn'.2]
    by_cases hj : j = i
    · subst hj; simp [hn'.1]
    · have hij : (i : Nat) ≠ j := fun e => hj (Fin.ext e.symm)
      by_cases hm : j ∈ l <;> simp [hj, hm, Vector.getElem_set_ne _ _ hij]

/-- A pass over all indices that changes each element by itself. -/
theorem foldl_set_ofFn {α : Type} {n : Nat} (g : Fin n → α → α) (v : Vector α n) :
    (indices n).foldl (fun v i => v.set i (g i v[i])) v = Vector.ofFn fun i => g i v[i] := by
  apply Vector.ext
  intro i hi
  have := foldl_set_get g (indices n) v (List.nodup_finRange n) ⟨i, hi⟩
  simpa [indices] using this

/-- R67 for a line by itself. -/
def ruledOf (bs : Vector Burner 3) (x : Line) (e : LineEntry) : FuelState :=
  if e.kind.isMetered && (bs[e.burner]).state == .run && (bs[e.burner]).hold.nonempty then .held
  else if e.kind.isMetered && 0 < x.feed then .feeding
  else if !e.kind.isMetered && x.igniter then .feeding
  else .ready

theorem State.ruledState_eq (s : State) (l : Fin 6) (e : LineEntry) :
    s.ruledState l e = ruledOf s.burners s.lines[l] e := rfl

/-- A line by itself after its state was ruled (R67) and its deviation check followed (R85). -/
def followLine (bs : Vector Burner 3) (now : Time) (x : Line) : Line :=
  match x.entry.filter (·.inUse) with
  | none => x
  | some e =>
    if x.state = .out ∨ x.state = .fault then x
    else if x.state = ruledOf bs x e then x
    else { x with state := ruledOf bs x e, deviation := x.deviationIn (ruledOf bs x e) now }

theorem followLine_rest (bs : Vector Burner 3) (now : Time) (x : Line) :
    { followLine bs now x with state := .out, deviation := {} } = { x with state := .out, deviation := {} } := by
  unfold followLine; split
  · rfl
  · split_ifs <;> rfl

/-- R85: the deviation check after a change to a state, and after none. -/
theorem Line.checkAfter_ne (x : Line) (st : FuelState) (now : Time) (h : st ≠ x.state) :
    x.checkAfter st now = x.deviationIn st now := by
  unfold Line.checkAfter Line.deviationIn
  rw [if_neg h]
  have key : x.entry.any (·.kind.isContinuous) =
      match x.entry.map LineEntry.kind with
      | some (.continuous _ _ _) => true
      | _ => false := by
    cases x.entry with
    | none => rfl
    | some e => cases hk : e.kind <;> simp [LineKind.isContinuous, hk]
  rw [key]
  cases st <;> first | rfl | skip
  cases x.entry.map LineEntry.kind with
  | none => rfl
  | some k => cases k <;> rfl

theorem Line.checkAfter_self (x : Line) (now : Time) : x.checkAfter x.state now = x.deviation := if_pos rfl

theorem followLine_check (bs : Vector Burner 3) (now : Time) (x : Line) : { followLine bs now x with state := .out } =
    { x with state := .out, deviation := x.checkAfter (followLine bs now x).state now } := by
  unfold followLine; split
  · rw [x.checkAfter_self]
  · split_ifs with h1 h2
    · rw [x.checkAfter_self]
    · rw [x.checkAfter_self]
    · rw [x.checkAfter_ne _ _ (Ne.symm h2)]

theorem followLine_standing (bs : Vector Burner 3) (now : Time) (x : Line) (h : x.state = .out ∨ x.state = .fault) :
    followLine bs now x = x := by
  unfold followLine; split
  · rfl
  · rw [if_pos h]

theorem followLine_state (bs : Vector Burner 3) (now : Time) (x : Line) (e : LineEntry)
    (h : x.entry.filter (·.inUse) = some e) (h1 : x.state ≠ .out) (h2 : x.state ≠ .fault) :
    (followLine bs now x).state = ruledOf bs x e := by
  unfold followLine; rw [h]; simp only
  rw [if_neg (by tauto)]
  split_ifs with h3
  · exact h3
  · rfl

theorem followLine_entry (bs : Vector Burner 3) (now : Time) (x : Line) : (followLine bs now x).entry = x.entry := by
  unfold followLine; split
  · rfl
  · split_ifs <;> rfl

theorem followLine_feed (bs : Vector Burner 3) (now : Time) (x : Line) : (followLine bs now x).feed = x.feed := by
  unfold followLine; split
  · rfl
  · split_ifs <;> rfl

theorem followLine_igniter (bs : Vector Burner 3) (now : Time) (x : Line) :
    (followLine bs now x).igniter = x.igniter := by
  unfold followLine; split
  · rfl
  · split_ifs <;> rfl

theorem ruledOf_congr (bs : Vector Burner 3) {x y : Line} (e : LineEntry) (h : x.feed = y.feed)
    (h' : x.igniter = y.igniter) : ruledOf bs x e = ruledOf bs y e := by
  simp [ruledOf, h, h']

section
variable (s : State)

/-- A line's state is ruled again (R67). -/
theorem State.refreshLineState_eq (l : Fin 6) :
    s.refreshLineState l = { s with lines := s.lines.set l (followLine s.burners s.timeBase s.lines[l]) } := by
  have self : ({ s with lines := s.lines.set l s.lines[l] } : State) = s := by simp
  unfold State.refreshLineState State.lineEntry? followLine
  generalize (s.lines[l]).entry.filter (·.inUse) = y
  cases y with
  | none => exact self.symm
  | some e =>
    simp only
    split_ifs with h1 h2
    · exact self.symm
    · rw [State.setLineState, State.ruledState_eq, if_pos h2]; exact self.symm
    · rw [State.setLineState, State.ruledState_eq, if_neg h2]; rfl

theorem State.refreshBurnerLines_eq (b : Fin 3) :
    s.refreshBurnerLines b =
      { s with lines := Vector.ofFn fun l => if s.lineOf b l then followLine s.burners s.timeBase s.lines[l] else s.lines[l] } := by
  have key : ∀ (ls : List (Fin 6)) (s : State),
      ls.foldl (fun s l => if s.lineOf b l then s.refreshLineState l else s) s =
        { s with lines := ls.foldl (fun (v : Vector Line 6) (l : Fin 6) => v.set l (if (v[l].entry.filter (·.inUse)).any (·.burner == b)
            then followLine s.burners s.timeBase v[l] else v[l])) s.lines } := by
    intro ls
    induction ls with
    | nil => intro s; rfl
    | cons l ls ih =>
      intro s
      rw [List.foldl_cons, List.foldl_cons]
      by_cases h : s.lineOf b l = true
      · have h' : ((s.lines[l]).entry.filter (·.inUse)).any (·.burner == b) = true := h
        rw [if_pos h, if_pos h', ih, State.refreshLineState_eq]
      · have h' : ¬ ((s.lines[l]).entry.filter (·.inUse)).any (·.burner == b) = true := h
        rw [if_neg h, if_neg h', ih]
        simp
  have pass := foldl_set_ofFn (fun (_ : Fin 6) (x : Line) =>
    if (x.entry.filter (·.inUse)).any (·.burner == b) then followLine s.burners s.timeBase x else x) s.lines
  rw [State.refreshBurnerLines, key]
  exact congrArg (fun v => ({ s with lines := v } : State)) pass

end

/-! ### Hold causes (R70) -/

section
variable (s : State)

theorem State.setHold_burners (b : Fin 3) (c : HoldCause) (v : Bool) :
    (s.setHold b c v).burners = s.burners.set b { s.burners[b] with hold := (s.burners[b]).hold.put c v } := by
  rw [State.setHold, fuelKeeps_burners.refreshBurnerLines]; rfl

theorem State.setHold_line (b : Fin 3) (c : HoldCause) (v : Bool) (l : Fin 6) :
    (s.setHold b c v).lines[l] =
      if s.lineOf b l then followLine (s.setHold b c v).burners s.timeBase s.lines[l] else s.lines[l] := by
  rw [State.setHold_burners, State.setHold, State.refreshBurnerLines_eq]
  simp only [Fin.getElem_fin, Vector.getElem_ofFn]
  rfl

theorem State.setHold_rest (b : Fin 3) (c : HoldCause) (v : Bool) :
    { s.setHold b c v with burners := s.burners, lines := s.lines } = s := by
  rw [State.setHold, State.refreshBurnerLines_eq]; rfl

theorem State.setHold_entry (b : Fin 3) (c : HoldCause) (v : Bool) (l : Fin 6) :
    ((s.setHold b c v).lines[l]).entry = (s.lines[l]).entry := by
  rw [State.setHold_line]; split
  · exact followLine_entry _ _ _
  · rfl

theorem State.setHold_timeBase (b : Fin 3) (c : HoldCause) (v : Bool) : (s.setHold b c v).timeBase = s.timeBase :=
  unitsKeep_timeBase.setHold s b c v

theorem State.setHold_lineOf (b : Fin 3) (c : HoldCause) (v : Bool) (b' : Fin 3) (l : Fin 6) :
    (s.setHold b c v).lineOf b' l = s.lineOf b' l := by
  simp only [State.lineOf, State.lineEntry?, State.setHold_entry]

theorem State.lineOf_some {l : Fin 6} {e : LineEntry} (h : s.lineEntry? l = some e) (b : Fin 3) :
    s.lineOf b l = (e.burner == b) := by simp [State.lineOf, h]

theorem State.lineOf_none {l : Fin 6} (h : s.lineEntry? l = none) (b : Fin 3) : s.lineOf b l = false := by
  simp [State.lineOf, h]

/-- A hold cause put for each burner as `v` says. -/
def State.putHolds (s : State) (c : HoldCause) (v : Fin 3 → Bool) : State :=
  (indices 3).foldl (fun s b => s.setHold b c (v b)) s

theorem State.putHolds_burners (c : HoldCause) (v : Fin 3 → Bool) : (s.putHolds c v).burners =
    Vector.ofFn fun b => { s.burners[b] with hold := (s.burners[b]).hold.put c (v b) } := by
  simp only [State.putHolds, indices3, List.foldl, State.setHold_burners]
  apply Vector.ext
  intro i hi
  interval_cases i <;> simp

theorem State.setHoldAll_burners (c : HoldCause) (v : Bool) :
    (s.setHoldAll c v).burners = s.burners.map fun x => { x with hold := x.hold.put c v } := by
  refine (s.putHolds_burners c fun _ => v).trans ?_
  apply Vector.ext; intro i hi; simp

/-- After the report of a hold cause a line in use is ruled by the burners as they then are. -/
theorem State.putHolds_line (c : HoldCause) (v : Fin 3 → Bool) (l : Fin 6) :
    ∃ bs : Vector Burner 3, (s.putHolds c v).lines[l] = followLine bs s.timeBase s.lines[l] ∧
      ∀ e, s.lineEntry? l = some e → bs[e.burner] = (s.putHolds c v).burners[e.burner] := by
  cases h : s.lineEntry? l with
  | none =>
    refine ⟨s.burners, ?_, by simp⟩
    have hf : followLine s.burners s.timeBase s.lines[l] = s.lines[l] := by
      have h' : (s.lines[l]).entry.filter (·.inUse) = none := h
      unfold followLine; rw [h']
    rw [hf]
    simp only [State.putHolds, indices3, List.foldl, State.setHold_line, State.setHold_lineOf, s.lineOf_none h]
    rfl
  | some e =>
    have hl : ∀ b, s.lineOf b l = (e.burner == b) := s.lineOf_some h
    have three : ∀ b : Fin 3, b = 0 ∨ b = 1 ∨ b = 2 := by decide
    have L0 := s.setHold_line 0 c (v 0) l
    have L1 := (s.setHold 0 c (v 0)).setHold_line 1 c (v 1) l
    have L2 := ((s.setHold 0 c (v 0)).setHold 1 c (v 1)).setHold_line 2 c (v 2) l
    have B1 := (s.setHold 0 c (v 0)).setHold_burners 1 c (v 1)
    have B2 := ((s.setHold 0 c (v 0)).setHold 1 c (v 1)).setHold_burners 2 c (v 2)
    simp only [State.setHold_lineOf, hl, State.setHold_timeBase] at L0 L1 L2
    have hs : s.putHolds c v = ((s.setHold 0 c (v 0)).setHold 1 c (v 1)).setHold 2 c (v 2) := by
      simp only [State.putHolds, indices3, List.foldl]
    rw [hs]
    generalize ((s.setHold 0 c (v 0)).setHold 1 c (v 1)).setHold 2 c (v 2) = s3 at *
    generalize (s.setHold 0 c (v 0)).setHold 1 c (v 1) = s2 at *
    generalize s.setHold 0 c (v 0) = s1 at *
    rcases three e.burner with hb | hb | hb <;> rw [hb] at L0 L1 L2
    · refine ⟨s1.burners, ?_, ?_⟩
      · rw [L2, if_neg (by decide), L1, if_neg (by decide), L0, if_pos (by decide)]
      · rintro e' ⟨⟩
        have at0 : ∀ b : Fin 3, b = 0 → s1.burners[b] = s3.burners[b] := by rintro b rfl; rw [B2, B1]; simp
        exact at0 _ hb
    · refine ⟨s2.burners, ?_, ?_⟩
      · rw [L2, if_neg (by decide), L1, if_pos (by decide), L0, if_neg (by decide)]
      · rintro e' ⟨⟩
        have at1 : ∀ b : Fin 3, b = 1 → s2.burners[b] = s3.burners[b] := by rintro b rfl; rw [B2]; simp
        exact at1 _ hb
    · refine ⟨s3.burners, ?_, ?_⟩
      · rw [L2, if_pos (by decide), L1, if_neg (by decide), L0, if_neg (by decide)]
      · rintro e' ⟨⟩; rfl

theorem State.setHoldAll_line (c : HoldCause) (v : Bool) (l : Fin 6) :
    ∃ bs : Vector Burner 3, (s.setHoldAll c v).lines[l] = followLine bs s.timeBase s.lines[l] ∧
      ∀ e, s.lineEntry? l = some e → bs[e.burner] = (s.setHoldAll c v).burners[e.burner] :=
  s.putHolds_line c (fun _ => v) l

/-- The report of a hold cause for each burner. -/
theorem State.putHolds_spec (c : HoldCause) (v : Fin 3 → Bool) : s.HoldsReported (s.putHolds c v) c v := by
  constructor
  · intro b; rw [State.putHolds_burners]; simp
  · intro l; obtain ⟨bs, h, -⟩ := s.putHolds_line c v l; rw [h]; exact followLine_check _ _ _
  · intro l hs; obtain ⟨bs, h, -⟩ := s.putHolds_line c v l; rw [h]; exact followLine_standing _ _ _ hs
  · intro l e he h1 h2
    obtain ⟨bs, h, hb⟩ := s.putHolds_line c v l
    rw [State.ruledState_eq, h, followLine_state _ _ _ e he h1 h2]
    simp only [ruledOf, followLine_feed, followLine_igniter, hb e he]
  · exact foldl_keeps (x := fun t : State => ({ t with burners := s.burners, lines := s.lines } : State))
      (f := fun s b => s.setHold b c (v b)) (fun t b => by
        have h := t.setHold_rest b c (v b)
        rw [State.mk.injEq] at h ⊢
        simpa using h) s (indices 3)

/-- The report of a hold cause for all three burners. -/
theorem State.setHoldAll_spec (c : HoldCause) (v : Bool) : s.HoldReported (s.setHoldAll c v) c v :=
  s.putHolds_spec c fun _ => v

end

end Sys2Proof.Machine
end

