-- ==== Sys2Proof/Laws/Burner.lean ====
section
/-!
SUPPORT. What the burner unit's operations make of the burners (chapter 3).
-/
namespace Sys2Proof.Machine

section
variable (s : State) (b : Fin 3)

theorem State.modBurner_burners' (f : Burner → Burner) : (s.modBurner b f).burners =
    s.burners.set b (f s.burners[b]) := rfl

theorem State.postRunTime_burners : (s.postRunTime b).burners = s.burners.set b
    { s.burners[b] with
      runPosted := if (s.burners[b]).state = .run then s.timeBase else (s.burners[b]).runPosted } := by
  unfold State.postRunTime
  split_ifs with h
  · rfl
  · exact (by simp : s.burners = s.burners.set b s.burners[b])

@[simp] theorem State.postBurner_burners (f : BurnerAccount → BurnerAccount) :
    (s.postBurner b f).burners = s.burners := rfl

theorem State.stopLines_burners (c : CommandClass) : (s.stopLines b c).burners = s.burners.set b
    { s.burners[b] with demand := 0, undelivered := 0, excess := 0 } := by
  have h : ((indices 6).foldl (fun s l => s.stopLine b c l) s).burners = s.burners :=
    foldl_keeps (fun s l => fuelKeeps_burners.stopLine s b c l) s _
  rw [State.stopLines, State.modBurner_burners', h]

theorem State.setBurnerState_burners (st : BurnerState) : (s.setBurnerState b st).burners = s.burners.set b
    { s.burners[b] with state := st } := by
  rw [State.setBurnerState, fuelKeeps_burners.refreshBurnerLines]; rfl

theorem State.stopBurner_burners :
    (s.stopBurner b).burners = s.burners.set b ((s.burners[b]).halted .off s.timeBase) := by
  rw [State.stopBurner, State.setBurnerState_burners, State.modBurner_burners', State.stopLines_burners,
    State.postRunTime_burners]
  simp [Burner.clearFiring, Burner.halted]

theorem State.enterLockout_burners (c : LockoutCause) (d : LockoutDetail) : (s.enterLockout b c d).burners =
    s.burners.set b
      ({ s.burners[b] with lockout := some (s.lockoutRecord b c d) }.halted .lockout s.timeBase) := by
  rw [State.enterLockout]
  dsimp only
  rw [State.postBurner_burners, State.setBurnerState_burners, State.modBurner_burners', State.stopLines_burners,
    State.postRunTime_burners, State.modBurner_burners']
  simp [Burner.clearFiring, Burner.halted]

/-- A burner that enters LIGHTOFF with the light-off line `l` (R53). -/
def Burner.lighting (x : Burner) (e : BurnerEntry) (l : Fin 6) (self : Bool) (now : Time) : Burner :=
  { x with
    state := .lightoff, lightoffLine := some l, timer := some (.lightoff, now + e.lightoffTime * 1000)
    trialInLightoff := if self then some (now + e.ignitionTrial * 1000) else none
    confirmed := if self then false else x.confirmed
    presentRun := if self then 0 else x.presentRun
    absentRun := if self then 0 else x.absentRun }

theorem State.enterLightoff_burners (e : BurnerEntry) (self : Bool) (l : Fin 6)
    (h : s.chooseLightoffLine b = some l) : (s.enterLightoff b e self).burners =
      s.burners.set b ((s.burners[b]).lighting e l self s.timeBase) := by
  rw [State.enterLightoff, h]
  dsimp only
  rw [fuelKeeps_burners.queueFeed, fuelKeeps_burners.setFeed, State.setBurnerState_burners, State.modBurner_burners']
  simp [Burner.lighting]

/-- A part of one burner that the entries to other states and the vote leave alone. -/
structure BurnerPart {β : Type} (x : Burner → β) : Prop where
  lockout : ∀ y r st now, x (Burner.halted { y with lockout := r } st now) = x y
  lighting : ∀ y e l v now, x (Burner.lighting y e l v now) = x y
  vote : ∀ y e, x (Burner.takeVote y e) = x y
  confirm : ∀ y v t t', x { y with confirmed := v, timer := t, trialInLightoff := t' } = x y

namespace BurnerPart
variable {β : Type} {x : Burner → β} (k : BurnerPart x) (j : Fin 3)
include k

omit k in
theorem set (v : Vector Burner 3) (y : Burner) (h : x y = x v[b]) : x ((v.set b y)[j]) = x v[j] := by
  by_cases e : b = j
  · subst e; simpa using h
  · have : (b : Nat) ≠ j := fun h => e (Fin.ext h)
    simp [Vector.getElem_set_ne _ _ this]

theorem enterLockout (c : LockoutCause) (d : LockoutDetail) : x (s.enterLockout b c d).burners[j] = x s.burners[j] := by
  rw [State.enterLockout_burners]; exact BurnerPart.set b j _ _ (k.lockout _ _ _ _)

theorem enterLightoff (e : BurnerEntry) (v : Bool) : x (s.enterLightoff b e v).burners[j] = x s.burners[j] := by
  cases h : s.chooseLightoffLine b with
  | none => rw [State.enterLightoff, h]; exact k.enterLockout s b j _ _
  | some l => rw [State.enterLightoff_burners s b e v l h]; exact BurnerPart.set b j _ _ (k.lighting _ _ _ _ _)

omit k in
theorem modBurner (f : Burner → Burner) (h : ∀ y, x (f y) = x y) : x (s.modBurner b f).burners[j] = x s.burners[j] := by
  rw [State.modBurner_burners']; exact BurnerPart.set b j _ _ (h _)

theorem actOnVote (e : BurnerEntry) : x (s.actOnVote b e).burners[j] = x s.burners[j] := by
  unfold State.actOnVote
  dsimp only
  split
  · split
    · exact k.enterLockout s b j _ _
    · rfl
  · split
    · rw [k.enterLightoff]; exact BurnerPart.modBurner s b j _ fun y => k.confirm y _ _ _
    · rfl
  · split
    · exact BurnerPart.modBurner s b j _ fun y => k.confirm y _ _ _
    · split
      · exact k.enterLockout s b j _ _
      · rfl
  · split
    · exact k.enterLockout s b j _ _
    · rfl
  · rfl
  · rfl

theorem evaluateVote (e : BurnerEntry) : x (s.evaluateVote b e).burners[j] = x s.burners[j] := by
  rw [State.evaluateVote, k.actOnVote]; exact BurnerPart.modBurner s b j _ fun y => k.vote y e

end BurnerPart

theorem burnerPart_scanner1 : BurnerPart Burner.scanner1 :=
  ⟨fun _ _ _ _ => rfl, fun _ _ _ _ _ => rfl, fun _ _ => by unfold Burner.takeVote; split <;> rfl, fun _ _ _ _ => rfl⟩

theorem burnerPart_scanner2 : BurnerPart Burner.scanner2 :=
  ⟨fun _ _ _ _ => rfl, fun _ _ _ _ _ => rfl, fun _ _ => by unfold Burner.takeVote; split <;> rfl, fun _ _ _ _ => rfl⟩

theorem burnerPart_entry : BurnerPart Burner.entry :=
  ⟨fun _ _ _ _ => rfl, fun _ _ _ _ _ => rfl, fun _ _ => by unfold Burner.takeVote; split <;> rfl, fun _ _ _ _ => rfl⟩

/-! ### Lines that follow their burner (R67) -/

theorem State.refreshBurnerLines_spec : s.LinesRuled (s.refreshBurnerLines b) b := by
  have e : ∀ l : Fin 6, (s.refreshBurnerLines b).lines[l] =
      if s.lineOf b l then followLine s.burners s.timeBase s.lines[l] else s.lines[l] := fun l => by
    rw [State.refreshBurnerLines_eq]; simp only [Fin.getElem_fin, Vector.getElem_ofFn]
  constructor
  · intro l h; rw [e, if_neg (by simp [h])]
  · intro l; rw [e]; split
    · exact followLine_check _ _ _
    · rw [(s.lines[l]).checkAfter_self]
  · intro l h; rw [e]; split
    · exact followLine_standing _ _ _ h
    · rfl
  · intro l x hx hb h1 h2
    rw [State.ruledState_eq, e, if_pos (by rw [s.lineOf_some hx]; simp [hb]), followLine_state _ _ _ x hx h1 h2,
      fuelKeeps_burners.refreshBurnerLines]
    exact ruledOf_congr _ _ (followLine_feed _ _ _).symm (followLine_igniter _ _ _).symm
  · rw [State.refreshBurnerLines_eq]

theorem State.setBurnerState_spec (st : BurnerState) :
    State.LinesRuled { s with burners := s.burners.set b { s.burners[b] with state := st } } (s.setBurnerState b st)
      b :=
  State.refreshBurnerLines_spec _ b

/-! ### What a stop makes of the lines (R56, R58) -/

/-- A line apart from its deviation check and which in-service state it is in. -/
def Line.firm (x : Line) : Line :=
  { x with
    state := if x.state = .out ∨ x.state = .fault then x.state else .ready, deviation := {} }

theorem ruledOf_service (bs : Vector Burner 3) (x : Line) (e : LineEntry) :
    ¬ (ruledOf bs x e = .out ∨ ruledOf bs x e = .fault) := by
  unfold ruledOf; split_ifs <;> simp

theorem followLine_firm (bs : Vector Burner 3) (now : Time) (x : Line) : (followLine bs now x).firm = x.firm := by
  unfold followLine
  split
  · rfl
  · rename_i e _
    split_ifs with h1 h2
    · rfl
    · rfl
    · unfold Line.firm; rw [if_neg h1, if_neg (ruledOf_service bs x e)]

theorem State.modLine_line (l j : Fin 6) (f : Line → Line) :
    (s.modLine l f).lines[j] = if l = j then f s.lines[l] else s.lines[j] := by
  show (s.lines.set l (f s.lines[l]))[j] = _
  by_cases h : l = j
  · subst h; simp
  · have : (l : Nat) ≠ j := fun h' => h (Fin.ext h')
    rw [if_neg h]; exact Vector.getElem_set_ne _ _ this

theorem State.refreshLineState_line (l j : Fin 6) : (s.refreshLineState l).lines[j] =
    if l = j then followLine s.burners s.timeBase s.lines[l] else s.lines[j] := by
  rw [State.refreshLineState_eq]
  exact State.modLine_line s l j fun x => followLine s.burners s.timeBase x

theorem State.setFeed_firm (l j : Fin 6) (c : Nat) : ((s.setFeed l c).lines[j]).firm =
    if l = j then ({ s.lines[l] with feed := c, dose := (s.lines[l]).doseFor c s.timeBase } : Line).firm
    else (s.lines[j]).firm := by
  rw [State.setFeed, State.refreshLineState_line]
  by_cases h : l = j
  · subst h; rw [if_pos rfl, if_pos rfl, followLine_firm, State.modLine_line, if_pos rfl]
  · rw [if_neg h, if_neg h, State.modLine_line, if_neg h]

theorem State.setFeed_lineEntry (l j : Fin 6) (c : Nat) : (s.setFeed l c).lineEntry? j = s.lineEntry? j := by
  simp only [State.lineEntry?, State.lines_entry_of_outer (s.setFeed_outer l c)]

theorem State.refreshLineState_lineEntry (l j : Fin 6) : (s.refreshLineState l).lineEntry? j = s.lineEntry? j := by
  simp only [State.lineEntry?, State.lines_entry_of_outer (s.refreshLineState_outer l)]

theorem State.queueFeed_lines (l : Fin 6) (e : LineEntry) (h : s.lineEntry? l = some e) (c : CommandClass) :
    s.queueFeed l c = (s.modLine l fun x => { x with refresh := 0 }).submit (.line l)
      { station := e.station, kind := .feed, value := (s.lines[l]).feed, cls := c, origin := .fuel } := by
  rw [State.queueFeed, h]

theorem State.queueIgniter_lines (l : Fin 6) (e : LineEntry) (h : s.lineEntry? l = some e) (c : CommandClass) :
    s.queueIgniter l c = (s.modLine l fun x => { x with refresh := 0 }).submit (.line l)
      { station := e.station, kind := .igniter, value := if (s.lines[l]).igniter then 1 else 0, cls := c,
        origin := .fuel } := by
  rw [State.queueIgniter, h]

theorem State.queueFeed_firm (l j : Fin 6) (e : LineEntry) (h : s.lineEntry? l = some e) (c : CommandClass) :
    ((s.queueFeed l c).lines[j]).firm =
      if l = j then ({ s.lines[l] with refresh := 0 } : Line).firm else (s.lines[j]).firm := by
  rw [s.queueFeed_lines l e h, State.submit_lines, State.modLine_line]; split <;> rfl

theorem State.queueIgniter_firm (l j : Fin 6) (e : LineEntry) (h : s.lineEntry? l = some e) (c : CommandClass) :
    ((s.queueIgniter l c).lines[j]).firm =
      if l = j then ({ s.lines[l] with refresh := 0 } : Line).firm else (s.lines[j]).firm := by
  rw [s.queueIgniter_lines l e h, State.submit_lines, State.modLine_line]; split <;> rfl

theorem Line.firm_refresh {x y : Line} (h : x.firm = y.firm) :
    ({ x with refresh := 0 } : Line).firm = ({ y with refresh := 0 } : Line).firm :=
  congrArg (fun z : Line => { z with refresh := 0 }) h

theorem State.setIgniter_firm (l j : Fin 6) (e : LineEntry) (h : s.lineEntry? l = some e) (on : Bool)
    (c : CommandClass) : ((s.setIgniter l on c).lines[j]).firm =
      if l = j then ({ s.lines[l] with igniter := on, refresh := 0 } : Line).firm else (s.lines[j]).firm := by
  have h' : ((s.modLine l fun x => { x with igniter := on }).refreshLineState l).lineEntry? l = some e := by
    rw [State.refreshLineState_lineEntry, ← h]
    simp only [State.lineEntry?, State.modLine_line, if_pos]
  have hr : ((((s.modLine l fun x => { x with igniter := on }).refreshLineState l).lines[l]).firm =
      ({ s.lines[l] with igniter := on } : Line).firm) := by
    rw [State.refreshLineState_line, if_pos rfl, followLine_firm, State.modLine_line, if_pos rfl]
  rw [State.setIgniter, State.queueIgniter_firm _ l j e h']
  by_cases hj : l = j
  · rw [if_pos hj, if_pos hj]; exact Line.firm_refresh hr
  · rw [if_neg hj, if_neg hj, State.refreshLineState_line, if_neg hj, State.modLine_line, if_neg hj]

theorem State.changeIgniter_firm (l j : Fin 6) (e : LineEntry) (h : s.lineEntry? l = some e) (on : Bool) :
    ((s.changeIgniter l on).lines[j]).firm =
      if l = j ∧ (s.lines[l]).igniter ≠ on then ({ s.lines[l] with igniter := on, refresh := 0 } : Line).firm
      else (s.lines[j]).firm := by
  unfold State.changeIgniter
  by_cases hi : (s.lines[l]).igniter = on
  · rw [if_pos hi, if_neg (by tauto)]
  · rw [if_neg hi, State.setIgniter_firm _ _ _ e h]
    by_cases hj : l = j
    · rw [if_pos hj, if_pos ⟨hj, hi⟩]
    · rw [if_neg hj, if_neg fun h => hj h.1]

/-- A line, as `firm` shows it, after the stop of burner `b` in class `c` (R56, R58). -/
def Line.stopped (x : Line) (b : Fin 3) (c : CommandClass) (lit : Bool) : Line :=
  match x.entry.filter (·.inUse) with
  | none => x
  | some e =>
    if e.burner ≠ b then x
    else if e.kind.isMetered then { x with feed := 0, target := 0, dose := none, refresh := 0 }
    else if lit && (c == .trip || x.igniter) then { x with igniter := false, refresh := 0 }
    else x

theorem Line.stopped_firm {x y : Line} (h : x.firm = y.firm) (b : Fin 3) (c : CommandClass) (lit : Bool) :
    (x.stopped b c lit).firm = (y.stopped b c lit).firm := by
  have he : x.entry = y.entry := by simpa [Line.firm] using congrArg Line.entry h
  have hg : x.igniter = y.igniter := by simpa [Line.firm] using congrArg Line.igniter h
  have hy : y.entry.filter (·.inUse) = x.entry.filter (·.inUse) := by rw [he]
  unfold Line.stopped
  rw [hy]
  cases x.entry.filter (·.inUse) with
  | none => exact h
  | some e =>
    dsimp only
    by_cases h1 : e.burner ≠ b
    · rw [if_pos h1, if_pos h1]; exact h
    · rw [if_neg h1, if_neg h1]
      by_cases h2 : e.kind.isMetered = true
      · rw [if_pos h2, if_pos h2]
        exact congrArg (fun z : Line => { z with feed := 0, target := 0, dose := none, refresh := 0 }) h
      · rw [if_neg h2, if_neg h2]
        by_cases h3 : (lit && (c == .trip || x.igniter)) = true
        · rw [if_pos h3, if_pos (by rw [← hg]; exact h3)]
          exact congrArg (fun z : Line => { z with igniter := false, refresh := 0 }) h
        · rw [if_neg h3, if_neg (by rw [← hg]; exact h3)]
          exact h

theorem Line.doseFor_zero (x : Line) (now : Time) : x.doseFor 0 now = none := by
  unfold Line.doseFor; split
  · rw [if_pos rfl]
  · rfl

theorem State.stopLine_firm (c : CommandClass) (l j : Fin 6) : ((s.stopLine b c l).lines[j]).firm =
    if l = j then ((s.lines[l]).stopped b c (s.ignitionLine b == some l)).firm else (s.lines[j]).firm := by
  have self : (s.lines[j]).firm = if l = j then (s.lines[l]).firm else (s.lines[j]).firm := by
    split
    · rename_i h; subst h; rfl
    · rfl
  unfold State.stopLine Line.stopped
  have he : s.lineEntry? l = (s.lines[l]).entry.filter (·.inUse) := rfl
  rw [← he]
  cases h : s.lineEntry? l with
  | none => exact self
  | some e =>
    dsimp only
    by_cases h1 : e.burner ≠ b
    · rw [if_pos h1, if_pos h1]; exact self
    · rw [if_neg h1, if_neg h1]
      by_cases h2 : e.kind.isMetered = true
      · have h' : ((s.modLine l fun x => { x with target := 0 }).setFeed l 0).lineEntry? l = some e := by
          rw [State.setFeed_lineEntry, ← h]
          simp only [State.lineEntry?, State.modLine_line, if_pos]
        rw [if_pos h2, if_pos h2, State.queueFeed_firm _ l j e h']
        by_cases h3 : l = j
        · rw [if_pos h3, if_pos h3]
          have hf := State.setFeed_firm (s.modLine l fun x => { x with target := 0 }) l l 0
          rw [if_pos rfl, State.modLine_line, if_pos rfl, Line.doseFor_zero] at hf
          exact Line.firm_refresh hf
        · rw [if_neg h3, if_neg h3, State.setFeed_firm, if_neg h3, State.modLine_line, if_neg h3]
      · rw [if_neg h2, if_neg h2]
        by_cases h3 : s.ignitionLine b = some l
        · have ht : (s.ignitionLine b == some l) = true := by rw [h3]; simp
          rw [if_pos h3, ht, Bool.true_and]
          by_cases h4 : c = .trip
          · rw [if_pos h4, State.setIgniter_firm _ l j e h, if_pos (show (c == .trip || _) = true by rw [h4]; rfl)]
          · have h4' : (c == CommandClass.trip) = false := by simpa using h4
            rw [if_neg h4, State.changeIgniter_firm _ l j e h, h4', Bool.false_or]
            cases hg : (s.lines[l]).igniter
            · rw [if_neg (fun h => h.2 rfl), if_neg Bool.false_ne_true]; exact self
            · rw [if_pos rfl]
              by_cases hj : l = j
              · rw [if_pos hj, if_pos ⟨hj, by simp⟩]
              · rw [if_neg hj, if_neg fun h => hj h.1]
        · have ht : (s.ignitionLine b == some l) = false := by simpa using h3
          rw [if_neg h3, ht, Bool.false_and, if_neg Bool.false_ne_true]; exact self

theorem stopLine_lineEntry (c : CommandClass) (l j : Fin 6) : (s.stopLine b c l).lineEntry? j = s.lineEntry? j := by
  simp only [State.lineEntry?, State.lines_entry_of_outer (s.stopLine_outer b c l)]

theorem State.lineEntry?_of_outer {s t : State} (h : s.outer = t.outer) (l : Fin 6) :
    s.lineEntry? l = t.lineEntry? l := by simp only [State.lineEntry?, State.lines_entry_of_outer h]

theorem State.burnerEntry?_of_outer {s t : State} (h : s.outer = t.outer) (b : Fin 3) :
    s.burnerEntry? b = t.burnerEntry? b := by simp only [State.burnerEntry?, State.burners_entry_of_outer h]

theorem State.lineOf_of_outer {s t : State} (h : s.outer = t.outer) (b : Fin 3) (l : Fin 6) :
    s.lineOf b l = t.lineOf b l := by simp only [State.lineOf, State.lineEntry?_of_outer h]

theorem State.ignitionLine_of_outer {s t : State} (h : s.outer = t.outer) (b : Fin 3) :
    s.ignitionLine b = t.ignitionLine b := by
  simp only [State.ignitionLine, State.burnerEntry?_of_outer h, State.lineOf_of_outer h, State.lineEntry?_of_outer h]

/-- A stop concerns each line once. -/
theorem State.stopLines_firm (c : CommandClass) (j : Fin 6) : ((s.stopLines b c).lines[j]).firm =
    ((s.lines[j]).stopped b c (s.ignitionLine b == some j)).firm := by
  have key : ∀ (ls : List (Fin 6)) (t : State), t.outer = s.outer → ls.Nodup →
      (((ls.foldl (fun s l => s.stopLine b c l) t).lines[j]).firm =
        if j ∈ ls then ((t.lines[j]).stopped b c (s.ignitionLine b == some j)).firm else (t.lines[j]).firm) := by
    intro ls
    induction ls with
    | nil => intro t _ _; simp
    | cons l ls ih =>
      intro t ht hn
      have hn' := List.nodup_cons.mp hn
      have ho : (t.stopLine b c l).outer = s.outer := (t.stopLine_outer b c l).trans ht
      have hi : t.ignitionLine b = s.ignitionLine b := State.ignitionLine_of_outer ht b
      rw [List.foldl_cons, ih _ ho hn'.2]
      by_cases h : l = j
      · subst h
        rw [if_neg hn'.1, if_pos List.mem_cons_self, State.stopLine_firm, if_pos rfl, hi]
      · have hs : ((t.stopLine b c l).lines[j]).firm = (t.lines[j]).firm := by
          rw [State.stopLine_firm, if_neg h]
        by_cases hm : j ∈ ls
        · rw [if_pos hm, if_pos (List.mem_cons_of_mem _ hm)]
          exact Line.stopped_firm hs _ _ _
        · rw [if_neg hm, if_neg (by simp [hm, Ne.symm h]), hs]
  have := key (indices 6) s rfl (List.nodup_finRange 6)
  rw [if_pos (show j ∈ indices 6 from List.mem_finRange j)] at this
  rw [State.stopLines, State.modBurner_lines]
  exact this

/-! ### The stop of a burner (R56, R58, R62) -/

def State.burnerAccounts (t : State) : Vector BurnerAccount 3 := t.shift.record.burners

theorem fuelKeeps_accounts : FuelKeeps State.burnerAccounts := ⟨fun _ _ _ => rfl, fun _ _ _ => rfl⟩

/-- What the stop of a burner leaves alone. -/
def State.apart (s t : State) : State :=
  { t with
    burners := s.burners, lines := s.lines, queue := s.queue
    shift := { t.shift with record := { t.shift.record with burners := s.shift.record.burners } } }

theorem burnerKeeps_apart : BurnerKeeps s.apart :=
  { line := fun _ _ _ => rfl, submit := fun _ _ _ => rfl, burner := fun _ _ _ => rfl, account := fun _ _ _ => rfl }

theorem State.LinesRuled.firm {s u : State} {b : Fin 3} (h : s.LinesRuled u b) (l : Fin 6) :
    (u.lines[l]).firm = (s.lines[l]).firm := by
  by_cases h1 : (s.lines[l]).state = .out ∨ (s.lines[l]).state = .fault
  · rw [h.standing l h1]
  · cases h2 : s.lineEntry? l with
    | none => rw [h.others l (s.lineOf_none h2 b)]
    | some e =>
      by_cases h3 : e.burner = b
      · have h4 := h.ruled l e h2 h3 (fun h => h1 (.inl h)) (fun h => h1 (.inr h))
        have h5 := h.fields l
        have h6 : ¬ ((u.lines[l]).state = .out ∨ (u.lines[l]).state = .fault) := by
          rw [h4, State.ruledState_eq]; exact ruledOf_service _ _ _
        unfold Line.firm
        rw [if_neg h1, if_neg h6]
        exact congrArg (fun z : Line => { z with state := .ready, deviation := {} }) h5
      · rw [h.others l (by rw [s.lineOf_some h2]; simpa using h3)]

theorem Line.firm_core {x y : Line} (h : x.firm = y.firm) :
    { x with state := .out, deviation := {} } = { y with state := .out, deviation := {} } :=
  congrArg (fun z : Line => { z with state := .out }) h

theorem Line.firm_standing {x y : Line} (h : x.firm = y.firm) (hs : y.state = .out ∨ y.state = .fault) :
    x.state = y.state := by
  have := congrArg Line.state h
  unfold Line.firm at this
  rw [if_pos hs] at this
  by_cases hx : x.state = .out ∨ x.state = .fault
  · rwa [if_pos hx] at this
  · rw [if_neg hx] at this
    rcases hs with hs | hs <;> rw [hs] at this <;> cases this

theorem Line.firm_serves {x y : Line} (h : x.firm = y.firm) (hs : ¬ (y.state = .out ∨ y.state = .fault)) :
    ¬ (x.state = .out ∨ x.state = .fault) := by
  intro hx
  have := Line.firm_standing h.symm hx
  exact hs (by rwa [this])

/-- The stop of a burner up to its next state. -/
def State.stopTo (t : State) (b : Fin 3) (c : CommandClass) (st : BurnerState) : State :=
  (((t.postRunTime b).stopLines b c).modBurner b Burner.clearFiring).setBurnerState b st

theorem State.stopTo_burners (t : State) (c : CommandClass) (st : BurnerState) :
    (t.stopTo b c st).burners = t.burners.set b ((t.burners[b]).halted st t.timeBase) := by
  rw [State.stopTo, State.setBurnerState_burners, State.modBurner_burners', State.stopLines_burners,
    State.postRunTime_burners]
  simp [Burner.clearFiring, Burner.halted]

theorem State.postRunTime_lines (t : State) : (t.postRunTime b).lines = t.lines := by
  unfold State.postRunTime; split_ifs <;> rfl

theorem State.setBurnerState_firm (t : State) (st : BurnerState) (l : Fin 6) :
    ((t.setBurnerState b st).lines[l]).firm = (t.lines[l]).firm := (t.setBurnerState_spec b st).firm l

theorem State.stopTo_firm (t : State) (c : CommandClass) (st : BurnerState) (l : Fin 6) :
    ((t.stopTo b c st).lines[l]).firm = ((t.lines[l]).stopped b c (t.ignitionLine b == some l)).firm := by
  rw [State.stopTo, State.setBurnerState_firm, State.modBurner_lines, State.stopLines_firm, State.postRunTime_lines,
    State.ignitionLine_of_outer (t.postRunTime_outer b)]

theorem State.modBurner_accounts (t : State) (f : Burner → Burner) :
    (t.modBurner b f).burnerAccounts = t.burnerAccounts := rfl

theorem State.setBurnerState_accounts (t : State) (st : BurnerState) :
    (t.setBurnerState b st).burnerAccounts = t.burnerAccounts := by
  rw [State.setBurnerState, fuelKeeps_accounts.refreshBurnerLines, State.modBurner_accounts]

theorem State.stopLines_accounts (t : State) (c : CommandClass) :
    (t.stopLines b c).burnerAccounts = t.burnerAccounts := by
  rw [State.stopLines, State.modBurner_accounts]
  exact foldl_keeps (x := State.burnerAccounts) (fun s l => fuelKeeps_accounts.stopLine s b c l) t _

theorem State.postRunTime_accounts (t : State) : (t.postRunTime b).burnerAccounts =
      t.burnerAccounts.set b { t.burnerAccounts[b] with runTime := t.runTimeNow b } := by
  unfold State.postRunTime State.runTimeNow
  split_ifs with h1
  · rfl
  · exact (by simp : t.burnerAccounts = t.burnerAccounts.set b t.burnerAccounts[b])

theorem State.stopTo_accounts (t : State) (c : CommandClass) (st : BurnerState) :
    (t.stopTo b c st).burnerAccounts =
      t.burnerAccounts.set b { t.burnerAccounts[b] with runTime := t.runTimeNow b } := by
  rw [State.stopTo, State.setBurnerState_accounts, State.modBurner_accounts, State.stopLines_accounts,
    State.postRunTime_accounts]

/-- What a stop leaves of the lines before the burner takes its next state. -/
theorem State.preStop_firm (t : State) (c : CommandClass) (l : Fin 6) :
    ((((t.postRunTime b).stopLines b c).modBurner b Burner.clearFiring).lines[l]).firm =
      ((t.lines[l]).stopped b c (t.ignitionLine b == some l)).firm := by
  rw [State.modBurner_lines, State.stopLines_firm, State.postRunTime_lines,
    State.ignitionLine_of_outer (t.postRunTime_outer b)]

theorem Line.stopped_state (x : Line) (c : CommandClass) (v : Bool) : (x.stopped b c v).state = x.state := by
  unfold Line.stopped; split
  · rfl
  · split_ifs <;> rfl

theorem Line.stopped_entry (x : Line) (c : CommandClass) (v : Bool) : (x.stopped b c v).entry = x.entry := by
  unfold Line.stopped; split
  · rfl
  · split_ifs <;> rfl

theorem Line.feed_of_firm {x y : Line} (h : x.firm = y.firm) : x.feed = y.feed :=
  have e : x.firm.feed = y.firm.feed := by rw [h]
  e

theorem Line.entry_of_firm {x y : Line} (h : x.firm = y.firm) : x.entry = y.entry :=
  have e : x.firm.entry = y.firm.entry := by rw [h]
  e

theorem State.lineEntry?_of_entry {s t : State} {l : Fin 6} (h : (s.lines[l]).entry = (t.lines[l]).entry) :
    s.lineEntry? l = t.lineEntry? l := by unfold State.lineEntry?; rw [h]

theorem ruledOf_stopped (bs : Vector Burner 3) (x : Line) (e : LineEntry) (h : (bs[e.burner]).state ≠ .run)
    (hf : e.kind.isMetered = true → x.feed = 0) :
    ruledOf bs x e = if x.igniter = true ∧ e.kind.isMetered = false then .feeding else .ready := by
  unfold ruledOf
  cases hm : e.kind.isMetered
  · cases hi : x.igniter <;> simp
  · have := hf hm
    simp only [this]; simp; exact fun e => absurd e h

theorem State.stopTo_states (t : State) (c : CommandClass) (st : BurnerState) (hst : st ≠ .run) (l : Fin 6)
    (e : LineEntry) (h1 : t.lineEntry? l = some e) (h2 : e.burner = b) : ((t.stopTo b c st).lines[l]).state =
      if (t.lines[l]).state = .out ∨ (t.lines[l]).state = .fault then (t.lines[l]).state
      else if ((t.stopTo b c st).lines[l]).igniter = true ∧ e.kind.isMetered = false then .feeding else .ready := by
  have hb := State.stopTo_burners b t c st
  have hf := State.stopTo_firm b t c st l
  have hpre := State.preStop_firm b t c l
  rw [State.stopTo] at *
  generalize (((t.postRunTime b).stopLines b c).modBurner b Burner.clearFiring) = v at *
  have hr := v.setBurnerState_spec b st
  generalize v.setBurnerState b st = u at *
  split_ifs with h3
  · exact (Line.firm_standing hf (by rwa [Line.stopped_state])).trans (Line.stopped_state b _ _ _)
  all_goals
    have h4 : ¬ ((v.lines[l]).state = .out ∨ (v.lines[l]).state = .fault) :=
      Line.firm_serves hpre (by rwa [Line.stopped_state])
    have h5 : v.lineEntry? l = some e :=
      (State.lineEntry?_of_entry ((Line.entry_of_firm hpre).trans (Line.stopped_entry b _ _ _))).trans h1
    have h6 := hr.ruled l e h5 h2 (fun h => h4 (.inl h)) (fun h => h4 (.inr h))
    rw [h6, State.ruledState_eq, ruledOf_stopped]
    · simp_all
    · subst h2; rw [hb]; simpa [Burner.halted] using hst
    · intro hm
      rw [Line.feed_of_firm hf]
      have h1' : (t.lines[l]).entry.filter (·.inUse) = some e := h1
      unfold Line.stopped; rw [h1']; dsimp only; rw [if_neg (by simpa using h2), if_pos hm]

theorem State.stopLine_line (t : State) (c : CommandClass) (i l : Fin 6) (hi : i ≠ l) :
    (t.stopLine b c i).lines[l] = t.lines[l] := by
  have hm : ∀ (v : State) (f : Line → Line), (v.modLine i f).lines[l] = v.lines[l] := fun v f => by
    rw [State.modLine_line, if_neg hi]
  have hr : ∀ v : State, (v.refreshLineState i).lines[l] = v.lines[l] := fun v => by
    rw [State.refreshLineState_line, if_neg hi]
  have hq : ∀ (v : State) c, (v.queueFeed i c).lines[l] = v.lines[l] := fun v c => by
    unfold State.queueFeed; split
    · rfl
    · rw [State.submit_lines, hm]
  have hg : ∀ (v : State) c, (v.queueIgniter i c).lines[l] = v.lines[l] := fun v c => by
    unfold State.queueIgniter; split
    · rfl
    · rw [State.submit_lines, hm]
  have hs : ∀ (v : State) on c, (v.setIgniter i on c).lines[l] = v.lines[l] := fun v on c => by
    rw [State.setIgniter, hg, hr, hm]
  have hc : ∀ (v : State) on, (v.changeIgniter i on).lines[l] = v.lines[l] := fun v on => by
    unfold State.changeIgniter; split
    · rfl
    · rw [hs]
  unfold State.stopLine
  split
  · rfl
  · split_ifs
    · rfl
    · rw [hq, State.setFeed, hr, hm, hm]
    · rw [hs]
    · rw [hc]
    · rfl

theorem State.stopLine_other (t : State) (c : CommandClass) (i l : Fin 6) (h : t.lineOf b l = false) :
    (t.stopLine b c i).lines[l] = t.lines[l] := by
  by_cases hi : i = l
  · subst hi
    unfold State.stopLine
    cases he : t.lineEntry? i with
    | none => rfl
    | some e =>
      have : e.burner ≠ b := by rw [t.lineOf_some he] at h; simpa using h
      dsimp only; rw [if_pos this]
  · exact State.stopLine_line b t c i l hi

/-! ### The commands of a stop (R56, R58, R79) -/

theorem State.refreshLineState_queue (t : State) (l : Fin 6) : (t.refreshLineState l).queue = t.queue := by
  rw [State.refreshLineState_eq]

theorem State.setFeed_queue (t : State) (l : Fin 6) (n : Nat) : (t.setFeed l n).queue = t.queue := by
  rw [State.setFeed, State.refreshLineState_queue]; rfl

theorem State.setIgniter_queue (t : State) (l : Fin 6) (e : LineEntry) (h : t.lineEntry? l = some e) (on : Bool)
    (c : CommandClass) : (t.setIgniter l on c).queue = { t.queue with submitted := t.queue.submitted ++
      [{ sender := .line l, command := { station := e.station, kind := .igniter, value := if on then 1 else 0, cls := c,
                                         origin := .fuel } }] } := by
  have h' : ((t.modLine l fun x => { x with igniter := on }).refreshLineState l).lineEntry? l = some e := by
    rw [State.refreshLineState_lineEntry, ← h]
    simp only [State.lineEntry?, State.modLine_line, if_pos]
  have hg : (((t.modLine l fun x => { x with igniter := on }).refreshLineState l).lines[l]).igniter = on := by
    rw [State.refreshLineState_line, if_pos rfl, followLine_igniter, State.modLine_line, if_pos rfl]
  rw [State.setIgniter, State.queueIgniter_lines _ l e h', State.submit_queue, hg, State.modLine_queue,
    State.refreshLineState_queue, State.modLine_queue]

/-- What one stopping line hands to the queue. -/
theorem State.stopLine_queue (t : State) (c : CommandClass) (hc : c ≠ .routine) (l : Fin 6) : (t.stopLine b c l).queue =
    { t.queue with submitted := t.queue.submitted ++ (t.stopCommand b c l).toList } := by
  have self : t.queue = { t.queue with submitted := t.queue.submitted ++ [] } := by simp
  unfold State.stopLine State.stopCommand
  cases h : t.lineEntry? l with
  | none => exact self
  | some e =>
    dsimp only
    by_cases h1 : e.burner ≠ b
    · rw [if_pos h1, if_pos h1]; exact self
    · rw [if_neg h1, if_neg h1]
      by_cases h2 : e.kind.isMetered = true
      · have h' : ((t.modLine l fun x => { x with target := 0 }).setFeed l 0).lineEntry? l = some e := by
          rw [State.setFeed_lineEntry, ← h]
          simp only [State.lineEntry?, State.modLine_line, if_pos]
        have hf : (((t.modLine l fun x => { x with target := 0 }).setFeed l 0).lines[l]).feed = 0 := by
          rw [State.setFeed, State.refreshLineState_line, if_pos rfl, followLine_feed, State.modLine_line, if_pos rfl]
        rw [if_pos h2, if_pos h2, State.queueFeed_lines _ l e h', State.submit_queue, State.modLine_queue,
          State.setFeed_queue, hf]
        rfl
      · rw [if_neg h2, if_neg h2]
        by_cases h3 : t.ignitionLine b = some l
        · rw [if_pos h3]
          by_cases h4 : c = .trip
          · rw [if_pos h4, if_pos ⟨h3, .inl h4⟩, State.setIgniter_queue _ l e h]; rfl
          · rw [if_neg h4, State.changeIgniter]
            cases hg : (t.lines[l]).igniter
            · rw [if_pos rfl, if_neg (by simp [h4])]; exact self
            · rw [if_neg (by simp), if_pos ⟨h3, .inr rfl⟩]
              have h5 : c = .control := by cases c <;> simp_all
              rw [State.setIgniter_queue t l e h, h5]; rfl
        · rw [if_neg h3, if_neg (by tauto)]; exact self

theorem State.stopCommand_congr {t u : State} (h : t.outer = u.outer) (c : CommandClass) (l : Fin 6)
    (hg : (t.lines[l]).igniter = (u.lines[l]).igniter) : t.stopCommand b c l = u.stopCommand b c l := by
  have h1 := State.lineEntry?_of_outer h l
  have h2 := State.ignitionLine_of_outer h b
  unfold State.stopCommand
  rw [h1, h2, hg]

/-- The stop of a burner hands the queue the stopping commands of its lines in ascending line number. -/
theorem State.stopLines_queue (t : State) (c : CommandClass) (hc : c ≠ .routine) : (t.stopLines b c).queue =
    { t.queue with submitted := t.queue.submitted ++ (List.finRange 6).filterMap (t.stopCommand b c) } := by
  have key : ∀ (ls : List (Fin 6)) (v : State), v.outer = t.outer → ls.Nodup →
      (∀ l ∈ ls, (v.lines[l]).igniter = (t.lines[l]).igniter) →
      (ls.foldl (fun s l => s.stopLine b c l) v).queue =
        { v.queue with submitted := v.queue.submitted ++ ls.filterMap (t.stopCommand b c) } := by
    intro ls
    induction ls with
    | nil => intro v _ _ _; simp
    | cons i ls ih =>
      intro v hv hn hg
      have hn' := List.nodup_cons.mp hn
      have hrest : ∀ l ∈ ls, ((v.stopLine b c i).lines[l]).igniter = (t.lines[l]).igniter := fun l hl => by
        rw [State.stopLine_line b v c i l (by rintro rfl; exact hn'.1 hl)]
        exact hg l (List.mem_cons_of_mem _ hl)
      have hq := State.stopLine_queue b v c hc i
      rw [State.stopCommand_congr b hv c i (hg i List.mem_cons_self)] at hq
      rw [List.foldl_cons, ih _ ((v.stopLine_outer b c i).trans hv) hn'.2 hrest, hq]
      cases h : t.stopCommand b c i <;> simp [h]
  have := key (indices 6) t rfl (List.nodup_finRange 6) fun _ _ => rfl
  rw [State.stopLines, State.modBurner_queue]
  exact this

theorem State.modBurner_lineOf (t : State) (f : Burner → Burner) (b' : Fin 3) (l : Fin 6) :
    (t.modBurner b f).lineOf b' l = t.lineOf b' l := rfl

theorem State.setBurnerState_other (v : State) (st : BurnerState) (l : Fin 6) (h : v.lineOf b l = false) :
    (v.setBurnerState b st).lines[l] = v.lines[l] := (v.setBurnerState_spec b st).others l h

theorem State.stopTo_other (t : State) (c : CommandClass) (st : BurnerState) (l : Fin 6) (h : t.lineOf b l = false) :
    (t.stopTo b c st).lines[l] = t.lines[l] := by
  have key : ∀ (ls : List (Fin 6)) (v : State), v.lineOf b l = false →
      (ls.foldl (fun s l => s.stopLine b c l) v).lines[l] = v.lines[l] := by
    intro ls
    induction ls with
    | nil => intro v _; rfl
    | cons i ls ih =>
      intro v hv
      have ho : (v.stopLine b c i).lineOf b l = false := by
        rw [State.lineOf_of_outer (v.stopLine_outer b c i)]; exact hv
      rw [List.foldl_cons, ih _ ho, State.stopLine_other b v c i l hv]
  have h0 : (t.postRunTime b).lineOf b l = false := by
    rw [State.lineOf_of_outer (t.postRunTime_outer b)]; exact h
  have h1 : ((t.postRunTime b).stopLines b c).lines[l] = t.lines[l] := by
    rw [State.stopLines, State.modBurner_lines, key _ _ h0, State.postRunTime_lines]
  have hb : (((t.postRunTime b).stopLines b c).modBurner b Burner.clearFiring).lineOf b l = false := by
    rw [State.modBurner_lineOf, State.lineOf_of_outer ((t.postRunTime b).stopLines_outer b c)]
    exact h0
  rw [State.stopTo, State.setBurnerState_other b _ st l hb, State.modBurner_lines, h1]

theorem State.stopTo_queue (t : State) (c : CommandClass) (hc : c ≠ .routine) (st : BurnerState) : (t.stopTo b c st).queue =
    { t.queue with submitted := t.queue.submitted ++ (List.finRange 6).filterMap (t.stopCommand b c) } := by
  have h0 : (t.postRunTime b).queue = t.queue := by unfold State.postRunTime; split <;> rfl
  have h1 : ∀ l, (t.postRunTime b).stopCommand b c l = t.stopCommand b c l := fun l =>
    State.stopCommand_congr b (t.postRunTime_outer b) c l (by rw [State.postRunTime_lines])
  have h2 := State.stopLines_queue b (t.postRunTime b) c hc
  rw [funext h1, h0] at h2
  have h3 : ∀ v : State, ((v.modBurner b Burner.clearFiring).setBurnerState b st).queue = v.queue := fun v => by
    rw [State.setBurnerState, State.refreshBurnerLines_eq]; rfl
  rw [State.stopTo, h3, h2]

/-- What the stop makes of a line of a kind that is not metered. -/
theorem Line.stopped_ignition (c : CommandClass) (l : Fin 6) (e : LineEntry) (h1 : s.lineEntry? l = some e)
    (h2 : e.burner = b) (h3 : e.kind.isMetered = false) : (s.lines[l]).stopped b c (s.ignitionLine b == some l) =
      { s.lines[l] with
        igniter := if s.ignitionLine b = some l then false else (s.lines[l]).igniter
        refresh := if (s.stopCommand b c l).isSome then 0 else (s.lines[l]).refresh } := by
  have h1' : (s.lines[l]).entry.filter (·.inUse) = some e := h1
  have h4 : ¬ e.burner ≠ b := by simpa using h2
  have h5 : ¬ e.kind.isMetered = true := by simp [h3]
  have hs : (s.lines[l]).stopped b c (s.ignitionLine b == some l) =
      if (s.ignitionLine b == some l && (c == .trip || (s.lines[l]).igniter)) = true then
        { s.lines[l] with igniter := false, refresh := 0 } else s.lines[l] := by
    unfold Line.stopped; rw [h1']; dsimp only; rw [if_neg h4, if_neg h5]
  have hc : (s.stopCommand b c l).isSome =
      decide (s.ignitionLine b = some l ∧ (c = .trip ∨ (s.lines[l]).igniter = true)) := by
    unfold State.stopCommand; rw [h1]; dsimp only; rw [if_neg h4, if_neg h5]
    split_ifs with h
    · exact (decide_eq_true h).symm
    · exact (decide_eq_false h).symm
  rw [hs, hc]
  generalize s.lines[l] = x
  by_cases h6 : s.ignitionLine b = some l
  · have h7 : (s.ignitionLine b == some l) = true := by rw [h6]; simp
    rw [h7, Bool.true_and, if_pos h6]
    by_cases h8 : c = .trip ∨ x.igniter = true
    · rw [if_pos (show (c == .trip || x.igniter) = true by simpa using h8), if_pos (by simp [h6, h8])]
    · rw [if_neg (show ¬ (c == .trip || x.igniter) = true by simpa using h8), if_neg (by simp [h6, h8])]
      rw [not_or] at h8
      have h9 : x.igniter = false := by simpa using h8.2
      rw [← h9]
  · have h7 : (s.ignitionLine b == some l) = false := by simpa using h6
    rw [h7, Bool.false_and, if_neg h6, if_neg Bool.false_ne_true, if_neg (by simp [h6])]

/-! ### The deviation checks of a stop (R85) -/

/-- The deviation check of `y` is empty or that of `x`, whose state `y` then keeps; a line that is OUT or in FAULT keeps
both. -/
structure Line.CheckEnds (x y : Line) : Prop where
  ends : y.deviation = {} ∨ (y.deviation = x.deviation ∧ y.state = x.state)
  standing : x.state = .out ∨ x.state = .fault → y.deviation = x.deviation ∧ y.state = x.state

theorem Line.CheckEnds.of_same {x y : Line} (h : y.deviation = x.deviation) (h' : y.state = x.state) : x.CheckEnds y :=
  ⟨.inr ⟨h, h'⟩, fun _ => ⟨h, h'⟩⟩

theorem Line.CheckEnds.refresh (x : Line) : x.CheckEnds { x with refresh := 0 } := .of_same rfl rfl

theorem Line.CheckEnds.igniter (x : Line) (on : Bool) : x.CheckEnds { x with igniter := on } := .of_same rfl rfl

theorem Line.CheckEnds.target (x : Line) (n : Nat) : x.CheckEnds { x with target := n } := .of_same rfl rfl

theorem Line.CheckEnds.feed (x : Line) (c : Nat) (d : Option DoseTimer) : x.CheckEnds { x with feed := c, dose := d } :=
  .of_same rfl rfl

theorem Line.CheckEnds.refl (x : Line) : x.CheckEnds x := .of_same rfl rfl

theorem Line.CheckEnds.trans {x y z : Line} (h : x.CheckEnds y) (h' : y.CheckEnds z) : x.CheckEnds z := by
  refine ⟨?_, fun hs => ?_⟩
  · rcases h'.ends with h1 | ⟨h1, h2⟩
    · exact .inl h1
    · rw [h1, h2]; exact h.ends
  · have h1 := h.standing hs
    have h2 := h'.standing (by rwa [h1.2])
    exact ⟨h2.1.trans h1.1, h2.2.trans h1.2⟩

theorem Line.deviationIn_idle (x : Line) (e : LineEntry) (he : x.entry.filter (·.inUse) = some e) (st : FuelState)
    (now : Time) (h : e.kind.isMetered = true → st ≠ .feeding) : x.deviationIn st now = {} := by
  have h1 : x.entry = some e := by
    cases hx : x.entry with
    | none => rw [hx] at he; cases he
    | some y => rw [hx, Option.filter_eq_some_iff] at he; rw [he.1]
  unfold Line.deviationIn
  rw [h1]
  refine if_neg fun hc => ?_
  simp only [Option.any_some, Bool.and_eq_true, beq_iff_eq] at hc
  cases hk : e.kind <;> rw [hk] at hc h <;> first | exact h rfl hc.1 | cases hc.2

theorem followLine_checkEnds (bs : Vector Burner 3) (now : Time) (x : Line)
    (h : ∀ e, x.entry.filter (·.inUse) = some e → e.kind.isMetered = true → x.feed = 0) :
    x.CheckEnds (followLine bs now x) := by
  unfold followLine
  cases he : x.entry.filter (·.inUse) with
  | none => exact .refl x
  | some e =>
    dsimp only
    split_ifs with h1 h2
    · exact .refl x
    · exact .refl x
    · refine ⟨.inl (x.deviationIn_idle e he _ now fun hm => ?_), fun hs => absurd hs h1⟩
      unfold ruledOf
      rw [h e he hm, hm]
      simp only [Bool.true_and, Bool.not_true, Bool.false_and]
      split_ifs <;> simp_all

theorem State.stopLine_checkEnds (t : State) (c : CommandClass) (l : Fin 6) :
    (t.lines[l]).CheckEnds (t.stopLine b c l).lines[l] := by
  have hg : ∀ (v : State) e on c, v.lineEntry? l = some e → e.kind.isMetered = false →
      (v.lines[l]).CheckEnds (v.setIgniter l on c).lines[l] := fun v e on c he hm => by
    have h' : ((v.modLine l fun x => { x with igniter := on }).refreshLineState l).lineEntry? l = some e := by
      rw [State.refreshLineState_lineEntry, ← he]
      simp only [State.lineEntry?, State.modLine_line, if_pos]
    rw [State.setIgniter, State.queueIgniter_lines _ l e h', State.submit_lines, State.modLine_line, if_pos rfl,
      State.refreshLineState_line, if_pos rfl, State.modLine_line, if_pos rfl]
    refine (Line.CheckEnds.igniter _ _).trans
      ((followLine_checkEnds _ _ _ fun e' he' hm' => ?_).trans (Line.CheckEnds.refresh _))
    have h1 : v.lineEntry? l = some e' := he'
    rw [he] at h1; cases h1; rw [hm] at hm'; cases hm'
  unfold State.stopLine
  cases he : t.lineEntry? l with
  | none => exact .refl _
  | some e =>
    dsimp only
    by_cases h1 : e.burner ≠ b
    · rw [if_pos h1]; exact .refl _
    · rw [if_neg h1]
      by_cases h2 : e.kind.isMetered = true
      · have h' : ((t.modLine l fun x => { x with target := 0 }).setFeed l 0).lineEntry? l = some e := by
          rw [State.setFeed_lineEntry, ← he]
          simp only [State.lineEntry?, State.modLine_line, if_pos]
        rw [if_pos h2, State.queueFeed_lines _ l e h', State.submit_lines, State.modLine_line, if_pos rfl,
          State.setFeed, State.refreshLineState_line, if_pos rfl, State.modLine_line, if_pos rfl, State.modLine_line,
          if_pos rfl]
        exact (Line.CheckEnds.target _ _).trans ((Line.CheckEnds.feed _ _ _).trans
          ((followLine_checkEnds _ _ _ fun _ _ _ => rfl).trans (Line.CheckEnds.refresh _)))
      · rw [if_neg h2]
        have h3 : e.kind.isMetered = false := by simpa using h2
        split_ifs
        · exact hg t e _ _ he h3
        · unfold State.changeIgniter
          split_ifs
          · exact .refl _
          · exact hg t e _ _ he h3
        · exact .refl _

theorem State.stopLines_checkEnds (t : State) (c : CommandClass) (l : Fin 6) :
    (t.lines[l]).CheckEnds (t.stopLines b c).lines[l] := by
  rw [State.stopLines, State.modBurner_lines]
  generalize indices 6 = ls
  induction ls generalizing t with
  | nil => exact .refl _
  | cons i ls ih =>
    rw [List.foldl_cons]
    refine .trans ?_ (ih _)
    by_cases h : i = l
    · subst h; exact State.stopLine_checkEnds b t c i
    · rw [State.stopLine_line b t c i l h]; exact .refl _

theorem State.LinesRuled.checkEnds {s u : State} {b : Fin 3} (h : s.LinesRuled u b) (l : Fin 6) (e : LineEntry)
    (he : s.lineEntry? l = some e) (hf : e.kind.isMetered = true → (u.lines[l]).state ≠ .feeding) :
    (s.lines[l]).CheckEnds u.lines[l] := by
  have hd : (u.lines[l]).deviation = (s.lines[l]).checkAfter (u.lines[l]).state s.timeBase :=
    congrArg Line.deviation (h.fields l)
  refine ⟨?_, fun hs => by rw [h.standing l hs]; exact ⟨rfl, rfl⟩⟩
  by_cases hs : (u.lines[l]).state = (s.lines[l]).state
  · rw [hs, Line.checkAfter_self] at hd; exact .inr ⟨hd, hs⟩
  · rw [Line.checkAfter_ne _ _ _ hs] at hd
    exact .inl (hd.trans ((s.lines[l]).deviationIn_idle e he _ _ hf))

theorem State.stopTo_checkEnds (t : State) (c : CommandClass) (st : BurnerState) (hst : st ≠ .run) (l : Fin 6)
    (e : LineEntry) (h1 : t.lineEntry? l = some e) (h2 : e.burner = b) :
    (t.lines[l]).CheckEnds (t.stopTo b c st).lines[l] := by
  have hs := State.stopTo_states b t c st hst l e h1 h2
  have hpre := State.preStop_firm b t c l
  have hc := State.stopLines_checkEnds b (t.postRunTime b) c l
  rw [State.postRunTime_lines] at hc
  rw [State.stopTo] at *
  have hv : (((t.postRunTime b).stopLines b c).modBurner b Burner.clearFiring).lines[l] =
    ((t.postRunTime b).stopLines b c).lines[l] := by rw [State.modBurner_lines]
  rw [← hv] at hc
  generalize (((t.postRunTime b).stopLines b c).modBurner b Burner.clearFiring) = v at *
  have h5 : v.lineEntry? l = some e :=
    (State.lineEntry?_of_entry ((Line.entry_of_firm hpre).trans (Line.stopped_entry b _ _ _))).trans h1
  refine hc.trans ((v.setBurnerState_spec b st).checkEnds l e h5 fun hm => ?_)
  rw [hs, hm]
  by_cases h3 : (t.lines[l]).state = .out ∨ (t.lines[l]).state = .fault
  · rw [if_pos h3]; rcases h3 with h3 | h3 <;> rw [h3] <;> simp
  · rw [if_neg h3, if_neg (by simp)]; simp

/-- The stop of a burner whose next state is OFF or LOCKOUT. -/
theorem State.stopTo_spec (c : CommandClass) (hcls : c ≠ .routine) (st : BurnerState) (hst : st ≠ .run) (r : Option LockoutRecord) :
    s.BurnerStopped ((s.modBurner b fun x => { x with lockout := r }).stopTo b c st) b st r
      { s.shift.record.burners[b] with runTime := s.runTimeNow b } c := by
  generalize ht : (s.modBurner b fun x => { x with lockout := r }) = t
  have hb : t.burners = s.burners.set b { s.burners[b] with lockout := r } := by rw [← ht]; rfl
  have hl : t.lines = s.lines := by rw [← ht]; rfl
  have htb : t.timeBase = s.timeBase := by rw [← ht]; rfl
  have ho : t.outer = s.outer := by rw [← ht]; exact s.modBurner_outer b _ rfl
  have hbs := State.stopTo_burners b t c st
  have hfirm := fun l => State.stopTo_firm b t c st l
  have hi : t.ignitionLine b = s.ignitionLine b := State.ignitionLine_of_outer ho b
  rw [hl, hi] at hfirm
  refine
    { burner := ?_, burners := fun b' hb' => ?_, metered := fun l e h1 h2 h3 => ?_, igniters := fun l e h1 h2 h3 => ?_,
      states := fun l e h1 h2 => ?_, checks := fun l e h1 h2 => ?_, lines := fun l h => ?_, accounts := ?_, commands := ?_, rest := ?_ }
  · rw [hbs, hb, htb]; simp
  · rw [hbs, hb]
    have : (b : Nat) ≠ b' := fun h => hb' (Fin.ext h.symm)
    simp [Vector.getElem_set_ne _ _ this]
  · rw [Line.firm_core (hfirm l)]
    have h1' : (s.lines[l]).entry.filter (·.inUse) = some e := h1
    unfold Line.stopped; rw [h1']; dsimp only; rw [if_neg (by simpa using h2), if_pos h3]
  · rw [Line.firm_core (hfirm l), Line.stopped_ignition s b c l e h1 h2 h3]
  · rw [State.stopTo_states b t c st hst l e ((State.lineEntry?_of_outer ho l).trans h1) h2, hl]
  · have hc := State.stopTo_checkEnds b t c st hst l e ((State.lineEntry?_of_outer ho l).trans h1) h2
    rw [hl] at hc
    exact ⟨hc.ends, fun h => (hc.standing h).1⟩
  · rw [State.stopTo_other b t c st l ((State.lineOf_of_outer ho b l).trans h), hl]
  · have h1 : t.burnerAccounts = s.burnerAccounts := by rw [← ht]; rfl
    have h2 : t.runTimeNow b = s.runTimeNow b := by
      rw [← ht]; unfold State.runTimeNow; simp
    have h3 := State.stopTo_accounts b t c st
    rw [h1, h2] at h3
    generalize t.stopTo b c st = u at *
    exact h3
  · have hc : ∀ l, t.stopCommand b c l = s.stopCommand b c l := fun l =>
      State.stopCommand_congr b ho c l (by rw [hl])
    have hq : t.queue = s.queue := by rw [← ht]; rfl
    rw [State.stopTo_queue b t c hcls, funext hc, hq]
  · have h1 : s.apart (t.stopTo b c st) = s.apart t := by
      rw [State.stopTo, (burnerKeeps_apart s).setBurnerState, (burnerKeeps_apart s).burner,
        (burnerKeeps_apart s).stopLines, (burnerKeeps_apart s).postRunTime]
    have h2 : s.apart t = s := by rw [← ht]; rfl
    have h3 := h1.trans h2
    generalize t.stopTo b c st = u at *
    exact h3

end

end Sys2Proof.Machine
end

