-- ==== Sys2Proof/Laws/Alarm.lean ====
section
/-!
SUPPORT. The raised list, snapshots, hold causes and the two lines of the alarm unit (chapter 7).
-/
namespace Sys2Proof.Machine

theorem State.placeRaised_split (s : State) (a : Fin 192) (l₁ l₂ : List (Fin 192))
    (h₁ : ∀ x ∈ l₁, s.raisedBefore a x = false) (h₂ : ∀ x ∈ l₂.head?, s.raisedBefore a x = true) :
    s.placeRaised a (l₁ ++ l₂) = l₁ ++ a :: l₂ := by
  induction l₁ with
  | nil =>
    cases l₂ with
    | nil => rfl
    | cons y l => simp [State.placeRaised, h₂ y (by simp)]
  | cons y l ih =>
    rw [List.cons_append, State.placeRaised, h₁ y (by simp), if_neg (by simp), ih fun x hx => h₁ x (by simp [hx])]
    rfl

theorem State.snapshot_off (s : State) (g : Fin 4) (h : ∀ x, s.alarm.groups[g] = some x → x.inUse = false) :
    s.snapshot g = [] := by
  unfold State.snapshot
  cases hg : s.alarm.groups[g] with
  | none => simp
  | some x => simp [Option.filter, h x hg]

theorem State.snapshot_on (s : State) (g : Fin 4) (x : GroupEntry) (h : s.alarm.groups[g] = some x) (hx : x.inUse =
    true) :
    s.snapshot g = x.points.map fun p =>
        { point := p, value := if s.pointEntry? p = none then 0 else (s.points[p]).value
          quality := if s.pointEntry? p = none then .unset else (s.points[p]).quality } := by
  unfold State.snapshot
  rw [h]
  simp only [Option.filter, hx, if_true]
  apply List.map_congr_left
  intro p _
  cases s.pointEntry? p <;> simp

theorem State.findAlarm_isSome (s : State) (f : AlarmEntry → AlarmState → Bool) :
    (s.findAlarm f).isSome = true ↔ ∃ a e, s.alarmEntry? a = some e ∧ f e (s.alarmAt a).state = true := by
  unfold State.findAlarm
  rw [List.find?_isSome]
  constructor
  · rintro ⟨a, _, h⟩; rw [Option.any_eq_true] at h; obtain ⟨e, he, hf⟩ := h; exact ⟨a, e, he, hf⟩
  · rintro ⟨a, e, he, hf⟩; exact ⟨a, by simp [indices], by rw [Option.any_eq_true]; exact ⟨e, he, hf⟩⟩

theorem State.alarmHolds_iff (s : State) (b : Fin 3) : s.alarmHolds b = true ↔ ∃ x y, s.alarmEntry? x = some y ∧
    y.action = .holdFuel b ∧ ((s.alarm.alarms[x]).state = .raised ∨ (s.alarm.alarms[x]).state = .held) := by
  unfold State.alarmHolds
  rw [State.findAlarm_isSome]
  constructor
  · rintro ⟨a, e, h1, h2⟩; simp only [Bool.and_eq_true, beq_iff_eq, Bool.or_eq_true] at h2; exact ⟨a, e, h1, h2.1, h2.2⟩
  · rintro ⟨a, e, h1, h2, h3⟩; exact ⟨a, e, h1,
      by simp only [Bool.and_eq_true, beq_iff_eq, Bool.or_eq_true]; exact ⟨h2, h3⟩⟩

theorem State.tripDemanded_iff (s : State) : s.tripDemanded = true ↔ (∃ b : Fin 3, (s.burners[b]).state = .lockout) ∨
      ∃ a e, s.alarmEntry? a = some e ∧ e.trip = true ∧
        ((s.alarm.alarms[a]).state = .raised ∨ (s.alarm.alarms[a]).state = .held) := by
  unfold State.tripDemanded
  rw [Bool.or_eq_true, State.findAlarm_isSome]
  refine or_congr ?_ ?_
  · rw [List.any_eq_true]
    constructor
    · rintro ⟨b, _, h⟩; exact ⟨b, by simpa using h⟩
    · rintro ⟨b, h⟩; exact ⟨b, by simp [indices], by simpa using h⟩
  · constructor
    · rintro ⟨a, e, h1, h2⟩; simp only [Bool.and_eq_true, beq_iff_eq, Bool.or_eq_true] at h2; exact ⟨a, e, h1, h2.1,
        h2.2⟩
    · rintro ⟨a, e, h1, h2, h3⟩; exact ⟨a, e, h1,
        by simp only [Bool.and_eq_true, beq_iff_eq, Bool.or_eq_true]; exact ⟨h2, h3⟩⟩

theorem State.hornDemanded_iff (s : State) : s.hornDemanded = true ↔ s.alarm.silenced = false ∧
      ∃ a e, s.alarmEntry? a = some e ∧ e.horn = true ∧
        ((s.alarm.alarms[a]).state = .raised ∨ (s.alarm.alarms[a]).state = .returned) := by
  unfold State.hornDemanded
  rw [Bool.and_eq_true, State.findAlarm_isSome, Bool.not_eq_true', and_comm]
  refine and_congr Iff.rfl ?_
  constructor
  · rintro ⟨a, e, h1, h2⟩; simp only [Bool.and_eq_true, beq_iff_eq, Bool.or_eq_true] at h2; exact ⟨a, e, h1, h2.1, h2.2⟩
  · rintro ⟨a, e, h1, h2, h3⟩; exact ⟨a, e, h1,
      by simp only [Bool.and_eq_true, beq_iff_eq, Bool.or_eq_true]; exact ⟨h2, h3⟩⟩

theorem State.driveLines_follow (s : State) : s.driveLines.LinesFollow := ⟨rfl, rfl⟩

theorem State.alarmHolds_congr {s t : State} (h : t.alarm = s.alarm) (b : Fin 3) : t.alarmHolds b = s.alarmHolds b := by
  rw [Bool.eq_iff_iff, State.alarmHolds_iff, State.alarmHolds_iff]
  unfold State.alarmEntry? State.alarmAt; rw [h]

theorem State.reportAlarmHolds_burners (s : State) : s.reportAlarmHolds.burners = (indices 3).foldl
    (fun v b => v.set b { v[b] with hold := (v[b]).hold.put .alarm (s.alarmHolds b) }) s.burners := by
  have key : ∀ (l : List (Fin 3)) (t : State), t.alarm = s.alarm →
      (l.foldl (fun s b => s.setHold b .alarm (s.alarmHolds b)) t).burners =
        l.foldl (fun v b => v.set b { v[b] with hold := (v[b]).hold.put .alarm (s.alarmHolds b) }) t.burners := by
    intro l
    induction l with
    | nil => intro t _; rfl
    | cons b l ih =>
      intro t h
      rw [List.foldl_cons, List.foldl_cons, ih _ ((unitsKeep_alarm.setHold t b _ _).trans h), t.setHold_burners,
        State.alarmHolds_congr h]
  exact key _ s rfl

theorem State.reportAlarmHolds_hold (s : State) (b : Fin 3) :
    (s.reportAlarmHolds.burners[b]).hold = (s.burners[b]).hold.put .alarm (s.alarmHolds b) := by
  rw [State.reportAlarmHolds_burners]
  have h3 : indices 3 = [0, 1, 2] := by decide
  rw [h3]; simp only [List.foldl_cons, List.foldl_nil]
  rcases b with ⟨b, hb⟩
  have : b = 0 ∨ b = 1 ∨ b = 2 := by omega
  rcases this with rfl | rfl | rfl <;> simp [Fin.getElem_fin]

/-- R129: the report of the HOLD_FUEL entries for each burner. -/
theorem State.reportAlarmHolds_spec (s : State) : s.HoldsReported s.reportAlarmHolds .alarm s.alarmHolds := by
  have e : ∀ (l : List (Fin 3)) (t : State), t.alarm = s.alarm →
      l.foldl (fun t b => t.setHold b .alarm (t.alarmHolds b)) t =
        l.foldl (fun t b => t.setHold b .alarm (s.alarmHolds b)) t := by
    intro l
    induction l with
    | nil => intro t _; rw [List.foldl_nil, List.foldl_nil]
    | cons b l ih =>
      intro t ht
      rw [List.foldl_cons, List.foldl_cons, State.alarmHolds_congr ht, ih]
      exact (unitsKeep_alarm.setHold t b .alarm _).trans ht
  have h := s.putHolds_spec .alarm s.alarmHolds
  rw [State.putHolds, ← e (indices 3) s rfl] at h
  exact h

end Sys2Proof.Machine
end

