-- ==== Sys2Proof/Laws/Apportion.lean ====
section
/-!
SUPPORT. The eligible lines of a burner, and the heat that apportionment assigns (R73 to R76).
-/
namespace Sys2Proof.Machine

theorem insertShare_pairwise (x : Share) (l : List Share) (h : l.Pairwise (·.priority ≤ ·.priority)) :
    (insertShare x l).Pairwise (·.priority ≤ ·.priority) ∧ ∀ y, y ∈ insertShare x l ↔ y = x ∨ y ∈ l := by
  induction l with
  | nil => simp [insertShare]
  | cons y ys ih =>
    have h' := List.pairwise_cons.mp h
    unfold insertShare
    split_ifs with hxy
    · constructor
      · rw [List.pairwise_cons]
        refine ⟨fun z hz => ?_, h⟩
        rcases List.mem_cons.mp hz with rfl | hz
        · exact hxy
        · exact hxy.trans (h'.1 z hz)
      · simp
    · obtain ⟨i1, i2⟩ := ih h'.2
      constructor
      · rw [List.pairwise_cons]
        refine ⟨fun z hz => ?_, i1⟩
        rcases (i2 z).mp hz with rfl | hz
        · omega
        · exact h'.1 z hz
      · intro z; simp [i2]; tauto

theorem sortShares_pairwise (l : List Share) : (sortShares l).Pairwise (·.priority ≤ ·.priority) ∧ ∀ y,
    y ∈ sortShares l ↔ y ∈ l := by
  unfold sortShares
  induction l with
  | nil => simp
  | cons x l ih =>
    rw [List.foldr_cons]
    have := insertShare_pairwise x _ ih.1
    exact ⟨this.1, fun y => by rw [this.2, ih.2]; simp⟩

theorem State.mem_eligibleSet (s : State) (b : Fin 3) (x : Share) : x ∈ s.eligibleSet b ↔
    ∃ l e m, s.eligible b l = true ∧ s.lineEntry? l = some e ∧ e.kind.metering? = some m ∧ x =
      { line := l, feed := (s.lines[l]).feed, cv := m.cv, weight := m.weight, priority := m.priority
        fmin := m.fmin, fmax := m.fmax } := by
  unfold State.eligibleSet
  rw [(sortShares_pairwise _).2]
  simp only [List.mem_filterMap, indices, List.mem_finRange, true_and]
  refine exists_congr fun l => ?_
  unfold State.shareOf
  by_cases h : s.eligible b l = true
  · simp only [h, if_true]
    cases he : s.lineEntry? l with
    | none => simp
    | some e =>
      cases hm : e.kind.metering? with
      | none => simp [hm]
      | some m => simp [hm, -Fin.getElem_fin]; exact eq_comm
  · simp [h]

theorem find_pairwise {α : Type} (r : α → α → Prop) (f : α → Bool) (l : List α) (h : l.Pairwise r) (x : α)
    (hx : l.find? f = some x) : ∀ y ∈ l, f y = true → y = x ∨ r x y := by
  induction l with
  | nil => simp at hx
  | cons a l ih =>
    have h' := List.pairwise_cons.mp h
    rw [List.find?_cons] at hx
    cases hf : f a with
    | true =>
      rw [hf] at hx; injection hx with hx; subst hx
      intro y hy _
      rcases List.mem_cons.mp hy with rfl | hy
      · left; rfl
      · right; exact h'.1 y hy
    | false =>
      rw [hf] at hx
      intro y hy hy2
      rcases List.mem_cons.mp hy with rfl | hy
      · rw [hf] at hy2; cases hy2
      · exact ih h'.2 hx y hy hy2

theorem insertShare_perm (x : Share) (l : List Share) : (insertShare x l).Perm (x :: l) := by
  induction l with
  | nil => exact List.Perm.refl _
  | cons y ys ih =>
    unfold insertShare; split_ifs
    · exact List.Perm.refl _
    · exact (List.Perm.cons y ih).trans (List.Perm.swap x y ys)

theorem sortShares_perm (l : List Share) : (sortShares l).Perm l := by
  unfold sortShares
  induction l with
  | nil => exact List.Perm.refl _
  | cons x l ih => rw [List.foldr_cons]; exact (insertShare_perm _ _).trans (List.Perm.cons x ih)

theorem State.eligibleSet_lines (s : State) (b : Fin 3) : ((s.eligibleSet b).map (·.line)).Nodup ∧ ∀ l,
    s.eligible b l = false → l ∉ (s.eligibleSet b).map (·.line) := by
  have hp := (sortShares_perm ((indices 6).filterMap (s.shareOf b))).map (·.line)
  have hline : ∀ l x, s.shareOf b l = some x → x.line = l ∧ s.eligible b l = true := by
    intro l x h
    unfold State.shareOf at h
    split_ifs at h with h1
    rw [Option.map_eq_some_iff] at h
    obtain ⟨m, _, rfl⟩ := h
    exact ⟨rfl, h1⟩
  constructor
  · refine (hp.nodup_iff).mpr ?_
    have key : ∀ ls : List (Fin 6), ls.Nodup → ((ls.filterMap (s.shareOf b)).map (·.line)).Nodup ∧
      ∀ y ∈ (ls.filterMap (s.shareOf b)).map (·.line), y ∈ ls := by
      intro ls
      induction ls with
      | nil => intro _; simp
      | cons a l ih =>
        intro hn
        have hn' := List.nodup_cons.mp hn
        obtain ⟨i1, i2⟩ := ih hn'.2
        rw [List.filterMap_cons]
        cases h : s.shareOf b a with
        | none => exact ⟨i1, fun y hy => List.mem_cons_of_mem _ (i2 y hy)⟩
        | some x =>
          have hx := (hline a x h).1
          simp only [List.map_cons, List.nodup_cons, hx]
          refine ⟨⟨fun hh => hn'.1 (i2 _ hh), i1⟩, fun y hy => ?_⟩
          rcases List.mem_cons.mp hy with rfl | hy
          · exact List.mem_cons_self
          · exact List.mem_cons_of_mem _ (i2 y hy)
    exact (key _ (List.nodup_finRange 6)).1
  · intro l hl hm
    have hm := hp.mem_iff.mp hm
    obtain ⟨x, hx, rfl⟩ := List.mem_map.mp hm
    obtain ⟨a, _, ha⟩ := List.mem_filterMap.mp hx
    obtain ⟨h1, h2⟩ := hline a x ha
    rw [h1, h2] at hl; cases hl

def targetLine (b : Fin 3) (r : Apportionment) (l : Fin 6) (x : Line) : Line :=
  match x.entry.filter (·.inUse) with
  | none => x
  | some e => if e.burner = b ∧ x.mode = .auto then
      match e.kind.metering? with
      | some m => { x with target := targetFeed m (r.heat l) }
      | none => x
    else x

theorem State.setTarget_eq (s : State) (b : Fin 3) (r : Apportionment) (l : Fin 6) :
    s.setTarget b r l = { s with lines := s.lines.set l (targetLine b r l s.lines[l]) } := by
  have self : ({ s with lines := s.lines.set l s.lines[l] } : State) = s := by simp
  unfold State.setTarget targetLine State.lineOf State.lineEntry?
  generalize (s.lines[l]).entry.filter (·.inUse) = y
  cases y with
  | none => simp
  | some e =>
    simp only [Option.any_some, Option.bind_some]
    by_cases h1 : e.burner = b <;> by_cases h2 : (s.lines[l]).mode = .auto
    · rw [if_pos (by simp [h1, -Fin.getElem_fin, h2]), if_pos ⟨h1, h2⟩]
      cases e.kind.metering? with
      | none => exact self.symm
      | some m => rfl
    · rw [if_neg (by simp [h1, -Fin.getElem_fin, h2]), if_neg (by tauto)]; exact self.symm
    · rw [if_neg (by simp [h1]), if_neg (by tauto)]; exact self.symm
    · rw [if_neg (by simp [h1]), if_neg (by tauto)]; exact self.symm

theorem State.setTargets_eq (s : State) (b : Fin 3) (r : Apportionment) :
    (indices 6).foldl (fun s l => s.setTarget b r l) s =
      { s with lines := Vector.ofFn fun l => targetLine b r l s.lines[l] } := by
  have key : ∀ (ls : List (Fin 6)) (s : State), ls.foldl (fun s l => s.setTarget b r l) s =
      { s with lines := ls.foldl (fun (v : Vector Line 6) (l : Fin 6) => v.set l (targetLine b r l v[l])) s.lines }
        := by
    intro ls
    induction ls with
    | nil => intro s; rfl
    | cons l ls ih => intro s; rw [List.foldl_cons, List.foldl_cons, ih, State.setTarget_eq]
  rw [key, foldl_set_ofFn (fun l x => targetLine b r l x)]

theorem baseShares_le (dn : Nat) (xs : List Share) : ((baseShares dn xs).map (·.2)).sum ≤ dn := by
  have h : ∀ (W : Nat) (ys : List Share), (ys.map fun x => dn * x.weight / W).sum ≤ dn * totalWeight ys / W := by
    intro W ys
    induction ys with
    | nil => simp
    | cons y ys ih =>
      simp only [List.map_cons, List.sum_cons, totalWeight]
      rw [Nat.mul_add]
      exact (Nat.add_le_add_left ih _).trans Nat.div_add_div_le_add_div
  unfold baseShares
  rw [List.map_map]
  refine (h _ xs).trans ?_
  rcases Nat.eq_zero_or_pos (totalWeight xs) with h0 | h0
  · rw [h0]; simp
  · rw [Nat.mul_div_cancel _ h0]

theorem withRemainder_sum (dn : Nat) (hs : List (Share × Nat)) (h : (hs.map (·.2)).sum ≤ dn) (hn : hs ≠ []) :
    ((withRemainder dn hs).map (·.2)).sum = dn := by
  cases hs with
  | nil => exact absurd rfl hn
  | cons a l =>
    obtain ⟨x, y⟩ := a
    simp only [withRemainder, List.map_cons, List.sum_cons] at h ⊢
    omega

theorem withRemainder_shares (dn : Nat) (hs : List (Share × Nat)) : (withRemainder dn hs).map (·.1) = hs.map (·.1) := by
  cases hs with
  | nil => rfl
  | cons a l => rfl

theorem fitShare_sum (held : Bool) (xh : Share × Nat) : (fitShare held xh).assigned + (fitShare held xh).spill =
    xh.2 := by
  unfold fitShare; dsimp only; split_ifs <;> dsimp only <;> omega

theorem fitShare_share (held : Bool) (xh : Share × Nat) : (fitShare held xh).share = xh.1 := by
  unfold fitShare; dsimp only; split_ifs <;> rfl

theorem substitute_sum (ps : List Part) (sp : Nat) : ((substitute ps sp).1.map (·.assigned)).sum +
    (substitute ps sp).2 = (ps.map (·.assigned)).sum + sp ∧ (substitute ps sp).1.map (·.share) = ps.map (·.share) := by
  induction ps generalizing sp with
  | nil => simp [substitute]
  | cons p ps ih =>
    unfold substitute
    split_ifs
    · have := ih sp; simp only [List.map_cons, List.sum_cons]; exact ⟨by omega, by rw [this.2]⟩
    · dsimp only
      have := ih (sp - min sp (p.cap - p.assigned)); simp only [List.map_cons, List.sum_cons]; exact ⟨by omega,
        by rw [this.2]⟩

theorem apportion_spec (dn : Nat) (held : Bool) (xs : List Share) (r : Apportionment) (hr : r = apportion dn held xs) :
    (r.assigned.map (·.2)).sum + r.undelivered = dn + r.fireExcess ∧ (r.undelivered = 0 ∨ r.fireExcess = 0) ∧
      (dn = 0 → r.undelivered = 0) ∧ r.assigned.map (·.1) = xs.map (·.line) := by
  subst hr
  cases xs with
  | nil => simp [apportion]
  | cons x rest =>
    unfold apportion
    dsimp only
    split_ifs with h
    · have h0 : (List.map ((fun x : Fin 6 × Nat => x.2) ∘ fun y : Share => (y.line, 0)) rest).sum = 0 := by
        clear h; induction rest <;> simp_all
      unfold minimumFire
      simp only [List.map_cons, List.sum_cons, List.map_map, h0]
      refine ⟨by omega, by omega, ?_, by rfl⟩
      simp only [Bool.and_eq_true, decide_eq_true_eq] at h
      omega
    · have hb := baseShares_le dn (x :: rest)
      have hs := withRemainder_sum dn (baseShares dn (x :: rest)) hb (by simp [baseShares])
      have hl := withRemainder_shares dn (baseShares dn (x :: rest))
      generalize withRemainder dn (baseShares dn (x :: rest)) = hh at *
      have hsum : ((hh.map (fitShare held)).map (·.assigned)).sum + ((hh.map (fitShare held)).map (·.spill)).sum =
        dn := by
        rw [← hs]; clear hs hl hb h
        induction hh with
        | nil => rfl
        | cons a l ih => simp only [List.map_cons, List.sum_cons]; have := fitShare_sum held a; omega
      have hsub := substitute_sum (hh.map (fitShare held)) ((hh.map (fitShare held)).map (·.spill)).sum
      generalize substitute (hh.map (fitShare held)) ((hh.map (fitShare held)).map (·.spill)).sum = r at *
      have e1 : List.map (fun x : Fin 6 × Nat => x.2) (List.map (fun p : Part => (p.share.line, p.assigned)) r.1) =
        r.1.map (·.assigned) := by rw [List.map_map]; rfl
      refine ⟨?_, by simp, ?_, ?_⟩
      · dsimp only; rw [e1]; omega
      · dsimp only; omega
      · dsimp only; rw [List.map_map]
        have : r.1.map ((fun x : Fin 6 × Nat => x.1) ∘ fun p : Part => (p.share.line, p.assigned)) =
          (r.1.map (·.share)).map (·.line) := by rw [List.map_map]; rfl
        rw [this, hsub.2, List.map_map]
        rw [← List.map_map]
        have : (hh.map (fitShare held)).map (·.share) = hh.map (·.1) := by
          rw [List.map_map]; apply List.map_congr_left; intro a _; exact fitShare_share held a
        rw [this, hl]; simp [baseShares]

theorem heat_sum (r : List (Fin 6 × Nat)) (hn : (r.map (·.1)).Nodup) :
    ((indices 6).map fun l => match r.find? (·.1 == l) with | some x => x.2 | none => 0).sum = (r.map (·.2)).sum := by
  induction r with
  | nil => simp
  | cons a l ih =>
    rw [List.map_cons, List.nodup_cons] at hn
    have ih := ih hn.2
    rw [List.map_cons, List.sum_cons, ← ih]
    have : ∀ j : Fin 6, (match (a :: l).find? (·.1 == j) with | some x => x.2 | none => 0) =
      (if j = a.1 then a.2 else 0) + (match l.find? (·.1 == j) with | some x => x.2 | none => 0) := by
      intro j
      rw [List.find?_cons]
      by_cases h : a.1 = j
      · have : l.find? (·.1 == j) = none := by
          rw [List.find?_eq_none]; intro x hx hxj
          exact hn.1 (List.mem_map.mpr ⟨x, hx, by rw [h]; simpa using hxj⟩)
        simp [h, this]
      · have e0 : (a.1 == j) = false := by simpa using h
        rw [e0, if_neg (Ne.symm h)]; simp
    simp only [this]
    rw [List.sum_map_add]
    congr 1
    have : ∀ (k : Fin 6) (n : Nat), ((indices 6).map fun j => if j = k then n else 0).sum = n := by
      intro k n
      have h6 : (indices 6) = [0,1,2,3,4,5] := by decide
      rw [h6]
      have : k = 0 ∨ k = 1 ∨ k = 2 ∨ k = 3 ∨ k = 4 ∨ k = 5 := by revert k; decide
      rcases this with rfl | rfl | rfl | rfl | rfl | rfl <;> simp
    exact this _ _

/-! ### Shares, cuts, caps and substitution, line by line (R73 to R75) -/

/-- The lines of a list with the shares that an index gives them, cut and clamped. -/
def fitAt (held : Bool) (share : Nat → Nat) (off : Nat) (xs : List Share) : List Part :=
  xs.mapIdx fun i x => fitShare held (x, share (off + i))

/-- The shares of R73, step 3, given line by line. -/
theorem withRemainder_at (held : Bool) (dn : Nat) (xs : List Share) (share : Nat → Nat)
    (h : ∀ i x, xs[i]? = some x → share i = dn * x.weight / totalWeight xs +
      (if i = 0 then dn - (xs.map fun y => dn * y.weight / totalWeight xs).sum else 0)) :
    (withRemainder dn (baseShares dn xs)).map (fitShare held) = fitAt held share 0 xs := by
  cases xs with
  | nil => rfl
  | cons x xs =>
    apply List.ext_getElem?
    intro i
    rw [fitAt, List.getElem?_mapIdx, List.getElem?_map]
    simp only [Nat.zero_add]
    have hb : baseShares dn (x :: xs) = (x, dn * x.weight / totalWeight (x :: xs)) ::
        xs.map fun y => (y, dn * y.weight / totalWeight (x :: xs)) := rfl
    have hsum : ((baseShares dn (x :: xs)).map (·.2)).sum =
        ((x :: xs).map fun y => dn * y.weight / totalWeight (x :: xs)).sum := by
      unfold baseShares; rw [List.map_map]; rfl
    cases i with
    | zero =>
      have h0 := h 0 x rfl
      rw [if_pos rfl] at h0
      simp only [List.getElem?_cons_zero, Option.map_some, h0, ← hsum]
      rfl
    | succ i =>
      rw [hb]
      simp only [withRemainder, List.getElem?_cons_succ, List.getElem?_map, Option.map_map]
      cases hx : xs[i]? with
      | none => simp only [Option.map_none]
      | some y =>
        have h1 := h (i + 1) y (by simpa using hx)
        rw [if_neg (by omega), Nat.add_zero] at h1
        simp only [Option.map_some, Function.comp]
        rw [h1]; rfl

/-- R74, step 6, line by line: `left` is what is left of the spill before a line, `given` what the line gets. -/
theorem substitute_at (held : Bool) (need share cap start left given : Nat → Nat) (xs : List Share) (off : Nat)
    (h : ∀ i x, xs[i]? = some x →
      need (off + i) = feedOf (share (off + i)) x.cv ∧ cap (off + i) = x.cap held ∧
      start (off + i) = (if need (off + i) < x.fmin then 0 else min (share (off + i)) (cap (off + i))) ∧
      given (off + i) = (if need (off + i) < x.fmin ∨ start (off + i) = cap (off + i) then start (off + i)
        else start (off + i) + min (left (off + i)) (cap (off + i) - start (off + i))) ∧
      left (off + i + 1) = left (off + i) - (given (off + i) - start (off + i))) :
    (substitute (fitAt held share off xs) (left off)).1.map (fun p => (p.share.line, p.assigned)) =
        xs.mapIdx (fun i x => (x.line, given (off + i))) ∧
      (substitute (fitAt held share off xs) (left off)).2 = left (off + xs.length) := by
  induction xs generalizing off with
  | nil => simp [fitAt, substitute]
  | cons x xs ih =>
    obtain ⟨a1, a2, a3, a4, a5⟩ := h 0 x (by simp)
    have ih := ih (off + 1) fun i y hy => by
      have := h (i + 1) y (by simpa using hy)
      simpa [Nat.add_assoc, Nat.add_comm 1] using this
    simp only [Nat.add_zero] at a1 a2 a3 a4 a5
    have tail : fitAt held share off (x :: xs) = fitShare held (x, share off) :: fitAt held share (off + 1) xs := by
      simp [fitAt, List.mapIdx_cons, Nat.add_assoc, Nat.add_comm 1]
    have cut : (fitShare held (x, share off)).cut = true ↔ need off < x.fmin := by
      unfold fitShare; dsimp only; rw [a1]; split_ifs <;> simp [*]
    have assigned : (fitShare held (x, share off)).assigned = start off := by
      unfold fitShare; dsimp only; rw [a3, a1, a2]; split_ifs <;> rfl
    have capped : (fitShare held (x, share off)).cap = cap off := by
      unfold fitShare; dsimp only; rw [a2]; split_ifs <;> rfl
    have done : ((fitShare held (x, share off)).cut || (fitShare held (x, share off)).capped) = true ↔
        (need off < x.fmin ∨ start off = cap off) := by
      unfold Part.capped
      rw [assigned, capped, ← cut]
      cases (fitShare held (x, share off)).cut <;> simp
    have results : List.mapIdx (fun i (x : Share) => (x.line, given (off + i))) (x :: xs) =
        (x.line, given off) :: xs.mapIdx (fun i x => (x.line, given (off + 1 + i))) := by
      simp [List.mapIdx_cons, Nat.add_assoc, Nat.add_comm 1]
    rw [tail, results]
    unfold substitute
    by_cases hh : need off < x.fmin ∨ start off = cap off
    · rw [if_pos (done.mpr hh)]
      rw [if_pos hh] at a4
      have e : left off = left (off + 1) := by rw [a5, a4]; simp
      dsimp only
      rw [e, List.map_cons, ih.1, ih.2, fitShare_share, assigned, a4]
      exact ⟨rfl, by simp [Nat.add_assoc, Nat.add_comm 1]⟩
    · rw [if_neg (by rw [done]; exact hh)]
      rw [if_neg hh] at a4
      dsimp only
      have e : left off - min (left off) (cap off - start off) = left (off + 1) := by rw [a5, a4]; omega
      rw [capped, assigned, e, List.map_cons, ih.1, ih.2]
      dsimp only
      rw [fitShare_share, a4]
      exact ⟨rfl, by simp [Nat.add_assoc, Nat.add_comm 1]⟩

end Sys2Proof.Machine
end

