-- ==== Sys2Proof/Laws/Commands.lean ====
section
/-!
SUPPORT. Merges, tails and evictions in the command queue, the owners of its entries, and the filter (chapter 6).
-/
namespace Sys2Proof.Machine

/-! ### The list -/

theorem insertTail_split (e : QueueEntry) (a b : List QueueEntry) (ha : ∀ x ∈ a, x.cls.rank ≤ e.cls.rank)
    (hb : ∀ x ∈ b, e.cls.rank < x.cls.rank) : insertTail e (a ++ b) = a ++ e :: b := by
  unfold insertTail
  have h1 : ∀ x ∈ a, (fun x : QueueEntry => decide (x.cls.rank ≤ e.cls.rank)) x = true := by simpa using ha
  rw [List.takeWhile_append_of_pos h1, List.dropWhile_append_of_pos h1]
  cases b with
  | nil => simp
  | cons y b =>
    have hy : ¬ y.cls.rank ≤ e.cls.rank := Nat.not_le.mpr (hb y (by simp))
    simp [hy]

theorem sameCommand_iff (st : Nat) (k : CommandKind) (e : QueueEntry) :
    sameCommand st k e = true ↔ e.station = st ∧ e.kind = k := by simp [sameCommand]

theorem mergeCommand_none (q : List QueueEntry) (p : Proposal) (now : Time)
    (h : p.kind.isLevel = true → ∀ e ∈ q, e.station = p.station → e.kind ≠ p.kind) : mergeCommand q p now = none := by
  unfold mergeCommand
  split
  · rename_i hl
    have : q.find? (sameCommand p.station p.kind) = none := by
      rw [List.find?_eq_none]; intro e he; rw [sameCommand_iff]; rintro ⟨a, b⟩; exact h hl e he a b
    rw [this]
  · rfl

theorem mergeCommand_isSome (q : List QueueEntry) (p : Proposal) (now : Time) (hl : p.kind.isLevel = true)
    (h : ∃ e ∈ q, e.station = p.station ∧ e.kind = p.kind) : (mergeCommand q p now).isSome = true := by
  unfold mergeCommand
  rw [if_pos hl]
  obtain ⟨e, he, a⟩ := h
  cases hf : q.find? (sameCommand p.station p.kind) with
  | none => exact absurd ((sameCommand_iff _ _ _).mpr a) (by simpa using (List.find?_eq_none.mp hf e he))
  | some w => dsimp only; split <;> rfl

theorem mergeCommand_split (q₁ q₂ : List QueueEntry) (w : QueueEntry) (p : Proposal) (now : Time)
    (hl : p.kind.isLevel = true) (h1 : w.station = p.station) (h2 : w.kind = p.kind)
    (h : ∀ e ∈ q₁ ++ q₂, e.station = p.station → e.kind ≠ p.kind) :
    mergeCommand (q₁ ++ w :: q₂) p now =
      if p.cls.rank < w.cls.rank then some (insertTail (p.entry now) (q₁ ++ q₂))
      else some (q₁ ++ { w with value := p.value, origin := p.origin } :: q₂) := by
  have hw : sameCommand p.station p.kind w = true := (sameCommand_iff _ _ _).mpr ⟨h1, h2⟩
  have hn : ∀ e ∈ q₁ ++ q₂, sameCommand p.station p.kind e = false := by
    intro e he; rw [Bool.eq_false_iff, ne_eq, sameCommand_iff]; rintro ⟨a, b⟩; exact h e he a b
  have hq1 : ∀ e ∈ q₁, ¬ sameCommand p.station p.kind e = true := fun e he => by simp [hn e (by simp [he])]
  have hf : (q₁ ++ w :: q₂).find? (sameCommand p.station p.kind) = some w := by
    rw [List.find?_append, List.find?_eq_none.mpr hq1]; simp [hw]
  have he : (q₁ ++ w :: q₂).eraseP (sameCommand p.station p.kind) = q₁ ++ q₂ := by
    rw [List.eraseP_append_right _ hq1]; simp [hw]
  have hm : (q₁ ++ w :: q₂).map (fun e =>
        if sameCommand p.station p.kind e then { e with value := p.value, origin := p.origin } else e) =
      q₁ ++ { w with value := p.value, origin := p.origin } :: q₂ := by
    rw [List.map_append, List.map_cons]
    congr 1
    · exact (List.map_congr_left fun e he => by simp [hn e (by simp [he])]).trans (List.map_id q₁)
    · congr 1
      · simp [hw]
      · exact (List.map_congr_left fun e he => by simp [hn e (by simp [he])]).trans (List.map_id q₂)
  unfold mergeCommand
  rw [if_pos hl, hf, he, hm]

theorem youngest_split (c : CommandClass) (q₁ q₂ : List QueueEntry) (y : QueueEntry) (h : y.cls = c)
    (hn : ∀ e ∈ q₂, e.cls ≠ c) : youngest c (q₁ ++ y :: q₂) = some y ∧ dropYoungest c (q₁ ++ y :: q₂) = q₁ ++ q₂ := by
  have hn' : ∀ e ∈ q₂.reverse, ¬ (e.cls == c) = true := by simpa using hn
  constructor
  · unfold youngest
    rw [List.reverse_append, List.reverse_cons, List.append_assoc, List.find?_append, List.find?_eq_none.mpr hn']
    simp [h]
  · unfold dropYoungest
    rw [List.reverse_append, List.reverse_cons, List.append_assoc, List.eraseP_append_right _ hn']
    simp [h]

theorem holdsClass_false (c : CommandClass) (q : List QueueEntry) (h : ∀ e ∈ q, e.cls ≠ c) : holdsClass c q =
    false := by
  simpa [holdsClass] using h

theorem holdsClass_true (c : CommandClass) (q : List QueueEntry) (e : QueueEntry) (he : e ∈ q) (h : e.cls = c) :
    holdsClass c q = true := by simp only [holdsClass, List.any_eq_true]; exact ⟨e, he, by simp [h]⟩

/-! ### Owners -/

theorem find_indices_none {n : Nat} (f : Fin n → Bool) : (indices n).find? f = none ↔ ∀ i, f i = false := by
  simp [List.find?_eq_none, indices]

/-- The commands that an entry in use answers for: its FEED or DOSE, or its IGNITER. -/
def LineEntry.owns (x : LineEntry) (st : Nat) (k : CommandKind) : Prop :=
  x.station = st ∧ ((k = .feed ∧ x.kind.isMetered = true) ∨ (k = .igniter ∧ x.kind = .ignition) ∨
    (k = .dose ∧ ∃ m mass gap, x.kind = .piece m mass gap))

theorem State.commandLine_spec (s : State) (st : Nat) (k : CommandKind) :
    (∀ l, s.commandLine st k = some l → ∃ x, s.lineEntry? l = some x ∧ x.owns st k) ∧
      (s.commandLine st k = none ↔ ∀ l x, s.lineEntry? l = some x → ¬ x.owns st k) := by
  have key : ∀ x : LineEntry, x.owns st k ↔ (x.station == st && (match k, x.kind with
      | .feed, .continuous _ _ _ => true
      | .feed, .piece _ _ _ => true
      | .igniter, .ignition => true
      | .dose, .piece _ _ _ => true
      | _, _ => false)) = true := by
    intro x
    unfold LineEntry.owns
    cases k <;> cases x.kind <;> simp [LineKind.isMetered, LineKind.metering?]
  refine ⟨fun l hl => ?_, ?_⟩
  · have found := List.find?_some hl
    rw [Option.any_eq_true] at found
    obtain ⟨x, hx, h⟩ := found
    refine ⟨x, hx, (key x).mpr ?_⟩
    cases k <;> cases hk : x.kind <;> simp_all
  · unfold State.commandLine
    rw [find_indices_none]
    refine forall_congr' fun l => ?_
    cases s.lineEntry? l with
    | none => simp
    | some x =>
      have hk := key x
      cases k <;> cases hx : x.kind <;> rw [hx] at hk <;> simp [hk, hx]

theorem State.commandRun_spec (s : State) (st : Nat) :
    (∀ g, s.commandRun st = some g → ∃ x, s.runEntry? g = some x ∧ x.station = st) ∧
      (s.commandRun st = none ↔ ∀ g x, s.runEntry? g = some x → x.station ≠ st) := by
  refine ⟨fun g h => ?_, ?_⟩
  · have found := List.find?_some h
    rw [Option.any_eq_true] at found
    obtain ⟨x, hx, hp⟩ := found
    exact ⟨x, hx, by simpa using hp⟩
  · unfold State.commandRun
    rw [find_indices_none]
    refine forall_congr' fun g => ?_
    cases s.runEntry? g <;> simp

theorem State.commandCompartment_spec (s : State) (st : Nat) :
    (∀ k, s.commandCompartment st = some k → ∃ x, s.compartmentEntry? k = some x ∧ x.station = st) ∧
      (s.commandCompartment st = none ↔ ∀ k x, s.compartmentEntry? k = some x → x.station ≠ st) := by
  refine ⟨fun k h => ?_, ?_⟩
  · have found := List.find?_some h
    rw [Option.any_eq_true] at found
    obtain ⟨x, hx, hp⟩ := found
    exact ⟨x, hx, by simpa using hp⟩
  · unfold State.commandCompartment
    rw [find_indices_none]
    refine forall_congr' fun k => ?_
    cases s.compartmentEntry? k <;> simp

theorem State.lineAt_spec (s : State) (st : Nat) : (∀ l e, s.lineAt st = some (l, e) → s.lineEntry? l = some e ∧
    e.station = st) ∧
      (s.lineAt st = none ↔ ∀ l e, s.lineEntry? l = some e → e.station ≠ st) := by
  have hm : ∀ l e, (l, e) ∈ ((indices 6).filterMap fun l => (s.lineEntry? l).map fun e => (l, e)) ↔ s.lineEntry? l =
    some e := by
    intro l e
    rw [List.mem_filterMap]
    constructor
    · rintro ⟨l', _, h⟩
      rw [Option.map_eq_some_iff] at h
      obtain ⟨e', he, h⟩ := h
      cases h; exact he
    · intro h; exact ⟨l, by simp [indices], by rw [h]; rfl⟩
  constructor
  · intro l e h
    have h1 := List.mem_of_find?_eq_some h
    have h2 := List.find?_some h
    exact ⟨(hm l e).mp h1, by simpa using h2⟩
  · unfold State.lineAt
    rw [List.find?_eq_none]
    constructor
    · intro h l e he hs; exact h (l, e) ((hm l e).mpr he) (by simpa using hs)
    · rintro h ⟨l, e⟩ he hs; exact h l e ((hm l e).mp he) (by simpa using hs)

theorem State.runAtStation_spec (s : State) (st : Nat) : (∀ l e, s.runAtStation st = some (l, e) → s.runEntry? l =
    some e ∧ e.station = st) ∧
      (s.runAtStation st = none ↔ ∀ l e, s.runEntry? l = some e → e.station ≠ st) := by
  have hm : ∀ l e, (l, e) ∈ ((indices 4).filterMap fun l => (s.runEntry? l).map fun e => (l, e)) ↔ s.runEntry? l =
    some e := by
    intro l e
    rw [List.mem_filterMap]
    constructor
    · rintro ⟨l', _, h⟩
      rw [Option.map_eq_some_iff] at h
      obtain ⟨e', he, h⟩ := h
      cases h; exact he
    · intro h; exact ⟨l, by simp [indices], by rw [h]; rfl⟩
  constructor
  · intro l e h
    have h1 := List.mem_of_find?_eq_some h
    have h2 := List.find?_some h
    exact ⟨(hm l e).mp h1, by simpa using h2⟩
  · unfold State.runAtStation
    rw [List.find?_eq_none]
    constructor
    · intro h l e he hs; exact h (l, e) ((hm l e).mpr he) (by simpa using hs)
    · rintro h ⟨l, e⟩ he hs; exact h l e ((hm l e).mp he) (by simpa using hs)

/-! ### The filter -/

theorem State.mem_filters (s : State) (e : FilterEntry) :
    e ∈ s.filters.toList.filterMap id ↔ ∃ i : Fin 32, s.filters[i] = some e := by
  rw [List.mem_filterMap]
  constructor
  · rintro ⟨o, ho, h⟩
    rw [Vector.mem_toList_iff, Vector.mem_iff_getElem] at ho
    obtain ⟨i, hi, h'⟩ := ho
    exact ⟨⟨i, hi⟩, by rw [Fin.getElem_fin, h']; exact h⟩
  · rintro ⟨i, hi⟩
    exact ⟨some e, by rw [Vector.mem_toList_iff, ← hi]; exact Vector.getElem_mem _, rfl⟩

theorem State.filterAction_of (s : State) (st : Nat) (k : CommandKind) (i : Fin 32) (e : FilterEntry)
    (hi : s.filters[i] = some e) (h1 : e.inUse = true) (h2 : e.station = st) (h3 : e.kind = k)
    (hu : ∀ (j : Fin 32) e', s.filters[j] = some e' → e'.inUse = true → e'.station = st → e'.kind = k → j = i) :
    s.filterAction st k = e.action := by
  have he := (s.mem_filters e).mpr ⟨i, hi⟩
  unfold State.filterAction
  cases hf : (s.filters.toList.filterMap id).find? fun e => e.inUse && e.station == st && e.kind == k with
  | none =>
    have := List.find?_eq_none.mp hf e he
    simp [h1, h2, h3] at this
  | some x =>
    obtain ⟨j, hj⟩ := (s.mem_filters x).mp (List.mem_of_find?_eq_some hf)
    have hx := List.find?_some hf
    simp only [Bool.and_eq_true, beq_iff_eq] at hx
    have hji := hu j x hj hx.1.1 hx.1.2 hx.2
    have hxe : x = e := by rw [hji, hi] at hj; simpa using hj.symm
    rw [hxe]

theorem State.filterAction_none (s : State) (st : Nat) (k : CommandKind)
    (h : ∀ (i : Fin 32) e, s.filters[i] = some e → e.inUse = true → e.station = st → e.kind ≠ k) :
    s.filterAction st k = .block := by
  unfold State.filterAction
  rw [List.find?_eq_none.mpr]
  intro e he hx
  obtain ⟨i, hi⟩ := (s.mem_filters e).mp he
  simp only [Bool.and_eq_true, beq_iff_eq] at hx
  exact h i e hi hx.1.1 hx.1.2 hx.2

theorem State.wouldDrop_routine (s : State) (p : Proposal) (hc : p.cls = .routine) :
    s.wouldDrop p = !decide (s.queue.list.length < 32 ∨
      (p.kind.isLevel = true ∧ ∃ e ∈ s.queue.list, e.station = p.station ∧ e.kind = p.kind)) := by
  have hev : evictionClass s.queue.list p.cls = none := by simp [evictionClass, hc]
  unfold State.wouldDrop
  rw [hev, Option.isNone_none, Bool.and_true]
  by_cases hl : s.queue.list.length < 32
  · have h2 : decide (Config.queuePlaces ≤ s.queue.list.length) = false :=
      decide_eq_false (by unfold Config.queuePlaces; omega)
    rw [h2]; simp [hl]
  · have h2 : decide (Config.queuePlaces ≤ s.queue.list.length) = true :=
      decide_eq_true (by unfold Config.queuePlaces; omega)
    rw [h2, Bool.and_true]
    by_cases hm : p.kind.isLevel = true ∧ ∃ e ∈ s.queue.list, e.station = p.station ∧ e.kind = p.kind
    · have := mergeCommand_isSome s.queue.list p s.timeBase hm.1 hm.2
      rw [decide_eq_true (Or.inr hm)]
      cases h : mergeCommand s.queue.list p s.timeBase <;> simp_all
    · rw [mergeCommand_none s.queue.list p s.timeBase (fun a e he b c => hm ⟨a, e, he, b, c⟩),
        decide_eq_false (fun c => c.elim hl hm)]
      rfl

end Sys2Proof.Machine
end

