-- ==== Sys2Proof/Laws/Cooler.lean ====
section
/-!
SUPPORT. What the cooler unit's operations make of the cooler and what they hand to the queue, exactly (chapter 5).
-/
namespace Sys2Proof.Machine

/-! ### Passes over the runs and the compartments -/

/-- A pass in which each operation changes one element by itself and hands commands to the queue. -/
theorem foldl_each {n : Nat} {α : Type} (put : Vector α n → List Submission → State) (op : State → Fin n → State)
    (f : Fin n → α → α × List Submission)
    (h : ∀ v l i, op (put v l) i = put (v.set i (f i v[i]).1) (l ++ (f i v[i]).2)) (v : Vector α n)
    (l : List Submission) : (indices n).foldl op (put v l) =
      put (Vector.ofFn fun i => (f i v[i]).1) (l ++ (indices n).flatMap fun i => (f i v[i]).2) := by
  have key : ∀ (is : List (Fin n)) v l, is.Nodup → is.foldl op (put v l) =
      put (is.foldl (fun (v : Vector α n) (i : Fin n) => v.set i (f i v[i]).1) v)
        (l ++ is.flatMap fun i => (f i v[i]).2) := by
    intro is
    induction is with
    | nil => intro v l _; simp
    | cons i is ih =>
      intro v l hn
      rw [List.nodup_cons] at hn
      rw [List.foldl_cons, h, ih _ _ hn.2, List.foldl_cons, List.flatMap_cons, List.append_assoc]
      congr 3
      refine List.flatMap_congr fun j hj => ?_
      have : (i : Nat) ≠ j := fun e => hn.1 ((Fin.ext e : i = j) ▸ hj)
      simp only [Fin.getElem_fin, Vector.getElem_set_ne _ _ this]
  rw [key (indices n) v l (List.nodup_finRange n), foldl_set_ofFn fun i x => (f i x).1]

section
variable (s : State)

/-- The state with the runs `v` and the commands `l` handed to the queue. -/
def State.withRuns (v : Vector Run 4) (l : List Submission) : State :=
  { s with cooler := { s.cooler with runs := v }, queue := { s.queue with submitted := l } }

/-- The state with the compartments `v` and the commands `l` handed to the queue. -/
def State.withFans (v : Vector Compartment 12) (l : List Submission) : State :=
  { s with cooler := { s.cooler with compartments := v }, queue := { s.queue with submitted := l } }

theorem State.withRuns_self : s.withRuns s.cooler.runs s.queue.submitted = s := rfl
theorem State.withFans_self : s.withFans s.cooler.compartments s.queue.submitted = s := rfl

/-- The commands of run `g`, as the queue is handed them. -/
abbrev fromRun (g : Fin 4) (l : List Proposal) : List Submission := l.map fun p => { sender := .run g, command := p }

/-- The commands of compartment `k`, as the queue is handed them. -/
abbrev fromFan (k : Fin 12) (l : List Proposal) : List Submission :=
  l.map fun p => { sender := .compartment k, command := p }

/-! ### Rates (R96, R99) -/

/-- The RATE of a run waits for the end of the event. -/
theorem State.queueRate_eq (g : Fin 4) (e : RunEntry) (h : s.runEntry? g = some e) : s.queueRate g =
    s.withRuns (s.cooler.runs.set g { s.cooler.runs[g] with refresh := 0 })
      (s.queue.submitted ++ fromRun g [rateCommand e (s.cooler.runs[g]).rate]) := by
  rw [State.queueRate, h]; rfl

theorem State.modRun_runEntry (g : Fin 4) (f : Run → Run) (h : (f s.cooler.runs[g]).entry = (s.cooler.runs[g]).entry) :
    (s.modRun g f).runEntry? g = s.runEntry? g := by
  have e : (s.modRun g f).cooler.runs[g] = f s.cooler.runs[g] := by simp [State.modRun, State.modCooler]
  show ((s.modRun g f).cooler.runs[g]).entry.filter _ = _
  rw [e, h]; rfl

theorem State.startStroking_eq (g : Fin 4) (e : RunEntry) (h : s.runEntry? g = some e) (rate : Nat) :
    s.startStroking g rate = s.withRuns
      (s.cooler.runs.set g { (s.cooler.runs[g]).stroking rate s.timeBase with refresh := 0 })
      (s.queue.submitted ++ fromRun g [rateCommand e rate]) := by
  rw [State.startStroking, State.queueRate_eq _ g e ((s.modRun_runEntry g _ rfl).trans h)]
  simp [State.modRun, State.modCooler, State.withRuns, Run.stroking, strokePeriod]

/-- A run that takes a rate, and the RATE it gives. -/
def Run.rated (e : RunEntry) (rate : Nat) (r : Run) : Run × List Proposal :=
  if r.rate = rate then (r, [])
  else if r.state = .idle then (r.retimed rate, [])
  else ({ r.retimed rate with refresh := 0 }, [rateCommand e rate])

theorem State.setRate_eq (g : Fin 4) (e : RunEntry) (h : s.runEntry? g = some e) (rate : Nat) :
    s.setRate g rate = s.withRuns (s.cooler.runs.set g ((s.cooler.runs[g]).rated e rate).1)
      (s.queue.submitted ++ fromRun g ((s.cooler.runs[g]).rated e rate).2) := by
  have hr : s.runAt g = s.cooler.runs[g] := rfl
  unfold State.setRate Run.rated
  rw [hr]
  by_cases h1 : (s.cooler.runs[g]).rate = rate
  · rw [if_pos h1, if_pos h1]; simp [State.withRuns]
  · have ht : (s.cooler.runs[g]).retimed rate = { s.cooler.runs[g] with
        rate := rate, timer := (s.cooler.runs[g]).timer.map fun t => { t with period := strokePeriod rate } } := by
      unfold Run.retimed strokePeriod; rw [if_neg h1]
    rw [if_neg h1, if_neg h1, ht]; dsimp only
    by_cases h2 : (s.cooler.runs[g]).state = .idle
    · rw [if_pos h2, if_pos h2]; simp [State.modRun, State.modCooler, State.withRuns]
    · rw [if_neg h2, if_neg h2, State.queueRate_eq _ g e ((s.modRun_runEntry g _ rfl).trans h)]
      simp [State.modRun, State.modCooler, State.withRuns]

/-! ### Fans (R96) -/

/-- The FAN of a compartment in use by the entry `e`. -/
def fanCommand (e : CompartmentEntry) (speed : Nat) : Proposal :=
  { station := e.station, kind := .fan, value := speed, cls := .control, origin := .cooler }

theorem State.queueFan_eq (k : Fin 12) (e : CompartmentEntry) (h : s.compartmentEntry? k = some e) : s.queueFan k =
    s.withFans (s.cooler.compartments.set k { s.cooler.compartments[k] with refresh := 0 })
      (s.queue.submitted ++ fromFan k [fanCommand e (s.cooler.compartments[k]).speed]) := by
  rw [State.queueFan, h]; rfl

/-- A compartment after its speed is computed again, and the FAN it gives. -/
def State.fanned (force : Bool) (x : Compartment) : Compartment × List Proposal :=
  match x.entry.filter (·.inUse) with
  | none => ({ x with speed := 0 }, [])
  | some e =>
    if x.speed = s.fanSpeed e ∧ force = false then (x, [])
    else ({ x with speed := s.fanSpeed e, refresh := 0 }, [fanCommand e (s.fanSpeed e)])

theorem State.applyFan_eq (force : Bool) (k : Fin 12) : s.applyFan force k =
    s.withFans (s.cooler.compartments.set k (s.fanned force s.cooler.compartments[k]).1)
      (s.queue.submitted ++ fromFan k (s.fanned force s.cooler.compartments[k]).2) := by
  have he : s.compartmentEntry? k = (s.cooler.compartments[k]).entry.filter (·.inUse) := rfl
  unfold State.applyFan State.fanned
  rw [← he]
  cases h : s.compartmentEntry? k with
  | none => simp [State.modCompartment, State.modCooler, State.withFans]
  | some e =>
    dsimp only
    by_cases h1 : (s.cooler.compartments[k]).speed = s.fanSpeed e ∧ force = false
    · rw [if_pos h1, if_pos (by simpa using h1)]; simp [State.withFans]
    · rw [if_neg h1, if_neg (by simpa using h1)]
      have h2 : (s.modCompartment k fun c => { c with speed := s.fanSpeed e }).compartmentEntry? k = some e := by
        rw [← h]
        unfold State.compartmentEntry? State.modCompartment State.modCooler
        simp
      rw [State.queueFan_eq _ k e h2]
      simp [State.modCompartment, State.modCooler, State.withFans]

theorem State.fanSpeed_congr {s t : State} (h : s.cooler.state = t.cooler.state) (hz : s.cooler.zones = t.cooler.zones)
    (e : CompartmentEntry) : s.fanSpeed e = t.fanSpeed e := by
  unfold State.fanSpeed; rw [h, hz]

/-- The speeds of all compartments are computed again; each finds its own FAN. -/
theorem State.applyFans_eq (force : Bool) : s.applyFans force =
    s.withFans (Vector.ofFn fun k => (s.fanned force s.cooler.compartments[k]).1)
      (s.queue.submitted ++ (indices 12).flatMap fun k => fromFan k (s.fanned force s.cooler.compartments[k]).2) := by
  rw [State.applyFans]
  conv_lhs => rw [← s.withFans_self]
  exact foldl_each s.withFans _ (fun k x => ((s.fanned force x).1, fromFan k (s.fanned force x).2))
    (fun v l k => State.applyFan_eq (s.withFans v l) force k) _ _

/-! ### The entry to a cooler state (R91) -/

theorem burnerKeeps_cooler : BurnerKeeps State.cooler :=
  { line := fun _ _ _ => rfl, submit := fun _ _ _ => rfl, burner := fun _ _ _ => rfl, account := fun _ _ _ => rfl }

theorem State.setCoolerState_cooler (st : CoolerState) :
    (s.setCoolerState st).cooler = { s.cooler with state := st, lawHeld := false } := by
  rw [State.setCoolerState, burnerKeeps_cooler.visitPermissives, burnerKeeps_cooler.setHoldAll]; rfl

/-- The queue without what the lines hand to it. -/
def State.coolerQueue : CommandQueue :=
  { s.queue with submitted := s.queue.submitted.filter fun x => match x.sender with | .line _ => false | _ => true }

theorem burnerKeeps_coolerQueue : BurnerKeeps State.coolerQueue :=
  { line := fun _ _ _ => rfl
    submit := fun s l p => by simp [State.coolerQueue, State.submit, State.modQueue]
    burner := fun _ _ _ => rfl, account := fun _ _ _ => rfl }

theorem State.setCoolerState_coolerQueue (st : CoolerState) : (s.setCoolerState st).coolerQueue = s.coolerQueue := by
  rw [State.setCoolerState, burnerKeeps_coolerQueue.visitPermissives, burnerKeeps_coolerQueue.setHoldAll]; rfl

/-- What the runs and compartments hand to the queue is read from the part that the lines leave alone. -/
theorem State.givenBy_coolerQueue {s t : State} (h : s.coolerQueue = t.coolerQueue) (x : Sender)
    (hx : ∀ l, x ≠ .line l) : givenBy x s.queue.submitted = givenBy x t.queue.submitted := by
  have key : ∀ u : State, givenBy x u.queue.submitted = givenBy x u.coolerQueue.submitted := by
    intro u
    simp only [givenBy, State.coolerQueue, List.filter_filter]
    congr 1
    refine List.filter_congr fun y _ => ?_
    cases x with
    | line l => exact absurd rfl (hx l)
    | run g => cases h : y.sender <;> simp
    | compartment k => cases h : y.sender <;> simp
  rw [key s, key t, h]

theorem State.queue_of_coolerQueue {s t : State} (h : s.coolerQueue = t.coolerQueue) :
    { s.queue with submitted := t.queue.submitted } = t.queue := by
  have e := congrArg (fun q : CommandQueue => { q with submitted := t.queue.submitted }) h
  exact e

theorem State.permissiveLost_hold (b j : Fin 3) (n : Nat) (v : Bool) :
    ((s.permissiveLost b n v).burners[j]).hold = (s.burners[j]).hold := by
  have hl : ∀ c d, ((s.enterLockout b c d).burners[j]).hold = (s.burners[j]).hold := by
    intro c d; rw [State.enterLockout_burners]; exact BurnerPart.set (x := Burner.hold) b j _ _ rfl
  unfold State.permissiveLost
  split
  · rw [State.setBurnerState_burners, State.modBurner_burners', State.modBurner_burners']
    simp only [Vector.set_set]
    exact BurnerPart.set (x := Burner.hold) b j _ _ (by simp [Burner.clearFiring])
  · exact hl _ _
  · exact hl _ _
  · split
    · exact hl _ _
    · rfl
  · rfl
  · rfl

theorem State.visitPermissives_hold (sel : PermKind → Bool) (j : Fin 3) :
    ((s.visitPermissives sel).burners[j]).hold = (s.burners[j]).hold := by
  have one : ∀ (t : State) b n p, ((t.visitPermissive b n p).burners[j]).hold = (t.burners[j]).hold := by
    intro t b n p
    have hm : ∀ (f : Burner → Burner), (∀ y, (f y).hold = y.hold) →
        ((t.modBurner b f).burners[j]).hold = (t.burners[j]).hold := by
      intro f hf; rw [State.modBurner_burners']; exact BurnerPart.set (x := Burner.hold) b j _ _ (hf _)
    unfold State.visitPermissive; dsimp only; split
    · rw [State.permissiveLost_hold]; exact hm _ fun _ => rfl
    · exact hm _ fun _ => rfl
  have all : ∀ (t : State) (b : Fin 3) (ps : List (Permissive × Nat)),
      ((ps.foldl (fun s pi => if sel pi.1.kind then s.visitPermissive b (pi.2 + 1) pi.1 else s) t).burners[j]).hold =
        (t.burners[j]).hold := by
    intro t b ps
    induction ps generalizing t with
    | nil => rfl
    | cons p ps ih =>
      rw [List.foldl_cons, ih]
      split
      · exact one _ _ _ _
      · rfl
  unfold State.visitPermissives
  generalize indices 3 = bs
  induction bs generalizing s with
  | nil => rfl
  | cons b bs ih =>
    rw [List.foldl_cons, ih]
    split
    · rfl
    · exact all _ _ _

theorem State.setCoolerState_hold (st : CoolerState) (j : Fin 3) :
    ((s.setCoolerState st).burners[j]).hold = (s.burners[j]).hold.put .cooler (st == .safe) := by
  rw [State.setCoolerState, State.visitPermissives_hold, State.setHoldAll_burners]
  simp [State.modCooler]

/-- R91: what the news of the cooler state makes of the other units. -/
theorem State.setCoolerState_told (s' : State) (st : CoolerState) (timer : Option Time)
    (h : s' = s.modCooler fun c => { c with startTimer := timer }) : s.CoolerTold (s'.setCoolerState st) st timer := by
  have e : s'.modCooler (fun c => { c with state := st, lawHeld := false }) =
      { s with cooler := { s.cooler with state := st, startTimer := timer, lawHeld := false } } := by rw [h]; rfl
  have hh := State.setHoldAll_spec
    { s with cooler := { s.cooler with state := st, startTimer := timer, lawHeld := false } } .cooler (st == .safe)
  rw [State.setCoolerState, e]
  generalize State.setHoldAll _ _ _ = held at hh ⊢
  generalize hw : held.visitPermissives _ = told
  exact ⟨held, told, hh, hw.symm, rfl, rfl, rfl, fun _ => rfl⟩

/-- Another state with the same burners, lines, burner accounts and commands of the lines is told as well. -/
theorem State.CoolerTold.congr {s t u : State} {st : CoolerState} {timer : Option Time} (h : s.CoolerTold t st timer)
    (h1 : u.burners = t.burners) (h2 : u.lines = t.lines)
    (h3 : u.shift.record.burners = t.shift.record.burners)
    (h4 : ∀ l, givenBy (.line l) u.queue.submitted = givenBy (.line l) t.queue.submitted) : s.CoolerTold u st timer := by
  obtain ⟨v, w, a, b, c, d, e, f⟩ := h
  exact ⟨v, w, a, b, h1.trans c, h2.trans d, h3.trans e, fun l => (h4 l).trans (f l)⟩

/-- What the entry to a cooler state leaves to its caller: the runs, the start timer and the wait for the law. -/
structure State.Entering (s t : State) (st : CoolerState) (timer : Option Time) (held : Bool) : Prop where
  cooler : t.cooler = { s.cooler with state := st, startTimer := timer, lawHeld := held, runs := t.cooler.runs }
  queue : { t.queue with submitted := s.queue.submitted } = s.queue
  fans : ∀ k : Fin 12,
    givenBy (.compartment k) t.queue.submitted = givenBy (.compartment k) s.queue.submitted
  holds : ∀ b : Fin 3, (t.burners[b]).hold = (s.burners[b]).hold.put .cooler (st == .safe)
  told : s.CoolerTold t st timer
  alarm : t.alarm = s.alarm
  outer : t.outer = s.outer

/-- The change of the state itself, with the start timer that the caller set before. -/
theorem State.entering_set (s' : State) (st : CoolerState) (timer : Option Time) (held : Bool)
    (h : s' = s.modCooler fun c => { c with startTimer := timer }) :
    s.Entering ((s'.setCoolerState st).modCooler fun c => { c with lawHeld := held }) st timer held ∧
      ((s'.setCoolerState st).cooler.runs = s.cooler.runs) ∧
      ∀ g, givenBy (.run g) (s'.setCoolerState st).queue.submitted = givenBy (.run g) s.queue.submitted := by
  have hc := s'.setCoolerState_cooler st
  have hq := s'.setCoolerState_coolerQueue st
  have hh := s'.setCoolerState_hold st
  have ha := unitsKeep_alarm.setCoolerState s' st
  have ho := s'.setCoolerState_outer st
  have hs : s'.coolerQueue = s.coolerQueue := by rw [h]; rfl
  have hs2 : s'.alarm = s.alarm := by rw [h]; rfl
  have hs3 : s'.burners = s.burners := by rw [h]; rfl
  have hs4 : s'.outer = s.outer := by rw [h]; rfl
  have hs5 : s'.cooler = { s.cooler with startTimer := timer } := by rw [h]; rfl
  have ht := s.setCoolerState_told s' st timer h
  generalize s'.setCoolerState st = u at *
  refine ⟨⟨?_, State.queue_of_coolerQueue (hq.trans hs), fun k => ?_, fun b => ?_,
    ht.congr rfl rfl rfl fun _ => rfl, ha.trans hs2, ?_⟩, ?_, fun g => ?_⟩
  · show { u.cooler with lawHeld := held } = _
    rw [hc, hs5]; show _ = { s.cooler with state := st, startTimer := timer, lawHeld := held, runs := u.cooler.runs }
    rw [hc, hs5]
  · exact State.givenBy_coolerQueue (hq.trans hs) (.compartment k) (fun l => by simp)
  · have := hh b; rw [hs3] at this; exact this
  · exact ho.trans hs4
  · rw [hc, hs5]
  · exact State.givenBy_coolerQueue (hq.trans hs) (.run g) (fun l => by simp)

/-- A pass over the runs leaves the entry to the state as it was. -/
theorem State.Entering.withRuns {s t : State} {st : CoolerState} {timer : Option Time} {held : Bool}
    (h : s.Entering t st timer held) (v : Vector Run 4) (f : Fin 4 → List Proposal)
    (ho : (t.withRuns v (t.queue.submitted ++ (indices 4).flatMap fun g => fromRun g (f g))).outer = t.outer) :
    s.Entering (t.withRuns v (t.queue.submitted ++ (indices 4).flatMap fun g => fromRun g (f g))) st timer held := by
  have others : ∀ x : Sender, (∀ g, x ≠ .run g) →
      givenBy x (t.withRuns v (t.queue.submitted ++ (indices 4).flatMap fun g => fromRun g (f g))).queue.submitted =
        givenBy x t.queue.submitted := fun x hx => by
    show givenBy _ (t.queue.submitted ++ _) = _
    rw [givenBy_append, givenBy_others x (indices 4) Sender.run f (fun g _ => (hx g).symm), List.append_nil]
  refine ⟨?_, h.queue, fun k => ?_, h.holds, h.told.congr rfl rfl rfl fun l => others _ fun _ => by simp, h.alarm,
    ho.trans h.outer⟩
  · show { t.cooler with runs := v } = { s.cooler with state := st, startTimer := timer, lawHeld := held, runs := v }
    rw [h.cooler]
  · rw [others _ fun _ => by simp, h.fans]

/-- The entry to a cooler state ends with the speeds of its compartments (R96); the runs are left alone. -/
theorem State.Entering.applyFans {s t : State} {st : CoolerState} {timer : Option Time} {held : Bool}
    (h : s.Entering t st timer held) (force : Bool) :
    s.CoolerEntered (t.applyFans force) st timer held force ∧ (t.applyFans force).cooler.runs = t.cooler.runs ∧
      ∀ g, givenBy (.run g) (t.applyFans force).queue.submitted = givenBy (.run g) t.queue.submitted := by
  have ho := t.applyFans_outer force
  have hu := t.applyFans_eq force
  have hk : t.cooler.compartments = s.cooler.compartments := by rw [h.cooler]
  have hz : t.cooler.zones = s.cooler.zones := by rw [h.cooler]
  generalize t.applyFans force = u at *
  have hc : u.cooler = { t.cooler with
      compartments := Vector.ofFn fun k => (t.fanned force t.cooler.compartments[k]).1 } := by rw [hu]; rfl
  have hs : u.queue.submitted = t.queue.submitted ++
      (indices 12).flatMap fun k => fromFan k (t.fanned force t.cooler.compartments[k]).2 := by rw [hu]; rfl
  have hsp : ∀ e, t.fanSpeed e = u.fanSpeed e := State.fanSpeed_congr (by rw [hc]) (by rw [hc])
  have hf : ∀ k : Fin 12, givenBy (.compartment k) u.queue.submitted =
      givenBy (.compartment k) s.queue.submitted ++ (t.fanned force s.cooler.compartments[k]).2 := fun k => by
    rw [hs, givenBy_append, h.fans, givenBy_each Sender.compartment (fun i j e => by simpa using e)
      (fun k => (t.fanned force t.cooler.compartments[k]).2), hk]
  have others : ∀ x : Sender, (∀ k, x ≠ .compartment k) →
      givenBy x u.queue.submitted = givenBy x t.queue.submitted := fun x hx => by
    rw [hs, givenBy_append, givenBy_others x (indices 12) Sender.compartment
      (fun k => (t.fanned force t.cooler.compartments[k]).2) (fun k _ => (hx k).symm), List.append_nil]
  have hone : ∀ k : Fin 12, u.cooler.compartments[k] = (t.fanned force s.cooler.compartments[k]).1 := fun k => by
    rw [hc, hk]; simp
  refine ⟨⟨?_, ?_, ?_, ⟨?_, ?_⟩, fun k => ?_, fun k e he => ⟨fun h2 => ?_, fun h2 h3 => ?_⟩, fun k he => ?_, ?_,
    fun b => ?_, h.told.congr (by rw [hu]; rfl) (by rw [hu]; rfl) (by rw [hu]; rfl) fun l => others _ fun _ => by simp, ?_,
    ho.trans h.outer⟩, by rw [hc], fun g => ?_⟩
  · rw [hc, h.cooler]
  · rw [hc, h.cooler]
  · rw [hc, h.cooler]
  · rw [hc, h.cooler]
  · rw [hc, h.cooler]
  · have h1 := hone k
    have he : s.compartmentEntry? k = (s.cooler.compartments[k]).entry.filter (·.inUse) := rfl
    rw [h1, he]
    unfold State.fanned
    cases (s.cooler.compartments[k]).entry.filter (·.inUse) with
    | none => rfl
    | some e =>
      dsimp only
      rw [Option.map_some, Option.getD_some, ← hsp]
      split_ifs with h2
      · exact h2.1
      · rfl
  · have he' : (s.cooler.compartments[k]).entry.filter (·.inUse) = some e := he
    have h3 : ¬ ((s.cooler.compartments[k]).speed = u.fanSpeed e ∧ force = false) := by
      rintro ⟨a, b⟩; rw [b] at h2; exact h2.elim (by simp) fun h => h a
    rw [hone, hf]
    unfold State.fanned
    rw [he']; dsimp only; rw [hsp, if_neg h3]
    exact ⟨rfl, rfl⟩
  · have he' : (s.cooler.compartments[k]).entry.filter (·.inUse) = some e := he
    rw [hone, hf]
    unfold State.fanned
    rw [he']; dsimp only; rw [hsp, if_pos ⟨h3, h2⟩]
    exact ⟨rfl, List.append_nil _⟩
  · have he' : (s.cooler.compartments[k]).entry.filter (·.inUse) = none := he
    rw [hone, hf]; unfold State.fanned; rw [he']; exact ⟨rfl, List.append_nil _⟩
  · have h1 : { u.queue with submitted := s.queue.submitted } = { t.queue with submitted := s.queue.submitted } := by
      rw [hu]; rfl
    have h2 := h1.trans h.queue
    exact (congrArg (fun q : CommandQueue => { q with submitted := u.queue.submitted }) h2)
  · have h1 : u.burners = t.burners := by rw [hu]; rfl
    rw [h1]; exact h.holds b
  · have h1 : u.alarm = t.alarm := by rw [hu]; rfl
    rw [h1]; exact h.alarm
  · exact others _ fun _ => by simp

end

end Sys2Proof.Machine
end

