-- ==== Sys2Proof/Laws/Floor.lean ====
section
/-!
SUPPORT. The layout of a round, the check of a round table, and the scanners of lost stations (chapters 1 and 3).
-/
namespace Sys2Proof.Machine

theorem groupsOf_nil (n f : Nat) : groupsOf n f [] = [] := by cases f <;> rfl

theorem groupsOf_more (n : Nat) (hn : 0 < n) : ∀ (f : Nat) (l : List Nat), l.length ≤ f → groupsOf n (f + 1) l =
    groupsOf n f l := by
  intro f
  induction f with
  | zero => intro l h; simp at h; subst h; rfl
  | succ f ih =>
    intro l h
    cases l with
    | nil => rfl
    | cons x xs =>
      show (x :: xs).take n :: groupsOf n (f+1) ((x::xs).drop n) = (x :: xs).take n :: groupsOf n f ((x::xs).drop n)
      rw [ih _ (by simp at h ⊢; omega)]

theorem groupsOf_enough (n : Nat) (hn : 0 < n) (l : List Nat) (f : Nat) (h : l.length ≤ f) : groupsOf n f l =
    groupsOf n l.length l := by
  induction f with
  | zero => simp at h; subst h; rfl
  | succ f ih =>
    by_cases h1 : l.length ≤ f
    · rw [groupsOf_more n hn f l h1, ih h1]
    · have : l.length = f + 1 := by omega
      rw [this]

theorem groupsOf_cons (n : Nat) (hn : 0 < n) (g r : List Nat) (hg : g.length = n) : groupsOf n (g ++ r).length
    (g ++ r) = g :: groupsOf n r.length r := by
  cases g with
  | nil => simp at hg; omega
  | cons x xs =>
    have : ((x :: xs) ++ r).length = (xs ++ r).length + 1 := by simp
    rw [this]
    show ((x :: xs) ++ r).take n :: groupsOf n _ (((x :: xs) ++ r).drop n) = _
    rw [List.take_left' hg, List.drop_left' hg, groupsOf_enough n hn r _ (by simp)]

theorem groupsOf_last (n : Nat) (l : List Nat) (h0 : l ≠ []) (h : l.length ≤ n) : groupsOf n l.length l = [l] := by
  cases l with
  | nil => simp at h0
  | cons x xs =>
    show (x :: xs).take n :: groupsOf n xs.length ((x :: xs).drop n) = _
    rw [List.take_of_length_le h, List.drop_of_length_le h, groupsOf_nil]

theorem RoundTable.slots_length (t : RoundTable) (hg : 0 < t.gap) : ∀ (m : Nat) (o : List Nat), o.length ≤ m →
    (RoundTable.slots { t with ordinary := o }).length = o.length + t.quick.length *
    ((o.length + t.gap - 1) / t.gap) := by
  intro m
  induction m with
  | zero => intro o h; simp at h; subst h; simp [RoundTable.slots, groupsOf]; right; omega
  | succ m ih =>
    intro o h
    rcases Nat.lt_or_ge t.gap o.length with h1 | h1
    · have e : o = o.take t.gap ++ o.drop t.gap := (List.take_append_drop _ _).symm
      have hl : (o.take t.gap).length = t.gap := by simp; omega
      have := ih (o.drop t.gap) (by simp; omega)
      have hs : RoundTable.slots { t with ordinary := o } = t.quick.map (fun x => (x, true)) ++ (o.take t.gap).map
        (fun x => (x, false)) ++ RoundTable.slots { t with ordinary := o.drop t.gap } := by
        conv_lhs => rw [e]
        simp only [RoundTable.slots]
        rw [groupsOf_cons _ hg _ _ hl]; simp
      rw [hs, List.length_append, this]
      have h2 : (o.length + t.gap - 1) / t.gap = ((o.drop t.gap).length + t.gap - 1) / t.gap + 1 := by
        rw [List.length_drop, ← Nat.add_div_right _ hg]; congr 1; omega
      rw [h2]; simp; ring_nf; omega
    · rcases List.eq_nil_or_concat o with h2 | ⟨_, _, h2⟩
      · subst h2; simp [RoundTable.slots, groupsOf]; right; omega
      · have hn : o ≠ [] := by simp [h2]
        have hp : 0 < o.length := List.length_pos_iff.mpr hn
        simp only [RoundTable.slots]; rw [groupsOf_last _ _ hn h1]
        have : (o.length + t.gap - 1) / t.gap = 1 := by
          rw [Nat.div_eq_iff hg]; omega
        rw [this]; simp; omega

theorem RoundTable.valid_iff (t : RoundTable) : t.valid = true ↔ (t.ordinary.Nodup ∧ t.quick.Nodup ∧
    (∀ x ∈ t.quick, x ∉ t.ordinary) ∧ t.quorum ≤ t.ordinary.length ∧
          t.slots.length + t.cmdSlots ≤ 128 ∧ (2 + t.slots.length + t.cmdSlots) * 64 ≤ t.period * 1000) := by
  simp only [RoundTable.valid, Bool.and_eq_true, decide_eq_true_eq, List.all_eq_true, Bool.not_eq_true', and_assoc,
    List.contains_eq_mem, decide_eq_false_iff_not]
  exact Iff.rfl

theorem CauseSet.isEmpty_iff (c : CauseSet) : c.isEmpty = true ↔ c = {} := by
  rcases c with ⟨a, b, c⟩; cases a <;> cases b <;> cases c <;> simp [CauseSet.isEmpty]

theorem LinkStats.count_eq (x : LinkStats) (o : SlotOutcome) : x.count o = x.plus o := by
  cases o <;> rfl

def dropStep (gone : Nat → Bool) (s : State) (b : Fin 3) : State :=
    match s.burnerEntry? b with
    | none => s
    | some e =>
      let gone1 := (s.scannerStation e.scanner1).any gone
      let gone2 := e.scanner2.any fun x => (s.scannerStation x).any gone
      if gone1 || gone2 then
        (s.modBurner b fun x =>
          { x with scanner1 := x.scanner1 && !gone1, scanner2 := x.scanner2 && !gone2 }).evaluateVote b e
      else s

theorem State.dropScanners_eq (gone : Nat → Bool) (s : State) : s.dropScanners gone = (indices 3).foldl
    (dropStep gone) s := rfl

theorem State.dropStep_points (gone : Nat → Bool) (s : State) (b : Fin 3) : (dropStep gone s b).points = s.points := by
  have : (dropStep gone s b).outer = s.outer := by
    unfold dropStep; split
    · rfl
    · dsimp only; split
      · rw [State.evaluateVote_outer]; exact State.modBurner_outer _ _ _ rfl
      · rfl
  exact State.points_of_outer this

theorem State.dropStep_entry (gone : Nat → Bool) (s : State) (b j : Fin 3) : (dropStep gone s b).burnerEntry? j =
    s.burnerEntry? j := by
  have : ((dropStep gone s b).burners[j]).entry = (s.burners[j]).entry := by
    unfold dropStep; split
    · rfl
    · dsimp only; split
      · rw [burnerPart_entry.evaluateVote]; exact BurnerPart.set b j _ _ rfl
      · rfl
  simp only [State.burnerEntry?, this]

theorem State.dropStep_station (gone : Nat → Bool) (s : State) (b : Fin 3) (x : Scanner) :
    (dropStep gone s b).scannerStation x = s.scannerStation x := by
  simp only [State.scannerStation, State.dropStep_points]

theorem State.dropStep_other (gone : Nat → Bool) (s : State) (b j : Fin 3) (h : b ≠ j) :
    ((dropStep gone s b).burners[j]).scanner1 = (s.burners[j]).scanner1 ∧ ((dropStep gone s b).burners[j]).scanner2 =
      (s.burners[j]).scanner2 := by
  have hn : (b : Nat) ≠ j := fun h' => h (Fin.ext h')
  unfold dropStep; split
  · exact ⟨rfl, rfl⟩
  · dsimp only; split
    · rw [burnerPart_scanner1.evaluateVote, burnerPart_scanner2.evaluateVote, State.modBurner_burners']
      simp [Vector.getElem_set_ne _ _ hn]
    · exact ⟨rfl, rfl⟩

theorem State.dropStep_self (gone : Nat → Bool) (s : State) (b : Fin 3) (e : BurnerEntry) (h : s.burnerEntry? b =
    some e) :
    ((dropStep gone s b).burners[b]).scanner1 = ((s.burners[b]).scanner1 && !(s.scannerStation e.scanner1).any gone)
      ∧ ((dropStep gone s b).burners[b]).scanner2 =
      ((s.burners[b]).scanner2 && !e.scanner2.any fun x => (s.scannerStation x).any gone) := by
  unfold dropStep; rw [h]; dsimp only; split
  · rw [burnerPart_scanner1.evaluateVote, burnerPart_scanner2.evaluateVote, State.modBurner_burners']
    simp
  · rename_i hh; simp at hh; simp [hh];

theorem State.dropScanners_spec (gone : Nat → Bool) (s : State) (b : Fin 3) (e : BurnerEntry) (h : s.burnerEntry? b =
    some e) :
    ((s.dropScanners gone).burners[b]).scanner1 =
      ((s.burners[b]).scanner1 && !(s.scannerStation e.scanner1).any gone) ∧
      ((s.dropScanners gone).burners[b]).scanner2 =
      ((s.burners[b]).scanner2 && !e.scanner2.any fun x => (s.scannerStation x).any gone) := by
  rw [State.dropScanners_eq, indices3]
  simp only [List.foldl]
  have three : ∀ b : Fin 3, b = 0 ∨ b = 1 ∨ b = 2 := by decide
  have e1 := State.dropStep_entry gone s 0 b
  have e2 := State.dropStep_entry gone (dropStep gone s 0) 1 b
  rcases three b with hb | hb | hb
  · have s1 := State.dropStep_self gone s 0 e (hb ▸ h)
    have s2 := State.dropStep_other gone (dropStep gone s 0) 1 0 (by decide)
    have s3 := State.dropStep_other gone (dropStep gone (dropStep gone s 0) 1) 2 0 (by decide)
    rw [hb, s3.1, s3.2, s2.1, s2.2]; exact s1
  · have s2 := State.dropStep_self gone (dropStep gone s 0) 1 e (by rw [← hb, e1, h])
    have s1 := State.dropStep_other gone s 0 1 (by decide)
    have s3 := State.dropStep_other gone (dropStep gone (dropStep gone s 0) 1) 2 1 (by decide)
    rw [hb, s3.1, s3.2, s2.1, s2.2, s1.1, s1.2]; simp only [State.dropStep_station, and_self]
  · have s3 := State.dropStep_self gone (dropStep gone (dropStep gone s 0) 1) 2 e (by rw [← hb, e2, e1, h])
    have s2 := State.dropStep_other gone (dropStep gone s 0) 1 2 (by decide)
    have s1 := State.dropStep_other gone s 0 2 (by decide)
    rw [hb, s3.1, s3.2, s2.1, s2.2, s1.1, s1.2]; simp only [State.dropStep_station, and_self]

end Sys2Proof.Machine
end

