-- ==== Sys2Proof/Laws/Invariant.lean ====
section
/-!
SUPPORT. How a property of the queues and the ring is kept: what keeps it through the few operations that change a queue
keeps it through every command and every step. Within an event commands of the fuel and cooler units may wait for the
end of the event; a property that forbids this is restored by `State.finish`.
-/
namespace Sys2Proof.Machine

set_option Elab.async false

/-- R47, R63: a burner in use has one satisfied flag for each of its permissives. -/
def Burner.flagged (x : Burner) : Bool :=
  (x.entry.filter (·.inUse)).all fun e => x.permOk.length == e.permissives.length

/-- The queues and the ring of the part, the commands of an event that wait to be queued, and which burners have their
permissive flags. -/
structure Queues where
  commands : List QueueEntry
  submitted : List Submission
  frames : List TxFrame
  sending : Option TxFrame
  requests : List RxFrame
  ring : List ClosedRecord
  next : Count32
  flagged : Fin 3 → Bool

def State.queues (s : State) : Queues :=
  { commands := s.queue.list, submitted := s.queue.submitted, frames := s.port.txQueue, sending := s.port.sending
    requests := s.port.rxQueue, ring := s.shift.ring, next := s.shift.nextSequence
    flagged := fun b => (s.burners[b]).flagged }

/-- A change of a burner that leaves it its flags is none to the queues. -/
theorem State.modBurner_queues (s : State) (b : Fin 3) (f : Burner → Burner)
    (h : (f s.burners[b]).flagged = (s.burners[b]).flagged) : (s.modBurner b f).queues = s.queues := by
  have key : ∀ j : Fin 3, ((s.modBurner b f).burners[j]).flagged = (s.burners[j]).flagged := fun j => by
    by_cases e : b = j
    · subst e; rw [← h]; simp [State.modBurner]
    · have : (b : Nat) ≠ j := fun e' => e (Fin.ext e')
      simp [State.modBurner, Vector.getElem_set_ne _ _ this]
  unfold State.queues
  rw [Queues.mk.injEq]
  exact ⟨rfl, rfl, rfl, rfl, rfl, rfl, rfl, funext key⟩

/-- A property of the queues and the ring that the operations on them keep, but for a unit's handing of a command to the
queue. -/
structure Calm (P : State → Prop) : Prop where
  same : ∀ {s t : State}, t.queues = s.queues → P s → P t
  propose : ∀ {s : State} (p : Proposal), P s → P (s.propose p)
  offer : ∀ {s : State} (f : TxFrame), P s → P (s.offerFrame f)
  leave : ∀ {s : State} {e : QueueEntry} {rest : List QueueEntry}, s.queue.list = e :: rest → P s → P (s.setCommands rest)
  take : ∀ {s : State}, P s → P s.popRequest
  receive : ∀ {s t : State} (f : RxFrame), t.queues = { s.queues with requests := s.port.rxQueue ++ [f] } →
    s.port.rxQueue.length < Config.receivePlaces → P s → P t
  sent : ∀ {s : State}, P s → P s.frameDone
  flag : ∀ {s t : State} (b : Fin 3),
    t.queues = { s.queues with flagged := Function.update s.queues.flagged b true } → P s → P t
  enter : ∀ {s t : State} (r : ClosedRecord),
    t.queues = { s.queues with ring := enterRing s.shift.ring r, next := s.shift.nextSequence + 1 } →
    r.sequence = s.shift.nextSequence → P s → P t
  collect : ∀ {s t : State} (n : Count32), t.queues = { s.queues with ring := markCollected n s.shift.ring } → P s → P t
  blank : ∀ {s t : State},
    t.queues =
      { commands := [], submitted := [], frames := [], sending := none, requests := [], ring := s.shift.ring
        next := s.shift.nextSequence, flagged := fun _ => true } →
    P s → P t
  fresh : ∀ {t : State}, t.queues = State.reset.queues → P t

/-- A property that commands waiting for the end of the event do not touch either. -/
structure Steady (P : State → Prop) : Prop extends Calm P where
  hand : ∀ {s t : State} (l : List Submission), t.queues = { s.queues with submitted := l } → P s → P t

/-- `P` is kept within an event; `Q` holds between events, and the end of an event restores it. -/
structure Event (P Q : State → Prop) : Prop extends Steady P where
  calm : Calm Q
  weak : ∀ {s : State}, Q s → P s
  done : ∀ {s : State}, P s → Q s.finish

/-- R47: the flags computed for an entry are as many as its permissives. -/
theorem State.freshFlags_flagged (s : State) (x : Burner) :
    ({ x with permOk := s.freshFlags x.entry } : Burner).flagged = true := by
  unfold Burner.flagged State.freshFlags
  dsimp only
  cases x.entry.filter (·.inUse) with
  | none => rfl
  | some e => simp

theorem foldl_kept {P : State → Prop} {α : Type} {f : State → α → State} (h : ∀ s a, P s → P (f s a)) (l : List α)
    {s : State} (hs : P s) : P (l.foldl f s) := by
  induction l generalizing s with
  | nil => exact hs
  | cons a l ih => exact ih (h s a hs)

namespace Calm
variable {P : State → Prop} (k : Calm P) {s : State}
include k

theorem keep {t : State} (h : P s) (e : t.queues = s.queues := by rfl) : P t := k.same e h

theorem modBurner (b f) (h : P s) (hf : ∀ x, (f x).flagged = x.flagged := by exact fun _ => rfl) :
    P (s.modBurner b f) := k.keep h (s.modBurner_queues b f (hf _))

/-- A burner whose flags are as many as its permissives. -/
theorem setBurner (b f) (h : P s) (hf : (f s.burners[b]).flagged = true) : P (s.modBurner b f) := by
  refine k.flag (s := s) b ?_ h
  unfold State.queues
  rw [Queues.mk.injEq]
  refine ⟨rfl, rfl, rfl, rfl, rfl, rfl, rfl, funext fun j => ?_⟩
  by_cases e : j = b
  · subst e; simpa [State.modBurner] using hf
  · have : (b : Nat) ≠ j := fun e' => e (Fin.ext e'.symm)
    simp [State.modBurner, Vector.getElem_set_ne _ _ this, Function.update_of_ne e]

theorem postBurner (b f) (h : P s) : P (s.postBurner b f) := k.keep h
theorem modCooler (f) (h : P s) : P (s.modCooler f) := k.keep h
theorem modFloor (f) (h : P s) : P (s.modFloor f) := k.keep h
theorem post (f) (h : P s) : P (s.post f) := k.keep h
theorem flagRecord (f) (h : P s) : P (s.flagRecord f) := k.keep h
theorem countMark (h : P s) : P s.countMark := k.keep h
theorem drive (x y f) (h : P s) : P (s.drive x y f) := k.keep h
theorem freshReports (h : P s) : P s.freshReports := k.keep h
theorem staged (t n) (h : P s) :
    P ((s.modFloor fun f => { f with staged := some t }).modPort fun p => { p with deferredCommit := some n }) := k.keep h

/-! ### Fuel lines -/

theorem setLineState (l st) (h : P s) : P (s.setLineState l st) := by
  unfold State.setLineState; split
  · exact h
  · exact k.keep h

theorem refreshLineState (l) (h : P s) : P (s.refreshLineState l) := by
  unfold State.refreshLineState; split
  · exact h
  · split
    · exact h
    · exact k.setLineState _ _ h

theorem refreshBurnerLines (b) (h : P s) : P (s.refreshBurnerLines b) := by
  refine foldl_kept (fun s l h => ?_) _ h
  split
  · exact k.refreshLineState l h
  · exact h

theorem setHold (b c v) (h : P s) : P (s.setHold b c v) := k.refreshBurnerLines _ (k.modBurner _ _ h)

theorem setHoldAll (c v) (h : P s) : P (s.setHoldAll c v) := foldl_kept (fun _ b h => k.setHold b c v h) _ h

theorem setFeed (l c) (h : P s) : P (s.setFeed l c) := k.refreshLineState _ (k.keep h)

theorem demandStep (n b) (h : P s) : P (s.demandStep n b) := by
  unfold State.demandStep; split
  · split
    · exact k.modBurner _ _ h
    · exact h
  · exact h

theorem apportionBurner (b) (h : P s) : P (s.apportionBurner b) := by
  unfold State.apportionBurner; split
  · refine foldl_kept (fun s l h => ?_) _ (k.modBurner _ _ h)
    unfold State.setTarget; split
    · split
      · exact k.keep h
      · exact h
    · exact h
  · exact h

theorem deliverLines (p n) (h : P s) : P (s.deliverLines p n) := by
  refine foldl_kept (fun s l h => ?_) _ h
  split
  · split
    · split
      · exact k.keep h
      · exact h
    · exact h
  · exact h

/-! ### Burners -/

theorem setBurnerState (b st) (h : P s) : P (s.setBurnerState b st) := k.refreshBurnerLines _ (k.modBurner _ _ h)

theorem postRunTime (b) (h : P s) : P (s.postRunTime b) := by
  unfold State.postRunTime; split
  · exact k.modBurner _ _ (k.postBurner _ _ h)
  · exact h

theorem enterPurge (b e) (h : P s) : P (s.enterPurge b e) :=
  k.setBurnerState _ _ (k.modBurner _ _ h)

/-! ### The cooler -/

theorem strokeSent (g) (h : P s) : P (s.strokeSent g) := by
  unfold State.strokeSent; dsimp only; split <;> exact k.keep h

theorem deliverRuns (p n) (h : P s) : P (s.deliverRuns p n) := by
  refine foldl_kept (fun s g h => ?_) _ h
  split
  · split
    · exact k.keep h
    · exact h
  · exact h

theorem checkStall (g) (h : P s) : P (s.checkStall g) := by
  unfold State.checkStall; split
  · split
    · exact k.keep h
    · exact h
  · exact h

theorem postRedRiver (h : P s) : P s.postRedRiver := by
  unfold State.postRedRiver; split
  · exact k.keep h
  · exact h

theorem settleRedMark (v) (h : P s) : P (s.settleRedMark v) := by
  unfold State.settleRedMark; split
  · exact k.keep h
  · split
    · exact k.modCooler _ (k.postRedRiver h)
    · exact h

theorem evaluateZones (h : P s) : P s.evaluateZones := by
  unfold State.evaluateZones; split
  · refine k.settleRedMark _ (foldl_kept (fun s z h => ?_) _ h)
    split
    · exact k.keep h
    · exact h
  · exact h

/-! ### Alarms -/

theorem modAlarm (a f) (h : P s) : P (s.modAlarm a f) := k.keep h
theorem modAlarmUnit (f) (h : P s) : P (s.modAlarmUnit f) := k.keep h
theorem leaveRaised (a) (h : P s) : P (s.leaveRaised a) := k.keep h
theorem joinRaised (a) (h : P s) : P (s.joinRaised a) := k.keep h

theorem recordValue (a x) (h : P s) : P (s.recordValue a x) := k.keep h

theorem offerFirstOut (a g) (h : P s) : P (s.offerFirstOut a g) := k.keep h

theorem notice (a) (h : P s) : P (s.notice a) := k.offer _ h

theorem reportAlarmHolds (h : P s) : P s.reportAlarmHolds := foldl_kept (fun _ _ h => k.setHold _ _ _ h) _ h

theorem alarmTo (a e st) (h : P s) : P (s.alarmTo a e st) := k.reportAlarmHolds (k.notice _ (k.keep h))

theorem postRaised (n) (h : P s) : P (s.postRaised n) := by
  unfold State.postRaised; split
  · exact k.keep h
  · exact h

/-! ### Points -/

theorem modPoints {α : Type} (p : α → Fin 256) (f : α → Point → Point) (l : List α) (h : P s) :
    P (l.foldl (fun t a => t.modPoint (p a) (f a)) s) := foldl_kept (fun _ _ h => k.keep h) l h

/-! ### The floor engine -/

theorem reply (n c a) (h : P s) : P (s.reply n c a) := k.offer _ h

theorem answerCommit (r) (h : P s) : P (s.answerCommit r) := by
  unfold State.answerCommit; split
  · exact h
  · exact k.reply _ _ _ (k.keep h)

theorem answerSingle (h : P s) : P s.answerSingle := by
  unfold State.answerSingle; split
  · exact h
  · exact k.reply _ _ _ (k.keep h)

/-- A deferred reply of a commit that has been settled. -/
theorem answered (o : Option Result) (h : P s) : P (o.elim s s.answerCommit) := by
  cases o with
  | none => exact h
  | some r => exact k.answerCommit r h

theorem answerStop (r) (h : P s) : P (s.answerStop r) := by
  unfold State.answerStop; split
  · exact h
  · exact k.reply _ _ _ (k.keep h)

theorem stageCommit (t n) (h : P s) : P (s.stageCommit t n) := k.staged _ _ (k.answerCommit .replaced h)

theorem offerDigest (h : P s) : P s.offerDigest := k.offer _ h

theorem countA (o) (h : P s) : P (s.countA o) := by
  unfold State.countA; dsimp only; split <;> exact k.keep h

theorem countB (o) (h : P s) : P (s.countB o) := by
  unfold State.countB; dsimp only; split <;> exact k.keep h

theorem sendHead (r) (h : P s) : P (s.sendHead r) := by
  unfold State.sendHead; split
  · exact h
  · next e rest hq =>
    have h : P ((s.setCommands rest).drive r.onA r.onB (commandFrame e)) := k.drive _ _ _ (k.leave hq h)
    unfold State.tellSent; split
    · cases State.commandRun _ _
      · exact h
      · exact k.strokeSent _ h
    · exact h

theorem haltedDigest (h : P s) : P s.haltedDigest := by
  unfold State.haltedDigest; split
  · exact h
  · exact k.offerDigest (k.keep h)

/-! ### The shift unit -/

theorem timePostings (h : P s) : P s.timePostings :=
  k.modCooler _ (k.postRedRiver (foldl_kept (fun _ b h => k.postRunTime b h) (indices 3) h))

theorem turnRecord (c n) (h : P s) : P (s.turnRecord c n) :=
  k.enter (s.sealedRecord c) (by unfold State.turnRecord State.recomputeBoundary; rfl) rfl h

theorem closeShift (c n) (h : P s) : P (s.closeShift c n) := by
  have h1 := k.timePostings h
  unfold State.closeShift; dsimp only
  generalize s.timePostings = t at h1 ⊢
  exact k.offer _ (k.turnRecord _ _ h1)

theorem boundaryExpiry (h : P s) : P s.boundaryExpiry := by
  unfold State.boundaryExpiry; split
  · exact k.closeShift _ _ (k.keep h)
  · exact h

/-! ### The plant port -/

theorem gapExpiry (h : P s) : P s.gapExpiry := by
  unfold State.gapExpiry; split
  · exact h
  · exact k.keep h

/-! ### Resets -/

theorem resetBlocks (c x y) (h : P s) : P (s.resetBlocks c x y).freshPermissives := by
  refine k.blank (s := s) ?_ h
  rw [State.freshPermissives_eq]
  unfold State.queues
  rw [Queues.mk.injEq]
  refine ⟨rfl, rfl, rfl, rfl, rfl, rfl, rfl, funext fun b => ?_⟩
  simp only [Fin.getElem_fin, Vector.getElem_map]
  exact State.freshFlags_flagged _ _

theorem powerOn (x y) : P (s.powerOn x y) := k.fresh rfl

end Calm

namespace Steady
variable {P : State → Prop} (k : Steady P) {s : State}
include k

/-- A unit hands a command to the queue. -/
theorem submit (x p) (h : P s) : P (s.submit x p) := k.hand _ rfl h

/-! ### Fuel lines -/

theorem queueFeed (l c) (h : P s) : P (s.queueFeed l c) := by
  unfold State.queueFeed; split
  · exact h
  · exact k.submit _ _ (k.keep h)

theorem queueIgniter (l c) (h : P s) : P (s.queueIgniter l c) := by
  unfold State.queueIgniter; split
  · exact h
  · exact k.submit _ _ (k.keep h)

theorem changeFeed (l c) (h : P s) : P (s.changeFeed l c) := by
  unfold State.changeFeed; split
  · exact h
  · exact k.queueFeed _ _ (k.setFeed _ _ h)

theorem setIgniter (l v c) (h : P s) : P (s.setIgniter l v c) :=
  k.queueIgniter _ _ (k.refreshLineState _ (k.keep h))

theorem changeIgniter (l v) (h : P s) : P (s.changeIgniter l v) := by
  unfold State.changeIgniter; split
  · exact h
  · exact k.setIgniter _ _ _ h

theorem rampLine (n l) (h : P s) : P (s.rampLine n l) := by
  unfold State.rampLine; split
  · exact h
  · split
    · exact h
    · split
      · exact k.changeFeed _ _ h
      · exact h

theorem refreshLine (l) (h : P s) : P (s.refreshLine l) := by
  unfold State.refreshLine; split
  · exact h
  · split
    · split
      · exact k.queueFeed _ _ h
      · exact k.queueIgniter _ _ h
    · exact h

theorem fuelMark (n) (h : P s) : P (s.fuelMark n) :=
  foldl_kept (fun _ l h => k.refreshLine l (k.rampLine n l h)) _
    (foldl_kept (fun _ b h => k.apportionBurner b (k.demandStep n b h)) _ h)

/-! ### Burners -/

theorem stopLine (b c l) (h : P s) : P (s.stopLine b c l) := by
  unfold State.stopLine; split
  · exact h
  · split
    · exact h
    · split
      · exact k.queueFeed _ _ (k.setFeed _ _ (k.keep h))
      · split
        · split
          · exact k.setIgniter _ _ _ h
          · exact k.changeIgniter _ _ h
        · exact h

theorem stopLines (b c) (h : P s) : P (s.stopLines b c) :=
  k.modBurner _ _ (foldl_kept (fun _ l h => k.stopLine b c l h) (indices 6) h)

theorem stopBurner (b) (h : P s) : P (s.stopBurner b) :=
  k.setBurnerState _ _ (k.modBurner _ _ (k.stopLines b .control (k.postRunTime b h)))

theorem enterLockout (b c d) (h : P s) : P (s.enterLockout b c d) := by
  unfold State.enterLockout
  have h1 := k.postRunTime b (k.modBurner b (fun x => { x with lockout := some (s.lockoutRecord b c d) }) h)
  exact k.postBurner _ _ (k.setBurnerState b .lockout (k.modBurner _ _ (k.stopLines b .trip h1)))

theorem tripBurner (b a) (h : P s) : P (s.tripBurner b a) := by
  unfold State.tripBurner; split
  · exact k.enterLockout _ _ _ h
  · exact h

theorem enterLightoff (b e v) (h : P s) : P (s.enterLightoff b e v) := by
  unfold State.enterLightoff; split
  · exact k.enterLockout _ _ _ h
  · exact k.queueFeed _ _ (k.setFeed _ _ (k.setBurnerState _ _ (k.modBurner _ _ h)))

theorem enterRun (b e) (h : P s) : P (s.enterRun b e) := by
  unfold State.enterRun
  have off : P (match s.ignitionLine b with | some l => s.changeIgniter l false | none => s) := by
    split
    · exact k.changeIgniter _ _ h
    · exact h
  exact k.postBurner _ _ (k.setBurnerState b .run (k.modBurner _ _ off))

theorem permissiveLost (b n r) (h : P s) : P (s.permissiveLost b n r) := by
  unfold State.permissiveLost
  split
  · exact k.setBurnerState _ _ (k.modBurner _ _ (k.modBurner _ _ h))
  · exact k.enterLockout _ _ _ h
  · exact k.enterLockout _ _ _ h
  · split
    · exact k.enterLockout _ _ _ h
    · exact h
  · exact h
  · exact h

theorem visitPermissive (b n p) (h : P s) : P (s.visitPermissive b n p) := by
  have h1 : P (s.modBurner b fun x => { x with permOk := x.permOk.set (n - 1) (s.permissiveMet p.kind) }) :=
    k.modBurner _ _ h fun x => by simp [Burner.flagged]
  unfold State.visitPermissive; dsimp only; split
  · exact k.permissiveLost _ _ _ h1
  · exact h1

theorem visitPermissives (f) (h : P s) : P (s.visitPermissives f) := by
  refine foldl_kept (fun s b h => ?_) _ h
  split
  · exact h
  · refine foldl_kept (fun s p h => ?_) _ h
    split
    · exact k.visitPermissive _ _ _ h
    · exact h

theorem actOnVote (b e) (h : P s) : P (s.actOnVote b e) := by
  unfold State.actOnVote; dsimp only
  split
  · split
    · exact k.enterLockout _ _ _ h
    · exact h
  · split
    · exact k.enterLightoff _ _ _ (k.modBurner _ _ h)
    · exact h
  · split
    · exact k.modBurner _ _ h
    · split
      · exact k.enterLockout _ _ _ h
      · exact h
  · split
    · exact k.enterLockout _ _ _ h
    · exact h
  · exact h
  · exact h

theorem evaluateVote (b e) (h : P s) : P (s.evaluateVote b e) :=
  k.actOnVote _ _ (k.modBurner _ _ h fun x => by unfold Burner.takeVote; split <;> rfl)

theorem scannerEvents (st n) (h : P s) : P (s.scannerEvents st n) := by
  refine foldl_kept (fun s b h => ?_) _ h
  unfold State.scannerEvent; split
  · exact h
  · split
    · exact k.evaluateVote _ _ (k.modBurner _ _ h)
    · exact h

theorem dropScanners (f) (h : P s) : P (s.dropScanners f) := by
  refine foldl_kept (fun s b h => ?_) _ h
  split
  · exact h
  · dsimp only; split
    · exact k.evaluateVote _ _ (k.modBurner _ _ h)
    · exact h

theorem purgeExpiry (b) (h : P s) : P (s.purgeExpiry b) := by
  unfold State.purgeExpiry; split
  · unfold State.purgeEnds; split
    · split
      · split
        · exact k.enterLockout _ _ _ (k.keep h)
        · exact k.changeIgniter _ _ (k.setBurnerState _ _ (k.modBurner _ _ (k.keep h)))
      · exact k.enterLockout _ _ _ (k.keep h)
    · split
      · exact k.enterLightoff _ _ _ (k.keep h)
      · exact k.enterLockout _ _ _ (k.keep h)
  · exact h

theorem trialExpiry (b) (h : P s) : P (s.trialExpiry b) := by
  unfold State.trialExpiry; split
  · exact k.enterLockout _ _ _ (k.keep h)
  · split
    · exact h
    · exact k.enterLockout _ _ _ (k.keep h)
  · exact h

theorem lightoffExpiry (b) (h : P s) : P (s.lightoffExpiry b) := by
  unfold State.lightoffExpiry; split
  · split
    · exact k.enterRun _ _ (k.keep h)
    · exact h
  · exact h

/-! ### Line faults -/

theorem faultLine (l c) (h : P s) : P (s.faultLine l c) := by
  unfold State.faultLine; split
  · exact h
  · split
    · exact h
    · dsimp only
      split
      · refine k.enterLockout _ _ _ ?_
        split
        · exact k.queueFeed _ _ (k.setLineState _ _ (k.setFeed _ _ (k.keep h)))
        · exact k.queueIgniter _ _ (k.setLineState _ _ (k.keep h))
      · split
        · exact k.queueFeed _ _ (k.setLineState _ _ (k.setFeed _ _ (k.keep h)))
        · exact k.queueIgniter _ _ (k.setLineState _ _ (k.keep h))

theorem checkFaultBits (ps) (h : P s) : P (s.checkFaultBits ps) := by
  refine foldl_kept (fun s l h => ?_) _ h
  split
  · split
    · exact k.faultLine _ _ h
    · exact h
  · exact h

theorem checkAbsences (h : P s) : P s.checkAbsences := by
  refine foldl_kept (fun s l h => ?_) _ h
  split
  · split
    · exact k.faultLine _ _ h
    · exact h
  · exact h

theorem doseExpiry (l) (h : P s) : P (s.doseExpiry l) := by
  unfold State.doseExpiry; split
  · exact k.submit _ _ (k.keep h)
  · exact h

theorem deviationExpiry (l) (h : P s) : P (s.deviationExpiry l) := by
  unfold State.deviationExpiry; split
  · dsimp only; split
    · split
      · exact k.faultLine _ _ (k.keep h)
      · exact k.keep h
    · exact k.keep h
  · exact h

theorem operatorFeed (l e v) (h : P s) : P (s.operatorFeed l e v).1 := by
  unfold State.operatorFeed; split
  · exact h
  · exact h
  · exact k.changeFeed _ _ h

/-! ### The cooler -/

theorem queueRate (g) (h : P s) : P (s.queueRate g) := by
  unfold State.queueRate; split
  · exact h
  · exact k.submit _ _ (k.keep h)

theorem setRate (g r) (h : P s) : P (s.setRate g r) := by
  unfold State.setRate; split
  · exact h
  · dsimp only; split
    · exact k.keep h
    · exact k.queueRate _ (k.keep h)

theorem startStroking (g r) (h : P s) : P (s.startStroking g r) := k.queueRate _ (k.keep h)

theorem applyLaw (g) (h : P s) : P (s.applyLaw g) := by
  unfold State.applyLaw; split
  · exact h
  · split
    · exact k.setRate _ _ h
    · exact h

theorem pressureChanged (ps) (h : P s) : P (s.pressureChanged ps) := by
  refine foldl_kept (fun s g h => ?_) _ h
  split
  · exact k.applyLaw _ h
  · exact h

theorem queueFan (c) (h : P s) : P (s.queueFan c) := by
  unfold State.queueFan; split
  · exact h
  · exact k.submit _ _ (k.keep h)

theorem applyFan (v c) (h : P s) : P (s.applyFan v c) := by
  unfold State.applyFan; split
  · exact k.keep h
  · dsimp only; split
    · exact h
    · exact k.queueFan _ (k.keep h)

theorem applyFans (v) (h : P s) : P (s.applyFans v) := foldl_kept (fun _ c h => k.applyFan v c h) _ h

theorem setCoolerState (st) (h : P s) : P (s.setCoolerState st) :=
  k.visitPermissives _ (k.setHoldAll _ _ (k.keep h))

theorem coolerStarts (h : P s) : P s.coolerStarts := k.applyFans _ (k.setCoolerState _ (k.keep h))

theorem coolerRuns (h : P s) : P s.coolerRuns := by
  unfold State.coolerRuns; dsimp only
  refine k.applyFans _ (foldl_kept (fun s g h => ?_) _ (k.modCooler _ (k.setCoolerState _ (k.keep h))))
  split
  · exact h
  · exact k.startStroking _ _ h

theorem startExpiry (h : P s) : P s.startExpiry := by
  unfold State.startExpiry; split
  · exact k.coolerRuns (k.keep h)
  · exact h

theorem coolerToSafe (h : P s) : P s.coolerToSafe := by
  unfold State.coolerToSafe; split
  · refine k.applyFans _ (foldl_kept (fun s g h => ?_) _ (k.setCoolerState _ (k.keep h)))
    split
    · exact h
    · exact k.startStroking _ _ h
  · split
    · refine k.applyFans _ (foldl_kept (fun s g h => ?_) _ (k.setCoolerState _ h))
      split
      · exact h
      · split
        · exact k.setRate _ _ h
        · exact h
    · exact h

theorem coolerLeavesSafe (h : P s) : P s.coolerLeavesSafe := by
  refine k.applyFans _ (foldl_kept (fun s g h => ?_) _ (k.setCoolerState _ h))
  split
  · exact h
  · unfold State.runLeavesSafe; split
    · exact k.setRate _ _ h
    · split
      · exact k.setRate _ _ h
      · exact h
    · exact h

theorem coolerStops (h : P s) : P s.coolerStops :=
  k.applyFans _ (foldl_kept (fun _ _ h => k.keep h) _ (k.setCoolerState _ (k.keep h)))

theorem strokeExpiry (g) (h : P s) : P (s.strokeExpiry g) := by
  unfold State.strokeExpiry; split
  · dsimp only; split
    · exact k.keep h
    · exact k.submit _ _ (k.keep h)
  · exact h

theorem refreshRun (g) (h : P s) : P (s.refreshRun g) := by
  unfold State.refreshRun; split
  · exact k.queueRate _ h
  · exact h

theorem refreshCompartment (c) (h : P s) : P (s.refreshCompartment c) := by
  unfold State.refreshCompartment; split
  · exact k.queueFan _ h
  · exact h

theorem coolerMark (h : P s) : P s.coolerMark :=
  foldl_kept (fun _ c h => k.refreshCompartment c (k.applyFan false c h)) _
    (k.evaluateZones (foldl_kept (fun _ g h => k.refreshRun g (k.checkStall g (k.applyLaw g h))) _ (k.keep h)))

/-! ### Alarms -/

theorem act (a x) (h : P s) : P (s.act a x) := by
  cases x
  · exact h
  · exact k.tripBurner _ _ h
  · exact h
  · exact k.faultLine _ _ h
  · exact k.coolerToSafe h

theorem raise (a e) (h : P s) : P (s.raise a e) := by
  have h1 := k.joinRaised a (k.leaveRaised a (k.modAlarm a (fun x => x.newOccurrence s.timeBase) (k.recordValue a e.source h)))
  unfold State.raise; dsimp only
  generalize State.joinRaised _ a = t at h1 ⊢
  have h2 : P (if e.horn then t.modAlarmUnit (fun u => { u with silenced := false }) else t) := by
    split
    · exact k.modAlarmUnit _ h1
    · exact h1
  generalize (if e.horn then t.modAlarmUnit (fun u => { u with silenced := false }) else t) = u at h2 ⊢
  refine k.act _ _ (k.reportAlarmHolds (k.notice _ (k.postRaised _ ?_)))
  split
  · exact k.offerFirstOut _ _ h2
  · exact h2

theorem onDelayEnds (a e) (h : P s) : P (s.onDelayEnds a e) := by
  unfold State.onDelayEnds; dsimp only; split
  · exact k.alarmTo _ _ _ (k.keep h)
  · exact k.raise _ _ (k.keep h)

theorem shelveEnds (a e) (h : P s) : P (s.shelveEnds a e) := by
  unfold State.shelveEnds; dsimp only; split
  · split
    · exact k.alarmTo _ _ _ (k.keep h)
    · exact k.raise _ _ (k.keep h)
  · exact k.alarmTo _ _ _ (k.keep h)

theorem conditionRises (a e) (h : P s) : P (s.conditionRises a e) := by
  unfold State.conditionRises; split
  · split
    · exact h
    · split
      · exact k.onDelayEnds _ _ h
      · exact k.keep h
  · exact k.raise _ _ h
  all_goals exact h

theorem conditionFalls (a e) (h : P s) : P (s.conditionFalls a e) := by
  unfold State.conditionFalls; split
  · exact k.keep h
  · exact k.alarmTo _ _ _ h
  · exact k.alarmTo _ _ _ h
  · exact k.alarmTo _ _ _ h
  · exact h
  · exact h

theorem visitCondition (a e) (h : P s) : P (s.visitCondition a e) := by
  unfold State.visitCondition; dsimp only; split
  · exact h
  · split
    · exact k.conditionRises _ _ (k.keep h)
    · exact k.conditionFalls _ _ (k.keep h)

theorem visitAlarm (o a) (h : P s) : P (s.visitAlarm o a) := by
  unfold State.visitAlarm; split
  · exact h
  · split
    · exact k.raise _ _ h
    · exact k.visitCondition _ _ h

theorem fallPass (h : P s) : P s.fallPass := by
  refine foldl_kept (fun s a h => ?_) _ h
  split
  · split
    · exact k.visitCondition _ _ h
    · exact h
  · exact h

theorem alarmPass (h : P s) : P s.alarmPass := foldl_kept (fun _ a h => k.visitAlarm _ a h) _ (k.fallPass h)

theorem settle (h : P s) : P s.settle := by
  have pass : ∀ n (s : State), P s → P (s.settleFor n) := by
    intro n
    induction n with
    | zero => exact fun _ h => h
    | succ n ih =>
      intro s h
      unfold State.settleFor; split
      · exact ih _ (k.alarmPass h)
      · exact h
  exact pass _ _ h

/-- The settling of the queue, and the end of an event. -/
theorem flush (h : P s) : P s.flush := foldl_kept (fun _ p h => k.propose p h) _ (k.hand [] rfl h)

theorem finish (h : P s) : P s.finish := k.flush (k.settle (k.flush (k.settle h)))

theorem onDelayExpiry (a) (h : P s) : P (s.onDelayExpiry a) := by
  unfold State.onDelayExpiry; split
  · exact k.onDelayEnds _ _ (k.keep h)
  · exact h

theorem shelveExpiry (a) (h : P s) : P (s.shelveExpiry a) := by
  unfold State.shelveExpiry; split
  · exact k.shelveEnds _ _ (k.keep h)
  · exact h

/-! ### Points -/

theorem pointsChanged (ps) (h : P s) : P (s.pointsChanged ps) := by
  unfold State.pointsChanged; split
  · exact h
  · exact (k.pressureChanged _ (k.checkFaultBits _ (k.visitPermissives _ h)))

theorem takeAnswer (st ws) (h : P s) : P (s.takeAnswer st ws) := by
  unfold State.takeAnswer; dsimp only
  refine foldl_kept (fun s f h => k.deliverRuns _ _ (k.deliverLines _ _ h)) _ (k.settle (k.pointsChanged _ ?_))
  split
  · exact k.flagRecord _ (k.modPoints _ _ _ h)
  · exact k.modPoints _ _ _ h

theorem agePoints (h : P s) : P s.agePoints := k.pointsChanged _ (k.modPoints id _ _ h)

/-! ### The floor engine -/

theorem activate (t) (h : P s) : P (s.activate t) := k.dropScanners _ (k.keep h)

theorem commitStaged (h : P s) : P s.commitStaged.1 := by
  unfold State.commitStaged; split
  · exact h
  · dsimp only; split
    · exact k.keep h
    · exact k.activate _ (k.keep h)

theorem settleCommit (h : P s) : P s.settleCommit := k.answered _ (k.commitStaged h)

theorem openRound (h : P s) : P s.openRound := by
  have h : P ((s.modFloor fun f => { f with roundNo := f.roundNo + 1 }).settleCommit) := k.settleCommit (k.keep h)
  unfold State.openRound; dsimp only; split
  · exact h
  · exact k.keep h

theorem haltFloor (h : P s) : P s.haltFloor := by
  unfold State.haltFloor State.reportQuorum
  exact k.setHoldAll _ _ (k.modFloor _ h)

end Steady

namespace Event
variable {P Q : State → Prop} (k : Event P Q) {s : State}
include k

/-! ### Points -/

theorem writePoint (p e) (h : Q s) : Q (s.writePoint p e) := k.done (k.pointsChanged _ (k.keep (k.weak h)))

theorem forcePoint (p v) (h : Q s) : Q (s.forcePoint p v) := k.done (k.pointsChanged _ (k.keep (k.weak h)))

theorem unforcePoint (p) (h : Q s) : Q (s.unforcePoint p) := k.done (k.pointsChanged _ (k.keep (k.weak h)))

/-! ### The floor engine -/

theorem markWork (h : P s) : Q s.markWork :=
  k.calm.offerDigest (k.done (k.coolerMark (k.fuelMark _ (k.agePoints (k.keep h)))))

theorem issueMark (h : P s) : Q s.issueMark := k.markWork (k.openRound (k.countMark h))

theorem roundMark (h : Q s) : Q s.roundMark := by
  unfold State.roundMark; split
  · exact k.issueMark (k.keep (k.weak h))
  · exact h

theorem handOn (st q m) (h : Q s) : Q (s.handOn st q m) := by
  unfold State.handOn; split
  · refine k.done ?_
    split
    · exact k.scannerEvents _ _ (k.takeAnswer _ _ (k.weak h))
    · exact k.takeAnswer _ _ (k.weak h)
  · split
    · exact k.done (k.dropScanners _ (k.weak h))
    · exact h

theorem stationSlot (r st q rest x y) (h : Q s) : Q (s.stationSlot r st q rest x y) := by
  have h1 := k.calm.drive r.onA r.onB (callFrame st) h
  unfold State.stationSlot; dsimp only
  generalize s.drive r.onA r.onB (callFrame st) = t at h1 ⊢
  generalize (if r.onA then some (judgeBytes st x) else none) = a
  generalize (if r.onB then some (judgeBytes st y) else none) = b
  refine k.handOn _ _ _ ?_
  have placed : ∀ {v : State} {f g}, Q v → Q (if outcomesDisagree a b then (v.modFloor f).modFloor g else v.modFloor f) := by
    intro v f g hv
    split
    · exact k.calm.modFloor _ (k.calm.modFloor _ hv)
    · exact k.calm.modFloor _ hv
  cases a with
  | none =>
    cases b with
    | none => exact placed h1
    | some y => exact placed (k.calm.countB _ h1)
  | some x =>
    cases b with
    | none => exact placed (k.calm.countA _ h1)
    | some y => exact placed (k.calm.countB _ (k.calm.countA _ h1))

theorem slotOutcome (n x y) (h : Q s) : Q (s.slotOutcome n x y) := by
  unfold State.slotOutcome; split
  · exact h
  · split
    · exact h
    · exact k.stationSlot _ _ _ _ _ _ (k.calm.keep h)

theorem roundJudgement (h : Q s) : Q s.roundJudgement := by
  unfold State.roundJudgement; split
  · split
    · exact k.done (k.checkAbsences (k.setHoldAll _ _ (k.keep (k.weak h))))
    · exact h
  · exact h

theorem halt (h : P s) : Q s.halt := by
  have h1 := k.commitStaged (k.haltFloor h)
  unfold State.halt
  generalize s.haltFloor.commitStaged = c at h1
  dsimp only
  exact k.calm.answerStop _ (k.calm.answered _ (k.calm.answerSingle (k.calm.offerDigest (k.done h1))))

theorem settleStop (h : Q s) : Q s.settleStop := by
  unfold State.settleStop; split
  · exact k.halt (k.weak h)
  · exact k.calm.answerStop _ (k.calm.keep h)

theorem endRound (h : Q s) : Q s.endRound := by
  unfold State.endRound; split
  · exact k.halt (k.weak h)
  · split
    · exact k.settleStop h
    · exact h

theorem commandSlot (n) (h : Q s) : Q (s.commandSlot n) := by
  unfold State.commandSlot; split
  · exact h
  · split
    · dsimp only; split
      · exact k.endRound (k.calm.sendHead _ (k.calm.keep h))
      · exact k.calm.sendHead _ (k.calm.keep h)
    · exact h

theorem takeStop (n) (h : Q s) : Q (s.takeStop n) := by
  unfold State.takeStop; dsimp only; split
  · exact k.settleStop (k.calm.keep h)
  · exact k.calm.keep h

/-! ### The plant port -/

theorem endSilence (h : Q s) : Q s.endSilence := by
  unfold State.endSilence; split
  · exact k.done (k.setHoldAll _ _ (k.keep (k.weak h)))
  · exact h

theorem silenceExpiry (h : Q s) : Q s.silenceExpiry := by
  unfold State.silenceExpiry; split
  · exact h
  · exact k.done (k.setHoldAll _ _ (k.keep (k.weak h)))

theorem goodFrame (f) (h : Q s) : Q (s.goodFrame f) := by
  refine k.endSilence ?_
  by_cases hr : s.port.rxQueue.length < Config.receivePlaces
  · exact k.calm.receive f (by simp [State.queues, State.modPort, hr]) hr h
  · exact k.calm.keep h (by simp [State.queues, State.modPort, hr])

theorem completeFrame (cs v) (h : Q s) : Q (s.completeFrame cs v) := by
  unfold State.completeFrame; dsimp only; split
  · exact h
  · split
    · exact k.calm.keep h
    · exact k.goodFrame _ h

theorem keepChar (p c v) (h : Q s) : Q (s.keepChar p c v) := by
  unfold State.keepChar; dsimp only; split
  · exact k.completeFrame _ _ (k.calm.keep h)
  · exact k.calm.keep h

theorem takeChar (c) (h : Q s) : Q (s.takeChar c) := by
  unfold State.takeChar; split
  · split <;> exact k.calm.keep h
  · exact k.calm.keep h
  · unfold State.goodCharInside; split
    · exact k.calm.keep h
    · split
      · exact k.calm.keep h
      · exact k.keepChar _ _ _ h
  · unfold State.badCharInside; split
    · exact k.calm.keep h
    · exact k.keepChar _ _ _ (k.calm.keep h)

/-! ### Resets -/

theorem resetPart (c x y) (h : Q s) : Q (s.resetPart c x y) := by
  have h1 := k.timePostings (k.weak h)
  unfold State.resetPart State.resetWork; dsimp only
  generalize s.timePostings = t at h1 ⊢
  exact k.done (k.freshReports (k.offerDigest (k.turnRecord _ _ (k.resetBlocks c x y h1))))

end Event

end Sys2Proof.Machine
end

