-- ==== Sys2Proof/Laws/Port.lean ====
section
/-!
SUPPORT. The bytes of frames and answers, and requests that are judged before their owner (chapters 9 and 10).
-/
namespace Sys2Proof.Machine

/-! ### Frames -/

theorem frameBytes_length (kind : Byte) (payload : List Byte) : (frameBytes kind payload).length =
    payload.length + 4 := by
  unfold frameBytes; simp [beBytes]

theorem frameBytes_second (kind : Byte) (payload : List Byte) (h : payload.length ≤ 250) :
    ((frameBytes kind payload).getD 1 0).toNat = payload.length := by
  unfold frameBytes; simp; omega

theorem frameComplete_prefix (kind : Byte) (payload : List Byte) (h : payload.length ≤ 250) (a b : List Byte)
    (hab : a ++ b = frameBytes kind payload) (ha : 2 ≤ a.length) : frameComplete a = decide (b = []) := by
  have hl : a.length + b.length = payload.length + 4 := by rw [← List.length_append, hab, frameBytes_length]
  have hg : (a.getD 1 0).toNat = payload.length := by
    rw [← frameBytes_second kind payload h, ← hab, List.getD_append _ _ _ _ (by omega)]
  unfold frameComplete
  rw [hg]
  cases b with
  | nil => simp at hl; simp; omega
  | cons x b => simp at hl; simp; omega

theorem afterChars_cons (s : State) (x : Time × PlantChar) (xs : List (Time × PlantChar)) (u : State)
    (h : Machine.exec (.characterArrival x.1 x.2) s = .next u) : s.afterChars (x :: xs) = u.afterChars xs := by
  unfold State.afterChars; rw [List.foldl_cons, h]

theorem append_toNat (hi lo : Byte) : (hi ++ lo : BitVec 16).toNat = hi.toNat * 256 + lo.toNat := by
  rw [BitVec.toNat_append, ← Nat.shiftLeft_add_eq_or_of_lt lo.isLt, Nat.shiftLeft_eq]

theorem answerWords_bytes (ws : List Word16) : answerWords (ws.flatMap fun w => beBytes 2 w.toNat) = ws := by
  induction ws with
  | nil => rfl
  | cons w ws ih =>
    rw [List.flatMap_cons]
    show (_ ++ _ : BitVec 16) :: answerWords _ = _
    rw [List.cons_eq_cons]
    refine ⟨?_, ih⟩
    apply BitVec.eq_of_toNat_eq
    have := w.isLt
    rw [append_toNat, BitVec.toNat_ofNat, BitVec.toNat_ofNat]; simp only [pow_one, pow_zero, Nat.div_one]; omega

theorem bytes_answerWords : ∀ (n : Nat) (bs : List Byte), bs.length = 2 * n → (answerWords bs).length = n ∧
    (answerWords bs).flatMap (fun w => beBytes 2 w.toNat) = bs := by
  intro n
  induction n with
  | zero => intro bs h; have : bs = [] := List.eq_nil_of_length_eq_zero (by omega); subst this; exact ⟨rfl, rfl⟩
  | succ n ih =>
    intro bs h
    match bs with
    | hi :: lo :: rest =>
      have := ih rest (by simp at h; omega)
      refine ⟨by simp [answerWords, this.1], ?_⟩
      show List.flatMap _ ((hi ++ lo : BitVec 16) :: answerWords rest) = _
      rw [List.flatMap_cons, this.2, append_toNat]
      show [BitVec.ofNat 8 ((hi.toNat * 256 + lo.toNat) / 256 ^ 1),
        BitVec.ofNat 8 ((hi.toNat * 256 + lo.toNat) / 256 ^ 0)] ++ rest = [hi, lo] ++ rest
      congr 1
      have h1 := hi.isLt; have h2 := lo.isLt
      rw [List.cons_eq_cons, List.cons_eq_cons]
      refine ⟨?_, ?_, rfl⟩ <;> apply BitVec.eq_of_toNat_eq <;> rw [BitVec.toNat_ofNat] <;> omega
    | [_] => simp at h; omega
    | [] => simp at h

theorem beBytes_length (k n : Nat) : (beBytes k n).length = k := by
  induction k generalizing n with
  | zero => rfl
  | succ k ih => simp [beBytes, ih]

theorem wordBytes_length (ws : List Word16) : (ws.flatMap fun w => beBytes 2 w.toNat).length = 2 * ws.length := by
  induction ws with
  | nil => rfl
  | cons w ws ih => rw [List.flatMap_cons, List.length_append, ih, beBytes_length]; simp; omega

/-! ### Requests -/

theorem need_of {is : List Item} {tag : Nat} {v lo hi : Int} (h : intOf is tag = some v) :
    need is tag lo hi = if lo ≤ v ∧ v ≤ hi then some v else none := by
  unfold need; rw [h, Option.filter]; simp [Bool.and_eq_true]

theorem needNat_of {is : List Item} {tag lo hi : Nat} {v : Int} (h : intOf is tag = some v) :
    needNat is tag lo hi = if (lo : Int) ≤ v ∧ v ≤ (hi : Int) then some v.toNat else none := by
  unfold needNat; rw [need_of h]; split <;> rfl

theorem objectIndex_out {n : Nat} {b i : Int} (h : i < b ∨ b + n ≤ i) : objectIndex n b i = none := by
  unfold objectIndex; rw [dif_neg]; omega

theorem withObject_out {n : Nat} {b i : Int} {is : List Item} (hi : intOf is 1 = some i) (h : i < b ∨ b + n ≤ i)
    (s : State) (f : Fin n → State × Answer) : withObject n b s is f = (s, { result := .badIndex }) := by
  simp [withObject, needObject, hi, objectIndex_out h, refuse]

theorem withBurner_out {i : Int} {is : List Item} (hi : intOf is 1 = some i) (h : i < 1 ∨ 3 < i)
    (s : State) (f : Fin 3 → BurnerEntry → State × Answer) : withBurner s is f = (s, { result := .badIndex }) :=
  withObject_out hi (by omega) s _

theorem withLine_out {i : Int} {is : List Item} (hi : intOf is 1 = some i) (h : i < 1 ∨ 6 < i)
    (s : State) (f : Fin 6 → LineEntry → State × Answer) : withLine s is f = (s, { result := .badIndex }) :=
  withObject_out hi (by omega) s _

theorem withRun_out {i : Int} {is : List Item} (hi : intOf is 1 = some i) (h : i < 1 ∨ 4 < i)
    (s : State) (f : Fin 4 → RunEntry → State × Answer) : withRun s is f = (s, { result := .badIndex }) :=
  withObject_out hi (by omega) s _

theorem requestArgs_handled : ∀ x ∈ requestArgs,
    ∃ f, ∀ s, Machine.exec x.1 s = (s.serveKind x.2.1 (withArgs x.2.2 f)).conclude := by
  unfold requestArgs
  rw [List.forall_mem_append]
  constructor
  · repeat refine List.forall_mem_cons.mpr ⟨⟨_, fun s => rfl⟩, ?_⟩
    exact List.forall_mem_nil _
  · repeat refine List.forall_mem_cons.mpr ⟨⟨_, fun s => rfl⟩, ?_⟩
    exact List.forall_mem_nil _

theorem objectArgs_handled : ∀ x ∈ objectArgs, ∃ f : State → List Item → State × Answer,
    (∀ s, Machine.exec x.1 s = (s.serveKind x.2.1 (answering x.2.2.1 f)).conclude) ∧
    ∀ s is n, intOf is 1 = some n → n < x.2.2.2.1 ∨ x.2.2.2.2 < n → f s is = (s, { result := .badIndex }) := by
  unfold objectArgs
  refine List.forall_mem_cons.mpr ⟨⟨_, fun s => rfl, fun s is n h h' => withObject_out h (by dsimp only at *; omega)
    _ _⟩, ?_⟩
  refine List.forall_mem_cons.mpr ⟨⟨_, fun s => rfl, fun s is n h h' => withObject_out h (by dsimp only at *; omega)
    _ _⟩, ?_⟩
  refine List.forall_mem_cons.mpr ⟨⟨_, fun s => rfl, fun s is n h h' => withObject_out h (by dsimp only at *; omega)
    _ _⟩, ?_⟩
  refine List.forall_mem_cons.mpr ⟨⟨_, fun s => rfl, fun s is n h h' => withBurner_out h h' _ _⟩, ?_⟩
  refine List.forall_mem_cons.mpr ⟨⟨_, fun s => rfl, fun s is n h h' => withBurner_out h h' _ _⟩, ?_⟩
  refine List.forall_mem_cons.mpr ⟨⟨_, fun s => rfl, fun s is n h h' => withBurner_out h h' _ _⟩, ?_⟩
  refine List.forall_mem_cons.mpr ⟨⟨_, fun s => rfl, fun s is n h h' => withBurner_out h h' _ _⟩, ?_⟩
  refine List.forall_mem_cons.mpr ⟨⟨_, fun s => rfl, fun s is n h h' => withLine_out h h' _ _⟩, ?_⟩
  refine List.forall_mem_cons.mpr ⟨⟨_, fun s => rfl, fun s is n h h' => withLine_out h h' _ _⟩, ?_⟩
  refine List.forall_mem_cons.mpr ⟨⟨_, fun s => rfl, fun s is n h h' => withLine_out h h' _ _⟩, ?_⟩
  refine List.forall_mem_cons.mpr ⟨⟨_, fun s => rfl, fun s is n h h' => withRun_out h h' _ _⟩, ?_⟩
  refine List.forall_mem_cons.mpr ⟨⟨_, fun s => rfl, fun s is n h h' => withRun_out h h' _ _⟩, ?_⟩
  refine List.forall_mem_cons.mpr ⟨⟨_, fun s => rfl, fun s is n h h' => ?_⟩, ?_⟩
  · rw [needNat_of (lo := 1) (hi := 60) h, if_neg (by dsimp only at *; push_cast; omega)]; rfl
  repeat refine List.forall_mem_cons.mpr ⟨⟨_, fun s => rfl,
    fun s is n h h' => withObject_out h (by dsimp only at *; omega) _ _⟩, ?_⟩
  exact List.forall_mem_nil _

theorem State.serve_none (s : State) (sel : Byte → Bool) (m : Result) (f : Handler) (h : s.requestHead sel = none) :
    s.serve sel m f = s := by unfold State.serve; rw [h]

theorem State.serveKind_none (s : State) (kind : Byte) (f : Handler)
    (h : s.gateOpen = false ∨ ∀ x, s.port.rxQueue.head? = some x → x.kind ≠ kind) : s.serveKind kind f = s := by
  apply s.serve_none
  unfold State.requestHead
  rcases h with h | h
  · simp [h]
  · split
    · cases hq : s.port.rxQueue.head? with
      | none => rfl
      | some x => simp [Option.filter, h x hq]
    · rfl

theorem State.serveKind_missing (s : State) (kind : Byte) (f : Handler) (hg : s.gateOpen = true)
    (hq : s.port.rxQueue.head? = some { kind := kind, payload := [] }) :
    s.serveKind kind f = s.popRequest.missingNumber kind .badFrame := by
  unfold State.serveKind State.serve State.requestHead
  rw [if_pos hg, hq]; simp [Option.filter]

end Sys2Proof.Machine
end

