-- ==== Sys2Proof/Laws/Tables.lean ====
section
/-!
SUPPORT. The checks, writes, clears and reads of the tables, and the cooler's and alarm unit's rewritten entries.
-/
namespace Sys2Proof.Machine

/-! ### Indices -/

theorem objectIndex_base {n : Nat} (b : Nat) (i : Fin n) : objectIndex n (b : Int) ((i.val + b : Nat) : Int) =
    some i := by
  have e : (((i.val + b : Nat) : Int) - b).toNat = i.val := by omega
  have h : (b : Int) ≤ ((i.val + b : Nat) : Int) ∧ (((i.val + b : Nat) : Int) - b).toNat < n :=
    ⟨by omega, by rw [e]; exact i.isLt⟩
  rw [objectIndex, dif_pos h]; simp

theorem objectIndex_none {n m b : Nat} (h : m < b ∨ b + n ≤ m) : objectIndex n (b : Int) (m : Int) = none := by
  unfold objectIndex; rw [dif_neg]; omega

theorem objectIndex_outside {n m : Nat} {b : Int} (h : (m : Int) < b ∨ b + n ≤ m) : objectIndex n b (m : Int) =
    none := by
  unfold objectIndex; rw [dif_neg]; omega

theorem readAt_in {E : Type} {size : Nat} {base : Int} {m : Nat} {n : Fin size}
    (h : objectIndex size base (m : Int) = some n) (get : Fin size → Option E) (items) :
    readAt size base m get items = { result := .done, body := itemOpt items (get n) } := by simp [readAt, h]

theorem readAt_out {E : Type} {size : Nat} {base : Int} {m : Nat} (h : (m : Int) < base ∨ base + size ≤ m)
    (get : Fin size → Option E) (items) :
    readAt size base m get items = { result := .badIndex } := by simp [readAt, objectIndex_outside h]

theorem Table.refuses_of {E : Type} {t : Table} {s : State} {size base : Nat} {build : List Item → Option E}
    {valid busy : Fin size → E → Bool} {kept : Fin size → Bool} {take : Fin size → E → State} {empty : Fin size → State}
    (hw : ∀ n is, t.write s n is = writeAt size base s n t.fields build valid busy take is)
    (hc : ∀ n, t.clear s n = clearAt size base s n kept empty) : t.Refuses s size base build valid busy kept where
  writeIndex n is h := by rw [hw, writeAt, objectIndex_none h]; rfl
  clearIndex n h := by rw [hc, clearAt, objectIndex_none h]; rfl
  fields i is h := by
    rw [hw, writeAt, objectIndex_base]
    rcases h with h | h
    · simp [h, refuse]
    · simp [h, refuse]
  invalid i is e h1 h2 := by
    rw [hw, writeAt, objectIndex_base]
    cases h : entryTakes t.fields is <;> simp [h1, h2, refuse]
  inUse i is e h1 h2 h3 h4 := by
    rw [hw, writeAt, objectIndex_base]
    simp [h1, h2, h3, h4, refuse]
  clearInUse i h := by rw [hc, clearAt, objectIndex_base]; simp [h, refuse]

/-! ### Checks of a write -/

theorem any_indices_iff {n : Nat} {f : Fin n → Bool} : (indices n).any f = true ↔ ∃ i, f i = true := by
  simp [indices]

theorem option_all_iff {α : Type} {o : Option α} {f : α → Bool} : o.all f = true ↔ ∀ x, o = some x → f x = true := by
  cases o <;> simp

theorem State.namesScanner_iff {s : State} {p : Fin 256} {b : Fin 3} : s.namesScanner p b = true ↔
    ∃ x y, s.burnerEntry? b = some x ∧ (y = x.scanner1 ∨ x.scanner2 = some y) ∧ (y.intensity = p ∨ y.flicker = p) := by
  unfold State.namesScanner
  rw [Option.any_eq_true]
  constructor
  · rintro ⟨x, hx, h⟩
    simp only [Bool.or_eq_true, beq_iff_eq, Option.any_eq_true] at h
    rcases h with (h | h) | ⟨y, hy, h⟩
    · exact ⟨x, _, hx, .inl rfl, .inl h⟩
    · exact ⟨x, _, hx, .inl rfl, .inr h⟩
    · exact ⟨x, y, hx, .inr hy, h⟩
  · rintro ⟨x, y, hx, hy, h⟩
    refine ⟨x, hx, ?_⟩
    simp only [Bool.or_eq_true, beq_iff_eq, Option.any_eq_true]
    rcases hy with rfl | hy
    · exact .inl h
    · exact .inr ⟨y, hy, h⟩

theorem State.kindInUse_iff {s : State} {k p} : s.kindInUse k p = true ↔ ∃ x, s.pointEntry? p = some x ∧ x.kind =
    k := by
  simp [State.kindInUse, Option.any_eq_true]

theorem State.scaledInUse_iff {s : State} {p} : s.scaledInUse p = true ↔ ∃ x, s.pointEntry? p = some x ∧
    x.kind.scaled = true := by
  simp [State.scaledInUse, Option.any_eq_true]

theorem State.scannerValid_iff {s : State} {x : Scanner} : s.scannerValid x = true ↔ ∃ i f,
    s.pointEntry? x.intensity = some i ∧
        s.pointEntry? x.flicker = some f ∧ i.kind.scaled = true ∧ f.kind.scaled = true ∧ i.station = f.station ∧
        s.onQuickList i.station = true := by
  unfold State.scannerValid
  simp only [Bool.and_eq_true, State.scaledInUse_iff, beq_iff_eq, Option.any_eq_true]
  constructor
  · rintro ⟨⟨⟨⟨i, h1, h2⟩, ⟨f, h3, h4⟩⟩, h5⟩, j, h6, h7⟩
    rw [h1] at h6; cases h6
    rw [h1, h3] at h5
    exact ⟨i, f, h1, h3, h2, h4, by simpa using h5, h7⟩
  · rintro ⟨i, f, h1, h3, h2, h4, h5, h7⟩
    exact ⟨⟨⟨⟨i, h1, h2⟩, ⟨f, h3, h4⟩⟩, by rw [h1, h3]; simp [h5]⟩, i, h1, h7⟩

theorem forall_scanners {P : Scanner → Prop} {e : BurnerEntry} :
    (∀ x, x = e.scanner1 ∨ e.scanner2 = some x → P x) ↔ P e.scanner1 ∧ ∀ x, e.scanner2 = some x → P x := by
  constructor
  · intro h; exact ⟨h _ (.inl rfl), fun x hx => h x (.inr hx)⟩
  · rintro ⟨h1, h2⟩ x (rfl | hx)
    · exact h1
    · exact h2 x hx

theorem LineKind.isMetered_false {k : LineKind} : k.isMetered = false ↔ k = .ignition :=
    by cases k <;> simp [LineKind.isMetered, LineKind.metering?]

theorem State.chainMeets_iff {s : State} (a : Fin 192) (next : Option (Fin 192) → Option (Fin 192))
     (hn : ∀ p, next p = p.bind fun p => (s.alarm.alarms[p]).entry.bind (·.parent)) (m : Nat) (p : Fin 192) :
    s.chainMeets a m p = true ↔ ∃ n < m, next^[n] (some p) = some a := by
  induction m generalizing p with
  | zero => simp [State.chainMeets]
  | succ m ih =>
    unfold State.chainMeets
    simp only [Bool.or_eq_true, beq_iff_eq, Option.any_eq_true]
    have hs : next (some p) = (s.alarmAt p).entry.bind (·.parent) := hn _
    have hnone : ∀ n, next^[n] none = none := by
      intro n; induction n with
      | zero => rfl
      | succ n ih => rw [Function.iterate_succ_apply, hn]; exact ih
    constructor
    · rintro (h | ⟨q, h1, h2⟩)
      · exact ⟨0, by omega, by simp [h]⟩
      · obtain ⟨n, h3, h4⟩ := (ih q).mp h2
        exact ⟨n + 1, by omega, by rw [Function.iterate_succ_apply, hs, h1, h4]⟩
    · rintro ⟨n, h1, h2⟩
      cases n with
      | zero => left; simpa using h2
      | succ n =>
        right
        rw [Function.iterate_succ_apply, hs] at h2
        cases hq : (s.alarmAt p).entry.bind (·.parent) with
        | none => rw [hq, hnone] at h2; simp at h2
        | some q => rw [hq] at h2; exact ⟨q, rfl, (ih q).mpr ⟨n, by omega, h2⟩⟩

theorem State.lineClash_iff {s : State} {l : Fin 6} {e : LineEntry} : s.lineClash l e = false ↔ ∀ k x, k ≠ l →
    s.lineEntry? k = some x → x.station ≠ e.station ∧
        ∀ m m', e.kind.metering? = some m → x.kind.metering? = some m' → x.burner = e.burner →
          m.priority ≠ m'.priority := by
  unfold State.lineClash
  rw [Bool.eq_false_iff, ne_eq, any_indices_iff]
  simp only [Bool.and_eq_true, bne_iff_ne, Option.any_eq_true, Bool.or_eq_true, beq_iff_eq, not_exists, not_and]
  have hp : ∀ x : LineEntry, samePriority e x = true ↔ ∃ m m', e.kind.metering? = some m ∧ x.kind.metering? =
    some m' ∧ x.burner = e.burner ∧ m.priority = m'.priority := by
    intro x
    unfold samePriority
    cases h1 : e.kind.metering? with
    | none => simp
    | some m => cases h2 : x.kind.metering? with
      | none => simp
      | some m' => simp [eq_comm (a := e.burner)]
  constructor
  · intro h k x h1 h2
    have := h k h1 x h2
    rw [hp] at this
    refine ⟨fun h => this (.inl h), fun m m' h3 h4 h5 h6 => this (.inr ⟨m, m', h3, h4, h5, h6⟩)⟩
  · intro h k h1 x h2
    obtain ⟨h3, h4⟩ := h k x h1 h2
    rw [hp]
    rintro (h | ⟨m, m', h5, h6, h7, h8⟩)
    · exact h3 h
    · exact h4 m m' h5 h6 h7 h8

/-! ### Rewritten zones, alarms and compartments -/

/-- A part of the state that the fans leave alone. -/
structure FanKeeps {β : Type} (x : State → β) : Prop where
  submit : ∀ (s : State) y p, x (s.submit y p) = x s
  comp : ∀ (s : State) k f, x (s.modCompartment k f) = x s

theorem FanKeeps.queueFan {β : Type} {x : State → β} (h : FanKeeps x) (s : State) (k) : x (s.queueFan k) = x s := by
  unfold State.queueFan; split
  · rfl
  · rw [h.submit, h.comp]

theorem FanKeeps.applyFan {β : Type} {x : State → β} (h : FanKeeps x) (s : State) (v k) : x (s.applyFan v k) = x s := by
  unfold State.applyFan
  split
  · rw [h.comp]
  · simp only; split
    · rfl
    · rw [h.queueFan, h.comp]

theorem FanKeeps.applyFans {β : Type} {x : State → β} (h : FanKeeps x) (s : State) (v) : x (s.applyFans v) = x s :=
  foldl_keeps (fun s i => h.applyFan s v i) s _

theorem FanKeeps.zones : FanKeeps (fun s => s.cooler.zones) := ⟨fun _ _ _ => rfl, fun _ _ _ => rfl⟩

theorem FanKeeps.redMark : FanKeeps (fun s => s.cooler.redMark) := ⟨fun _ _ _ => rfl, fun _ _ _ => rfl⟩

theorem FanKeeps.coolerState : FanKeeps (fun s => s.cooler.state) := ⟨fun _ _ _ => rfl, fun _ _ _ => rfl⟩

theorem FanKeeps.alarm : FanKeeps State.alarm := ⟨fun _ _ _ => rfl, fun _ _ _ => rfl⟩

theorem FanKeeps.burners : FanKeeps State.burners := ⟨fun _ _ _ => rfl, fun _ _ _ => rfl⟩

theorem State.anyZoneActive_congr {s t : State} (h : s.cooler.zones = t.cooler.zones) : s.anyZoneActive =
    t.anyZoneActive := by
  simp [State.anyZoneActive, State.usedZones, State.zoneEntry?, h]

theorem State.settleRedMark_zones (s : State) (v) : (s.settleRedMark v).cooler.zones = s.cooler.zones := by
  unfold State.settleRedMark State.postRedRiver; split_ifs <;> (try split) <;> rfl

theorem State.settleRedMark_alarm (s : State) (v) : (s.settleRedMark v).alarm = s.alarm := by
  unfold State.settleRedMark State.postRedRiver; split_ifs <;> (try split) <;> rfl

theorem State.settleRedMark_burners (s : State) (v) : (s.settleRedMark v).burners = s.burners := by
  unfold State.settleRedMark State.postRedRiver; split_ifs <;> (try split) <;> rfl

theorem State.settleRedMark_coolerState (s : State) (v) : (s.settleRedMark v).cooler.state = s.cooler.state := by
  unfold State.settleRedMark State.postRedRiver; split_ifs <;> (try split) <;> rfl

theorem State.emptyZone_zones (s : State) (z e) : (s.emptyZone z e).cooler.zones =
    s.cooler.zones.set z { s.cooler.zones[z] with entry := e, active := false, onRun := 0, offRun := 0 } := rfl

theorem State.rewriteZone_zones (s : State) (z e) : (s.rewriteZone z e).cooler.zones =
    s.cooler.zones.set z { s.cooler.zones[z] with entry := e, active := false, onRun := 0, offRun := 0 } := by
  unfold State.rewriteZone
  rw [FanKeeps.zones.applyFans, State.settleRedMark_zones, State.emptyZone_zones]

theorem State.rewriteZone_spec (s : State) (z : Fin 8) (e : Option ZoneEntry) :
    (s.rewriteZone z e).cooler.zones =
      s.cooler.zones.set z { s.cooler.zones[z] with entry := e, active := false, onRun := 0, offRun := 0 } ∧
        (s.rewriteZone z e).cooler.redMark =
          (if s.anyZoneActive && !(s.rewriteZone z e).anyZoneActive then none else s.cooler.redMark) ∧
        (s.rewriteZone z e).cooler.state = s.cooler.state ∧ (s.rewriteZone z e).alarm = s.alarm ∧
          (s.rewriteZone z e).burners = s.burners ∧
        (s.rewriteZone z e).outer =
          State.outer { s with cooler := { s.cooler with zones := (s.rewriteZone z e).cooler.zones } } := by
  have hz := State.rewriteZone_zones s z e
  refine ⟨hz, ?_, ?_, ?_, ?_, ?_⟩
  · have h1 : (s.rewriteZone z e).anyZoneActive = (s.emptyZone z e).anyZoneActive := State.anyZoneActive_congr
      (by rw [hz, State.emptyZone_zones])
    rw [h1]
    have h2 : (s.rewriteZone z e).cooler.redMark = ((s.emptyZone z e).settleRedMark s.anyZoneActive).cooler.redMark
      := by
      rw [State.rewriteZone, FanKeeps.redMark.applyFans]
    rw [h2]
    have h3 : s.anyZoneActive = false → (s.emptyZone z e).anyZoneActive = false := by
      intro h
      simp only [State.anyZoneActive, State.usedZones, List.any_filter] at h ⊢
      rw [List.any_eq_false] at h ⊢
      intro i hi
      have := h i hi
      by_cases hiz : z = i
      · subst hiz; simp [State.emptyZone, State.modZone, State.modCooler]
      · have hne : (z : Nat) ≠ i := fun e => hiz (Fin.ext e)
        have e1 : (s.emptyZone z e).cooler.zones[i] = s.cooler.zones[i] := by
          simp [State.emptyZone, State.modZone, State.modCooler, Vector.getElem_set_ne _ _ hne]
        simp only [State.zoneEntry?, e1] at this ⊢
        exact this
    have h4 : (s.emptyZone z e).cooler.redMark = s.cooler.redMark := rfl
    rw [← h4]
    generalize s.emptyZone z e = w at *
    unfold State.settleRedMark State.postRedRiver
    cases hs : s.anyZoneActive <;> cases hws : w.anyZoneActive <;> simp_all
  · rw [State.rewriteZone, FanKeeps.coolerState.applyFans, State.settleRedMark_coolerState]; rfl
  · rw [State.rewriteZone, FanKeeps.alarm.applyFans, State.settleRedMark_alarm]; rfl
  · rw [State.rewriteZone, FanKeeps.burners.applyFans, State.settleRedMark_burners]; rfl
  · rw [hz, State.rewriteZone, State.applyFans_outer, State.settleRedMark_outer]; rfl

theorem State.writeAlarm_spec (s : State) (a : Fin 192) (e : Option AlarmEntry) :
    ∃ u : State, s.writeAlarm a e = u.finish ∧
        ((s.alarmAt a).state = .normal → u = s.modAlarm a fun x =>
          { x with entry := e, state := .normal, condition := false, onDelay := none, shelve := none,
                   reported := s.freshReport e }) ∧
        u.outer = State.outer { s with alarm := { s.alarm with alarms := s.alarm.alarms.set a { entry := e } } } := by
  refine ⟨s.rewriteAlarm a e, rfl, fun h => ?_, ?_⟩
  · simp [State.rewriteAlarm, State.leaveState, h]
  · have : ∀ (t : State) st, (t.leaveState a st).outer = t.outer := by
      intro t st; unfold State.leaveState; split <;> simp
    rw [State.rewriteAlarm, this]
    simp [State.modAlarm, State.modAlarmUnit, State.outer, AlarmUnit.kept]

/-- R90, R96: a compartment is rewritten in STOPPED: its speed becomes 0, and a FAN of 0 is queued where the entry is in
use and the speed was another. -/
theorem State.writeCompartment_spec (s : State) (k : Fin 12) (e : CompartmentEntry) (h : s.cooler.state = .stopped) :
    s.writeCompartment k e = State.finish
      (if e.inUse = true ∧ (s.cooler.compartments[k]).speed ≠ 0 then
        (s.modCompartment k fun c => { c with entry := some e, speed := 0, refresh := 0 }).submit (.compartment k)
          (fanCommand e 0)
      else s.modCompartment k fun c => { c with entry := some e, speed := 0 }) := by
  unfold State.writeCompartment
  congr 1
  rw [State.applyFan_eq]
  have hx : (s.modCompartment k fun c => { c with entry := some e }).cooler.compartments[k] =
      { s.cooler.compartments[k] with entry := some e } := by simp [State.modCompartment, State.modCooler]
  have hv : ∀ x, (s.modCompartment k fun c => { c with entry := some e }).fanSpeed x = 0 := fun x => by
    simp [State.fanSpeed, State.modCompartment, State.modCooler, h]
  rw [hx]
  generalize hw : (s.modCompartment k fun c => { c with entry := some e }) = w at *
  have hfan : w.fanned false { s.cooler.compartments[k] with entry := some e } =
      if e.inUse = true ∧ (s.cooler.compartments[k]).speed ≠ 0 then
        ({ s.cooler.compartments[k] with entry := some e, speed := 0, refresh := 0 }, [fanCommand e 0])
      else ({ s.cooler.compartments[k] with entry := some e, speed := 0 }, []) := by
    unfold State.fanned
    cases hu : e.inUse
    · have hf : (some e).filter (·.inUse) = none := by simp [Option.filter, hu]
      dsimp only; rw [hf]; simp
    · have hf : (some e).filter (·.inUse) = some e := by simp [Option.filter, hu]
      dsimp only; rw [hf]; dsimp only; rw [hv]
      by_cases h1 : (s.cooler.compartments[k]).speed = 0
      · rw [if_pos ⟨h1, rfl⟩, if_neg (fun c => c.2 h1), ← h1]
      · rw [if_neg (fun c => h1 c.1), if_pos ⟨rfl, h1⟩]
  rw [hfan, ← hw]
  split_ifs
  · simp [State.modCompartment, State.modCooler, State.withFans, State.submit, State.modQueue]
  · simp [State.modCompartment, State.modCooler, State.withFans]

end Sys2Proof.Machine
end

