-- ==== Sys2Proof/Laws/Items.lean ====
section
/-!
SUPPORT. What the item codec does (section 10.2): how a run of items reads, how the items that the part spells read back,
and what each field reader asks of the items.
-/
namespace Sys2Proof.Machine

/-! ### Numbers as bytes -/

theorem beNat_nil : beNat [] = 0 := rfl

theorem beNat_snoc (bs : List Byte) (b : Byte) : beNat (bs ++ [b]) = beNat bs * 256 + b.toNat := by
  simp [beNat, List.foldl_append]

theorem beNat_foldl (bs : List Byte) (n : Nat) :
    bs.foldl (fun n b => n * 256 + b.toNat) n = n * 256 ^ bs.length + beNat bs := by
  induction bs generalizing n with
  | nil => simp [beNat]
  | cons b bs ih =>
    have h0 := ih (0 * 256 + b.toNat)
    have h1 : beNat (b :: bs) = bs.foldl (fun n b => n * 256 + b.toNat) (0 * 256 + b.toNat) := rfl
    rw [List.foldl_cons, ih, h1, h0, List.length_cons]; ring

theorem beNat_cons (b : Byte) (bs : List Byte) : beNat (b :: bs) = b.toNat * 256 ^ bs.length + beNat bs := by
  have h := beNat_foldl bs (0 * 256 + b.toNat)
  simpa [beNat] using h

theorem beNat_beBytes (k n : Nat) : beNat (beBytes k n) = n % 256 ^ k := by
  induction k with
  | zero => simp [beBytes, beNat, Nat.mod_one]
  | succ k ih =>
    rw [beBytes, beNat_cons, ih, beBytes_length, BitVec.toNat_ofNat]
    rw [show (2 : Nat) ^ 8 = 256 from rfl, pow_succ, Nat.mod_mul]; ring

theorem beInt_length (k : Nat) (i : Int) : (beInt k i).length = k := beBytes_length _ _

theorem beSigned_beInt {k : Nat} {i : Int} (lo : -(256 ^ k : Nat) ≤ 2 * i) (hi : 2 * i < (256 ^ k : Nat)) :
    beSigned (beInt k i) = i := by
  have p : (0 : Int) < (256 ^ k : Nat) := by positivity
  have h0 := Int.emod_nonneg i p.ne'
  have h1 := Int.emod_lt_of_pos i p
  have e : beNat (beInt k i) = (i % (256 ^ k : Nat)).toNat := by
    rw [beInt, beNat_beBytes]; exact Nat.mod_eq_of_lt (by omega)
  rw [beSigned, e, beInt_length]
  rcases lt_or_ge i 0 with h | h
  · have : i % (256 ^ k : Nat) = i + (256 ^ k : Nat) := by
      rw [← Int.add_emod_right]; exact Int.emod_eq_of_lt (by omega) (by omega)
    rw [if_neg (by omega)]; omega
  · have : i % (256 ^ k : Nat) = i := Int.emod_eq_of_lt h (by omega)
    rw [if_pos (by omega)]; omega

theorem beNat_beInt {k : Nat} {i : Int} (lo : 0 ≤ i) (hi : i < (256 ^ k : Nat)) : (beNat (beInt k i) : Int) = i := by
  have : i % (256 ^ k : Nat) = i := Int.emod_eq_of_lt lo hi
  rw [beInt, beNat_beBytes, this, Nat.mod_eq_of_lt (by omega)]; omega

/-! ### How a run of items reads -/

theorem splitBytes_iff {n : Nat} {bs x r : List Byte} :
    splitBytes n bs = some (x, r) ↔ bs = x ++ r ∧ x.length = n := by
  rw [splitBytes]
  by_cases h : n ≤ bs.length
  · rw [if_pos h]; simp only [Option.some.injEq, Prod.mk.injEq]
    constructor
    · rintro ⟨rfl, rfl⟩; simp [h]
    · rintro ⟨rfl, rfl⟩; simp
  · rw [if_neg h]; simp only [reduceCtorEq, false_iff, not_and]
    rintro rfl; simp at h; omega

theorem splitBytes_append {n : Nat} {bs x r : List Byte} (h : splitBytes n bs = some (x, r)) (t : List Byte) :
    splitBytes n (bs ++ t) = some (x, r ++ t) := by
  rw [splitBytes_iff] at h ⊢; simp [h.1, h.2]

theorem splitBytes_exact (x r : List Byte) : splitBytes x.length (x ++ r) = some (x, r) := splitBytes_iff.2 ⟨rfl, rfl⟩

theorem splitBytes_none {n : Nat} {bs : List Byte} : splitBytes n bs = none ↔ bs.length < n := by
  rw [splitBytes]; by_cases h : n ≤ bs.length
  · simp [h]
  · simp [h]; omega

/-- Elements of one width read off the front, each as `f` reads it. -/
theorem readElements_exact {w : Nat} {f : List Byte → Int} : ∀ (xs : List (List Byte)) (r : List Byte),
    (∀ x ∈ xs, x.length = w) → readElements w f xs.length (xs.flatten ++ r) = some (xs.map f, r)
  | [], r, _ => by simp [readElements]
  | x :: xs, r, h => by
    have hx : x.length = w := h x (by simp)
    have := readElements_exact (f := f) xs r fun y hy => h y (by simp [hy])
    simp only [List.length_cons, readElements, List.flatten_cons, List.append_assoc]
    rw [← hx, splitBytes_exact]; simp only; rw [hx, this]; rfl

theorem readElements_append {w : Nat} {f : List Byte → Int} (t : List Byte) : ∀ (n : Nat) (bs r : List Byte)
    (xs : List Int), readElements w f n bs = some (xs, r) → readElements w f n (bs ++ t) = some (xs, r ++ t)
  | 0, bs, r, xs, h => by simp [readElements] at h ⊢; simp [h]
  | n + 1, bs, r, xs, h => by
    rw [readElements] at h ⊢
    cases hs : splitBytes w bs with
    | none => simp [hs] at h
    | some x =>
      obtain ⟨e, rest⟩ := x
      rw [hs] at h; rw [splitBytes_append hs]
      simp only [Option.map_eq_some_iff] at h ⊢
      obtain ⟨⟨ys, q⟩, hq, he⟩ := h
      simp only [Prod.mk.injEq] at he
      exact ⟨(ys, q ++ t), readElements_append t n rest q ys hq, by simp [he.1, he.2]⟩

theorem readElements_rest {w : Nat} {f : List Byte → Int} : ∀ (n : Nat) (bs r : List Byte) (xs : List Int),
    readElements w f n bs = some (xs, r) → r.length ≤ bs.length
  | 0, bs, r, xs, h => by simp [readElements] at h; simp [h]
  | n + 1, bs, r, xs, h => by
    rw [readElements] at h
    cases hs : splitBytes w bs with
    | none => simp [hs] at h
    | some x =>
      obtain ⟨e, rest⟩ := x
      rw [hs] at h; simp only [Option.map_eq_some_iff] at h
      obtain ⟨⟨ys, q⟩, hq, he⟩ := h
      simp only [Prod.mk.injEq] at he
      have h1 := readElements_rest n rest q ys hq
      have h2 := congrArg List.length (splitBytes_iff.1 hs).1
      simp at h2; rw [← he.2]; omega

theorem readElements_none {w : Nat} {f : List Byte → Int} : ∀ (n : Nat) (bs : List Byte), bs.length < w * n →
    readElements w f n bs = none
  | 0, bs, h => by simp at h
  | n + 1, bs, h => by
    rw [readElements]
    cases hs : splitBytes w bs with
    | none => rfl
    | some x =>
      obtain ⟨e, rest⟩ := x
      have h2 := congrArg List.length (splitBytes_iff.1 hs).1
      rw [List.length_append, (splitBytes_iff.1 hs).2] at h2
      simp only
      rw [readElements_none n rest (by rw [Nat.mul_succ] at h; omega)]; rfl

theorem readRecord_iff {bs x r : List Byte} :
    readRecord bs = some (x, r) ↔ x.length < 256 ∧ bs = BitVec.ofNat 8 x.length :: (x ++ r) := by
  cases bs with
  | nil => simp [readRecord]
  | cons n rest =>
    rw [readRecord, splitBytes_iff]
    simp only [List.cons.injEq]
    constructor
    · rintro ⟨h, l⟩
      refine ⟨by rw [l]; exact n.isLt, ?_, h⟩
      rw [l]; simp
    · rintro ⟨hl, hn, h⟩
      refine ⟨h, ?_⟩
      rw [hn, BitVec.toNat_ofNat, Nat.mod_eq_of_lt (by simpa using hl)]

theorem readRecord_append {bs x r : List Byte} (h : readRecord bs = some (x, r)) (t : List Byte) :
    readRecord (bs ++ t) = some (x, r ++ t) := by
  rw [readRecord_iff] at h ⊢; simp [h.1, h.2]

theorem readRecords_iff : ∀ (n : Nat) (bs r : List Byte) (rs : List (List Byte)),
    readRecords n bs = some (rs, r) ↔ rs.length = n ∧ (∀ x ∈ rs, x.length < 256) ∧
      bs = (rs.flatMap fun x => BitVec.ofNat 8 x.length :: x) ++ r
  | 0, bs, r, rs => by
    rw [readRecords]
    simp only [Option.some.injEq, Prod.mk.injEq, List.length_eq_zero_iff]
    constructor
    · rintro ⟨rfl, rfl⟩; simp
    · rintro ⟨rfl, _, h⟩; simp at h; simp [h]
  | n + 1, bs, r, rs => by
    rw [readRecords]
    constructor
    · intro h
      cases hs : readRecord bs with
      | none => simp [hs] at h
      | some y =>
        obtain ⟨x, rest⟩ := y
        rw [hs] at h; simp only [Option.map_eq_some_iff] at h
        obtain ⟨⟨ys, q⟩, hq, he⟩ := h
        simp only [Prod.mk.injEq] at he
        obtain ⟨rfl, rfl⟩ := he
        have a := (readRecord_iff.1 hs)
        have b := (readRecords_iff n rest q ys).1 hq
        refine ⟨by simp [b.1], ?_, ?_⟩
        · intro z hz; rcases List.mem_cons.1 hz with rfl | hz
          · exact a.1
          · exact b.2.1 z hz
        · rw [a.2, b.2.2]; simp
    · rintro ⟨hl, hr, hb⟩
      cases rs with
      | nil => simp at hl
      | cons x ys =>
        have a : readRecord bs = some (x, (ys.flatMap fun x => BitVec.ofNat 8 x.length :: x) ++ r) :=
          readRecord_iff.2 ⟨hr x (by simp), by rw [hb]; simp⟩
        have b := (readRecords_iff n _ r ys).2 ⟨by simpa using hl, fun z hz => hr z (by simp [hz]), rfl⟩
        rw [a]; simp only; rw [b]; rfl

/-- What a value leaves to be read is no longer than what stood there, and what it holds is shorter. -/
theorem readValue_shrinks {enc : Byte} {bs r : List Byte} {v : Value} (h : readValue enc bs = some (v, r)) :
    r.length ≤ bs.length ∧ (∀ x, v = .record x → x.length < bs.length) ∧
      ∀ rs, v = .records rs → ∀ x ∈ rs, x.length < bs.length := by
  have int : ∀ n f, readInt n f bs = some (v, r) → r.length ≤ bs.length ∧ ∃ i, v = .int i := by
    intro n f hn
    rw [readInt, Option.map_eq_some_iff] at hn
    obtain ⟨⟨x, q⟩, hq, he⟩ := hn
    simp only [Prod.mk.injEq] at he
    have := congrArg List.length (splitBytes_iff.1 hq).1
    simp at this
    exact ⟨by rw [← he.2]; omega, _, he.1.symm⟩
  have ints : ∀ n w f m rest, bs = m :: rest →
      (readElements w f n rest).map (fun r => (Value.ints r.1, r.2)) = some (v, r) →
      r.length ≤ bs.length ∧ ∃ xs, v = .ints xs := by
    intro n w f m rest hb hn
    rw [Option.map_eq_some_iff] at hn
    obtain ⟨⟨x, q⟩, hq, he⟩ := hn
    simp only [Prod.mk.injEq] at he
    have := readElements_rest n rest q x hq
    exact ⟨by rw [← he.2, hb]; simp; omega, _, he.1.symm⟩
  unfold readValue at h
  split at h
  · obtain ⟨a, i, rfl⟩ := int _ _ h; exact ⟨a, by simp, by simp⟩
  · obtain ⟨a, i, rfl⟩ := int _ _ h; exact ⟨a, by simp, by simp⟩
  · obtain ⟨a, i, rfl⟩ := int _ _ h; exact ⟨a, by simp, by simp⟩
  · simp at h; obtain ⟨rfl, rfl⟩ := h; simp
  · obtain ⟨a, i, rfl⟩ := ints _ _ _ _ _ rfl h; exact ⟨a, by simp, by simp⟩
  · obtain ⟨a, i, rfl⟩ := ints _ _ _ _ _ rfl h; exact ⟨a, by simp, by simp⟩
  · rw [Option.map_eq_some_iff] at h
    obtain ⟨⟨x, q⟩, hq, he⟩ := h
    simp only [Prod.mk.injEq] at he
    obtain ⟨rfl, rfl⟩ := he
    have := congrArg List.length (readRecord_iff.1 hq).2
    simp at this
    refine ⟨by omega, ?_, by simp⟩
    rintro y hy; cases hy; omega
  · rw [Option.map_eq_some_iff] at h
    obtain ⟨⟨x, q⟩, hq, he⟩ := h
    simp only [Prod.mk.injEq] at he
    obtain ⟨rfl, rfl⟩ := he
    have a := (readRecords_iff _ _ _ _).1 hq
    have := congrArg List.length a.2.2
    rw [List.length_append] at this
    refine ⟨by simp; omega, by simp, ?_⟩
    rintro y hy z hz; cases hy
    have : (BitVec.ofNat 8 z.length :: z).length ≤
        (x.flatMap fun x => BitVec.ofNat 8 x.length :: x).length := by
      have := List.sublist_flatten_of_mem (List.mem_map_of_mem (f := fun x => BitVec.ofNat 8 x.length :: x) hz)
      rw [List.flatMap]; exact this.length_le
    rw [List.length_cons] at this ⊢; omega
  · obtain ⟨a, i, rfl⟩ := int _ _ h; exact ⟨a, by simp, by simp⟩
  · simp at h

theorem readValue_append {enc : Byte} {bs r : List Byte} {v : Value} (h : readValue enc bs = some (v, r))
    (t : List Byte) : readValue enc (bs ++ t) = some (v, r ++ t) := by
  have int : ∀ n f, readInt n f bs = some (v, r) → readInt n f (bs ++ t) = some (v, r ++ t) := by
    intro n f hn
    rw [readInt, Option.map_eq_some_iff] at hn ⊢
    obtain ⟨⟨x, q⟩, hq, he⟩ := hn
    simp only [Prod.mk.injEq] at he
    exact ⟨_, splitBytes_append hq t, by simp [he.1, he.2]⟩
  have ints : ∀ n w f rest, (readElements w f n rest).map (fun r => (Value.ints r.1, r.2)) = some (v, r) →
      (readElements w f n (rest ++ t)).map (fun r => (Value.ints r.1, r.2)) = some (v, r ++ t) := by
    intro n w f rest hn
    rw [Option.map_eq_some_iff] at hn ⊢
    obtain ⟨⟨x, q⟩, hq, he⟩ := hn
    simp only [Prod.mk.injEq] at he
    exact ⟨_, readElements_append t n rest q x hq, by simp [he.1, he.2]⟩
  unfold readValue at h
  split at h
  · rename_i e; unfold readValue; rw [e]; exact int _ _ h
  · rename_i e; unfold readValue; rw [e]; exact int _ _ h
  · rename_i e; unfold readValue; rw [e]; exact int _ _ h
  · rename_i e; unfold readValue; rw [e]; simp at h; simp [h.1, h.2]
  · rename_i e; unfold readValue; rw [e]; exact ints _ _ _ _ h
  · rename_i e; unfold readValue; rw [e]; exact ints _ _ _ _ h
  · rename_i e; unfold readValue; rw [e]
    rw [Option.map_eq_some_iff] at h
    obtain ⟨⟨x, q⟩, hq, he⟩ := h
    simp only [Prod.mk.injEq] at he
    simp only [readRecord_append hq]; simp [he.1, he.2]
  · rename_i e; unfold readValue; rw [e]
    rw [Option.map_eq_some_iff] at h
    obtain ⟨⟨x, q⟩, hq, he⟩ := h
    simp only [Prod.mk.injEq] at he
    have a := (readRecords_iff _ _ _ _).1 hq
    have b := (readRecords_iff _ _ (q ++ t) x).2 ⟨a.1, a.2.1, by rw [← List.append_assoc, ← a.2.2]⟩
    simp only [List.cons_append]; rw [b]; simp [he.1, he.2]
  · rename_i e; unfold readValue; rw [e]; exact int _ _ h
  · simp at h

theorem Value.innerOk_congr {p q : List Byte → Option (List Item)} {v : Value}
    (h1 : ∀ x, v = .record x → p x = q x) (h2 : ∀ rs, v = .records rs → ∀ x ∈ rs, p x = q x) :
    v.innerOk p = v.innerOk q := by
  cases v with
  | record x => simp [Value.innerOk, h1 x rfl]
  | records rs =>
    simp only [Value.innerOk]
    rw [Bool.eq_iff_iff]; simp only [List.all_eq_true]
    exact ⟨fun h x hx => by rw [← h2 rs rfl x hx]; exact h x hx, fun h x hx => by rw [h2 rs rfl x hx]; exact h x hx⟩
  | _ => rfl

theorem readItems_fuel : ∀ (n m : Nat) (bs : List Byte), bs.length < n → bs.length < m →
    readItems n bs = readItems m bs
  | 0, _, _, h, _ => by omega
  | _ + 1, 0, _, _, h => by omega
  | n + 1, m + 1, [], _, _ => by simp [readItems]
  | n + 1, m + 1, [_], _, _ => by simp [readItems]
  | n + 1, m + 1, tag :: enc :: rest, hn, hm => by
    rw [readItems, readItems]
    cases hv : readValue enc rest with
    | none => rfl
    | some x =>
      obtain ⟨v, r⟩ := x
      simp only [List.length_cons] at hn hm
      have hs := readValue_shrinks hv
      simp only
      rw [Value.innerOk_congr (p := readItems n) (q := readItems m)
        (fun x hx => readItems_fuel n m x (by have := hs.2.1 x hx; omega) (by have := hs.2.1 x hx; omega))
        (fun rs hr x hx => readItems_fuel n m x (by have := hs.2.2 rs hr x hx; omega)
          (by have := hs.2.2 rs hr x hx; omega)),
        readItems_fuel n m r (by omega) (by omega)]

theorem itemsOf_nil : itemsOf [] = some [] := rfl

theorem itemsOf_single (t : Byte) : itemsOf [t] = none := rfl

theorem itemsOf_cons (tag enc : Byte) (rest : List Byte) : itemsOf (tag :: enc :: rest) =
    match readValue enc rest with
    | none => none
    | some (v, r) =>
      if v.innerOk itemsOf then (itemsOf r).map fun is => { tag := tag.toNat, value := v } :: is else none := by
  rw [itemsOf, readItems]
  cases hv : readValue enc rest with
  | none => rfl
  | some x =>
    obtain ⟨v, r⟩ := x
    have hs := readValue_shrinks hv
    simp only [List.length_cons]
    rw [Value.innerOk_congr (p := readItems _) (q := itemsOf)
      (fun x hx => readItems_fuel _ _ x (by have := hs.2.1 x hx; omega) (by omega))
      (fun rs hr x hx => readItems_fuel _ _ x (by have := hs.2.2 rs hr x hx; omega) (by omega)),
      readItems_fuel _ (r.length + 1) r (by omega) (by omega)]
    rfl

/-- A value read: the item, then the items that follow. -/
theorem itemsOf_value {tag enc : Byte} {rest r : List Byte} {v : Value} (h : readValue enc rest = some (v, r)) :
    itemsOf (tag :: enc :: rest) =
      if v.innerOk itemsOf then (itemsOf r).map fun is => { tag := tag.toNat, value := v } :: is else none := by
  rw [itemsOf_cons, h]

theorem itemsOf_novalue {tag enc : Byte} {rest : List Byte} (h : readValue enc rest = none) :
    itemsOf (tag :: enc :: rest) = none := by rw [itemsOf_cons, h]

/-- A run of items that reads whole reads the same in front of any other run. -/
theorem itemsOf_append {a : List Byte} {x : List Item} (h : itemsOf a = some x) (b : List Byte) :
    itemsOf (a ++ b) = (itemsOf b).map (x ++ ·) := by
  have key : ∀ (n : Nat) (a : List Byte) (x : List Item), a.length < n → itemsOf a = some x →
      itemsOf (a ++ b) = (itemsOf b).map (x ++ ·) := by
    intro n
    induction n with
    | zero => intro a x h; omega
    | succ n ih =>
      intro a x hl hx
      match a with
      | [] => rw [itemsOf_nil] at hx; cases hx; cases h : itemsOf b <;> simp [h]
      | [_] => rw [itemsOf_single] at hx; cases hx
      | tag :: enc :: rest =>
        rw [itemsOf_cons] at hx
        cases hv : readValue enc rest with
        | none => simp [hv] at hx
        | some y =>
          obtain ⟨v, r⟩ := y
          rw [hv] at hx; simp only at hx
          have hs := readValue_shrinks hv
          rw [List.cons_append, List.cons_append, itemsOf_value (readValue_append hv b)]
          split at hx
          · rename_i ok
            rw [Option.map_eq_some_iff] at hx
            obtain ⟨y, hy, rfl⟩ := hx
            rw [if_pos ok, ih r y (by simp at hl; omega) hy]
            cases itemsOf b <;> simp
          · cases hx
  exact key (a.length + 1) a x (by omega) h

theorem itemsOf_append_some {a b : List Byte} {x y : List Item} (ha : itemsOf a = some x) (hb : itemsOf b = some y) :
    itemsOf (a ++ b) = some (x ++ y) := by rw [itemsOf_append ha, hb]; rfl

/-! ### The items that the part spells -/

theorem itemsOf_itemInt {t : Nat} {i : Int} (ht : t < 256) (lo : -2147483648 ≤ i) (hi : i < 2 ^ 64) :
    itemsOf (itemInt t i) = some [{ tag := t, value := .int i }] := by
  have tag : (BitVec.ofNat 8 t).toNat = t := by rw [BitVec.toNat_ofNat]; omega
  have one : ∀ (enc : Byte) (bs : List Byte), readValue enc bs = some (.int i, []) →
      itemsOf (BitVec.ofNat 8 t :: enc :: bs) = some [{ tag := t, value := .int i }] := by
    intro enc bs h
    rw [itemsOf_value h]; simp [Value.innerOk, itemsOf_nil]; omega
  have int : ∀ (n : Nat) (f : List Byte → Int), f (beInt n i) = i →
      readInt n f (beInt n i) = some (.int i, []) := by
    intro n f hf
    rw [readInt, splitBytes_iff.2 (show beInt n i = beInt n i ++ [] ∧ _ from ⟨by simp, beInt_length n i⟩)]
    simp [hf]
  rw [itemInt]
  split
  · exact one _ _ (int 1 unsigned (beNat_beInt (by omega) (by simp; omega)))
  split
  · exact one _ _ (int 2 beSigned (beSigned_beInt (by simp; omega) (by simp; omega)))
  split
  · exact one _ _ (int 4 beSigned (beSigned_beInt (by simp; omega) (by simp; omega)))
  · exact one _ _ (int 8 unsigned (beNat_beInt (by omega) (by simp; omega)))

theorem itemsOf_itemEnum {t n : Nat} (ht : t < 256) (hn : n < 256) :
    itemsOf (itemEnum t n) = some [{ tag := t, value := .enum n }] := by
  have : readValue 4#8 [BitVec.ofNat 8 n] = some (.enum n, []) := by
    simp [readValue]; omega
  rw [itemEnum, itemsOf_value this]; simp [Value.innerOk, itemsOf_nil]; omega

theorem itemsOf_itemInts {t : Nat} {xs : List Int} (ht : t < 256) (hl : xs.length < 256)
    (h : ∀ x ∈ xs, -32768 ≤ x ∧ x ≤ 32767) : itemsOf (itemInts t xs) = some [{ tag := t, value := .ints xs }] := by
  have main : ∀ (enc : Byte) (w : Nat) (f : List Byte → Int), (∀ x ∈ xs, f (beInt w x) = x) →
      (∀ n rest, readValue enc (n :: rest) = (readElements w f n.toNat rest).map fun r => (.ints r.1, r.2)) →
      itemsOf (BitVec.ofNat 8 t :: enc :: BitVec.ofNat 8 xs.length :: xs.flatMap (beInt w)) =
        some [{ tag := t, value := .ints xs }] := by
    intro enc w f hf hr
    have hn : (BitVec.ofNat 8 xs.length).toNat = (xs.map (beInt w)).length := by
      rw [BitVec.toNat_ofNat, List.length_map]; omega
    have : readValue enc (BitVec.ofNat 8 xs.length :: xs.flatMap (beInt w)) = some (.ints xs, []) := by
      rw [hr, hn, List.flatMap, ← List.append_nil (List.map _ _).flatten, readElements_exact]
      · simp only [List.map_map, Option.map_some]
        congr 3
        conv_rhs => rw [← List.map_id xs]
        exact List.map_congr_left fun x hx => hf x hx
      · simp only [List.mem_map, forall_exists_index, and_imp]; rintro _ x _ rfl; exact beInt_length _ _
    rw [itemsOf_value this]; simp [Value.innerOk, itemsOf_nil]; omega
  rw [itemInts]
  by_cases n : (xs.all fun x => decide (0 ≤ x) && decide (x ≤ 255)) = true
  · rw [if_pos n]; simp only [n, if_true]
    simp only [List.all_eq_true, Bool.and_eq_true, decide_eq_true_eq] at n
    refine main 5#8 1 unsigned (fun x hx => ?_) (fun n rest => rfl)
    have := n x hx; exact beNat_beInt (by omega) (by simp; omega)
  · rw [if_neg n]; simp only [n]
    refine main 6#8 2 beSigned (fun x hx => ?_) (fun n rest => rfl)
    have := h x hx; exact beSigned_beInt (by simp; omega) (by simp; omega)

theorem itemsOf_itemRecord {t : Nat} {bs : List Byte} {is : List Item} (ht : t < 256) (hl : bs.length < 256)
    (h : itemsOf bs = some is) : itemsOf (itemRecord t bs) = some [{ tag := t, value := .record bs }] := by
  have : readValue 7#8 (recordBytes bs) = some (.record bs, []) := by
    have : readRecord (recordBytes bs) = some (bs, []) := readRecord_iff.2 ⟨hl, by simp [recordBytes]⟩
    simp [readValue, this]
  rw [itemRecord, itemsOf_value this]; simp [Value.innerOk, h, itemsOf_nil]; omega

theorem itemsOf_itemRecords {t : Nat} {rs : List (List Byte)} (ht : t < 256) (hl : rs.length < 256)
    (h : ∀ r ∈ rs, r.length < 256 ∧ (itemsOf r).isSome) :
    itemsOf (itemRecords t rs) = some [{ tag := t, value := .records rs }] := by
  have hn : (BitVec.ofNat 8 rs.length).toNat = rs.length := by rw [BitVec.toNat_ofNat]; omega
  have : readValue 8#8 (BitVec.ofNat 8 rs.length :: rs.flatMap recordBytes) = some (.records rs, []) := by
    have : readRecords rs.length (rs.flatMap recordBytes) = some (rs, []) :=
      (readRecords_iff _ _ _ _).2 ⟨rfl, fun x hx => (h x hx).1, by rw [List.append_nil]; rfl⟩
    have enc : ∀ (n : Byte) (rest : List Byte),
        readValue 8#8 (n :: rest) = (readRecords n.toNat rest).map fun r => (.records r.1, r.2) := fun _ _ => rfl
    rw [enc, hn, this]; rfl
  have ok : (Value.records rs).innerOk itemsOf = true := by
    simp only [Value.innerOk, List.all_eq_true]; exact fun x hx => (h x hx).2
  rw [itemRecords, itemsOf_value this, if_pos ok]; simp [itemsOf_nil]; omega

/-! ### Reading fields -/

theorem intOf_iff {is : List Item} {t : Nat} {i : Int} : intOf is t = some i ↔ valueOf is t = some (.int i) := by
  rw [intOf]; split
  · rename_i h; simp [h]
  · rename_i h; simp only [reduceCtorEq, false_iff]; exact fun k => h i k

theorem enumOf_iff {is : List Item} {t n : Nat} : enumOf is t = some n ↔ valueOf is t = some (.enum n) := by
  rw [enumOf]; split
  · rename_i h; simp [h]
  · rename_i h; simp only [reduceCtorEq, false_iff]; exact fun k => h n k

theorem given_iff {is : List Item} {t : Nat} : given is t = true ↔ valueOf is t ≠ none := by
  rw [given, Option.isSome_iff_ne_none]

theorem given_false {is : List Item} {t : Nat} : given is t = false ↔ NoField is t := by
  rw [given, NoField]; simp

theorem noneGiven_iff {is : List Item} {ts : List Nat} : noneGiven is ts = true ↔ ∀ t ∈ ts, NoField is t := by
  simp [noneGiven, given_false]

theorem noField_intOf {is : List Item} {t : Nat} (h : NoField is t) : intOf is t = none := by
  rw [intOf, h]

theorem need_iff {is : List Item} {t : Nat} {lo hi i : Int} : need is t lo hi = some i ↔ IntField is t i lo hi := by
  simp [need, IntField, Option.filter_eq_some_iff]

theorem needNat_iff {is : List Item} {t lo hi n : Nat} : needNat is t lo hi = some n ↔ IntField is t n lo hi := by
  simp only [needNat, Option.map_eq_some_iff, need_iff, IntField]
  constructor
  · rintro ⟨i, ⟨h, l, u⟩, rfl⟩; rw [Int.toNat_of_nonneg (by omega)]; exact ⟨h, l, u⟩
  · rintro ⟨h, l, u⟩; exact ⟨n, ⟨h, l, u⟩, by simp⟩

theorem needFlag_iff {is : List Item} {t : Nat} {b : Bool} : needFlag is t = some b ↔ FlagField is t b := by
  simp only [needFlag, Option.map_eq_some_iff, need_iff, IntField, FlagField]
  constructor
  · rintro ⟨i, ⟨h, l, u⟩, rfl⟩
    have : i = 0 ∨ i = 1 := by omega
    rcases this with rfl | rfl <;> simpa using h
  · intro h; cases b
    · exact ⟨0, ⟨by simpa using h, by omega, by omega⟩, rfl⟩
    · exact ⟨1, ⟨by simpa using h, by omega, by omega⟩, rfl⟩

theorem objectIndex_iff {n b : Nat} {x : Fin n} {i : Int} :
    objectIndex n (b : Int) i = some x ↔ i = ((x.val + b : Nat) : Int) := by
  constructor
  · intro h
    rw [objectIndex] at h
    split at h
    · rename_i c; cases h; simp; omega
    · cases h
  · rintro rfl; exact objectIndex_base b x

theorem needObject_iff {is : List Item} {t n b : Nat} {x : Fin n} :
    needObject is t n (b : Int) = some x ↔ ObjectField is t b x := by
  rw [needObject, Option.bind_eq_some_iff, ObjectField]
  constructor
  · rintro ⟨i, h, k⟩; rw [h, objectIndex_iff.1 k]
  · intro h; exact ⟨_, h, objectIndex_iff.2 rfl⟩

theorem opt_iff {is : List Item} {t : Nat} {lo hi : Int} {x : Option Int} :
    opt is t lo hi = some x ↔ OptField is t x lo hi := by
  rw [opt]
  by_cases g : given is t = true
  · rw [if_pos g]
    cases x with
    | none => simp only [OptField, ← given_false, g]; simp [Option.map_eq_some_iff]
    | some i => simp [OptField, Option.map_eq_some_iff, need_iff]
  · rw [if_neg g]
    rw [Bool.not_eq_true, given_false] at g
    cases x with
    | none => simp [OptField, g]
    | some i => simp [OptField, IntField, noField_intOf g]

theorem optNat_iff {is : List Item} {t lo hi : Nat} {x : Option Nat} :
    optNat is t lo hi = some x ↔ OptField is t (x.map fun n => (n : Int)) lo hi := by
  simp only [optNat, Option.map_eq_some_iff, opt_iff]
  constructor
  · rintro ⟨y, h, rfl⟩
    cases y with
    | none => exact h
    | some i =>
      have e : ((i.toNat : Nat) : Int) = i := Int.toNat_of_nonneg (by have := h.2.1; omega)
      rw [← e] at h; exact h
  · intro h; exact ⟨_, h, by cases x <;> simp⟩

theorem optObject_iff {is : List Item} {t n b : Nat} {x : Option (Fin n)} :
    optObject is t n (b : Int) = some x ↔ OptObjectField is t b x := by
  rw [optObject]
  by_cases g : given is t = true
  · rw [if_pos g]
    cases x with
    | none => simp only [OptObjectField, ← given_false, g]; simp [Option.map_eq_some_iff]
    | some i => simp [OptObjectField, Option.map_eq_some_iff, needObject_iff]
  · rw [if_neg g]
    rw [Bool.not_eq_true, given_false] at g
    cases x with
    | none => simp [OptObjectField, g]
    | some i => simp [OptObjectField, ObjectField, noField_intOf g]

theorem needName_iff {α : Type} {is : List Item} {t : Nat} {names : List α} {x : α} :
    needName is t names = some x ↔ ∃ n, enumOf is t = some n ∧ names[n]? = some x := by
  rw [needName, Option.bind_eq_some_iff]

theorem needInts_iff {is : List Item} {t : Nat} {lo hi : Int} {xs : List Int} :
    needInts is t lo hi = some xs ↔ valueOf is t = some (.ints xs) ∧ ∀ x ∈ xs, lo ≤ x ∧ x ≤ hi := by
  rw [needInts]; split
  · rename_i ys h; rw [h]
    by_cases a : (ys.all fun i => decide (lo ≤ i) && decide (i ≤ hi)) = true
    · rw [if_pos a]; simp at a
      constructor
      · rintro k; cases k; exact ⟨rfl, a⟩
      · rintro ⟨k, _⟩; cases k; rfl
    · rw [if_neg a]; simp only [reduceCtorEq, false_iff]
      rintro ⟨k, l⟩; cases k; apply a; simpa using l
  · rename_i h; simp only [reduceCtorEq, false_iff]; exact fun k => h xs k.1

theorem optInts_iff {is : List Item} {t : Nat} {lo hi : Int} {xs : List Int} :
    optInts is t lo hi = some xs ↔ (valueOf is t).getD (.ints []) = .ints xs ∧ ∀ x ∈ xs, lo ≤ x ∧ x ≤ hi := by
  rw [optInts]
  by_cases g : given is t = true
  · rw [if_pos g, needInts_iff]
    rw [given_iff, ← Option.isSome_iff_ne_none, Option.isSome_iff_exists] at g
    obtain ⟨v, hv⟩ := g; simp [hv]
  · rw [if_neg g]; rw [Bool.not_eq_true, given_false] at g
    rw [show valueOf is t = none from g]
    constructor
    · rintro h; cases h; simp
    · rintro ⟨h, _⟩; simp at h; rw [← h]

theorem needRecord_iff {is read : List Item} {t : Nat} :
    needRecord is t = some read ↔ ∃ bs, valueOf is t = some (.record bs) ∧ innerItems bs = read := by
  rw [needRecord]; split
  · rename_i h; rw [h]; simp
  · rename_i h; simp only [reduceCtorEq, false_iff]; rintro ⟨bs, k, _⟩; exact h bs k

theorem optRecords_iff {is : List Item} {t : Nat} {reads : List (List Item)} :
    optRecords is t = some reads ↔ ∃ rs, (valueOf is t).getD (.records []) = .records rs ∧ rs.map innerItems = reads := by
  rw [optRecords]; split
  · rename_i h; rw [h]; simp
  · rename_i v hv h; rw [h]
    simp only [reduceCtorEq, Option.getD_some, false_iff]; rintro ⟨rs, k, _⟩; exact hv rs k
  · rename_i h; rw [h]; simp

/-- The value of a tag that heads the items. -/
theorem valueOf_cons (i : Item) (is : List Item) (t : Nat) :
    valueOf (i :: is) t = if i.tag = t then some i.value else valueOf is t := by
  rw [valueOf, List.find?_cons]
  by_cases h : i.tag = t
  · simp [h]
  · rw [show (i.tag == t) = false by simpa using h]; simp [h, valueOf]

theorem valueOf_nil (t : Nat) : valueOf [] t = none := rfl

theorem innerItems_of {bs : List Byte} {is : List Item} (h : itemsOf bs = some is) : innerItems bs = is := by
  rw [innerItems, h]; rfl

end Sys2Proof.Machine
end

