-- ==== Sys2Proof/Laws/Lines.lean ====
section
/-!
SUPPORT. What a changed feed and a changed state make of a line, and lookups among alarms.
-/
namespace Sys2Proof.Machine

theorem State.setFeed_line (s : State) (l : Fin 6) (c : Nat) : (s.setFeed l c).lines[l] =
    followLine s.burners s.timeBase { s.lines[l] with feed := c, dose := (s.lines[l]).doseFor c s.timeBase } := by
  rw [State.setFeed, State.refreshLineState_line, if_pos rfl, State.modLine_line, if_pos rfl]; rfl

theorem State.setFeed_other (s : State) (l j : Fin 6) (c : Nat) (h : j ≠ l) : (s.setFeed l c).lines[j] =
    s.lines[j] := by
  rw [State.setFeed, State.refreshLineState_line, if_neg (Ne.symm h), State.modLine_line, if_neg (Ne.symm h)]

theorem State.setFeed_rest (s : State) (l : Fin 6) (c : Nat) : { s.setFeed l c with lines := s.lines } = s := by
  rw [State.setFeed, State.refreshLineState_eq]; rfl

theorem Line.deviation_eq (x : Line) (e : LineEntry) (he : x.entry.filter (·.inUse) = some e) (st : FuelState)
    (now : Time) :
  x.deviationIn st now = if st = .feeding ∧ e.kind.isContinuous = true then { timer := some (now + 1000) } else {} := by
  have : x.entry = some e := by
    cases h : x.entry with
    | none => rw [h] at he; cases he
    | some y => rw [h, Option.filter_eq_some_iff] at he; rw [he.1]
  unfold Line.deviationIn; rw [this]
  simp

theorem State.setLineState_ne (s : State) (l : Fin 6) (st : FuelState) (h : (s.lines[l]).state ≠ st) :
    s.setLineState l st = s.modLine l fun x => { x with state := st, deviation := x.deviationIn st s.timeBase } := by
  rw [State.setLineState, if_neg h]

theorem entry_of_inUse {x : Option LineEntry} {e : LineEntry} (h : x.filter (·.inUse) = some e) : x = some e := by
  cases hx : x with
  | none => rw [hx] at h; cases h
  | some y => rw [hx, Option.filter_eq_some_iff] at h; rw [h.1]

theorem State.enterLockout_eq (s : State) (b : Fin 3) (c : LockoutCause) (d : LockoutDetail) :
    s.enterLockout b c d = (((s.modBurner b fun x => { x with lockout := some (s.lockoutRecord b c d) }).stopTo b
      .trip .lockout).postBurner b
    fun a => { a with lockouts := satAdd top32 a.lockouts 1 }) := by rw [State.enterLockout]; rfl

theorem State.stopBurner_eq (s : State) (b : Fin 3) : s.stopBurner b = s.stopTo b .control .off := rfl

theorem State.postBurner_eq (z : State) (b : Fin 3) (f : BurnerAccount → BurnerAccount) : z.postBurner b f =
    { z with shift := { z.shift with record := { z.shift.record with
        burners := z.shift.record.burners.set b (f z.shift.record.burners[b]) } } } := rfl

theorem AlarmAction.targets_iff (y : AlarmAction) (b : Fin 3) : y.targets b = true ↔ y = .tripBurner b ∨ y =
    .holdFuel b := by
  cases y <;> simp [AlarmAction.targets]

theorem AlarmState.active_iff (y : AlarmState) : y.active = true ↔ y = .raised ∨ y = .held ∨ y = .suppressed := by
  cases y <;> simp [AlarmState.active]

theorem find_indices_some {n : Nat} (f : Fin n → Bool) (a : Fin n) : (indices n).find? f = some a ↔ f a = true ∧
    ∀ a' < a, f a' = false := by
  unfold indices
  constructor
  · intro h
    rw [List.find?_eq_some_iff_getElem] at h
    obtain ⟨h1, i, hi, h2, h3⟩ := h
    refine ⟨h1, fun a' ha => ?_⟩
    simp at h2 h3
    have := h3 a'.val (by rw [← h2] at ha; exact ha)
    simpa using this
  · rintro ⟨h1, h2⟩
    rw [List.find?_eq_some_iff_getElem]
    refine ⟨h1, a.val, by simp, by simp, fun j hj => ?_⟩
    simp
    exact h2 ⟨j, _⟩ hj

end Sys2Proof.Machine
end

