-- ==== Sys2Proof/Laws/Points.lean ====
section
/-!
SUPPORT. The filter, the answer's points and the aging of points (chapter 2).
-/
namespace Sys2Proof.Machine

theorem tdiv_pow_le (d : Int) (k : Nat) (h : 0 < d) : 0 ≤ d.tdiv (2 ^ k : Nat) ∧ d.tdiv (2 ^ k : Nat) ≤ d := by
  constructor
  · exact Int.tdiv_nonneg h.le (by positivity)
  · rw [Int.tdiv_eq_ediv_of_nonneg h.le]
    exact Int.ediv_le_self _ h.le

theorem tdiv_pow_ge (d : Int) (k : Nat) (h : d < 0) : d.tdiv (2 ^ k : Nat) ≤ 0 ∧ d ≤ d.tdiv (2 ^ k : Nat) := by
  have := tdiv_pow_le (-d) k (by omega)
  rw [Int.neg_tdiv] at this; omega

theorem filteredValue_up (v c : Int) (k : Nat) (h : v < c) : v + 1 ≤ filteredValue .good v c k ∧
    filteredValue .good v c k ≤ c := by
  have := tdiv_pow_le (c - v) k (by omega)
  simp only [filteredValue, filterStep, truncatedDiv, if_true]
  split_ifs with h1
  · rw [Int.sign_eq_one_of_pos (by omega)]; omega
  · omega

theorem filteredValue_down (v c : Int) (k : Nat) (h : c < v) : c ≤ filteredValue .good v c k ∧
    filteredValue .good v c k ≤ v - 1 := by
  have := tdiv_pow_ge (c - v) k (by omega)
  simp only [filteredValue, filterStep, truncatedDiv, if_true]
  split_ifs with h1
  · rw [Int.sign_eq_neg_one_of_neg (by omega)]; omega
  · omega

theorem filteredValue_reaches (c : Int) (k : Nat) : ∀ (m : Nat) (v : Int), (c - v).natAbs ≤ m → ∃ n : Nat,
    (fun x => filteredValue .good x c k)^[n] v = c := by
  intro m
  induction m with
  | zero => intro v h; exact ⟨0, by simp; omega⟩
  | succ m ih =>
    intro v h
    rcases lt_trichotomy v c with h1 | h1 | h1
    · have := filteredValue_up v c k h1
      obtain ⟨n, hn⟩ := ih (filteredValue .good v c k) (by omega)
      exact ⟨n + 1, hn⟩
    · exact ⟨0, h1⟩
    · have := filteredValue_down v c k h1
      obtain ⟨n, hn⟩ := ih (filteredValue .good v c k) (by omega)
      exact ⟨n + 1, hn⟩

theorem foldl_hits {α : Type} (g : Fin 256 × α → Point → Point) (l : List (Fin 256 × α)) (s : State) :
    ∃ ps : Vector Point 256, l.foldl (fun t h => t.modPoint h.1 (g h)) s = { s with points := ps } ∧
     ((l.map (·.1)).Nodup → ∀ p : Fin 256, (∀ h ∈ l, h.1 = p → ps[p] = g h s.points[p]) ∧
       ((∀ h ∈ l, h.1 ≠ p) → ps[p] = s.points[p])) := by
  induction l generalizing s with
  | nil => exact ⟨s.points, rfl, fun _ p => ⟨by simp, fun _ => rfl⟩⟩
  | cons a l ih =>
    obtain ⟨ps, h1, h2⟩ := ih (s.modPoint a.1 (g a))
    refine ⟨ps, ?_, fun hn p => ?_⟩
    · rw [List.foldl_cons, h1]; rfl
    · rw [List.map_cons, List.nodup_cons] at hn
      have := h2 hn.2 p
      have hset : ∀ q : Fin 256, (s.modPoint a.1 (g a)).points[q] = if a.1 =
        q then g a s.points[q] else s.points[q] := by
        intro q
        show (s.points.set a.1 (g a s.points[a.1]))[q] = _
        by_cases h : a.1 = q
        · subst h; simp
        · have : (a.1 : Nat) ≠ q := fun h' => h (Fin.ext h')
          rw [if_neg h]; exact Vector.getElem_set_ne _ _ this
      refine ⟨fun h hm hp => ?_, fun h => ?_⟩
      · rcases List.mem_cons.mp hm with hm | hm
        · subst hm
          rw [this.2 (fun h' hm' hp' => hn.1 (List.mem_map.mpr ⟨h', hm', hp'.trans hp.symm⟩)), hset, if_pos hp]
        · rw [this.1 h hm hp, hset, if_neg]
          intro ha; exact hn.1 (List.mem_map.mpr ⟨h, hm, hp.trans ha.symm⟩)
      · rw [this.2 fun h' hm => h h' (List.mem_cons_of_mem _ hm), hset, if_neg (h a List.mem_cons_self)]

theorem State.hitPoints_mem (s : State) (st : Nat) (ws : List Word16) (p : Fin 256) (e : PointEntry) (w : Word16) :
    (p, e, w) ∈ s.hitPoints st ws ↔ s.pointEntry? p = some e ∧ e.station = st ∧ ws[e.field]? = some w := by
  simp only [State.hitPoints, List.mem_filterMap, indices, List.mem_finRange, true_and]
  constructor
  · rintro ⟨q, h⟩
    cases he : s.pointEntry? q with
    | none => rw [he] at h; simp at h
    | some e' =>
      rw [he] at h; dsimp only at h
      split_ifs at h with h1
      cases hw : ws[e'.field]? with
      | none => rw [hw] at h; simp at h
      | some w' => rw [hw] at h; simp at h; obtain ⟨rfl, rfl, rfl⟩ := h; exact ⟨he, h1, hw⟩
  · rintro ⟨h1, h2, h3⟩
    exact ⟨p, by rw [h1]; dsimp only; rw [if_pos h2, h3]; rfl⟩

theorem State.hitPoints_nodup (s : State) (st : Nat) (ws : List Word16) : ((s.hitPoints st ws).map (·.1)).Nodup := by
  have : (s.hitPoints st ws).map (·.1) = (s.hitPoints st ws).map (·.1) := rfl
  have key : ∀ l : List (Fin 256), l.Nodup → (((l.filterMap fun p =>
    match s.pointEntry? p with
    | none => none
    | some e => if e.station = st then (ws[e.field]?).map fun w => (p, e, w) else none).map (·.1)).Nodup ∧
      ∀ x ∈ (l.filterMap fun p =>
    match s.pointEntry? p with
    | none => none
    | some e => if e.station = st then (ws[e.field]?).map fun w => (p, e, w) else none).map (·.1), x ∈ l) := by
    intro l
    induction l with
    | nil => intro _; simp
    | cons a l ih =>
      intro hn
      have hn' := List.nodup_cons.mp hn
      have ih' := ih hn'.2
      rw [List.filterMap_cons]
      split
      · exact ⟨ih'.1, fun x hx => List.mem_cons_of_mem _ (ih'.2 x hx)⟩
      · rename_i y hy
        have hy1 : y.1 = a := by
          split at hy
          · cases hy
          · split_ifs at hy
            rw [Option.map_eq_some_iff] at hy
            obtain ⟨w, -, rfl⟩ := hy; rfl
        rw [List.map_cons, hy1]
        refine ⟨List.nodup_cons.mpr ⟨fun h => hn'.1 (ih'.2 _ h), ih'.1⟩, fun x hx => ?_⟩
        rcases List.mem_cons.mp hx with h | h
        · exact h ▸ List.mem_cons_self
        · exact List.mem_cons_of_mem _ (ih'.2 x h)
  exact (key _ (List.nodup_finRange 256)).1

theorem State.takeAnswer_spec (s : State) (st : Nat) (ws : List Word16) : ∃ ps : Vector Point 256,
    (s.takeAnswer st ws).outer = State.outer { s with points := ps } ∧
    (∀ p e w, s.pointEntry? p = some e → e.station = st → ws[e.field]? = some w → ps[p] =
      (s.points[p]).take e w s.floor.roundNo) ∧
    (∀ p : Fin 256, (∀ e, s.pointEntry? p = some e → e.station ≠ st ∨ ws.length ≤ e.field) → ps[p] = s.points[p]) := by
  obtain ⟨ps, h1, h2⟩ := foldl_hits (fun h x => x.take h.2.1 h.2.2 s.floor.roundNo) (s.hitPoints st ws) s
  have h2 := h2 (State.hitPoints_nodup s st ws)
  refine ⟨ps, ?_, fun p e w a1 a2 a3 => ?_, fun p h => ?_⟩
  · rw [State.takeAnswer]
    have : ∀ (l : List (Fin 256 × Nat × Bool)) (t : State), (l.foldl (fun t f => t.deliver (f.1, f.2.1)) t).outer =
      t.outer :=
      fun l t => foldl_keeps (fun t f => by simp) t l
    rw [this, State.settle_outer, State.pointsChanged_outer]
    split_ifs
    · rw [State.flagRecord_outer, h1]
    · rw [h1]
  · exact (h2 p).1 (p, e, w) ((State.hitPoints_mem s st ws p e w).mpr ⟨a1, a2, a3⟩) rfl
  · refine (h2 p).2 fun x hx hp => ?_
    obtain ⟨q, e, w⟩ := x
    dsimp only at hp; subst hp
    obtain ⟨a1, a2, a3⟩ := (State.hitPoints_mem s st ws q e w).mp hx
    rcases h e a1 with h | h
    · exact h a2
    · rw [List.getElem?_eq_none h] at a3; cases a3

theorem foldl_modPoint_spec (g : Fin 256 → Point → Point) (l : List (Fin 256)) (s : State) :
    l.foldl (fun t p => t.modPoint p (g p)) s =
      { s with points := l.foldl (fun v (i : Fin 256) => v.set i (g i v[i])) s.points } := by
  induction l generalizing s with
  | nil => rfl
  | cons p l ih => rw [List.foldl_cons, ih]; rfl

theorem State.agePoints_spec (s : State) : ∃ ps : Vector Point 256, (s.agePoints).outer =
    State.outer { s with points := ps } ∧ ∀ p : Fin 256, ps[p] =
    if s.stalePoint p then { s.points[p] with quality := .stale } else s.points[p] := by
  have hn : ((indices 256).filter s.stalePoint).Nodup := (List.nodup_finRange 256).filter _
  refine ⟨_, ?_, fun p => (foldl_set_get (fun _ x => { x with quality := .stale }) _ s.points hn p).trans ?_⟩
  · rw [State.agePoints]
    rw [State.pointsChanged_outer, foldl_modPoint_spec (fun _ x => { x with quality := .stale })]
  · simp only [List.mem_filter, indices, List.mem_finRange, true_and]

end Sys2Proof.Machine
end

