-- ==== Sys2Proof/Laws/Runs.lean ====
section
/-!
SUPPORT. Passes over the zones and the runs of the cooler (chapter 5).
-/
namespace Sys2Proof.Machine

theorem foldl_zones (g : Fin 8 → Zone → Zone) (l : List (Fin 8)) (s : State) :
    l.foldl (fun s z => s.modZone z (g z)) s =
      { s with cooler := { s.cooler with
          zones := l.foldl (fun (v : Vector Zone 8) (z : Fin 8) => v.set z (g z v[z])) s.cooler.zones } } := by
  induction l generalizing s with
  | nil => rfl
  | cons _ l ih => rw [List.foldl_cons, List.foldl_cons, ih]; rfl

/-- R104: one zone of the pass of an evaluation. -/
def evalZone (s : State) (mean : Int) (_ : Fin 8) (x : Zone) : Zone :=
  match x.entry.filter (·.inUse) with
  | some e => x.evaluate e ((s.points[e.point]).value - mean)
  | none => x

theorem foldl_eval (s : State) (mean : Int) (l : List (Fin 8)) :
    l.foldl (fun s z =>
      match s.zoneEntry? z with
      | some e => s.modZone z fun x => x.evaluate e ((s.points[e.point]).value - mean)
      | none => s) s = l.foldl (fun t z => t.modZone z (evalZone s mean z)) s := by
  have key : ∀ (l : List (Fin 8)) (t : State), t.points = s.points → l.foldl (fun s z =>
      match s.zoneEntry? z with
      | some e => s.modZone z fun x => x.evaluate e ((s.points[e.point]).value - mean)
      | none => s) t = l.foldl (fun t z => t.modZone z (evalZone s mean z)) t := by
    intro l
    induction l with
    | nil => intro t _; rfl
    | cons z l ih =>
      intro t ht
      have e1 : (match t.zoneEntry? z with
      | some e => t.modZone z fun x => x.evaluate e ((t.points[e.point]).value - mean)
      | none => t) = t.modZone z (evalZone s mean z) := by
        have hz : t.zoneEntry? z = (t.cooler.zones[z]).entry.filter (·.inUse) := rfl
        have hm : ∀ f : Zone → Zone, t.modZone z f =
          { t with cooler := { t.cooler with zones := t.cooler.zones.set z (f t.cooler.zones[z]) } } := fun _ => rfl
        rw [hz, hm]
        have hev : evalZone s mean z t.cooler.zones[z] = (match (t.cooler.zones[z]).entry.filter (·.inUse) with
           | some e => (t.cooler.zones[z]).evaluate e ((s.points[e.point]).value - mean)
           | none => t.cooler.zones[z]) := rfl
        rw [hev]
        cases (t.cooler.zones[z]).entry.filter (·.inUse) with
        | none => simp
        | some e => dsimp only; rw [hm, ht]
      rw [List.foldl_cons, List.foldl_cons, e1, ih]
      rw [← ht]; rfl
  exact key l s rfl

/-! ### Passes over the in-use runs (R92 to R94) -/

/-- What a pass makes of one run, and the commands it gives. -/
def Run.passed (f : RunEntry → Run → Run × List Proposal) (r : Run) : Run × List Proposal :=
  match r.entry.filter (·.inUse) with
  | none => (r, [])
  | some e => f e r

theorem Run.passed_entry (f : RunEntry → Run → Run × List Proposal) (h : ∀ e r, (f e r).1.entry = r.entry) (r : Run) :
    (r.passed f).1.entry = r.entry := by
  unfold Run.passed; split
  · rfl
  · exact h _ _

theorem foldl_runs (t : State) (op : State → Fin 4 → RunEntry → State) (f : RunEntry → Run → Run × List Proposal)
    (h : ∀ v l g e, (t.withRuns v l).runEntry? g = some e →
      op (t.withRuns v l) g e = t.withRuns (v.set g (f e v[g]).1) (l ++ fromRun g (f e v[g]).2)) :
    (indices 4).foldl (fun s g => match s.runEntry? g with | none => s | some e => op s g e) t =
      t.withRuns (Vector.ofFn fun g => ((t.cooler.runs[g]).passed f).1)
        (t.queue.submitted ++ (indices 4).flatMap fun g => fromRun g ((t.cooler.runs[g]).passed f).2) := by
  conv_lhs => rw [← t.withRuns_self]
  refine foldl_each t.withRuns _ (fun g r => ((r.passed f).1, fromRun g (r.passed f).2)) (fun v l g => ?_) _ _
  have he : (t.withRuns v l).runEntry? g = (v[g]).entry.filter (·.inUse) := rfl
  dsimp only
  unfold Run.passed
  rw [← he]
  cases hg : (t.withRuns v l).runEntry? g with
  | none => simp
  | some e => exact h v l g e hg

/-- The entry to a cooler state with a pass over the runs and the speeds of the compartments after it. -/
theorem State.Entering.pass {s t : State} {st : CoolerState} {timer : Option Time} {held : Bool}
    (h : s.Entering t st timer held) (hr : t.cooler.runs = s.cooler.runs)
    (hq : ∀ g, givenBy (.run g) t.queue.submitted = givenBy (.run g) s.queue.submitted)
    (op : State → Fin 4 → RunEntry → State) (f : RunEntry → Run → Run × List Proposal)
    (hf : ∀ e r, (f e r).1.entry = r.entry)
    (hop : ∀ v l g e, (t.withRuns v l).runEntry? g = some e →
      op (t.withRuns v l) g e = t.withRuns (v.set g (f e v[g]).1) (l ++ fromRun g (f e v[g]).2)) (force : Bool)
    (u : State)
    (hu : u = ((indices 4).foldl (fun s g => match s.runEntry? g with | none => s | some e => op s g e) t).applyFans
      force) :
    s.CoolerEntered u st timer held force ∧ ∀ g : Fin 4, u.cooler.runs[g] = ((s.cooler.runs[g]).passed f).1 ∧
      givenBy (.run g) u.queue.submitted =
        givenBy (.run g) s.queue.submitted ++ ((s.cooler.runs[g]).passed f).2 := by
  rw [foldl_runs t op f hop] at hu
  have ho : ∀ l, (t.withRuns (Vector.ofFn fun g => ((t.cooler.runs[g]).passed f).1) l).outer = t.outer := fun l => by
    have hk : (Vector.ofFn fun g : Fin 4 => ((t.cooler.runs[g]).passed f).1).map Run.kept = t.cooler.runs.map Run.kept := by
      apply Vector.ext; intro i hi
      simp only [Vector.getElem_map, Vector.getElem_ofFn, Run.kept]
      exact congrArg (fun e => ({ entry := e } : Run)) (Run.passed_entry f hf _)
    simp only [State.outer, State.withRuns, Cooler.kept, hk]
  have h1 := (h.withRuns (Vector.ofFn fun g => ((t.cooler.runs[g]).passed f).1)
    (fun g => ((t.cooler.runs[g]).passed f).2) (ho _)).applyFans force
  rw [← hu] at h1
  refine ⟨h1.1, fun g => ⟨?_, ?_⟩⟩
  · rw [h1.2.1, ← hr]; simp [State.withRuns]
  · rw [h1.2.2, ← hr, ← hq]
    show givenBy _ (t.queue.submitted ++ _) = _
    rw [givenBy_append, givenBy_each Sender.run (fun i j e => by simpa using e)
      (fun g => ((t.cooler.runs[g]).passed f).2)]

theorem Run.rated_entry (e : RunEntry) (rate : Nat) (r : Run) : (r.rated e rate).1.entry = r.entry := by
  unfold Run.rated Run.retimed
  split_ifs <;> rfl

/-! ### The runs of a cooler that stops (R95) -/

/-- R95: a run that enters IDLE, with its account. -/
def idlePair (x : Run × RunAccount) : Run × RunAccount :=
  ({ x.1.abandoned with state := .idle, rate := 0, timer := none },
    { x.2 with abandoned := satAdd top32 x.2.abandoned x.1.outstanding.length })

/-- The state with the runs and the accounts given. -/
def State.withPairs (t : State) (v : Vector (Run × RunAccount) 4) : State :=
  { t with
    cooler := { t.cooler with runs := v.map (·.1) }
    shift := { t.shift with record := { t.shift.record with runs := v.map (·.2) } } }

theorem Vector.map_set_any {α β : Type} {n : Nat} (v : Vector α n) (f : α → β) (i : Fin n) (x : α) :
    (v.set i x).map f = (v.map f).set i (f x) := by
  apply Vector.ext
  intro j hj
  by_cases h : (i : Nat) = j
  · subst h; simp
  · simp [Vector.getElem_set_ne _ _ h]

theorem State.idleRun_eq (t : State) (g : Fin 4) : t.idleRun g = { t with
    cooler := { t.cooler with
      runs := t.cooler.runs.set g (idlePair (t.cooler.runs[g], t.shift.record.runs[g])).1 }
    shift := { t.shift with record := { t.shift.record with
      runs := t.shift.record.runs.set g (idlePair (t.cooler.runs[g], t.shift.record.runs[g])).2 } } } := by
  simp [State.idleRun, State.abandonStrokes, State.modRun, State.modCooler, State.postRun, State.post, State.modShift,
    State.runAt, idlePair, Run.abandoned]

theorem State.idleRun_withPairs (t : State) (v : Vector (Run × RunAccount) 4) (g : Fin 4) :
    (t.withPairs v).idleRun g = t.withPairs (v.set g (idlePair v[g])) := by
  rw [State.idleRun_eq]
  unfold State.withPairs
  rw [Vector.map_set_any, Vector.map_set_any]
  simp

/-- R95: every run enters IDLE. -/
theorem State.idleAll_eq (t : State) : (indices 4).foldl (fun s g => s.idleRun g) t =
    t.withPairs (Vector.ofFn fun g => idlePair (t.cooler.runs[g], t.shift.record.runs[g])) := by
  have h0 : t = t.withPairs (Vector.ofFn fun g : Fin 4 => (t.cooler.runs[g], t.shift.record.runs[g])) := by
    have h1 : (Vector.ofFn fun g : Fin 4 => (t.cooler.runs[g], t.shift.record.runs[g])).map (·.1) = t.cooler.runs := by
      apply Vector.ext; intro i hi; simp
    have h2 : (Vector.ofFn fun g : Fin 4 => (t.cooler.runs[g], t.shift.record.runs[g])).map (·.2) =
        t.shift.record.runs := by apply Vector.ext; intro i hi; simp
    unfold State.withPairs; rw [h1, h2]
  conv_lhs => rw [h0]
  refine (foldl_each (fun v _ => t.withPairs v) _ (fun _ x => (idlePair x, [])) (fun v _ g =>
    t.idleRun_withPairs v g) _ []).trans ?_
  simp

theorem burnerKeeps_runAccounts : BurnerKeeps fun s : State => s.shift.record.runs :=
  { line := fun _ _ _ => rfl, submit := fun _ _ _ => rfl, burner := fun _ _ _ => rfl, account := fun _ _ _ => rfl }

theorem State.setCoolerState_runAccounts (s : State) (st : CoolerState) :
    (s.setCoolerState st).shift.record.runs = s.shift.record.runs := by
  rw [State.setCoolerState, burnerKeeps_runAccounts.visitPermissives, burnerKeeps_runAccounts.setHoldAll]; rfl

theorem BurnerState.firing_iff (x : BurnerState) : x.firing = true ↔ x ≠ .off ∧ x ≠ .lockout := by
  cases x <;> simp [BurnerState.firing]

end Sys2Proof.Machine
end

