-- ==== Sys2Proof/Laws/Shift.lean ====
section
/-!
SUPPORT. The next boundary and the time postings of a close (chapter 8).
-/
namespace Sys2Proof.Machine

theorem boundaryDelay_spec {now start : Nat} (hn : now < dayMs) (hs : start < 1440) :
    0 < boundaryDelay now start ∧ (now + boundaryDelay now start) % dayMs = start * 60000 ∧
      ∀ d, 0 < d → d < boundaryDelay now start → (now + d) % dayMs ≠ start * 60000 := by
  unfold boundaryDelay dayMs at *
  split
  · refine ⟨by omega, by omega, fun d h0 h1 => by omega⟩
  · refine ⟨by omega, by omega, fun d h0 h1 => by omega⟩

theorem foldl_earlier (x : Boundary) (xs : List Boundary) :
    xs.foldl earlier x ∈ x :: xs ∧ ∀ y ∈ x :: xs, (xs.foldl earlier x).time ≤ y.time := by
  induction xs generalizing x with
  | nil => simp
  | cons z zs ih =>
    obtain ⟨h1, h2⟩ := ih (earlier x z)
    rw [List.foldl_cons]
    have he : earlier x z = x ∨ earlier x z = z := by unfold earlier; split <;> simp
    have hx : (earlier x z).time ≤ x.time ∧ (earlier x z).time ≤ z.time :=
      by unfold earlier; split <;> unfold Time at * <;> omega
    constructor
    · rcases List.mem_cons.mp h1 with h | h
      · rw [h]; rcases he with e | e <;> rw [e] <;> simp
      · simp [h]
    · intro y hy
      have h0 := h2 (earlier x z) (by simp)
      unfold Time at *
      rcases List.mem_cons.mp hy with rfl | hy
      · omega
      · rcases List.mem_cons.mp hy with rfl | hy
        · omega
        · exact h2 y (by simp [hy])

theorem ClockBase.reading_later (c : ClockBase) {now t : Time} (h0 : c.time ≤ now) (h : now ≤ t) :
    (c.reading t).ms = ((c.reading now).ms + (t - now)) % dayMs := by
  unfold ClockBase.reading
  dsimp only
  rw [Nat.mod_add_mod]; congr 1; unfold Time at *; omega

theorem State.postRunTime_eq (s : State) (b : Fin 3) : s.postRunTime b = { s with
    burners := s.burners.set b (if (s.burners[b]).state = .run then
          { s.burners[b] with runPosted := s.timeBase } else s.burners[b])
    shift := { s.shift with record := { s.shift.record with
      burners :=
        s.shift.record.burners.set b { s.shift.record.burners[b] with runTime := s.runTimeNow b } } } } := by
  unfold State.postRunTime State.runTimeNow
  by_cases h : (s.burners[b]).state = .run
  · rw [if_pos h, if_pos h, if_pos h]; rfl
  · have e : ({ s.shift.record.burners[b] with runTime := (s.shift.record.burners[b]).runTime } : BurnerAccount) =
      s.shift.record.burners[b] := rfl
    rw [if_neg h, if_neg h, if_neg h, e]; simp

theorem State.timePostings_eq (s : State) : s.timePostings =
      { s with
        burners := Vector.ofFn fun b => if (s.burners[b]).state = .run then
          { s.burners[b] with runPosted := s.timeBase } else s.burners[b]
        cooler := { s.cooler with redMark := s.cooler.redMark.map fun _ => s.timeBase }
        shift := { s.shift with record := { s.shift.record with
          burners := Vector.ofFn fun b => { s.shift.record.burners[b] with runTime := s.runTimeNow b }
          redRiver := match s.cooler.redMark with
            | some t => add64 s.shift.record.redRiver (s.timeBase - t)
            | none => s.shift.record.redRiver } } } := by
  have h3 : indices 3 = [0, 1, 2] := by decide
  have hf : (indices 3).foldl (fun s b => s.postRunTime b) s = { s with
        burners := Vector.ofFn fun b => if (s.burners[b]).state = .run then
          { s.burners[b] with runPosted := s.timeBase } else s.burners[b]
        shift := { s.shift with record := { s.shift.record with
          burners := Vector.ofFn fun b => { s.shift.record.burners[b] with runTime := s.runTimeNow b } } } } := by
    rw [h3]
    simp only [List.foldl_cons, List.foldl_nil]
    rw [State.postRunTime_eq (State.postRunTime (s.postRunTime 0) 1) 2, State.postRunTime_eq (s.postRunTime 0) 1,
      State.postRunTime_eq s 0]
    congr 1
    · ext i hi
      have : i = 0 ∨ i = 1 ∨ i = 2 := by omega
      rcases this with rfl | rfl | rfl <;> simp [Fin.getElem_fin]
    · refine congrArg (fun v => ({ s.shift with record := { s.shift.record with burners := v } } : Shift)) ?_
      ext i hi
      have : i = 0 ∨ i = 1 ∨ i = 2 := by omega
      rcases this with rfl | rfl | rfl <;> simp [Fin.getElem_fin, State.runTimeNow]
  unfold State.timePostings
  rw [hf]
  unfold State.postRedRiver
  dsimp only
  cases h : s.cooler.redMark with
  | none => simp [State.modCooler, h]
  | some m => simp [State.modCooler, State.post, State.modShift, h]

end Sys2Proof.Machine
end

