-- ==== Sys2Proof/Laws/Steady.lean ====
section
/-!
SUPPORT. A property of the queues and the ring that the operations on them keep is kept by every command and every step.
-/
namespace Sys2Proof.Machine.Event

set_option Elab.async false

variable {P Q : State → Prop} (k : Event P Q) {s : State}

theorem withArgs {as : List Arg} {f : State → Byte → List Item → State × Option Answer}
    (hf : ∀ s n is, Q s → Q (f s n is).1) (s : State) (n : Byte) (bs : List Byte) (h : Q s) :
    Q (Machine.withArgs as f s n bs).1 := by
  unfold Machine.withArgs; split
  · exact hf _ _ _ h
  · exact h

theorem answering {as : List Arg} {f : State → List Item → State × Answer} (hf : ∀ s is, Q s → Q (f s is).1)
    (s : State) (n : Byte) (bs : List Byte) (h : Q s) : Q (Machine.answering as f s n bs).1 :=
  withArgs (fun s _ is h => hf s is h) s n bs h

theorem withObject {size : Nat} {base : Int} {is : List Item} {f : Fin size → State × Answer} (h : Q s)
    (hf : ∀ i, Q (f i).1) : Q (Machine.withObject size base s is f).1 := by
  unfold Machine.withObject; split
  · exact hf _
  · exact h

theorem withBurner {is : List Item} {f : Fin 3 → BurnerEntry → State × Answer} (h : Q s) (hf : ∀ b e, Q (f b e).1) :
    Q (Machine.withBurner s is f).1 := by
  refine withObject h fun b => ?_
  split
  · exact hf _ _
  · exact h

theorem withLine {is : List Item} {f : Fin 6 → LineEntry → State × Answer} (h : Q s) (hf : ∀ l e, Q (f l e).1) :
    Q (Machine.withLine s is f).1 := by
  refine withObject h fun b => ?_
  split
  · exact hf _ _
  · exact h

theorem withRun {is : List Item} {f : Fin 4 → RunEntry → State × Answer} (h : Q s) (hf : ∀ g e, Q (f g e).1) :
    Q (Machine.withRun s is f).1 := by
  refine withObject h fun b => ?_
  split
  · exact hf _ _
  · exact h

include k

theorem modShift (f : Shift → Shift) (e : (f s.shift).ring = s.shift.ring)
    (n : (f s.shift).nextSequence = s.shift.nextSequence) (h : Q s) : Q (s.modShift f) :=
  k.calm.same (by simp [State.queues, State.modShift, e, n]) h

theorem conclude {t : State} (h : Q s) (e : s.conclude = .next t) : Q t := by
  cases e
  exact k.calm.keep h

theorem serve {sel : Byte → Bool} {m : Result} {f : Handler} (hf : ∀ s n bs, Q s → Q (f s n bs).1) (h : Q s) :
    Q (s.serve sel m f) := by
  unfold State.serve; split
  · exact h
  · split
    · exact k.calm.reply _ _ _ (k.calm.keep (k.calm.take h))
    · dsimp only
      generalize hr : f s.popRequest _ _ = r
      have hp : Q r.1 := hr ▸ hf _ _ _ (k.calm.take h)
      unfold State.queueAnswer; split
      · exact k.calm.reply _ _ _ hp
      · exact hp

/-! ### The requests of the units -/

theorem handleCommit (s : State) (n : Byte) (bs : List Byte) (h : Q s) : Q (Machine.handleCommit s n bs).1 := by
  refine withArgs (fun s n is h => ?_) s n bs h
  split <;> try dsimp only
  · exact h
  · split <;> try dsimp only
    · exact k.done (k.activate _ (k.weak h))
    · exact k.calm.stageCommit _ _ h

theorem handleLineEnable (s : State) (n : Byte) (bs : List Byte) (h : Q s) : Q (Machine.handleLineEnable s n bs).1 := by
  refine answering (fun s is h => ?_) s n bs h
  split <;> try dsimp only
  · unfold State.enableLine; split <;> try dsimp only
    · exact k.calm.keep h
    · split <;> try dsimp only
      · exact h
      · exact k.done (k.keep (k.weak h))
  · exact h

theorem handleStart (s : State) (n : Byte) (bs : List Byte) (h : Q s) : Q (Machine.handleStart s n bs).1 := by
  refine answering (fun s is h => ?_) s n bs h
  split <;> try dsimp only
  · exact h
  · exact k.issueMark (k.keep (k.weak h))

theorem handleSingle (s : State) (n : Byte) (bs : List Byte) (h : Q s) : Q (Machine.handleSingle s n bs).1 := by
  refine withArgs (fun s n is h => ?_) s n bs h
  split <;> try dsimp only
  · exact h
  · exact k.issueMark (k.keep (k.weak h))

theorem handleStop (s : State) (n : Byte) (bs : List Byte) (h : Q s) : Q (Machine.handleStop s n bs).1 := by
  refine withArgs (fun s n is h => ?_) s n bs h
  split <;> try dsimp only
  · exact h
  · exact k.takeStop _ h

theorem handleForce (s : State) (n : Byte) (bs : List Byte) (h : Q s) : Q (Machine.handleForce s n bs).1 := by
  refine answering (fun s is h => withObject h fun p => ?_) s n bs h
  split <;> try dsimp only
  · unfold State.force; split <;> try dsimp only
    · exact h
    · split <;> try dsimp only
      · exact h
      · exact k.forcePoint _ _ h
  · exact h

theorem handleUnforce (s : State) (n : Byte) (bs : List Byte) (h : Q s) : Q (Machine.handleUnforce s n bs).1 := by
  refine answering (fun s is h => withObject h fun p => ?_) s n bs h
  split <;> try dsimp only
  · exact k.unforcePoint _ h
  · exact h

omit k in
theorem handleReadPoint (s : State) (n : Byte) (bs : List Byte) (h : Q s) : Q (Machine.handleReadPoint s n bs).1 :=
  answering (fun _ _ h => withObject h fun _ => h) s n bs h

theorem handleBurnerStart (s : State) (n : Byte) (bs : List Byte) (h : Q s) : Q (Machine.handleBurnerStart s n bs).1 := by
  refine answering (fun s is h => withBurner h fun b e => ?_) s n bs h
  split <;> try dsimp only
  · exact h
  · exact k.calm.enterPurge _ _ h

theorem handleBurnerStop (s : State) (n : Byte) (bs : List Byte) (h : Q s) : Q (Machine.handleBurnerStop s n bs).1 := by
  refine answering (fun s is h => withBurner h fun b e => ?_) s n bs h
  split <;> try dsimp only
  · exact k.done (k.stopBurner _ (k.weak h))
  · exact h

theorem handleBurnerReset (s : State) (n : Byte) (bs : List Byte) (h : Q s) : Q (Machine.handleBurnerReset s n bs).1 := by
  refine answering (fun s is h => withBurner h fun b e => ?_) s n bs h
  split <;> try dsimp only
  · exact h
  · split <;> try dsimp only
    · exact h
    · split <;> try dsimp only
      · exact h
      · exact k.done (k.setBurnerState _ _ (k.weak h))

theorem storeDemand (b e n) (h : Q s) : Q (s.storeDemand b e n).1 := by
  unfold State.storeDemand; dsimp only
  exact k.calm.modBurner _ _ h

theorem handleSetDemand (s : State) (n : Byte) (bs : List Byte) (h : Q s) : Q (Machine.handleSetDemand s n bs).1 := by
  refine answering (fun s is h => withBurner h fun b e => ?_) s n bs h
  split <;> try dsimp only
  · split <;> try dsimp only
    · exact h
    · exact k.storeDemand _ _ _ h
  · exact h

theorem handleLineService (s : State) (n : Byte) (bs : List Byte) (h : Q s) : Q (Machine.handleLineService s n bs).1 := by
  refine answering (fun s is h => withLine h fun l e => ?_) s n bs h
  split <;> try dsimp only
  · unfold State.serviceIn; split <;> try dsimp only
    · exact h
    · split <;> try dsimp only
      · exact h
      · exact k.calm.setLineState _ _ (k.calm.keep h)
  · unfold State.serviceOut; split <;> try dsimp only
    · exact k.done (k.keep (k.weak h))
    · exact h
  · exact h

theorem handleLineMode (s : State) (n : Byte) (bs : List Byte) (h : Q s) : Q (Machine.handleLineMode s n bs).1 := by
  refine answering (fun s is h => withLine h fun l e => ?_) s n bs h
  split <;> try dsimp only
  · exact h
  · split <;> try dsimp only
    · exact h
    · split <;> try dsimp only
      · exact h
      · exact k.calm.keep h

theorem handleLineReset (s : State) (n : Byte) (bs : List Byte) (h : Q s) : Q (Machine.handleLineReset s n bs).1 := by
  refine answering (fun s is h => withLine h fun l e => ?_) s n bs h
  split <;> try dsimp only
  · exact h
  · split <;> try dsimp only
    · exact h
    · split <;> try dsimp only
      · exact h
      · exact k.done (k.setLineState _ _ (k.keep (k.weak h)))

theorem handleCoolerStart (s : State) (n : Byte) (bs : List Byte) (h : Q s) : Q (Machine.handleCoolerStart s n bs).1 := by
  refine answering (fun s is h => ?_) s n bs h
  have done := k.done (k.coolerStarts (k.weak h))
  repeat' split
  all_goals try dsimp only [refuse]
  all_goals with_reducible first | exact done | exact h

theorem handleCoolerStop (s : State) (n : Byte) (bs : List Byte) (h : Q s) : Q (Machine.handleCoolerStop s n bs).1 := by
  refine answering (fun s is h => ?_) s n bs h
  have done := k.done (k.coolerStops (k.weak h))
  repeat' split
  all_goals try dsimp only [refuse]
  all_goals with_reducible first | exact done | exact h

theorem handleCoolerSafe (s : State) (n : Byte) (bs : List Byte) (h : Q s) : Q (Machine.handleCoolerSafe s n bs).1 := by
  refine answering (fun s is h => ?_) s n bs h
  split <;> try dsimp only
  · exact h
  · exact k.done (k.coolerToSafe (k.weak h))

theorem handleCoolerResetSafe (s : State) (n : Byte) (bs : List Byte) (h : Q s) :
    Q (Machine.handleCoolerResetSafe s n bs).1 := by
  refine answering (fun s is h => ?_) s n bs h
  have done := k.done (k.coolerLeavesSafe (k.weak h))
  repeat' split
  all_goals try dsimp only [refuse]
  all_goals with_reducible first | exact done | exact h

theorem handleRunReset (s : State) (n : Byte) (bs : List Byte) (h : Q s) : Q (Machine.handleRunReset s n bs).1 := by
  refine answering (fun s is h => withRun h fun g e => ?_) s n bs h
  split <;> try dsimp only
  · exact k.done (k.startStroking _ _ (k.keep (k.weak h)))
  · exact h

theorem handleRunMode (s : State) (n : Byte) (bs : List Byte) (h : Q s) : Q (Machine.handleRunMode s n bs).1 := by
  refine answering (fun s is h => withRun h fun g e => ?_) s n bs h
  split <;> try dsimp only
  · unfold State.runManual; dsimp only; split <;> try dsimp only
    · exact k.done (k.setRate _ _ (k.keep (k.weak h)))
    · exact k.calm.keep h
  · exact h
  · exact k.calm.keep h
  · exact h

theorem operatorCommand (st c v) (h : P s) : P (s.operatorCommand st c v).1 := by
  unfold State.operatorCommand; split <;> try dsimp only
  · split <;> try dsimp only
    · exact k.operatorFeed _ _ _ h
    · exact h
  · split <;> try dsimp only
    · split <;> try dsimp only
      · unfold State.operatorRate; split <;> try dsimp only
        · exact h
        · split <;> try dsimp only
          · exact h
          · split <;> try dsimp only
            · exact h
            · split <;> try dsimp only
              · exact k.setRate _ _ (k.keep h)
              · exact k.keep h
      · exact h
    · unfold State.passThrough; split <;> try dsimp only
      · exact h
      · exact k.propose _ h

theorem handleOperatorCommand (s : State) (n : Byte) (bs : List Byte) (h : Q s) :
    Q (Machine.handleOperatorCommand s n bs).1 := by
  refine answering (fun s is h => ?_) s n bs h
  split <;> try dsimp only
  · exact h
  · split <;> try dsimp only
    · exact k.done (k.operatorCommand _ _ _ (k.weak h))
    · exact h

theorem handleAck (s : State) (n : Byte) (bs : List Byte) (h : Q s) : Q (Machine.handleAck s n bs).1 := by
  refine answering (fun s is h => withObject h fun a => ?_) s n bs h
  split <;> try dsimp only
  · exact h
  · split <;> try dsimp only
    · unfold State.acknowledge; split <;> try dsimp only
      · exact k.done (k.alarmTo _ _ _ (k.keep (k.weak h)))
      · exact k.done (k.alarmTo _ _ _ (k.keep (k.weak h)))
      all_goals exact h
    · exact h

theorem handleShelve (s : State) (n : Byte) (bs : List Byte) (h : Q s) : Q (Machine.handleShelve s n bs).1 := by
  refine answering (fun s is h => withObject h fun a => ?_) s n bs h
  split <;> try dsimp only
  · exact h
  · split <;> try dsimp only
    · exact h
    · split <;> try dsimp only
      · exact h
      · unfold State.shelveAlarm; split <;> try dsimp only
        · exact k.calm.keep h
        · exact k.done (k.post _ (k.alarmTo _ _ _ (k.keep (k.weak h))))

theorem handleUnshelve (s : State) (n : Byte) (bs : List Byte) (h : Q s) : Q (Machine.handleUnshelve s n bs).1 := by
  refine answering (fun s is h => withObject h fun a => ?_) s n bs h
  split <;> try dsimp only
  · exact h
  · split <;> try dsimp only
    · exact k.done (k.shelveEnds _ _ (k.weak h))
    · exact h

theorem handleSilence (s : State) (n : Byte) (bs : List Byte) (h : Q s) : Q (Machine.handleSilence s n bs).1 := by
  refine answering (fun s is h => ?_) s n bs h
  dsimp only
  exact k.calm.modAlarmUnit _ h

theorem handleRearm (s : State) (n : Byte) (bs : List Byte) (h : Q s) : Q (Machine.handleRearm s n bs).1 := by
  refine answering (fun s is h => withObject h fun _ => ?_) s n bs h
  dsimp only
  exact k.calm.modAlarmUnit _ h

omit k in
theorem handleReadAlarm (s : State) (n : Byte) (bs : List Byte) (h : Q s) : Q (Machine.handleReadAlarm s n bs).1 :=
  answering (fun _ _ h => withObject h fun _ => h) s n bs h

theorem handleReadReport (s : State) (n : Byte) (bs : List Byte) (h : Q s) : Q (Machine.handleReadReport s n bs).1 := by
  refine answering (fun s is h => ?_) s n bs h
  split <;> try dsimp only
  · unfold State.readClosed; split <;> try dsimp only
    · exact k.calm.collect (s := s) _ rfl h
    · exact h
  · exact h

theorem handleCloseShift (s : State) (n : Byte) (bs : List Byte) (h : Q s) : Q (Machine.handleCloseShift s n bs).1 := by
  refine answering (fun s is h => ?_) s n bs h
  dsimp only
  exact k.calm.closeShift _ _ h

theorem clockChanged (h : Q s) : Q s.clockChanged := by
  unfold State.clockChanged State.recomputeBoundary
  exact k.calm.flagRecord _ (k.modShift _ rfl rfl h)

theorem setClock (d m) (h : Q s) : Q (s.setClock d m) := by
  unfold State.setClock
  exact k.clockChanged (k.modShift _ rfl rfl h)

theorem setPlan (p) (h : Q s) : Q (s.setPlan p) := by
  unfold State.setPlan
  exact k.clockChanged (k.modShift _ rfl rfl h)

theorem handleSetClock (s : State) (n : Byte) (bs : List Byte) (h : Q s) : Q (Machine.handleSetClock s n bs).1 := by
  refine answering (fun s is h => ?_) s n bs h
  split <;> try dsimp only
  · exact k.setClock _ _ h
  · exact h

omit k in
theorem handleReadStatus (s : State) (n : Byte) (bs : List Byte) (h : Q s) : Q (Machine.handleReadStatus s n bs).1 := by
  refine answering (fun s is h => ?_) s n bs h
  repeat' split
  all_goals try dsimp only [refuse]
  all_goals exact h

theorem handleSetSilence (s : State) (n : Byte) (bs : List Byte) (h : Q s) : Q (Machine.handleSetSilence s n bs).1 := by
  refine answering (fun s is h => ?_) s n bs h
  split <;> try dsimp only
  · exact k.calm.keep h
  · exact h

theorem handleReset (s : State) (n : Byte) (bs : List Byte) (h : Q s) : Q (Machine.handleReset s n bs).1 :=
  answering (fun _ _ h => k.calm.keep h) s n bs h

/-! ### The tables -/

omit k in
theorem writeAt {E : Type} {size : Nat} {base : Int} {i : Nat} {fs : List FieldKind} {mk : List Item → Option E}
    {ok busy : Fin size → E → Bool} {take : Fin size → E → State} {is : List Item} (h : Q s)
    (ht : ∀ n e, Q (take n e)) : Q (Machine.writeAt size base s i fs mk ok busy take is).1 := by
  unfold Machine.writeAt; split
  · exact h
  · split
    · exact h
    · split
      · split
        · exact h
        · exact ht _ _
      · exact h

omit k in
theorem clearAt {size : Nat} {base : Int} {i : Nat} {busy : Fin size → Bool} {take : Fin size → State} (h : Q s)
    (ht : ∀ n, Q (take n)) : Q (Machine.clearAt size base s i busy take).1 := by
  unfold Machine.clearAt; split
  · exact h
  · split
    · exact h
    · exact ht _

theorem writeCompartment (i e) (h : Q s) : Q (s.writeCompartment i e) := k.done (k.applyFan _ _ (k.keep (k.weak h)))

theorem writeBurner (b e) (h : Q s) : Q (s.writeBurner b e) :=
  k.calm.setBurner _ _ h (State.freshFlags_flagged s { s.burners[b] with entry := e })

theorem writeZone (z e) (h : Q s) : Q (s.writeZone z e) :=
  k.done (k.applyFans _ (k.settleRedMark _ (k.keep (k.weak h))))

theorem leaveState (a w) (h : P s) : P (s.leaveState a w) := by
  unfold State.leaveState; split
  · exact h
  · exact k.notice _ (k.reportAlarmHolds (k.leaveRaised _ h))

theorem writeAlarm (a e) (h : Q s) : Q (s.writeAlarm a e) := k.done (k.leaveState _ _ (k.modAlarm _ _ (k.weak h)))

/-- What a table does keeps the property. -/
structure Kept (Q : State → Prop) (t : Table) : Prop where
  write : ∀ s i is, Q s → Q (t.write s i is).1
  clear : ∀ s i, Q s → Q (t.clear s i).1

theorem roundTable : Kept Q roundTable where
  write s i is h := by
    show Q (writeRound s i is).1
    unfold writeRound; split
    · exact h
    · exact writeAt h fun _ _ => k.calm.modFloor _ h
  clear s i h := by
    show Q (clearRound s i).1
    unfold clearRound; split
    · exact h
    · exact clearAt h fun _ => k.calm.modFloor _ h

theorem tableKept (t : Table) (m : t ∈ tables) : Kept Q t := by
  simp only [tables, List.mem_cons, List.not_mem_nil, or_false] at m
  rcases m with rfl | rfl | rfl | rfl | rfl | rfl | rfl | rfl | rfl | rfl | rfl | rfl
  · exact k.roundTable
  · exact ⟨fun _ _ _ h => writeAt h fun _ _ => k.writePoint _ _ h, fun _ _ h => clearAt h fun _ => k.writePoint _ _ h⟩
  · exact ⟨fun _ _ _ h => writeAt h fun _ _ => k.writeBurner _ _ h, fun _ _ h => clearAt h fun _ => k.writeBurner _ _ h⟩
  · exact ⟨fun _ _ _ h => writeAt h fun _ _ => k.calm.keep h, fun _ _ h => clearAt h fun _ => k.calm.keep h⟩
  · exact ⟨fun _ _ _ h => writeAt h fun _ _ => k.calm.keep h, fun _ _ h => clearAt h fun _ => k.calm.keep h⟩
  · exact ⟨fun _ _ _ h => writeAt h fun _ _ => k.writeCompartment _ _ h,
      fun _ _ h => clearAt h fun _ => k.calm.keep h⟩
  · exact ⟨fun _ _ _ h => writeAt h fun _ _ => k.writeZone _ _ h, fun _ _ h => clearAt h fun _ => k.writeZone _ _ h⟩
  · exact ⟨fun _ _ _ h => writeAt h fun _ _ => k.calm.keep h, fun _ _ h => clearAt h fun _ => k.calm.keep h⟩
  · exact ⟨fun _ _ _ h => writeAt h fun _ _ => k.writeAlarm _ _ h, fun _ _ h => clearAt h fun _ => k.writeAlarm _ _ h⟩
  · exact ⟨fun _ _ _ h => writeAt h fun _ _ => k.calm.keep h, fun _ _ h => clearAt h fun _ => k.calm.keep h⟩
  · exact ⟨fun _ _ _ h => writeAt h fun _ _ => k.setPlan _ h, fun _ _ h => clearAt h fun _ => k.setPlan _ h⟩
  · exact ⟨fun _ _ _ h => writeAt h fun _ _ => k.calm.keep h, fun _ _ h => clearAt h fun _ => k.calm.keep h⟩

theorem handleWrite (s : State) (n : Byte) (bs : List Byte) (h : Q s) : Q (Machine.handleWrite s n bs).1 := by
  unfold Machine.handleWrite; split
  · split
    · exact h
    · exact h
    · next t _ ht =>
      split
      · exact (k.tableKept t (List.mem_of_getElem? ht)).write _ _ _ h
      · exact h
  · exact h

theorem handleClear (s : State) (n : Byte) (bs : List Byte) (h : Q s) : Q (Machine.handleClear s n bs).1 := by
  unfold Machine.handleClear; split
  · split
    · exact h
    · next t ht => exact (k.tableKept t (List.mem_of_getElem? ht)).clear _ _ h
  · exact h

omit k in
theorem handleRead (s : State) (n : Byte) (bs : List Byte) (h : Q s) : Q (Machine.handleRead s n bs).1 := by
  unfold Machine.handleRead; split
  · split <;> exact h
  · exact h

/-! ### Commands and steps -/

theorem advance (t) (h : Q s) : Q (s.advance t) := k.calm.keep h

theorem exec (i : Instr) {t : State} (h : Q s) (e : Machine.exec i s = .next t) : Q t := by
  cases i <;> refine k.conclude ?_ e
  case powerOnReset => exact k.calm.powerOn _ _
  case resetPinReset => exact k.resetPart _ _ _ (k.advance _ h)
  case commandedReset =>
    unfold State.commandedReset; split
    · exact k.resetPart _ _ _ h
    · exact h
  case roundMark => exact k.roundMark h
  case slotOutcome => exact k.slotOutcome _ _ _ h
  case roundJudgement => exact k.roundJudgement h
  case commandSlot => exact k.commandSlot _ h
  case haltedDigestTimerExpiry => exact k.calm.haltedDigest h
  case purgeTimerExpiry => exact k.done (k.purgeExpiry _ (k.weak h))
  case ignitionTrialExpiry => exact k.done (k.trialExpiry _ (k.weak h))
  case lightoffTimerExpiry => exact k.done (k.lightoffExpiry _ (k.weak h))
  case doseTimerExpiry => exact k.done (k.doseExpiry _ (k.weak h))
  case deviationTimerExpiry => exact k.done (k.deviationExpiry _ (k.weak h))
  case startTimerExpiry => exact k.done (k.startExpiry (k.weak h))
  case strokeTimerExpiry => exact k.done (k.strokeExpiry _ (k.weak h))
  case onDelayExpiry => exact k.done (k.onDelayExpiry _ (k.weak h))
  case shelveTimerExpiry => exact k.done (k.shelveExpiry _ (k.weak h))
  case boundaryTimerExpiry => exact k.calm.boundaryExpiry h
  case characterArrival => exact k.takeChar _ (k.advance _ h)
  case lineBreak => exact k.calm.keep h
  case gapTimerExpiry => exact k.calm.gapExpiry h
  case silenceTimerExpiry => exact k.silenceExpiry h
  case frameSent => exact k.calm.sent (k.advance _ h)
  case unknownKindRequest => exact k.serve (fun _ _ _ h => h) h
  case writeEntry => exact k.serve k.handleWrite h
  case readEntry => exact k.serve handleRead h
  case clearEntry => exact k.serve k.handleClear h
  case commitRound => exact k.serve k.handleCommit h
  case lineEnable => exact k.serve k.handleLineEnable h
  case startRounds => exact k.serve k.handleStart h
  case singleRound => exact k.serve k.handleSingle h
  case stopRounds => exact k.serve k.handleStop h
  case force => exact k.serve k.handleForce h
  case unforce => exact k.serve k.handleUnforce h
  case readPoint => exact k.serve handleReadPoint h
  case burnerStart => exact k.serve k.handleBurnerStart h
  case burnerStop => exact k.serve k.handleBurnerStop h
  case burnerReset => exact k.serve k.handleBurnerReset h
  case setDemand => exact k.serve k.handleSetDemand h
  case lineService => exact k.serve k.handleLineService h
  case lineMode => exact k.serve k.handleLineMode h
  case lineReset => exact k.serve k.handleLineReset h
  case coolerStart => exact k.serve k.handleCoolerStart h
  case coolerStop => exact k.serve k.handleCoolerStop h
  case coolerSafe => exact k.serve k.handleCoolerSafe h
  case coolerResetSafe => exact k.serve k.handleCoolerResetSafe h
  case runReset => exact k.serve k.handleRunReset h
  case runMode => exact k.serve k.handleRunMode h
  case operatorCommand => exact k.serve k.handleOperatorCommand h
  case ack => exact k.serve k.handleAck h
  case shelve => exact k.serve k.handleShelve h
  case unshelve => exact k.serve k.handleUnshelve h
  case silence => exact k.serve k.handleSilence h
  case firstoutRearm => exact k.serve k.handleRearm h
  case readAlarm => exact k.serve handleReadAlarm h
  case readReport => exact k.serve k.handleReadReport h
  case closeShift => exact k.serve k.handleCloseShift h
  case setClock => exact k.serve k.handleSetClock h
  case readStatus => exact k.serve handleReadStatus h
  case setSilenceTime => exact k.serve k.handleSetSilence h
  case resetRequest => exact k.serve k.handleReset h

theorem step {t : State} (h : Q s) (e : Machine.step s = .next t) : Q t := by
  unfold Machine.step State.idle at e
  split at e
  · exact k.exec _ (k.calm.keep h) e
  · split at e
    · exact k.exec _ h e
    · cases e
      exact k.calm.keep h

end Sys2Proof.Machine.Event
end

