-- ==== Sys2Proof/Laws/Sound.lean ====
section
/-!
SUPPORT. The queues and the ring keep their form through every operation on them.
-/
namespace Sys2Proof.Machine

/-! ### The command queue -/

/-- Two entries that a merge would have made one. -/
abbrev mergeable (e f : QueueEntry) : Prop := e.kind.isLevel = true ∧ e.station = f.station ∧ e.kind = f.kind

/-- The form of the command queue but for its places. -/
structure Ordered (q : List QueueEntry) : Prop where
  order : q.Pairwise fun e f => e.cls.rank ≤ f.cls.rank
  single : q.Pairwise fun e f => ¬ mergeable e f

theorem Ordered.sublist {q r : List QueueEntry} (h : Ordered q) (hs : r.Sublist q) : Ordered r :=
  ⟨h.order.sublist hs, h.single.sublist hs⟩

theorem insertTail_perm (e : QueueEntry) (q : List QueueEntry) : (insertTail e q).Perm (e :: q) := by
  unfold insertTail
  refine List.perm_middle.trans (List.Perm.cons e ?_)
  rw [List.takeWhile_append_dropWhile]

theorem Ordered.insertTail {q : List QueueEntry} (h : Ordered q) (e : QueueEntry) (he : ∀ f ∈ q, ¬ mergeable e f) :
    Ordered (insertTail e q) := by
  constructor
  · unfold Machine.insertTail
    generalize ha : q.takeWhile (fun x => decide (x.cls.rank ≤ e.cls.rank)) = a
    generalize hb : q.dropWhile (fun x => decide (x.cls.rank ≤ e.cls.rank)) = b
    have hq : q = a ++ b := by rw [← ha, ← hb, List.takeWhile_append_dropWhile]
    have ho := h.order
    rw [hq, List.pairwise_append] at ho
    have low : ∀ x ∈ a, x.cls.rank ≤ e.cls.rank := fun x hx => by
      have := List.mem_takeWhile_imp (ha ▸ hx); simpa using this
    have high : ∀ x ∈ b, e.cls.rank ≤ x.cls.rank := by
      cases b with
      | nil => simp
      | cons y b =>
        have hy : ¬ y.cls.rank ≤ e.cls.rank := by
          have := List.head_dropWhile_not (fun x : QueueEntry => decide (x.cls.rank ≤ e.cls.rank)) (l := q)
            (by rw [hb]; simp)
          simpa [hb] using this
        intro x hx
        rcases List.mem_cons.mp hx with rfl | hx
        · omega
        · have := (List.pairwise_cons.mp ho.2.1).1 x hx; omega
    rw [List.pairwise_append, List.pairwise_cons]
    refine ⟨ho.1, ⟨high, ho.2.1⟩, fun x hx y hy => ?_⟩
    rcases List.mem_cons.mp hy with rfl | hy
    · exact low x hx
    · exact ho.2.2 x hx y hy
  · rw [(insertTail_perm e q).pairwise_iff, List.pairwise_cons]
    · exact ⟨he, h.single⟩
    · rintro x y hn ⟨a, b, c⟩
      exact hn ⟨by rw [← c]; exact a, b.symm, c.symm⟩

theorem mergeCommand_ordered {q r : List QueueEntry} {p : Proposal} {now : Time} (h : Ordered q)
    (e : mergeCommand q p now = some r) : Ordered r ∧ r.length = q.length := by
  unfold mergeCommand at e
  split at e
  · next hl =>
    split at e
    · cases e
    · next w hw =>
      split at e
      · cases e
        obtain ⟨hp, a, b, rfl, ha⟩ := List.find?_eq_some_iff_append.mp hw
        have hn : ∀ x ∈ a, ¬ sameCommand p.station p.kind x = true := fun x hx => by simpa using ha x hx
        rw [List.eraseP_append_right _ hn, List.eraseP_cons_of_pos hp]
        have hs : (a ++ b).Sublist (a ++ w :: b) := List.Sublist.append_left (List.sublist_cons_self _ _) a
        have hwp := (sameCommand_iff _ _ _).mp hp
        refine ⟨(h.sublist hs).insertTail _ fun f hf hm => ?_, ?_⟩
        · rcases List.mem_append.mp hf with hf | hf
          · exact hn f hf ((sameCommand_iff _ _ _).mpr ⟨hm.2.1.symm, hm.2.2.symm⟩)
          · have := (List.pairwise_cons.mp (List.pairwise_append.mp h.single).2.1).1 f hf
            exact this ⟨by rw [hwp.2]; exact hl, hwp.1.trans hm.2.1, hwp.2.trans hm.2.2⟩
        · rw [(insertTail_perm _ _).length_eq]; simp; omega
      · cases e
        refine ⟨⟨?_, ?_⟩, by simp⟩
        · rw [List.pairwise_map]
          refine h.order.imp fun {x y} hxy => ?_
          split <;> split <;> exact hxy
        · rw [List.pairwise_map]
          refine h.single.imp fun {x y} hxy => ?_
          split <;> split <;> exact hxy
  · cases e

theorem mergeCommand_clear {q : List QueueEntry} {p : Proposal} {now t : Time} (e : mergeCommand q p now = none) :
    ∀ f ∈ q, ¬ mergeable (p.entry t) f := by
  rintro f hf ⟨a, b, c⟩
  have := mergeCommand_isSome q p now a ⟨f, hf, b.symm, c.symm⟩
  rw [e] at this; cases this

theorem tellOwner_queues (s : State) (e : QueueEntry) (v : Bool) : (s.tellOwner e v).queues = s.queues := by
  unfold State.tellOwner Option.elim
  split
  · split <;> rfl
  · split <;> rfl
  · split <;> rfl
  · split <;> rfl
  · split <;> rfl
  · rfl
  · split <;> rfl

theorem commandLost_queues (s : State) (e : QueueEntry) (v : Bool) : (s.commandLost e v).queues = s.queues := by
  unfold State.commandLost
  rw [tellOwner_queues]
  unfold State.queues State.modQueue State.post State.modShift CommandQueue.countOverrun
  cases e.cls <;> rfl

theorem youngest_drop {c : CommandClass} {q : List QueueEntry} {e : QueueEntry} (h : youngest c q = some e) :
    (dropYoungest c q).Sublist q ∧ (dropYoungest c q).length = q.length - 1 := by
  unfold youngest at h
  unfold dropYoungest
  constructor
  · have := (List.eraseP_sublist (p := (·.cls == c)) (l := q.reverse)).reverse
    simpa using this
  · rw [List.length_reverse, List.length_eraseP_of_mem (List.mem_of_find?_eq_some h) (List.find?_some h), List.length_reverse]

/-- A proposal changes of the queues the command queue alone, which keeps its places and its form. -/
theorem propose_queues (s : State) (p : Proposal) (h : Ordered s.queue.list) (hl : s.queue.list.length ≤ 32) :
    ∃ q, (s.propose p).queues = { s.queues with commands := q } ∧ Ordered q ∧ q.length ≤ 32 := by
  unfold State.propose
  split
  · next q hq =>
    have := mergeCommand_ordered h hq
    exact ⟨q, rfl, this.1, by omega⟩
  · next hn =>
    split
    · next hr =>
      refine ⟨_, rfl, h.insertTail _ (mergeCommand_clear hn), ?_⟩
      refine (insertTail_perm _ _).length_eq.trans_le ?_
      simp [Config.queuePlaces] at hr ⊢; omega
    · next hr =>
      split
      · next c e hv =>
        obtain ⟨d, hd⟩ : ∃ d, evictionClass s.queue.list p.cls = some d := by
          cases hc : evictionClass s.queue.list p.cls with
          | none => rw [hc] at hv; cases hv
          | some d => exact ⟨d, rfl⟩
        rw [hd] at hv
        simp only [Option.bind_some, Option.map_eq_some_iff, Prod.mk.injEq] at hv
        obtain ⟨y, hy, rfl, rfl⟩ := hv
        have hs := youngest_drop hy
        rw [commandLost_queues]
        refine ⟨_, rfl, (h.sublist hs.1).insertTail _ fun f hf => mergeCommand_clear hn f (hs.1.subset hf), ?_⟩
        refine (insertTail_perm _ _).length_eq.trans_le ?_
        simp only [Config.queuePlaces] at hr
        show (dropYoungest d s.queue.list).length + 1 ≤ 32
        omega
      · rw [commandLost_queues]
        exact ⟨s.queue.list, rfl, h, hl⟩

/-! ### The transmit queue -/

/-- The form of the transmit queue. -/
structure Waiting (q : List TxFrame) : Prop where
  places : q.length ≤ 16
  digest : (q.filter (·.kind == .digest)).length ≤ 1

theorem Waiting.sublist {q r : List TxFrame} (h : Waiting q) (hs : r.Sublist q) : Waiting r :=
  ⟨hs.length_le.trans h.places, (hs.filter _).length_le.trans h.digest⟩

theorem Waiting.append {q : List TxFrame} (h : Waiting q) (hl : q.length < 16) {f : TxFrame}
    (hf : f.kind ≠ .digest ∨ holdsKind .digest q = false) : Waiting (q ++ [f]) := by
  refine ⟨by simp; omega, ?_⟩
  rw [List.filter_append, List.length_append]
  rcases hf with hf | hf
  · have : ([f].filter (·.kind == .digest)) = [] := by simp [hf]
    rw [this]; simpa using h.digest
  · have : (q.filter (·.kind == .digest)) = [] := by
      unfold holdsKind at hf
      rw [List.filter_eq_nil_iff]; intro a ha; simpa using (List.any_eq_false.mp hf a ha)
    rw [this]
    exact (Nat.zero_add _).trans_le (List.length_filter_le _ _)

/-- What the offer of a frame leaves as it was, and the form that the transmit queue keeps. -/
structure Offered (s t : State) : Prop where
  same : t.queues = { s.queues with frames := t.port.txQueue, sending := t.port.sending }
  waiting : Waiting t.port.txQueue
  idle : t.port.sending = none → t.port.txQueue = []

theorem dropFirst_length {k : TxKind} {q : List TxFrame} (h : holdsKind k q = true) :
    (dropFirstKind k q).length = q.length - 1 := by
  obtain ⟨a, ha, hk⟩ := List.any_eq_true.mp h
  exact List.length_eraseP_of_mem ha hk

theorem queueReplyFrame_form (s : State) (f : TxFrame) (hf : f.kind ≠ .digest) (h : Waiting s.port.txQueue) :
    (s.queueReplyFrame f).queues = { s.queues with frames := (s.queueReplyFrame f).port.txQueue } ∧
      Waiting (s.queueReplyFrame f).port.txQueue := by
  have sub := fun k => h.sublist (r := dropFirstKind k s.port.txQueue) List.eraseP_sublist
  have hp := h.places
  unfold State.queueReplyFrame
  split
  · next hl => exact ⟨rfl, h.append hl (.inl hf)⟩
  · next hl =>
    simp only [Config.transmitPlaces] at hl
    split
    · next hk => exact ⟨rfl, (sub .notice).append (by rw [dropFirst_length hk]; omega) (.inl hf)⟩
    · split
      · next hk => exact ⟨rfl, (sub .digest).append (by rw [dropFirst_length hk]; omega) (.inl hf)⟩
      · exact ⟨rfl, h⟩

theorem queueDigestFrame_form (s : State) (f : TxFrame) (hf : f.kind = .digest) (h : Waiting s.port.txQueue) :
    (s.queueDigestFrame f).queues = { s.queues with frames := (s.queueDigestFrame f).port.txQueue } ∧
      Waiting (s.queueDigestFrame f).port.txQueue := by
  unfold State.queueDigestFrame
  split
  · refine ⟨rfl, ⟨?_, ?_⟩⟩
    · show (List.map _ _).length ≤ 16
      rw [List.length_map]; exact h.places
    · show (List.filter _ (List.map _ _)).length ≤ 1
      rw [List.filter_map, List.length_map]
      refine le_trans (le_of_eq ?_) h.digest
      congr 1
      refine List.filter_congr fun g _ => ?_
      simp only [Function.comp]
      split
      · next hg => rw [hf, hg]; rfl
      · rfl
  · next hk =>
    split
    · next hl => exact ⟨rfl, h.append hl (.inr (by simpa using hk))⟩
    · exact ⟨rfl, h⟩

theorem queueNoticeFrame_form (s : State) (f : TxFrame) (hf : f.kind ≠ .digest) (h : Waiting s.port.txQueue) :
    (s.queueNoticeFrame f).queues = { s.queues with frames := (s.queueNoticeFrame f).port.txQueue } ∧
      Waiting (s.queueNoticeFrame f).port.txQueue := by
  unfold State.queueNoticeFrame
  split
  · next hl => exact ⟨rfl, h.append hl (.inl hf)⟩
  · exact ⟨rfl, h⟩

theorem startSending_form (s : State) (now : Time) (h : Waiting s.port.txQueue) :
    Offered s (s.modPort fun p => p.startSending now) := by
  have e : (s.port.startSending now).rxQueue = s.port.rxQueue ∧ Waiting (s.port.startSending now).txQueue ∧
      ((s.port.startSending now).sending = none → (s.port.startSending now).txQueue = []) := by
    unfold Port.startSending
    split
    · next hs hq => exact ⟨rfl, h.sublist (hq ▸ List.sublist_cons_self _ _), fun x => by cases x⟩
    · next hn =>
      refine ⟨rfl, h, fun hs => ?_⟩
      cases hq : s.port.txQueue with
      | nil => rfl
      | cons f r => exact (hn f r hs hq).elim
  exact ⟨by simp [State.queues, State.modPort, e.1], e.2.1, e.2.2⟩

theorem offerFrame_form (s : State) (f : TxFrame) (h : Waiting s.port.txQueue) : Offered s (s.offerFrame f) := by
  have done : ∀ u : State, u.queues = { s.queues with frames := u.port.txQueue } → Waiting u.port.txQueue →
      Offered s (u.modPort fun p => p.startSending s.timeBase) := by
    intro u hu hw
    have := startSending_form u s.timeBase hw
    exact ⟨by rw [this.same, hu], this.waiting, this.idle⟩
  have hR := queueReplyFrame_form s f
  have hD := queueDigestFrame_form s f
  have hN := queueNoticeFrame_form s f
  unfold State.offerFrame
  cases hk : f.kind
  · exact done _ (hR (by simp [hk]) h).1 (hR (by simp [hk]) h).2
  all_goals first
    | exact done _ (hR (by simp [hk]) h).1 (hR (by simp [hk]) h).2
    | exact done _ (hD hk h).1 (hD hk h).2
    | exact done _ (hN (by simp [hk]) h).1 (hN (by simp [hk]) h).2

/-! ### The property -/

/-- `Sound` but for the output lines, with the flags of the burners. -/
structure Form (x : Queues) : Prop where
  ordered : Ordered x.commands
  commands : x.commands.length ≤ 32
  ring : x.ring.length ≤ 8
  numbers : ∀ i (h : i < x.ring.length), (x.ring[i]).sequence + BitVec.ofNat 32 (x.ring.length - i) = x.next
  requests : x.requests.length ≤ 4
  waiting : Waiting x.frames
  idle : x.sending = none → x.frames = []
  flagged : ∀ b, x.flagged b = true

theorem Offered.form {s t : State} (o : Offered s t) (h : Form s.queues) : Form t.queues := by
  rw [o.same]
  exact ⟨h.ordered, h.commands, h.ring, h.numbers, h.requests, o.waiting, o.idle, h.flagged⟩

theorem steadyForm : Steady fun s => Form s.queues where
  same e h := by rw [e]; exact h
  hand {s t} l e h := by
    rw [e]; exact ⟨h.ordered, h.commands, h.ring, h.numbers, h.requests, h.waiting, h.idle, h.flagged⟩
  flag {s t} b e h := by
    rw [e]
    refine ⟨h.ordered, h.commands, h.ring, h.numbers, h.requests, h.waiting, h.idle, fun j => ?_⟩
    by_cases hj : j = b
    · subst hj; simp
    · exact (Function.update_of_ne hj _ _).trans (h.flagged j)
  propose {s} p h := by
    obtain ⟨q, e, ho, hl⟩ := propose_queues s p h.ordered h.commands
    rw [e]
    exact ⟨ho, hl, h.ring, h.numbers, h.requests, h.waiting, h.idle, h.flagged⟩
  offer {s} f h := (offerFrame_form s f h.waiting).form h
  leave {s e rest} hq h := by
    have hs : rest.Sublist s.queue.list := hq ▸ List.sublist_cons_self _ _
    exact ⟨h.ordered.sublist hs, hs.length_le.trans h.commands, h.ring, h.numbers, h.requests, h.waiting, h.idle,
      h.flagged⟩
  take {s} h := ⟨h.ordered, h.commands, h.ring, h.numbers,
    (List.drop_sublist 1 s.port.rxQueue).length_le.trans h.requests, h.waiting, h.idle, h.flagged⟩
  receive {s t} f e hl h := by
    rw [e]
    refine ⟨h.ordered, h.commands, h.ring, h.numbers, ?_, h.waiting, h.idle, h.flagged⟩
    simp only [Config.receivePlaces] at hl
    simp; omega
  sent {s} h := by
    unfold State.frameDone
    split
    · exact h
    · next f hf =>
      generalize hu : (s.modPort fun p =>
        { p with sending := none, resetReplySent := p.resetReplySent || (p.resetPending && f.answersReset) }) = u
      have hq : u.queues = { s.queues with sending := none } := by rw [← hu]; rfl
      have o := startSending_form u s.timeBase (by rw [← hu]; exact h.waiting)
      have e : (s.modPort fun p =>
        { p with
          sending := none
          resetReplySent := p.resetReplySent || (p.resetPending && f.answersReset) }.startSending s.timeBase) =
          u.modPort fun p => p.startSending s.timeBase := by rw [← hu]; rfl
      rw [e, o.same, hq]
      exact ⟨h.ordered, h.commands, h.ring, h.numbers, h.requests, o.waiting, o.idle, h.flagged⟩
  enter {s t} r e hr h := by
    rw [e]
    have hring : s.shift.ring.length ≤ 8 := h.ring
    have hnum : ∀ i (h : i < s.shift.ring.length),
      (s.shift.ring[i]).sequence + BitVec.ofNat 32 (s.shift.ring.length - i) = s.shift.nextSequence := h.numbers
    have last : ∀ (l : List ClosedRecord), (∀ i (h : i < l.length),
        (l[i]).sequence + BitVec.ofNat 32 (l.length - i) = s.shift.nextSequence) →
        ∀ i (h : i < (l ++ [r]).length),
          ((l ++ [r])[i]).sequence + BitVec.ofNat 32 ((l ++ [r]).length - i) = s.shift.nextSequence + 1 := by
      intro l hl i hi
      simp only [List.length_append, List.length_singleton] at hi ⊢
      by_cases hc : i < l.length
      · rw [List.getElem_append_left hc, ← hl i hc]
        have : l.length + 1 - i = (l.length - i) + 1 := by omega
        rw [this, BitVec.ofNat_add, ← BitVec.add_assoc]; rfl
      · have : i = l.length := by omega
        subst this
        simp [hr]
    refine ⟨h.ordered, h.commands, ?_, ?_, h.requests, h.waiting, h.idle, h.flagged⟩
    · show (enterRing s.shift.ring r).length ≤ 8
      unfold enterRing
      simp only [List.length_append, List.length_singleton]
      split
      · next hc => exact hc
      · rw [List.length_drop]; omega
    · show ∀ i (h : i < (enterRing s.shift.ring r).length), _
      unfold enterRing
      refine last _ ?_
      split
      · exact hnum
      · intro i hi
        simp only [List.length_drop] at hi ⊢
        rw [List.getElem_drop, ← hnum (1 + i) (by omega)]
        congr 2
        omega
  collect {s t} n e h := by
    rw [e]
    refine ⟨h.ordered, h.commands, ?_, ?_, h.requests, h.waiting, h.idle, h.flagged⟩
    · show (markCollected n s.shift.ring).length ≤ 8
      unfold markCollected
      rw [List.length_map]; exact h.ring
    · intro i hi
      have hi' : i < s.shift.ring.length := by simpa [markCollected] using hi
      have := h.numbers i hi'
      simp only [markCollected, List.length_map, List.getElem_map]
      rw [← this]
      show (if _ then _ else _ : ClosedRecord).sequence + _ = _
      split <;> rfl
  blank {s t} e h := by
    rw [e]
    exact ⟨⟨List.Pairwise.nil, List.Pairwise.nil⟩, by simp, h.ring, h.numbers, by simp, ⟨by simp, by simp⟩, fun _ => rfl,
      fun _ => rfl⟩
  fresh {t} e := by
    rw [e]
    refine ⟨⟨List.Pairwise.nil, List.Pairwise.nil⟩, ?_, ?_, ?_, ?_, ⟨?_, ?_⟩, ?_, ?_⟩ <;> decide

/-- The form of the queues between events: no command waits to be queued. -/
def Between (s : State) : Prop := Form s.queues ∧ s.queues.submitted = []

theorem frameDone_submitted (s : State) : s.frameDone.queues.submitted = s.queues.submitted := by
  unfold State.frameDone; split <;> rfl

theorem calmBetween : Calm Between where
  same e h := ⟨steadyForm.same e h.1, by rw [e]; exact h.2⟩
  propose {s} p h := ⟨steadyForm.propose p h.1, (s.propose_submitted p).trans h.2⟩
  offer {s} f h := ⟨steadyForm.offer f h.1, by rw [(offerFrame_form s f h.1.waiting).same]; exact h.2⟩
  leave hq h := ⟨steadyForm.leave hq h.1, h.2⟩
  take h := ⟨steadyForm.take h.1, h.2⟩
  receive f e hl h := ⟨steadyForm.receive f e hl h.1, by rw [e]; exact h.2⟩
  flag b e h := ⟨steadyForm.flag b e h.1, by rw [e]; exact h.2⟩
  sent {s} h := ⟨steadyForm.sent h.1, (frameDone_submitted s).trans h.2⟩
  enter r e hr h := ⟨steadyForm.enter r e hr h.1, by rw [e]; exact h.2⟩
  collect n e h := ⟨steadyForm.collect n e h.1, by rw [e]; exact h.2⟩
  blank e h := ⟨steadyForm.blank e h.1, by rw [e]⟩
  fresh e := ⟨steadyForm.fresh e, by rw [e]; rfl⟩

theorem Burner.flagged_iff (x : Burner) : x.flagged = true ↔
    ∀ e, x.entry.filter (·.inUse) = some e → x.permOk.length = e.permissives.length := by
  unfold Burner.flagged
  cases x.entry.filter (·.inUse) with
  | none => simp
  | some e => simp

/-- The end of an event hands the queue all commands that wait. -/
theorem eventBetween : Event (fun s => Form s.queues) Between :=
  { steadyForm with
    calm := calmBetween
    weak := fun h => h.1
    done := fun h => ⟨steadyForm.finish h, State.flush_submitted _⟩ }

theorem Sound_iff (s : State) : s.Sound ↔ Between s ∧ s.LinesFollow :=
  ⟨fun h => ⟨⟨⟨⟨h.order, h.single⟩, h.commands, h.ring, h.numbers, h.requests, ⟨h.frames, h.digest⟩, h.idle,
      fun b => ((s.burners[b]).flagged_iff).mpr (h.permissives b)⟩, h.submitted⟩, h.lines⟩,
   fun ⟨⟨h, e⟩, l⟩ => ⟨h.commands, h.ordered.order, h.ordered.single, e, h.ring, h.numbers, h.requests, h.waiting.places,
     h.waiting.digest, h.idle, fun b => ((s.burners[b]).flagged_iff).mp (h.flagged b), l⟩⟩

end Sys2Proof.Machine
end

