-- ==== Sys2Proof/WellFormed.lean ====
section
/-!
DEFINITION. When a command can come about at all: a time-base reading fits the 64-bit time base (R1), and the bytes
that arrive within one station slot fit the slot.
-/
namespace Sys2Proof

/-- R1: the time base is a 64-bit count. -/
def timeOk (t : Time) : Bool := t < 2 ^ 64

/-- A line runs at 10 Mbit/s (section 1.1) and a slot lasts 64 µs (R4), so at most 640 bits, 80 bytes, arrive in it. -/
def slotBytesOk (bytes : List Byte) : Bool := bytes.length ≤ 80

/-- A command that the part's surroundings can bring about. The constructors' own types bound every object number. -/
def Instr.wellFormed : Instr → Bool
  | .resetPinReset t _ _ => timeOk t
  | .slotOutcome t a b => timeOk t && slotBytesOk a && slotBytesOk b
  | .commandSlot t => timeOk t
  | .characterArrival t _ => timeOk t
  | .lineBreak t => timeOk t
  | .frameSent t => timeOk t
  | .powerOnReset _ _ => true
  | .commandedReset _ _ => true
  | .roundMark => true
  | .roundJudgement => true
  | .haltedDigestTimerExpiry => true
  | .purgeTimerExpiry _ => true
  | .ignitionTrialExpiry _ => true
  | .lightoffTimerExpiry _ => true
  | .doseTimerExpiry _ => true
  | .deviationTimerExpiry _ => true
  | .startTimerExpiry => true
  | .strokeTimerExpiry _ => true
  | .onDelayExpiry _ => true
  | .shelveTimerExpiry _ => true
  | .boundaryTimerExpiry => true
  | .gapTimerExpiry => true
  | .silenceTimerExpiry => true
  | .unknownKindRequest => true
  | .writeEntry => true
  | .readEntry => true
  | .clearEntry => true
  | .commitRound => true
  | .lineEnable => true
  | .startRounds => true
  | .singleRound => true
  | .stopRounds => true
  | .force => true
  | .unforce => true
  | .readPoint => true
  | .burnerStart => true
  | .burnerStop => true
  | .burnerReset => true
  | .setDemand => true
  | .lineService => true
  | .lineMode => true
  | .lineReset => true
  | .coolerStart => true
  | .coolerStop => true
  | .coolerSafe => true
  | .coolerResetSafe => true
  | .runReset => true
  | .runMode => true
  | .operatorCommand => true
  | .ack => true
  | .shelve => true
  | .unshelve => true
  | .silence => true
  | .firstoutRearm => true
  | .readAlarm => true
  | .readReport => true
  | .closeShift => true
  | .setClock => true
  | .readStatus => true
  | .setSilenceTime => true
  | .resetRequest => true

end Sys2Proof
end

