-- ==== Sys2Proof/Tests/Slice0.lean ====
section
/-!
SUPPORT. Tests: ill-formed commands that the well-formedness check refuses, worked examples of the spec, and for every
statement with hypotheses a state and operands that meet them, with the answers at the boundaries of its clauses.
-/
namespace Sys2Proof.Tests

set_option Elab.async false
open Sys2Proof Sys2Proof.Machine

/-! ### Well-formed commands -/

def char (data : Byte) (mark parity : Bool) : PlantChar :=
  { data := data, mark := mark, parity := parity, stopHigh := true, noisy := false, overrun := false }

theorem test_late_reset_ill_formed : (Instr.resetPinReset (2 ^ 64) false false).wellFormed = false := by decide +kernel
theorem test_late_slot_ill_formed : (Instr.slotOutcome (2 ^ 64) [] []).wellFormed = false := by decide +kernel
theorem test_long_slot_a_ill_formed :
    (Instr.slotOutcome 0 (List.replicate 81 0) []).wellFormed = false := by decide +kernel
theorem test_long_slot_b_ill_formed :
    (Instr.slotOutcome 0 [] (List.replicate 81 0)).wellFormed = false := by decide +kernel
theorem test_full_slot_well_formed :
    (Instr.slotOutcome (2 ^ 64 - 1) (List.replicate 80 0) (List.replicate 80 0)).wellFormed = true := by decide +kernel
theorem test_late_command_slot_ill_formed : (Instr.commandSlot (2 ^ 64)).wellFormed = false := by decide +kernel
theorem test_late_character_ill_formed :
    (Instr.characterArrival (2 ^ 64) (char 0 true true)).wellFormed = false := by decide +kernel
theorem test_late_break_ill_formed : (Instr.lineBreak (2 ^ 64)).wellFormed = false := by decide +kernel
theorem test_late_frame_sent_ill_formed : (Instr.frameSent (2 ^ 64)).wellFormed = false := by decide +kernel

/-! ### A plant with every kind of object in use -/

def pointOf (station field : Nat) (kind : RawKind) : PointEntry :=
  { inUse := true, station := station, field := field, kind := kind, gain := some 1024, offset := some 0, low := 0
    high := 4095, shift := some 0, fresh := 3
    incLimit := if kind = .counter16 then some 2 else none }

def good (e : PointEntry) (v : Int) : Point := { entry := some e, value := v, quality := .good, lastRound := 8 }

def round : RoundTable :=
  { ordinary := [3, 4, 5, 6, 7, 8, 9], quick := [10], gap := 4, period := 10, cmdSlots := 2, quorum := 3, window := 10 }

def burnerOf (ignition : Ignition) (ps : List Permissive) : BurnerEntry :=
  { inUse := true, scanner1 := { intensity := 0, flicker := 1 }, scanner2 := none, onThreshold := 500
    offThreshold := 300, flickerLow := 5, flickerHigh := 90, vote := .any, confirmCount := 2, failureCount := 3
    purgeTime := 60, ignitionTrial := 5, lightoffTime := 10, lightoffFeed := 100, ignition := ignition
    maxDemand := 1000, demandRamp := 10, permissives := ps }

def meterOf (priority : Nat) : Metering :=
  { counter := 3, cv := 3600, weight := 1, priority := priority, fmin := 10, fmax := 500, ramp := 5 }

def lineOf (kind : LineKind) (b : Fin 3) (station bit : Nat) : LineEntry :=
  { inUse := true, kind := kind, burner := b, station := station, flagPoint := 2, flagBit := bit, absenceLimit := 5
    refresh := 10 }

def runEntry : RunEntry :=
  { inUse := true, station := 5, counter := 5, pressure := 4, pressureSet := 500, baseRate := 20, gain := 10
    minRate := 5, maxRate := 60, safeRate := 15, strokeMass := 100, timeoutFactor := 3 }

def alarmOf (source : AlarmSource) (priority : Nat) (action : AlarmAction) : AlarmEntry :=
  { inUse := true, source := source, priority := priority, onDelay := 0, action := action, horn := true, trip := false
    parent := none, group := none, shelving := priority != 1 }

def filterOf (station : Nat) (action : FilterAction) : Option FilterEntry :=
  some { inUse := true, station := station, kind := .fan, action := action }

def plant : State :=
  { State.reset with
    timeBase := 1050
    floor :=
      { active := some round, pendingCopy := some round, state := .normal, linkA := { state := .ok },
        linkB := { state := .ok }, roundNo := 9, stations := Vector.replicate 60 { present := true },
        round := some { markTime := 1045, period := 10, onA := true, onB := true, slots := round.slots, cmdLeft := 2 } }
    points := (((((((Vector.replicate 256 {}
      ).set 0 (good (pointOf 10 0 .u12) 600)
      ).set 1 (good (pointOf 10 1 .u12) 50)
      ).set 2 (good (pointOf 3 0 .flags16) 0)
      ).set 3 (good (pointOf 3 1 .counter16) 7)
      ).set 4 (good (pointOf 5 0 .u12) 500)
      ).set 5 (good (pointOf 5 1 .counter16) 0)
      ).set 6 (good (pointOf 6 0 .u12) 700)
    burners := ((Vector.replicate 3 {}
      ).set 0 { entry := some (burnerOf (.line 1) [{ kind := .pointAtLeast 4 100, running := true }]), permOk := [true] }
      ).set 1 { entry := some (burnerOf (.selfPoint 4 100) []), state := .run, requested := 500, demand := 400, vote := true }
    lines := ((((Vector.replicate 6 {}
      ).set 0 { entry := some (lineOf (.continuous (meterOf 1) 10 3) 0 3 0), state := .ready }
      ).set 1 { entry := some (lineOf .ignition 0 4 1), state := .ready }
      ).set 2 { entry := some (lineOf (.piece (meterOf 1) 40 20) 1 6 2), state := .feeding, feed := 50, target := 80,
                dose := some { start := 1000, interval := 50 } }
      ).set 3 { entry := some (lineOf (.continuous (meterOf 2) 10 3) 1 7 3), state := .feeding, mode := .manual,
                feed := 100, deviation := { timer := some 1060 } }
    cooler :=
      { state := .running, redMark := some 1000
        runs := (Vector.replicate 4 {}).set 0
          { entry := some runEntry, state := .stroking, rate := 20, timer := some { start := 1000, period := 3000 },
            outstanding := [900] }
        compartments := (Vector.replicate 12 {}).set 0
          { entry := some { inUse := true, station := 9, base := 600, safe := 800, boost := 250, zone := some 0 },
            speed := 850 }
        zones := (Vector.replicate 8 {}).set 0
          { entry := some { inUse := true, point := 6, delta := 60, hysteresis := 20, persist := 3 }, active := true } }
    queue := { list := [{ station := 7, kind := .feed, value := 90, cls := .control, origin := .fuel, time := 1040 }] }
    filters := ((Vector.replicate 32 none).set 0 (filterOf 8 (.clamp 10 20))).set 31 (filterOf 9 .pass)
    alarm :=
      { alarms := (((Vector.replicate 192 {}
          ).set 0 { entry := some (alarmOf (.pointHigh 6 600 50) 2 .none), state := .raised, condition := true,
                    occurrence := 4, raiseTime := some 1000 }
          ).set 1 { entry := some (alarmOf (.pointLow 6 100 50) 3 (.holdFuel 1)) }
          ).set 191 { entry := some (alarmOf (.pointLow 6 100 50) 1 (.tripBurner 1)) }
        raisedList := [0] } }

/-- The state with one request waiting, its number 7. -/
def asking (s : State) (kind : Byte) (args : List Byte) : State :=
  { s with port := { s.port with rxQueue := [{ kind := kind, payload := 7 :: args }] } }

/-- A request that waits while the gate is open is offered: the hypothesis that the statements about requests share. -/
theorem asking_offers (s : State) (kind : Byte) (args : List Byte) (h : s.gateOpen = true) :
    (asking s kind args).offers kind 7 args := ⟨h, rfl⟩

theorem test_plant_gate_open : plant.gateOpen = true := by decide +kernel

/-- The payload of the reply that a row queues to a request with the arguments given. -/
def replyTo (s : State) (row : Instr) (kind : Byte) (args : List Byte) : Option (List Byte) :=
  match Machine.exec row (asking s kind args) with
  | .next u => u.port.txQueue.getLast?.map (·.payload)
  | _ => none

def one (n : Int) : List Byte := itemInt 1 n
def two (n m : Int) : List Byte := itemInt 1 n ++ itemInt 2 m
def named (n : Int) (k : Nat) : List Byte := itemInt 1 n ++ itemEnum 2 k

/-- Every request of a list is answered by its owner as the list says. -/
def answers (s : State) (xs : List (Handler × List Byte × Answer)) : Bool :=
  xs.all fun x => (x.1 (asking s 0 []).popRequest 7 x.2.1).2 == some x.2.2

abbrev no (r : Result) : Answer := { result := r }
abbrev why (c : CheckCode) : Answer := Answer.check .notPermitted c
abbrev blocked (c : CheckCode) : Answer := Answer.check .blocked c

/-! ### Requests at the boundaries of their clauses -/

theorem test_unknown_kinds :
    replyTo plant .unknownKindRequest 0x00 [] = some [7, 0x00, 6] ∧
    replyTo plant .unknownKindRequest 0x26 (one 1) = some [7, 0x26, 6] := by decide +kernel

theorem test_replies_queued :
    replyTo plant .force 0x09 (two 6 4096) = some ([7, 0x09, 1] ++ one 4095) ∧
    replyTo plant .ack 0x1A (two 0 3) = some [7, 0x1A, 13] ∧
    replyTo plant .burnerStop 0x0D (one 2) = some [7, 0x0D, 0] ∧
    replyTo plant .coolerSafe 0x15 [] = some [7, 0x15, 0] ∧
    replyTo plant .readEntry 0x02 [2, 3] = some [7, 0x02, 0] := by decide +kernel

theorem test_bad_frames : answers plant
    [(handleForce, one 6, no .badFrame), (handleForce, two 6 1 ++ one 6, no .badFrame),
     (handleSilence, one 1, no .badFrame), (handleRead, [1], no .badFrame),
     (handleClear, [1, 0, 0], no .badFrame), (handleWrite, [1], no .badFrame),
     (handleWrite, [9, 1, 1, 1], no .badFrame), (handleWrite, [9, 1] ++ one 1 ++ [2, 1, 0], no .badFrame)] =
    true := by decide +kernel

theorem test_object_numbers : answers plant
    [(handleReadPoint, one (-1), no .badIndex), (handleReadPoint, one 256, no .badIndex),
     (handleBurnerStop, one 0, no .badIndex), (handleBurnerStop, one 4, no .badIndex),
     (handleBurnerStop, one 3, no .notConfigured), (handleLineReset, one 7, no .badIndex),
     (handleLineReset, one 6, no .notConfigured), (handleRunReset, one 5, no .badIndex),
     (handleRunReset, one 4, no .notConfigured), (handleUnshelve, one 192, no .badIndex),
     (handleUnshelve, one 190, no .notConfigured), (handleRearm, one 0, no .badIndex),
     (handleRearm, one 5, no .badIndex), (handleRead, [12, 0], no .badIndex),
     (handleClear, [12, 0], no .badIndex), (handleWrite, [12, 0], no .badIndex)] = true := by decide +kernel

theorem test_table_refusals : answers plant
    [(handleWrite, [0, 1], no .notPermitted), (handleClear, [0, 1], no .notPermitted),
     (handleClear, [0, 2], no .badIndex), (handleWrite, [0, 0], no .invalid),
     (handleClear, [1, 0], no .inUse), (handleClear, [2, 2], no .inUse), (handleClear, [2, 1], no .done),
     (handleClear, [3, 1], no .inUse), (handleClear, [3, 5], no .done), (handleClear, [4, 1], no .inUse),
     (handleClear, [5, 1], no .inUse), (handleClear, [6, 1], no .done), (handleClear, [7, 32], no .done),
     (handleClear, [7, 33], no .badIndex), (handleClear, [8, 0], no .done), (handleClear, [9, 4], no .done),
     (handleClear, [10, 1], no .done), (handleClear, [11, 16], no .done),
     (handleWrite, [11, 16] ++ two 1 255, no .done), (handleWrite, [11, 16] ++ two 1 256, no .invalid)] =
    true := by decide +kernel

theorem test_reads_return_entries : answers plant
    [(handleRead, [0, 0], { result := .done, body := itemOpt RoundTable.items (some round) }),
     (handleRead, [2, 3], no .done), (handleRead, [7, 2], no .done),
     (handleRead, [4, 1], { result := .done, body := itemOpt RunEntry.items (some runEntry) })] = true := by
  decide +kernel

theorem test_point_requests : answers plant
    [(handleForce, two 6 4095, no .done), (handleForce, two 6 4096, Answer.clampedTo 4095),
     (handleForce, two 6 (-1), Answer.clampedTo 0), (handleForce, two 3 1, no .invalid),
     (handleForce, two 0 1, no .inUse), (handleForce, two 255 1, no .notConfigured),
     (handleUnforce, one 6, no .notPermitted),
     (handleReadPoint, one 6, { result := .done, body := plant.pointItems 6 })] = true := by decide +kernel

theorem test_unforce : answers
    (plant.modPoint 6 fun x => { x with quality := .forced, forced := some 700 }) [(handleUnforce, one 6, no .done)] =
    true := by decide +kernel

theorem test_burner_requests : answers plant
    [(handleBurnerStart, one 1, no .done), (handleBurnerStart, one 2, why .state),
     (handleBurnerStart, one 3, no .notConfigured), (handleBurnerStop, one 1, no .notPermitted),
     (handleBurnerStop, one 2, no .done), (handleBurnerReset, one 2, why .state),
     (handleSetDemand, two 1 (-1), no .invalid), (handleSetDemand, two 1 0, no .done),
     (handleSetDemand, two 1 1000, no .done), (handleSetDemand, two 1 1001, Answer.clampedTo 1000)] = true := by
  decide +kernel

/-- Each check of Table 3-5 in its turn. -/
theorem test_burner_start_checks :
    answers { plant with floor := { plant.floor with state := .starting } } [(handleBurnerStart, one 1, why .floor)] ∧
    answers { plant with floor := { plant.floor with active := some { round with quick := [11] } } }
      [(handleBurnerStart, one 1, why .scanner)] ∧
    answers (plant.modBurner 0 fun x => { x with permOk := [false] })
      [(handleBurnerStart, one 1, Answer.checkObject .notPermitted .permissive 1)] ∧
    answers (plant.modLine 0 fun x => { x with feed := 1 }) [(handleBurnerStart, one 1, why .lines)] ∧
    answers (plant.modLine 0 fun x => { x with state := .out }) [(handleBurnerStart, one 1, why .noLightoffLine)] ∧
    answers (plant.modAlarm 191 fun x =>
        { x with entry := some (alarmOf (.pointLow 6 100 50) 1 (.tripBurner 0)), state := .suppressed })
      [(handleBurnerStart, one 1, Answer.checkObject .notPermitted .alarm 191)] ∧
    answers (plant.modBurner 0 fun x => { x with vote := true }) [(handleBurnerStart, one 1, why .flame)] := by
  decide +kernel

def lockedOut : State := plant.modBurner 0 fun x => { x with state := .lockout }

theorem test_burner_reset :
    answers lockedOut [(handleBurnerReset, one 1, no .done), (handleBurnerStop, one 1, no .notPermitted)] ∧
    answers (lockedOut.modBurner 0 fun x => { x with vote := true }) [(handleBurnerReset, one 1, why .flame)] ∧
    answers (lockedOut.modAlarm 191 fun x =>
        { x with entry := some (alarmOf (.pointLow 6 100 50) 1 (.holdFuel 0)), state := .raised, condition := true })
      [(handleBurnerReset, one 1, Answer.checkObject .notPermitted .alarm 191)] := by decide +kernel

theorem test_line_requests : answers plant
    [(handleLineService, named 1 0, why .state), (handleLineService, named 1 1, no .done),
     (handleLineService, named 3 1, why .feeding), (handleLineService, named 6 0, no .notConfigured),
     (handleLineService, named 1 2, no .invalid), (handleLineMode, named 2 0, no .invalid),
     (handleLineMode, named 1 1, no .done), (handleLineMode, named 4 0, no .done),
     (handleLineMode, named 1 2, no .invalid), (handleLineReset, one 1, why .state)] = true := by decide +kernel

theorem test_line_service_and_reset :
    answers (plant.modLine 0 fun x => { x with state := .out }) [(handleLineService, named 1 0, no .done)] ∧
    answers ((plant.modLine 0 fun x => { x with state := .out }).modPoint 2 fun x => { x with value := 1 })
      [(handleLineService, named 1 0, why .faultBit)] ∧
    answers (plant.modLine 0 fun x => { x with state := .fault }) [(handleLineReset, one 1, no .done)] ∧
    answers ((plant.modLine 0 fun x => { x with state := .fault }).modPoint 2 fun x => { x with quality := .stale })
      [(handleLineReset, one 1, why .faultBit)] ∧
    answers { (plant.modLine 0 fun x => { x with state := .fault }) with
        floor := { plant.floor with stations := Vector.replicate 60 {} } }
      [(handleLineReset, one 1, why .presence)] ∧
    answers ((plant.modBurner 0 fun x => { x with state := .lightoff, lightoffLine := some 0 }))
      [(handleLineMode, named 1 1, no .notPermitted)] := by decide +kernel

def stopped : State := plant.modCooler fun c => { c with state := .stopped }
def quiet : State := plant.modBurner 1 fun x => { x with state := .off }

theorem test_cooler_requests :
    answers plant
      [(handleCoolerStart, [], why .state), (handleCoolerStop, [], why .burner), (handleCoolerSafe, [], no .done),
       (handleCoolerResetSafe, [], why .state), (handleRunReset, one 1, why .state)] ∧
    answers stopped
      [(handleCoolerStart, [], no .done), (handleCoolerSafe, [], why .state), (handleRunReset, one 1, why .state)] ∧
    answers quiet [(handleCoolerStop, [], no .done)] ∧
    answers (quiet.modCooler fun c => { c with state := .stopped }) [(handleCoolerStop, [], why .state)] ∧
    answers { stopped with floor := { plant.floor with state := .halted } } [(handleCoolerStart, [], why .floor)] ∧
    answers { stopped with cooler := {} } [(handleCoolerStart, [], no .notConfigured)] ∧
    answers { stopped with floor := { plant.floor with active := some { round with ordinary := [3] } } }
      [(handleCoolerStart, [], why .station)] ∧
    answers (plant.modCooler fun c => { c with state := .safe }) [(handleCoolerResetSafe, [], no .done)] ∧
    answers (plant.modRun 0 fun r => { r with state := .stalled, timer := none })
      [(handleRunReset, one 1, no .done)] := by decide +kernel

theorem test_cooler_blocked :
    answers (stopped.modAlarm 191 fun x =>
        { x with entry := some (alarmOf (.pointHigh 6 600 50) 1 .coolerSafe), state := .held, condition := true })
      [(handleCoolerStart, [], Answer.checkObject .notPermitted .alarm 191)] ∧
    answers ((plant.modCooler fun c => { c with state := .safe }).modAlarm 191 fun x =>
        { x with entry := some (alarmOf (.pointHigh 6 600 50) 1 .coolerSafe), state := .raised, condition := true })
      [(handleCoolerResetSafe, [], Answer.checkObject .notPermitted .alarm 191)] := by decide +kernel

theorem test_run_mode : answers plant
    [(handleRunMode, named 1 1 ++ itemInt 3 5, no .done), (handleRunMode, named 1 1 ++ itemInt 3 4, Answer.clampedTo 5),
     (handleRunMode, named 1 1 ++ itemInt 3 60, no .done),
     (handleRunMode, named 1 1 ++ itemInt 3 61, Answer.clampedTo 60), (handleRunMode, named 1 1, no .invalid),
     (handleRunMode, named 1 0, no .done), (handleRunMode, named 1 2, no .invalid),
     (handleRunMode, named 4 0, no .notConfigured)] = true := by decide +kernel

def command (st : Int) (k : Nat) (v : Int) : List Byte := named st k ++ itemInt 3 v

theorem test_operator_commands : answers plant
    [(handleOperatorCommand, command 0 0 1, no .badIndex), (handleOperatorCommand, command 61 0 1, no .badIndex),
     (handleOperatorCommand, command 1 6 1, no .invalid), (handleOperatorCommand, command 1 5 (2 ^ 31), no .invalid),
     (handleOperatorCommand, command 1 5 (2 ^ 31 - 1), blocked .station),
     (handleOperatorCommand, command 60 5 (-2 ^ 31), blocked .station),
     (handleOperatorCommand, command 3 0 50, blocked .mode), (handleOperatorCommand, command 3 4 50, blocked .owned),
     (handleOperatorCommand, command 7 0 (-1), blocked .value), (handleOperatorCommand, command 7 0 0, no .passed),
     (handleOperatorCommand, command 7 0 9, Answer.clampedTo 10), (handleOperatorCommand, command 7 0 500, no .passed),
     (handleOperatorCommand, command 7 0 501, Answer.clampedTo 500), (handleOperatorCommand, command 5 5 20, blocked .mode),
     (handleOperatorCommand, command 5 0 20, blocked .owned), (handleOperatorCommand, command 8 0 20, blocked .filter),
     (handleOperatorCommand, command 8 4 9, Answer.clampedTo 10), (handleOperatorCommand, command 8 4 20, no .passed),
     (handleOperatorCommand, command 8 4 21, Answer.clampedTo 20), (handleOperatorCommand, command 9 4 65535, no .passed),
     (handleOperatorCommand, command 9 4 65536, blocked .value), (handleOperatorCommand, command 9 4 (-1), blocked .value)] =
    true := by decide +kernel

def doseEntry : QueueEntry :=
  { station := 6, kind := .dose, value := 1, cls := .control, origin := .fuel, time := 0 }

theorem test_operator_states :
    answers (plant.modBurner 1 fun x => { x with state := .off })
      [(handleOperatorCommand, command 7 0 50, blocked .burner)] ∧
    answers (plant.modLine 3 fun x => { x with state := .fault })
      [(handleOperatorCommand, command 7 0 50, blocked .lineState)] ∧
    answers (plant.modBurner 1 fun x => { x with hold := { cooler := true } })
      [(handleOperatorCommand, command 7 0 101, Answer.clampedTo 100),
       (handleOperatorCommand, command 7 0 99, no .passed)] ∧
    answers (plant.modRun 0 fun r => { r with mode := .manual })
      [(handleOperatorCommand, command 5 5 60, no .passed), (handleOperatorCommand, command 5 5 61, Answer.clampedTo 60),
       (handleOperatorCommand, command 5 5 (-1), blocked .value)] ∧
    answers (stopped.modRun 0 fun r => { r with mode := .manual })
      [(handleOperatorCommand, command 5 5 20, blocked .cooler)] ∧
    answers { plant with queue := { list := List.replicate 32 doseEntry } }
      [(handleOperatorCommand, command 8 4 20, blocked .queueFull)] := by decide +kernel

theorem test_alarm_requests : answers plant
    [(handleAck, two 0 4, no .done), (handleAck, two 0 3, no .stale), (handleAck, two 1 0, no .notAckable),
     (handleAck, two 2 0, no .notConfigured), (handleShelve, two 0 0, no .invalid), (handleShelve, two 0 1, no .done),
     (handleShelve, two 0 480, no .done), (handleShelve, two 0 481, no .invalid),
     (handleShelve, two 191 1, no .notPermitted), (handleShelve, two 2 1, no .notConfigured),
     (handleUnshelve, one 0, no .notPermitted), (handleSilence, [], no .done), (handleRearm, one 1, no .done),
     (handleRearm, one 4, no .done),
     (handleReadAlarm, one 191, { result := .done, body := plant.alarmItems 191 })] = true := by decide +kernel

theorem test_returned_and_shelved :
    answers (plant.modAlarm 1 fun x => { x with state := .returned }) [(handleAck, two 1 0, no .done)] ∧
    answers (plant.modAlarm 0 fun x => { x with state := .shelved, shelve := some 5000 })
      [(handleShelve, two 0 1, no .done), (handleUnshelve, one 0, no .done)] := by decide +kernel

theorem test_floor_requests :
    answers plant
      [(handleLineEnable, itemEnum 1 0 ++ itemInt 2 1, no .done), (handleLineEnable, itemEnum 1 1 ++ itemInt 2 0, no .done),
       (handleLineEnable, itemEnum 1 0 ++ itemInt 2 2, no .invalid), (handleStart, [], no .notPermitted),
       (handleSingle, [], no .notPermitted), (handleStop, [], no .notPermitted)] ∧
    answers { plant with floor := { plant.floor with linkB := {} } }
      [(handleLineEnable, itemEnum 1 0 ++ itemInt 2 0, no .notPermitted)] ∧
    answers State.reset
      [(handleCommit, [], no .notConfigured), (handleStart, [], no .notConfigured),
       (handleSingle, [], no .notConfigured), (handleStop, [], no .notPermitted)] := by decide +kernel

theorem test_commits :
    answers { plant with floor := { plant.floor with pendingCopy := some { round with quorum := 8 } } }
      [(handleCommit, [], no .invalid)] ∧
    answers { plant with floor := { plant.floor with pendingCopy := some { round with ordinary := [4, 5, 6, 7, 8, 9] } } }
      [(handleCommit, [], no .inUse)] ∧
    answers { plant with floor := { plant.floor with state := .halted } } [(handleCommit, [], no .done)] ∧
    (handleCommit plant 7 []).2 = none ∧
    answers { plant with floor := { plant.floor with state := .halted } }
      [(handleStart, [], no .done), (handleStop, [], no .notPermitted)] ∧
    (handleSingle { plant with floor := { plant.floor with state := .halted } } 7 []).2 = none ∧
    (handleStop { plant with floor := { plant.floor with state := .single } } 7 []).2 = none := by decide +kernel

/-- Entries as the tables hold them are taken back. -/
theorem test_entries_taken :
    answers stopped
      [(handleWrite, [0, 0] ++ round.items, no .done), (handleWrite, [1, 6] ++ (pointOf 6 1 .u16).items, no .done),
       (handleWrite, [2, 1] ++ (burnerOf (.line 1) [{ kind := .coolerRunning, running := true }]).items, no .done),
       (handleWrite, [3, 6] ++ (lineOf .ignition 2 8 0).items, no .done),
       (handleWrite, [3, 6] ++ (lineOf .ignition 2 3 0).items, no .invalid),
       (handleWrite, [4, 1] ++ runEntry.items, no .done),
       (handleWrite, [5, 12] ++
         ({ inUse := true, station := 8, base := 0, safe := 1000, boost := 0, zone := none } : CompartmentEntry).items, no .done),
       (handleWrite, [6, 8] ++
         ({ inUse := true, point := 6, delta := 60, hysteresis := 20, persist := 3 } : ZoneEntry).items, no .done),
       (handleWrite, [7, 32] ++ ({ inUse := true, station := 8, kind := .dose, action := .block } : FilterEntry).items, no .done),
       (handleWrite, [8, 190] ++ (alarmOf (.pointHigh 6 600 50) 2 .none).items, no .done),
       (handleWrite, [9, 4] ++ ({ inUse := true, points := [0, 255] } : GroupEntry).items, no .done),
       (handleWrite, [10, 1] ++ planItems [360, 840, 1320], no .done)] = true := by decide +kernel

theorem test_port_requests :
    answers plant
      [(handleSetSilence, one 0, no .invalid), (handleSetSilence, one 1, no .done), (handleSetSilence, one 60, no .done),
       (handleSetSilence, one 61, no .invalid), (handleReset, [], no .done), (handleReset, one 1, no .badFrame),
       (handleReadStatus, itemEnum 1 9 ++ itemInt 2 0, no .invalid),
       (handleReadStatus, itemEnum 1 5 ++ itemInt 2 (-1), no .badIndex),
       (handleReadStatus, itemEnum 1 5 ++ itemInt 2 200, no .badIndex)] ∧
    ((handleReadStatus plant 7 (itemEnum 1 5 ++ itemInt 2 0)).2.any fun a => a.result == .done) := by decide +kernel

theorem test_shift_requests :
    answers plant
      [(handleSetClock, two 0 0, no .done), (handleSetClock, two 65535 86399999, no .done),
       (handleSetClock, two 65536 0, no .invalid), (handleSetClock, two 0 86400000, no .invalid),
       (handleSetClock, two (-1) 0, no .invalid), (handleReadReport, one 1, no .notFound),
       (handleReadReport, [], { result := .done, body := plant.openSnapshot.openLayout }),
       (handleCloseShift, [], no .done)] ∧
    ((handleReadReport (plant.closeShift .commanded 0) 7 (one 1)).2.any fun a => a.result == .done) := by decide +kernel

/-! ### The step -/

theorem test_front_command : Machine.step { plant with pending := [.roundMark, .silence] } =
    Machine.exec .roundMark { plant with pending := [.silence] } := rfl

theorem test_idle_step :
    State.reset.nextDue = none ∧
    ({ State.reset with timeBase := 999 } : State).nextDue = some (.frameSent 999) ∧
    ({ State.reset with timeBase := 1000, port := {} } : State).nextDue = some .haltedDigestTimerExpiry ∧
    ({ State.reset with timeBase := 5000, floor := {}, port := {} } : State).nextDue = some .silenceTimerExpiry := by
  decide +kernel

def entryOf (station : Nat) (kind : CommandKind) (cls : CommandClass) : QueueEntry :=
  { station := station, kind := kind, value := 1, cls := cls, origin := .fuel, time := 5 }

def closed (n : Nat) : ClosedRecord :=
  { body := {}, sequence := BitVec.ofNat 32 n, closeTime := 0, closeDay := none, cause := .commanded, collected := n == 3 }

/-- A state that is none of reset's, with every list of the invariant filled: its hypotheses can be met. -/
def filled : State :=
  { State.reset with
    burners := plant.burners
    queue := { list := List.replicate 16 (entryOf 6 .dose .control) ++ List.replicate 16 (entryOf 7 .stroke .routine) }
    shift := { ring := (List.range 8).map fun i => closed (3 + i), nextSequence := 11 }
    port := { State.reset.port with
      rxQueue := List.replicate 4 { kind := 0x1D, payload := [7] }
      txQueue := { kind := .digest, payload := [] } :: List.replicate 15 { kind := .notice, payload := [] } } }

theorem test_filled_sound : filled.Sound where
  commands := by decide +kernel
  order := by decide +kernel
  single := by decide +kernel
  submitted := by decide +kernel
  ring := by decide +kernel
  numbers := by decide +kernel
  requests := by decide +kernel
  frames := by decide +kernel
  digest := by decide +kernel
  idle := by decide +kernel
  lines := ⟨by decide +kernel, by decide +kernel⟩
  permissives := by decide +kernel

theorem test_reset_settled : (∀ a : Fin 192, State.reset.unsettled a = false) ∧
    ∀ a : Fin 192, State.reset.alarmEntry? a = none := by decide +kernel

/-! ### Characters and frames -/

/-- The check value of the cyclic code of section 9.1 for the digits 1 to 9. -/
theorem test_frame_check : frameCheck [0x31, 0x32, 0x33, 0x34, 0x35, 0x36, 0x37, 0x38, 0x39] = 0x29B1#16 := by
  decide +kernel

/-- Table 10-1: the answer of station 10 with the words 1234H and 8000H. -/
theorem test_answer_bytes :
    judgeBytes 10 ([0x03, 0x05, 0x0A, 0x12, 0x34, 0x80, 0x00] ++
      beBytes 2 (frameCheck [0x03, 0x05, 0x0A, 0x12, 0x34, 0x80, 0x00]).toNat) = (.good, [0x1234#16, 0x8000#16]) ∧
    (judgeBytes 11 (frameBytes 0x03 [0x0A])).1 = .foreign ∧ (judgeBytes 10 (frameBytes 0x03 [0x0A, 1])).1 = .corrupt ∧
    (judgeBytes 10 (frameBytes 0x02 [0x0A])).1 = .corrupt ∧ (judgeBytes 10 (frameBytes 0x03 [0x0A] ++ [0])).1 = .corrupt ∧
    (judgeBytes 10 []).1 = .silent := by decide +kernel

def inFrame (chars : List Byte) (bad : Bool) : State :=
  { State.reset with port := { State.reset.port with receiver := some { chars := chars, bad := bad, last := 3 } } }

/-- What a character at reading 4 leaves of the frame in progress. -/
def kept (s : State) (c : PlantChar) : Option (List Byte × Bool) :=
  ((s.advance 4).takeChar c).port.receiver.map fun p => (p.chars, p.bad)

def errorsOf (c : PlantChar) : List (Option CharError) :=
  [charError { c with overrun := true, stopHigh := false }, charError { c with stopHigh := false, noisy := true },
   charError { c with noisy := true, parity := !c.parity }, charError { c with parity := !c.parity }, charError c]

theorem test_characters :
    errorsOf (char 0x01 true false) = [some .overrun, some .framing, some .noise, some .parity, none] ∧
    kept State.reset (char 0x1D true true) = some ([0x1D], false) ∧ kept State.reset (char 0x1D false false) = none ∧
    kept State.reset (char 0x1D true false) = none ∧
    kept (inFrame [0x1D] false) (char 250 false false) = some ([0x1D, 250], false) ∧
    kept (inFrame [0x1D] false) (char 251 false true) = none ∧ kept (inFrame [0x1D] false) (char 1 false false) = none ∧
    kept (inFrame [0x1D, 1] false) (char 7 true false) = some ([7], false) ∧
    kept (inFrame [0x1D, 1] false) (char 7 false false) = some ([0x1D, 1, 7], true) ∧
    kept (inFrame [0x1D, 1] true) (char 7 false true) = some ([0x1D, 1, 7], true) ∧
    frameComplete [0x1D, 1, 7, 0] = false ∧ frameComplete [0x1D, 1, 7, 0, 0] = true := by decide +kernel

/-- The characters of the SILENCE request with number 7, one each ms. -/
def silenceChars : List (Time × PlantChar) :=
  ((frameBytes 0x1D [7]).zipIdx).map fun (b, i) =>
    (i, { data := b, mark := i == 0, parity := (onesOf b + (i == 0).toNat) % 2 == 1, stopHigh := true, noisy := false,
          overrun := false })

theorem test_frame_received :
    (∀ x ∈ silenceChars, charError x.2 = none) ∧ silenceChars.map (fun x => x.2.data) = frameBytes 0x1D [7] ∧
    silenceChars.map (fun x => x.2.mark) = true :: List.replicate 4 false ∧
    (State.reset.afterChars silenceChars).port.rxQueue = [{ kind := 0x1D, payload := [7] }] ∧
    (filled.afterChars silenceChars).port.counts.rxOverrun = 1 ∧
    ((inFrame [0x1D, 0, 0] false).takeChar (char 0 false false)).port.counts.badCheck = 1 ∧
    ((inFrame [0x1D, 0, 0] true).takeChar (char 0 false false)).port.receiver = none := by decide +kernel

theorem test_silence_timer :
    State.reset.port.silent = false ∧ State.reset.port.silenceDue = some 5000 ∧
    (State.reset.silenceExpiry.burners[(2 : Fin 3)]).hold.silence = true ∧
    (State.reset.silenceExpiry.endSilence.burners[(2 : Fin 3)]).hold.silence = false := by decide +kernel

def txFrame (k : TxKind) (n : Byte) : TxFrame := { kind := k, payload := [n] }

/-- What an offered frame makes of a transmit queue. -/
def offered (q : List TxFrame) (f : TxFrame) : List TxFrame :=
  (({ State.reset with port := { State.reset.port with txQueue := q } } : State).offerFrame f).port.txQueue

theorem test_transmit_queue :
    offered (List.replicate 15 (txFrame .reply 1)) (txFrame .notice 2) =
      List.replicate 15 (txFrame .reply 1) ++ [txFrame .notice 2] ∧
    offered (List.replicate 16 (txFrame .reply 1)) (txFrame .notice 2) = List.replicate 16 (txFrame .reply 1) ∧
    offered (txFrame .digest 1 :: txFrame .notice 2 :: List.replicate 14 (txFrame .reply 3)) (txFrame .reply 4) =
      txFrame .digest 1 :: (List.replicate 14 (txFrame .reply 3) ++ [txFrame .reply 4]) ∧
    offered (txFrame .digest 1 :: List.replicate 15 (txFrame .reply 3)) (txFrame .report 4) =
      List.replicate 15 (txFrame .reply 3) ++ [txFrame .report 4] ∧
    offered [txFrame .digest 1, txFrame .reply 3] (txFrame .digest 2) = [txFrame .digest 2, txFrame .reply 3] ∧
    offered (List.replicate 16 (txFrame .reply 1)) (txFrame .digest 2) = List.replicate 16 (txFrame .reply 1) ∧
    (State.reset.frameDone.port.sending = none ∧ State.reset.frameDone.port.txQueue = []) := by decide +kernel

/-- The transmitter sends the first digest at reset (R160), by its characters. -/
theorem test_reset_sends : State.reset.port.sending.map (·.characters) = some State.reset.port.sent := by
  unfold State.reset; rfl

/-- R152, R165: the characters of a frame sent up. -/
theorem test_sent_characters :
    ((txFrame .notice 2).characters.map fun c => (c.data, c.mark, c.parity)).take 3 =
      [(0x44, true, true), (1, false, true), (2, false, true)] ∧
    (SentChar.of true 0x44).levels =
      [false, false, false, true, false, false, false, true, false, true, true, true] ∧
    (txFrame .notice 2).characters.length = 5 ∧
    (({ State.reset with port := {} } : State).offerFrame (txFrame .reply 1)).port.sent =
      (txFrame .reply 1).characters := by decide +kernel

/-- R153: a last check character with an error is counted and ends the frame; R159: the reply of a reset was sent. -/
theorem test_frame_discarded :
    let u := (inFrame [0x1D, 0, 0] false).takeChar (char 0 false true)
    frameComplete [0x1D, 0, 0, 0] = true ∧ charError (char 0 false true) = some .parity ∧
    (u.port.receiver, u.port.counts.parity, u.port.counts.badCheck, u.port.rxQueue) = (none, 1, 0, []) ∧
    ({ State.reset with port := { State.reset.port with resetReplySent := true } } : State).nextDue =
      some (.commandedReset false false) := by decide +kernel

theorem test_gate :
    ({ State.reset with port := { State.reset.port with txQueue := [txFrame .reply 1] } } : State).gateOpen = true ∧
    ({ State.reset with port := { State.reset.port with txQueue := [txFrame .reply 1, txFrame .reply 2] } } :
      State).gateOpen = false ∧
    ({ State.reset with port := { State.reset.port with resetPending := true } } : State).gateOpen = false := by
  decide +kernel

/-! ### Points: section 2.2.1 and 2.3.1, worked -/

def pressure : PointEntry :=
  { inUse := true, station := 5, field := 0, kind := .u12, gain := some 3126, offset := some (-2500), low := 0
    high := 10000, shift := some 2, fresh := 3, incLimit := none }

def sampled (w : Word16) : Int × Quality :=
  let x := ({ entry := some pressure } : Point).take pressure w 1
  (x.value, x.quality)

theorem test_scaling : sampled 13104 = (0, .good) ∧ sampled 65520 = (10000, .good) ∧ sampled 11200 = (0, .good) ∧
    sampled 0 = (0, .bad) := by decide +kernel

theorem test_filter : (List.range 5).map (fun n => (fun x => filteredValue .good x 6106 2)^[n + 1] 6000) =
    [6026, 6046, 6061, 6072, 6080] ∧ filteredValue .good 6104 6106 2 = 6105 ∧ filteredValue .bad 0 6106 2 = 6106 := by
  decide +kernel

def fluff : PointEntry := pointOf 3 1 .counter16

theorem test_counter :
    (({ quality := .unset } : Point).take fluff 65530 900).lastRaw = 65530 ∧
    ({ quality := .good, lastRaw := 65530, lastRound := 900 } : Point).formed fluff 65531 901 = some (1, true) ∧
    ({ quality := .good, lastRaw := 65531, lastRound := 901 } : Point).formed fluff 0 903 = some (5, false) ∧
    (({ quality := .good, lastRaw := 65531, lastRound := 901 } : Point).take fluff 0 903).implCount = 1 ∧
    ({ quality := .good, lastRaw := 0, lastRound := 903 } : Point).formed fluff 1 904 = some (1, true) := by
  decide +kernel

/-- The limits and deadbands of R38 at their edges; point 6 is at 700. -/
theorem test_limit_alarms :
    plant.sourceHolds (.pointHigh 6 700 50) false = true ∧ plant.sourceHolds (.pointHigh 6 701 1) true = true ∧
    plant.sourceHolds (.pointHigh 6 701 0) true = false ∧ plant.sourceHolds (.pointLow 6 700 50) false = true ∧
    plant.sourceHolds (.pointLow 6 699 1) true = true ∧ plant.sourceHolds (.pointLow 6 699 0) true = false ∧
    plant.sourceHolds (.pointHigh 255 0 0) true = true ∧ plant.sourceHolds (.pointQuality 255) false = true := by
  decide +kernel

/-! ### Rounds: section 1.2.2, worked, and the judgement -/

def layout (n q gap cmd period : Nat) : RoundTable :=
  { ordinary := List.range' 1 n, quick := List.range' 57 q, gap := gap, period := period, cmdSlots := cmd, quorum := 1
    window := 10 }

theorem test_layouts :
    (layout 5 2 2 8 10).slots.map (·.1) = [57, 58, 1, 2, 57, 58, 3, 4, 57, 58, 5] ∧
    (layout 5 2 2 8 10).valid = true ∧ (layout 40 4 8 16 5).slotTimes = 78 ∧ (layout 40 4 8 16 5).valid = true ∧
    (layout 40 4 4 16 5).slotTimes = 98 ∧ (layout 40 4 4 16 5).valid = false ∧ (layout 40 4 4 16 7).valid = true ∧
    (layout 56 4 1 1 50).slots.length = 280 ∧ (layout 56 4 1 1 50).valid = false := by decide +kernel

def linkOf (st : LinkState) (dead live : Nat) : FloorLink := { state := st, deadRun := dead, liveRun := live }

theorem test_line_health :
    ((linkOf .ok 2 0).judge false).deadRun = 3 ∧ ((linkOf .ok 3 0).judge false).state = .failed ∧
    ((linkOf .ok 3 0).judge true).deadRun = 0 ∧ ((linkOf .failed 0 6).judge true).liveRun = 7 ∧
    ((linkOf .failed 0 7).judge true).state = .ok ∧ ((linkOf .failed 0 7).judge false).liveRun = 0 := by decide +kernel

/-- The judged round of the plant, with the stations given accepted. -/
def judgedRound (accepted : List Nat) : Round :=
  { markTime := 1045, period := 10, onA := true, onB := true, slots := [], accepted := accepted, goodA := true
    goodB := true, cmdLeft := 1 }

def judgedAfter (st : FloorState) (at_ below start : Nat) (accepted : List Nat) : FloorState × Bool :=
  let f := ({ plant with floor := { plant.floor with
    state := st, atQuorum := at_, belowQuorum := below, startCount := start } } : State).judgedFloor round
    (judgedRound accepted)
  (f.state, f.causes.quorum)

theorem test_floor_state_judged :
    judgedAfter .normal 3 1 0 [3, 4] = (.normal, false) ∧ judgedAfter .normal 0 2 0 [3, 4] = (.degraded, true) ∧
    judgedAfter .starting 2 0 0 [3, 4, 5] = (.normal, false) ∧ judgedAfter .starting 1 0 8 [3, 4, 5] = (.starting, false) ∧
    judgedAfter .starting 1 0 9 [3, 4, 5] = (.degraded, true) ∧ judgedAfter .single 1 2 0 [] = (.single, false) := by
  decide +kernel

/-- The plant with its round judged and command slots left. -/
def slotted (left : Nat) : State :=
  { plant with floor := { plant.floor with round := some { judgedRound [3] with judged := true, cmdLeft := left } } }

theorem test_command_slots :
    ((slotted 2).commandSlot 1051).queue.list = [] ∧ ((slotted 2).commandSlot 1051).floor.linkA.sent.take 4 = [4, 4, 7, 1] ∧
    (slotted 2).roundEnded = false ∧ (slotted 0).roundEnded = true ∧ plant.stopAllowed = false ∧
    State.reset.stopAllowed = true := by decide +kernel

theorem test_slot_and_mark :
    ((plant.slotOutcome 1046 (frameBytes 3 [10, 1, 2]) []).points[(0 : Fin 256)]).value = 16 ∧
    plant.floor.round.map (·.slots.head?) = some (some (10, true)) ∧ plant.markDue = some 1055 ∧
    plant.openRound.floor.roundNo = 10 := by decide +kernel

/-! ### An answer handed on (R26, R33, R37), and what a mark does -/

/-- The plant after the words 4 and 1 of station 3 reached points 2 and 3. -/
def answered : State :=
  (plant.modPoint 2 fun x => x.take (pointOf 3 0 .flags16) 4 9).modPoint 3 fun x => x.take (pointOf 3 1 .counter16) 1 9

/-- What the entry of point `p` says of the words of station 3: the point after them and the increment formed. -/
def reached (p : Fin 256) : Option (Point × Option (Nat × Bool)) :=
  (plant.pointEntry? p).bind fun e => if e.station = 3 then
    ([4, 1] : List Word16)[e.field]?.map fun w => ((plant.points[p]).take e w 9, (plant.points[p]).formed e w 9) else none

/-- The hypotheses of AnswerHandedOn, point by point: the points after the answer, the changed points, the increments. -/
theorem test_answer_handed_on :
    (∀ p : Fin 256, answered.points[p] = ((reached p).map (·.1)).getD plant.points[p]) ∧
    (∀ p : Fin 256, p ∈ [(2 : Fin 256), 3] ↔ (answered.points[p]).quality ≠ (plant.points[p]).quality ∨
      ((answered.points[p]).value ≠ (plant.points[p]).value ∧
        ((answered.points[p]).quality = .good ∨ (answered.points[p]).quality = .forced))) ∧
    (∀ p : Fin 256, ((reached p).bind (·.2)) = if p = 3 then some (1, true) else none) ∧
    plant.floor.roundNo = 9 := by decide +kernel

theorem test_consumers_told :
    (∀ k, PermKind.names [4] k = true ↔ ∃ p t, p ∈ [(4 : Fin 256)] ∧ (k = .pointAtLeast p t ∨ k = .pointAtMost p t)) ∧
    ((((plant.modPoint 4 fun x => { x with value := 350 }).pointsChanged [4]).cooler.runs[(0 : Fin 4)]).rate = 5) := by
  refine ⟨fun k => ?_, by decide +kernel⟩
  cases k <;> simp [PermKind.names]

theorem test_mark :
    (plant.countMark.lines[(2 : Fin 6)]).refresh = 1 ∧ (plant.countMark.lines[(4 : Fin 6)]).refresh = 0 ∧
    (plant.countMark.cooler.runs[(0 : Fin 4)]).refresh = 1 ∧ (plant.countMark.cooler.runs[(1 : Fin 4)]).refresh = 0 ∧
    (plant.countMark.cooler.compartments[(0 : Fin 12)]).refresh = 1 ∧ plant.floor.round.isSome = true ∧
    (plant.markWork.queue.list.map fun e => (e.station, e.kind)) = [(7, .feed), (6, .feed)] := by decide +kernel

/-! ### Burners: the vote of R46 and the scanner of R44 at their edges -/

def voteIn (st : BurnerState) (present absent : Nat) (flame confirmed : Bool) : BurnerState :=
  let s := plant.modBurner 1 fun x =>
    { x with state := st, scanner1 := flame, presentRun := present, absentRun := absent, confirmed := confirmed }
  ((s.evaluateVote 1 (burnerOf (.selfPoint 4 100) [])).burners[(1 : Fin 3)]).state

theorem test_votes :
    voteIn .purge 0 0 true false = .purge ∧ voteIn .purge 1 0 true false = .lockout ∧
    voteIn .run 0 1 false false = .run ∧ voteIn .run 0 2 false false = .lockout ∧
    voteIn .ignition 1 0 true false = .lockout ∧ voteIn .lightoff 0 2 false true = .lockout ∧
    voteIn .lightoff 0 2 false false = .lightoff ∧ voteIn .off 1 0 true false = .off := by decide +kernel

def scannerAt (intensity flicker : Int) (was : Bool) : Bool :=
  ((plant.modPoint 0 fun x => { x with value := intensity }).modPoint 1 fun x => { x with value := flicker }).judgeScanner
    (burnerOf (.line 1) []) { intensity := 0, flicker := 1 } was 2

theorem test_scanner_thresholds :
    scannerAt 500 5 false = true ∧ scannerAt 499 5 false = false ∧ scannerAt 300 90 true = true ∧
    scannerAt 299 90 true = false ∧ scannerAt 600 4 true = false ∧ scannerAt 600 91 true = false := by decide +kernel

theorem test_lightoff :
    plant.chooseLightoffLine 0 = some 0 ∧ plant.chooseLightoffLine 2 = none ∧ plant.ignitionLine 0 = some 1 ∧
    plant.eligible 1 2 = true ∧ plant.eligible 1 3 = false ∧ plant.permissiveMet (.pointAtLeast 4 500) = true ∧
    plant.permissiveMet (.pointAtLeast 4 501) = false ∧ plant.permissiveMet (.pointAtMost 4 499) = false ∧
    plant.permissiveMet .coolerRunning = true := by decide +kernel

def timed (st : BurnerState) (k : BurnerTimer) (confirmed : Bool) : State :=
  plant.modBurner 0 fun x =>
    { x with state := st, timer := some (k, 2000), confirmed := confirmed, lightoffLine := some 0 }

theorem test_burner_timers :
    ((timed .purge .purge false).purgeExpiry 0).burners[(0 : Fin 3)].state = .ignition ∧
    ((timed .ignition .trial false).trialExpiry 0).burners[(0 : Fin 3)].state = .lockout ∧
    ((timed .lightoff .lightoff true).lightoffExpiry 0).burners[(0 : Fin 3)].state = .run ∧
    ((timed .lightoff .lightoff false).lightoffExpiry 0).burners[(0 : Fin 3)].state = .lightoff ∧
    ((timed .purge .purge false).tripBurner 0 191).burners[(0 : Fin 3)].state = .lockout ∧
    ((timed .purge .purge false).permissiveLost 0 1 false).burners[(0 : Fin 3)].state = .off := by decide +kernel

/-! ### Fuel: section 4.6.1, worked, and a line's feed, fault and dose -/

theorem test_tyre_line : (doseInterval 40 20000 600, doseInterval 40 20000 1200, doseInterval 40 20000 2400,
    doseInterval 40 20000 7201) = (240000, 120000, 60000, 20000) := by decide +kernel

theorem test_feeds :
    ((plant.rampLine 1000 2).lines[(2 : Fin 6)]).feed = 55 ∧ (plant.rampLine 1000 3).lines = plant.lines ∧
    ((plant.faultLine 2 .faultBit).lines[(2 : Fin 6)]).state = .fault ∧
    (plant.faultLine 2 .faultBit).queue.submitted.length = 1 ∧
    (plant.faultLine 2 .faultBit).finish.queue.list.length = 2 ∧
    (plant.doseExpiry 2).finish.queue.list.getLast?.map (·.kind) = some .dose ∧
    ((plant.deviationExpiry 3).lines[(3 : Fin 6)]).deviation.seconds = 1 ∧
    ((plant.demandStep 1000 1).burners[(1 : Fin 3)]).demand = 410 ∧ plant.manualHeat 1 = 100 ∧
    (((plant.apportionBurner 1).burners[(1 : Fin 3)]).undelivered, ((plant.apportionBurner 1).lines[(2 : Fin 6)]).target) =
      (0, 300) ∧ plant.faultBitSet (lineOf .ignition 0 4 1) = false := by decide +kernel

/-- The state of line `l` by R67, with burner 2 held or not. -/
def ruled (held : Bool) (l : Fin 6) (k : LineKind) : FuelState :=
  (plant.modBurner 1 fun x => { x with hold := { cooler := held } }).ruledState l (lineOf k (if l < 2 then 0 else 1) 3 0)

theorem test_ruled_states :
    ruled false 2 (.piece (meterOf 1) 40 20) = .feeding ∧ ruled true 2 (.piece (meterOf 1) 40 20) = .held ∧
    ruled true 0 (.continuous (meterOf 1) 10 3) = .ready ∧ ruled true 1 .ignition = .ready := by decide +kernel

/-- Absence counters at the limit of 5 and below it, and a fault bit that reads set. -/
theorem test_line_fault_causes :
    let missed := fun n : Nat => ({ plant with floor := { plant.floor with
      stations := plant.floor.stations.set 5 { present := true, absence := n } } } : State).checkAbsences
    ((missed 4).lines[(2 : Fin 6)]).state = .feeding ∧ ((missed 5).lines[(2 : Fin 6)]).faultCause = some .absent ∧
    (((plant.modPoint 2 fun x => { x with value := 4 }).checkFaultBits [2]).lines[(2 : Fin 6)]).faultCause =
      some .faultBit ∧
    ((plant.modPoint 2 fun x => { x with value := 4 }).checkFaultBits [3]).lines = plant.lines := by decide +kernel

theorem test_delivered :
    let u := plant.deliverLines 3 2
    ((u.lines[(2 : Fin 6)]).lifetime.mass, (u.lines[(2 : Fin 6)]).lifetime.pieces) = (800, 2) ∧
    ((u.lines[(3 : Fin 6)]).lifetime.mass, (u.lines[(3 : Fin 6)]).deviation.increments) = (2, 2) ∧
    (u.shift.record.lines[(2 : Fin 6)]).heat = 2880000 ∧ (plant.deliverLines 4 2).lines = plant.lines := by decide +kernel

def shared (weight fmin fmax : Nat) (l : Fin 6) : Share :=
  { line := l, feed := 50, cv := 3600, weight := weight, priority := l.val, fmin := fmin, fmax := fmax }

/-- The hypotheses of HeatIsShared for 101 kW shared 1 to 1 between a line of at most 40 kW and one of at most 90 kW. -/
theorem test_shared_hypotheses : ∀ i x, [shared 1 10 40 0, shared 1 10 90 1][i]? = some x →
    (if i = 0 then 51 else 50) = 101 * x.weight / 2 +
      (if i = 0 then 101 - ([shared 1 10 40 0, shared 1 10 90 1].map fun y => 101 * y.weight / 2).sum else 0) ∧
    (if i = 0 then 51 else 50) = ((if i = 0 then 51 else 50) * 3600 + x.cv / 2) / x.cv ∧
    (if i = 0 then 40 else 90) = x.fmax * x.cv / 3600 ∧
    (if i = 0 then 40 else 50) = (if (if i = 0 then 51 else 50) < x.fmin then 0
      else min (if i = 0 then 51 else 50) (if i = 0 then 40 else 90)) := by
  intro i x hx
  match i with
  | 0 => cases hx; decide
  | 1 => cases hx; decide
  | _ + 2 => simp at hx

/-- Caps and substitution; a cut; the minimum fire where all are cut; no line; and a held burner. -/
theorem test_apportionment :
    apportion 101 false [shared 1 10 40 0, shared 1 10 90 1] =
      { assigned := [(0, 40), (1, 61)], undelivered := 0, fireExcess := 0 } ∧
    apportion 40 false [shared 1 20 40 0, shared 1 21 90 1] =
      { assigned := [(0, 40), (1, 0)], undelivered := 0, fireExcess := 0 } ∧
    apportion 9 false [shared 1 10 40 0, shared 1 10 90 1] =
      { assigned := [(0, 10), (1, 0)], undelivered := 0, fireExcess := 1 } ∧
    apportion 9 false [] = { assigned := [], undelivered := 9, fireExcess := 0 } ∧
    apportion 200 true [shared 1 10 40 0, shared 1 10 90 1] =
      { assigned := [(0, 40), (1, 50)], undelivered := 110, fireExcess := 0 } := by decide +kernel

/-! ### Cooler: section 5.7.1, worked, the law and the strokes -/

def river : ZoneEntry := { inUse := true, point := 6, delta := 60, hysteresis := 20, persist := 3 }

theorem test_red_river :
    let z1 := ({ onRun := 2 } : Zone).evaluate river 73
    let z2 := (z1.evaluate river 43).evaluate river 35
    (({ onRun := 1 } : Zone).evaluate river 65).onRun = 2 ∧ (z1.active, z1.onRun, z1.offRun) = (true, 0, 0) ∧
    (z2.active, z2.offRun) = (true, 1) ∧ ((z2.evaluate river 35).evaluate river 35).active = false ∧
    (({ onRun := 2 } : Zone).evaluate river 59).onRun = 0 ∧ (({ active := true } : Zone).evaluate river 40).offRun = 0 := by
  decide +kernel

theorem test_rates :
    (lawRate runEntry 500, lawRate runEntry 350, lawRate runEntry 349, lawRate runEntry 900, lawRate runEntry 910) =
      (20, 5, 5, 60, 60) ∧ strokePeriod 200 = 3000 ∧ plant.coolerReachable = true ∧
    ((plant.strokeExpiry 0).cooler.runs[(0 : Fin 4)]).waiting = 1 ∧
    (((plant.modRun 0 fun r => { r with waiting := 3 }).strokeExpiry 0).cooler.runs[(0 : Fin 4)]).counts.skipped = 1 ∧
    ((plant.strokeSent 0).cooler.runs[(0 : Fin 4)]).outstanding = [900, 1050] ∧
    ((plant.confirmStrokes 0 runEntry 2).cooler.runs[(0 : Fin 4)]).counts.unexpected = 1 ∧
    ((({ plant with timeBase := 9900 } : State).checkStall 0).cooler.runs[(0 : Fin 4)]).state = .stroking ∧
    ((({ plant with timeBase := 9901 } : State).checkStall 0).cooler.runs[(0 : Fin 4)]).state = .stalled := by
  decide +kernel

theorem test_cooler_states :
    plant.coolerToSafe.cooler.state = .safe ∧ (plant.coolerToSafe.cooler.runs[(0 : Fin 4)]).rate = 15 ∧
    (plant.coolerToSafe.cooler.compartments[(0 : Fin 12)]).speed = 1000 ∧
    ((plant.modCooler fun c => { c with state := .starting, startTimer := some 2000 }).startExpiry).cooler.state =
      .running ∧
    (plant.coolerStops.cooler.runs[(0 : Fin 4)]).counts.abandoned = 1 ∧ plant.anyZoneActive = true := by decide +kernel

def starting : State := plant.modCooler fun c => { c with state := .starting, startTimer := some 2000 }

/-- R92: after the start expiry the law is held until the next mark. -/
theorem test_law_held :
    starting.startExpiry.cooler.lawHeld = true ∧ (starting.startExpiry.cooler.runs[(0 : Fin 4)]).rate = 5 ∧
    ((starting.startExpiry.applyLaw 0).cooler.runs[(0 : Fin 4)]).rate = 5 ∧
    (starting.startExpiry.coolerMark.cooler.runs[(0 : Fin 4)]).rate = 20 := by decide +kernel

/-- The rate of run 1, as given, at the return from SAFE. -/
def leftSafe (st : RunState) (m : Mode) : Nat :=
  ((((plant.modCooler fun c => { c with state := .safe }).modRun 0 fun r =>
    { r with state := st, mode := m, manualRate := 33, rate := 15 }).coolerLeavesSafe).cooler.runs[(0 : Fin 4)]).rate

theorem test_leaves_safe : leftSafe .stroking .manual = 33 ∧ leftSafe .stalled .manual = 33 ∧
    leftSafe .stroking .auto = 20 ∧ leftSafe .stalled .auto = 15 ∧ leftSafe .idle .manual = 15 := by decide +kernel

/-- What the fan of compartment 1 hands to the queue, at a refresh count and with a speed. -/
def fansAt (speed refresh : Nat) : Nat :=
  (((plant.modCompartment 0 fun c => { c with speed := speed, refresh := refresh }).applyFan false 0).refreshCompartment
    0).queue.submitted.length

theorem test_fans_and_rates : fansAt 850 99 = 0 ∧ fansAt 850 100 = 1 ∧ fansAt 849 100 = 1 ∧
    ((plant.modRun 0 fun r => { r with refresh := 99 }).refreshRun 0).queue.submitted = [] ∧
    ((plant.modRun 0 fun r => { r with refresh := 100 }).refreshRun 0).queue.submitted.length = 1 := by decide +kernel

/-- The marks of R96 and R112: a RATE dropped at a mark is one overrun, and the next mark gives it again. -/
theorem test_one_overrun :
    let full : State := (plant.modQueue fun q => { q with list := List.replicate 32 (entryOf 6 .dose .trip) }).modRun 0
      fun r => { r with rate := 19 }
    let u := (full.countMark.coolerMark).finish
    (u.queue.overruns, (u.cooler.runs[(0 : Fin 4)]).refresh) = (1, 99) ∧
    (u.countMark.coolerMark).queue.submitted.length = 1 := by decide +kernel

/-! ### Command queue -/

def proposed (q : List QueueEntry) (st : Nat) (k : CommandKind) (c : CommandClass) : List (Nat × CommandClass) :=
  (({ State.reset with queue := { list := q } } : State).propose
    { station := st, kind := k, value := 2, cls := c, origin := .fuel }).queue.list.map fun e => (e.station, e.cls)

theorem test_queue :
    proposed [entryOf 3 .feed .control, entryOf 4 .feed .control] 3 .feed .routine = [(3, .control), (4, .control)] ∧
    proposed [entryOf 3 .feed .control, entryOf 4 .feed .control] 4 .feed .trip = [(4, .trip), (3, .control)] ∧
    proposed [entryOf 3 .feed .trip, entryOf 4 .feed .routine] 5 .dose .control =
      [(3, .trip), (5, .control), (4, .routine)] ∧
    (proposed (List.replicate 31 (entryOf 6 .dose .control)) 5 .dose .routine).length = 32 ∧
    (proposed (List.replicate 31 (entryOf 6 .dose .control) ++ [entryOf 9 .fan .routine]) 5 .dose .control).getLast? =
      some (5, .control) ∧
    proposed (List.replicate 32 (entryOf 6 .dose .control)) 5 .dose .control = List.replicate 32 (6, .control) ∧
    (proposed (List.replicate 32 (entryOf 6 .dose .control)) 5 .feed .trip).head? = some (5, .trip) := by decide +kernel

theorem test_losses :
    plant.commandLine 6 .dose = some 2 ∧ plant.commandLine 4 .igniter = some 1 ∧ plant.commandLine 4 .feed = none ∧
    plant.commandRun 5 = some 0 ∧ plant.commandCompartment 9 = some 0 ∧ plant.commandLine 3 .dose = none ∧
    plant.commandRun 6 = none ∧ plant.commandCompartment 8 = none ∧
    ((plant.commandLost (entryOf 6 .dose .control) true).lines[(2 : Fin 6)]).lostDoses = 1 ∧
    ((plant.commandLost (entryOf 6 .feed .control) true).lines[(2 : Fin 6)]).refresh = 9 ∧
    (plant.commandLost { entryOf 8 .fan .routine with origin := .passThrough } true).queue.lost = 1 := by decide +kernel

/-- R108: the commands of one event, in ascending line, run and compartment, as the end of the event proposes them. -/
theorem test_event_order :
    ((((plant.queueFan 0).queueRate 0).queueFeed 3 .trip).queueFeed 0 .trip).finish.queue.list.map
      (fun e => (e.station, e.kind)) = [(3, .feed), (7, .feed), (5, .rate), (9, .fan)] := by decide +kernel

/-! ### Alarms -/

/-- The state of alarm 0 after its condition rose or fell in a state. -/
def moved (st : AlarmState) (delay : Nat) (rises : Bool) : AlarmState :=
  let e := { alarmOf (.pointHigh 6 600 50) 2 .none with onDelay := delay }
  let s := plant.modAlarm 0 fun x => { x with entry := some e, state := st }
  ((if rises then s.conditionRises 0 e else s.conditionFalls 0 e).alarmAt 0).state

theorem test_alarm_moves :
    moved .normal 0 true = .raised ∧ moved .normal 100 true = .normal ∧ moved .returned 0 true = .raised ∧
    moved .raised 0 false = .returned ∧ moved .held 0 false = .normal ∧ moved .suppressed 0 false = .normal ∧
    moved .shelved 0 false = .shelved := by decide +kernel

def lowAlarm : AlarmEntry := { alarmOf (.pointLow 6 700 50) 1 .none with group := some 1 }
def lowPlant : State := plant.modAlarm 191 fun x => { x with entry := some lowAlarm }

theorem test_raise :
    (lowPlant.raise 191 lowAlarm).alarm.raisedList = [191, 0] ∧
    ((lowPlant.raise 191 lowAlarm).alarmAt 191).occurrence = 1 ∧
    ((lowPlant.raise 191 lowAlarm).alarm.captures[(1 : Fin 4)]).first.map (·.alarm) = some 191 ∧
    lowPlant.unsettled 191 = true ∧ lowPlant.unsettled 0 = false := by
  decide +kernel

/-- Alarm 50 falls, and its suppressed children 30 and 60, of one group, are raised. -/
def orphans : State :=
  let child : Alarm := { entry := some { alarmOf (.pointLow 6 750 50) 2 .none with parent := some 50, group := some 1 }
                         state := .suppressed, condition := true }
  ((plant.modAlarm 30 fun _ => child).modAlarm 60 fun _ => child).modAlarm 50 fun _ =>
    { entry := some (alarmOf (.pointHigh 6 800 50) 2 .none), state := .raised, condition := true }

theorem test_orphans_ascending :
    orphans.fallPass.orphan 30 = true ∧ orphans.fallPass.orphan 60 = true ∧ orphans.fallPass.orphan 50 = false ∧
    (orphans.settle.alarm.captures[(1 : Fin 4)]).first.map (·.alarm) = some 30 ∧
    (orphans.settle.alarm.captures[(1 : Fin 4)]).followers = 1 ∧
    (orphans.settle.alarmAt 50).state = .returned := by decide +kernel

/-! ### Shift accounting: section 8.8, worked -/

def dayShift (timeBase : Time) : State :=
  { State.reset with timeBase := timeBase, shift := { State.reset.shift with
      clock := some { time := 900000, day := 8000, ms := 48600000 }, plan := [360, 840, 1320] } }

theorem test_boundaries :
    (dayShift 900000).nextBoundary = some { time := 2700000, index := 2 } ∧
    (dayShift 2700000).nextBoundary = some { time := 31500000, index := 3 } ∧
    (dayShift 31500000).nextBoundary = some { time := 60300000, index := 1 } ∧ State.reset.nextBoundary = none := by
  decide +kernel

theorem test_closes :
    (filled.closeShift .commanded 0).shift.ring.map (fun r => r.sequence.toNat) = [4, 5, 6, 7, 8, 9, 10, 11] ∧
    (filled.closeShift .commanded 0).shift.record.flags.reportsLost = false ∧
    ((filled.closeShift .commanded 0).closeShift .commanded 0).shift.record.flags.reportsLost = true ∧
    (dayShift 2700000).boundaryExpiry.shift.ring = [] := by decide +kernel

/-! ### One settling for each event (log entry 14) -/

/-- Children 30 and 60, of one group, of the alarms of an absent station and of a lost quorum, which the halt of a round
with a waiting commit ends both. -/
def halting : State :=
  let child := fun p : Fin 192 => ({ entry := some { alarmOf (.pointLow 6 750 50) 2 .none with parent := some p, group := some 1 }
                                     state := .suppressed, condition := true } : Alarm)
  let cause := fun c => ({ entry := some (alarmOf (.internal c) 2 .none), state := .raised, condition := true } : Alarm)
  { (((plant.modAlarm 60 fun _ => child 50).modAlarm 30 fun _ => child 40).modAlarm 50 fun _ => cause .quorumLost).modAlarm
      40 fun _ => cause (.stationAbsent 7) with
    floor := { plant.floor with
      causes := { quorum := true }, stations := plant.floor.stations.set 7 { absence := 1 }
      staged := some { round with ordinary := [3, 4, 5, 6, 7, 9] } } }

theorem test_halt_is_one_event :
    (halting.halt.alarm.captures[(1 : Fin 4)]).first.map (·.alarm) = some 30 ∧
    (halting.halt.alarm.captures[(1 : Fin 4)]).followers = 1 ∧
    halting.haltFloor.commitInUse { round with ordinary := [3, 4, 5, 6, 7, 9] } = false ∧
    halting.haltFloor.commitInUse { round with ordinary := [4, 5, 6, 7, 8, 9] } = true := by decide +kernel

/-- The stations of a new active copy, and the quick slot that it drops with the flame that was seen there. -/
theorem test_activation :
    let u := (plant.modBurner 0 fun x => { x with scanner1 := true }).activate { round with ordinary := [3, 8], quick := [] }
    plant.onQuickList 10 = true ∧ plant.onActiveList 8 = true ∧ plant.onActiveList 12 = false ∧
    (u.floor.stations[(7 : Fin 60)]).present = true ∧ (u.floor.stations[(11 : Fin 60)]).present = false ∧
    plant.scannerStation { intensity := 0, flicker := 1 } = some 10 ∧ (u.burners[(0 : Fin 3)]).scanner1 = false := by
  decide +kernel

/-- The plant when no point has been heard of for the fresh rounds of the points. -/
def late : State := plant.modFloor fun f => { f with roundNo := 12 }

theorem test_points_aged : [0, 1, 2, 3, 4, 5, 6].Pairwise (fun x y : Fin 256 => x < y) ∧
    (∀ p : Fin 256, p ∈ [(0 : Fin 256), 1, 2, 3, 4, 5, 6] ↔ ∃ e, late.pointEntry? p = some e ∧
      ((late.points[p]).quality = .good ∨ (late.points[p]).quality = .bad) ∧
      e.fresh ≤ (late.floor.roundNo - 1 - (late.points[p]).lastRound).toNat) ∧
    late.markWork.points.toList.map (·.quality) =
      List.replicate 7 .stale ++ List.replicate 249 .unset := by
  refine ⟨by decide, fun p => ?_, by decide +kernel⟩
  rw [show p ∈ [(0 : Fin 256), 1, 2, 3, 4, 5, 6] ↔ late.stalePoint p = true by revert p; decide +kernel]
  unfold State.stalePoint pointAge
  cases late.pointEntry? p <;> simp

/-- R67, R85: a hold takes line 4 from FEEDING to HELD and back, and its deviation check starts again. -/
theorem test_check_follows :
    let held := plant.setHoldAll .quorum true
    let back := held.setHoldAll .quorum false
    ((held.lines[(3 : Fin 6)]).state, (held.lines[(3 : Fin 6)]).deviation.timer) = (.held, none) ∧
    ((back.lines[(3 : Fin 6)]).state, (back.lines[(3 : Fin 6)]).deviation.timer) = (.feeding, some 2050) ∧
    (plant.setHoldAll .quorum false).lines = plant.lines := by decide +kernel

theorem test_sent_told :
    let stroke := { entryOf 5 .stroke .control with origin := .cooler }
    plant.commandRun stroke.station = some 0 ∧ plant.commandRun 6 = none ∧
    ((plant.tellSent stroke).cooler.runs[(0 : Fin 4)]).outstanding = [900, 1050] ∧
    plant.tellSent (entryOf 5 .stroke .control) = plant ∧
    plant.tellSent { entryOf 5 .rate .control with origin := .cooler } = plant :=
  ⟨by decide +kernel, by decide +kernel, by decide +kernel, rfl, rfl⟩

/-! ### Alarm entries written and cleared (R120) -/

theorem test_alarm_rewritten :
    plant.alarmBusy 0 = false ∧ plant.alarmBusy 191 = false ∧ (plant.alarmAt 0).state ≠ .normal ∧
    (plant.alarmAt 1).state = .normal ∧
    (let u := plant.writeAlarm 0 (some (alarmOf (.pointHigh 6 900 50) 2 .none))
     ((u.alarmAt 0).state, (u.alarmAt 0).occurrence, u.alarm.raisedList) = (.normal, 4, [])) ∧
    (let u := plant.writeAlarm 1 (some (alarmOf (.internal (.redRiver 0)) 3 .none))
     (u.alarmAt 1).state = .raised) := by decide +kernel

/-- R105: the clear of the last active zone posts its time and takes the boost from the fans. -/
theorem test_zone_cleared :
    let u := plant.writeZone 0 none
    u.shift.record.redRiver.toNat = 50 ∧ u.cooler.redMark = none ∧ (u.cooler.compartments[(0 : Fin 12)]).speed = 600 := by
  decide +kernel

/-! ### Internal conditions (Table 7-4) -/

/-- Burner 1 of the plant after a lockout with a cause. -/
def lockedBy (c : LockoutCause) : State := plant.modBurner 0 fun x =>
  { x with
    state := .lockout
    lockout := some
      { cause := c, stateLeft := .run, time := 5, dayClock := none, roundNo := 2, alarm := none, line := some 2
        permissive := none, scanner1 := true, scanner2 := false, vote := true, presentRun := 3, absentRun := 0 } }

/-- What a cause makes of FLAME_FAIL, IGNITION_FAIL and BURNER_LOCKOUT. -/
def lockConditions (c : LockoutCause) : List Bool :=
  [Condition.flameFail 0, .ignitionFail 0, .burnerLockout 0].map (lockedBy c).conditionHolds

theorem test_lockout_conditions :
    [LockoutCause.flameFail, .lightoffFail, .flameInPurge].map lockConditions = List.replicate 3 [true, false, true] ∧
    [LockoutCause.ignitionFail, .noIgnitionSource].map lockConditions = List.replicate 2 [false, true, true] ∧
    [LockoutCause.noLightoffLine, .lineFault, .permissiveLost, .alarmTrip].map lockConditions =
      List.replicate 4 [false, false, true] := by decide +kernel

theorem test_conditions :
    plant.conditionHolds (.redRiver 0) = true ∧ plant.conditionHolds (.stationAbsent 6) = false ∧
    halting.conditionHolds (.stationAbsent 7) = true ∧ halting.conditionValue (.stationAbsent 7) = 1 ∧
    halting.conditionHolds .quorumLost = true ∧ plant.conditionHolds .coolerSafe = false ∧
    (plant.modBurner 1 fun x => { x with undelivered := 7 }).conditionValue (.heatShortfall 1) = 7 ∧
    (plant.modZone 0 fun x => { x with diff := -3 }).conditionValue (.redRiver 0) = -3 ∧
    plant.conditionValue .plantSilent = 0 ∧ plant.silenceExpiry.conditionValue .plantSilent = 1 := by decide +kernel

/-! ### Frames, numbers and items (sections 10.1 and 10.2) -/

theorem test_floor_frames :
    (markFrame 0x12345#32 round).take 6 = [1, 4, 0x23, 0x45, 10, 2] ∧ (callFrame 10).take 3 = [2, 1, 10] ∧
    (commandFrame { entryOf 9 .fan .control with value := 850 }).take 6 = [4, 4, 9, 5, 3, 0x52] ∧
    (callFrame 10).length = 5 := by decide +kernel

theorem test_numbers :
    beBytes 2 0x1234 = [0x12, 0x34] ∧ beBytes 1 256 = [0] ∧ beInt 2 (-2) = [255, 254] ∧
    beSigned (beInt 1 (-128)) = -128 ∧ beSigned (beInt 1 127) = 127 ∧ beSigned [0x80, 0] = -32768 ∧
    beNat [1, 0] = 256 ∧ beInt 4 (2 ^ 31) = [0x80, 0, 0, 0] := by decide +kernel

/-- Table 10-2: every encoding in turn, with lists of no, one and two elements. -/
theorem test_items_decoded :
    itemsOf [1, 1, 255, 2, 2, 255, 255, 3, 3, 128, 0, 0, 0, 4, 9, 0, 0, 0, 1, 0, 0, 0, 0, 5, 4, 7] =
      some [{ tag := 1, value := .int 255 }, { tag := 2, value := .int (-1) }, { tag := 3, value := .int (-2147483648) },
        { tag := 4, value := .int 4294967296 }, { tag := 5, value := .enum 7 }] ∧
    itemsOf [1, 5, 2, 0, 255, 2, 6, 1, 255, 254, 3, 5, 0] =
      some [{ tag := 1, value := .ints [0, 255] }, { tag := 2, value := .ints [-2] }, { tag := 3, value := .ints [] }] ∧
    itemsOf [1, 7, 3, 1, 1, 9, 2, 8, 2, 0, 3, 1, 1, 9] =
      some [{ tag := 1, value := .record [1, 1, 9] }, { tag := 2, value := .records [[], [1, 1, 9]] }] := by decide +kernel

theorem test_items_not_decoded : ∀ bs ∈ ([[1], [1, 0, 0], [1, 10, 0], [1, 1], [1, 2, 0], [1, 3, 0, 0, 0],
    [1, 9, 0, 0, 0, 0, 0, 0, 0], [1, 5], [1, 5, 2, 0], [1, 6, 1, 0], [1, 7, 2, 1], [1, 7, 1, 1], [1, 8, 1],
    [1, 8, 1, 2, 1, 1]] : List (List Byte)), itemsOf bs = none := by decide +kernel

theorem test_arguments_read :
    readArgs [intArg, enumArg 2] (named 1 0) =
      some [{ tag := 1, value := .int 1 }, { tag := 2, value := .enum 0 }] ∧
    readArgs [intArg, enumArg 2] (named 1 2) ≠ none ∧ readArgs [intArg, enumArg 2] (two 1 0) = none ∧
    readArgs [intArg] (one 1 ++ one 1) = none ∧ readArgs [intArg] (two 1 1) = none ∧ readArgs [intArg] [] = none ∧
    readArgs [intArg, { kind := .int, mandatory := false }] (one 1) = some [{ tag := 1, value := .int 1 }] ∧
    valueOf [{ tag := 2, value := .enum 3 }] 2 = some (.enum 3) ∧ valueOf [{ tag := 2, value := .enum 3 }] 1 = none := by
  decide +kernel

theorem test_items_spelled :
    itemInt 1 255 = [1, 1, 255] ∧ itemInt 1 256 = [1, 2, 1, 0] ∧ itemInt 1 (-1) = [1, 2, 255, 255] ∧
    itemInt 1 32767 = [1, 2, 127, 255] ∧ itemInt 1 (-32769) = [1, 3, 255, 255, 127, 255] ∧
    itemInt 1 2147483647 = [1, 3, 127, 255, 255, 255] ∧ itemInt 1 2147483648 = [1, 9, 0, 0, 0, 0, 128, 0, 0, 0] ∧
    itemInts 1 [0, 255] = [1, 5, 2, 0, 255] ∧ itemInts 1 [0, 256] = [1, 6, 2, 0, 0, 1, 0] ∧
    itemRecords 2 [[], [1]] = [2, 8, 2, 0, 1, 1] ∧ itemsOf (itemInt 9 (-2147483648)) =
      some [{ tag := 9, value := .int (-2147483648) }] := by decide +kernel

/-! ### Entries: their fields, their ranges, and back -/

/-- The items of an entry suit its table, are taken, and spell the entry. -/
def back {E : Type} [DecidableEq E] (fields : List FieldKind) (build : List Item → Option E) (items : E → List Byte)
    (es : List E) : Bool :=
  es.all fun e => (itemsOf (items e)).any fun is =>
    entrySuits fields is && entryTakes fields is && decide (build is = some e)

def compartment : CompartmentEntry :=
  { inUse := true, station := 60, base := 0, safe := 1000, boost := 1000, zone := some 7 }

theorem test_entries_back :
    back roundFields buildRound RoundTable.items [round, { round with quick := [] }] ∧
    back pointFields buildPoint PointEntry.items [pressure, pointOf 60 7 .s16,
      { pointOf 3 1 .counter16 with gain := none, offset := none, shift := none, high := 65535 },
      { pointOf 3 0 .flags16 with gain := none, offset := none, shift := none, high := 65535 }] ∧
    back burnerFields buildBurner BurnerEntry.items
      [burnerOf (.line 1) [{ kind := .pointAtLeast 4 (-100), running := true }, { kind := .coolerRunning, running := false }],
       { burnerOf (.selfPoint 4 100) [] with scanner2 := some { intensity := 6, flicker := 4 } }] ∧
    back lineFields buildLine LineEntry.items [lineOf (.piece { meterOf 2 with fmax := 7201 } 40 20000) 1 6 2] = false ∧
    back lineFields buildLine LineEntry.items [lineOf (.continuous (meterOf 1) 10 30) 0 3 0,
      lineOf (.piece { meterOf 2 with fmax := 7200 } 40 20000) 1 6 2, lineOf .ignition 2 4 15] ∧
    back runFields buildRun RunEntry.items [runEntry] ∧
    back compartmentFields buildCompartment CompartmentEntry.items [compartment, { compartment with zone := none }] ∧
    back zoneFields buildZone ZoneEntry.items [{ inUse := true, point := 255, delta := 500, hysteresis := 499, persist := 50 }] ∧
    back filterFields buildFilter FilterEntry.items
      [{ inUse := true, station := 8, kind := .rate, action := .clamp 20 20 },
       { inUse := false, station := 1, kind := .feed, action := .block }] ∧
    back alarmFields buildAlarm AlarmEntry.items
      [alarmOf (.internal (.lineFailed .b)) 4 .coolerSafe, alarmOf (.internal (.stationAbsent 59)) 1 (.lineFault 5),
       { alarmOf (.pointQuality 255) 2 (.tripBurner 2) with parent := some 191, group := some 3, onDelay := 600000 }] ∧
    back groupFields buildGroup GroupEntry.items [{ inUse := true, points := [0, 255, 1, 2] }] ∧
    back planFields buildPlan planItems [[0, 1439]] ∧
    back digestFields buildDigest DigestEntry.items [{ inUse := true, point := 255 }] := by decide +kernel

/-- The fields of a zone, tag by tag; a value of one range's end, and beyond it. -/
def zoneOf (point delta hysteresis persist : Int) : Option ZoneEntry :=
  (itemsOf (one 1 ++ itemInt 2 point ++ itemInt 3 delta ++ itemInt 4 hysteresis ++ itemInt 5 persist)).bind buildZone

theorem test_zone_ranges :
    (zoneOf 0 1 0 1).isSome ∧ (zoneOf 255 500 499 50).isSome ∧ zoneOf 256 500 499 50 = none ∧ zoneOf 0 501 0 1 = none ∧
    zoneOf 0 0 0 1 = none ∧ zoneOf 0 60 60 1 = none ∧ zoneOf 0 60 20 0 = none ∧ zoneOf 0 60 20 51 = none ∧
    zoneOf (-1) 60 20 3 = none ∧ buildZone [] = none ∧ buildPlan [{ tag := 1, value := .ints [360, 360] }] = none ∧
    buildPlan [{ tag := 1, value := .ints [1440] }] = none ∧ buildPlan [{ tag := 1, value := .ints [] }] = none := by
  decide +kernel

theorem test_fields_suit_and_taken :
    entrySuits zoneFields [{ tag := 3, value := .enum 1 }] = false ∧
    entrySuits zoneFields [{ tag := 9, value := .enum 1 }] = true ∧
    entryTakes zoneFields [{ tag := 9, value := .enum 1 }] = false ∧
    entryTakes zoneFields [{ tag := 1, value := .int 1 }, { tag := 1, value := .int 1 }] = false ∧
    entryTakes filterFields [{ tag := 3, value := .enum 5 }] = true ∧
    entryTakes filterFields [{ tag := 3, value := .enum 6 }] = false ∧
    entrySuits alarmFields [{ tag := 2, value := .record (itemEnum 3 9 ++ itemEnum 4 1) }] = true ∧
    entrySuits alarmFields [{ tag := 2, value := .record (itemEnum 3 9 ++ itemInt 4 1) }] = false := by decide +kernel

/-! ### Payloads that go up -/

theorem test_digest_contents :
    plant.digestPayload.length = 233 ∧ State.reset.topVector = 255 ∧ plant.topVector = 0 ∧
    [1, 2, 3, 4].map plant.raisedCount = [0, 1, 0, 0] ∧ plant.hornDemanded = true ∧ plant.tripDemanded = false ∧
    (lockedBy .flameFail).tripDemanded = true ∧ (plant.floor.presenceBytes.getD 7 0) = 0x0F := by decide +kernel

/-- A record whose pieces of line 1 no longer fit three bytes. -/
theorem test_record_layout :
    let r := (dayShift 900000).openSnapshot
    let c : ClosedRecord := { closed 5 with body := { r with lines := r.lines.set 0 { pieces := 2 ^ 24 } } }
    c.layout.length = 242 ∧ r.openLayout.length = 242 ∧ (c.layout.take 5, c.layout.getD 25 0) = ([0, 0, 0, 5, 0], 0) := by
  decide +kernel

/-- The fields of FUEL that only some lines have, for every state. -/
theorem test_fuel_records (s : State) : ∃ fault kind : Fin 6 → List Byte,
    (∀ l, (s.lines[l]).faultCause = none → fault l = []) ∧
    (∀ l c n, (s.lines[l]).faultCause = some c → (c, n) ∈ [(FaultCause.faultBit, 0), (.absent, 1), (.deviation, 2)] →
      fault l = itemEnum 6 n) ∧
    (∀ l a, (s.lines[l]).faultCause = some (.alarm a) → fault l = itemEnum 6 3 ++ itemInt 7 a.val) ∧
    (∀ l e, (s.lines[l]).entry = some e → ∀ m x y, e.kind = .piece m x y → ∀ d : DoseTimer,
      ((s.lines[l]).dose = none → kind l = []) ∧
      ((s.lines[l]).dose = some d → kind l =
        itemInt 9 d.interval ++ itemInt 10 (d.start + d.interval - s.timeBase : Nat))) ∧
    (∀ l e, (s.lines[l]).entry = some e → ∀ m x y, e.kind = .continuous m x y → kind l =
      itemInt 11 (s.lines[l]).deviation.seconds ++ itemInt 12 (s.lines[l]).deviation.expected ++
        itemInt 13 (s.lines[l]).deviation.delivered) ∧
    (∀ l, (∀ e, (s.lines[l]).entry = some e → e.kind = .ignition) → kind l = []) := by
  refine ⟨fun l => match (s.lines[l]).faultCause with
      | none => []
      | some .faultBit => itemEnum 6 0
      | some .absent => itemEnum 6 1
      | some .deviation => itemEnum 6 2
      | some (.alarm a) => itemEnum 6 3 ++ itemInt 7 a.val,
    fun l => match (s.lines[l]).entry.map LineEntry.kind, (s.lines[l]).dose with
      | some (.piece _ _ _), some d => itemInt 9 d.interval ++ itemInt 10 (d.start + d.interval - s.timeBase : Nat)
      | some (.continuous _ _ _), _ => itemInt 11 (s.lines[l]).deviation.seconds ++
          itemInt 12 (s.lines[l]).deviation.expected ++ itemInt 13 (s.lines[l]).deviation.delivered
      | _, _ => [], ?_, ?_, ?_, ?_, ?_, ?_⟩
  · intro l h; simp only [h]
  · intro l c n h hc; simp only [h]
    simp only [List.mem_cons, Prod.mk.injEq, List.not_mem_nil, or_false] at hc
    rcases hc with ⟨rfl, rfl⟩ | ⟨rfl, rfl⟩ | ⟨rfl, rfl⟩ <;> rfl
  · intro l a h; simp only [h]
  · intro l e he m x y hk d
    refine ⟨fun h => ?_, fun h => ?_⟩ <;> simp only [he, h, hk, Option.map_some]
  · intro l e he m x y hk; simp only [he, hk, Option.map_some]
  · intro l h
    cases he : (s.lines[l]).entry with
    | none => simp only [he, Option.map_none]
    | some e => simp only [he, Option.map_some, h e he]

/-- A page that an item leaves room for one record only. -/
theorem test_pages :
    let fields := [.item (List.replicate 240 0), .group 1 (List.replicate 3 [7, 7, 7]), .item [9]]
    pageOf fields 0 = some (List.replicate 240 0 ++ itemRecords 1 [[7, 7, 7]]) ∧
    pageOf fields 1 = some (itemRecords 1 [[7, 7, 7], [7, 7, 7]] ++ [9]) ∧ pageOf fields 2 = none := by decide +kernel

theorem test_alarm_items :
    (orphans.alarmAt 30).entry.bind (·.parent) = some 50 ∧
    orphans.alarmItems 30 =
      itemEnum 1 5 ++ itemInt 2 1 ++ itemInt 3 0 ++ itemInt 6 0 ++ itemInt 9 1 ++ itemInt 10 1 ∧
    (plant.alarmAt 0).entry.bind (·.parent) = none ∧
    plant.alarmItems 0 =
      itemEnum 1 1 ++ itemInt 2 1 ++ itemInt 3 4 ++ itemInt 4 1000 ++ itemInt 6 0 ++ itemInt 9 1 := by decide +kernel

/-- The hypotheses by which statements name a function or a relation through its values are met together by that function
or relation, in every state. -/
theorem test_named_functions (s : State) (b : Fin 3) :
    (∃ opt : Option (List Byte) → List Byte, ∀ x, opt x = x.getD []) ∧
    (∃ code : Nat → Byte, ∀ n, code n = BitVec.ofNat 8 n) ∧
    (∃ left : Time → Int, ∀ t, left t = ((t - s.timeBase : Nat) : Int)) ∧
    (∃ timer : BurnerTimer → Nat, [BurnerTimer.purge, .trial, .lightoff].map timer = [0, 1, 2]) ∧
    (∃ lockedOut : List LockoutCause → Prop, ∀ cs, lockedOut cs ↔
      (s.burners[b]).state = .lockout ∧ ∃ r, (s.burners[b]).lockout = some r ∧ r.cause ∈ cs) ∧
    (∃ carries : Condition → Int → Prop, ∀ c v, carries c v ↔ s.conditionValue c = v) ∧
    (∃ step : BitVec 16 → BitVec 16, ∀ c, step c = if c.msb then (c <<< 1) ^^^ 0x1021#16 else c <<< 1) ∧
    (∃ framed : List (List Byte) → List Byte, ∀ rs, framed rs = rs.flatMap fun r => BitVec.ofNat 8 r.length :: r) :=
  ⟨⟨_, fun _ => rfl⟩, ⟨_, fun _ => rfl⟩, ⟨_, fun _ => rfl⟩, ⟨BurnerTimer.code, rfl⟩, ⟨_, fun _ => Iff.rfl⟩,
    ⟨_, fun _ _ => Iff.rfl⟩, ⟨_, fun _ => rfl⟩, ⟨_, fun _ => rfl⟩⟩

end Sys2Proof.Tests
end

section
/-!
PROOFS. The layout of a round (chapter 1, R4): the slots of a table are read off group by group, from the laws of
`groupsOf`, and counted by `RoundTable.slots_length`.
-/
namespace Sys2Proof.Machine

/-- R4 divides the ordinary list alone: without it there is no group, and no quick group either. -/
theorem RoundTable.slots_of_ordinary_nil {t : RoundTable} (h : t.ordinary = []) : t.slots = [] := by
  simp [RoundTable.slots, h, groupsOf_nil]

/-- R4, one step of the sweep: a quick group, a whole ordinary group, and then the layout of the stations that are left. -/
theorem RoundTable.slots_of_ordinary_append {t : RoundTable} (hgap : 0 < t.gap) {group rest : List Nat}
    (h : t.ordinary = group ++ rest) (hlen : group.length = t.gap) :
    t.slots = t.quick.map (fun x => (x, true)) ++ group.map (fun x => (x, false)) ++
      RoundTable.slots { t with ordinary := rest } := by
  have hgroups : groupsOf t.gap t.ordinary.length t.ordinary = group :: groupsOf t.gap rest.length rest := by
    rw [h, groupsOf_cons t.gap hgap group rest hlen]
  simp only [RoundTable.slots, hgroups, List.flatMap_cons]

/-- R4, the end of the sweep: the last ordinary group, whole or shorter, is preceded by a quick group like every other. -/
theorem RoundTable.slots_of_ordinary_le_gap {t : RoundTable} (hne : t.ordinary ≠ [])
    (hlen : t.ordinary.length ≤ t.gap) :
    t.slots = t.quick.map (fun x => (x, true)) ++ t.ordinary.map (fun x => (x, false)) := by
  simp only [RoundTable.slots, groupsOf_last t.gap t.ordinary hne hlen, List.flatMap_singleton]

/-- Settles O22: the sweep consumes the ordinary list group by group, and its length is counted along the same groups. -/
theorem roundLayout : Obligations.RoundLayout := by
  intro t hgap
  refine ⟨?empty, ?wholeGroup, ?lastGroup, ?stationSlots, ?slotTimes⟩
  case empty => exact RoundTable.slots_of_ordinary_nil
  case wholeGroup => exact fun _ _ => RoundTable.slots_of_ordinary_append hgap
  case lastGroup => exact RoundTable.slots_of_ordinary_le_gap
  case stationSlots => exact RoundTable.slots_length t hgap t.ordinary.length t.ordinary le_rfl
  case slotTimes => rfl

end Sys2Proof.Machine
end

section
/-!
PROOFS. The filter (chapter 2, R29): the model's equations by quality and by whether the truncated share is zero, and
the range, from the laws `filteredValue_up` and `filteredValue_down`.
-/
namespace Sys2Proof.Machine

/-- R29: a point that was not GOOD is initialised to the clamped value. -/
theorem filteredValue_of_ne_good {q : Quality} (hq : q ≠ .good) (v c : Int) (k : Nat) : filteredValue q v c k = c :=
  if_neg hq

/-- R29: a GOOD point moves by the filter's step. -/
theorem filteredValue_good (v c : Int) (k : Nat) : filteredValue .good v c k = v + filterStep (c - v) k :=
  if_pos rfl

/-- R29: a share of the difference that truncation leaves is the step. -/
theorem filterStep_of_share_ne_zero {d : Int} {k : Nat} (h : d.tdiv (2 ^ k : Nat) ≠ 0) :
    filterStep d k = d.tdiv (2 ^ k : Nat) :=
  if_neg h

/-- R29: where truncation leaves no share, the step is one unit with the sign of the difference, or none. -/
theorem filterStep_of_share_eq_zero {d : Int} {k : Nat} (h : d.tdiv (2 ^ k : Nat) = 0) : filterStep d k = d.sign :=
  if_pos h

/-- R29: with shift 0 the step is the whole difference. -/
theorem filterStep_shift_zero (d : Int) : filterStep d 0 = d := by
  have hshare : d.tdiv (2 ^ 0 : Nat) = d := by simp
  by_cases hd : d = 0
  · rw [filterStep_of_share_eq_zero (hshare.trans hd), hd, Int.sign_zero]
  · rw [filterStep_of_share_ne_zero (hshare.trans_ne hd), hshare]

/-- R29: a GOOD point that holds the sample keeps it. -/
theorem filteredValue_good_self (c : Int) (k : Nat) : filteredValue .good c c k = c := by
  have hshare : (c - c).tdiv (2 ^ k : Nat) = 0 := by rw [sub_self, Int.zero_tdiv]
  rw [filteredValue_good, filterStep_of_share_eq_zero hshare, sub_self, Int.sign_zero, add_zero]

/-- R29: the new value of a GOOD point lies between its present value and the sample, so in every range that holds
both. -/
theorem filteredValue_good_mem_range {v c low high : Int} (k : Nat) (hv : low ≤ v ∧ v ≤ high) (hc : low ≤ c ∧ c ≤ high) :
    low ≤ filteredValue .good v c k ∧ filteredValue .good v c k ≤ high := by
  rcases lt_trichotomy v c with hlt | rfl | hgt
  · have hup := filteredValue_up v c k hlt
    omega
  · rwa [filteredValue_good_self]
  · have hdown := filteredValue_down v c k hgt
    omega

/-- Settles O19: the equations of the filter by cases of R29; the steady sample is reached because every update brings
the value at least one unit nearer. -/
theorem filterMovesTowardSample : Obligations.FilterMovesTowardSample := by
  intro v c low high k
  refine ⟨?initialised, ?share, ?oneUnit, ?shiftZero, ?up, ?down, ?reached, ?inRange⟩
  case initialised =>
    rintro q (rfl | rfl | rfl) <;> exact filteredValue_of_ne_good (by decide) v c k
  case share =>
    intro hshare
    rw [filteredValue_good, filterStep_of_share_ne_zero hshare]
  case oneUnit =>
    intro hshare
    rw [filteredValue_good, filterStep_of_share_eq_zero hshare]
  case shiftZero => rw [filteredValue_good, filterStep_shift_zero, add_sub_cancel]
  case up => exact filteredValue_up v c k
  case down => exact filteredValue_down v c k
  case reached => exact filteredValue_reaches c k _ v le_rfl
  case inRange => exact fun hlv hvh hlc hch => filteredValue_good_mem_range k ⟨hlv, hvh⟩ ⟨hlc, hch⟩

end Sys2Proof.Machine
end

section
/-!
PROOFS. The trip of a burner by an alarm (chapter 3, R57): a posting to the burner's account after its stop keeps the
rest of `State.BurnerStopped`, so the entry to LOCKOUT (R58, R59) is the stop of `State.stopTo_spec` with one lockout
posted, and the trip is that entry wherever the burner fires.
-/
namespace Sys2Proof.Machine

/-- A posting to the stopped burner's account moves that account alone. -/
theorem State.BurnerStopped.postBurner {s u : State} {b : Fin 3} {st : BurnerState} {record : Option LockoutRecord}
    {account : BurnerAccount} {cls : CommandClass} (h : s.BurnerStopped u b st record account cls)
    (f : BurnerAccount → BurnerAccount) : s.BurnerStopped (u.postBurner b f) b st record (f account) cls where
  burner := h.burner
  burners := h.burners
  metered := h.metered
  igniters := h.igniters
  states := h.states
  checks := h.checks
  lines := h.lines
  accounts := by
    change u.shift.record.burners.set b (f u.shift.record.burners[b]) = _
    simp [h.accounts]
  commands := h.commands
  rest := h.rest

/-- R58, R59: the entry to LOCKOUT, from any state and for any cause. -/
theorem State.enterLockout_lockedOut (s : State) (b : Fin 3) (c : LockoutCause) (d : LockoutDetail) :
    s.LockedOut (s.enterLockout b c d) b c d := by
  have hstop := State.stopTo_spec s b .trip (by decide) .lockout (by decide) (some (s.lockoutRecord b c d))
  rw [State.enterLockout_eq]
  exact hstop.postBurner _

/-- R57: a burner in PURGE, IGNITION, LIGHTOFF or RUN enters LOCKOUT. -/
theorem State.tripBurner_of_firing {s : State} {b : Fin 3} (h : (s.burners[b]).state.firing = true) (a : Fin 192) :
    s.tripBurner b a = s.enterLockout b .alarmTrip { alarm := some a } := if_pos h

/-- R57: the trip of any other burner has no effect. -/
theorem State.tripBurner_of_not_firing {s : State} {b : Fin 3} (h : ¬ (s.burners[b]).state.firing = true)
    (a : Fin 192) : s.tripBurner b a = s := if_neg h

/-- Settles O37: a burner fires where it is neither OFF nor in LOCKOUT, and a trip of it is an entry to LOCKOUT. -/
theorem tripBurner : Obligations.TripBurner := by
  intro s b a
  refine ⟨fun hoff hlockout => ?firing, fun hidle => ?idle⟩
  case firing =>
    rw [State.tripBurner_of_firing ((BurnerState.firing_iff _).mpr ⟨hoff, hlockout⟩)]
    exact s.enterLockout_lockedOut b .alarmTrip { alarm := some a }
  case idle =>
    refine State.tripBurner_of_not_firing (fun hfiring => ?_) a
    obtain ⟨hoff, hlockout⟩ := (BurnerState.firing_iff _).mp hfiring
    exact hidle.elim hoff hlockout

end Sys2Proof.Machine
end

section
/-!
PROOFS. Proposals to the command queue (chapter 6, R109 to R111): one equation of `State.propose` for each of its four
outcomes, and the class that a full queue loses from. The laws of the list give the place of each entry.
-/
namespace Sys2Proof.Machine

/-! ### The outcomes of a proposal -/

/-- R109: a merge settles the proposal, whether or not the queue is full. -/
theorem State.propose_of_merge {s : State} {p : Proposal} {q : List QueueEntry}
    (h : mergeCommand s.queue.list p s.timeBase = some q) :
    s.propose p = { s with queue := { s.queue with list := q, merges := s.queue.merges + 1 } } := by
  simp only [State.propose, h]
  rfl

/-- R110: the queue has room. -/
theorem State.propose_of_room {s : State} {p : Proposal} (h : mergeCommand s.queue.list p s.timeBase = none)
    (hroom : s.queue.list.length < 32) : s.propose p = s.insertCommand p := by
  simp only [State.propose, h]
  exact if_pos hroom

/-- R111: a full queue evicts. -/
theorem State.propose_of_eviction {s : State} {p : Proposal} {c : CommandClass} {lost : QueueEntry}
    (h : mergeCommand s.queue.list p s.timeBase = none) (hfull : 32 ≤ s.queue.list.length)
    (hclass : evictionClass s.queue.list p.cls = some c) (hlost : youngest c s.queue.list = some lost) :
    s.propose p = ((s.setCommands (dropYoungest c s.queue.list)).insertCommand p).commandLost lost true := by
  simp only [State.propose, h, hclass, hlost, Option.bind_some, Option.map_some]
  exact if_neg (Nat.not_lt.mpr hfull)

/-- R111: a full queue has nothing to evict. -/
theorem State.propose_of_drop {s : State} {p : Proposal} (h : mergeCommand s.queue.list p s.timeBase = none)
    (hfull : 32 ≤ s.queue.list.length) (hclass : evictionClass s.queue.list p.cls = none) :
    s.propose p = s.commandLost (p.entry s.timeBase) false := by
  simp only [State.propose, h, hclass, Option.bind_none]
  exact if_neg (Nat.not_lt.mpr hfull)

/-! ### The places of the entries -/

/-- R108, R110: the proposal stands behind every entry of its class or a higher one, before every lower one. -/
theorem State.insertCommand_of_split {s : State} {p : Proposal} {before after : List QueueEntry}
    (hsplit : s.queue.list = before ++ after) (hbefore : ∀ e ∈ before, e.cls.rank ≤ p.cls.rank)
    (hafter : ∀ e ∈ after, p.cls.rank < e.cls.rank) :
    s.insertCommand p = { s with queue := { s.queue with list := before ++ p.entry s.timeBase :: after } } := by
  have htail := insertTail_split (p.entry s.timeBase) before after hbefore hafter
  rw [State.insertCommand, hsplit, htail]
  rfl

/-- R109: what a merge leaves of an entry that takes a higher class is the proposal, queued now. -/
theorem QueueEntry.merged_eq_entry {w : QueueEntry} {p : Proposal} (hstation : w.station = p.station)
    (hkind : w.kind = p.kind) (now : Time) :
    { w with value := p.value, origin := p.origin, cls := p.cls, time := now } = p.entry now := by
  simp only [Proposal.entry, hstation, hkind]

/-! ### The class that a full queue loses from (R111) -/

/-- R111, the first column: a ROUTINE entry gives way to a TRIP or CONTROL proposal. -/
theorem evictionClass_of_routine {q : List QueueEntry} {c : CommandClass} {e : QueueEntry} (he : e ∈ q)
    (hcls : e.cls = .routine) (hc : c ≠ .routine) : evictionClass q c = some .routine := by
  simp [evictionClass, hc, holdsClass_true .routine q e he hcls]

/-- R111, the second column: a CONTROL entry gives way to a TRIP proposal. -/
theorem evictionClass_of_control {q : List QueueEntry} {e : QueueEntry} (he : e ∈ q) (hcls : e.cls = .control)
    (hroutine : ∀ e ∈ q, e.cls ≠ .routine) : evictionClass q .trip = some .control := by
  simp [evictionClass, holdsClass_false .routine q hroutine, holdsClass_true .control q e he hcls]

/-- R111, the last row: nothing gives way to a ROUTINE proposal. -/
theorem evictionClass_routine (q : List QueueEntry) : evictionClass q .routine = none := rfl

/-- R111: without a ROUTINE entry nothing gives way to a CONTROL proposal. -/
theorem evictionClass_control_of_no_routine {q : List QueueEntry} (hroutine : ∀ e ∈ q, e.cls ≠ .routine) :
    evictionClass q .control = none := by
  simp [evictionClass, holdsClass_false .routine q hroutine]

/-- R111, the third column: no TRIP entry gives way. -/
theorem evictionClass_of_all_trip {q : List QueueEntry} (htrip : ∀ e ∈ q, e.cls = .trip) (c : CommandClass) :
    evictionClass q c = none := by
  have hroutine : holdsClass .routine q = false := holdsClass_false _ q fun e he => by simp [htrip e he]
  have hcontrol : holdsClass .control q = false := holdsClass_false _ q fun e he => by simp [htrip e he]
  simp [evictionClass, hroutine, hcontrol]

/-! ### The two statements -/

/-- Settles O52: the list after a merge is that of `mergeCommand_split`; under a higher class the merged entry is the
proposal itself, at the tail that `insertTail_split` finds. -/
theorem mergesReplaceValue : Obligations.MergesReplaceValue := by
  intro s p w q₁ q₂ hlevel hlist hstation hkind hothers
  have hmerge := mergeCommand_split q₁ q₂ w p s.timeBase hlevel hstation hkind hothers
  rw [← hlist] at hmerge
  refine ⟨fun hle => ?keepsPlace, fun hlt before after hsplit hbefore hafter => ?movesUp⟩
  case keepsPlace =>
    rw [if_neg (Nat.not_lt.mpr hle)] at hmerge
    exact State.propose_of_merge hmerge
  case movesUp =>
    rw [if_pos hlt, hsplit, insertTail_split (p.entry s.timeBase) before after hbefore hafter] at hmerge
    rw [QueueEntry.merged_eq_entry hstation hkind]
    exact State.propose_of_merge hmerge

/-- Settles O53: nothing merges, so the room in the list and then `evictionClass` decide; the lost entry and what is left
of the list are those of `youngest_split`. -/
theorem proposalsQueued : Obligations.ProposalsQueued := by
  rintro s p entry rfl hothers
  have hmerge := mergeCommand_none s.queue.list p s.timeBase hothers
  refine ⟨fun hroom before after hsplit hbefore hafter => ?queued, fun hfull => ⟨?evicts, fun hdrop => ?dropped⟩⟩
  case queued =>
    exact (State.propose_of_room hmerge hroom).trans (State.insertCommand_of_split hsplit hbefore hafter)
  case evicts =>
    intro c hc q₁ lost q₂ hlist hcls hyoungest before after hsplit hbefore hafter
    have hmem : lost ∈ s.queue.list := by simp [hlist]
    have hclass : evictionClass s.queue.list p.cls = some c := by
      obtain ⟨rfl, hp⟩ | ⟨rfl, hp, hroutine⟩ := hc
      · exact evictionClass_of_routine hmem hcls hp
      · exact hp ▸ evictionClass_of_control hmem hcls hroutine
    obtain ⟨hlost, hleft⟩ := youngest_split c q₁ q₂ lost hcls hyoungest
    rw [← hlist] at hlost hleft
    have hinsert : (s.setCommands (dropYoungest c s.queue.list)).insertCommand p = _ :=
      State.insertCommand_of_split (hleft.trans hsplit) hbefore hafter
    rw [State.propose_of_eviction hmerge hfull hclass hlost, hinsert]
    rfl
  case dropped =>
    refine State.propose_of_drop hmerge hfull ?_
    obtain hp | ⟨hp, hroutine⟩ | ⟨hp, htrip⟩ := hdrop
    · exact hp ▸ evictionClass_routine _
    · exact hp ▸ evictionClass_control_of_no_routine hroutine
    · exact evictionClass_of_all_trip htrip p.cls

end Sys2Proof.Machine
end

section
/-!
PROOFS. The HORN and TRIP lines (chapter 7, R131, R132): every command ends by driving the two lines from the state it
leaves, so they follow the state whatever the command did and whether or not they followed it before.
-/
namespace Sys2Proof.Machine

/-- Every command, carried out or refused, ends in a state on which the two lines are driven. -/
theorem exec_eq_conclude (i : Instr) (s : State) : ∃ t : State, Machine.exec i s = t.conclude := by
  cases i <;> exact ⟨_, rfl⟩

/-- R131, R132: the lines follow after every command, from any state. -/
theorem exec_linesFollow {i : Instr} {s u : State} (h : Machine.exec i s = .next u) : u.LinesFollow := by
  obtain ⟨t, ht⟩ := exec_eq_conclude i s
  have hu : u = t.driveLines := Host.Outcome.next.inj (h.symm.trans ht)
  exact hu ▸ t.driveLines_follow

/-- R132: what asserts a TRIP line that follows the state. -/
theorem State.LinesFollow.trip_iff {u : State} (h : u.LinesFollow) :
    u.trip = true ↔ (∃ b : Fin 3, (u.burners[b]).state = .lockout) ∨
      ∃ a e, u.alarmEntry? a = some e ∧ e.trip = true ∧
        ((u.alarm.alarms[a]).state = .raised ∨ (u.alarm.alarms[a]).state = .held) := by
  obtain ⟨htrip, -⟩ := h
  rw [htrip, State.tripDemanded_iff]

/-- R131: what asserts a HORN line that follows the state. -/
theorem State.LinesFollow.horn_iff {u : State} (h : u.LinesFollow) :
    u.horn = true ↔ u.alarm.silenced = false ∧ ∃ a e, u.alarmEntry? a = some e ∧ e.horn = true ∧
      ((u.alarm.alarms[a]).state = .raised ∨ (u.alarm.alarms[a]).state = .returned) := by
  obtain ⟨-, hhorn⟩ := h
  rw [hhorn, State.hornDemanded_iff]

/-- Settles O58: the lines follow after the command, and a line that follows is asserted as its rule says. -/
theorem tripAndHornFollow : Obligations.TripAndHornFollow := by
  intro i s u hexec
  have hfollow := exec_linesFollow hexec
  exact ⟨hfollow.trip_iff, hfollow.horn_iff⟩

end Sys2Proof.Machine
end

section
/-!
PROOFS. The step of the machine and the form of the state: what a step does with the queue of commands, and the
property `State.Sound`, which every step keeps and the reset state has. The form of the queues is kept by
`Event.step` of `eventBetween`; the two output lines follow because every command drives them at its end.
-/
namespace Sys2Proof.Machine

/-! ### The step -/

/-- A step with a command at the front runs it with the queue's rest. -/
theorem step_of_pending {s : State} {c : Instr} {rest : List Instr} (h : s.pending = c :: rest) :
    step s = exec c { s with pending := rest } := by
  simp only [step, h]

/-- A step without a command is a step of the idle part. -/
theorem step_of_no_pending {s : State} (h : s.pending = []) : step s = s.idle := by
  simp only [step, h]

/-- The idle part takes the event that has come due. -/
theorem State.idle_of_due {s : State} {i : Instr} (h : s.nextDue = some i) : s.idle = exec i s := by
  simp only [State.idle, h]

/-- With nothing due one millisecond passes. -/
theorem State.idle_of_nothing_due {s : State} (h : s.nextDue = none) : s.idle = .next s.tick := by
  simp only [State.idle, h]

/-- A step that answers a next state is a command, or the passing of one millisecond. -/
theorem step_cases {s u : State} (h : step s = .next u) : (∃ i t, exec i t = .next u) ∨ u = s.tick := by
  cases hpending : s.pending with
  | cons c rest => exact .inl ⟨c, _, (step_of_pending hpending).symm.trans h⟩
  | nil =>
    rw [step_of_no_pending hpending] at h
    cases hdue : s.nextDue with
    | some i => exact .inl ⟨i, s, (State.idle_of_due hdue).symm.trans h⟩
    | none => exact .inr (Host.Outcome.next.inj ((State.idle_of_nothing_due hdue).symm.trans h)).symm

/-- Settles O1. -/
theorem stepRunsFrontCommand : Obligations.StepRunsFrontCommand :=
  fun _ _ _ hpending => step_of_pending hpending

/-- Settles O2: a step without a command is a step of the idle part, which looks for the event that is due. -/
theorem stepWithoutCommand : Obligations.StepWithoutCommand := by
  intro s hpending
  rw [step_of_no_pending hpending]
  exact ⟨fun _ => State.idle_of_due, State.idle_of_nothing_due⟩

/-! ### The form of the state -/

/-- R131, R132: the passing of time leaves the lines and what they follow alone. -/
theorem State.LinesFollow.tick {s : State} (h : s.LinesFollow) : s.tick.LinesFollow := h

/-- R131, R132: the lines follow after a step, since every command drives them and time alone moves nothing. -/
theorem step_linesFollow {s u : State} (hs : s.LinesFollow) (h : step s = .next u) : u.LinesFollow := by
  obtain ⟨i, t, hexec⟩ | rfl := step_cases h
  · exact exec_linesFollow hexec
  · exact hs.tick

/-- Settles O3: the form of the queues, the ring and the flags is an event's invariant, and the lines follow. -/
theorem stepKeepsSound : Obligations.StepKeepsSound := by
  intro s u hsound hstep
  obtain ⟨hbetween, hlines⟩ := (Sound_iff s).mp hsound
  exact (Sound_iff u).mpr ⟨eventBetween.step hbetween hstep, step_linesFollow hlines hstep⟩

/-- The reset state has empty queues, an empty ring and no entry in use. -/
theorem State.reset_between : Between State.reset :=
  ⟨steadyForm.fresh rfl, rfl⟩

/-- No burner is in LOCKOUT and no alarm is in use at reset, so neither line is demanded. -/
theorem State.reset_linesFollow : State.reset.LinesFollow := by
  constructor <;> decide +kernel

/-- Settles O4. -/
theorem resetHasSound : Obligations.ResetHasSound :=
  (Sound_iff State.reset).mpr ⟨State.reset_between, State.reset_linesFollow⟩

end Sys2Proof.Machine
end

section
/-!
PROOFS. The resets (chapters 1 to 9): the part after power-on, POWER_ON_RESET, and the two resets that keep the
configured tables, from the law `State.resetWork_spec`.
-/
namespace Sys2Proof.Machine

/-! ### The part after power-on, block by block -/

/-- The digest that the part would build at reset is the one that its transmitter holds. -/
theorem State.reset_digestPayload : State.reset.digestPayload = firstDigest := by decide +kernel

/-- R1, R22: the floor engine after power-on. -/
theorem State.reset_floor : State.reset.floor = { haltTimer := some 1000 } := rfl

/-- R22: no station has been heard after power-on. -/
theorem State.reset_station (i : Fin 60) :
    State.reset.floor.stations[i] = { present := false, absence := 0, disagree := 0, misplaced := false } :=
  Vector.getElem_replicate _

/-- R41: every point is UNSET and not configured after power-on. -/
theorem State.reset_point (p : Fin 256) : State.reset.points[p] = {} := Vector.getElem_replicate _

/-- R63: every burner is OFF and not configured after power-on. -/
theorem State.reset_burner (b : Fin 3) : State.reset.burners[b] = {} := Vector.getElem_replicate _

/-- R89: every line is cleared after power-on. -/
theorem State.reset_line (l : Fin 6) : State.reset.lines[l] = {} := Vector.getElem_replicate _

/-- R107: every run is IDLE and not configured after power-on. -/
theorem State.reset_run (g : Fin 4) : State.reset.cooler.runs[g] = {} := Vector.getElem_replicate _

/-- R107: every compartment stands still after power-on. -/
theorem State.reset_compartment (k : Fin 12) : State.reset.cooler.compartments[k] = {} := Vector.getElem_replicate _

/-- R107: every zone is inactive after power-on. -/
theorem State.reset_zone (z : Fin 8) : State.reset.cooler.zones[z] = {} := Vector.getElem_replicate _

/-- R118: no filter entry is configured after power-on. -/
theorem State.reset_filter (i : Fin 32) : State.reset.filters[i] = none := Vector.getElem_replicate _

/-- R139: every alarm is NORMAL and not configured after power-on. -/
theorem State.reset_alarm (a : Fin 192) : State.reset.alarm.alarms[a] = {} := Vector.getElem_replicate _

/-- R139: no first-out group is configured after power-on. -/
theorem State.reset_group (g : Fin 4) : State.reset.alarm.groups[g] = none := Vector.getElem_replicate _

/-- R135, R139: every capture record is armed and empty after power-on. -/
theorem State.reset_capture (g : Fin 4) : State.reset.alarm.captures[g] = {} := Vector.getElem_replicate _

/-- R161: the digest list is empty after power-on. -/
theorem State.reset_digestEntry (i : Fin 16) : State.reset.port.digestList[i] = none := Vector.getElem_replicate _

/-- The two lines demand nothing at reset, whatever the rest of the port. -/
theorem State.powerOn_driveLines (s : State) (strap1 strap2 : Bool) :
    (s.powerOn strap1 strap2).driveLines = s.powerOn strap1 strap2 := by
  obtain ⟨htrip, hhorn⟩ := State.reset_linesFollow
  change { s.powerOn strap1 strap2 with
    trip := State.reset.tripDemanded, horn := State.reset.hornDemanded } = _
  rw [← htrip, ← hhorn]
  rfl

/-- Settles O5: the reset state is a literal, so every block is read off it; its tables hold one value throughout. -/
theorem powerOn : Obligations.PowerOn := by
  refine ⟨?reset, fun strap1 strap2 s => congrArg Host.Outcome.next (s.powerOn_driveLines strap1 strap2)⟩
  case reset =>
    rintro s rfl
    refine ⟨?floor, ?points, ?burners, ?lines, ?cooler, ?queue, ?alarms, ?shift, ?port⟩
    case floor =>
      refine ⟨rfl, rfl, rfl, rfl, rfl, rfl, fun x => ?link, rfl, rfl, rfl, rfl, rfl, rfl, rfl, State.reset_station⟩
      case link => cases x <;> rfl
    case points => intro p; simp only [State.reset_point, and_self]
    case burners => intro b; simp only [State.reset_burner]; decide
    case lines => intro l; simp only [State.reset_line, and_self]
    case cooler =>
      refine ⟨rfl, rfl, rfl, fun g => ?_, State.reset_compartment, State.reset_zone⟩
      simp only [State.reset_run, and_self]
    case queue => exact ⟨rfl, rfl, rfl, rfl, rfl, rfl, rfl, rfl, State.reset_filter⟩
    case alarms =>
      refine ⟨fun a => ?_, rfl, rfl, rfl, rfl, fun g => ?_⟩
      · simp only [State.reset_alarm, and_self]
      · simp only [State.reset_group, State.reset_capture, and_self]
    case shift => exact ⟨rfl, rfl, rfl, rfl, rfl, rfl, rfl, rfl⟩
    case port =>
      rw [State.reset_digestPayload]
      exact ⟨rfl, rfl, rfl, rfl, rfl, rfl, rfl, State.reset_digestEntry, rfl, rfl, rfl⟩

/-! ### The resets that keep the tables -/

/-- R162: a commanded reset comes about once the RESET's reply has been sent. -/
theorem State.commandedReset_of_sent {s : State} (h : s.port.resetReplySent = true) (strap1 strap2 : Bool) :
    s.commandedReset strap1 strap2 = (s.resetWork .commanded strap1 strap2).finish := if_pos h

/-- R162: before that it does not. -/
theorem State.commandedReset_of_not_sent {s : State} (h : s.port.resetReplySent = false) (strap1 strap2 : Bool) :
    s.commandedReset strap1 strap2 = s := if_neg (by simp [h])

/-- Settles O6: both resets end with the work of `State.resetWork`, at their own reading and with their own cause. -/
theorem resetsKeepTables : Obligations.ResetsKeepTables := by
  intro strap1 strap2 s
  refine ⟨fun t => ?pin, fun hsent => ?commanded, fun hunsent => ?unsent⟩
  case pin => exact ⟨(s.advance t).resetWork .pin strap1 strap2, rfl, (s.advance t).resetWork_spec .pin strap1 strap2⟩
  case commanded =>
    exact ⟨s.resetWork .commanded strap1 strap2,
      congrArg State.conclude (State.commandedReset_of_sent hsent strap1 strap2),
      s.resetWork_spec .commanded strap1 strap2⟩
  case unsent => exact congrArg State.conclude (State.commandedReset_of_not_sent hunsent strap1 strap2)

end Sys2Proof.Machine
end

section
/-!
PROOFS. The end of an event (chapters 6 and 7; R108, R121, R123, R125): the passes over the alarms by induction on the
passes that are left, one pass by its two halves, and the order in which the commands of the event are proposed.
-/
namespace Sys2Proof.Machine

/-! ### Passes (log entry 4) -/

/-- An in-use entry is out of line where its condition differs from its source or it has lost its parent. -/
theorem State.unsettled_iff (s : State) (a : Fin 192) : s.unsettled a = true ↔ ∃ e, s.alarmEntry? a = some e ∧
    (s.sourceHolds e.source (s.alarm.alarms[a]).condition ≠ (s.alarm.alarms[a]).condition ∨ s.orphaned a e = true) := by
  rw [State.unsettled, Option.any_eq_true]
  simp only [Bool.or_eq_true, bne_iff_ne]
  rfl

/-- R125: an entry in use that has lost its parent. -/
theorem State.orphan_iff (s : State) (a : Fin 192) :
    s.orphan a = true ↔ ∃ e, s.alarmEntry? a = some e ∧ s.orphaned a e = true :=
  Option.any_eq_true _ _

/-- An entry not in use is never out of line. -/
theorem State.unsettled_of_not_in_use {s : State} {a : Fin 192} (h : s.alarmEntry? a = none) :
    s.unsettled a = false := by
  rw [State.unsettled, h, Option.any_none]

/-- Some entry is out of line, or every entry is in line. -/
theorem State.any_unsettled_cases (s : State) :
    (∃ a, s.unsettled a = true) ∨ ((indices 192).any s.unsettled = false ∧ ∀ a, s.unsettled a = false) := by
  cases hany : (indices 192).any s.unsettled with
  | true => exact .inl (any_indices_iff.mp hany)
  | false =>
    refine .inr ⟨rfl, fun a => ?_⟩
    have hall := List.any_eq_false.mp hany a (List.mem_finRange a)
    simpa using hall

/-- Where every entry is in line no pass is made. -/
theorem State.settleFor_of_settled {s : State} (h : (indices 192).any s.unsettled = false) (fuel : Nat) :
    s.settleFor fuel = s := by
  cases fuel with
  | zero => rfl
  | succ n => simp only [State.settleFor, h, Bool.false_eq_true, if_false]

/-- While some entry is out of line one pass is made and the rest of the passes follow. -/
theorem State.settleFor_of_unsettled {s : State} {a : Fin 192} (h : s.unsettled a = true) (fuel : Nat) :
    s.settleFor (fuel + 1) = s.alarmPass.settleFor fuel :=
  if_pos (any_indices_iff.mpr ⟨a, h⟩)

/-- Log entry 4: passes follow one another while some entry is out of line, at most as many as are allowed. -/
theorem State.settleFor_passes (fuel : Nat) (s : State) :
    ∃ n ≤ fuel, s.settleFor fuel = State.alarmPass^[n] s ∧
      (∀ m < n, ∃ a, (State.alarmPass^[m] s).unsettled a = true) ∧
      (n = fuel ∨ ∀ a, (s.settleFor fuel).unsettled a = false) := by
  induction fuel generalizing s with
  | zero => exact ⟨0, le_rfl, rfl, fun m hm => absurd hm (Nat.not_lt_zero m), .inl rfl⟩
  | succ fuel ih =>
    obtain ⟨a, hunsettled⟩ | ⟨hnone, hsettled⟩ := s.any_unsettled_cases
    · obtain ⟨n, hn, hpasses, hbefore, hend⟩ := ih s.alarmPass
      rw [State.settleFor_of_unsettled hunsettled]
      refine ⟨n + 1, Nat.succ_le_succ hn, hpasses, fun m hm => ?_, hend.imp_left (congrArg (· + 1))⟩
      cases m with
      | zero => exact ⟨a, hunsettled⟩
      | succ m => exact hbefore m (Nat.lt_of_succ_lt_succ hm)
    · rw [State.settleFor_of_settled hnone]
      exact ⟨0, Nat.zero_le _, rfl, fun m hm => absurd hm (Nat.not_lt_zero m), .inr hsettled⟩

/-- With no entry in use the settling of the alarms does nothing. -/
theorem State.settle_of_none_in_use {s : State} (h : ∀ a : Fin 192, s.alarmEntry? a = none) : s.settle = s := by
  obtain ⟨a, hunsettled⟩ | ⟨hnone, -⟩ := s.any_unsettled_cases
  · rw [State.unsettled_of_not_in_use (h a)] at hunsettled
    exact absurd hunsettled Bool.false_ne_true
  · exact State.settleFor_of_settled hnone _

/-! ### One pass (R123) -/

/-- The first half of a pass, at one entry: a condition that falls is taken. -/
def State.fallAt (s : State) (a : Fin 192) : State :=
  match s.alarmEntry? a with
  | some e => if s.falling a then s.visitCondition a e else s
  | none => s

/-- The first half of a pass takes the entries in ascending alarm number. -/
theorem State.fallPass_eq (s : State) : s.fallPass = (List.finRange 192).foldl State.fallAt s := rfl

/-- The condition of an in-use entry falls where it was true and its source no longer holds. -/
theorem State.falling_of_entry {s : State} {a : Fin 192} {e : AlarmEntry} (h : s.alarmEntry? a = some e) :
    s.falling a = ((s.alarmAt a).condition && !s.sourceHolds e.source true) := by
  rw [State.falling, h, Option.any_some]

/-- An in-use entry that is visited in its turn, with its parent in place, is brought into line with its source. -/
theorem State.visitAlarm_false {s : State} {a : Fin 192} {e : AlarmEntry} (h : s.alarmEntry? a = some e) :
    s.visitAlarm false a = s.visitCondition a e := by
  simp only [State.visitAlarm, h, Bool.false_eq_true, if_false]

/-- A visit to an entry that is not in use does nothing. -/
theorem State.visitAlarm_of_not_in_use {s : State} {a : Fin 192} (h : s.alarmEntry? a = none) (orphan : Bool) :
    s.visitAlarm orphan a = s := by
  simp only [State.visitAlarm, h]

/-- A falling condition is taken. -/
theorem State.fallAt_of_falling {s : State} {a : Fin 192} {e : AlarmEntry} (h : s.alarmEntry? a = some e)
    (hcondition : (s.alarm.alarms[a]).condition = true) (hsource : s.sourceHolds e.source true = false) :
    s.fallAt a = s.visitAlarm false a := by
  have hfalling : s.falling a = true := by
    rw [State.falling_of_entry h, hsource]
    exact Bool.and_eq_true_iff.mpr ⟨hcondition, rfl⟩
  simp only [State.fallAt, State.visitAlarm_false h, h, hfalling, if_true]

/-- Any other entry is left for the second half. -/
theorem State.fallAt_of_not_falling {s : State} {a : Fin 192}
    (h : ∀ e, s.alarmEntry? a = some e →
      (s.alarm.alarms[a]).condition = false ∨ s.sourceHolds e.source true = true) : s.fallAt a = s := by
  cases hentry : s.alarmEntry? a with
  | none => simp only [State.fallAt, hentry]
  | some e =>
    have hfalling : s.falling a = false := by
      rw [State.falling_of_entry hentry]
      obtain hcondition | hsource := h e hentry
      · exact Bool.and_eq_false_iff.mpr (.inl hcondition)
      · rw [hsource]; exact Bool.and_false _
    simp only [State.fallAt, hentry, hfalling, Bool.false_eq_true, if_false]

/-! ### The commands of the event (R108) -/

/-- R108: what each sender gave, by sender. -/
theorem inOrder_eq {l : List Submission} {given : Sender → List Proposal} (h : ∀ x, given x = givenBy x l) :
    inOrder l = (List.finRange 6).flatMap (fun i => given (.line i)) ++
      (List.finRange 4).flatMap (fun g => given (.run g)) ++
      (List.finRange 12).flatMap fun k => given (.compartment k) := by
  simp only [inOrder, senders, List.flatMap_append, List.flatMap_map, h]
  rfl

/-- A sender's commands are those of its submissions. -/
theorem givenBy_eq (x : Sender) (l : List Submission) :
    givenBy x l = (l.filter fun y => decide (y.sender = x)).map (·.command) := by
  simp only [givenBy, beq_eq_decide]

/-- Settles O7: the passes are those of `State.settleFor_passes`, a pass falls and then rises, and the commands are
proposed in the order of their senders. -/
theorem alarmConsequences : Obligations.AlarmConsequences := by
  refine ⟨fun s => ?settle, ?pass, fun s given hgiven => ?finish⟩
  case settle =>
    exact ⟨s.settle_outer, s.settleFor_passes 64, s.unsettled_iff, State.settle_of_none_in_use⟩
  case pass =>
    intro s u hu
    rw [hu]
    refine ⟨⟨State.fallAt, s.fallPass_eq, fun t a => ⟨fun e => State.fallAt_of_falling, State.fallAt_of_not_falling⟩⟩,
      rfl, s.fallPass.orphan_iff, fun t a orphan hentry => State.visitAlarm_of_not_in_use hentry orphan⟩
  case finish =>
    have horder := inOrder_eq fun x => (hgiven x).trans (givenBy_eq x s.queue.submitted).symm
    refine ⟨?_, s.flush_submitted, s.flush_own, rfl⟩
    rw [← horder]
    rfl

end Sys2Proof.Machine
end

section
/-!
PROOFS. The receiver of the plant link (chapter 9; R152 to R156): one equation of `State.takeChar` for each case of
R153, at any present reading. What a character does to the part is then that equation at the character's reading.
-/
namespace Sys2Proof.Machine

/-! ### The error of a character (R152, R153) -/

/-- R152: the parity of a character is right where the ones among its bits are even in number. -/
theorem charParityOk_iff (c : PlantChar) :
    charParityOk c = true ↔ 2 ∣ ((List.range 8).filter c.data.getLsbD).length + c.mark.toNat + c.parity.toNat := by
  rw [charParityOk, beq_iff_eq, Nat.dvd_iff_mod_eq_zero]
  rfl

/-- R153: an overrun comes before every other error. -/
theorem charError_of_overrun {c : PlantChar} (h : c.overrun = true) : charError c = some .overrun := by
  simp [charError, h]

/-- R153: a low stop bit comes next. -/
theorem charError_of_framing {c : PlantChar} (ho : c.overrun = false) (h : c.stopHigh = false) :
    charError c = some .framing := by
  simp [charError, ho, h]

/-- R153: then noise. -/
theorem charError_of_noise {c : PlantChar} (ho : c.overrun = false) (hs : c.stopHigh = true) (h : c.noisy = true) :
    charError c = some .noise := by
  simp [charError, ho, hs, h]

/-- R153: a character without the three errors before is judged by its parity. -/
theorem charError_of_parity {c : PlantChar} (ho : c.overrun = false) (hs : c.stopHigh = true) (hn : c.noisy = false) :
    charError c = if charParityOk c then none else some .parity := by
  cases h : charParityOk c <;> simp [charError, ho, hs, hn, h]

/-! ### A character outside a frame (R153) -/

section outside

variable {s : State} {c : PlantChar} (hout : s.port.receiver = none)
include hout

/-- A marked character without error begins a frame. -/
theorem State.takeChar_begins (herror : charError c = none) (hmark : c.mark = true) :
    s.takeChar c = s.beginFrame c := by
  simp only [State.takeChar, hout, herror, hmark, if_true]

/-- An unmarked character without error is stray. -/
theorem State.takeChar_stray (herror : charError c = none) (hmark : c.mark = false) :
    s.takeChar c = (s.modCounts fun x => { x with stray := x.stray + 1 }).setReceiver none := by
  simp only [State.takeChar, hout, herror, hmark, Bool.false_eq_true, if_false]
  rw [← hout]
  rfl

/-- A character with an error is counted under its error. -/
theorem State.takeChar_error_outside {e : CharError} (herror : charError c = some e) :
    s.takeChar c = (s.modCounts fun x => x.countError e).setReceiver none := by
  simp only [State.takeChar, hout, herror]
  rw [← hout]
  rfl

end outside

/-! ### A character inside a frame (R153) -/

section inside

variable {s : State} {c : PlantChar} {p : Partial} (hin : s.port.receiver = some p)
include hin

/-- A marked character without error drops the frame and begins a new one. -/
theorem State.takeChar_begins_again (herror : charError c = none) (hmark : c.mark = true) :
    s.takeChar c = (s.modCounts fun x => { x with truncated := x.truncated + 1 }).beginFrame c := by
  simp only [State.takeChar, hin, herror, State.goodCharInside, hmark, if_true]

/-- A length above 250 drops the frame. -/
theorem State.takeChar_bad_length (herror : charError c = none) (hmark : c.mark = false)
    (hlength : p.chars.length = 1) (hlong : 250 < c.data.toNat) :
    s.takeChar c = (s.modCounts fun x => { x with badLength := x.badLength + 1 }).setReceiver none := by
  simp only [State.takeChar, hin, herror, State.goodCharInside, hmark, Bool.false_eq_true, if_false]
  exact if_pos ⟨hlength, hlong⟩

/-- Any other character without error is kept. -/
theorem State.takeChar_keeps (herror : charError c = none) (hmark : c.mark = false)
    (hshort : p.chars.length = 1 → c.data.toNat ≤ 250) : s.takeChar c = s.keepChar p c p.bad := by
  simp only [State.takeChar, hin, herror, State.goodCharInside, hmark, Bool.false_eq_true, if_false]
  exact if_neg fun h => absurd (hshort h.1) (Nat.not_le.mpr h.2)

/-- An error in the length position drops the frame. -/
theorem State.takeChar_error_in_length {e : CharError} (herror : charError c = some e) (hlength : p.chars.length = 1) :
    s.takeChar c = (s.modCounts fun x => x.countError e).setReceiver none := by
  simp only [State.takeChar, hin, herror, State.badCharInside, hlength, if_true]

/-- A character with an error in a later position is kept with the bad mark. -/
theorem State.takeChar_error_later {e : CharError} (herror : charError c = some e) (hlength : p.chars.length ≠ 1) :
    s.takeChar c = (s.modCounts fun x => x.countError e).keepChar p c true := by
  simp only [State.takeChar, hin, herror, State.badCharInside, hlength, if_false]

end inside

/-! ### A character kept (R153, R155) -/

/-- A character that does not complete the frame restarts the gap timer. -/
theorem State.keepChar_incomplete {s : State} {p : Partial} {c : PlantChar}
    (h : frameComplete (p.chars ++ [c.data]) = false) (bad : Bool) : s.keepChar p c bad =
      s.setReceiver (some { chars := p.chars ++ [c.data], bad := bad, last := s.timeBase }) := by
  simp only [State.keepChar, h, Bool.false_eq_true, if_false]

/-- A complete frame with the bad mark is discarded. -/
theorem State.keepChar_discards {s : State} {p : Partial} {c : PlantChar}
    (h : frameComplete (p.chars ++ [c.data]) = true) : s.keepChar p c true = s.setReceiver none := by
  simp only [State.keepChar, State.completeFrame, h, if_true]

/-- The body of a frame whose second check character is the last of `p` and one more. -/
theorem take_body (p : Partial) (c : PlantChar) :
    (p.chars ++ [c.data]).length - 2 = p.chars.length - 1 := by
  rw [List.length_append]
  rfl

/-- A complete frame with a wrong check is discarded and counted. -/
theorem State.keepChar_bad_check {s : State} {p : Partial} {c : PlantChar} {body : List Byte}
    (h : frameComplete (p.chars ++ [c.data]) = true) (hbody : body = (p.chars ++ [c.data]).take (p.chars.length - 1))
    (hcheck : (p.chars ++ [c.data]).drop (p.chars.length - 1) ≠ beBytes 2 (frameCheck body).toNat) :
    s.keepChar p c false = (s.setReceiver none).modCounts fun x => { x with badCheck := x.badCheck + 1 } := by
  subst hbody
  simp only [State.keepChar, State.completeFrame, h, take_body, if_true, Bool.false_eq_true, if_false]
  exact if_pos hcheck

/-- A complete frame with the right check is good. -/
theorem State.keepChar_good {s : State} {p : Partial} {c : PlantChar} {body : List Byte}
    (h : frameComplete (p.chars ++ [c.data]) = true) (hbody : body = (p.chars ++ [c.data]).take (p.chars.length - 1))
    (hcheck : (p.chars ++ [c.data]).drop (p.chars.length - 1) = beBytes 2 (frameCheck body).toNat)
    (hlength : 3 ≤ p.chars.length) : s.keepChar p c false =
      (s.setReceiver none).goodFrame { kind := body.headD 0, payload := body.drop 2 } := by
  have hhead : (p.chars ++ [c.data]).headD 0 = body.headD 0 := by
    subst hbody
    match hp : p.chars, hlength with
    | a :: b :: d :: rest, _ => rfl
  subst hbody
  simp only [State.keepChar, State.completeFrame, h, take_body, if_true, Bool.false_eq_true, if_false]
  rw [hhead]
  exact if_neg (not_not_intro hcheck)

/-- R155: a good frame enters the receive queue where that has room, and is counted as a receive overrun where not; then
the silence ends. -/
theorem State.goodFrame_spec (s : State) (f : RxFrame) : ∃ u : State, s.goodFrame f = u.endSilence ∧
    (s.port.rxQueue.length < 4 → u = { s with port := { s.port with
      counts := { s.port.counts with good := s.port.counts.good + 1 }
      silenceStart := s.timeBase, rxQueue := s.port.rxQueue ++ [f] } }) ∧
    (4 ≤ s.port.rxQueue.length → u = { s with port := { s.port with
      counts := { s.port.counts with good := s.port.counts.good + 1, rxOverrun := s.port.counts.rxOverrun + 1 }
      silenceStart := s.timeBase } }) := by
  refine ⟨_, rfl, fun hroom => ?_, fun hfull => ?_⟩
  · simp only [State.modPort, Config.receivePlaces, hroom, if_true]
  · simp only [State.modPort, Config.receivePlaces, Nat.not_lt.mpr hfull, if_false]

/-! ### The two statements -/

/-- R154: the gap timer expires 2 ms after the last character kept. -/
theorem State.gapExpiry_of_receiving {s : State} {p : Partial} (h : s.port.receiver = some p) : s.gapExpiry =
    ((s.advance (p.last + 2)).setReceiver none).modCounts fun x => { x with idle := x.idle + 1 } := by
  simp only [State.gapExpiry, h]
  rfl

/-- R154: outside a frame no gap timer runs. -/
theorem State.gapExpiry_of_idle {s : State} (h : s.port.receiver = none) : s.gapExpiry = s := by
  simp only [State.gapExpiry, h]

/-- A character is taken at its reading. -/
theorem exec_characterArrival {s u : State} {t : Time} {c : PlantChar} (h : (s.advance t).takeChar c = u) :
    Machine.exec (.characterArrival t c) s = .next u.driveLines :=
  congrArg State.conclude h

/-- Settles O8: each clause is one equation of the receiver, at the reading of the character. -/
theorem charactersReceived : Obligations.CharactersReceived := by
  refine ⟨fun s => ?gaps, ?errors, fun s t c hout => ?outside, fun s t c p hin => ?inside⟩
  case gaps =>
    exact ⟨fun _ => rfl, fun p h => congrArg State.conclude (State.gapExpiry_of_receiving h),
      fun h => congrArg State.conclude (State.gapExpiry_of_idle h)⟩
  case errors =>
    rintro c ones x rfl
    refine ⟨charError_of_overrun, charError_of_framing, charError_of_noise, fun ho hs hn hodd => ?_,
      fun ho hs hn heven => ?_, rfl, rfl, rfl, rfl⟩
    · rw [charError_of_parity ho hs hn, if_neg (mt (charParityOk_iff c).mp hodd)]
    · rw [charError_of_parity ho hs hn, if_pos ((charParityOk_iff c).mpr heven)]
  case outside =>
    have hout' : (s.advance t).port.receiver = none := hout
    exact ⟨fun herror hmark => exec_characterArrival (State.takeChar_begins hout' herror hmark),
      fun herror hmark => exec_characterArrival (State.takeChar_stray hout' herror hmark),
      fun e herror => exec_characterArrival (State.takeChar_error_outside hout' herror)⟩
  case inside =>
    have hin' : (s.advance t).port.receiver = some p := hin
    refine ⟨fun herror hmark => exec_characterArrival (State.takeChar_begins_again hin' herror hmark),
      fun herror hmark hlength hlong => exec_characterArrival
      (State.takeChar_bad_length hin' herror hmark hlength hlong),
      fun e herror hlength => exec_characterArrival (State.takeChar_error_in_length hin' herror hlength),
      fun hincomplete => ⟨fun e herror hlength => ?keptBad, fun herror hmark hshort => ?kept⟩⟩
    case keptBad =>
      exact exec_characterArrival
        ((State.takeChar_error_later hin' herror hlength).trans (State.keepChar_incomplete hincomplete true))
    case kept =>
      exact exec_characterArrival
        ((State.takeChar_keeps hin' herror hmark hshort).trans (State.keepChar_incomplete hincomplete p.bad))

/-- Settles O9: the character is kept, and what becomes of the complete frame is said by the bad mark and the check. -/
theorem frameCompletes : Obligations.FrameCompletes := by
  refine ⟨fun s t c p body hin herror hmark hlength hcomplete hbody => ?unmarked,
      fun s t c p e hin herror hcomplete => ?error⟩
  case unmarked =>
    have hkept : (s.advance t).takeChar c = (s.advance t).keepChar p c p.bad :=
      State.takeChar_keeps hin herror hmark fun h => by omega
    refine ⟨fun hbad => ?bad, fun hbad hcheck => ?wrong, fun hbad hcheck => ?good⟩ <;> rw [hbad] at hkept
    case bad => exact exec_characterArrival (hkept.trans (State.keepChar_discards hcomplete))
    case wrong => exact exec_characterArrival (hkept.trans (State.keepChar_bad_check hcomplete hbody hcheck))
    case good =>
      obtain ⟨u, hgood, hroom, hfull⟩ :=
        ((s.advance t).setReceiver none).goodFrame_spec { kind := body.headD 0, payload := body.drop 2 }
      exact ⟨u, exec_characterArrival
        (hkept.trans ((State.keepChar_good hcomplete hbody hcheck hlength).trans hgood)), hroom, hfull⟩
  case error =>
    have hin' : (s.advance t).port.receiver = some p := hin
    by_cases hlength : p.chars.length = 1
    · exact exec_characterArrival (State.takeChar_error_in_length hin' herror hlength)
    · exact exec_characterArrival
        ((State.takeChar_error_later hin' herror hlength).trans (State.keepChar_discards hcomplete))

end Sys2Proof.Machine
end

section
/-!
PROOFS. Frames and numbers as bytes (chapters 9 and 10; R152, R164, R165), and the frame that is received as it was
sent: an induction on the characters still to come, where the receiver holds those that have come.
-/
namespace Sys2Proof.Machine

/-! ### The bytes of a frame -/

/-- R164: the check in two bytes, the more significant half first. -/
theorem beBytes_two (c : BitVec 16) : beBytes 2 c.toNat = [c.extractLsb' 8 8, c.extractLsb' 0 8] := by
  have hlt := c.isLt
  simp only [beBytes, List.cons.injEq, and_true]
  constructor <;> apply BitVec.eq_of_toNat_eq <;> simp [BitVec.extractLsb'_toNat, Nat.shiftRight_eq_div_pow]

/-- Folding a step that ignores its item is iterating the step. -/
theorem foldl_range_eq_iterate {α : Type} (f : α → α) (n : Nat) (x : α) :
    (List.range n).foldl (fun y _ => f y) x = f^[n] x := by
  induction n with
  | zero => rfl
  | succ n ih => rw [List.range_succ, List.foldl_append, ih, Function.iterate_succ_apply']; rfl

/-- R164: the check takes each byte bit by bit. -/
theorem frameCheck_snoc (bs : List Byte) (b : Byte) :
    frameCheck (bs ++ [b]) = crcBit^[8] (frameCheck bs ^^^ (b.setWidth 16 <<< 8)) := by
  simp only [frameCheck, List.foldl_append, List.foldl_cons, List.foldl_nil, crcByte, foldl_range_eq_iterate]

/-- R152: the body of a frame is all but the last two bytes. -/
theorem frameBytes_eq (kind : Byte) (payload : List Byte) : frameBytes kind payload =
    (kind :: BitVec.ofNat 8 payload.length :: payload) ++
      beBytes 2 (frameCheck (kind :: BitVec.ofNat 8 payload.length :: payload)).toNat := rfl

/-! ### The receiver inside a frame -/

/-- R131, R132: the two lines are driven from the rest of the part, whatever they were. -/
theorem State.driveLines_congr {s t : State}
    (h : { s with trip := false, horn := false } = { t with trip := false, horn := false }) :
    s.driveLines = t.driveLines := by
  change State.driveLines { s with trip := false, horn := false } =
    State.driveLines { t with trip := false, horn := false }
  rw [h]

/-- The part at reading `now`, with the characters `pre` of a frame kept, the last at `now`, and both lines driven. -/
def State.inside (s : State) (now : Time) (pre : List Byte) : State :=
  (s.receiving now (some { chars := pre, bad := false, last := now }) s.port.counts).driveLines

/-- R153: a character of a frame, neither its first nor its last, is kept. -/
theorem State.inside_keeps (s : State) {now : Time} (hnow : s.timeBase ≤ now) {pre : List Byte} {t : Time}
    {c : PlantChar} (herror : charError c = none) (hmark : c.mark = false)
    (hshort : pre.length = 1 → c.data.toNat ≤ 250) (hincomplete : frameComplete (pre ++ [c.data]) = false) :
    Machine.exec (.characterArrival t c) (s.inside now pre) = .next (s.inside (max now t) (pre ++ [c.data])) := by
  have hkept := exec_characterArrival (t := t)
    ((State.takeChar_keeps (s := (s.inside now pre).advance t) rfl herror hmark hshort).trans
      (State.keepChar_incomplete hincomplete false))
  have hbase : max s.timeBase now = now := max_eq_right hnow
  have hbase' : max s.timeBase (max now t) = max now t := max_eq_right (hnow.trans (le_max_left now t))
  refine hkept.trans (congrArg Host.Outcome.next (State.driveLines_congr ?_))
  simp only [State.inside, State.receiving, State.driveLines, State.setReceiver, State.modPort, State.advance, hbase,
    hbase']

/-- The part after a frame was received: it is counted good, restarts the silence timer and waits to be taken. -/
def State.received (s : State) (now : Time) (kind : Byte) (payload : List Byte) : State :=
  State.driveLines { s with
    timeBase := now
    port := { s.port with
      receiver := none, silenceStart := now
      counts := { s.port.counts with good := s.port.counts.good + 1 }
      rxQueue := s.port.rxQueue ++ [{ kind := kind, payload := payload }] } }

/-- R153: the last character of a frame completes it, and its check is right. -/
theorem State.takeChar_completes {u : State} {p : Partial} {c : PlantChar} {kind : Byte} {payload : List Byte}
    (hin : u.port.receiver = some p) (hgood : p.bad = false) (hlength : payload.length ≤ 250)
    (hframe : p.chars ++ [c.data] = frameBytes kind payload) (herror : charError c = none) (hmark : c.mark = false) :
    u.takeChar c = (u.setReceiver none).goodFrame { kind := kind, payload := payload } := by
  have hpre : p.chars.length = payload.length + 3 := by
    have hboth := congrArg List.length hframe
    rw [frameBytes_length, List.length_append] at hboth
    simpa using hboth
  have hcomplete : frameComplete (p.chars ++ [c.data]) = true :=
    frameComplete_prefix kind payload hlength (p.chars ++ [c.data]) [] (by simpa using hframe)
      (by rw [List.length_append]; omega)
  have hbody : (p.chars ++ [c.data]).take (p.chars.length - 1) = kind :: BitVec.ofNat 8 payload.length :: payload := by
    rw [hframe, frameBytes_eq, hpre]; exact List.take_left' rfl
  have hcheck : (p.chars ++ [c.data]).drop (p.chars.length - 1) =
      beBytes 2 (frameCheck (kind :: BitVec.ofNat 8 payload.length :: payload)).toNat := by
    rw [hframe, frameBytes_eq, hpre]; exact List.drop_left' rfl
  rw [State.takeChar_keeps hin herror hmark fun h => by omega, hgood,
    State.keepChar_good hcomplete hbody.symm hcheck (by omega)]
  rfl

/-- R155: a good frame that finds room in the receive queue, while the link is not silent. -/
theorem State.goodFrame_of_room {u : State} (hroom : u.port.rxQueue.length < 4) (hsilent : u.port.silent = false)
    (f : RxFrame) : u.goodFrame f = { u with port := { u.port with
      counts := { u.port.counts with good := u.port.counts.good + 1 }
      silenceStart := u.timeBase, rxQueue := u.port.rxQueue ++ [f] } } := by
  obtain ⟨v, hgood, hqueued, -⟩ := u.goodFrame_spec f
  have hv := hqueued hroom
  have hend : v.endSilence = v := by
    rw [hv]; exact if_neg (by rw [Bool.not_eq_true]; exact hsilent)
  rw [hgood, hend, hv]

/-- R153, R155: the last character of a frame, while the link is not silent and the receive queue has room. -/
theorem State.inside_completes (s : State) {now : Time} (hnow : s.timeBase ≤ now) (hsilent : s.port.silent = false)
    (hroom : s.port.rxQueue.length < 4) {kind : Byte} {payload pre : List Byte} {t : Time} {c : PlantChar}
    (hlength : payload.length ≤ 250) (hframe : pre ++ [c.data] = frameBytes kind payload)
    (herror : charError c = none) (hmark : c.mark = false) :
    Machine.exec (.characterArrival t c) (s.inside now pre) = .next (s.received (max now t) kind payload) := by
  have hin : ((s.inside now pre).advance t).port.receiver = some { chars := pre, bad := false, last := now } := rfl
  have hroom' : (((s.inside now pre).advance t).setReceiver none).port.rxQueue.length < 4 := hroom
  have hsilent' : (((s.inside now pre).advance t).setReceiver none).port.silent = false := hsilent
  have htaken := (State.takeChar_completes hin rfl hlength hframe herror hmark).trans
    (State.goodFrame_of_room hroom' hsilent' _)
  have hbase : max s.timeBase now = now := max_eq_right hnow
  refine (exec_characterArrival htaken).trans (congrArg Host.Outcome.next (State.driveLines_congr ?_))
  simp only [State.inside, State.receiving, State.driveLines, State.setReceiver, State.modPort, State.advance, hbase]

/-- R153: the characters of a frame that are still to come complete it. -/
theorem State.inside_afterChars (s : State) (hsilent : s.port.silent = false) (hroom : s.port.rxQueue.length < 4)
    {kind : Byte} {payload : List Byte} (hlength : payload.length ≤ 250) (cs : List (Time × PlantChar)) :
    ∀ (now : Time) (pre : List Byte), s.timeBase ≤ now → 1 ≤ pre.length → cs ≠ [] →
      pre ++ cs.map (fun x => x.2.data) = frameBytes kind payload → (∀ x ∈ cs, x.2.mark = false) →
      (∀ x ∈ cs, charError x.2 = none) →
      (s.inside now pre).afterChars cs = s.received (cs.foldl (fun t x => max t x.1) now) kind payload := by
  induction cs with
  | nil => exact fun _ _ _ _ hne => absurd rfl hne
  | cons x cs ih =>
    intro now pre hnow hpre _ hframe hmark herror
    have hmarkx := hmark x List.mem_cons_self
    have herrorx := herror x List.mem_cons_self
    rw [List.map_cons] at hframe
    cases cs with
    | nil =>
      rw [afterChars_cons _ _ _ _ (s.inside_completes hnow hsilent hroom hlength hframe herrorx hmarkx)]
      rfl
    | cons y cs =>
      have hsplit : (pre ++ [x.2.data]) ++ (y :: cs).map (fun x => x.2.data) = frameBytes kind payload := by
        simpa using hframe
      have hshort : pre.length = 1 → x.2.data.toNat ≤ 250 := by
        intro hone
        have hsecond := frameBytes_second kind payload hlength
        rw [← hframe, List.getD_append_right _ _ _ _ hone.le, hone] at hsecond
        exact hsecond.trans_le hlength
      have hincomplete : frameComplete (pre ++ [x.2.data]) = false := by
        rw [frameComplete_prefix kind payload hlength _ _ hsplit (by rw [List.length_append]; simp; omega)]
        rfl
      rw [afterChars_cons _ _ _ _ (s.inside_keeps hnow herrorx hmarkx hshort hincomplete)]
      exact ih (max now x.1) _ (hnow.trans (le_max_left _ _)) (by rw [List.length_append]; omega)
        (List.cons_ne_nil _ _) hsplit (fun z hz => hmark z (List.mem_cons_of_mem x hz))
        (fun z hz => herror z (List.mem_cons_of_mem x hz))

/-- R153: the first character of a frame, marked, is kept outside a frame. -/
theorem State.begins_inside {s : State} (hout : s.port.receiver = none) {t : Time} {c : PlantChar}
    (herror : charError c = none) (hmark : c.mark = true) :
    Machine.exec (.characterArrival t c) s = .next (s.inside (max s.timeBase t) [c.data]) := by
  have hbase : max s.timeBase (max s.timeBase t) = max s.timeBase t := max_eq_right (le_max_left _ _)
  have hout' : (s.advance t).port.receiver = none := hout
  rw [exec_characterArrival (State.takeChar_begins hout' herror hmark)]
  simp only [State.inside, State.receiving, hbase]
  rfl

/-- R152, R153, R155, R164: a frame sent character by character is received. -/
theorem State.afterChars_frame {s : State} {kind : Byte} {payload : List Byte} {cs : List (Time × PlantChar)}
    (hout : s.port.receiver = none) (hsilent : s.port.silent = false) (hroom : s.port.rxQueue.length < 4)
    (hlength : payload.length ≤ 250) (hdata : cs.map (fun x => x.2.data) = frameBytes kind payload)
    (hmarks : cs.map (fun x => x.2.mark) = true :: List.replicate (payload.length + 3) false)
    (herror : ∀ x ∈ cs, charError x.2 = none) :
    s.afterChars cs = s.received (cs.foldl (fun t x => max t x.1) s.timeBase) kind payload := by
  cases cs with
  | nil => simp at hmarks
  | cons x cs =>
    simp only [List.map_cons, List.cons.injEq] at hmarks
    obtain ⟨hfirst, hrest⟩ := hmarks
    have hne : cs ≠ [] := by rintro rfl; simp [List.replicate_succ] at hrest
    have hmark : ∀ y ∈ cs, y.2.mark = false := fun y hy =>
      List.eq_of_mem_replicate (hrest ▸ List.mem_map_of_mem (f := fun x : Time × PlantChar => x.2.mark) hy)
    rw [afterChars_cons _ _ _ _ (State.begins_inside hout (herror x List.mem_cons_self) hfirst)]
    exact s.inside_afterChars hsilent hroom hlength cs _ [x.2.data] (le_max_left _ _) le_rfl hne hdata hmark
      fun y hy => herror y (List.mem_cons_of_mem x hy)

/-- Settles O10: a frame is received by `State.afterChars_frame`; its bytes and numbers are those of the laws. -/
theorem framesAreReceived : Obligations.FramesAreReceived := by
  refine ⟨?received, ?frame, fun k n i bs b => ?numbers⟩
  case received =>
    rintro s kind payload cs now hout hsilent hroom hlength hdata hmarks herror rfl
    exact State.afterChars_frame hout hsilent hroom hlength hdata hmarks herror
  case frame =>
    rintro kind payload body b step rfl hstep
    obtain rfl : step = crcBit := funext hstep
    exact ⟨by rw [← beBytes_two, frameBytes_eq], rfl, frameCheck_snoc payload b⟩
  case numbers =>
    exact ⟨beBytes_length k n, beNat_beBytes k n, beInt_length k i, rfl, fun _ => beSigned_beInt, beNat_nil,
      beNat_snoc bs b, rfl⟩

end Sys2Proof.Machine
end

section
/-!
PROOFS. Silence, the requests that the plant port takes for itself, and READ_STATUS (chapter 9; R156, R162, R163, R167):
the records as the model spells them, and the pages as a structural recursion to which the model's bounded one comes
down wherever its bound suffices.
-/
namespace Sys2Proof.Machine

/-! ### Requests that are answered in their own event (R157) -/

/-- A request, and what its owner makes of it. -/
theorem State.offers.exec_of_handler {s u : State} {kind number : Byte} {args : List Byte} {row : Instr} {f : Handler}
    {a : Answer} (h : s.offers kind number args) (hexec : Machine.exec row s = (s.serveKind kind f).conclude)
    (hanswer : f s.popRequest number args = (u, some a)) : Machine.exec row s = .next (u.answered number kind a) := by
  rw [hexec, h.serveKind, hanswer]
  rfl

/-- What an owner that always answers makes of arguments that decode. -/
theorem answering_eq {as : List Arg} {bs : List Byte} {is : List Item} (hread : readArgs as bs = some is)
    {f : State → List Item → State × Answer} {s u : State} {a : Answer} (h : f s is = (u, a)) (n : Byte) :
    answering as f s n bs = (u, some a) := by
  rw [answering_of_read hread, h]

/-- No bytes are no arguments. -/
theorem readArgs_nil : readArgs [] [] = some [] := rfl

/-! ### Silence (R156) -/

/-- R156: the timer of a silent link does not run. -/
theorem State.silenceExpiry_of_silent {s : State} (h : s.port.silent = true) : s.silenceExpiry = s := by
  simp only [State.silenceExpiry, Port.silenceDue, h, if_true]

/-- R156: the expiry makes the link silent at the reading that the timer holds, and SILENCE is reported. -/
theorem State.silenceExpiry_of_not_silent {s : State} (h : s.port.silent = false) : s.silenceExpiry =
    (((s.advance (s.port.silenceStart + s.port.silenceTime * 1000)).modPort
      fun p => { p with silent := true }).setHoldAll .silence true).finish := by
  simp only [State.silenceExpiry, Port.silenceDue, h, Bool.false_eq_true, if_false]

/-- R156: the end of a silence withdraws SILENCE. -/
theorem State.endSilence_of_silent {s : State} (h : s.port.silent = true) : s.endSilence =
    ((s.modPort fun p => { p with silent := false }).setHoldAll .silence false).finish := if_pos h

/-- R156: a link that is not silent has no silence to end. -/
theorem State.endSilence_of_not_silent {s : State} (h : s.port.silent = false) : s.endSilence = s :=
  if_neg (by simp [h])

/-- R156: SET_SILENCE_TIME within 1 to 60 s sets the silence time. -/
theorem handleSetSilence_taken {args : List Byte} {is : List Item} {n : Int} (hread : readArgs [intArg] args = some is)
    (h : intOf is 1 = some n) (hlo : 1 ≤ n) (hhi : n ≤ 60) (s : State) (number : Byte) :
    handleSetSilence s number args = (s.modPort fun p => { p with silenceTime := n.toNat }, some Answer.ok) := by
  have hneed : needNat is 1 1 60 = some n.toNat := by rw [needNat_of h, if_pos ⟨hlo, hhi⟩]
  exact answering_eq hread (by simp only [hneed]) number

/-- R156: any other silence time is refused. -/
theorem handleSetSilence_refused {args : List Byte} {is : List Item} {n : Int}
    (hread : readArgs [intArg] args = some is)
    (h : intOf is 1 = some n) (hout : n < 1 ∨ 60 < n) (s : State) (number : Byte) :
    handleSetSilence s number args = (s, some { result := .invalid }) := by
  have hneed : needNat is 1 1 60 = none := by
    rw [needNat_of h, if_neg fun hin => by push_cast at hin; omega]
  exact answering_eq hread (by simp only [hneed, refuse]) number

/-! ### READ_STATUS (R163) -/

section readStatus

variable {s : State} {args : List Byte} {is : List Item} {block : Nat} {page : Int} {fields : List Field}
  (hread : readArgs [enumArg 9, intArg] args = some is) (hblock : enumOf is 1 = some block)
  (hfields : s.statusOf block = some fields) (hpage : intOf is 2 = some page)
include hread hblock hfields hpage

/-- R163: a page of the record. -/
theorem handleReadStatus_page {bytes : List Byte} (hpos : 0 ≤ page) (hbytes : pageOf fields page.toNat = some bytes)
    (number : Byte) : handleReadStatus s number args = (s, some { result := .done, body := bytes }) := by
  refine answering_eq hread ?_ number
  simp only [hblock, Option.bind_some, hfields, hpage, hbytes]
  exact if_neg (not_lt.mpr hpos)

/-- R163: a page that the record does not have. -/
theorem handleReadStatus_no_page (hout : page < 0 ∨ pageOf fields page.toNat = none) (number : Byte) :
    handleReadStatus s number args = (s, some { result := .badIndex }) := by
  refine answering_eq hread ?_ number
  simp only [hblock, Option.bind_some, hfields, hpage]
  obtain hneg | hnone := hout
  · exact if_pos hneg
  · rw [hnone]
    exact ite_self _

end readStatus

/-! ### How values are spelled in a record (section 10.2.1) -/

/-- A truth value is 0 or 1. -/
theorem truthValue_eq (b : Bool) : truthValue b = (b.toNat : Int) := by cases b <;> rfl

/-- Truth values as 0 and 1, for lists of them. -/
theorem truthValue_eq_fun : truthValue = fun b => (b.toNat : Int) := funext truthValue_eq

/-- A truth value as an item. -/
theorem itemBool_eq (tag : Nat) (b : Bool) : itemBool tag b = itemInt tag b.toNat := by
  rw [itemBool, truthValue_eq]

/-- An optional item is its bytes, or none. -/
theorem itemOpt_eq {α : Type} (f : α → List Byte) (x : Option α) : itemOpt f x = (x.map f).getD [] := by
  cases x <;> rfl

/-- The lowest bit of a number made of bits. -/
theorem bitsNat_cons (b : Bool) (bs : List Bool) : bitsNat (b :: bs) = b.toNat + 2 * bitsNat bs := by
  cases b <;> rfl

/-- What a vector holds, in the order of its indices. -/
theorem toList_map_eq_finRange {α β : Type} {n : Nat} (v : Vector α n) (f : α → β) :
    v.toList.map f = (List.finRange n).map fun i => f v[i] := by
  apply List.ext_getElem <;> simp

/-! ### The nine records (R163, log entry 24) -/

/-- R23: the record of FLOOR. -/
theorem State.floorStatus_eq (s : State) : s.floorStatus =
    [.item (itemEnum 1 s.floor.state.code), .item (itemInt 2 s.floor.causes.code),
      .item (itemInt 3 s.floor.staged.isSome.toNat), .item (itemInt 4 s.floor.stopWaiting.toNat),
      .group 5 [s.floor.linkA.items, s.floor.linkB.items], .item (itemInt 6 s.floor.roundNo.toNat),
      .item (itemInts 7 (s.floor.presenceBytes.map fun b => (b.toNat : Int))),
      .group 8 (s.activeStations.map s.stationItems)] := by
  simp only [State.floorStatus, itemBool_eq]
  rfl

/-- R40: the age of a point that is seen as UNSET is 0. -/
theorem State.ageOf_eq (s : State) (p : Fin 256) : (s.ageOf p : Int) = if s.pointQuality p = .unset then 0
    else ((s.floor.roundNo - 1 - (s.points[p]).lastRound).toNat : Int) := by
  unfold State.ageOf pointAge
  split <;> rfl

/-- R40: one point of the record of POINT. -/
theorem State.pointRecord_eq (s : State) (p : Fin 256) : s.pointRecord p =
    itemInt 1 (s.pointEntry? p).isSome.toNat ++ itemEnum 2 (s.pointQuality p).code ++
      itemInt 3 (s.points[p]).value ++ itemInt 4 (s.points[p]).lastRound.toNat ++
      itemInt 5 (if s.pointQuality p = .unset then 0
        else ((s.floor.roundNo - 1 - (s.points[p]).lastRound).toNat : Int)) ++
      itemInt 6 (s.points[p]).implCount ++ itemInt 7 (s.points[p]).implausible.toNat := by
  rw [← s.ageOf_eq p]
  simp only [State.pointRecord, itemBool_eq]
  rfl

/-- R23: the stations are numbered from 1. -/
theorem Floor.stationAt_succ (fl : Floor) (i : Fin 60) : fl.stationAt (i.val + 1) = fl.stations[i] := by
  have hindex : stationIndex (i.val + 1) = some i := by
    rw [stationIndex]; exact objectIndex_one i
  simp only [Floor.stationAt, hindex]

/-- R88: one line of the record of FUEL. -/
theorem State.lineRecord_eq (s : State) (l : Fin 6) : s.lineRecord l =
    itemEnum 1 (s.lines[l]).state.code ++ itemEnum 2 (s.lines[l]).mode.code ++ itemInt 3 (s.lines[l]).feed ++
      itemInt 4 (s.lines[l]).target ++ itemInt 5 (s.lines[l]).igniter.toNat ++
      itemOpt FaultCause.items (s.lines[l]).faultCause ++ itemInt 8 (s.lines[l]).refresh ++ s.kindItems s.lines[l] ++
      itemInt 14 (s.lines[l]).lostDoses ++ itemInt 15 (s.lines[l]).lifetime.mass.toNat ++
      itemInt 16 (s.lines[l]).lifetime.heat.toNat ++ itemInt 17 (s.lines[l]).lifetime.pieces.toNat := by
  simp only [State.lineRecord, itemBool_eq]
  rfl

/-- R106: one zone of the record of COOLER. -/
theorem State.zoneRecord_eq (s : State) (z : Fin 8) : s.zoneRecord z =
    itemInt 1 (s.cooler.zones[z]).active.toNat ++ itemInt 2 (s.cooler.zones[z]).onRun ++
      itemInt 3 (s.cooler.zones[z]).offRun ++ itemInt 4 (s.cooler.zones[z]).diff := by
  simp only [State.zoneRecord, itemBool_eq]
  rfl

/-- R106, Table 5-7: one run of the record of COOLER. -/
theorem State.runRecord_eq (s : State) (g : Fin 4) : s.runRecord g =
    itemEnum 1 (s.cooler.runs[g]).state.code ++ itemEnum 2 (s.cooler.runs[g]).mode.code ++
      itemInt 3 (s.cooler.runs[g]).manualRate ++ itemInt 4 (s.cooler.runs[g]).rate ++
      itemOpt (fun t : StrokeTimer => itemNat 5 t.period ++ itemNat 6 (s.remaining (t.start + t.period)))
        (s.cooler.runs[g]).timer ++
      itemRecords 7 ((s.cooler.runs[g]).outstanding.map fun t => itemInt 1 (t % 2 ^ 48 : Nat)) ++
      itemInt 8 (s.cooler.runs[g]).waiting ++ itemInt 9 (s.cooler.runs[g]).counts.expiries.toNat ++
      itemInt 10 (s.cooler.runs[g]).counts.skipped.toNat ++ itemInt 11 (s.cooler.runs[g]).counts.sent.toNat ++
      itemInt 12 (s.cooler.runs[g]).counts.dropped.toNat ++ itemInt 13 (s.cooler.runs[g]).counts.confirmed.toNat ++
      itemInt 14 (s.cooler.runs[g]).counts.abandoned.toNat ++
      itemInt 15 (s.cooler.runs[g]).counts.unexpected.toNat := by
  simp only [State.runRecord, State.runAt, RunCounts.items, ← List.append_assoc]
  rfl

/-- Table 3-6: the causes are numbered in their order. -/
theorem LockoutCause.code_eq (c : LockoutCause) : c.code =
    [LockoutCause.flameInPurge, .noIgnitionSource, .noLightoffLine, .ignitionFail, .lightoffFail, .lineFault,
    .flameFail,
      .permissiveLost, .alarmTrip].idxOf c := by
  cases c <;> rfl

/-- Table 3-6: a lockout record. -/
theorem LockoutRecord.items_eq (r : LockoutRecord) : r.items =
    itemEnum 1 ([LockoutCause.flameInPurge, .noIgnitionSource, .noLightoffLine, .ignitionFail, .lightoffFail,
      .lineFault, .flameFail, .permissiveLost, .alarmTrip].idxOf r.cause) ++
    itemEnum 2 (r.stateLeft.code - 1) ++ itemInt 3 (r.time % 2 ^ 48 : Nat) ++
    ((r.dayClock.map fun d => itemRecord 4 (itemInt 1 d.day ++ itemInt 2 d.ms)).getD []) ++
    itemInt 5 r.roundNo.toNat ++ ((r.alarm.map fun a => itemInt 6 a.val).getD []) ++
    ((r.line.map fun l => itemInt 7 (l.val + 1 : Nat)).getD []) ++
    ((r.permissive.map fun n : Nat => itemInt 8 n).getD []) ++ itemEnum 9 r.scanner1.toNat ++
    itemEnum 10 r.scanner2.toNat ++ itemEnum 11 r.vote.toNat ++ itemInt 12 r.presentRun ++
    itemInt 13 r.absentRun := by
  simp only [LockoutRecord.items, itemOpt_eq, LockoutCause.code_eq]
  rfl

/-- R64, Table 3-3: one burner of the record of BURNER. -/
theorem State.burnerRecord_eq (s : State) (b : Fin 3) : s.burnerRecord b =
    itemEnum 1 (s.burners[b]).state.code ++ itemEnum 2 (s.burners[b]).scanner1.toNat ++
      itemEnum 3 (s.burners[b]).scanner2.toNat ++ itemEnum 4 (s.burners[b]).vote.toNat ++
      itemInt 5 (s.burners[b]).presentRun ++ itemInt 6 (s.burners[b]).absentRun ++
      itemInt 7 (s.burners[b]).confirmed.toNat ++
      itemInts 8 ((s.burners[b]).permOk.map fun ok => (ok.toNat : Int)) ++
      (((s.burners[b]).timer.map fun t =>
        itemRecord 9 (itemEnum 1 t.1.code ++ itemInt 2 (s.remaining t.2))).getD []) ++
      (((s.burners[b]).trialInLightoff.map fun t => itemInt 10 (s.remaining t)).getD []) ++
      (((s.burners[b]).lightoffLine.map fun l => itemInt 11 (l.val + 1 : Nat)).getD []) ++
      itemInt 12 (s.burners[b]).purgeAborts ++
      (((s.burners[b]).lockout.map fun r => itemRecord 13 r.items).getD []) := by
  simp only [State.burnerRecord, itemOpt_eq, itemBool_eq, truthValue_eq_fun]
  rfl

/-- Table 6-1: the kinds are numbered in their order. -/
theorem itemName_commandKinds (tag : Nat) (k : CommandKind) : itemName tag commandKinds k =
    itemEnum tag ([CommandKind.feed, .dose, .igniter, .stroke, .fan, .rate].idxOf k) := by
  cases k <;> rfl

/-- R108: the classes are numbered in their order. -/
theorem CommandClass.code_eq (c : CommandClass) : c.code = [CommandClass.trip, .control, .routine].idxOf c := by
  cases c <;> rfl

/-- Table 6-1: the origins are numbered in their order. -/
theorem Origin.code_eq (o : Origin) : o.code = [Origin.fuel, .cooler, .passThrough].idxOf o := by
  cases o <;> rfl

/-- Table 6-1: an entry of the command queue. -/
theorem QueueEntry.items_eq (e : QueueEntry) : e.items = itemInt 1 e.station ++
    itemEnum 2 ([CommandKind.feed, .dose, .igniter, .stroke, .fan, .rate].idxOf e.kind) ++
    itemInt 3 e.value ++ itemEnum 4 ([CommandClass.trip, .control, .routine].idxOf e.cls) ++
    itemEnum 5 ([Origin.fuel, .cooler, .passThrough].idxOf e.origin) ++ itemInt 6 (e.time % 2 ^ 48 : Nat) := by
  simp only [QueueEntry.items, itemName_commandKinds, CommandClass.code_eq, Origin.code_eq]
  rfl

/-- R117: the record of QUEUE. -/
theorem State.queueStatus_eq (s : State) : s.queueStatus =
    [.item (itemInt 1 s.queue.list.length), .item (itemInt 2 (s.queue.inClass .trip)),
      .item (itemInt 3 (s.queue.inClass .control)), .item (itemInt 4 (s.queue.inClass .routine)),
      .group 5 (s.queue.list.map QueueEntry.items),
      .item (itemInt 6 s.queue.overruns.toNat), .item (itemInt 7 s.queue.overrunsTrip.toNat),
      .item (itemInt 8 s.queue.overrunsControl.toNat), .item (itemInt 9 s.queue.overrunsRoutine.toNat),
      .item (itemInt 10 s.queue.merges.toNat), .item (itemInt 11 s.queue.lost.toNat),
      .item (itemInt 12 s.queue.overrun.toNat)] := by
  simp only [State.queueStatus, itemBool_eq]
  rfl

/-- R138: one entry of the raised list in the record of ALARM. -/
theorem State.raisedItems_eq (s : State) (a : Fin 192) : s.raisedItems a = itemInt 1 a.val ++
    (((s.alarm.alarms[a]).entry.map fun e => itemInt 2 e.priority).getD []) ++
    (((s.alarm.alarms[a]).raiseTime.map fun t => itemInt 3 (t % 2 ^ 48 : Nat)).getD []) := by
  simp only [State.raisedItems, itemOpt_eq]
  rfl

/-- R138: the record of ALARM. -/
theorem State.alarmStatus_eq (s : State) : s.alarmStatus =
    [.group 1 (s.alarm.raisedList.map s.raisedItems),
      .item (itemInt 2 s.topVector), .item (itemInt 3 (s.raisedCount 1)), .item (itemInt 4 (s.raisedCount 2)),
      .item (itemInt 5 (s.raisedCount 3)), .item (itemInt 6 (s.raisedCount 4)),
      .item (itemInt 7 (s.inState .held)), .item (itemInt 8 (s.inState .returned)),
      .item (itemInt 9 (s.inState .shelved)), .item (itemInt 10 (s.inState .suppressed)),
      .item (itemInt 11 s.hornDemanded.toNat), .item (itemInt 12 s.tripDemanded.toNat),
      .item (itemInt 13 s.alarm.silenced.toNat),
      .group 14 ((List.finRange 4).map fun g => (s.alarm.captures[g]).items)] := by
  simp only [State.alarmStatus, itemBool_eq, toList_map_eq_finRange]
  rfl

/-- R147: the flags of a record as bits. -/
theorem ShiftFlags.code_eq (f : ShiftFlags) : f.code = f.clockUnset.toNat + 2 * f.clockChanged.toNat +
    4 * f.continued.toNat + 8 * f.countersImplausible.toNat + 16 * f.reportsLost.toNat := by
  simp only [ShiftFlags.code, bitsNat_cons, show bitsNat [] = 0 from rfl]
  omega

/-- R150: the next boundary, where clock and boundary are set. -/
theorem State.boundaryItems_eq (s : State) : s.boundaryItems = ((s.shift.clock.bind fun c =>
    s.shift.boundary.map fun b => itemDay 4 (c.reading b.time) ++ itemInt 5 b.index).getD []) := by
  unfold State.boundaryItems
  cases s.shift.clock <;> cases s.shift.boundary <;> rfl

/-- R150: one record of the ring in the record of SHIFT. -/
theorem ClosedRecord.items_eq (r : ClosedRecord) :
    r.items = itemInt 1 r.sequence.toNat ++ itemInt 2 r.collected.toNat := by
  simp only [ClosedRecord.items, itemBool_eq]
  rfl

/-- R156: the ms that the silence timer still has to run. -/
theorem State.silenceLeft_eq (s : State) :
    itemOpt (fun t => itemNat 16 (s.remaining t)) s.port.silenceDue = if s.port.silent = true then []
      else itemInt 16 (s.port.silenceStart + s.port.silenceTime * 1000 - s.timeBase : Nat) := by
  unfold Port.silenceDue
  split <;> rfl

/-- R150: the record of SHIFT. -/
theorem State.shiftStatus_eq (s : State) : s.shiftStatus =
    [.item (itemInt 1 s.shift.clock.isSome.toNat), .item ((s.dayClock.map (itemDay 2)).getD []),
      .item (itemInts 3 (s.shift.plan.map Int.ofNat)), .item s.boundaryItems,
      .item (itemInt 6 s.shift.nextSequence.toNat), .item (itemInt 7 s.shift.record.index),
      .item (itemInt 8 (s.shift.record.openTime % 2 ^ 48 : Nat)),
      .item ((s.shift.record.openDay.map (itemDay 9)).getD []), .item (itemInt 10 s.shift.record.flags.code),
      .group 11 (s.shift.ring.map ClosedRecord.items)] := by
  simp only [State.shiftStatus, itemBool_eq, itemOpt_eq]
  rfl

/-- R163: the link counts of the record of PORT, numbered from 1. -/
theorem LinkCounts.fields_eq (c : LinkCounts) :
    (c.list.zipIdx.map fun x => Field.item (itemCount (x.2 + 1) x.1)) =
      c.list.mapIdx fun i n => Field.item (itemInt (i + 1) n.toNat) := rfl

/-- R152: the bit rate of the strap pins. -/
theorem Port.bitRate_eq (p : Port) : (p.bitRate : Int) = match p.strap1, p.strap2 with
    | false, false => 115200
    | false, true => 230400
    | true, false => 460800
    | true, true => 921600 := by
  unfold Port.bitRate
  cases p.strap1 <;> cases p.strap2 <;> rfl

/-- R163: the record of PORT. -/
theorem State.portStatus_eq (s : State) : s.portStatus =
    (s.port.counts.list.mapIdx fun i n => Field.item (itemInt (i + 1) n.toNat)) ++
      [.item (itemInt 14 s.port.silent.toNat), .item (itemInt 15 s.port.silenceTime),
        .item (if s.port.silent = true then []
          else itemInt 16 (s.port.silenceStart + s.port.silenceTime * 1000 - s.timeBase : Nat)),
        .item (itemInt 17 s.port.bitRate), .item (itemInt 18 s.port.rxQueue.length),
        .item (itemInt 19 s.port.txQueue.length), .item (itemInt 20 s.port.deferred),
        .item (itemInt 21 s.port.resetPending.toNat), .item (itemEnum 22 s.port.resetCause.code)] := by
  simp only [State.portStatus, itemBool_eq, s.silenceLeft_eq, LinkCounts.fields_eq]
  rfl

/-! ### The pages of a record (R163, R167) -/

/-- The pages of one group, and then those that `rest` makes of the page that the group leaves. `steps` bounds the pages
that the group itself takes. -/
def groupPages (tag : Nat) (rest : List Byte → List (List Byte)) :
    Nat → List (List Byte) → List Byte → List (List Byte)
  | 0, _, page => [page]
  | steps + 1, records, page =>
    let n := takeRecords records (pageRoom - page.length - 3)
    if n = records.length ∧ page.length + 3 ≤ pageRoom then rest (page ++ itemRecords tag records)
    else if n = 0 then page :: groupPages tag rest steps records []
    else (page ++ itemRecords tag (records.take n)) :: groupPages tag rest steps (records.drop n) []

/-- The pages of a record, field by field: each group has as many steps as it can take. -/
def pagesOf : List Field → List Byte → List (List Byte)
  | [], page => [page]
  | .item bytes :: fs, page =>
    if page.length + bytes.length ≤ pageRoom then pagesOf fs (page ++ bytes) else page :: pagesOf fs bytes
  | .group tag records :: fs, page => groupPages tag (pagesOf fs) (2 * records.length + 2) records page

/-- The steps that a group takes on a page: none of its records is longer than an empty page holds. -/
def groupSteps (records : List (List Byte)) (page : List Byte) : Nat :=
  2 * records.length + if page = [] then 1 else 2

/-- The records that fit: as many as begin the group and leave no room for the next. -/
theorem takeRecords_split {first last : List (List Byte)} {next : List Byte} {room : Nat}
    (hfit : (first.map fun r => r.length + 1).sum ≤ room)
    (hnext : room < (first.map fun r => r.length + 1).sum + (next.length + 1)) :
    takeRecords (first ++ next :: last) room = first.length := by
  induction first generalizing room with
  | nil =>
    simp only [List.map_nil, List.sum_nil, Nat.zero_add] at hnext
    exact if_neg (Nat.not_le.mpr hnext)
  | cons r first ih =>
    simp only [List.map_cons, List.sum_cons] at hfit hnext
    have hrest := ih (room := room - (r.length + 1)) (by omega) (by omega)
    simp only [List.cons_append, takeRecords, hrest, List.length_cons]
    exact if_pos (by omega)

/-- The records that fit: all of them. -/
theorem takeRecords_all {records : List (List Byte)} {room : Nat}
    (hfit : (records.map fun r => r.length + 1).sum ≤ room) : takeRecords records room = records.length := by
  induction records generalizing room with
  | nil => rfl
  | cons r records ih =>
    simp only [List.map_cons, List.sum_cons] at hfit
    have hrest := ih (room := room - (r.length + 1)) (by omega)
    simp only [takeRecords, hrest, List.length_cons]
    exact if_pos (by omega)

/-- No more records fit than there are. -/
theorem takeRecords_le (records : List (List Byte)) (room : Nat) : takeRecords records room ≤ records.length := by
  induction records generalizing room with
  | nil => exact Nat.le_refl 0
  | cons r records ih =>
    rw [takeRecords]
    split
    · exact Nat.succ_le_succ (ih _)
    · exact Nat.zero_le _

/-- An empty page takes at least one record of a group whose records it holds. -/
theorem takeRecords_pos {records : List (List Byte)} (hne : records ≠ []) (hshort : ∀ r ∈ records, r.length ≤ 243) :
    takeRecords records (pageRoom - 0 - 3) ≠ 0 := by
  cases records with
  | nil => exact absurd rfl hne
  | cons r records =>
    have hr := hshort r List.mem_cons_self
    rw [takeRecords, if_pos (show r.length + 1 ≤ pageRoom - 0 - 3 from Nat.succ_le_succ hr)]
    exact Nat.succ_ne_zero _

/-- A page that does not end its group takes a record from it, or makes room by being full. -/
theorem groupSteps_lt {records : List (List Byte)} {page : List Byte} (hshort : ∀ r ∈ records, r.length ≤ 243) {n : Nat}
    (hn : n = takeRecords records (pageRoom - page.length - 3))
    (hmore : ¬ (n = records.length ∧ page.length + 3 ≤ pageRoom)) :
    groupSteps (records.drop n) [] < groupSteps records page := by
  have hle : n ≤ records.length := hn ▸ takeRecords_le records _
  simp only [groupSteps, List.length_drop, if_true]
  by_cases hpage : page = []
  · subst hpage
    have hpos : n ≠ 0 := by
      intro hzero
      by_cases hne : records = []
      · exact hmore ⟨by rw [hzero, hne]; rfl, by decide⟩
      · exact takeRecords_pos hne hshort (hn.symm.trans hzero)
    rw [if_pos rfl]
    omega
  · rw [if_neg hpage]
    omega

/-- Every group takes at least one step. -/
theorem groupSteps_pos (records : List (List Byte)) (page : List Byte) : 0 < groupSteps records page := by
  unfold groupSteps
  split <;> omega

/-- The steps that a group has beyond those it takes make no difference. -/
theorem groupPages_enough {tag : Nat} {rest : List Byte → List (List Byte)} (steps : Nat) :
    ∀ {steps' : Nat} {records : List (List Byte)} {page : List Byte}, (∀ r ∈ records, r.length ≤ 243) →
      groupSteps records page ≤ steps → groupSteps records page ≤ steps' →
      groupPages tag rest steps records page = groupPages tag rest steps' records page := by
  induction steps with
  | zero =>
    intro steps' records page _ h
    exact absurd h (Nat.not_le.mpr (groupSteps_pos records page))
  | succ steps ih =>
    intro steps' records page hshort h h'
    cases steps' with
    | zero => exact absurd h' (Nat.not_le.mpr (groupSteps_pos records page))
    | succ steps' =>
      simp only [groupPages]
      split
      · rfl
      · next hmore =>
        have hless := groupSteps_lt hshort rfl hmore
        split
        · next hnone =>
          rw [hnone, List.drop_zero] at hless
          exact congrArg (page :: ·) (ih hshort (by omega) (by omega))
        · exact congrArg (_ :: ·)
            (ih (fun r hr => hshort r (List.mem_of_mem_drop hr)) (by omega) (by omega))

/-- The bound on the steps of a record: one for each item, and for each group its own. -/
def fieldSteps (fs : List Field) : Nat :=
  (fs.map fun f => match f with
    | .item _ => 1
    | .group _ records => 2 * records.length + 2).sum

/-- Every record of every group fits an empty page. -/
def ShortRecords (fs : List Field) : Prop :=
  ∀ tag records, Field.group tag records ∈ fs → ∀ r ∈ records, r.length ≤ 243

/-- Where its bound suffices for the group and for the fields behind it, `paginate` makes the pages of the group. -/
theorem paginate_group {fs : List Field} {tag : Nat}
    (hrest : ∀ fuel page, fieldSteps fs + 1 ≤ fuel → paginate fuel fs page = pagesOf fs page) (steps : Nat) :
    ∀ {fuel : Nat} {records : List (List Byte)} {page : List Byte}, (∀ r ∈ records, r.length ≤ 243) →
      groupSteps records page ≤ steps → steps + fieldSteps fs + 1 ≤ fuel →
      paginate fuel (.group tag records :: fs) page = groupPages tag (pagesOf fs) steps records page := by
  induction steps with
  | zero =>
    intro fuel records page _ h
    exact absurd h (Nat.not_le.mpr (groupSteps_pos records page))
  | succ steps ih =>
    intro fuel records page hshort h hfuel
    obtain ⟨fuel, rfl⟩ : ∃ m, fuel = m + 1 := ⟨fuel - 1, by omega⟩
    simp only [paginate, groupPages]
    split
    · exact hrest fuel _ (by omega)
    · next hmore =>
      have hless := groupSteps_lt hshort rfl hmore
      split
      · next hnone =>
        rw [hnone, List.drop_zero] at hless
        exact congrArg (page :: ·) (ih hshort (by omega) (by omega))
      · exact congrArg (_ :: ·) (ih (fun r hr => hshort r (List.mem_of_mem_drop hr)) (by omega) (by omega))

/-- Where its bound suffices, `paginate` makes the pages of the record. -/
theorem paginate_eq_pagesOf {fs : List Field} (hshort : ShortRecords fs) :
    ∀ fuel page, fieldSteps fs + 1 ≤ fuel → paginate fuel fs page = pagesOf fs page := by
  induction fs with
  | nil =>
    intro fuel page hfuel
    obtain ⟨fuel, rfl⟩ : ∃ m, fuel = m + 1 := ⟨fuel - 1, by omega⟩
    rfl
  | cons f fs ih =>
    have hrest := ih fun tag records hmem => hshort tag records (List.mem_cons_of_mem f hmem)
    intro fuel page hfuel
    cases f with
    | item bytes =>
      have hsteps : fieldSteps (.item bytes :: fs) = 1 + fieldSteps fs := by
        simp only [fieldSteps, List.map_cons, List.sum_cons]
      obtain ⟨fuel, rfl⟩ : ∃ m, fuel = m + 1 := ⟨fuel - 1, by omega⟩
      rw [paginate, pagesOf, hrest fuel _ (by omega), hrest fuel _ (by omega)]
    | group tag records =>
      have hsteps : fieldSteps (.group tag records :: fs) = 2 * records.length + 2 + fieldSteps fs := by
        simp only [fieldSteps, List.map_cons, List.sum_cons]
      have hgroup : groupSteps records page ≤ 2 * records.length + 2 := by
        unfold groupSteps
        split <;> omega
      exact paginate_group hrest _ (hshort tag records List.mem_cons_self) hgroup (by omega)

/-- R167: a group that fits the page is followed by the next field. -/
theorem pagesOf_group_fits {tag : Nat} {records : List (List Byte)} {rest : List Field} {page : List Byte}
    (hfit : page.length + 3 + (records.map fun r => r.length + 1).sum ≤ 247) :
    pagesOf (.group tag records :: rest) page = pagesOf rest (page ++ itemRecords tag records) := by
  have hroom : pageRoom = 247 := rfl
  rw [pagesOf, groupPages, takeRecords_all (by omega)]
  exact if_pos ⟨rfl, by omega⟩

/-- R167: a group that does not fit the page is cut between records, where the page has room for some. -/
theorem pagesOf_group_cut {tag : Nat} {first last : List (List Byte)} {next : List Byte} {rest : List Field}
    {page : List Byte} (hshort : ∀ r ∈ first ++ next :: last, r.length ≤ 243)
    (hfit : page.length + 3 + (first.map fun r => r.length + 1).sum ≤ 247)
    (hnext : page.length + 3 + (first.map fun r => r.length + 1).sum + (next.length + 1) > 247) (hne : first ≠ []) :
    pagesOf (.group tag (first ++ next :: last) :: rest) page =
      (page ++ itemRecords tag first) :: pagesOf (.group tag (next :: last) :: rest) [] := by
  have hroom : pageRoom = 247 := rfl
  have hlength : 0 < first.length := List.length_pos_iff.mpr hne
  rw [pagesOf, groupPages, takeRecords_split (by omega) (by omega)]
  refine (if_neg fun h => ?_).trans ((if_neg (by omega)).trans ?_)
  · have := h.1
    rw [List.length_append, List.length_cons] at this
    omega
  · rw [List.take_left, List.drop_left, pagesOf]
    refine congrArg (_ :: ·) (groupPages_enough _ (fun r hr => hshort r (List.mem_append_right first hr)) ?_ ?_) <;>
      simp only [groupSteps, if_true, List.length_append, List.length_cons] <;> omega

/-- R167: a group of whose records the page holds none begins the next page. -/
theorem pagesOf_group_deferred {tag : Nat} {last : List (List Byte)} {next : List Byte} {rest : List Field}
    {page : List Byte} (hshort : ∀ r ∈ next :: last, r.length ≤ 243)
    (hnext : page.length + 3 + (next.length + 1) > 247) :
    pagesOf (.group tag (next :: last) :: rest) page = page :: pagesOf (.group tag (next :: last) :: rest) [] := by
  have hroom : pageRoom = 247 := rfl
  have hnone : takeRecords (next :: last) (pageRoom - page.length - 3) = 0 :=
    takeRecords_split (first := []) (by simp) (by simp; omega)
  rw [pagesOf, groupPages, hnone]
  refine (if_neg fun h => ?_).trans ((if_pos rfl).trans ?_)
  · exact absurd h.1.symm (Nat.succ_ne_zero _)
  · rw [pagesOf]
    refine congrArg (page :: ·) (groupPages_enough _ hshort ?_ ?_) <;>
      simp only [groupSteps, if_true, List.length_cons] <;> omega

/-! ### The statement -/

/-- Settles O11: the records are the model's own, spelled item by item; the pages are those of `pagesOf`. -/
theorem silenceAndPortRequests : Obligations.SilenceAndPortRequests := by
  refine ⟨fun s => ?silence, fun s number args => ⟨fun is n hoffers hread hn => ?setSilence,
      fun hoffers hargs => ?reset⟩,
    ?readStatus, ?floorAndPoint, ?burner, ?fuel, ?coolerAndQueue, ?alarm, ?shiftAndPort, ?pages⟩
  case silence =>
    refine ⟨fun h => ⟨_, congrArg State.conclude (State.silenceExpiry_of_not_silent h), State.setHoldAll_spec _ _ _⟩,
      fun h => congrArg State.conclude (State.silenceExpiry_of_silent h),
      fun h => ⟨_, State.endSilence_of_silent h, State.setHoldAll_spec _ _ _⟩, State.endSilence_of_not_silent⟩
  case setSilence =>
    refine ⟨fun hlo hhi => ?_, fun hout => ?_⟩
    · exact hoffers.exec_of_handler rfl (handleSetSilence_taken hread hn hlo hhi _ number)
    · exact hoffers.exec_of_handler rfl (handleSetSilence_refused hread hn hout _ number)
  case reset =>
    subst hargs
    exact hoffers.exec_of_handler rfl (answering_eq readArgs_nil rfl number)
  case readStatus =>
    intro s number args is block page fields hoffers hread hblock hfields hpage
    refine ⟨fun bytes hpos hbytes => ?_, fun hout => ?_⟩
    · exact hoffers.exec_of_handler rfl (handleReadStatus_page hread hblock hfields hpage hpos hbytes number)
    · exact hoffers.exec_of_handler rfl (handleReadStatus_no_page hread hblock hfields hpage hout number)
  case floorAndPoint =>
    intro s link station stations hlink hstation hstations
    obtain rfl : stations = s.activeStations := by
      rw [hstations, State.activeStations]
      cases s.floor.active <;> rfl
    obtain rfl : link = FloorLink.items := funext hlink
    obtain rfl : station = s.stationItems := funext hstation
    refine ⟨?_, ?_, s.floor.stationAt_succ, fun n hn => ?_⟩
    · exact congrArg some s.floorStatus_eq
    · simp only [← s.pointRecord_eq]
      rfl
    · match n, hn with
      | n + 9, _ => rfl
  case burner =>
    intro s opt left timer record hopt hleft htimer hrecord
    obtain rfl : opt = fun x => x.getD [] := funext hopt
    obtain rfl : left = fun t => ((s.remaining t : Nat) : Int) := funext hleft
    obtain rfl : timer = BurnerTimer.code := by
      simp only [List.map_cons, List.map_nil, List.cons.injEq, and_true] at htimer
      obtain ⟨hpurge, htrial, hlightoff⟩ := htimer
      funext t
      cases t <;> assumption
    obtain rfl : record = LockoutRecord.items := funext fun r => (hrecord r).trans r.items_eq.symm
    simp only [← s.burnerRecord_eq]
    rfl
  case fuel =>
    intro s fault kind hnone hcause halarm hpiece hcontinuous hignition
    have hfault : fault = fun l => itemOpt FaultCause.items (s.lines[l]).faultCause := by
      funext l
      match hc : (s.lines[l]).faultCause with
      | none => exact hnone l hc
      | some .faultBit => exact hcause l _ 0 hc (by decide)
      | some .absent => exact hcause l _ 1 hc (by decide)
      | some .deviation => exact hcause l _ 2 hc (by decide)
      | some (.alarm a) => exact halarm l a hc
    have hkind : kind = fun l => s.kindItems s.lines[l] := by
      funext l
      unfold State.kindItems
      match he : (s.lines[l]).entry with
      | none => exact hignition l fun e h => by rw [he] at h; cases h
      | some e =>
        match hk : e.kind with
        | .piece m x y =>
          simp only [Option.map_some, hk]
          match hd : (s.lines[l]).dose with
          | none => exact (hpiece l e he m x y hk { start := 0, interval := 0 }).1 hd
          | some d => exact (hpiece l e he m x y hk d).2 hd
        | .continuous m x y =>
          simp only [Option.map_some, hk]
          exact hcontinuous l e he m x y hk
        | .ignition =>
          simp only [Option.map_some, hk]
          exact hignition l fun e' he' => by rw [he] at he'; cases he'; exact hk
    subst hfault hkind
    simp only [← s.lineRecord_eq]
    rfl
  case coolerAndQueue =>
    intro s left timer inClass hleft htimer hclass
    obtain rfl : left = fun t => ((s.remaining t : Nat) : Int) := funext hleft
    obtain rfl : inClass = s.queue.inClass := funext hclass
    have htimer' : ∀ x : Run, timer x =
        itemOpt (fun t : StrokeTimer => itemNat 5 t.period ++ itemNat 6 (s.remaining (t.start + t.period)))
        x.timer := by
      intro x
      rw [htimer x]
      cases x.timer <;> rfl
    refine ⟨?_, ?_⟩
    · simp only [htimer', ← s.runRecord_eq, ← s.zoneRecord_eq]
      refine congrArg some ?_
      unfold State.coolerStatus
      cases s.cooler.startTimer <;> rfl
    · simp only [← QueueEntry.items_eq]
      exact congrArg some s.queueStatus_eq
  case alarm =>
    intro s opt inState record hopt hin hrecord
    obtain rfl : opt = fun x => x.getD [] := funext hopt
    obtain rfl : inState = s.inState := funext hin
    obtain rfl : record = CaptureRecord.items := by
      funext r
      rw [hrecord r]
      simp only [CaptureRecord.items, itemOpt_eq, itemBool_eq]
      rfl
    simp only [← s.raisedItems_eq]
    exact congrArg some s.alarmStatus_eq
  case shiftAndPort =>
    intro s opt day hopt hday
    obtain rfl : opt = fun x => x.getD [] := funext hopt
    obtain rfl : day = itemDay := funext fun t => funext (hday t)
    refine ⟨congrArg some ?_, congrArg some ?_⟩
    · rw [s.shiftStatus_eq, s.boundaryItems_eq, ShiftFlags.code_eq]
      simp only [← ClosedRecord.items_eq]
    · rw [s.portStatus_eq, Port.bitRate_eq]
      rfl
  case pages =>
    refine ⟨pagesOf, fun page => rfl, fun bytes rest page => rfl,
        fun tag records rest page hshort => ⟨pagesOf_group_fits,
      ?_⟩, fun fields n hshort hsteps => ?_⟩
    · rintro first next last rfl hnext
      refine ⟨fun hfit hne => pagesOf_group_cut hshort hfit hnext hne, fun hnil => ?_⟩
      subst hnil
      exact pagesOf_group_deferred hshort (by simpa using hnext)
    · have hfuel : fieldSteps fields + 1 ≤ pageFuel := by
        have hbound : pageFuel = 2000 := rfl
        have : fieldSteps fields ≤ 1000 := hsteps
        omega
      rw [pageOf, paginate_eq_pagesOf hshort _ _ hfuel]

end Sys2Proof.Machine
end

section
/-!
PROOFS. The transmit queue, the transmitter and the digest (chapter 9; R159 to R162, Table 10-4): one equation of
`State.offerFrame` for each way a frame is settled, and the digest field by field.
-/
namespace Sys2Proof.Machine

/-! ### The transmit queue (R159) -/

/-- R160: a transmitter that is sending takes nothing. -/
theorem Port.startSending_busy {p : Port} {f : TxFrame} (h : p.sending = some f) (now : Time) :
    p.startSending now = p := by
  simp only [Port.startSending, h]

/-- R159: while the transmitter is sending an offer changes the queue alone. -/
theorem State.offerFrame_queued {s u : State} {g : TxFrame} (h : u.port.sending = some g) :
    (u.modPort fun p => p.startSending s.timeBase) = u := by
  rw [State.modPort, Port.startSending_busy h]

/-- A kind that the queue does not hold. -/
theorem holdsKind_false {k : TxKind} {q : List TxFrame} (h : ∀ x ∈ q, x.kind ≠ k) : holdsKind k q = false := by
  rw [holdsKind, List.any_eq_false]
  intro x hx
  simpa using h x hx

/-- A kind that the queue holds. -/
theorem holdsKind_split {k : TxKind} {f : TxFrame} (h : f.kind = k) (q₁ q₂ : List TxFrame) :
    holdsKind k (q₁ ++ f :: q₂) = true := by
  rw [holdsKind, List.any_eq_true]
  exact ⟨f, by simp, by simp [h]⟩

/-- The first frame of a kind leaves the queue. -/
theorem dropFirstKind_split {k : TxKind} {f : TxFrame} {q₁ q₂ : List TxFrame} (h : f.kind = k)
    (hfirst : ∀ x ∈ q₁, x.kind ≠ k) : dropFirstKind k (q₁ ++ f :: q₂) = q₁ ++ q₂ := by
  rw [dropFirstKind, List.eraseP_append_right _ fun x hx => by simpa using hfirst x hx,
    List.eraseP_cons_of_pos (by simp [h])]

section sending

variable {s : State} {f : TxFrame}

/-- R159: a REPLY or REPORT finds room. -/
theorem State.queueReplyFrame_room (h : s.port.txQueue.length < 16) :
    s.queueReplyFrame f = s.setTxQueue (s.port.txQueue ++ [f]) := if_pos h

/-- R159: a REPLY or REPORT removes the oldest NOTICE of a full queue. -/
theorem State.queueReplyFrame_notice (hfull : 16 ≤ s.port.txQueue.length) {q₁ q₂ : List TxFrame} {n : TxFrame}
    (hsplit : s.port.txQueue = q₁ ++ n :: q₂) (hkind : n.kind = .notice) (hfirst : ∀ x ∈ q₁, x.kind ≠ .notice) :
    s.queueReplyFrame f = s.noticeLost.setTxQueue (q₁ ++ q₂ ++ [f]) := by
  have hholds : holdsKind .notice s.port.txQueue = true := hsplit ▸ holdsKind_split hkind q₁ q₂
  have hdrop : dropFirstKind .notice s.port.txQueue = q₁ ++ q₂ := hsplit ▸ dropFirstKind_split hkind hfirst
  refine (if_neg (Nat.not_lt.mpr hfull)).trans ((if_pos hholds).trans ?_)
  rw [hdrop]
  rfl

/-- R159: a REPLY or REPORT removes the DIGEST of a full queue without a NOTICE. -/
theorem State.queueReplyFrame_digest (hfull : 16 ≤ s.port.txQueue.length)
    (hnone : ∀ x ∈ s.port.txQueue, x.kind ≠ .notice) {q₁ q₂ : List TxFrame} {d : TxFrame}
    (hsplit : s.port.txQueue = q₁ ++ d :: q₂) (hkind : d.kind = .digest) (hfirst : ∀ x ∈ q₁, x.kind ≠ .digest) :
    s.queueReplyFrame f = s.setTxQueue (q₁ ++ q₂ ++ [f]) := by
  have hholds : holdsKind .digest s.port.txQueue = true := hsplit ▸ holdsKind_split hkind q₁ q₂
  have hdrop : dropFirstKind .digest s.port.txQueue = q₁ ++ q₂ := hsplit ▸ dropFirstKind_split hkind hfirst
  refine (if_neg (Nat.not_lt.mpr hfull)).trans ((if_neg ?_).trans ((if_pos hholds).trans ?_))
  · rw [holdsKind_false hnone]; exact Bool.false_ne_true
  · rw [hdrop]
    rfl

/-- R159: a DIGEST takes the place of the one that waits. -/
theorem State.queueDigestFrame_replaces {q₁ q₂ : List TxFrame} {d : TxFrame}
    (hsplit : s.port.txQueue = q₁ ++ d :: q₂) (hkind : d.kind = .digest)
    (hothers : ∀ x ∈ q₁ ++ q₂, x.kind ≠ .digest) : s.queueDigestFrame f = s.setTxQueue (q₁ ++ f :: q₂) := by
  have hholds : holdsKind .digest s.port.txQueue = true := hsplit ▸ holdsKind_split hkind q₁ q₂
  have hkeep : ∀ q : List TxFrame, (∀ x ∈ q, x.kind ≠ .digest) →
      (q.map fun g => if g.kind == .digest then f else g) = q := fun q hq =>
    (List.map_congr_left fun x hx => if_neg (by simpa using hq x hx)).trans (List.map_id' q)
  refine (if_pos hholds).trans (congrArg s.setTxQueue ?_)
  rw [hsplit, List.map_append, List.map_cons, hkeep q₁ fun x hx => hothers x (List.mem_append_left _ hx),
    hkeep q₂ fun x hx => hothers x (List.mem_append_right _ hx), if_pos (by simp [hkind])]

/-- R159: a DIGEST finds room. -/
theorem State.queueDigestFrame_room (hnone : ∀ x ∈ s.port.txQueue, x.kind ≠ .digest)
    (h : s.port.txQueue.length < 16) : s.queueDigestFrame f = s.setTxQueue (s.port.txQueue ++ [f]) :=
  (if_neg (by rw [holdsKind_false hnone]; exact Bool.false_ne_true)).trans (if_pos h)

/-- R159: a DIGEST does not enter a full queue. -/
theorem State.queueDigestFrame_full (hnone : ∀ x ∈ s.port.txQueue, x.kind ≠ .digest)
    (hfull : 16 ≤ s.port.txQueue.length) : s.queueDigestFrame f = s :=
  (if_neg (by rw [holdsKind_false hnone]; exact Bool.false_ne_true)).trans (if_neg (Nat.not_lt.mpr hfull))

/-- R159: a NOTICE finds room. -/
theorem State.queueNoticeFrame_room (h : s.port.txQueue.length < 16) :
    s.queueNoticeFrame f = s.setTxQueue (s.port.txQueue ++ [f]) := if_pos h

/-- R159: a NOTICE is lost where the queue is full. -/
theorem State.queueNoticeFrame_full (hfull : 16 ≤ s.port.txQueue.length) : s.queueNoticeFrame f = s.noticeLost :=
  if_neg (Nat.not_lt.mpr hfull)

variable {g : TxFrame} (hsending : s.port.sending = some g) {u : State}
include hsending

/-- R159: a REPLY or REPORT offered while the transmitter is sending. -/
theorem State.offerFrame_reply (hkind : f.kind = .reply ∨ f.kind = .report) (hu : s.queueReplyFrame f = u)
    (hbusy : u.port.sending = s.port.sending) : s.offerFrame f = u := by
  obtain hkind | hkind := hkind <;>
  · simp only [State.offerFrame, hkind, hu]
    exact State.offerFrame_queued (hbusy.trans hsending)

/-- R159: a DIGEST offered while the transmitter is sending. -/
theorem State.offerFrame_digest (hkind : f.kind = .digest) (hu : s.queueDigestFrame f = u)
    (hbusy : u.port.sending = s.port.sending) : s.offerFrame f = u := by
  simp only [State.offerFrame, hkind, hu]
  exact State.offerFrame_queued (hbusy.trans hsending)

/-- R159: a NOTICE offered while the transmitter is sending. -/
theorem State.offerFrame_notice (hkind : f.kind = .notice) (hu : s.queueNoticeFrame f = u)
    (hbusy : u.port.sending = s.port.sending) : s.offerFrame f = u := by
  simp only [State.offerFrame, hkind, hu]
  exact State.offerFrame_queued (hbusy.trans hsending)

end sending

/-! ### The transmitter (R160, R162) -/

/-- R160: a frame offered to the idle transmitter is sent at once. -/
theorem State.offerFrame_idle {s : State} (hidle : s.port.sending = none) (hempty : s.port.txQueue = [])
    (f : TxFrame) : s.offerFrame f =
      { s with port := { s.port with sending := some f, sent := f.characters, sendStart := s.timeBase } } := by
  cases hkind : f.kind <;>
    simp [State.offerFrame, State.queueReplyFrame, State.queueDigestFrame, State.queueNoticeFrame, holdsKind,
      State.appendTx, State.setTxQueue, State.modPort, Port.startSending, Config.transmitPlaces, hkind, hidle, hempty]

/-- R160, R162: the last stop bit of a frame. -/
theorem State.frameDone_of_sending {s : State} {f : TxFrame} (h : s.port.sending = some f) : s.frameDone =
    { s with port := { s.port with
      sending := s.port.txQueue.head?
      sent := (s.port.txQueue.head?.map TxFrame.characters).getD s.port.sent
      txQueue := s.port.txQueue.tail
      sendStart := if s.port.txQueue = [] then s.port.sendStart else s.timeBase
      resetReplySent := s.port.resetReplySent || (s.port.resetPending && f.answersReset) } } := by
  simp only [State.frameDone, h, State.modPort, Port.startSending]
  cases s.port.txQueue with
  | nil => rfl
  | cons g rest => rfl

/-! ### The characters of a frame (R152, R165) -/

/-- A character carries its data. -/
theorem frameChars_data (bs : List Byte) : (frameChars bs).map (·.data) = bs := by
  cases bs with
  | nil => rfl
  | cons b bs =>
    rw [frameChars, List.map_cons, List.map_map]
    exact congrArg (b :: ·) (List.map_id' bs)

/-- The first character alone is marked. -/
theorem frameChars_mark (b : Byte) (bs : List Byte) :
    (frameChars (b :: bs)).map (·.mark) = true :: List.replicate bs.length false := by
  rw [frameChars, List.map_cons, List.map_map]
  exact congrArg (true :: ·) List.map_const'

/-- R152: the ones of a character, its parity bit among them, are even in number. -/
theorem SentChar.of_parity (mark : Bool) (b : Byte) :
    2 ∣ onesOf (SentChar.of mark b).data + (SentChar.of mark b).mark.toNat + (SentChar.of mark b).parity.toNat := by
  obtain heven | hodd := Nat.mod_two_eq_zero_or_one (onesOf b + mark.toNat)
  · simp only [SentChar.of, heven]
    exact Nat.dvd_of_mod_eq_zero heven
  · simp only [SentChar.of, hodd]
    have hone : (1 == 1 : Bool).toNat = 1 := rfl
    rw [hone]
    omega

/-- R152: every character of a frame has even parity. -/
theorem frameChars_parity {bs : List Byte} {c : SentChar} (h : c ∈ frameChars bs) :
    2 ∣ onesOf c.data + c.mark.toNat + c.parity.toNat := by
  cases bs with
  | nil => cases h
  | cons b bs =>
    obtain rfl | hrest := List.mem_cons.mp h
    · exact SentChar.of_parity true b
    · obtain ⟨x, -, rfl⟩ := List.mem_map.mp hrest
      exact SentChar.of_parity false x

/-! ### Bits and bytes of the digest (Table 10-4) -/

/-- A bit of a number made of bits. -/
theorem testBit_bitsNat (bs : List Bool) (n : Nat) : (bitsNat bs).testBit n = bs.getD n false := by
  induction bs generalizing n with
  | nil => simp [bitsNat]
  | cons b bs ih =>
    rw [bitsNat_cons]
    cases n with
    | zero => cases b <;> simp [Nat.testBit_zero]
    | succ n =>
      have hhalf : (b.toNat + 2 * bitsNat bs) / 2 = bitsNat bs := by
        have := b.toNat_le
        omega
      rw [Nat.testBit_succ, hhalf, ih, List.getD_cons_succ]

/-- Table 10-4: byte `i` of the presence map. -/
theorem Floor.presenceBytes_getD (f : Floor) {i : Nat} (hi : i < 8) : f.presenceBytes.getD i 0 =
    BitVec.ofNat 8 (bitsNat (((f.stations.toList.drop (8 * i)).take 8).map (·.present))) := by
  simp [Floor.presenceBytes, List.getD_eq_getElem?_getD, hi]

/-- Table 10-4: bit `n` of byte `i` of the presence map. -/
theorem Floor.presenceBytes_getLsbD (f : Floor) {i n : Nat} (hi : i < 8) (hn : n < 8) :
    (f.presenceBytes.getD i 0).getLsbD n = (f.stations.toList[8 * i + n]?.map (·.present)).getD false := by
  rw [f.presenceBytes_getD hi, BitVec.getLsbD_ofNat, testBit_bitsNat, List.getD_eq_getElem?_getD, List.getElem?_map,
    List.getElem?_take_of_lt hn, List.getElem?_drop]
  simp [hn]

/-- Table 10-4: a station has its own bit. -/
theorem Floor.presenceBytes_station (f : Floor) (st : Fin 60) :
    (f.presenceBytes.getD (st.val / 8) 0).getLsbD (st.val % 8) = (f.stations[st]).present := by
  have hst := st.isLt
  have hplace : 8 * (st.val / 8) + st.val % 8 = st.val := Nat.div_add_mod st.val 8
  rw [f.presenceBytes_getLsbD (by omega) (by omega), hplace]
  simp

/-- Table 10-4: the bits beyond the last station are clear. -/
theorem Floor.presenceBytes_beyond (f : Floor) {n : Nat} (hn : 4 ≤ n) :
    (f.presenceBytes.getD 7 0).getLsbD n = false := by
  by_cases h : n < 8
  · rw [f.presenceBytes_getLsbD (by omega) h, List.getElem?_eq_none (by simp; omega)]
    rfl
  · exact BitVec.getLsbD_of_ge _ _ (by omega)

/-- Table 10-4: the presence map has eight bytes. -/
theorem Floor.presenceBytes_length (f : Floor) : f.presenceBytes.length = 8 := by
  simp [Floor.presenceBytes]

/-- A number in one byte. -/
theorem beBytes_one (n : Nat) : beBytes 1 n = [BitVec.ofNat 8 n] := by
  simp [beBytes]

/-- What a vector holds, in the order of its indices, as bytes. -/
theorem toList_flatMap_eq_finRange {α β : Type} {n : Nat} (v : Vector α n) (f : α → List β) :
    v.toList.flatMap f = (List.finRange n).flatMap fun i => f v[i] := by
  rw [List.flatMap_def, List.flatMap_def, toList_map_eq_finRange]

/-- R161: value and quality of a digest point. -/
theorem State.digestPoint_eq (s : State) (x : Option DigestEntry) : s.digestPoint x = match x with
    | some e => if e.inUse = true then
        beInt 4 (s.points[e.point]).value ++ [BitVec.ofNat 8 (s.pointQuality e.point).code] else [0, 0, 0, 0, 0]
    | none => [0, 0, 0, 0, 0] := by
  cases x with
  | none => rfl
  | some e =>
    cases h : e.inUse with
    | true => simp only [State.digestPoint, Option.filter, h, if_true, beBytes_one]
    | false =>
      simp only [State.digestPoint, Option.filter, h, Bool.false_eq_true, if_false]
      rfl

/-- R161: a digest point takes five bytes. -/
theorem State.digestPoint_length (s : State) (x : Option DigestEntry) : (s.digestPoint x).length = 5 := by
  unfold State.digestPoint
  split <;> simp [beInt_length, beBytes_length]

/-- Lists of one length each. -/
theorem length_flatMap_const {α β : Type} {f : α → List β} {k : Nat} (h : ∀ x, (f x).length = k) (l : List α) :
    (l.flatMap f).length = l.length * k := by
  rw [List.length_flatMap, funext h, List.map_const', List.sum_replicate]
  rfl

/-- Table 10-4: a digest has 233 bytes. -/
theorem State.digestPayload_length (s : State) : s.digestPayload.length = 233 := by
  have hburner : ∀ b : Burner, b.digest.length = 14 := fun b => by simp [Burner.digest, beBytes_length]
  have hline : ∀ l : Line, l.digest.length = 4 := fun l => by simp [Line.digest, beBytes_length]
  have hrun : ∀ r : Run, r.digest.length = 3 := fun r => by simp [Run.digest, beBytes_length]
  have hcount : ∀ c : Count32, (beBytes 4 c.toNat).length = 4 := fun c => beBytes_length 4 _
  have hraised : ∀ p, (beBytes 1 (s.raisedCount p)).length = 1 := fun p => beBytes_length 1 _
  have hcounts : s.port.counts.list.length = 13 := rfl
  simp only [State.digestPayload, List.length_append, beBytes_length, Floor.presenceBytes_length,
    length_flatMap_const hburner, length_flatMap_const hline, length_flatMap_const hrun,
    length_flatMap_const hcount, length_flatMap_const hraised, length_flatMap_const s.digestPoint_length, hcounts,
    Vector.length_toList, List.length_cons, List.length_nil]

/-! ### The top vector (R130) -/

/-- R130: an empty raised list has the top vector 255. -/
theorem State.topVector_of_nil {s : State} (h : s.alarm.raisedList = []) : s.topVector = 255 := by
  rw [State.topVector, h]; rfl

/-- R130: the top vector is the most urgent raised alarm. -/
theorem State.topVector_of_cons {s : State} {a : Fin 192} {rest : List (Fin 192)} (h : s.alarm.raisedList = a :: rest) :
    s.topVector = a.val := by
  rw [State.topVector, h]; rfl

/-- R131, R132: the HORN and TRIP lines in one byte. -/
theorem bitsNat_two (x y : Bool) : bitsNat [x, y] = x.toNat + 2 * y.toNat := by
  simp only [bitsNat_cons, show bitsNat [] = 0 from rfl, Nat.mul_zero, Nat.add_zero]

/-! ### The statement -/

/-- Settles O12: an offer is settled as its kind says; the digest is spelled field by field. -/
theorem framesQueuedAndSent : Obligations.FramesQueuedAndSent := by
  refine ⟨fun s f g hsending => ⟨fun hkind => ⟨fun hroom => ?replyRoom,
      fun hfull q₁ n q₂ hsplit hn hfirst => ?replyNotice,
    fun hfull hnone q₁ d q₂ hsplit hd hfirst => ?replyDigest⟩, fun hkind => ⟨fun q₁ d q₂ hsplit hd hothers => ?digest,
    fun hnone hroom => ?digestRoom, fun hnone hfull => ?digestFull⟩, fun hkind => ⟨fun hroom => ?noticeRoom,
    fun hfull => ?noticeFull⟩⟩, fun s f => ?characters, fun s t f hsending => ?sent, ?codes,
    fun s code hcode => ?payload⟩
  case replyRoom => exact State.offerFrame_reply hsending hkind (State.queueReplyFrame_room hroom) rfl
  case replyNotice =>
    exact State.offerFrame_reply hsending hkind (State.queueReplyFrame_notice hfull hsplit hn hfirst) rfl
  case replyDigest =>
    exact State.offerFrame_reply hsending hkind (State.queueReplyFrame_digest hfull hnone hsplit hd hfirst) rfl
  case digest => exact State.offerFrame_digest hsending hkind (State.queueDigestFrame_replaces hsplit hd hothers) rfl
  case digestRoom => exact State.offerFrame_digest hsending hkind (State.queueDigestFrame_room hnone hroom) rfl
  case digestFull => exact State.offerFrame_digest hsending hkind (State.queueDigestFrame_full hnone hfull) rfl
  case noticeRoom => exact State.offerFrame_notice hsending hkind (State.queueNoticeFrame_room hroom) rfl
  case noticeFull => exact State.offerFrame_notice hsending hkind (State.queueNoticeFrame_full hfull) rfl
  case characters =>
    refine ⟨fun hidle hempty => State.offerFrame_idle hidle hempty f, frameChars_data _, ?_,
      fun c hc => frameChars_parity hc, ?_⟩
    · refine (frameChars_mark _ _).trans (congrArg (fun n => true :: List.replicate n false) ?_)
      simp [beBytes_length]
    · cases f.kind <;> rfl
  case sent =>
    have hsending' : (s.advance t).port.sending = some f := hsending
    exact congrArg State.conclude (State.frameDone_of_sending hsending')
  case codes =>
    refine ⟨rfl, rfl, rfl, rfl, rfl, rfl, rfl, rfl, rfl, rfl, rfl, fun c => ?_, fun h => ?_,
      fun f => ⟨f.presenceBytes_length, f.presenceBytes_station, fun n => f.presenceBytes_beyond⟩⟩
    · simp only [CauseSet.code, bitsNat_cons, show bitsNat [] = 0 from rfl]
      omega
    · simp only [HoldSet.code, bitsNat_cons, show bitsNat [] = 0 from rfl]
      omega
  case payload =>
    obtain rfl : code = BitVec.ofNat 8 := funext hcode
    refine ⟨?_, s.digestPayload_length, State.topVector_of_nil, fun a rest => State.topVector_of_cons, fun n => rfl,
      s.tripDemanded_iff, s.hornDemanded_iff⟩
    simp only [State.digestPayload, toList_flatMap_eq_finRange, Burner.digest, Line.digest, Run.digest, beBytes_one,
      State.digestPoint_eq, bitsNat_two, List.append_assoc, List.cons_append, List.nil_append, List.flatMap_cons,
      List.flatMap_nil, List.append_nil]
    rfl

end Sys2Proof.Machine
end

section
/-!
PROOFS. Requests before their owner judges them (R157, R166): what the port makes of the request at the head of its
queue, how a run of items decodes value by value, and what arguments are read from it.
-/
namespace Sys2Proof.Machine

/-! ### The request at the head (R157) -/

/-- A payload without its request number is answered under some number (log entry 3). -/
theorem exec_serveKind_missing {s : State} {row : Instr} {kind : Byte} {f : Handler}
    (hexec : Machine.exec row s = (s.serveKind kind f).conclude) (hg : s.gateOpen = true)
    (hq : s.port.rxQueue.head? = some { kind := kind, payload := [] }) :
    Machine.exec row s = .next (State.answered { s.popRequest with freeIndex := s.freeIndex + 1 }
      (Config.missingRequestNumber s.freeIndex) kind { result := .badFrame }) := by
  rw [hexec, State.serveKind_missing s kind f hg hq]
  rfl

/-- A row whose kind is not the head's, or while the gate is closed, is no event (log entry 6). -/
theorem exec_serveKind_none {s : State} {row : Instr} {kind : Byte} {f : Handler}
    (hexec : Machine.exec row s = (s.serveKind kind f).conclude)
    (h : s.gateOpen = false ∨ ∀ x, s.port.rxQueue.head? = some x → x.kind ≠ kind) :
    Machine.exec row s = .next s.driveLines := by
  rw [hexec, s.serveKind_none kind f h]
  rfl

/-- Arguments that do not decode are BAD_FRAME. -/
theorem withArgs_of_none {as : List Arg} {bs : List Byte} (h : readArgs as bs = none)
    (f : State → Byte → List Item → State × Option Answer) (s : State) (n : Byte) :
    withArgs as f s n bs = (s, some { result := .badFrame }) := by
  rw [withArgs, h]

/-- Every request with a kind of its own is served by its row: the three entry requests, and those of Table 10-3 whose
arguments are items. -/
theorem requestRows_served : ∀ row kind, (row, kind) ∈
      [(.writeEntry, 0x01), (.readEntry, 0x02), (.clearEntry, 0x03)] ++ requestArgs.map (fun x => (x.1, x.2.1)) →
    ∃ f, ∀ s, Machine.exec row s = (s.serveKind kind f).conclude := by
  intro row kind h
  rcases List.mem_append.1 h with h | h
  · have hentry : ∀ x ∈ ([(.writeEntry, 0x01), (.readEntry, 0x02), (.clearEntry, 0x03)] : List (Instr × Byte)),
        ∃ f, ∀ s, Machine.exec x.1 s = (s.serveKind x.2 f).conclude := by
      refine List.forall_mem_cons.mpr ⟨⟨handleWrite, fun s => rfl⟩, ?_⟩
      refine List.forall_mem_cons.mpr ⟨⟨handleRead, fun s => rfl⟩, ?_⟩
      refine List.forall_mem_cons.mpr ⟨⟨handleClear, fun s => rfl⟩, ?_⟩
      exact List.forall_mem_nil _
    exact hentry (row, kind) h
  · obtain ⟨x, hx, heq⟩ := List.mem_map.1 h
    obtain ⟨f, hf⟩ := requestArgs_handled x hx
    obtain ⟨rfl, rfl⟩ := Prod.mk.inj heq
    exact ⟨_, hf⟩

/-- R157: a kind that is none of 01H to 25H is UNKNOWN_KIND. -/
theorem exec_unknownKindRequest {s : State} {kind number : Byte} {args : List Byte} (h : s.offers kind number args)
    (hkind : kind.toNat = 0 ∨ 37 < kind.toNat) : Machine.exec .unknownKindRequest s =
      .next (s.popRequest.answered number kind { result := .unknownKind }) := by
  have hsel : (!isRequestKind kind) = true := by
    simp only [isRequestKind, Bool.not_eq_true', Bool.and_eq_false_iff, decide_eq_false_iff_not]
    omega
  have hserve := h.serve (fun b => !isRequestKind b) hsel .unknownKind
    fun s _ _ => (s, some { result := .unknownKind })
  exact congrArg State.conclude hserve

/-- R157: at most one reply waits and no RESET is pending. -/
theorem State.gateOpen_iff (s : State) : s.gateOpen = true ↔
    (s.port.txQueue.filter fun f => f.kind == .reply).length ≤ 1 ∧ s.port.resetPending = false := by
  rw [State.gateOpen, Bool.and_eq_true, Bool.not_eq_true']
  exact and_congr_left' decide_eq_true_iff

/-! ### Entry requests that are no frames (R166) -/

/-- WRITE_ENTRY without table and index, and of an entry that does not decode or does not suit its table. -/
theorem handleWrite_badFrame {args : List Byte} (h : args.length < 2 ∨ (∃ table index bytes,
      args = table :: index :: bytes ∧ (itemsOf bytes = none ∨ ∃ is t, itemsOf bytes = some is ∧
        tables[table.toNat]? = some t ∧ entrySuits t.fields is = false))) (s : State) (n : Byte) :
    handleWrite s n args = (s, some { result := .badFrame }) := by
  rcases h with hshort | ⟨table, index, bytes, rfl, hitems | ⟨is, t, hitems, htable, hsuits⟩⟩
  · match args, hshort with
    | [], _ => rfl
    | [_], _ => rfl
  · simp only [handleWrite, hitems]
  · simp only [handleWrite, hitems, htable, hsuits, Bool.false_eq_true, if_false]

/-- READ_ENTRY whose payload is not a table and an index. -/
theorem handleRead_badFrame {args : List Byte} (h : args.length ≠ 2) (s : State) (n : Byte) :
    handleRead s n args = (s, some { result := .badFrame }) := by
  match args, h with
  | [], _ => rfl
  | [_], _ => rfl
  | _ :: _ :: _ :: _, _ => rfl

/-- CLEAR_ENTRY whose payload is not a table and an index. -/
theorem handleClear_badFrame {args : List Byte} (h : args.length ≠ 2) (s : State) (n : Byte) :
    handleClear s n args = (s, some { result := .badFrame }) := by
  match args, h with
  | [], _ => rfl
  | [_], _ => rfl
  | _ :: _ :: _ :: _, _ => rfl

/-! ### The value of an item (Table 10-2) -/

theorem readInt_exact {n : Nat} (f : List Byte → Int) {bs : List Byte} (h : bs.length = n) (rest : List Byte) :
    readInt n f (bs ++ rest) = some (.int (f bs), rest) := by
  rw [readInt, splitBytes_iff.2 ⟨rfl, h⟩]
  rfl

theorem readInt_short {n : Nat} (f : List Byte → Int) {bs : List Byte} (h : bs.length < n) : readInt n f bs = none := by
  rw [readInt, splitBytes_none.2 h]
  rfl

/-- Encoding 01H: one byte. -/
theorem readValue_byte (b : Byte) (rest : List Byte) : readValue 1#8 (b :: rest) = some (.int b.toNat, rest) := by
  have hunsigned : unsigned [b] = b.toNat := by simp [unsigned, beNat]
  exact hunsigned ▸ readInt_exact (n := 1) (bs := [b]) unsigned rfl rest

/-- The element count or the length of a list of fewer than 256 reads back from its byte. -/
theorem toNat_ofNat_byte {n : Nat} (h : n < 256) : (BitVec.ofNat 8 n).toNat = n := Nat.mod_eq_of_lt h

/-- Encoding 05H: a list of bytes. -/
theorem readValue_byteList {bs : List Byte} (h : bs.length < 256) (rest : List Byte) :
    readValue 5#8 (BitVec.ofNat 8 bs.length :: (bs ++ rest)) =
    some (.ints (bs.map fun b => (b.toNat : Int)), rest) := by
  have hread := readElements_exact (w := 1) (f := unsigned) (bs.map fun b => [b]) rest (by simp)
  have hflat : (bs.map fun b => [b]).flatten = bs := by rw [← List.flatMap_def, List.flatMap_singleton']
  have hmap : (bs.map fun b => [b]).map unsigned = bs.map fun b => (b.toNat : Int) := by
    rw [List.map_map]
    exact List.map_congr_left fun b _ => by simp [unsigned, beNat]
  rw [List.length_map, hflat, hmap] at hread
  change (readElements 1 unsigned (BitVec.ofNat 8 bs.length).toNat (bs ++ rest)).map _ = _
  rw [toNat_ofNat_byte h, hread]
  rfl

/-- Encoding 06H: a list of signed words. -/
theorem readValue_wordList {ws : List (Byte × Byte)} (h : ws.length < 256) (rest : List Byte) :
    readValue 6#8 (BitVec.ofNat 8 ws.length :: (ws.flatMap (fun w => [w.1, w.2]) ++ rest)) =
      some (.ints (ws.map fun w => beSigned [w.1, w.2]), rest) := by
  have hread := readElements_exact (w := 2) (f := beSigned) (ws.map fun w => [w.1, w.2]) rest
    (List.forall_mem_map.2 fun _ _ => rfl)
  rw [List.length_map, ← List.flatMap_def, List.map_map] at hread
  change (readElements 2 beSigned (BitVec.ofNat 8 ws.length).toNat _).map _ = _
  rw [toNat_ofNat_byte h, hread]
  rfl

/-- Encoding 07H: a record. -/
theorem readValue_record {bs : List Byte} (h : bs.length < 256) (rest : List Byte) :
    readValue 7#8 (BitVec.ofNat 8 bs.length :: (bs ++ rest)) = some (.record bs, rest) := by
  change (readRecord _).map _ = _
  rw [readRecord_iff.2 ⟨h, rfl⟩]
  rfl

/-- Encoding 08H: a list of records. -/
theorem readValue_records {rs : List (List Byte)} (h : rs.length < 256) (hr : ∀ r ∈ rs, r.length < 256)
    (rest : List Byte) : readValue 8#8 (BitVec.ofNat 8 rs.length ::
      ((rs.flatMap fun r => BitVec.ofNat 8 r.length :: r) ++ rest)) = some (.records rs, rest) := by
  change (readRecords (BitVec.ofNat 8 rs.length).toNat _).map _ = _
  rw [toNat_ofNat_byte h, (readRecords_iff rs.length _ rest rs).2 ⟨rfl, hr, rfl⟩]
  rfl

/-- No value has an encoding that Table 10-2 does not have. -/
theorem readValue_of_no_encoding {enc : Byte} (h : enc = 0 ∨ 9 < enc.toNat) (bs : List Byte) :
    readValue enc bs = none := by
  have hn : enc.toNat = 0 ∨ 9 < enc.toNat := h.imp (fun e => by rw [e]; rfl) id
  unfold readValue
  split
  case h_10 => rfl
  all_goals omega

/-- No value is empty. -/
theorem readValue_nil (enc : Byte) : readValue enc [] = none := by
  unfold readValue
  split
  case h_1 | h_2 | h_3 | h_9 => exact readInt_short _ (by simp)
  case h_4 | h_5 | h_6 | h_8 => contradiction
  case h_7 | h_10 => rfl

/-- A value that runs past the end of the bytes leaves nothing decoded. -/
theorem readValue_past_end {enc : Byte} {bs : List Byte} (h : (enc = 2 ∧ bs.length < 2) ∨ (enc = 3 ∧ bs.length < 4) ∨
      (enc = 9 ∧ bs.length < 8) ∨ (enc = 5 ∧ bs.length < 1 + (bs.headD 0).toNat) ∨
      (enc = 6 ∧ bs.length < 1 + 2 * (bs.headD 0).toNat) ∨ (enc = 7 ∧ bs.length < 1 + (bs.headD 0).toNat) ∨
      (enc = 8 ∧ ∀ (rs : List (List Byte)) more, rs.length = (bs.headD 0).toNat → (∀ r ∈ rs, r.length < 256) →
        bs.tail ≠ (rs.flatMap fun r => BitVec.ofNat 8 r.length :: r) ++ more)) : readValue enc bs = none := by
  cases bs with
  | nil => exact readValue_nil enc
  | cons n rest =>
    simp only [List.length_cons, List.headD_cons, List.tail_cons] at h
    rcases h with ⟨rfl, h⟩ | ⟨rfl, h⟩ | ⟨rfl, h⟩ | ⟨rfl, h⟩ | ⟨rfl, h⟩ | ⟨rfl, h⟩ | ⟨rfl, h⟩
    case inl => exact readInt_short _ h
    case inr.inl => exact readInt_short _ h
    case inr.inr.inl => exact readInt_short _ h
    case inr.inr.inr.inl =>
      change (readElements 1 unsigned n.toNat rest).map _ = none
      rw [readElements_none _ _ (by omega)]; rfl
    case inr.inr.inr.inr.inl =>
      change (readElements 2 beSigned n.toNat rest).map _ = none
      rw [readElements_none _ _ (by omega)]; rfl
    case inr.inr.inr.inr.inr.inl =>
      change (splitBytes n.toNat rest).map _ = none
      rw [splitBytes_none.2 (by omega)]; rfl
    case inr.inr.inr.inr.inr.inr =>
      change (readRecords n.toNat rest).map _ = none
      cases hread : readRecords n.toNat rest with
      | none => rfl
      | some x =>
        obtain ⟨rs, more⟩ := x
        obtain ⟨hlen, hshort, hrest⟩ := (readRecords_iff _ _ _ _).1 hread
        exact absurd hrest (h rs more hlen hshort)

/-! ### Arguments (Table 10-3) -/

/-- A tag is given where some item bears it. -/
theorem valueOf_none_iff {is : List Item} {t : Nat} : valueOf is t = none ↔ ∀ i ∈ is, i.tag ≠ t := by
  simp only [valueOf, Option.map_eq_none_iff, List.find?_eq_none, beq_iff_eq]

theorem given_iff_mem {is : List Item} {t : Nat} : given is t = true ↔ ∃ i ∈ is, i.tag = t := by
  rw [given_iff, Ne, valueOf_none_iff]
  push Not
  rfl

/-- Where no tag is given twice, the value of a tag is that of its item. -/
theorem valueOf_some_iff {t : Nat} {v : Value} : ∀ {is : List Item}, (is.map (·.tag)).Nodup →
    (valueOf is t = some v ↔ { tag := t, value := v } ∈ is)
  | [], _ => by simp [valueOf_nil]
  | i :: is, h => by
    obtain ⟨hi, htail⟩ := List.nodup_cons.1 h
    rw [valueOf_cons, List.mem_cons]
    by_cases ht : i.tag = t
    · have hnot : ({ tag := t, value := v } : Item) ∉ is := fun hm =>
        hi (List.mem_map.2 ⟨_, hm, ht.symm⟩)
      rw [if_pos ht, or_iff_left hnot, Option.some.injEq]
      exact ⟨fun e => by rw [← ht, ← e], fun e => by rw [← e]⟩
    · have hne : ({ tag := t, value := v } : Item) ≠ i := fun e => ht (by rw [← e])
      rw [if_neg ht, or_iff_right hne, valueOf_some_iff htail]

/-- The field of a tag, counted from 1. -/
theorem fieldOf_any_iff {α : Type} {fields : List α} {t : Nat} {p : α → Bool} :
    (fieldOf fields t).any p = true ↔ ∃ a, 1 ≤ t ∧ fields[t - 1]? = some a ∧ p a = true := by
  rw [fieldOf, Option.any_eq_true]
  by_cases ht : t = 0
  · simp [ht]
  · simp only [if_neg ht, Nat.one_le_iff_ne_zero.2 ht, true_and]

/-- R166: the arguments of a request. -/
theorem readArgs_iff (args : List Arg) (bs : List Byte) (is : List Item) : readArgs args bs = some is ↔
    itemsOf bs = some is ∧ (is.map (·.tag)).Nodup ∧
    (∀ i ∈ is, ∃ a, 1 ≤ i.tag ∧ args[i.tag - 1]? = some a ∧ a.kind.suits [] i.value = true) ∧
    ∀ n a, args[n]? = some a → a.mandatory = true → ∃ i ∈ is, i.tag = n + 1 := by
  have hmandatory (is : List Item) : (args.zipIdx.all fun a => !a.1.mandatory || given is (a.2 + 1)) = true ↔
      ∀ n a, args[n]? = some a → a.mandatory = true → ∃ i ∈ is, i.tag = n + 1 := by
    simp only [List.all_eq_true, Prod.forall, List.mem_zipIdx_iff_getElem?, Bool.or_eq_true, Bool.not_eq_true',
      given_iff_mem, ← imp_iff_not_or, ← Bool.not_eq_true]
    exact forall_comm
  unfold readArgs
  cases hitems : itemsOf bs with
  | none => simp
  | some is' =>
    dsimp only
    rw [Option.ite_none_right_eq_some]
    simp only [noTagTwice, Bool.and_eq_true, decide_eq_true_eq, List.all_eq_true,
      fieldOf_any_iff, hmandatory, Option.some.injEq]
    constructor
    · rintro ⟨⟨⟨hnodup, hsuits⟩, hgiven⟩, rfl⟩
      exact ⟨rfl, hnodup, hsuits, hgiven⟩
    · rintro ⟨rfl, hnodup, hsuits, hgiven⟩
      exact ⟨⟨⟨hnodup, hsuits⟩, hgiven⟩, rfl⟩

/-! ### The obligation -/

section items

variable (tag : Byte) (rest : List Byte) (item : Value → Option (List Item))
  (hitem : ∀ v, item v = (itemsOf rest).map fun is => { tag := tag.toNat, value := v } :: is)
include hitem

/-- An item whose value is no record, and the items that follow it. -/
theorem itemsOf_plain {enc : Byte} {bs : List Byte} {v : Value} (h : readValue enc bs = some (v, rest))
    (hok : v.innerOk itemsOf = true) : itemsOf (tag :: enc :: bs) = item v := by
  rw [itemsOf_value h, if_pos hok, hitem]

/-- An item of a record decodes where the items inside do. -/
theorem itemsOf_record_item {bs : List Byte} (h : bs.length < 256) :
    itemsOf (tag :: 7#8 :: BitVec.ofNat 8 bs.length :: (bs ++ rest)) =
      if (itemsOf bs).isSome then item (.record bs) else none := by
  rw [itemsOf_value (readValue_record h rest), hitem]
  rfl

/-- An item of a list of records decodes where the items inside each do. -/
theorem itemsOf_records_item {rs : List (List Byte)} (h : rs.length < 256) (hr : ∀ r ∈ rs, r.length < 256) :
    itemsOf (tag :: 8#8 :: BitVec.ofNat 8 rs.length ::
        ((rs.flatMap fun r => BitVec.ofNat 8 r.length :: r) ++ rest)) =
      if ∀ r ∈ rs, (itemsOf r).isSome then item (.records rs) else none := by
  rw [itemsOf_value (readValue_records h hr rest), hitem]
  simp only [Value.innerOk, List.all_eq_true]

end items

/-- Settles O13: every request is served by the row of its kind, so what its owner makes of the arguments is what the
row answers; the items decode value by value, and the arguments are read from items no two of which share a tag. -/
theorem requestsJudgedFirst : Obligations.RequestsJudgedFirst := by
  unfold Obligations.RequestsJudgedFirst
  refine ⟨fun s number kind args => ⟨?unknown, ?undecoded, ?object, ?write, ?entry, ?row, s.gateOpen_iff,
      fun a => rfl, by decide, by decide, fun r c n i => ⟨rfl, rfl, rfl⟩⟩, ?items,
    ⟨readArgs_iff, fun n => ⟨rfl, rfl⟩, fun is t h => ⟨fun v => valueOf_some_iff h, valueOf_none_iff⟩,
      fun is t => ⟨fun i => intOf_iff, fun n => enumOf_iff⟩⟩⟩
  case unknown => exact exec_unknownKindRequest
  case undecoded =>
    intro row spec hmem h hread
    obtain ⟨f, hexec⟩ := requestArgs_handled _ hmem
    exact h.exec_of_handler (hexec s) (withArgs_of_none hread f _ number)
  case object =>
    intro row spec low high is n hmem h hread hn hout
    obtain ⟨f, hexec, hindex⟩ := objectArgs_handled _ hmem
    exact h.exec_of_handler (hexec s) (answering_eq hread (hindex _ is n hn hout) number)
  case write => exact fun h hbad => h.exec_of_handler rfl (handleWrite_badFrame hbad _ number)
  case entry =>
    exact fun hlen => ⟨fun h => h.exec_of_handler rfl (handleRead_badFrame hlen _ number),
      fun h => h.exec_of_handler rfl (handleClear_badFrame hlen _ number)⟩
  case row =>
    intro row hmem
    obtain ⟨f, hexec⟩ := requestRows_served row kind hmem
    exact ⟨fun hg hq => ⟨_, exec_serveKind_missing (hexec s) hg hq⟩, exec_serveKind_none (hexec s)⟩
  case items =>
    intro tag rest item framed hitem hframed
    obtain rfl : framed = fun rs => rs.flatMap fun r => BitVec.ofNat 8 r.length :: r := funext hframed
    refine ⟨itemsOf_nil, itemsOf_single tag, ?byte, ?word, ?double, ?eight, ?enum, ?bytes, ?words, ?record, ?records,
      ?none⟩
    case byte => exact fun b => itemsOf_plain tag rest item hitem (readValue_byte b rest) rfl
    case word => exact fun bs h => itemsOf_plain tag rest item hitem (readInt_exact beSigned h rest) rfl
    case double => exact fun bs h => itemsOf_plain tag rest item hitem (readInt_exact beSigned h rest) rfl
    case eight => exact fun bs h => itemsOf_plain tag rest item hitem (readInt_exact unsigned h rest) rfl
    case enum => exact fun n => itemsOf_plain tag rest item hitem rfl rfl
    case bytes => exact fun bs h => itemsOf_plain tag rest item hitem (readValue_byteList h rest) rfl
    case words => exact fun ws h => itemsOf_plain tag rest item hitem (readValue_wordList h rest) rfl
    case record => exact fun bs h => itemsOf_record_item tag rest item hitem h
    case records => exact fun rs h hr => itemsOf_records_item tag rest item hitem h hr
    case none =>
      intro enc bs h
      rcases h with h | h | rfl | h
      · exact itemsOf_novalue (readValue_of_no_encoding (.inl h) bs)
      · exact itemsOf_novalue (readValue_of_no_encoding (.inr h) bs)
      · exact itemsOf_novalue (readValue_nil enc)
      · exact itemsOf_novalue (readValue_past_end h)

end Sys2Proof.Machine
end

section
/-!
PROOFS. What a table takes (section 1.6, R166): the encodings that suit the fields of an entry, and the tags and
enumerators that it may carry.
-/
namespace Sys2Proof.Machine

/-- A known tag's field, counted from 1. -/
theorem fieldOf_all_iff {α : Type} {fields : List α} {t : Nat} {p : α → Bool} :
    (fieldOf fields t).all p = true ↔ ∀ k, 1 ≤ t → fields[t - 1]? = some k → p k = true := by
  rw [fieldOf, option_all_iff]
  by_cases ht : t = 0
  · simp [ht]
  · simp only [if_neg ht, Nat.one_le_iff_ne_zero.2 ht, forall_true_left]

/-! ### What suits a field -/

/-- R166: every known tag of an entry carries an encoding that suits its field. -/
theorem entrySuits_iff (fields : List FieldKind) (is : List Item) : entrySuits fields is = true ↔
    ∀ i ∈ is, ∀ k, 1 ≤ i.tag → fields[i.tag - 1]? = some k → k.suits i.value = true := by
  simp only [entrySuits, List.all_eq_true, fieldOf_all_iff]

/-- R166: every known tag of a record carries an encoding that suits its field. -/
theorem recordSuits_iff (fields : List SimpleKind) (is : List Item) : recordSuits fields is = true ↔
    ∀ i ∈ is, ∀ k, 1 ≤ i.tag → fields[i.tag - 1]? = some k → k.suits is i.value = true := by
  simp only [recordSuits, List.all_eq_true, fieldOf_all_iff]

theorem SimpleKind.suits_int (is : List Item) (v : Value) :
    SimpleKind.int.suits is v = true ↔ ∃ i, v = .int i := by
  cases v <;> simp [SimpleKind.suits, Value.isInt]

theorem SimpleKind.suits_enum (is : List Item) (v : Value) (names : Nat) :
    (SimpleKind.enum names).suits is v = true ↔ ∃ n, v = .enum n := by
  cases v <;> simp [SimpleKind.suits, Value.isEnum]

/-- Log entry 25: an enumerator for LINE_FAILED, an integer for every other code. -/
theorem SimpleKind.suits_instanceNo (is : List Item) (v : Value) : SimpleKind.instanceNo.suits is v = true ↔
    (enumOf is 3 = some 9 ∧ ∃ n, v = .enum n) ∨ (enumOf is 3 ≠ some 9 ∧ ∃ i, v = .int i) := by
  have hint := SimpleKind.suits_int is v
  have henum := SimpleKind.suits_enum is v 0
  by_cases h : enumOf is 3 = some 9
  · have heq : SimpleKind.instanceNo.suits is v = (SimpleKind.enum 0).suits is v := if_pos h
    rw [heq, henum]
    simp [h]
  · have heq : SimpleKind.instanceNo.suits is v = SimpleKind.int.suits is v := if_neg h
    rw [heq, hint]
    simp [h]

/-- The items of a record that does not decode are none, and suit every field. -/
theorem recordSuits_innerItems (fields : List SimpleKind) (bs : List Byte) :
    recordSuits fields (innerItems bs) = true ↔ ∀ is, itemsOf bs = some is → ∀ i ∈ is, ∀ x, 1 ≤ i.tag →
      fields[i.tag - 1]? = some x → x.suits is i.value = true := by
  cases h : itemsOf bs with
  | none => simp [innerItems, h, recordSuits]
  | some is =>
    rw [innerItems_of h, recordSuits_iff]
    simp only [Option.some.injEq, forall_eq']

theorem FieldKind.suits_ints (v : Value) : FieldKind.ints.suits v = true ↔ ∃ xs, v = .ints xs := by
  cases v <;> simp [FieldKind.suits]

theorem FieldKind.suits_record (fields : List SimpleKind) (v : Value) : (FieldKind.record fields).suits v = true ↔
    ∃ bs, v = .record bs ∧ recordSuits fields (innerItems bs) = true := by
  cases v <;> simp [FieldKind.suits]

theorem FieldKind.suits_records (fields : List SimpleKind) (v : Value) : (FieldKind.records fields).suits v = true ↔
    ∃ rs, v = .records rs ∧ ∀ bs ∈ rs, recordSuits fields (innerItems bs) = true := by
  cases v <;> simp [FieldKind.suits]

/-! ### What a table takes -/

/-- R166: no unknown tag, no tag twice, and every value taken. -/
theorem entryTakes_iff (fields : List FieldKind) (is : List Item) : entryTakes fields is = true ↔
    (is.map (·.tag)).Nodup ∧ ∀ i ∈ is, ∃ k, 1 ≤ i.tag ∧ fields[i.tag - 1]? = some k ∧ k.takes i.value = true := by
  simp only [entryTakes, noTagTwice, Bool.and_eq_true, decide_eq_true_eq, List.all_eq_true, fieldOf_any_iff]

/-- R166: an enumerator within the names of its field. -/
theorem SimpleKind.named_iff (k : SimpleKind) (v : Value) : k.named v = true ↔
    ∀ names n, k = .enum names → v = .enum n → n < names := by
  cases k <;> cases v <;> simp [SimpleKind.named]

/-- R166: the same for the items of a record. -/
theorem recordTakes_iff (fields : List SimpleKind) (is : List Item) : recordTakes fields is = true ↔
    (is.map (·.tag)).Nodup ∧ ∀ i ∈ is, ∃ x, 1 ≤ i.tag ∧ fields[i.tag - 1]? = some x ∧
      ∀ names n, x = .enum names → i.value = .enum n → n < names := by
  simp only [recordTakes, noTagTwice, Bool.and_eq_true, decide_eq_true_eq, List.all_eq_true, fieldOf_any_iff,
    SimpleKind.named_iff]

/-- A record that decodes is taken where its items are. -/
theorem recordTakes_innerItems (fields : List SimpleKind) {bs : List Byte} (h : (itemsOf bs).isSome) :
    recordTakes fields (innerItems bs) = true ↔ ∀ is, itemsOf bs = some is → (is.map (·.tag)).Nodup ∧
      ∀ i ∈ is, ∃ x, 1 ≤ i.tag ∧ fields[i.tag - 1]? = some x ∧
        ∀ names n, x = .enum names → i.value = .enum n → n < names := by
  obtain ⟨is, his⟩ := Option.isSome_iff_exists.1 h
  rw [innerItems_of his, recordTakes_iff, his]
  simp only [Option.some.injEq, forall_eq']

end Sys2Proof.Machine
end

section
/-!
PROOFS. The entry that a write spells (section 1.6): for each table the items that build an entry, each field within its
range. A builder reads its fields in order, so an entry is built where every field reads and the checks hold.
-/
namespace Sys2Proof.Machine

/-! ### Fields -/

section fields

variable {is : List Item} {t n : Nat}

theorem needObject_one_iff {x : Fin n} : needObject is t n 1 = some x ↔ ObjectField is t 1 x := needObject_iff (b := 1)

theorem needObject_zero_iff {x : Fin n} : needObject is t n 0 = some x ↔ ObjectField is t 0 x := needObject_iff (b := 0)

theorem optObject_one_iff {x : Option (Fin n)} : optObject is t n 1 = some x ↔ OptObjectField is t 1 x :=
  optObject_iff (b := 1)

theorem optObject_zero_iff {x : Option (Fin n)} : optObject is t n 0 = some x ↔ OptObjectField is t 0 x :=
  optObject_iff (b := 0)

/-- An object of a range, wrapped as `f` wraps it. -/
theorem needObject_one_map {α : Type} {f : Fin n → α} {c : α} (h : (needObject is t n 1).map f = some c) :
    ∃ x, ObjectField is t 1 x ∧ f x = c := by
  obtain ⟨x, hx, hc⟩ := Option.map_eq_some_iff.1 h
  exact ⟨x, needObject_one_iff.1 hx, hc⟩

theorem needObject_zero_map {α : Type} {f : Fin n → α} {c : α} (h : (needObject is t n 0).map f = some c) :
    ∃ x, ObjectField is t 0 x ∧ f x = c := by
  obtain ⟨x, hx, hc⟩ := Option.map_eq_some_iff.1 h
  exact ⟨x, needObject_zero_iff.1 hx, hc⟩

/-- A value that must not stand beside a field. -/
theorem ite_given_eq_some {α : Type} {x c : α} (h : (if given is t = true then none else some x) = some c) :
    NoField is t ∧ x = c := by
  obtain ⟨hg, hc⟩ := Option.ite_none_left_eq_some.1 h
  exact ⟨given_false.1 (Bool.eq_false_of_not_eq_true hg), Option.some.inj hc⟩

end fields

/-- Integers none of which is negative are naturals. -/
theorem exists_naturals {xs : List Int} (h : ∀ x ∈ xs, 0 ≤ x) : ∃ ns : List Nat, xs = ns.map Int.ofNat := by
  refine ⟨xs.map Int.toNat, ?_⟩
  rw [List.map_map]
  exact (List.map_id' xs).symm.trans (List.map_congr_left fun x hx => (Int.toNat_of_nonneg (h x hx)).symm)

theorem map_toNat_ofNat (ns : List Nat) : (ns.map Int.ofNat).map Int.toNat = ns := by
  rw [List.map_map]
  exact List.map_id' ns

theorem forall_mem_ofNat {ns : List Nat} {lo hi : Nat} :
    (∀ x ∈ ns.map Int.ofNat, (lo : Int) ≤ x ∧ x ≤ hi) ↔ ∀ n ∈ ns, lo ≤ n ∧ n ≤ hi := by
  rw [List.forall_mem_map]
  exact forall₂_congr fun n _ => and_congr Int.ofNat_le Int.ofNat_le

/-! ### Round table, shift plan, first-out groups and digest list -/

/-- R3: the round table. -/
theorem buildRound_iff (is : List Item) (t : RoundTable) : buildRound is = some t ↔
    valueOf is 1 = some (.ints (t.ordinary.map Int.ofNat)) ∧ (∀ x ∈ t.ordinary, 1 ≤ x ∧ x ≤ 60) ∧
    1 ≤ t.ordinary.length ∧ t.ordinary.length ≤ 56 ∧
    (valueOf is 2).getD (.ints []) = .ints (t.quick.map Int.ofNat) ∧ (∀ x ∈ t.quick, 1 ≤ x ∧ x ≤ 60) ∧
    t.quick.length ≤ 4 ∧ IntField is 3 t.gap 1 8 ∧ IntField is 4 t.period 5 50 ∧ IntField is 5 t.cmdSlots 1 16 ∧
    IntField is 6 t.quorum 1 56 ∧ IntField is 7 t.window 10 1000 := by
  simp only [buildRound, Option.bind_eq_bind, Option.bind_eq_some_iff, Option.filter_eq_some_iff, needInts_iff,
    optInts_iff, needNat_iff, Option.pure_def, Option.some.injEq, Bool.and_eq_true, decide_eq_true_eq]
  constructor
  · rintro ⟨os, ⟨⟨hos, hor⟩, hol⟩, qs, ⟨⟨hqs, hqr⟩, hql⟩, gap, hgap, period, hperiod, slots, hslots, quorum, hquorum,
      window, hwindow, rfl⟩
    obtain ⟨os, rfl⟩ := exists_naturals fun x hx => (hor x hx).1.trans' (by decide)
    obtain ⟨qs, rfl⟩ := exists_naturals fun x hx => (hqr x hx).1.trans' (by decide)
    rw [List.length_map] at hol hql
    simp only [map_toNat_ofNat]
    exact ⟨hos, forall_mem_ofNat.1 hor, hol.1, hol.2, hqs, forall_mem_ofNat.1 hqr, hql, hgap, hperiod, hslots, hquorum,
      hwindow⟩
  · rintro ⟨hos, hor, hol, hol', hqs, hqr, hql, hgap, hperiod, hslots, hquorum, hwindow⟩
    refine ⟨_, ⟨⟨hos, forall_mem_ofNat.2 hor⟩, ?_⟩, _, ⟨⟨hqs, forall_mem_ofNat.2 hqr⟩, ?_⟩, _, hgap, _, hperiod, _,
      hslots, _, hquorum, _, hwindow, ?_⟩
    · rw [List.length_map]; exact ⟨hol, hol'⟩
    · rw [List.length_map]; exact hql
    · simp only [map_toNat_ofNat]

/-- R141: strictly ascending. -/
theorem ascending_iff : ∀ plan : List Nat, ascending plan = true ↔ plan.Pairwise (· < ·) := by
  have hchain : ∀ plan : List Nat, ascending plan = true ↔ plan.IsChain (· < ·) := by
    intro plan
    induction plan with
    | nil => simp [ascending]
    | cons x rest ih =>
      cases rest with
      | nil => simp [ascending]
      | cons y rest => simp [ascending, ih]
  exact fun plan => (hchain plan).trans List.isChain_iff_pairwise

/-- R141: the shift plan. -/
theorem buildPlan_iff (is : List Item) (plan : List Nat) : buildPlan is = some plan ↔
    valueOf is 1 = some (.ints (plan.map Int.ofNat)) ∧ 1 ≤ plan.length ∧ plan.length ≤ 4 ∧ plan.Pairwise (· < ·) ∧
    ∀ m ∈ plan, m ≤ 1439 := by
  simp only [buildPlan, Option.bind_eq_bind, Option.bind_eq_some_iff, Option.filter_eq_some_iff, needInts_iff,
    Bool.and_eq_true, decide_eq_true_eq, Option.ite_none_right_eq_some, ascending_iff, Option.some.injEq]
  constructor
  · rintro ⟨xs, ⟨⟨hxs, hrange⟩, hlen⟩, hasc, rfl⟩
    obtain ⟨ns, rfl⟩ := exists_naturals fun x hx => (hrange x hx).1
    rw [List.length_map] at hlen
    rw [map_toNat_ofNat] at hasc ⊢
    exact ⟨hxs, hlen.1, hlen.2, hasc, fun m hm => ((forall_mem_ofNat (lo := 0) (hi := 1439)).1 hrange m hm).2⟩
  · rintro ⟨hxs, hlen, hlen', hasc, hrange⟩
    refine ⟨_, ⟨⟨hxs, (forall_mem_ofNat (lo := 0) (hi := 1439)).2 fun m hm => ⟨m.zero_le, hrange m hm⟩⟩, ?_⟩, ?_, ?_⟩
    · rw [List.length_map]; exact ⟨hlen, hlen'⟩
    · rw [map_toNat_ofNat]; exact hasc
    · exact map_toNat_ofNat plan

/-- Integers in the range of the point numbers are points. -/
theorem exists_points {xs : List Int} (h : ∀ x ∈ xs, 0 ≤ x ∧ x ≤ 255) :
    ∃ ps : List (Fin 256), xs = ps.map fun p => (p.val : Int) := by
  induction xs with
  | nil => exact ⟨[], rfl⟩
  | cons x xs ih =>
    obtain ⟨hx, hxs⟩ := List.forall_mem_cons.1 h
    obtain ⟨ps, rfl⟩ := ih hxs
    exact ⟨⟨x.toNat, by omega⟩ :: ps, by simp [hx.1]⟩

theorem filterMap_objectIndex_points (ps : List (Fin 256)) :
    (ps.map fun p => (p.val : Int)).filterMap (objectIndex 256 0) = ps := by
  rw [List.filterMap_map]
  have hpoint : (objectIndex 256 0 ∘ fun p : Fin 256 => (p.val : Int)) = some := funext fun p => objectIndex_base 0 p
  rw [hpoint, List.filterMap_some]

/-- R133: a first-out group. -/
theorem buildGroup_iff (is : List Item) (e : GroupEntry) : buildGroup is = some e ↔ FlagField is 1 e.inUse ∧
    (valueOf is 2).getD (.ints []) = .ints (e.points.map fun p => (p.val : Int)) ∧ e.points.length ≤ 4 := by
  simp only [buildGroup, Option.bind_eq_bind, Option.bind_eq_some_iff, Option.filter_eq_some_iff, needFlag_iff,
    optInts_iff, Option.pure_def, Option.some.injEq, decide_eq_true_eq]
  constructor
  · rintro ⟨inUse, hin, xs, ⟨⟨hxs, hrange⟩, hlen⟩, rfl⟩
    obtain ⟨ps, rfl⟩ := exists_points hrange
    rw [List.length_map] at hlen
    simp only [filterMap_objectIndex_points]
    exact ⟨hin, hxs, hlen⟩
  · rintro ⟨hin, hxs, hlen⟩
    refine ⟨_, hin, _, ⟨⟨hxs, ?_⟩, ?_⟩, ?_⟩
    · exact List.forall_mem_map.2 fun p _ => by omega
    · rw [List.length_map]; exact hlen
    · simp only [filterMap_objectIndex_points]

/-- R161: a digest entry. -/
theorem buildDigest_iff (is : List Item) (e : DigestEntry) : buildDigest is = some e ↔
    FlagField is 1 e.inUse ∧ ObjectField is 2 0 e.point := by
  simp only [buildDigest, Option.bind_eq_bind, Option.bind_eq_some_iff, needFlag_iff, needObject_zero_iff,
    Option.pure_def, Option.some.injEq]
  constructor
  · rintro ⟨inUse, hin, point, hpoint, rfl⟩
    exact ⟨hin, hpoint⟩
  · rintro ⟨hin, hpoint⟩
    exact ⟨_, hin, _, hpoint, rfl⟩

/-! ### Cooler and pass-through -/

/-- R90: a compartment. -/
theorem buildCompartment_iff (is : List Item) (e : CompartmentEntry) : buildCompartment is = some e ↔
    FlagField is 1 e.inUse ∧ IntField is 2 e.station 1 60 ∧ IntField is 3 e.base 0 1000 ∧
    IntField is 4 e.safe 0 1000 ∧ IntField is 5 e.boost 0 1000 ∧ OptObjectField is 6 1 e.zone := by
  simp only [buildCompartment, Option.bind_eq_bind, Option.bind_eq_some_iff, needNat_iff, needFlag_iff,
    optObject_one_iff, Option.pure_def, Option.some.injEq]
  constructor
  · rintro ⟨inUse, hin, station, hstation, base, hbase, safe, hsafe, boost, hboost, zone, hzone, rfl⟩
    exact ⟨hin, hstation, hbase, hsafe, hboost, hzone⟩
  · rintro ⟨hin, hstation, hbase, hsafe, hboost, hzone⟩
    exact ⟨_, hin, _, hstation, _, hbase, _, hsafe, _, hboost, _, hzone, rfl⟩

/-- R90: a zone. -/
theorem buildZone_iff (is : List Item) (e : ZoneEntry) : buildZone is = some e ↔ FlagField is 1 e.inUse ∧
    ObjectField is 2 0 e.point ∧ IntField is 3 e.delta 1 500 ∧ IntField is 4 e.hysteresis 0 499 ∧
    e.hysteresis < e.delta ∧ IntField is 5 e.persist 1 50 := by
  simp only [buildZone, Option.bind_eq_bind, Option.bind_eq_some_iff, need_iff, needNat_iff, needFlag_iff,
    needObject_zero_iff, Option.ite_none_right_eq_some, Option.some.injEq]
  constructor
  · rintro ⟨inUse, hin, point, hpoint, delta, hdelta, hyst, hhyst, persist, hpersist, hlt, rfl⟩
    exact ⟨hin, hpoint, hdelta, hhyst, hlt, hpersist⟩
  · rintro ⟨hin, hpoint, hdelta, hhyst, hlt, hpersist⟩
    exact ⟨_, hin, _, hpoint, _, hdelta, _, hhyst, _, hpersist, hlt, rfl⟩

/-- R90: a run. -/
theorem buildRun_iff (is : List Item) (e : RunEntry) : buildRun is = some e ↔ FlagField is 1 e.inUse ∧
    IntField is 2 e.station 1 60 ∧ ObjectField is 3 0 e.counter ∧ ObjectField is 4 0 e.pressure ∧
    IntField is 5 e.pressureSet 0 20000 ∧ IntField is 6 e.baseRate 1 300 ∧ IntField is 7 e.gain (-3000) 3000 ∧
    IntField is 8 e.minRate 1 300 ∧ IntField is 9 e.maxRate 1 300 ∧ IntField is 10 e.safeRate 1 300 ∧
    e.minRate ≤ e.safeRate ∧ e.safeRate ≤ e.maxRate ∧ IntField is 11 e.strokeMass 0 5000 ∧
    IntField is 12 e.timeoutFactor 2 8 := by
  simp only [buildRun, Option.bind_eq_bind, Option.bind_eq_some_iff, need_iff, needNat_iff, needFlag_iff,
    needObject_zero_iff, Option.ite_none_right_eq_some, Option.some.injEq]
  constructor
  · rintro ⟨inUse, hin, station, hstation, counter, hcounter, pressure, hpressure, set, hset, base, hbase, gain, hgain,
      low, hlow, high, hhigh, safe, hsafe, mass, hmass, factor, hfactor, ⟨hle, hle'⟩, rfl⟩
    exact ⟨hin, hstation, hcounter, hpressure, hset, hbase, hgain, hlow, hhigh, hsafe, hle, hle', hmass, hfactor⟩
  · rintro ⟨hin, hstation, hcounter, hpressure, hset, hbase, hgain, hlow, hhigh, hsafe, hle, hle', hmass, hfactor⟩
    exact ⟨_, hin, _, hstation, _, hcounter, _, hpressure, _, hset, _, hbase, _, hgain, _, hlow, _, hhigh, _, hsafe, _,
      hmass, _, hfactor, ⟨hle, hle'⟩, rfl⟩

/-- R114: an action has its minimum and maximum where it is CLAMP, and only there. -/
theorem buildAction_iff {code : Nat} {min max : Option Nat} {a : FilterAction} : buildAction code min max = some a ↔
    match a with
    | .pass => code = 0 ∧ min = none ∧ max = none
    | .clamp lo hi => code = 1 ∧ min = some lo ∧ max = some hi ∧ lo ≤ hi
    | .block => code = 2 ∧ min = none ∧ max = none := by
  constructor
  · intro h
    unfold buildAction at h
    split at h
    · cases h; exact ⟨rfl, rfl, rfl⟩
    · obtain ⟨hle, heq⟩ := Option.ite_none_right_eq_some.1 h
      cases heq; exact ⟨rfl, rfl, rfl, hle⟩
    · cases h; exact ⟨rfl, rfl, rfl⟩
    · cases h
  · intro h
    cases a with
    | pass => obtain ⟨rfl, rfl, rfl⟩ := h; rfl
    | clamp lo hi => obtain ⟨rfl, rfl, rfl, hle⟩ := h; exact if_pos hle
    | block => obtain ⟨rfl, rfl, rfl⟩ := h; rfl

/-- R114: a pass-through filter. -/
theorem buildFilter_iff (is : List Item) (e : FilterEntry) : buildFilter is = some e ↔ FlagField is 1 e.inUse ∧
    IntField is 2 e.station 1 60 ∧ (∃ n, enumOf is 3 = some n ∧ commandKinds[n]? = some e.kind) ∧
    match e.action with
    | .pass => enumOf is 4 = some 0 ∧ NoField is 5 ∧ NoField is 6
    | .clamp lo hi => enumOf is 4 = some 1 ∧ IntField is 5 lo 0 65535 ∧ IntField is 6 hi 0 65535 ∧ lo ≤ hi
    | .block => enumOf is 4 = some 2 ∧ NoField is 5 ∧ NoField is 6 := by
  simp only [buildFilter, Option.bind_eq_bind, Option.bind_eq_some_iff, needNat_iff, needFlag_iff, needName_iff,
    optNat_iff, Option.pure_def, Option.some.injEq, buildAction_iff]
  constructor
  · rintro ⟨inUse, hin, station, hstation, kind, hkind, code, hcode, min, hmin, max, hmax, action, haction, rfl⟩
    refine ⟨hin, hstation, hkind, ?_⟩
    cases action with
    | pass => obtain ⟨rfl, rfl, rfl⟩ := haction; exact ⟨hcode, hmin, hmax⟩
    | clamp lo hi => obtain ⟨rfl, rfl, rfl, hle⟩ := haction; exact ⟨hcode, hmin, hmax, hle⟩
    | block => obtain ⟨rfl, rfl, rfl⟩ := haction; exact ⟨hcode, hmin, hmax⟩
  · rintro ⟨hin, hstation, hkind, haction⟩
    obtain ⟨inUse, station, kind, action⟩ := e
    cases action with
    | pass =>
      obtain ⟨hcode, hmin, hmax⟩ := haction
      exact ⟨_, hin, _, hstation, _, hkind, _, hcode, none, hmin, none, hmax, .pass, ⟨rfl, rfl, rfl⟩, rfl⟩
    | clamp lo hi =>
      obtain ⟨hcode, hmin, hmax, hle⟩ := haction
      exact ⟨_, hin, _, hstation, _, hkind, _, hcode, some lo, hmin, some hi, hmax, .clamp lo hi, ⟨rfl, rfl, rfl, hle⟩,
        rfl⟩
    | block =>
      obtain ⟨hcode, hmin, hmax⟩ := haction
      exact ⟨_, hin, _, hstation, _, hkind, _, hcode, none, hmin, none, hmax, .block, ⟨rfl, rfl, rfl⟩, rfl⟩

end Sys2Proof.Machine
end

section
/-!
PROOFS. The entry that a write spells, continued: points and fuel lines, whose fields go by their kind.
-/
namespace Sys2Proof.Machine

/-! ### Points (R24) -/

theorem RawKind.scaled_iff (k : RawKind) : k.scaled = true ↔ k = .u12 ∨ k = .u16 ∨ k = .s16 := by
  cases k <;> simp [RawKind.scaled]

theorem RawKind.not_scaled_iff (k : RawKind) : k.scaled = false ↔ k = .counter16 ∨ k = .flags16 := by
  cases k <;> simp [RawKind.scaled]

/-- A field held to one value. -/
theorem optField_pinned {is : List Item} {t : Nat} {x : Option Int} {lo hi v : Int} (hlo : lo ≤ v) (hhi : v ≤ hi) :
    OptField is t x v v ↔ OptField is t x lo hi ∧ x.all (· == v) = true := by
  cases x with
  | none => simp [OptField]
  | some i =>
    simp only [OptField, IntField, Option.all_some, beq_iff_eq]
    constructor
    · rintro ⟨h, hge, hle⟩
      obtain rfl := le_antisymm hle hge
      exact ⟨⟨h, hlo, hhi⟩, rfl⟩
    · rintro ⟨⟨h, -, -⟩, rfl⟩
      exact ⟨h, le_refl i, le_refl i⟩

/-- An optional natural reads where the integer that it is does. -/
theorem optNat_map_iff {is : List Item} {t lo hi : Nat} {x : Option Nat} :
    optNat is t lo hi = some x ↔ OptField is t (x.map fun n : Nat => (n : Int)) lo hi := by
  cases x with
  | none => exact optNat_iff
  | some n => exact optNat_iff

/-- An optional field reads as some natural where it reads as some integer. -/
theorem exists_optNat_iff {is : List Item} {t lo hi : Nat} :
    (∃ x, optNat is t lo hi = some x) ↔ ∃ x, OptField is t x lo hi := by
  simp only [optNat, Option.map_eq_some_iff, opt_iff]
  exact ⟨fun ⟨_, x, hx, _⟩ => ⟨x, hx⟩, fun ⟨x, hx⟩ => ⟨_, x, hx, rfl⟩⟩

/-- R24: a scaled point has its fields, and no increment limit. -/
theorem scaledPoint_iff {inUse : Bool} {station field : Nat} {kind : RawKind} {gain offset low high : Option Int}
    {shift fresh incLimit : Option Nat} {e : PointEntry} :
    scaledPoint inUse station field kind gain offset low high shift fresh incLimit = some e ↔
    ∃ g o l h sh fr, gain = some g ∧ offset = some o ∧ low = some l ∧ high = some h ∧ shift = some sh ∧
      fresh = some fr ∧ l < h ∧ incLimit = none ∧ e =
        { inUse, station, field, kind, gain := some g, offset := some o, low := l, high := h, shift := some sh,
          fresh := fr, incLimit := none } := by
  simp only [scaledPoint, Option.bind_eq_bind, Option.bind_eq_some_iff, Option.ite_none_right_eq_some,
    Option.some.injEq]
  constructor
  · rintro ⟨g, hg, o, ho, l, hl, h, hh, sh, hsh, fr, hfr, ⟨hlt, hnone⟩, rfl⟩
    exact ⟨g, o, l, h, sh, fr, hg, ho, hl, hh, hsh, hfr, hlt, hnone, rfl⟩
  · rintro ⟨g, o, l, h, sh, fr, hg, ho, hl, hh, hsh, hfr, hlt, hnone, rfl⟩
    exact ⟨g, hg, o, ho, l, hl, h, hh, sh, hsh, fr, hfr, ⟨hlt, hnone⟩, rfl⟩

/-- R24: a counter or a flag word has the range of its word, and a counter its increment limit. -/
theorem wordPoint_iff {inUse : Bool} {station field : Nat} {kind : RawKind} {low high : Option Int}
    {fresh incLimit : Option Nat} {e : PointEntry} :
    wordPoint inUse station field kind low high fresh incLimit = some e ↔
    ∃ fr, fresh = some fr ∧ low.all (· == 0) = true ∧ high.all (· == 65535) = true ∧
      incLimit.isSome = (kind == .counter16) ∧ e =
        { inUse, station, field, kind, gain := none, offset := none, low := 0, high := 65535, shift := none,
          fresh := fr, incLimit } := by
  simp only [wordPoint, Option.bind_eq_bind, Option.bind_eq_some_iff, Option.ite_none_right_eq_some,
    Option.some.injEq, Bool.and_eq_true, beq_iff_eq]
  constructor
  · rintro ⟨fr, hfr, ⟨⟨hlow, hhigh⟩, hinc⟩, rfl⟩
    exact ⟨fr, hfr, hlow, hhigh, hinc, rfl⟩
  · rintro ⟨fr, hfr, hlow, hhigh, hinc, rfl⟩
    exact ⟨fr, hfr, ⟨⟨hlow, hhigh⟩, hinc⟩, rfl⟩

/-- R24: what the fields of a scaled point say. -/
def ScaledFields (is : List Item) (e : PointEntry) : Prop :=
  (∃ gain, e.gain = some gain ∧ IntField is 5 gain (-32768) 32767) ∧
    (∃ offset, e.offset = some offset ∧ IntField is 6 offset (-2147483648) 2147483647) ∧
    IntField is 7 e.low (-2147483648) 2147483647 ∧ IntField is 8 e.high (-2147483648) 2147483647 ∧
    e.low < e.high ∧ (∃ shift, e.shift = some shift ∧ IntField is 9 shift 0 7) ∧ e.incLimit = none ∧ NoField is 11

/-- R24: what the fields of a counter or a flag word say. -/
def WordFields (is : List Item) (e : PointEntry) : Prop :=
  e.gain = none ∧ e.offset = none ∧ e.low = 0 ∧ e.high = 65535 ∧ e.shift = none ∧
    (∃ x, OptField is 5 x (-32768) 32767) ∧ (∃ x, OptField is 6 x (-2147483648) 2147483647) ∧
    (∃ x, OptField is 7 x 0 0) ∧ (∃ x, OptField is 8 x 65535 65535) ∧ (∃ x, OptField is 9 x 0 7)

/-- R24: a point's fields, scaled or not. -/
theorem buildPoint_split (is : List Item) (e : PointEntry) : buildPoint is = some e ↔ FlagField is 1 e.inUse ∧
    IntField is 2 e.station 1 60 ∧ IntField is 3 e.field 0 7 ∧
    (∃ n, enumOf is 4 = some n ∧ rawKinds[n]? = some e.kind) ∧ IntField is 10 e.fresh 1 255 ∧
    ((e.kind.scaled = true ∧ ScaledFields is e) ∨ (e.kind.scaled = false ∧ WordFields is e ∧
      OptField is 11 (e.incLimit.map fun n : Nat => (n : Int)) 1 65535 ∧
      e.incLimit.isSome = (e.kind == .counter16))) := by
  simp only [buildPoint, Option.bind_eq_bind, Option.bind_eq_some_iff, needFlag_iff, needNat_iff, needName_iff, opt_iff]
  constructor
  · rintro ⟨inUse, hin, station, hstation, field, hfield, kind, hkind, gain, hgain, offset, hoffset, low, hlow, high,
      hhigh, shift, hshift, fresh, hfresh, limit, hlimit, hpoint⟩
    by_cases hscaled : kind.scaled = true
    · rw [if_pos hscaled, scaledPoint_iff] at hpoint
      obtain ⟨g, o, l, h, sh, fr, rfl, rfl, rfl, rfl, rfl, rfl, hlt, rfl, rfl⟩ := hpoint
      exact ⟨hin, hstation, hfield, hkind, optNat_iff.1 hfresh, .inl ⟨hscaled, ⟨g, rfl, hgain⟩, ⟨o, rfl, hoffset⟩, hlow,
        hhigh, hlt, ⟨sh, rfl, optNat_iff.1 hshift⟩, rfl, optNat_iff.1 hlimit⟩⟩
    · rw [if_neg hscaled, wordPoint_iff] at hpoint
      obtain ⟨fr, rfl, hzero, htop, hcounter, rfl⟩ := hpoint
      exact ⟨hin, hstation, hfield, hkind, optNat_iff.1 hfresh, .inr ⟨Bool.eq_false_of_not_eq_true hscaled,
        ⟨rfl, rfl, rfl, rfl, rfl, ⟨gain, hgain⟩, ⟨offset, hoffset⟩,
          ⟨low, (optField_pinned (by decide) (by decide)).2 ⟨hlow, hzero⟩⟩,
          ⟨high, (optField_pinned (by decide) (by decide)).2 ⟨hhigh, htop⟩⟩, exists_optNat_iff.1 ⟨shift, hshift⟩⟩,
        optNat_map_iff.1 hlimit, hcounter⟩⟩
  · rintro ⟨hin, hstation, hfield, hkind, hfresh, hfields⟩
    refine ⟨_, hin, _, hstation, _, hfield, _, hkind, ?_⟩
    rcases hfields with ⟨hscaled, ⟨g, hg, hgain⟩, ⟨o, ho, hoffset⟩, hlow, hhigh, hlt, ⟨sh, hsh, hshift⟩, hnone,
        hlimit⟩ |
      ⟨hscaled, ⟨hg, ho, hl, hh, hsh, ⟨gain, hgain⟩, ⟨offset, hoffset⟩, ⟨low, hlow⟩, ⟨high, hhigh⟩, hshift⟩, hlimit,
        hcounter⟩
    · refine ⟨some g, hgain, some o, hoffset, some e.low, hlow, some e.high, hhigh, some sh, optNat_iff.2 hshift,
        some e.fresh, optNat_iff.2 hfresh, none, optNat_iff.2 hlimit, ?_⟩
      rw [if_pos hscaled, scaledPoint_iff]
      refine ⟨g, o, e.low, e.high, sh, e.fresh, rfl, rfl, rfl, rfl, rfl, rfl, hlt, rfl, ?_⟩
      rw [← hg, ← ho, ← hsh, ← hnone]
    · obtain ⟨shift, hshift⟩ := exists_optNat_iff.2 hshift
      obtain ⟨hlow, hzero⟩ := (optField_pinned (lo := int32Low) (hi := int32High) (by decide) (by decide)).1 hlow
      obtain ⟨hhigh, htop⟩ := (optField_pinned (lo := int32Low) (hi := int32High) (by decide) (by decide)).1 hhigh
      refine ⟨gain, hgain, offset, hoffset, low, hlow, high, hhigh, shift, hshift, some e.fresh, optNat_iff.2 hfresh,
        e.incLimit, optNat_map_iff.2 hlimit, ?_⟩
      rw [if_neg (Bool.eq_false_iff.1 hscaled), wordPoint_iff]
      refine ⟨e.fresh, rfl, hzero, htop, hcounter, ?_⟩
      cases e
      simp only at hg ho hl hh hsh
      rw [hg, ho, hl, hh, hsh]

/-- R24: the same by kinds: only a counter has an increment limit. -/
theorem buildPoint_iff (is : List Item) (e : PointEntry) : buildPoint is = some e ↔ FlagField is 1 e.inUse ∧
    IntField is 2 e.station 1 60 ∧ IntField is 3 e.field 0 7 ∧
    (∃ n, enumOf is 4 = some n ∧ rawKinds[n]? = some e.kind) ∧ IntField is 10 e.fresh 1 255 ∧
    (e.kind = .u12 ∨ e.kind = .u16 ∨ e.kind = .s16 → ScaledFields is e) ∧
    (e.kind = .counter16 ∨ e.kind = .flags16 → WordFields is e) ∧
    (e.kind = .counter16 → ∃ limit, e.incLimit = some limit ∧ IntField is 11 limit 1 65535) ∧
    (e.kind = .flags16 → e.incLimit = none ∧ NoField is 11) := by
  rw [buildPoint_split]
  refine and_congr_right' (and_congr_right' (and_congr_right' (and_congr_right' (and_congr_right' ?_))))
  cases hk : e.kind with
  | u12 => simp [RawKind.scaled]
  | u16 => simp [RawKind.scaled]
  | s16 => simp [RawKind.scaled]
  | counter16 => cases hl : e.incLimit <;> simp [RawKind.scaled, OptField]
  | flags16 => cases hl : e.incLimit <;> simp [RawKind.scaled, OptField]

/-! ### Fuel lines (R65) -/

/-- R65: what a CONTINUOUS and a PIECE line share. -/
theorem buildMetering_iff (is : List Item) (m : Metering) : buildMetering is = some m ↔ MeteringFields is m := by
  simp only [buildMetering, MeteringFields, Option.bind_eq_bind, Option.bind_eq_some_iff, needNat_iff,
    needObject_zero_iff, Option.pure_def, Option.some.injEq]
  constructor
  · rintro ⟨counter, hcounter, cv, hcv, weight, hweight, priority, hpriority, fmin, hfmin, fmax, hfmax, ramp, hramp,
      rfl⟩
    exact ⟨hcounter, hcv, hweight, hpriority, hfmin, hfmax, hramp⟩
  · rintro ⟨hcounter, hcv, hweight, hpriority, hfmin, hfmax, hramp⟩
    exact ⟨_, hcounter, _, hcv, _, hweight, _, hpriority, _, hfmin, _, hfmax, _, hramp, rfl⟩

/-- R65: the fields of a line's kind, and none of another's. -/
def LineKindFields (is : List Item) : LineKind → Prop
  | .continuous m tolerance window => enumOf is 2 = some 0 ∧ MeteringFields is m ∧ IntField is 16 tolerance 1 100 ∧
      IntField is 17 window 5 300 ∧ NoField is 14 ∧ NoField is 15
  | .piece m mass gap => enumOf is 2 = some 1 ∧ MeteringFields is m ∧ IntField is 14 mass 1 200 ∧
      IntField is 15 gap 1000 600000 ∧ m.fmax ≤ mass * 3600000 / gap ∧ NoField is 16 ∧ NoField is 17
  | .ignition => enumOf is 2 = some 2 ∧ NoField is 5 ∧ ∀ t, 8 ≤ t → t ≤ 17 → NoField is t

/-- The tags that a metered line has are those that an IGNITION line has not. -/
theorem meteredTags_iff {is : List Item} : (∀ t ∈ [5, 8, 9, 10, 11, 12, 13, 14, 15, 16, 17], NoField is t) ↔
    NoField is 5 ∧ ∀ t, 8 ≤ t → t ≤ 17 → NoField is t := by
  constructor
  · intro h
    refine ⟨h 5 (by simp), fun t hlo hhi => h t ?_⟩
    interval_cases t <;> decide
  · rintro ⟨h5, h⟩ t ht
    rcases List.mem_cons.1 ht with rfl | ht
    · exact h5
    · have hrange : ∀ t ∈ [8, 9, 10, 11, 12, 13, 14, 15, 16, 17], 8 ≤ t ∧ t ≤ 17 := by decide
      exact h t (hrange t ht).1 (hrange t ht).2

theorem buildLineKind_iff (is : List Item) (k : LineKind) : buildLineKind is = some k ↔ LineKindFields is k := by
  constructor
  · intro h
    unfold buildLineKind at h
    split at h
    case h_1 hcode =>
      simp only [Option.bind_eq_bind, Option.bind_eq_some_iff, buildMetering_iff, needNat_iff,
        Option.ite_none_right_eq_some, Option.some.injEq, noneGiven_iff, List.forall_mem_cons] at h
      obtain ⟨m, hm, tolerance, htol, window, hwin, ⟨hno14, hno15, -⟩, rfl⟩ := h
      exact ⟨hcode, hm, htol, hwin, hno14, hno15⟩
    case h_2 hcode =>
      simp only [Option.bind_eq_bind, Option.bind_eq_some_iff, buildMetering_iff, needNat_iff, Bool.and_eq_true,
        Option.ite_none_right_eq_some, Option.some.injEq, noneGiven_iff, List.forall_mem_cons, decide_eq_true_eq] at h
      obtain ⟨m, hm, mass, hmass, gap, hgap, ⟨⟨hno16, hno17, -⟩, hle⟩, rfl⟩ := h
      exact ⟨hcode, hm, hmass, hgap, hle, hno16, hno17⟩
    case h_3 hcode =>
      simp only [Option.ite_none_right_eq_some, Option.some.injEq, noneGiven_iff] at h
      obtain ⟨hnone, rfl⟩ := h
      exact ⟨hcode, meteredTags_iff.1 hnone⟩
    case h_4 => cases h
  · intro h
    unfold buildLineKind
    cases k with
    | continuous m tolerance window =>
      obtain ⟨hcode, hm, htol, hwin, hno14, hno15⟩ := h
      simp only [hcode, Option.bind_eq_bind, Option.bind_eq_some_iff, buildMetering_iff, needNat_iff,
        Option.ite_none_right_eq_some, Option.some.injEq, noneGiven_iff, List.forall_mem_cons]
      exact ⟨m, hm, tolerance, htol, window, hwin, ⟨hno14, hno15, List.forall_mem_nil _⟩, rfl⟩
    | piece m mass gap =>
      obtain ⟨hcode, hm, hmass, hgap, hle, hno16, hno17⟩ := h
      simp only [hcode, Option.bind_eq_bind, Option.bind_eq_some_iff, buildMetering_iff, needNat_iff, Bool.and_eq_true,
        Option.ite_none_right_eq_some, Option.some.injEq, noneGiven_iff, List.forall_mem_cons, decide_eq_true_eq]
      exact ⟨m, hm, mass, hmass, gap, hgap, ⟨⟨hno16, hno17, List.forall_mem_nil _⟩, hle⟩, rfl⟩
    | ignition =>
      obtain ⟨hcode, hnone⟩ := h
      simp only [hcode]
      exact if_pos (noneGiven_iff.2 (meteredTags_iff.2 hnone))

/-- R65: a fuel line. -/
theorem buildLine_iff (is : List Item) (e : LineEntry) : buildLine is = some e ↔ FlagField is 1 e.inUse ∧
    ObjectField is 3 1 e.burner ∧ IntField is 4 e.station 1 60 ∧ ObjectField is 6 0 e.flagPoint ∧
    IntField is 7 e.flagBit 0 15 ∧ IntField is 18 e.absenceLimit 1 255 ∧ IntField is 19 e.refresh 1 255 ∧
    LineKindFields is e.kind := by
  simp only [buildLine, Option.bind_eq_bind, Option.bind_eq_some_iff, needFlag_iff, needNat_iff, buildLineKind_iff,
    needObject_zero_iff, needObject_one_iff, Option.pure_def, Option.some.injEq]
  constructor
  · rintro ⟨inUse, hin, kind, hkind, burner, hburner, station, hstation, point, hpoint, bit, hbit, limit, hlimit,
      refresh, hrefresh, rfl⟩
    exact ⟨hin, hburner, hstation, hpoint, hbit, hlimit, hrefresh, hkind⟩
  · rintro ⟨hin, hburner, hstation, hpoint, hbit, hlimit, hrefresh, hkind⟩
    exact ⟨_, hin, _, hkind, _, hburner, _, hstation, _, hpoint, _, hbit, _, hlimit, _, hrefresh, rfl⟩

end Sys2Proof.Machine
end

section
/-!
PROOFS. The entry that a write spells, continued: burners with their permissives, and alarms with their source and
action records.
-/
namespace Sys2Proof.Machine

/-! ### Burners (R42) -/

/-- A step of a builder that reads field after field. -/
theorem doStep_eq_some_iff {α β : Type} {x : Option α} {f : α → Option β} {b : β} :
    (x >>= f) = some b ↔ ∃ a, x = some a ∧ f a = some b := Option.bind_eq_some_iff

/-- A list is built where each of its elements is. -/
theorem mapM_eq_some_iff {α β : Type} {f : α → Option β} : ∀ {xs : List α} {ys : List β},
    xs.mapM f = some ys ↔ List.Forall₂ (fun x y => f x = some y) xs ys
  | [], ys => by
    rw [List.mapM_nil, List.forall₂_nil_left_iff, Option.pure_def, Option.some.injEq, eq_comm]
  | x :: xs, ys => by
    simp only [List.mapM_cons, Option.bind_eq_bind, Option.bind_eq_some_iff, Option.pure_def, Option.some.injEq,
      mapM_eq_some_iff, List.forall₂_cons_left_iff]
    constructor
    · rintro ⟨y, hy, ys, hys, rfl⟩
      exact ⟨y, ys, hy, hys, rfl⟩
    · rintro ⟨y, ys, hy, hys, rfl⟩
      exact ⟨y, hy, ys, hys, rfl⟩

/-- Table 3-2: a permissive. -/
theorem buildPermissive_iff (is : List Item) (p : Permissive) :
    buildPermissive is = some p ↔ PermissiveFields is p := by
  simp only [buildPermissive, Option.bind_eq_bind, Option.bind_eq_some_iff, needFlag_iff, optObject_zero_iff, opt_iff]
  constructor
  · rintro ⟨kind, hkind, point, hpoint, threshold, hthreshold, running, hrunning, h⟩
    split at h
    case h_1 | h_2 | h_3 =>
      obtain rfl := Option.some.inj h
      exact ⟨hrunning, hkind, hpoint, hthreshold⟩
    case h_4 => cases h
  · rintro ⟨hrunning, h⟩
    obtain ⟨kind, running⟩ := p
    cases kind with
    | pointAtLeast x v =>
      obtain ⟨hkind, hpoint, hthreshold⟩ := h
      exact ⟨0, hkind, some x, hpoint, some v, hthreshold, running, hrunning, rfl⟩
    | pointAtMost x v =>
      obtain ⟨hkind, hpoint, hthreshold⟩ := h
      exact ⟨1, hkind, some x, hpoint, some v, hthreshold, running, hrunning, rfl⟩
    | coolerRunning =>
      obtain ⟨hkind, hpoint, hthreshold⟩ := h
      exact ⟨2, hkind, none, hpoint, none, hthreshold, running, hrunning, rfl⟩

/-- R42: the ignition of a burner is a line, or a point with its threshold. -/
theorem buildIgnition_iff {line : Option (Fin 6)} {point : Option (Fin 256)} {threshold : Option Int} {x : Ignition} :
    buildIgnition line point threshold = some x ↔
    match x with
    | .line l => line = some l ∧ point = none ∧ threshold = none
    | .selfPoint p v => line = none ∧ point = some p ∧ threshold = some v := by
  constructor
  · intro h
    unfold buildIgnition at h
    split at h
    case h_1 | h_2 => obtain rfl := Option.some.inj h; exact ⟨rfl, rfl, rfl⟩
    case h_3 => cases h
  · intro h
    cases x with
    | line l => obtain ⟨rfl, rfl, rfl⟩ := h; rfl
    | selfPoint p v => obtain ⟨rfl, rfl, rfl⟩ := h; rfl

/-- R42: a second scanner has both its points. -/
theorem buildScanner2_iff {intensity flicker : Option (Fin 256)} {x : Option Scanner} :
    buildScanner2 intensity flicker = some x ↔
    intensity = x.map (fun y => y.intensity) ∧ flicker = x.map (fun y => y.flicker) := by
  constructor
  · intro h
    unfold buildScanner2 at h
    split at h
    case h_1 | h_2 => obtain rfl := Option.some.inj h; exact ⟨rfl, rfl⟩
    case h_3 => cases h
  · rintro ⟨rfl, rfl⟩
    cases x <;> rfl

/-- Table 3-1: the votes, ANY and ALL. -/
theorem votes_iff {is : List Item} {t : Nat} {v : Vote} : (∃ n, enumOf is t = some n ∧ votes[n]? = some v) ↔
    enumOf is t = some (if v = .any then 0 else 1) := by
  constructor
  · rintro ⟨n, hn, hv⟩
    match n, hv with
    | 0, hv => obtain rfl := Option.some.inj hv; exact hn
    | 1, hv => obtain rfl := Option.some.inj hv; exact hn
  · intro h
    refine ⟨_, h, ?_⟩
    cases v <;> rfl

/-- R42: what the fields of a burner ask of one another. -/
theorem BurnerEntry.coherent_iff (e : BurnerEntry) : e.coherent = true ↔ e.offThreshold < e.onThreshold ∧
    e.flickerLow ≤ e.flickerHigh ∧ e.permissives.length ≤ 6 ∧
    (e.ignition.isSelf = true → e.ignitionTrial < e.lightoffTime) := by
  simp only [BurnerEntry.coherent, Bool.and_eq_true, decide_eq_true_eq, Bool.or_eq_true, Bool.not_eq_true', and_assoc,
    ← Bool.not_eq_true, ← imp_iff_not_or]

/-- Tags 4 and 5 of a burner entry: the second scanner. -/
def Scanner2Fields (is : List Item) (x : Option Scanner) : Prop :=
  match x with
  | some x => ObjectField is 4 0 x.intensity ∧ ObjectField is 5 0 x.flicker
  | none => NoField is 4 ∧ NoField is 5

/-- Tags 17 to 19 of a burner entry: how it lights its fuel. -/
def IgnitionFields (is : List Item) (e : BurnerEntry) : Prop :=
  match e.ignition with
  | .line l => ObjectField is 17 1 l ∧ NoField is 18 ∧ NoField is 19
  | .selfPoint p v => NoField is 17 ∧ ObjectField is 18 0 p ∧ IntField is 19 v 0 2000 ∧
      e.ignitionTrial < e.lightoffTime

/-- The second scanner reads where its two fields do. -/
theorem exists_scanner2_iff {is : List Item} {x : Option Scanner} : Scanner2Fields is x ↔
    OptObjectField is 4 0 (x.map fun y => y.intensity) ∧ OptObjectField is 5 0 (x.map fun y => y.flicker) := by
  cases x <;> rfl

/-- Tag 22 of a burner entry: its permissives, in their order. -/
def PermissiveRecords (is : List Item) (ps : List Permissive) : Prop :=
  ∃ records, (valueOf is 22).getD (.records []) = .records records ∧
    List.Forall₂ (fun bs p => PermissiveFields (innerItems bs) p) records ps

theorem permissiveRecords_iff {is : List Item} {ps : List Permissive} : PermissiveRecords is ps ↔
    ∃ reads, optRecords is 22 = some reads ∧ reads.mapM buildPermissive = some ps := by
  simp only [PermissiveRecords, optRecords_iff, mapM_eq_some_iff, buildPermissive_iff]
  constructor
  · rintro ⟨records, hrecords, hall⟩
    exact ⟨_, ⟨records, hrecords, rfl⟩, List.forall₂_map_left_iff.2 hall⟩
  · rintro ⟨_, ⟨records, hrecords, rfl⟩, hall⟩
    exact ⟨records, hrecords, List.forall₂_map_left_iff.1 hall⟩

/-- R42: a burner. -/
theorem buildBurner_iff (is : List Item) (e : BurnerEntry) : buildBurner is = some e ↔ FlagField is 1 e.inUse ∧
    ObjectField is 2 0 e.scanner1.intensity ∧ ObjectField is 3 0 e.scanner1.flicker ∧ Scanner2Fields is e.scanner2 ∧
    IntField is 6 e.onThreshold (-2147483648) 2147483647 ∧ IntField is 7 e.offThreshold (-2147483648) 2147483647 ∧
    e.offThreshold < e.onThreshold ∧ IntField is 8 e.flickerLow 0 1000 ∧ IntField is 9 e.flickerHigh 0 1000 ∧
    e.flickerLow ≤ e.flickerHigh ∧ enumOf is 10 = some (if e.vote = .any then 0 else 1) ∧
    IntField is 11 e.confirmCount 1 8 ∧ IntField is 12 e.failureCount 1 8 ∧ IntField is 13 e.purgeTime 30 900 ∧
    IntField is 14 e.ignitionTrial 3 15 ∧ IntField is 15 e.lightoffTime 5 120 ∧ IntField is 16 e.lightoffFeed 1 60000 ∧
    IgnitionFields is e ∧ IntField is 20 e.maxDemand 1 150000 ∧ IntField is 21 e.demandRamp 1 20000 ∧
    e.permissives.length ≤ 6 ∧ PermissiveRecords is e.permissives := by
  simp only [buildBurner, ↓doStep_eq_some_iff, Option.ite_none_right_eq_some, Option.some.injEq, needFlag_iff,
      needObject_zero_iff, optObject_zero_iff, optObject_one_iff, need_iff, needNat_iff,
    needName_iff, votes_iff, opt_iff, buildScanner2_iff, buildIgnition_iff]
  constructor
  · rintro ⟨inUse, hin, intensity1, hi1, flicker1, hf1, intensity2, hi2, flicker2, hf2, scanner2, ⟨rfl, rfl⟩, on, hon,
      off, hoff, low, hlow, high, hhigh, vote, hvote, confirm, hconfirm, failure, hfailure, purge, hpurge, trial,
      htrial, lightoff, hlightoff, feed, hfeed, line, hline, point, hpoint, threshold, hthreshold, ignition, hignition,
      demand, hdemand, ramp, hramp, records, hrecords, permissives, hpermissives, hcoherent, rfl⟩
    obtain ⟨hthresholds, hflicker, hlen, hself⟩ := (BurnerEntry.coherent_iff _).1 hcoherent
    refine ⟨hin, hi1, hf1, exists_scanner2_iff.2 ⟨hi2, hf2⟩, hon, hoff, hthresholds, hlow, hhigh, hflicker, hvote,
      hconfirm, hfailure, hpurge, htrial, hlightoff, hfeed, ?_, hdemand, hramp, hlen,
      permissiveRecords_iff.2 ⟨records, hrecords, hpermissives⟩⟩
    cases ignition with
    | line l => obtain ⟨rfl, rfl, rfl⟩ := hignition; exact ⟨hline, hpoint, hthreshold⟩
    | selfPoint p v =>
      obtain ⟨rfl, rfl, rfl⟩ := hignition
      exact ⟨hline, hpoint, hthreshold, hself rfl⟩
  · rintro ⟨hin, hi1, hf1, hscanner2, hon, hoff, hthresholds, hlow, hhigh, hflicker, hvote, hconfirm, hfailure, hpurge,
      htrial, hlightoff, hfeed, hignition, hdemand, hramp, hlen, hpermissives⟩
    obtain ⟨hi2, hf2⟩ := exists_scanner2_iff.1 hscanner2
    obtain ⟨records, hrecords, hbuilt⟩ := permissiveRecords_iff.1 hpermissives
    have hlight : ∃ line, OptObjectField is 17 1 line ∧ ∃ point, OptObjectField is 18 0 point ∧ ∃ threshold,
        OptField is 19 threshold 0 2000 ∧ buildIgnition line point threshold = some e.ignition ∧
        (e.ignition.isSelf = true → e.ignitionTrial < e.lightoffTime) := by
      unfold IgnitionFields at hignition
      cases hk : e.ignition with
      | line l =>
        rw [hk] at hignition
        obtain ⟨hline, hpoint, hthreshold⟩ := hignition
        exact ⟨some l, hline, none, hpoint, none, hthreshold, rfl, fun h => nomatch h⟩
      | selfPoint p v =>
        rw [hk] at hignition
        obtain ⟨hline, hpoint, hthreshold, hself⟩ := hignition
        exact ⟨none, hline, some p, hpoint, some v, hthreshold, rfl, fun _ => hself⟩
    obtain ⟨line, hline, point, hpoint, threshold, hthreshold, hbuild, hself⟩ := hlight
    exact ⟨_, hin, _, hi1, _, hf1, _, hi2, _, hf2, _, ⟨rfl, rfl⟩, _, hon, _, hoff, _, hlow, _, hhigh, _, hvote, _,
      hconfirm, _, hfailure, _, hpurge, _, htrial, _, hlightoff, _, hfeed, _, hline, _, hpoint, _, hthreshold, _,
      buildIgnition_iff.1 hbuild, _, hdemand, _, hramp, _, hrecords, _, hbuilt,
      (BurnerEntry.coherent_iff e).2 ⟨hthresholds, hflicker, hlen, hself⟩, rfl⟩

/-! ### Alarms (R119) -/

/-- Table 7-4: a code with the number of its object spells an internal condition. -/
theorem conditionFields_of_build {is : List Item} {c : Condition} (h : buildCondition is = some c) :
    ConditionFields is c := by
  unfold buildCondition at h
  split at h
  case h_1 hcode | h_2 hcode | h_3 hcode | h_4 hcode | h_5 hcode | h_6 hcode | h_7 hcode | h_8 hcode | h_12 hcode |
      h_13 hcode =>
    obtain ⟨x, hx, rfl⟩ := needObject_one_map h
    exact ⟨hcode, hx⟩
  case h_9 hcode | h_11 hcode | h_14 hcode | h_15 hcode =>
    obtain ⟨hnone, rfl⟩ := ite_given_eq_some h
    exact ⟨hcode, hnone⟩
  case h_10 hcode =>
    obtain ⟨x, hx, rfl⟩ := Option.map_eq_some_iff.1 h
    obtain ⟨n, hn, hlink⟩ := Option.bind_eq_some_iff.1 hx
    match n, hlink with
    | 0, hlink => obtain rfl := Option.some.inj hlink; exact ⟨hcode, hn⟩
    | 1, hlink => obtain rfl := Option.some.inj hlink; exact ⟨hcode, hn⟩
  case h_16 hcode =>
    obtain ⟨x, hx, rfl⟩ := needObject_zero_map h
    exact ⟨hcode, hx⟩
  case h_17 => cases h

/-- Table 7-4: an internal condition is spelled by its code and the number of its object. -/
theorem build_of_conditionFields {is : List Item} {c : Condition} (h : ConditionFields is c) :
    buildCondition is = some c := by
  unfold buildCondition
  cases c
  case pointImplausible p =>
    obtain ⟨hcode, hx⟩ := h
    simp only [hcode, needObject_zero_iff.2 hx, Option.map_some]
  case lineFailed x =>
    obtain ⟨hcode, hx⟩ := h
    simp only [hcode, hx, Option.bind_some]
    cases x <;> rfl
  case coolerSafe | quorumLost | commandOverrun | plantSilent =>
    obtain ⟨hcode, hnone⟩ := h
    simp only [hcode, given_false.2 hnone, Bool.false_eq_true, if_false]
  all_goals
    obtain ⟨hcode, hx⟩ := h
    simp only [hcode, needObject_one_iff.2 hx, Option.map_some]

/-- Table 7-2: the source record of an alarm, with its limit and deadband. -/
theorem buildSource_iff {is src : List Item} {c : AlarmSource} : SourceFields is src c ↔
    ∃ limit deadband, OptField is 3 limit int32Low int32High ∧ OptField is 4 deadband 0 int32High ∧
      buildSource src limit deadband = some c := by
  constructor
  · intro h
    cases c with
    | pointHigh p h d =>
      obtain ⟨hcode, hp, h3, h4, hlimit, hband⟩ := h
      have hnone : noneGiven src [3, 4] = true := noneGiven_iff.2 (by simp [h3, h4])
      refine ⟨some h, some d, hlimit, hband, ?_⟩
      simp only [buildSource, hcode, hnone, if_true, needObject_zero_iff.2 hp, Option.map_some]
    | pointLow p h d =>
      obtain ⟨hcode, hp, h3, h4, hlimit, hband⟩ := h
      have hnone : noneGiven src [3, 4] = true := noneGiven_iff.2 (by simp [h3, h4])
      refine ⟨some h, some d, hlimit, hband, ?_⟩
      simp only [buildSource, hcode, hnone, if_true, needObject_zero_iff.2 hp, Option.map_some]
    | pointQuality p =>
      obtain ⟨hcode, hp, h3, h4, hlimit, hband⟩ := h
      have hnone : noneGiven src [3, 4] = true := noneGiven_iff.2 (by simp [h3, h4])
      refine ⟨none, none, hlimit, hband, ?_⟩
      simp only [buildSource, hcode, hnone, if_true, needObject_zero_iff.2 hp, Option.map_some]
    | internal c =>
      obtain ⟨hcode, h2, hc, hlimit, hband⟩ := h
      refine ⟨none, none, hlimit, hband, ?_⟩
      simp only [buildSource, hcode, given_false.2 h2, Bool.false_eq_true, if_false, build_of_conditionFields hc,
        Option.map_some]
  · rintro ⟨limit, deadband, hlimit, hband, h⟩
    unfold buildSource at h
    split at h
    case h_1 hcode | h_2 hcode | h_3 hcode =>
      obtain ⟨hnone, hc⟩ := Option.ite_none_right_eq_some.1 h
      obtain ⟨p, hp, rfl⟩ := needObject_zero_map hc
      have hnone := noneGiven_iff.1 hnone
      exact ⟨hcode, hp, hnone 3 (by simp), hnone 4 (by simp), hlimit, hband⟩
    case h_4 hcode =>
      obtain ⟨hgiven, hc⟩ := Option.ite_none_left_eq_some.1 h
      obtain ⟨c, hbuild, rfl⟩ := Option.map_eq_some_iff.1 hc
      exact ⟨hcode, given_false.1 (Bool.eq_false_of_not_eq_true hgiven), conditionFields_of_build hbuild, hlimit, hband⟩
    case h_5 => cases h

/-- Table 7-3: the action record of an alarm. -/
theorem buildAlarmAction_iff {is : List Item} {a : AlarmAction} : buildAlarmAction is = some a ↔ ActionFields is a := by
  constructor
  · intro h
    unfold buildAlarmAction at h
    split at h
    case h_1 hcode | h_5 hcode =>
      obtain ⟨hnone, rfl⟩ := ite_given_eq_some h
      exact ⟨hcode, hnone⟩
    case h_2 hcode | h_3 hcode | h_4 hcode =>
      obtain ⟨x, hx, rfl⟩ := needObject_one_map h
      exact ⟨hcode, hx⟩
    case h_6 => cases h
  · intro h
    unfold buildAlarmAction
    cases a
    case none | coolerSafe =>
      obtain ⟨hcode, hnone⟩ := h
      simp only [hcode, given_false.2 hnone, Bool.false_eq_true, if_false]
    all_goals
      obtain ⟨hcode, hx⟩ := h
      simp only [hcode, needObject_one_iff.2 hx, Option.map_some]

/-- R119: an alarm. -/
theorem buildAlarm_iff (is : List Item) (e : AlarmEntry) : buildAlarm is = some e ↔ FlagField is 1 e.inUse ∧
    IntField is 5 e.priority 1 4 ∧ IntField is 6 e.onDelay 0 600000 ∧ FlagField is 8 e.horn ∧ FlagField is 9 e.trip ∧
    OptObjectField is 10 0 e.parent ∧ OptObjectField is 11 1 e.group ∧ FlagField is 12 e.shelving ∧
    ∃ source action, valueOf is 2 = some (.record source) ∧ valueOf is 7 = some (.record action) ∧
      SourceFields is (innerItems source) e.source ∧ ActionFields (innerItems action) e.action := by
  simp only [buildAlarm, ↓doStep_eq_some_iff, Option.pure_def, Option.some.injEq,
    needFlag_iff, needRecord_iff, opt_iff, needNat_iff, buildAlarmAction_iff, optObject_zero_iff, optObject_one_iff]
  constructor
  · rintro ⟨inUse, hin, _, ⟨source, hsource, rfl⟩, limit, hlimit, band, hband, src, hsrc, priority, hpriority, delay,
      hdelay, _, ⟨action, haction, rfl⟩, act, hact, horn, hhorn, trip, htrip, parent, hparent, group, hgroup, shelving,
      hshelving, rfl⟩
    exact ⟨hin, hpriority, hdelay, hhorn, htrip, hparent, hgroup, hshelving, source, action, hsource, haction,
      buildSource_iff.2 ⟨limit, band, hlimit, hband, hsrc⟩, hact⟩
  · rintro ⟨hin, hpriority, hdelay, hhorn, htrip, hparent, hgroup, hshelving, source, action, hsource, haction, hsrc,
      hact⟩
    obtain ⟨limit, band, hlimit, hband, hsrc⟩ := buildSource_iff.1 hsrc
    exact ⟨_, hin, _, ⟨source, hsource, rfl⟩, limit, hlimit, band, hband, _, hsrc, _, hpriority, _, hdelay, _,
      ⟨action, haction, rfl⟩, _, hact, _, hhorn, _, htrip, _, hparent, _, hgroup, _, hshelving, rfl⟩

end Sys2Proof.Machine
end

section
/-!
PROOFS. Refused writes and clears (section 1.6, log entry 18), and what the checks of a write ask of the rest of the
part (R25, R42, R43, R65, R66, R90, R114, R119, R120).
-/
namespace Sys2Proof.Machine

variable (s : State)

/-! ### Points and burners -/

/-- R35: an in-use burner names the point. -/
theorem State.isScannerPoint_iff (p : Fin 256) : s.isScannerPoint p = true ↔ ∃ b x y, s.burnerEntry? b = some x ∧
    (y = x.scanner1 ∨ x.scanner2 = some y) ∧ (y.intensity = p ∨ y.flicker = p) := by
  simp only [State.isScannerPoint, any_indices_iff, State.namesScanner_iff]

/-- R25: a burner not in OFF names the point. -/
theorem State.scannerPointBusy_iff (p : Fin 256) : s.scannerPointBusy p = true ↔ ∃ b x y, s.burnerEntry? b = some x ∧
    (y = x.scanner1 ∨ x.scanner2 = some y) ∧ (y.intensity = p ∨ y.flicker = p) ∧ (s.burners[b]).state ≠ .off := by
  simp only [State.scannerPointBusy, any_indices_iff, Bool.and_eq_true, State.namesScanner_iff, bne_iff_ne,
    ← exists_and_right, and_assoc]

/-- R25: a write that would take the point from its scanner. -/
theorem keepsScanner_false_iff (old : Option PointEntry) (e : PointEntry) : keepsScanner old e = false ↔
    e.inUse = false ∨ e.kind.scaled = false ∨ ∃ y, old = some y ∧ y.station ≠ e.station := by
  cases old with
  | none => cases hin : e.inUse <;> simp [keepsScanner, hin]
  | some y => cases hin : e.inUse <;> cases hscaled : e.kind.scaled <;> simp [keepsScanner, hin, hscaled]

theorem State.pointWriteBusy_iff (p : Fin 256) (e : PointEntry) : s.pointWriteBusy p e = true ↔
    (∃ b x y, s.burnerEntry? b = some x ∧ (y = x.scanner1 ∨ x.scanner2 = some y) ∧
      (y.intensity = p ∨ y.flicker = p) ∧ (s.burners[b]).state ≠ .off) ∨
    (s.isScannerPoint p = true ∧ (e.inUse = false ∨ e.kind.scaled = false ∨
      ∃ y, (s.points[p]).entry = some y ∧ y.station ≠ e.station)) := by
  rw [State.pointWriteBusy, Bool.or_eq_true, s.scannerPointBusy_iff, Bool.and_eq_true, Bool.not_eq_true',
    keepsScanner_false_iff]

/-- R42: tag 17 names an in-use IGNITION line of the burner. -/
theorem State.ignitionValid_iff (b : Fin 3) (x : Ignition) : s.ignitionValid b x = true ↔
    ∀ l, x = .line l → ∃ e, s.lineEntry? l = some e ∧ e.burner = b ∧ e.kind = .ignition := by
  cases x with
  | selfPoint p v => simp [State.ignitionValid]
  | line l =>
    have hline : s.ignitionValid b (.line l) = (s.lineOf b l && (s.lineEntry? l).any fun e => !e.kind.isMetered) := rfl
    rw [hline]
    cases h : s.lineEntry? l with
    | none => simp [h]
    | some e => simp [s.lineOf_some h, h, LineKind.isMetered_false]

theorem State.burnerValid_iff (b : Fin 3) (e : BurnerEntry) : s.burnerValid b e = true ↔
    (∀ x, x = e.scanner1 ∨ e.scanner2 = some x → ∃ i f, s.pointEntry? x.intensity = some i ∧
      s.pointEntry? x.flicker = some f ∧ i.kind.scaled = true ∧ f.kind.scaled = true ∧ i.station = f.station ∧
      s.onQuickList i.station = true) ∧
    (∀ l, e.ignition = .line l → ∃ le, s.lineEntry? l = some le ∧ le.burner = b ∧ le.kind = .ignition) := by
  rw [State.burnerValid, Bool.and_eq_true, Bool.and_eq_true, s.ignitionValid_iff, option_all_iff, forall_scanners]
  simp only [State.scannerValid_iff]

/-- R42, R43: a burner not in OFF, or a scanner point forced. -/
theorem State.burnerBusy_iff (b : Fin 3) (e : BurnerEntry) : s.burnerBusy b e = true ↔
    (s.burners[b]).state ≠ .off ∨ ∃ x, (x = e.scanner1 ∨ e.scanner2 = some x) ∧
      ((s.points[x.intensity]).quality = .forced ∨ (s.points[x.flicker]).quality = .forced) := by
  simp only [State.burnerBusy, State.scannerForced, Bool.or_eq_true, bne_iff_ne, beq_iff_eq, Option.any_eq_true,
    or_and_right, exists_or, exists_eq_left, or_assoc]

/-! ### Fuel lines -/

theorem State.counterValid_iff (k : LineKind) : s.counterValid k = true ↔
    ∀ m, k.metering? = some m → ∃ p, s.pointEntry? m.counter = some p ∧ p.kind = .counter16 := by
  simp only [State.counterValid, option_all_iff, State.kindInUse_iff]

theorem State.lineValid_iff (l : Fin 6) (e : LineEntry) : s.lineValid l e = true ↔
    (∃ p, s.pointEntry? e.flagPoint = some p ∧ p.kind = .flags16) ∧
    (∀ m, e.kind.metering? = some m → ∃ p, s.pointEntry? m.counter = some p ∧ p.kind = .counter16) ∧
    ∀ k x, k ≠ l → s.lineEntry? k = some x → x.station ≠ e.station ∧
      ∀ m m', e.kind.metering? = some m → x.kind.metering? = some m' → x.burner = e.burner →
        m.priority ≠ m'.priority := by
  rw [State.lineValid, Bool.and_eq_true, Bool.and_eq_true, State.kindInUse_iff, s.counterValid_iff,
    Bool.not_eq_true', State.lineClash_iff, and_assoc]

theorem State.lineBusy_iff (l : Fin 6) : s.lineBusy l = true ↔ s.lineEntry? l ≠ none ∧ (s.lines[l]).state ≠ .out := by
  rw [State.lineBusy, Bool.and_eq_true, bne_iff_ne, Option.isSome_iff_ne_none]

/-! ### Cooler, filters and alarms -/

/-- No other object in use has the station. -/
theorem noneOther_iff {n : Nat} {E : Type} (i : Fin n) (entry : Fin n → Option E) (p : E → Bool) :
    (!(indices n).any fun j => j != i && (entry j).any p) = true ↔
      ∀ j x, j ≠ i → entry j = some x → p x = false := by
  rw [Bool.not_eq_true', ← Bool.not_eq_true, any_indices_iff]
  simp only [Bool.and_eq_true, bne_iff_ne, Option.any_eq_true, not_exists, not_and, Bool.not_eq_true]
  exact ⟨fun h j x hj hx => h j hj x hx, fun h j hj x hx => h j x hj hx⟩

theorem State.runValid_iff (g : Fin 4) (e : RunEntry) : s.runValid g e = true ↔
    (∃ p, s.pointEntry? e.counter = some p ∧ p.kind = .counter16) ∧
    (∃ p, s.pointEntry? e.pressure = some p ∧ p.kind.scaled = true) ∧
    ∀ k x, k ≠ g → s.runEntry? k = some x → x.station ≠ e.station := by
  rw [State.runValid, Bool.and_eq_true, Bool.and_eq_true, State.kindInUse_iff, State.scaledInUse_iff, and_assoc,
    noneOther_iff]
  simp only [beq_eq_false_iff_ne]

theorem State.runBusy_iff (g : Fin 4) : s.runBusy g = true ↔
    s.cooler.state ≠ .stopped ∨ 0 < (s.cooler.runs[g]).waiting := by
  rw [State.runBusy, Bool.or_eq_true, bne_iff_ne, decide_eq_true_eq]
  rfl

theorem State.compartmentValid_iff (k : Fin 12) (e : CompartmentEntry) : s.compartmentValid k e = true ↔
    ∀ j x, j ≠ k → s.compartmentEntry? j = some x → x.station ≠ e.station := by
  rw [State.compartmentValid, noneOther_iff]
  simp only [beq_eq_false_iff_ne]

theorem State.coolerBusy_iff : s.coolerBusy = true ↔ s.cooler.state ≠ .stopped := bne_iff_ne

theorem State.zoneValid_iff (z : Fin 8) (e : ZoneEntry) : s.zoneValid z e = true ↔
    ∃ p, s.pointEntry? e.point = some p ∧ p.kind.scaled = true := State.scaledInUse_iff

/-- R114: at most one in-use filter for a station and kind. -/
theorem State.filterValid_iff (i : Fin 32) (e : FilterEntry) : s.filterValid i e = true ↔ (e.inUse = true →
    ∀ (j : Fin 32) x, j ≠ i → s.filters[j] = some x → x.inUse = true → x.station = e.station → x.kind ≠ e.kind) := by
  cases hin : e.inUse with
  | false => simp [State.filterValid, hin]
  | true =>
    have hother : s.filterValid i e = !(indices 32).any fun j => j != i && (s.filters[j]).any fun x =>
        x.inUse && x.station == e.station && x.kind == e.kind := by rw [State.filterValid, hin, Bool.true_and]
    rw [hother, noneOther_iff]
    simp only [forall_true_left, ← Bool.not_eq_true, Bool.and_eq_true, beq_iff_eq, not_and, and_imp, ne_eq]

/-- R119: the parents of an alarm lead never to the alarm itself. -/
theorem State.alarmValid_iff (a : Fin 192) (e : AlarmEntry) (next : Option (Fin 192) → Option (Fin 192))
    (hnext : ∀ p, next p = p.bind fun p => (s.alarm.alarms[p]).entry.bind (·.parent)) :
    s.alarmValid a e = true ↔ ∀ n < 192, next^[n] e.parent ≠ some a := by
  have hnone : ∀ n, next^[n] none = none := fun n => Function.iterate_fixed (hnext none) n
  cases hp : e.parent with
  | none => simp [State.alarmValid, hp, hnone]
  | some p =>
    have hvalid : s.alarmValid a e = !s.chainMeets a 192 p := by simp [State.alarmValid, hp]
    rw [hvalid, Bool.not_eq_true', ← Bool.not_eq_true, State.chainMeets_iff a next hnext]
    push Not
    rfl

/-- R120: an active priority-1 alarm that targets a burner not in OFF. -/
theorem State.alarmBusy_iff (a : Fin 192) : s.alarmBusy a = true ↔ ∃ e, s.alarmEntry? a = some e ∧ e.priority = 1 ∧
    ((s.alarm.alarms[a]).state = .raised ∨ (s.alarm.alarms[a]).state = .held ∨
      (s.alarm.alarms[a]).state = .suppressed) ∧
    ∃ b : Fin 3, (e.action = .tripBurner b ∨ e.action = .holdFuel b) ∧ (s.burners[b]).state ≠ .off := by
  simp only [State.alarmBusy, Option.any_eq_true, Bool.and_eq_true, AlarmState.active_iff, beq_iff_eq, any_indices_iff,
    AlarmAction.targets_iff, bne_iff_ne]
  refine exists_congr fun e => and_congr_right' ?_
  exact ⟨fun ⟨⟨hactive, hone⟩, htarget⟩ => ⟨hone, hactive, htarget⟩,
    fun ⟨hone, hactive, htarget⟩ => ⟨⟨hactive, hone⟩, htarget⟩⟩

/-! ### The round table -/

/-- R3: what the pending copy refuses: the active copy is not written, and an entry that spells no table is INVALID. -/
theorem writeRound_refused :
    (∀ is, roundTable.write s 1 is = (s, { result := .notPermitted })) ∧
    roundTable.clear s 1 = (s, { result := .notPermitted }) ∧
    (∀ n is, 1 < n → roundTable.write s n is = (s, { result := .badIndex })) ∧
    (∀ n, 1 < n → roundTable.clear s n = (s, { result := .badIndex })) ∧
    (∀ is, entryTakes roundFields is = false ∨ buildRound is = none →
      roundTable.write s 0 is = (s, { result := .invalid })) := by
  have hpending : Table.Refuses
      { fields := roundFields
        write := fun s n => writeAt 1 0 s n roundFields buildRound (fun _ _ => true) (fun _ _ => false)
          fun _ t => setPending s (some t)
        clear := fun s n => clearAt 1 0 s n (fun _ => false) fun _ => setPending s none
        read := readRound } s 1 0 buildRound (fun _ _ => true) (fun _ _ => false) (fun _ => false) :=
    Table.refuses_of (fun _ _ => rfl) fun _ => rfl
  refine ⟨fun _ => rfl, rfl, fun n is h => ?_, fun n h => ?_, fun is h => ?_⟩
  · exact (if_neg h.ne').trans (hpending.writeIndex n is (.inr h.le))
  · exact (if_neg h.ne').trans (hpending.clearIndex n (.inr h.le))
  · exact hpending.fields 0 is h

/-! ### The obligation -/

/-- Settles O15: the tables refuse as one writer and one clearer do; what each field asks is read off its builder, and
what the rest of the part must be off each check. -/
theorem entryWritesRefused : Obligations.EntryWritesRefused := by
  unfold Obligations.EntryWritesRefused
  refine ⟨?refused, ⟨entrySuits_iff, fun is v names => ⟨SimpleKind.suits_int is v, SimpleKind.suits_enum is v names,
      SimpleKind.suits_instanceNo is v⟩, ?suits⟩,
      ⟨entryTakes_iff, fun names n xs i => ⟨rfl, ?enum, rfl⟩, ?takes, ?fields⟩,
    fun is => ⟨buildRound_iff is, buildCompartment_iff is, buildZone_iff is, buildFilter_iff is, buildGroup_iff is,
      buildPlan_iff is, buildDigest_iff is⟩,
    fun is => ⟨buildPoint_iff is, buildLine_iff is, buildRun_iff is⟩,
    fun is => ⟨buildBurner_iff is, buildAlarm_iff is, fun bs read => innerItems_of⟩,
    fun s => ⟨s.pointWriteBusy_iff, s.isScannerPoint_iff, s.burnerValid_iff, s.burnerBusy_iff, s.lineValid_iff,
      s.lineBusy_iff, s.runValid_iff, s.runBusy_iff, s.compartmentValid_iff, s.coolerBusy_iff, s.zoneValid_iff,
      s.filterValid_iff, s.alarmValid_iff, s.alarmBusy_iff, RawKind.scaled_iff⟩⟩
  case refused =>
    intro s
    obtain ⟨hwrite, hclear, hindex, hcleared, hinvalid⟩ := writeRound_refused s
    refine ⟨hwrite, hclear, hindex, hcleared, hinvalid, ?_, ?_, ?_, ?_, ?_, ?_, ?_, ?_, ?_, ?_, ?_⟩
    all_goals exact Table.refuses_of (fun _ _ => rfl) fun _ => rfl
  case suits =>
    intro v k fields suit hsuit
    have hrecord : ∀ bs, recordSuits fields (innerItems bs) = true ↔ suit bs := fun bs =>
      (recordSuits_innerItems fields bs).trans (hsuit bs).symm
    simp only [FieldKind.suits_ints, FieldKind.suits_record, FieldKind.suits_records, hrecord]
    exact ⟨rfl, trivial, trivial, trivial⟩
  case enum => exact decide_eq_true_iff
  case takes =>
    intro fields bs rs take htake
    have hrecord : ∀ bs, (itemsOf bs).isSome → (recordTakes fields (innerItems bs) = true ↔ take bs) := fun bs h =>
      (recordTakes_innerItems fields h).trans (htake bs).symm
    refine ⟨hrecord bs, fun h => ?_⟩
    have hall : (FieldKind.records fields).takes (.records rs) = true ↔
        ∀ r ∈ rs, recordTakes fields (innerItems r) = true := List.all_eq_true
    rw [hall]
    exact forall₂_congr fun r hr => hrecord r (h r hr)
  case fields =>
    rintro source action permissive rfl rfl rfl
    exact ⟨rfl, rfl, rfl, rfl, rfl, rfl, rfl, rfl, rfl, rfl, rfl, rfl⟩

end Sys2Proof.Machine
end

section
/-!
PROOFS. An entry read back (R166, R167): the items that READ_ENTRY sends of an entry decode, fit the fields of the
table, and spell the entry again, field by field.
-/
namespace Sys2Proof.Machine

/-! ### Items that fit their fields -/

/-- The bytes decode to items of which each bears a known tag, with a value that suits its field and is taken. -/
structure Spells (fields : List FieldKind) (bs : List Byte) (read : List Item) : Prop where
  reads : itemsOf bs = some read
  fits : ∀ i ∈ read, ∃ k, fieldOf fields i.tag = some k ∧ k.suits i.value = true ∧ k.takes i.value = true

section spells

variable {fields : List FieldKind} {a b : List Byte} {x y : List Item} {t : Nat}

theorem Spells.append (ha : Spells fields a x) (hb : Spells fields b y) : Spells fields (a ++ b) (x ++ y) where
  reads := itemsOf_append_some ha.reads hb.reads
  fits := List.forall_mem_append.2 ⟨ha.fits, hb.fits⟩

/-- Nothing is spelled by nothing. -/
theorem Spells.none : Spells fields [] [] := ⟨itemsOf_nil, List.forall_mem_nil _⟩

/-- One item, which decodes and fits. -/
theorem Spells.single {v : Value} {k : FieldKind} (h : itemsOf a = some [{ tag := t, value := v }])
    (hfield : fieldOf fields t = some k) (hsuits : k.suits v = true) (htakes : k.takes v = true) :
    Spells fields a [{ tag := t, value := v }] where
  reads := h
  fits := List.forall_mem_singleton.2 ⟨k, hfield, hsuits, htakes⟩

/-- An integer within a range that Table 10-2 has an encoding for. -/
theorem Spells.int {is : List Item} {i lo hi : Int} (h : IntField is t i lo hi)
    (hfield : fieldOf fields t = some (.simple .int) := by rfl) (ht : t < 256 := by decide)
    (hlo : -2147483648 ≤ lo := by decide) (hhi : hi < 2 ^ 64 := by decide) :
    Spells fields (itemInt t i) [{ tag := t, value := .int i }] :=
  .single (itemsOf_itemInt ht (hlo.trans h.2.1) (h.2.2.trans_lt hhi)) hfield rfl rfl

/-- A natural within such a range. -/
theorem Spells.nat {is : List Item} {n : Nat} {lo hi : Int} (h : IntField is t n lo hi)
    (hfield : fieldOf fields t = some (.simple .int) := by rfl) (ht : t < 256 := by decide)
    (hlo : -2147483648 ≤ lo := by decide) (hhi : hi < 2 ^ 64 := by decide) :
    Spells fields (itemNat t n) [{ tag := t, value := .int n }] := Spells.int h hfield ht hlo hhi

/-- A truth value is 0 or 1. -/
theorem Spells.flag (t : Nat) (v : Bool) (hfield : fieldOf fields t = some (.simple .int) := by rfl)
    (ht : t < 256 := by decide) : Spells fields (itemBool t v) [{ tag := t, value := .int v.toNat }] := by
  have htruth : itemBool t v = itemInt t v.toNat := by cases v <;> rfl
  have hv : v.toNat ≤ 1 := Bool.toNat_le v
  rw [htruth]
  exact .single (itemsOf_itemInt ht (by omega) (by omega)) hfield rfl rfl

theorem itemsOf_itemObject {n base : Nat} (x : Fin n) (ht : t < 256) (hn : n + base < 2 ^ 64) :
    itemsOf (itemObject t base x) = some [{ tag := t, value := .int (x.val + base : Nat) }] :=
  itemsOf_itemInt ht (by omega) (by omega)

/-- An object's number. -/
theorem Spells.object (t : Nat) {n : Nat} (base : Nat) (x : Fin n)
    (hfield : fieldOf fields t = some (.simple .int) := by rfl)
    (ht : t < 256 := by decide) (hn : n + base < 2 ^ 64 := by decide) :
    Spells fields (itemObject t base x) [{ tag := t, value := .int (x.val + base : Nat) }] :=
  .single (itemsOf_itemObject x ht hn) hfield rfl rfl

/-- An enumerator within the names of its field. -/
theorem Spells.enum (t names : Nat) {n : Nat} (hn : n < names) (hnames : names ≤ 256 := by decide)
    (hfield : fieldOf fields t = some (enumField names) := by rfl) (ht : t < 256 := by decide) :
    Spells fields (itemEnum t n) [{ tag := t, value := .enum n }] :=
  .single (itemsOf_itemEnum ht (hn.trans_le hnames)) hfield rfl (decide_eq_true hn)

/-- A list of words. -/
theorem Spells.ints (t : Nat) {xs : List Int} (hlen : xs.length < 256) (h : ∀ x ∈ xs, -32768 ≤ x ∧ x ≤ 32767)
    (hfield : fieldOf fields t = some .ints := by rfl) (ht : t < 256 := by decide) :
    Spells fields (itemInts t xs) [{ tag := t, value := .ints xs }] :=
  .single (itemsOf_itemInts ht hlen h) hfield rfl rfl

end spells

/-- Where the items of every entry that some write spells fit the table, no two with one tag, and spell that entry, what
the table reads is that entry again. -/
theorem roundTrips_of {E : Type} {fields : List FieldKind} {build : List Item → Option E} {items : E → List Byte}
    (h : ∀ e is, build is = some e → ∃ read, Spells fields (items e) read ∧ noTagTwice read = true ∧
      build read = some e) : RoundTrips fields build items := by
  intro e is hbuild
  obtain ⟨read, hspells, hnodup, hread⟩ := h e is hbuild
  refine ⟨read, hspells.reads, ?_, ?_, hread⟩
  · refine List.all_eq_true.2 fun i hi => ?_
    obtain ⟨k, hk, hsuits, -⟩ := hspells.fits i hi
    rw [hk, Option.all_some, hsuits]
  · refine Bool.and_eq_true_iff.2 ⟨hnodup, List.all_eq_true.2 fun i hi => ?_⟩
    obtain ⟨k, hk, -, htakes⟩ := hspells.fits i hi
    rw [hk, Option.any_some, htakes]

/-- A list of numbers in ascending bounds keeps within a word. -/
theorem forall_ofNat_word {ns : List Nat} {hi : Nat} (h : ∀ n ∈ ns, n ≤ hi) (hhi : hi ≤ 32767 := by decide) :
    ∀ x ∈ ofNats ns, -32768 ≤ x ∧ x ≤ 32767 :=
  List.forall_mem_map.2 fun n hn => by have := h n hn; simp only [Int.ofNat_eq_natCast]; omega

/-! ### The tables without records -/

/-- R3: a round table, whose empty quick list is held as an absent one (log entry 24). -/
theorem round_roundTrips : RoundTrips roundFields buildRound RoundTable.items := by
  refine roundTrips_of fun t is h => ?_
  obtain ⟨-, hor, hol, hol', -, hqr, hql, hgap, hperiod, hslots, hquorum, hwindow⟩ := (buildRound_iff is t).1 h
  have hordinary : Spells roundFields (itemInts 1 (ofNats t.ordinary))
      [{ tag := 1, value := .ints (ofNats t.ordinary) }] :=
    .ints 1 (by rw [ofNats, List.length_map]; omega) (forall_ofNat_word fun x hx => (hor x hx).2)
  have hquick : ∃ q, Spells roundFields (itemOptInts 2 (ofNats t.quick)) q ∧
      (q = [] ∧ t.quick = [] ∨ q = [{ tag := 2, value := .ints (ofNats t.quick) }]) := by
    cases hq : t.quick with
    | nil => exact ⟨[], .none, .inl ⟨rfl, rfl⟩⟩
    | cons n ns =>
      rw [← hq]
      refine ⟨_, ?_, .inr rfl⟩
      have hsome : itemOptInts 2 (ofNats t.quick) = itemInts 2 (ofNats t.quick) := by rw [hq]; rfl
      rw [hsome]
      exact .ints 2 (by rw [ofNats, List.length_map]; omega) (forall_ofNat_word fun x hx => (hqr x hx).2)
  obtain ⟨q, hquick, hq⟩ := hquick
  have hspells := (((((hordinary.append hquick).append (.nat hgap)).append (.nat hperiod)).append (.nat hslots)).append
    (.nat hquorum)).append (.nat hwindow)
  rcases hq with ⟨rfl, hempty⟩ | rfl
  · simp only [List.cons_append, List.nil_append] at hspells
    exact ⟨_, hspells, rfl, (buildRound_iff _ t).2
        ⟨rfl, hor, hol, hol', by rw [hempty]; rfl, hqr, hql, ⟨rfl, hgap.2⟩, ⟨rfl, hperiod.2⟩,
      ⟨rfl, hslots.2⟩, ⟨rfl, hquorum.2⟩, ⟨rfl, hwindow.2⟩⟩⟩
  · simp only [List.cons_append, List.nil_append] at hspells
    exact ⟨_, hspells, rfl, (buildRound_iff _ t).2 ⟨rfl, hor, hol, hol', rfl, hqr, hql, ⟨rfl, hgap.2⟩, ⟨rfl, hperiod.2⟩,
      ⟨rfl, hslots.2⟩, ⟨rfl, hquorum.2⟩, ⟨rfl, hwindow.2⟩⟩⟩

/-- R24: a point by its kind. -/
theorem point_roundTrips : RoundTrips pointFields buildPoint PointEntry.items := by
  refine roundTrips_of fun e is h => ?_
  obtain ⟨-, hstation, hfield, -, hfresh, hscaled, hword, hcounter, hflags⟩ := (buildPoint_iff is e).1 h
  have hkind : Spells pointFields (itemName 4 rawKinds e.kind)
      [{ tag := 4, value := .enum (nameCode rawKinds e.kind) }] :=
    .enum 4 5 (by cases e.kind <;> decide)
  have hname : rawKinds[nameCode rawKinds e.kind]? = some e.kind := by cases e.kind <;> rfl
  have hhead := (((Spells.flag 1 e.inUse).append (.nat hstation)).append (.nat hfield)).append hkind
  obtain ⟨inUse, station, field, kind, gain, offset, low, high, shift, fresh, incLimit⟩ := e
  cases hk : kind.scaled with
  | true =>
    have hk := (RawKind.scaled_iff kind).1 hk
    obtain ⟨⟨gain, rfl, hgain⟩, ⟨offset, rfl, hoffset⟩, hlow, hhigh, hlt, ⟨shift, rfl, hshift⟩, rfl, -⟩ := hscaled hk
    have hspells := ((((((hhead.append (.int hgain)).append (.int hoffset)).append (.int hlow)).append
      (.int hhigh)).append (.nat hshift)).append (.nat hfresh)).append .none
    simp only [List.cons_append, List.nil_append] at hspells
    exact ⟨_, hspells, rfl, (buildPoint_split _ _).2 ⟨rfl, ⟨rfl, hstation.2⟩,
        ⟨rfl, hfield.2⟩, ⟨_, rfl, hname⟩, ⟨rfl, hfresh.2⟩,
        .inl ⟨(RawKind.scaled_iff kind).2 hk, ⟨gain, rfl, rfl, hgain.2⟩,
          ⟨offset, rfl, rfl, hoffset.2⟩, ⟨rfl, hlow.2⟩, ⟨rfl, hhigh.2⟩, hlt, ⟨shift, rfl, rfl, hshift.2⟩, rfl, rfl⟩⟩⟩
  | false =>
    have hk := (RawKind.not_scaled_iff kind).1 hk
    obtain ⟨rfl, rfl, rfl, rfl, rfl, -⟩ := hword hk
    have hlow : Spells pointFields (itemInt 7 0) [{ tag := 7, value := .int 0 }] :=
      .single (itemsOf_itemInt (by decide) (by decide) (by decide)) rfl rfl rfl
    have hhigh : Spells pointFields (itemInt 8 65535) [{ tag := 8, value := .int 65535 }] :=
      .single (itemsOf_itemInt (by decide) (by decide) (by decide)) rfl rfl rfl
    have hbody := (((((hhead.append .none).append .none).append hlow).append hhigh).append .none).append (.nat hfresh)
    rcases hk with rfl | rfl
    · obtain ⟨limit, rfl, hlimit⟩ := hcounter rfl
      have hspells := hbody.append (.nat hlimit)
      simp only [List.cons_append, List.nil_append] at hspells
      exact ⟨_, hspells, rfl, (buildPoint_split _ _).2 ⟨rfl, ⟨rfl, hstation.2⟩, ⟨rfl, hfield.2⟩,
        ⟨_, rfl, hname⟩, ⟨rfl, hfresh.2⟩, .inr ⟨rfl, ⟨rfl, rfl, rfl, rfl, rfl, ⟨none, rfl⟩, ⟨none, rfl⟩,
          ⟨some 0, rfl, le_refl _, le_refl _⟩, ⟨some 65535, rfl, le_refl _, le_refl _⟩, ⟨none, rfl⟩⟩, ⟨rfl, hlimit.2⟩,
          rfl⟩⟩⟩
    · obtain ⟨rfl, -⟩ := hflags rfl
      have hspells := hbody.append .none
      simp only [List.cons_append, List.nil_append] at hspells
      exact ⟨_, hspells, rfl, (buildPoint_split _ _).2 ⟨rfl, ⟨rfl, hstation.2⟩, ⟨rfl, hfield.2⟩,
        ⟨_, rfl, hname⟩, ⟨rfl, hfresh.2⟩, .inr ⟨rfl, ⟨rfl, rfl, rfl, rfl, rfl, ⟨none, rfl⟩, ⟨none, rfl⟩,
          ⟨some 0, rfl, le_refl _, le_refl _⟩, ⟨some 65535, rfl, le_refl _, le_refl _⟩, ⟨none, rfl⟩⟩, rfl, rfl⟩⟩⟩

/-- R65: what every fuel line spells before its metering fields. -/
theorem LineEntry.head_spells {is : List Item} {e : LineEntry} (hstation : IntField is 4 e.station 1 60) :
    Spells lineFields (itemBool 1 e.inUse ++ itemEnum 2 e.kind.code ++ itemObject 3 1 e.burner ++ itemNat 4 e.station)
      [{ tag := 1, value := .int e.inUse.toNat }, { tag := 2, value := .enum e.kind.code },
        { tag := 3, value := .int (e.burner.val + 1 : Nat) }, { tag := 4, value := .int e.station }] := by
  have hcode : e.kind.code < 3 := by unfold LineKind.code; split <;> decide
  exact (((Spells.flag 1 e.inUse).append (.enum 2 3 hcode)).append (.object 3 1 e.burner)).append (.nat hstation)

/-- R65: what the metering fields spell. -/
theorem Metering.spells {is : List Item} {m : Metering} (h : MeteringFields is m) :
    Spells lineFields m.items
      [{ tag := 8, value := .int m.cv }, { tag := 9, value := .int m.weight }, { tag := 10, value := .int m.priority },
        { tag := 11, value := .int m.fmin }, { tag := 12, value := .int m.fmax },
        { tag := 13, value := .int m.ramp }] := by
  obtain ⟨-, hcv, hweight, hpriority, hfmin, hfmax, hramp⟩ := h
  exact (((((Spells.nat hcv).append (.nat hweight)).append (.nat hpriority)).append (.nat hfmin)).append
    (.nat hfmax (hlo := by omega))).append (.nat hramp)

/-- R65: what a CONTINUOUS line spells. -/
theorem continuous_read {is : List Item} {e : LineEntry} {m : Metering} {tolerance window : Nat}
    (h : buildLine is = some e) (hk : e.kind = .continuous m tolerance window) :
    ∃ read, Spells lineFields e.items read ∧ noTagTwice read = true ∧ buildLine read = some e := by
  obtain ⟨-, -, hstation, -, hbit, hlimit, hrefresh, hkind⟩ := (buildLine_iff is e).1 h
  obtain ⟨inUse, kind, burner, station, point, bit, limit, refresh⟩ := e
  obtain rfl : kind = .continuous m tolerance window := hk
  obtain ⟨-, hm, htol, hwin, -⟩ := hkind
  have hspells := (((((((LineEntry.head_spells hstation).append (.object 5 0 m.counter)).append
    (.object 6 0 point)).append (.nat hbit)).append (Metering.spells hm)).append
    ((Spells.nat htol).append (.nat hwin))).append (.nat hlimit)).append (.nat hrefresh)
  simp only [List.cons_append, List.nil_append] at hspells
  obtain ⟨-, hcv, hweight, hpriority, hfmin, hfmax, hramp⟩ := hm
  exact ⟨_, hspells, rfl, (buildLine_iff _ _).2 ⟨rfl, rfl, ⟨rfl, hstation.2⟩, rfl, ⟨rfl, hbit.2⟩, ⟨rfl, hlimit.2⟩,
    ⟨rfl, hrefresh.2⟩, rfl, ⟨rfl, ⟨rfl, hcv.2⟩, ⟨rfl, hweight.2⟩, ⟨rfl, hpriority.2⟩, ⟨rfl, hfmin.2⟩, ⟨rfl, hfmax.2⟩,
      ⟨rfl, hramp.2⟩⟩, ⟨rfl, htol.2⟩, ⟨rfl, hwin.2⟩, rfl, rfl⟩⟩

/-- R65: what a PIECE line spells. -/
theorem piece_read {is : List Item} {e : LineEntry} {m : Metering} {mass gap : Nat}
    (h : buildLine is = some e) (hk : e.kind = .piece m mass gap) :
    ∃ read, Spells lineFields e.items read ∧ noTagTwice read = true ∧ buildLine read = some e := by
  obtain ⟨-, -, hstation, -, hbit, hlimit, hrefresh, hkind⟩ := (buildLine_iff is e).1 h
  obtain ⟨inUse, kind, burner, station, point, bit, limit, refresh⟩ := e
  obtain rfl : kind = .piece m mass gap := hk
  obtain ⟨-, hm, hmass, hgap, hle, -⟩ := hkind
  have hspells := (((((((LineEntry.head_spells hstation).append (.object 5 0 m.counter)).append
    (.object 6 0 point)).append (.nat hbit)).append (Metering.spells hm)).append
    ((Spells.nat hmass).append (.nat hgap))).append (.nat hlimit)).append (.nat hrefresh)
  simp only [List.cons_append, List.nil_append] at hspells
  obtain ⟨-, hcv, hweight, hpriority, hfmin, hfmax, hramp⟩ := hm
  exact ⟨_, hspells, rfl, (buildLine_iff _ _).2 ⟨rfl, rfl, ⟨rfl, hstation.2⟩, rfl, ⟨rfl, hbit.2⟩, ⟨rfl, hlimit.2⟩,
    ⟨rfl, hrefresh.2⟩, rfl, ⟨rfl, ⟨rfl, hcv.2⟩, ⟨rfl, hweight.2⟩, ⟨rfl, hpriority.2⟩, ⟨rfl, hfmin.2⟩, ⟨rfl, hfmax.2⟩,
      ⟨rfl, hramp.2⟩⟩, ⟨rfl, hmass.2⟩, ⟨rfl, hgap.2⟩, hle, rfl, rfl⟩⟩

/-- R65: what an IGNITION line spells. -/
theorem ignition_read {is : List Item} {e : LineEntry} (h : buildLine is = some e) (hk : e.kind = .ignition) :
    ∃ read, Spells lineFields e.items read ∧ noTagTwice read = true ∧ buildLine read = some e := by
  obtain ⟨-, -, hstation, -, hbit, hlimit, hrefresh, -⟩ := (buildLine_iff is e).1 h
  obtain ⟨inUse, kind, burner, station, point, bit, limit, refresh⟩ := e
  obtain rfl : kind = .ignition := hk
  have hspells := (((((((LineEntry.head_spells hstation).append .none).append (.object 6 0 point)).append
    (.nat hbit)).append .none).append .none).append (.nat hlimit)).append (.nat hrefresh)
  simp only [List.cons_append, List.nil_append] at hspells
  exact ⟨_, hspells, rfl, (buildLine_iff _ _).2 ⟨rfl, rfl, ⟨rfl, hstation.2⟩, rfl, ⟨rfl, hbit.2⟩, ⟨rfl, hlimit.2⟩,
    ⟨rfl, hrefresh.2⟩, rfl, meteredTags_iff.1 (noneGiven_iff.1 rfl)⟩⟩

/-- R65: a fuel line by its kind. -/
theorem line_roundTrips : RoundTrips lineFields buildLine LineEntry.items := by
  refine roundTrips_of fun e is h => ?_
  cases hk : e.kind with
  | continuous m tolerance window => exact continuous_read h hk
  | piece m mass gap => exact piece_read h hk
  | ignition => exact ignition_read h hk

/-- R90: a run. -/
theorem run_roundTrips : RoundTrips runFields buildRun RunEntry.items := by
  refine roundTrips_of fun e is h => ?_
  obtain ⟨-, hstation, -, -, hset, hbase, hgain, hlow, hhigh, hsafe, hle, hle', hmass, hfactor⟩ :=
      (buildRun_iff is e).1 h
  have hspells := (((((((((((Spells.flag (fields := runFields) 1 e.inUse).append (.nat hstation)).append
    (.object 3 0 e.counter)).append (.object 4 0 e.pressure)).append (.int hset)).append (.int hbase)).append
    (.int hgain)).append (.nat hlow)).append (.nat hhigh)).append (.nat hsafe)).append (.nat hmass)).append
    (.nat hfactor)
  simp only [List.cons_append, List.nil_append] at hspells
  exact ⟨_, hspells, rfl, (buildRun_iff _ e).2 ⟨rfl, ⟨rfl, hstation.2⟩, rfl, rfl, ⟨rfl, hset.2⟩, ⟨rfl, hbase.2⟩,
      ⟨rfl, hgain.2⟩, ⟨rfl, hlow.2⟩,
      ⟨rfl, hhigh.2⟩, ⟨rfl, hsafe.2⟩, hle, hle', ⟨rfl, hmass.2⟩, ⟨rfl, hfactor.2⟩⟩⟩

/-- R90: a compartment, in a zone or in none. -/
theorem compartment_roundTrips : RoundTrips compartmentFields buildCompartment CompartmentEntry.items := by
  refine roundTrips_of fun e is h => ?_
  obtain ⟨-, hstation, hbase, hsafe, hboost, -⟩ := (buildCompartment_iff is e).1 h
  have hhead := ((((Spells.flag (fields := compartmentFields) 1 e.inUse).append (.nat hstation)).append
    (.nat hbase)).append (.nat hsafe)).append (.nat hboost)
  obtain ⟨inUse, station, base, safe, boost, zone⟩ := e
  cases zone with
  | none =>
    exact ⟨_, hhead.append .none, rfl, (buildCompartment_iff _ _).2 ⟨rfl, ⟨rfl, hstation.2⟩, ⟨rfl, hbase.2⟩,
      ⟨rfl, hsafe.2⟩, ⟨rfl, hboost.2⟩, rfl⟩⟩
  | some z =>
    exact ⟨_, hhead.append (.object 6 1 z), rfl, (buildCompartment_iff _ _).2 ⟨rfl, ⟨rfl, hstation.2⟩, ⟨rfl, hbase.2⟩,
      ⟨rfl, hsafe.2⟩, ⟨rfl, hboost.2⟩, rfl⟩⟩

/-- R90: a zone. -/
theorem zone_roundTrips : RoundTrips zoneFields buildZone ZoneEntry.items := by
  refine roundTrips_of fun e is h => ?_
  obtain ⟨-, -, hdelta, hhyst, hlt, hpersist⟩ := (buildZone_iff is e).1 h
  exact ⟨_, ((((Spells.flag 1 e.inUse).append (.object 2 0 e.point)).append (.int hdelta)).append (.int hhyst)).append
    (.nat hpersist), rfl,
    (buildZone_iff _ e).2 ⟨rfl, rfl, ⟨rfl, hdelta.2⟩, ⟨rfl, hhyst.2⟩, hlt, ⟨rfl, hpersist.2⟩⟩⟩

/-- R114: a filter by its action. -/
theorem filter_roundTrips : RoundTrips filterFields buildFilter FilterEntry.items := by
  refine roundTrips_of fun e is h => ?_
  obtain ⟨-, hstation, -, haction⟩ := (buildFilter_iff is e).1 h
  have hcode : nameCode commandKinds e.kind < 6 := by cases e.kind <;> decide
  have hname : commandKinds[nameCode commandKinds e.kind]? = some e.kind := by cases e.kind <;> rfl
  have hhead := ((Spells.flag (fields := filterFields) 1 e.inUse).append (.nat hstation)).append (.enum 3 6 hcode)
  obtain ⟨inUse, station, kind, action⟩ := e
  cases action with
  | pass =>
    exact ⟨_, hhead.append (.enum 4 3 (n := 0) (by decide)), rfl,
      (buildFilter_iff _ _).2 ⟨rfl, ⟨rfl, hstation.2⟩, ⟨_, rfl, hname⟩, rfl, rfl, rfl⟩⟩
  | clamp lo hi =>
    obtain ⟨-, hlo, hhi, hle⟩ := haction
    exact ⟨_, hhead.append (((Spells.enum 4 3 (n := 1) (by decide)).append (.nat hlo)).append (.nat hhi)), rfl,
      (buildFilter_iff _ _).2 ⟨rfl, ⟨rfl, hstation.2⟩, ⟨_, rfl, hname⟩, rfl, ⟨rfl, hlo.2⟩, ⟨rfl, hhi.2⟩, hle⟩⟩
  | block =>
    exact ⟨_, hhead.append (.enum 4 3 (n := 2) (by decide)), rfl,
      (buildFilter_iff _ _).2 ⟨rfl, ⟨rfl, hstation.2⟩, ⟨_, rfl, hname⟩, rfl, rfl, rfl⟩⟩

/-- R133: a first-out group, whose empty list is held as an absent one. -/
theorem group_roundTrips : RoundTrips groupFields buildGroup GroupEntry.items := by
  refine roundTrips_of fun e is h => ?_
  obtain ⟨-, -, hlen⟩ := (buildGroup_iff is e).1 h
  obtain ⟨inUse, points⟩ := e
  cases points with
  | nil => exact ⟨_, (Spells.flag 1 inUse).append .none, rfl, (buildGroup_iff _ _).2 ⟨rfl, rfl, hlen⟩⟩
  | cons p ps =>
    refine ⟨_, (Spells.flag 1 inUse).append (.ints 2 ?_ ?_), rfl, (buildGroup_iff _ _).2 ⟨rfl, rfl, hlen⟩⟩
    · rw [List.length_map]; exact hlen.trans_lt (by decide)
    · exact List.forall_mem_map.2 fun q _ => by omega

/-- R141: the shift plan. -/
theorem plan_roundTrips : RoundTrips planFields buildPlan planItems := by
  refine roundTrips_of fun plan is h => ?_
  obtain ⟨-, hlen, hlen', hasc, hrange⟩ := (buildPlan_iff is plan).1 h
  refine ⟨_, .ints 1 ?_ (forall_ofNat_word hrange), rfl, (buildPlan_iff _ _).2 ⟨rfl, hlen, hlen', hasc, hrange⟩⟩
  rw [ofNats, List.length_map]
  exact hlen'.trans_lt (by decide)

/-- R161: a digest entry. -/
theorem digest_roundTrips : RoundTrips digestFields buildDigest DigestEntry.items :=
  roundTrips_of fun e _ _ => ⟨_, (Spells.flag 1 e.inUse).append (.object 2 0 e.point), rfl,
    (buildDigest_iff _ e).2 ⟨rfl, rfl⟩⟩

end Sys2Proof.Machine
end

section
/-!
PROOFS. An entry read back, continued (R166, R167): burners with their permissives, alarms with their source and action
records.
-/
namespace Sys2Proof.Machine

/-! ### Records -/

/-- The bytes of a record decode to items that suit its fields and are taken. -/
structure RecordSpells (fields : List SimpleKind) (bs : List Byte) (read : List Item) : Prop where
  short : bs.length < 256
  reads : itemsOf bs = some read
  suits : recordSuits fields read = true
  takes : recordTakes fields read = true

/-- A field that is a record. -/
theorem Spells.record {fields : List FieldKind} {inner : List SimpleKind} {bs : List Byte} {read : List Item} (t : Nat)
    (h : RecordSpells inner bs read) (hfield : fieldOf fields t = some (.record inner) := by rfl)
    (ht : t < 256 := by decide) : Spells fields (itemRecord t bs) [{ tag := t, value := .record bs }] := by
  have hsuits : recordSuits inner (innerItems bs) = true := by rw [innerItems_of h.reads, h.suits]
  have htakes : recordTakes inner (innerItems bs) = true := by rw [innerItems_of h.reads, h.takes]
  exact .single (itemsOf_itemRecord ht h.short h.reads) hfield hsuits htakes

/-- A field that is a list of records. -/
theorem Spells.records {fields : List FieldKind} {inner : List SimpleKind} {rs : List (List Byte)} (t : Nat)
    (hlen : rs.length < 256) (h : ∀ bs ∈ rs, ∃ read, RecordSpells inner bs read)
    (hfield : fieldOf fields t = some (.records inner) := by rfl) (ht : t < 256 := by decide) :
    Spells fields (itemRecords t rs) [{ tag := t, value := .records rs }] := by
  have hreads : ∀ bs ∈ rs, bs.length < 256 ∧ (itemsOf bs).isSome := fun bs hbs => by
    obtain ⟨read, hread⟩ := h bs hbs
    exact ⟨hread.short, by rw [hread.reads]; rfl⟩
  refine .single (itemsOf_itemRecords ht hlen hreads) hfield (List.all_eq_true.2 fun bs hbs => ?_)
    (List.all_eq_true.2 fun bs hbs => ?_)
  · obtain ⟨read, hread⟩ := h bs hbs
    rw [innerItems_of hread.reads, hread.suits]
  · obtain ⟨read, hread⟩ := h bs hbs
    rw [innerItems_of hread.reads, hread.takes]

theorem itemInt_length_le (t : Nat) (i : Int) : (itemInt t i).length ≤ 10 := by
  unfold itemInt
  split_ifs <;> simp [beInt_length]

theorem itemBool_length_le (t : Nat) (b : Bool) : (itemBool t b).length ≤ 10 := itemInt_length_le t _

theorem itemObject_length_le {n : Nat} (t base : Nat) (x : Fin n) : (itemObject t base x).length ≤ 10 :=
  itemInt_length_le t _

theorem itemEnum_length (t n : Nat) : (itemEnum t n).length = 3 := rfl

theorem itemsOf_itemBool (t : Nat) (ht : t < 256) (v : Bool) :
    itemsOf (itemBool t v) = some [{ tag := t, value := .int v.toNat }] := by
  have hv : v.toNat ≤ 1 := Bool.toNat_le v
  have htruth : itemBool t v = itemInt t v.toNat := by cases v <;> rfl
  rw [htruth]
  exact itemsOf_itemInt ht (by omega) (by omega)

/-! ### Burners (R42) -/

/-- Table 3-2: a permissive that compares a point. -/
theorem comparison_reads {n : Nat} (hn : n < 3) (p : Fin 256) {v : Int} (hlo : -2147483648 ≤ v) (hhi : v ≤ 2147483647)
    (running : Bool) :
    itemsOf (itemEnum 1 n ++ itemObject 2 0 p ++ itemInt 3 v ++ itemBool 4 running) =
      some [{ tag := 1, value := .enum n }, { tag := 2, value := .int (p.val + 0 : Nat) },
      { tag := 3, value := .int v },
        { tag := 4, value := .int running.toNat }] ∧
    (itemEnum 1 n ++ itemObject 2 0 p ++ itemInt 3 v ++ itemBool 4 running).length < 256 := by
  refine ⟨itemsOf_append_some (itemsOf_append_some (itemsOf_append_some (itemsOf_itemEnum (by decide) (by omega))
    (itemsOf_itemObject p (by decide) (by decide))) (itemsOf_itemInt (by decide) hlo (by omega)))
    (itemsOf_itemBool 4 (by decide) running), ?_⟩
  have hp := itemObject_length_le 2 0 p
  have hv := itemInt_length_le 3 v
  have hb := itemBool_length_le 4 running
  simp only [List.length_append, itemEnum_length]
  omega

/-- Table 3-2: a permissive. -/
theorem Permissive.reads {is : List Item} {p : Permissive} (h : PermissiveFields is p) :
    ∃ read, RecordSpells permissiveFields p.items read ∧ PermissiveFields read p := by
  obtain ⟨-, hkind⟩ := h
  obtain ⟨kind, running⟩ := p
  cases kind with
  | pointAtLeast x v =>
    obtain ⟨-, -, hv⟩ := hkind
    obtain ⟨hread, hlen⟩ := comparison_reads (n := 0) (by decide) x hv.2.1 hv.2.2 running
    exact ⟨_, ⟨hlen, hread, rfl, rfl⟩, rfl, rfl, rfl, rfl, hv.2⟩
  | pointAtMost x v =>
    obtain ⟨-, -, hv⟩ := hkind
    obtain ⟨hread, hlen⟩ := comparison_reads (n := 1) (by decide) x hv.2.1 hv.2.2 running
    exact ⟨_, ⟨hlen, hread, rfl, rfl⟩, rfl, rfl, rfl, rfl, hv.2⟩
  | coolerRunning =>
    have hread := itemsOf_append_some (itemsOf_itemEnum (t := 1) (n := 2) (by decide) (by decide))
      (itemsOf_itemBool 4 (by decide) running)
    have hlen : (itemEnum 1 2 ++ itemBool 4 running).length < 256 := by
      have hb := itemBool_length_le 4 running
      simp only [List.length_append, itemEnum_length]
      omega
    exact ⟨_, ⟨hlen, hread, rfl, rfl⟩, rfl, rfl, rfl, rfl⟩

/-- Each element on the right has one on the left that it is related to. -/
theorem exists_of_forall₂ {α β : Type} {R : α → β → Prop} {xs : List α} {ys : List β} (h : List.Forall₂ R xs ys) :
    ∀ y ∈ ys, ∃ x, R x y := by
  induction h with
  | nil => exact List.forall_mem_nil _
  | cons hxy _ ih => exact List.forall_mem_cons.2 ⟨⟨_, hxy⟩, ih⟩

/-- Permissive fields are those of any items with the same tag 22. -/
theorem PermissiveRecords.congr {a b : List Item} {ps : List Permissive} (h : PermissiveRecords b ps)
    (h22 : valueOf a 22 = valueOf b 22) : PermissiveRecords a ps := by
  unfold PermissiveRecords at h ⊢
  rwa [h22]

/-- Tag 22: the permissives of a burner, or nothing where it has none. -/
theorem permissives_spells {is : List Item} {ps : List Permissive} (h : PermissiveRecords is ps)
    (hlen : ps.length ≤ 6) :
    ∃ read, Spells burnerFields (if ps.isEmpty then [] else itemRecords 22 (ps.map Permissive.items)) read ∧
      PermissiveRecords read ps ∧ (read = [] ∨ ∃ v, read = [{ tag := 22, value := v }]) := by
  obtain ⟨records, -, hall⟩ := h
  have hreads : ∀ p ∈ ps, ∃ read, RecordSpells permissiveFields p.items read ∧ PermissiveFields read p := fun p hp =>
    let ⟨_, hbs⟩ := exists_of_forall₂ hall p hp
    Permissive.reads hbs
  have hagain : List.Forall₂ (fun bs p => PermissiveFields (innerItems bs) p) (ps.map Permissive.items) ps := by
    refine List.forall₂_map_left_iff.2 (List.forall₂_same.2 fun p hp => ?_)
    obtain ⟨read, hread, hpermissive⟩ := hreads p hp
    rw [innerItems_of hread.reads]
    exact hpermissive
  cases ps with
  | nil => exact ⟨[], .none, ⟨[], rfl, hagain⟩, .inl rfl⟩
  | cons p ps =>
    refine ⟨_, .records 22 ?_ ?_, ⟨_, rfl, hagain⟩, .inr ⟨_, rfl⟩⟩
    · rw [List.length_map]; exact hlen.trans_lt (by decide)
    · exact List.forall_mem_map.2 fun p hp => (hreads p hp).imp fun _ h => h.1

/-- The second scanner's fields are those of any items with the same tags 4 and 5. -/
theorem Scanner2Fields.congr {a b : List Item} {x : Option Scanner} (h : Scanner2Fields b x)
    (h4 : valueOf a 4 = valueOf b 4) (h5 : valueOf a 5 = valueOf b 5) : Scanner2Fields a x := by
  cases x <;> simpa only [Scanner2Fields, NoField, ObjectField, intOf, h4, h5] using h

/-- Tags 4 and 5: the second scanner, or nothing where there is none. -/
theorem scanner2_spells (x : Option Scanner) :
    ∃ read, Spells burnerFields
        (itemOpt (fun x : Scanner => itemObject 4 0 x.intensity ++ itemObject 5 0 x.flicker) x) read ∧
      Scanner2Fields read x ∧ (read = [] ∨ ∃ v w, read = [{ tag := 4, value := v }, { tag := 5, value := w }]) := by
  cases x with
  | none => exact ⟨[], .none, ⟨rfl, rfl⟩, .inl rfl⟩
  | some y =>
    exact ⟨_, (Spells.object 4 0 y.intensity).append (.object 5 0 y.flicker), ⟨rfl, rfl⟩, .inr ⟨_, _, rfl⟩⟩

/-- The ignition fields are those of any items with the same tags 17 to 19. -/
theorem IgnitionFields.congr {a b : List Item} {e : BurnerEntry} (h : IgnitionFields b e)
    (h17 : valueOf a 17 = valueOf b 17) (h18 : valueOf a 18 = valueOf b 18) (h19 : valueOf a 19 = valueOf b 19) :
    IgnitionFields a e := by
  simpa only [IgnitionFields, NoField, ObjectField, IntField, intOf, h17, h18, h19] using h

/-- Tags 17 to 19: how a burner lights its fuel. -/
theorem ignition_spells {is : List Item} {e : BurnerEntry} (h : IgnitionFields is e) :
    ∃ read, Spells burnerFields e.ignition.items read ∧ IgnitionFields read e ∧
      ((∃ v, read = [{ tag := 17, value := v }]) ∨
        ∃ v w, read = [{ tag := 18, value := v }, { tag := 19, value := w }]) := by
  unfold IgnitionFields at h ⊢
  cases hk : e.ignition with
  | line l => exact ⟨_, .object 17 1 l, ⟨rfl, rfl, rfl⟩, .inl ⟨_, rfl⟩⟩
  | selfPoint p v =>
    rw [hk] at h
    obtain ⟨-, -, hv, htrial⟩ := h
    exact ⟨_, (Spells.object 18 0 p).append (.int hv), ⟨rfl, rfl, ⟨rfl, hv.2⟩, htrial⟩, .inr ⟨_, _, rfl⟩⟩

/-- R42: a burner. Each of its optional fields is spelled or left out, as the entry has it. -/
theorem burner_roundTrips : RoundTrips burnerFields buildBurner BurnerEntry.items := by
  refine roundTrips_of fun e is h => ?_
  obtain ⟨-, -, -, -, hon, hoff, hthresholds, hlow, hhigh, hflicker, -, hconfirm, hfailure, hpurge, htrial, hlightoff,
    hfeed, hignition, hdemand, hramp, hlen, hpermissives⟩ := (buildBurner_iff is e).1 h
  have hvote : Spells burnerFields (itemName 10 votes e.vote)
      [{ tag := 10, value := .enum (if e.vote = .any then 0 else 1) }] := by
    have hcode : nameCode votes e.vote = if e.vote = .any then 0 else 1 := by cases e.vote <;> rfl
    rw [itemName, hcode]
    exact .enum 10 2 (by split_ifs <;> decide)
  obtain ⟨second, hsecond, hscanner, hshape⟩ := scanner2_spells e.scanner2
  obtain ⟨light, hlight, hlit, hshape'⟩ := ignition_spells hignition
  obtain ⟨records, hrecords, hagain, hshape''⟩ := permissives_spells hpermissives hlen
  have hspells := (((((((((((((((((((Spells.flag (fields := burnerFields) 1 e.inUse).append
    (.object 2 0 e.scanner1.intensity)).append (.object 3 0 e.scanner1.flicker)).append hsecond).append
    (.int hon)).append (.int hoff)).append (.int hlow)).append (.int hhigh)).append hvote).append
    (.nat hconfirm)).append (.nat hfailure)).append (.nat hpurge)).append (.nat htrial)).append (.nat hlightoff)).append
    (.nat hfeed)).append hlight).append (.nat hdemand)).append (.nat hramp)).append hrecords)
  rcases hshape with rfl | ⟨v4, v5, rfl⟩ <;> rcases hshape' with ⟨v17, rfl⟩ | ⟨v18, v19, rfl⟩ <;>
    rcases hshape'' with rfl | ⟨v22, rfl⟩
  all_goals
    simp only [List.cons_append, List.nil_append] at hspells
    exact ⟨_, hspells, rfl, (buildBurner_iff _ e).2 ⟨rfl, rfl, rfl, hscanner.congr rfl rfl, ⟨rfl, hon.2⟩, ⟨rfl, hoff.2⟩,
      hthresholds, ⟨rfl, hlow.2⟩, ⟨rfl, hhigh.2⟩, hflicker, rfl, ⟨rfl, hconfirm.2⟩, ⟨rfl, hfailure.2⟩, ⟨rfl, hpurge.2⟩,
      ⟨rfl, htrial.2⟩, ⟨rfl, hlightoff.2⟩, ⟨rfl, hfeed.2⟩, hlit.congr rfl rfl rfl, ⟨rfl, hdemand.2⟩, ⟨rfl, hramp.2⟩,
      hlen, hagain.congr rfl⟩⟩

end Sys2Proof.Machine
end

section
/-!
PROOFS. An entry read back, concluded, and the three entry requests (R157, R166, R167).
-/
namespace Sys2Proof.Machine

/-! ### Alarms (R119) -/

/-- Tables 7-2 and 7-4: the source record of an internal condition. -/
theorem Condition.reads (c : Condition) : ∃ read, RecordSpells sourceFields (itemEnum 1 3 ++ c.items) read ∧
    enumOf read 1 = some 3 ∧ NoField read 2 ∧ ConditionFields read c := by
  have hsource : itemsOf (itemEnum 1 3) = some [{ tag := 1, value := .enum 3 }] :=
    itemsOf_itemEnum (by decide) (by decide)
  have hcode (n : Nat) (hn : n < 16) : itemsOf (itemEnum 3 n) = some [{ tag := 3, value := .enum n }] :=
    itemsOf_itemEnum (by decide) (by omega)
  have hshort {n m base : Nat} (x : Fin m) : (itemEnum 1 3 ++ (itemEnum 3 n ++ itemObject 4 base x)).length < 256 := by
    have hx := itemObject_length_le 4 base x
    simp only [List.length_append, itemEnum_length]
    omega
  have hinstance {n m base : Nat} (hn : n < 16) (x : Fin m) (hm : m + base < 2 ^ 64) :
      itemsOf (itemEnum 1 3 ++ (itemEnum 3 n ++ itemObject 4 base x)) = some [{ tag := 1, value := .enum 3 },
        { tag := 3, value := .enum n }, { tag := 4, value := .int (x.val + base : Nat) }] :=
    itemsOf_append_some hsource (itemsOf_append_some (hcode n hn) (itemsOf_itemObject x (by decide) hm))
  cases c
  case coolerSafe | quorumLost | commandOverrun | plantSilent =>
    exact ⟨_, ⟨by decide, itemsOf_append_some hsource (hcode _ (by decide)), rfl, rfl⟩, rfl, rfl, rfl, rfl⟩
  case lineFailed x =>
    cases x
    all_goals exact ⟨_, ⟨by decide, itemsOf_append_some hsource (itemsOf_append_some (hcode _ (by decide))
      (itemsOf_itemEnum (by decide) (by decide))), rfl, rfl⟩, rfl, rfl, rfl, rfl⟩
  all_goals exact ⟨_, ⟨hshort _, hinstance (by decide) _ (by decide), rfl, rfl⟩, rfl, rfl, rfl, rfl⟩

/-- Table 7-2: the source record of a point. -/
theorem pointSource_reads {n : Nat} (hn : n < 3) (p : Fin 256) :
    RecordSpells sourceFields (itemEnum 1 n ++ itemObject 2 0 p)
    [{ tag := 1, value := .enum n }, { tag := 2, value := .int (p.val + 0 : Nat) }] where
  short := by
    have hp := itemObject_length_le 2 0 p
    simp only [List.length_append, itemEnum_length]
    omega
  reads := itemsOf_append_some (itemsOf_itemEnum (by decide) (by omega)) (itemsOf_itemObject p (by decide) (by decide))
  suits := rfl
  takes := by interval_cases n <;> rfl

/-- The source fields are those of any items with the same tags 3 and 4. -/
theorem SourceFields.congr {a b src : List Item} {c : AlarmSource} (h : SourceFields b src c)
    (h3 : valueOf a 3 = valueOf b 3) (h4 : valueOf a 4 = valueOf b 4) : SourceFields a src c := by
  cases c <;> simpa only [SourceFields, NoField, IntField, intOf, h3, h4] using h

/-- Tags 2 to 4: the source of an alarm, with the limit and deadband of a limit alarm. -/
theorem source_spells {is src : List Item} {c : AlarmSource} (h : SourceFields is src c) :
    ∃ bs read, Spells alarmFields c.items read ∧ SourceFields read (innerItems bs) c ∧
      (read = [{ tag := 2, value := .record bs }] ∨
        ∃ v w, read = [{ tag := 2, value := .record bs }, { tag := 3, value := v }, { tag := 4, value := w }]) := by
  cases c with
  | pointHigh p limit band =>
    obtain ⟨-, -, -, -, hlimit, hband⟩ := h
    have hread := pointSource_reads (n := 0) (by decide) p
    refine ⟨_, _, ((Spells.record 2 hread).append (.int hlimit)).append (.int hband), ?_, .inr ⟨_, _, rfl⟩⟩
    rw [innerItems_of hread.reads]
    exact ⟨rfl, rfl, rfl, rfl, ⟨rfl, hlimit.2⟩, ⟨rfl, hband.2⟩⟩
  | pointLow p limit band =>
    obtain ⟨-, -, -, -, hlimit, hband⟩ := h
    have hread := pointSource_reads (n := 1) (by decide) p
    refine ⟨_, _, ((Spells.record 2 hread).append (.int hlimit)).append (.int hband), ?_, .inr ⟨_, _, rfl⟩⟩
    rw [innerItems_of hread.reads]
    exact ⟨rfl, rfl, rfl, rfl, ⟨rfl, hlimit.2⟩, ⟨rfl, hband.2⟩⟩
  | pointQuality p =>
    have hread := pointSource_reads (n := 2) (by decide) p
    refine ⟨_, _, .record 2 hread, ?_, .inl rfl⟩
    rw [innerItems_of hread.reads]
    exact ⟨rfl, rfl, rfl, rfl, rfl, rfl⟩
  | internal c =>
    obtain ⟨read, hread, hcode, hpoint, hcondition⟩ := c.reads
    refine ⟨_, _, .record 2 hread, ?_, .inl rfl⟩
    rw [innerItems_of hread.reads]
    exact ⟨hcode, hpoint, hcondition, rfl, rfl⟩

/-- Table 7-3: the action record of an alarm. -/
theorem AlarmAction.reads (a : AlarmAction) : ∃ read, RecordSpells actionFields a.items read ∧ ActionFields read a := by
  have hshort {n m : Nat} (x : Fin m) : (itemEnum 1 n ++ itemObject 2 1 x).length < 256 := by
    have hx := itemObject_length_le 2 1 x
    simp only [List.length_append, itemEnum_length]
    omega
  have hobject {n m : Nat} (hn : n < 5) (x : Fin m) (hm : m + 1 < 2 ^ 64) :
      itemsOf (itemEnum 1 n ++ itemObject 2 1 x) =
        some [{ tag := 1, value := .enum n }, { tag := 2, value := .int (x.val + 1 : Nat) }] :=
    itemsOf_append_some (itemsOf_itemEnum (by decide) (by omega)) (itemsOf_itemObject x (by decide) hm)
  cases a
  case none | coolerSafe =>
    exact ⟨_, ⟨by decide, itemsOf_itemEnum (by decide) (by decide), rfl, rfl⟩, rfl, rfl⟩
  all_goals exact ⟨_, ⟨hshort _, hobject (by decide) _ (by decide), rfl, rfl⟩, rfl, rfl⟩

/-- An object that may be left out. -/
theorem optObject_spells {fields : List FieldKind} (t : Nat) {n : Nat} (base : Nat) (x : Option (Fin n))
    (hfield : fieldOf fields t = some (.simple .int) := by rfl) (ht : t < 256 := by decide)
    (hn : n + base < 2 ^ 64 := by decide) :
    ∃ read, Spells fields (itemOpt (itemObject t base) x) read ∧ OptObjectField read t base x ∧
      (read = [] ∨ ∃ v, read = [{ tag := t, value := v }]) := by
  cases x with
  | none => exact ⟨[], .none, rfl, .inl rfl⟩
  | some y =>
    refine ⟨_, .object t base y hfield ht hn, ?_, .inr ⟨_, rfl⟩⟩
    rw [OptObjectField, ObjectField, intOf, valueOf_cons, if_pos rfl]

/-- An optional object is that of any items with the same tag. -/
theorem OptObjectField.congr {a b : List Item} {t n base : Nat} {x : Option (Fin n)} (h : OptObjectField b t base x)
    (heq : valueOf a t = valueOf b t) : OptObjectField a t base x := by
  cases x <;> simpa only [OptObjectField, ObjectField, NoField, intOf, heq] using h

/-- R119: an alarm. Each of its optional fields is spelled or left out, as the entry has it. -/
theorem alarm_roundTrips : RoundTrips alarmFields buildAlarm AlarmEntry.items := by
  refine roundTrips_of fun e is h => ?_
  obtain ⟨-, hpriority, hdelay, -, -, -, -, -, _, _, -, -, hsource, -⟩ := (buildAlarm_iff is e).1 h
  obtain ⟨source, src, hsrc, hsource, hshape⟩ := source_spells hsource
  obtain ⟨action, haction, hact⟩ := AlarmAction.reads e.action
  obtain ⟨parent, hparent, hp, hshape'⟩ := optObject_spells (fields := alarmFields) 10 0 e.parent
  obtain ⟨group, hgroup, hg, hshape''⟩ := optObject_spells (fields := alarmFields) 11 1 e.group
  have hspells := (((((((((Spells.flag 1 e.inUse).append hsrc).append (.nat hpriority)).append (.nat hdelay)).append
    (.record 7 haction)).append (.flag 8 e.horn)).append (.flag 9 e.trip)).append hparent).append hgroup).append
    (.flag 12 e.shelving)
  have hinner : ActionFields (innerItems e.action.items) e.action := by rw [innerItems_of haction.reads]; exact hact
  rcases hshape with rfl | ⟨v3, v4, rfl⟩ <;> rcases hshape' with rfl | ⟨v10, rfl⟩ <;>
    rcases hshape'' with rfl | ⟨v11, rfl⟩
  all_goals
    simp only [List.cons_append, List.nil_append] at hspells
    exact ⟨_, hspells, rfl, (buildAlarm_iff _ e).2 ⟨rfl, ⟨rfl, hpriority.2⟩, ⟨rfl, hdelay.2⟩, rfl, rfl, hp.congr rfl,
      hg.congr rfl, rfl, _, _, rfl, rfl, hsource.congr rfl rfl, hinner⟩⟩

/-! ### The three entry requests (R157) -/

theorem tables_length : tables.length = 12 := rfl

/-- A table id that R157 does not have. -/
theorem tables_none {table : Byte} (h : 12 ≤ table.toNat) : tables[table.toNat]? = none :=
  List.getElem?_eq_none (tables_length.trans_le h)

theorem handleWrite_table {table index : Byte} {bytes : List Byte} {is : List Item} {t : Table}
    (hitems : itemsOf bytes = some is) (htable : tables[table.toNat]? = some t) (hsuits : entrySuits t.fields is = true)
    (s : State) (n : Byte) : handleWrite s n (table :: index :: bytes) =
      ((t.write s index.toNat is).1, some (t.write s index.toNat is).2) := by
  simp only [handleWrite, hitems, htable, hsuits, if_true]

theorem handleWrite_noTable {table index : Byte} {bytes : List Byte} {is : List Item} (hitems : itemsOf bytes = some is)
    (htable : tables[table.toNat]? = none) (s : State) (n : Byte) :
    handleWrite s n (table :: index :: bytes) = (s, some { result := .badIndex }) := by
  simp only [handleWrite, hitems, htable]

theorem handleRead_table {table index : Byte} {t : Table} (htable : tables[table.toNat]? = some t) (s : State)
    (n : Byte) :
    handleRead s n [table, index] = (s, some (t.read s index.toNat)) := by
  simp only [handleRead, htable]

theorem handleRead_noTable {table index : Byte} (htable : tables[table.toNat]? = none) (s : State) (n : Byte) :
    handleRead s n [table, index] = (s, some { result := .badIndex }) := by
  simp only [handleRead, htable]

theorem handleClear_table {table index : Byte} {t : Table} (htable : tables[table.toNat]? = some t) (s : State)
    (n : Byte) : handleClear s n [table, index] = ((t.clear s index.toNat).1, some (t.clear s index.toNat).2) := by
  simp only [handleClear, htable]

theorem handleClear_noTable {table index : Byte} (htable : tables[table.toNat]? = none) (s : State) (n : Byte) :
    handleClear s n [table, index] = (s, some { result := .badIndex }) := by
  simp only [handleClear, htable]

/-! ### The items that the part spells (R167, Table 10-2) -/

/-- An integer has the narrowest encoding that holds it. -/
theorem itemInt_narrowest (t : Nat) (i : Int) :
    (0 ≤ i → i ≤ 255 → itemInt t i = BitVec.ofNat 8 t :: 1#8 :: beInt 1 i) ∧
    (-32768 ≤ i → i ≤ 32767 → (i < 0 ∨ 255 < i) → itemInt t i = BitVec.ofNat 8 t :: 2#8 :: beInt 2 i) ∧
    (-2147483648 ≤ i → i ≤ 2147483647 → (i < -32768 ∨ 32767 < i) →
      itemInt t i = BitVec.ofNat 8 t :: 3#8 :: beInt 4 i) ∧
    (2147483647 < i → itemInt t i = BitVec.ofNat 8 t :: 9#8 :: beInt 8 i) := by
  refine ⟨fun h h' => ?_, fun h h' hout => ?_, fun h h' hout => ?_, fun h => ?_⟩
  · rw [itemInt, if_pos ⟨h, h'⟩]
  · rw [itemInt, if_neg (by omega), if_pos ⟨h, h'⟩]
  · rw [itemInt, if_neg (by omega), if_neg (by omega), if_pos ⟨h, h'⟩]
  · rw [itemInt, if_neg (by omega), if_neg (by omega), if_neg (by omega)]

/-- A list of bytes has encoding 05H. -/
theorem itemInts_narrow {t : Nat} {xs : List Int} (h : ∀ x ∈ xs, 0 ≤ x ∧ x ≤ 255) : itemInts t xs =
    BitVec.ofNat 8 t :: 5#8 :: BitVec.ofNat 8 xs.length :: xs.flatMap (beInt 1) := by
  have hnarrow : (xs.all fun x => decide (0 ≤ x) && decide (x ≤ 255)) = true := by simpa using h
  simp only [itemInts, hnarrow, if_true]

/-- A list with an element that is no byte has encoding 06H (log entry 24). -/
theorem itemInts_wide {t : Nat} {xs : List Int} (h : ∃ x ∈ xs, x < 0 ∨ 255 < x) : itemInts t xs =
    BitVec.ofNat 8 t :: 6#8 :: BitVec.ofNat 8 xs.length :: xs.flatMap (beInt 2) := by
  have hwide : (xs.all fun x => decide (0 ≤ x) && decide (x ≤ 255)) = false := by
    obtain ⟨x, hx, hout⟩ := h
    refine List.all_eq_false.2 ⟨x, hx, ?_⟩
    simp only [Bool.and_eq_true, decide_eq_true_eq, not_and]
    omega
  simp only [itemInts, hwide, Bool.false_eq_true, if_false]

/-! ### The entry that a read returns -/

section reads

variable {E : Type} {size : Nat} (get : Fin size → Option E) (items : E → List Byte)

theorem readAt_zero (i : Fin size) :
    readAt size 0 i.val get items = { result := .done, body := itemOpt items (get i) } :=
  readAt_in (objectIndex_base 0 i) get items

theorem readAt_one (i : Fin size) :
    readAt size 1 (i.val + 1) get items = { result := .done, body := itemOpt items (get i) } :=
  readAt_in (objectIndex_base 1 i) get items

theorem readAt_zero_out {n : Nat} (h : size ≤ n) : readAt size 0 n get items = { result := .badIndex } :=
  readAt_out (.inr (by omega)) get items

theorem readAt_one_out {n : Nat} (h : n = 0 ∨ size < n) : readAt size 1 n get items = { result := .badIndex } :=
  readAt_out (by omega) get items

end reads

/-- R3: the pending copy has index 0, the active copy index 1. -/
theorem readRound_copies (s : State) :
    roundTable.read s 0 = { result := .done, body := itemOpt RoundTable.items s.floor.pendingCopy } ∧
    roundTable.read s 1 = { result := .done, body := itemOpt RoundTable.items s.floor.active } :=
  have hcopy := readAt_zero (fun i : Fin 2 => if i = 0 then s.floor.pendingCopy else s.floor.active) RoundTable.items
  ⟨hcopy 0, hcopy 1⟩

/-- A plan that is not empty is read as held (R141). -/
theorem readPlan_one (s : State) : planTable.read s 1 =
    { result := .done, body := if s.shift.plan = [] then [] else planItems s.shift.plan } := by
  refine (readAt_one (fun _ : Fin 1 => if s.shift.plan.isEmpty then none else some s.shift.plan) planItems 0).trans ?_
  cases s.shift.plan <;> rfl

/-- Settles O14: a request reaches the table of its id, a read returns the entry as held, and the items it sends spell
that entry again, table by table. -/
theorem entriesReadAndHandedOn : Obligations.EntriesReadAndHandedOn := by
  unfold Obligations.EntriesReadAndHandedOn
  refine ⟨fun s number table index => ⟨fun bytes is h hitems => ⟨fun t htable hsuits => ?_, fun hid => ?_⟩,
      fun h => ⟨fun t htable => ?_, fun hid => ?_⟩, fun h => ⟨fun t htable => ?_, fun hid => ?_⟩⟩,
    fun s => ⟨(readRound_copies s).1, (readRound_copies s).2, readAt_zero _ _, readAt_one _ _,
      readAt_one _ _, readAt_one _ _, readAt_one _ _, readAt_one _ _, readAt_one _ _, readAt_zero _ _, readAt_one _ _,
      readPlan_one s, readAt_one _ _, fun n => ⟨readAt_zero_out _ _, readAt_zero_out _ _, readAt_one_out _ _,
        readAt_one_out _ _, readAt_one_out _ _, readAt_one_out _ _, readAt_one_out _ _, readAt_one_out _ _,
        readAt_zero_out _ _, readAt_one_out _ _, readAt_one_out _ _, readAt_one_out _ _⟩⟩,
    ⟨fun t n i => ?spelled, fun t xs items records => ⟨itemInts_narrow, itemInts_wide, rfl, rfl⟩,
      fun t i => itemsOf_itemInt⟩,
    round_roundTrips, point_roundTrips, burner_roundTrips, line_roundTrips, run_roundTrips, compartment_roundTrips,
    zone_roundTrips, filter_roundTrips, alarm_roundTrips, group_roundTrips, plan_roundTrips, digest_roundTrips⟩
  case spelled =>
    obtain ⟨hone, htwo, hfour, height⟩ := itemInt_narrowest t i
    exact ⟨hone, htwo, hfour, height, rfl⟩
  · exact h.exec_of_handler rfl (handleWrite_table hitems htable hsuits _ number)
  · exact h.exec_of_handler rfl (handleWrite_noTable hitems (tables_none hid) _ number)
  · exact h.exec_of_handler rfl (handleRead_table htable _ number)
  · exact h.exec_of_handler rfl (handleRead_noTable (tables_none hid) _ number)
  · exact h.exec_of_handler rfl (handleClear_table htable _ number)
  · exact h.exec_of_handler rfl (handleClear_noTable (tables_none hid) _ number)

end Sys2Proof.Machine
end

section
/-!
PROOFS. Writes and clears that are taken (section 1.6): what each table makes of an entry, for a write and a clear at
once. -/
namespace Sys2Proof.Machine

/-! ### A write and a clear of any table -/

section taken

variable {E : Type} {size : Nat} {s u : State} {fields : List FieldKind} {build : List Item → Option E} {is : List Item}
  {e : E} {valid busy : Fin size → E → Bool} {take : Fin size → E → State} {kept : Fin size → Bool}
  {empty : Fin size → State}

theorem writeAt_taken (base : Nat) (i : Fin size) (htakes : entryTakes fields is = true) (hbuild : build is = some e)
    (hvalid : valid i e = true) (hbusy : busy i e = false) (hu : take i e = u) :
    writeAt size base s (i.val + base) fields build valid busy take is = (u, Answer.ok) := by
  rw [writeAt, objectIndex_base, if_pos htakes, hbuild]
  simp only [hvalid, hbusy, Bool.false_eq_true, if_false, if_true, hu]

theorem clearAt_taken (base : Nat) (i : Fin size) (hkept : kept i = false) (hu : empty i = u) :
    clearAt size base s (i.val + base) kept empty = (u, Answer.ok) := by
  rw [clearAt, objectIndex_base]
  simp only [hkept, Bool.false_eq_true, if_false, hu]

end taken

/-! ### What the entry becomes -/

variable (s : State)

/-- R25: a written point is UNSET, which its consumers are told where it was not. -/
theorem State.writePoint_eq (p : Fin 256) (e : Option PointEntry) : s.writePoint p e =
    (State.pointsChanged { s with points := s.points.set p (Point.written e) }
      (if (s.points[p]).quality = .unset then [] else [p])).finish := by
  have hchanged : pointChanged s.points[p] (Point.written e) = ((s.points[p]).quality != .unset) := by
    unfold pointChanged Point.written
    cases (s.points[p]).quality <;> simp [Quality.readable]
  rw [State.writePoint, hchanged]
  by_cases h : (s.points[p]).quality = .unset
  · simp only [h, bne_self_eq_false, Bool.false_eq_true, if_false, if_true]; rfl
  · simp only [bne_iff_ne.2 h, if_true, if_neg h]; rfl

/-- R47: the flags of a burner's permissives as they are now. -/
theorem State.freshFlags_some (e : BurnerEntry) : s.freshFlags (some e) =
    if e.inUse then e.permissives.map fun p => s.permissiveMet p.kind else [] := by
  unfold State.freshFlags
  cases h : e.inUse with
  | false => rw [show (some e).filter (·.inUse) = none by simp [Option.filter, h]]; rfl
  | true => rw [show (some e).filter (·.inUse) = some e by simp [Option.filter, h]]; rfl

/-- R105: some in-use zone is active. -/
theorem State.anyZoneActive_iff : s.anyZoneActive = true ↔
    ∃ z e, s.zoneEntry? z = some e ∧ (s.cooler.zones[z]).active = true := by
  simp only [State.anyZoneActive, State.usedZones, List.any_filter, any_indices_iff, Bool.and_eq_true,
    Option.isSome_iff_exists, ← exists_and_right]

/-- R90: an emptied zone makes no zone active. -/
theorem State.anyZoneActive_of_emptyZone {z : Fin 8} {e : Option ZoneEntry}
    (h : (s.emptyZone z e).anyZoneActive = true) : s.anyZoneActive = true := by
  obtain ⟨i, x, hx, hactive⟩ := (State.anyZoneActive_iff _).1 h
  have hzones : (s.emptyZone z e).cooler.zones = s.cooler.zones.set z _ := s.emptyZone_zones z e
  have hne : z.val ≠ i.val := by
    intro heq
    obtain rfl := Fin.ext heq
    simp [hzones] at hactive
  have hzone : (s.emptyZone z e).cooler.zones[i] = s.cooler.zones[i] := by
    simp only [hzones, Fin.getElem_fin, Vector.getElem_set_ne _ _ hne]
  rw [State.zoneEntry?, hzone] at hx
  rw [hzone] at hactive
  exact s.anyZoneActive_iff.2 ⟨i, x, hx, hactive⟩

/-- R105: the red-river time of a rewritten zone. -/
theorem State.settleRedMark_emptyZone (z : Fin 8) (e : Option ZoneEntry) :
    (s.emptyZone z e).settleRedMark s.anyZoneActive = s.zoneLeft (s.emptyZone z e) := by
  have hkeeps := s.anyZoneActive_of_emptyZone (z := z) (e := e)
  have hmark : (s.emptyZone z e).cooler.redMark = s.cooler.redMark := rfl
  have htime : (s.emptyZone z e).timeBase = s.timeBase := rfl
  generalize s.emptyZone z e = w at hkeeps hmark htime
  unfold State.settleRedMark State.zoneLeft State.postRedRiver
  cases hs : s.anyZoneActive with
  | false =>
    have hw : w.anyZoneActive = false := Bool.eq_false_of_not_eq_true fun h => by simp [hkeeps h] at hs
    simp [hw]
  | true =>
    cases hw : w.anyZoneActive with
    | true => simp
    | false =>
      cases hm : s.cooler.redMark with
      | some t => simp [hmark, hm, htime, State.post, State.modShift, State.modCooler]
      | none =>
        have hnone : w.cooler = { w.cooler with redMark := none } := by rw [← hm, ← hmark]
        simp only [hmark, hm, Bool.not_false, Bool.and_true, Bool.and_false, Bool.false_eq_true, if_true, if_false,
          State.modCooler, ← hnone]

/-- R90, R96, R105: a zone as a write or a clear leaves it. -/
theorem State.writeZone_eq (z : Fin 8) (e : Option ZoneEntry) : s.writeZone z e =
    State.finish ((List.finRange 12).foldl (fun t k => t.applyFan false k) (s.zoneLeft (s.emptyZone z e))) := by
  rw [State.writeZone, State.rewriteZone, s.settleRedMark_emptyZone]
  rfl

/-- R121: the value reported with a written alarm (log entry 23). -/
theorem State.freshReport_some (e : AlarmEntry) : s.freshReport (some e) =
    match e.source with
    | .internal c => s.conditionValue c
    | _ => 0 := by
  simp only [State.freshReport, Option.map_some]
  cases e.source <;> rfl

/-- R120, R121: an alarm in NORMAL as a write or a clear leaves it. -/
theorem State.writeAlarm_of_normal {a : Fin 192} {e : Option AlarmEntry} {fresh : Alarm}
    (hfresh : fresh = { s.alarm.alarms[a] with
      entry := e, state := .normal, condition := false, onDelay := none, shelve := none, reported := s.freshReport e })
    (h : (s.alarm.alarms[a]).state = .normal) : s.writeAlarm a e =
    State.finish { s with alarm := { s.alarm with alarms := s.alarm.alarms.set a fresh } } := by
  subst hfresh
  exact congrArg State.finish (if_pos h)

/-- R120, R121: an alarm in another state leaves that state with the holds and a notice. -/
theorem State.writeAlarm_of_not_normal {a : Fin 192} {e : Option AlarmEntry} {fresh : Alarm} {left : State}
    (hfresh : fresh = { s.alarm.alarms[a] with
      entry := e, state := .normal, condition := false, onDelay := none, shelve := none, reported := s.freshReport e })
    (hleft : left = { s with alarm := { s.alarm with
      alarms := s.alarm.alarms.set a fresh, raisedList := s.alarm.raisedList.filter (· ≠ a) } })
    (h : (s.alarm.alarms[a]).state ≠ .normal) :
    s.writeAlarm a e = (left.reportAlarmHolds.notice a).finish := by
  have hfilter : (s.alarm.raisedList.filter fun x => x != a) = s.alarm.raisedList.filter (· ≠ a) :=
    List.filter_congr fun x _ => by rw [decide_not]; rfl
  subst hfresh
  rw [← hfilter] at hleft
  subst hleft
  exact congrArg State.finish (if_neg h)

end Sys2Proof.Machine
end

section
/-!
PROOFS. The obligations about writes and clears that are taken: each table by the rules above.
-/
namespace Sys2Proof.Machine

/-! ### The tables with one entry -/

/-- R3: a write of the pending copy. -/
theorem roundTable_write_pending (s : State) (is : List Item) : roundTable.write s 0 is =
    writeAt 1 (0 : Nat) s ((0 : Fin 1).val + 0) roundFields buildRound (fun _ _ => true) (fun _ _ => false)
      (fun _ t => setPending s (some t)) is := rfl

/-- R3: a clear of the pending copy. -/
theorem roundTable_clear_pending (s : State) : roundTable.clear s 0 =
    clearAt 1 (0 : Nat) s ((0 : Fin 1).val + 0) (fun _ => false) fun _ => setPending s none := rfl

/-- R141: a write of the shift plan. -/
theorem planTable_write_one (s : State) (is : List Item) : planTable.write s 1 is =
    writeAt 1 (1 : Nat) s ((0 : Fin 1).val + 1) planFields buildPlan (fun _ _ => true) (fun _ _ => false)
      (fun _ p => s.setPlan p) is := rfl

/-- R141: a clear of the shift plan. -/
theorem planTable_clear_one (s : State) : planTable.clear s 1 =
    clearAt 1 (1 : Nat) s ((0 : Fin 1).val + 1) (fun _ => false) fun _ => s.setPlan [] := rfl

/-- R141: without a plan there is no boundary. -/
theorem State.setPlan_nil (s : State) : s.setPlan [] = { s with shift := { s.shift with
    plan := []
    boundary := none
    record := { s.shift.record with flags := { s.shift.record.flags with clockChanged := true } } } } := by
  have hnone : State.nextBoundary { s with shift := { s.shift with plan := [] } } = none := by
    unfold State.nextBoundary
    split <;> rfl
  exact congrArg (fun b => ({ s with shift := { s.shift with
    plan := []
    boundary := b
    record := { s.shift.record with flags := { s.shift.record.flags with clockChanged := true } } } } : State)) hnone

/-- Settles O16: every write that passes its checks is the table's own, whose effect is read off its definition; those
whose consequences reach other units go by the rules for points, compartments, zones and alarms. -/
theorem entriesWritten : Obligations.EntriesWritten := by
  unfold Obligations.EntriesWritten
  refine ⟨fun s is => ⟨?round, ?burner, ?line, ?run, ?filter, ?group, ?digest, ?plan⟩,
    fun s is => ⟨s.anyZoneActive_iff, ?point, ?compartment, ?zone, ?alarm⟩⟩
  case round =>
    exact fun t htakes hbuild => (roundTable_write_pending s is).trans (writeAt_taken 0 0 htakes hbuild rfl rfl rfl)
  case burner =>
    intro b e htakes hbuild hvalid hbusy
    refine writeAt_taken 1 b htakes hbuild hvalid hbusy ?_
    rw [State.writeBurner, s.freshFlags_some]
  case line => exact fun l e htakes hbuild hvalid hbusy => writeAt_taken 1 l htakes hbuild hvalid hbusy rfl
  case run =>
    intro g e htakes hbuild hvalid hstate hwaiting
    have hbusy : s.runBusy g = false := by simp [State.runBusy, hstate, hwaiting]
    exact writeAt_taken 1 g htakes hbuild hvalid hbusy rfl
  case filter => exact fun i e htakes hbuild hvalid => writeAt_taken 1 i htakes hbuild hvalid rfl rfl
  case group => exact fun g e htakes hbuild => writeAt_taken 1 g htakes hbuild rfl rfl rfl
  case digest => exact fun i e htakes hbuild => writeAt_taken 1 i htakes hbuild rfl rfl rfl
  case plan =>
    exact fun p htakes hbuild => (planTable_write_one s is).trans (writeAt_taken 1 0 htakes hbuild rfl rfl rfl)
  case point =>
    intro p e htakes hbuild hbusy
    exact writeAt_taken 0 p htakes hbuild rfl hbusy (s.writePoint_eq p (some e))
  case compartment =>
    intro k e htakes hbuild hvalid hstate
    have hbusy : s.coolerBusy = false := by simp [State.coolerBusy, hstate]
    exact writeAt_taken 1 k htakes hbuild hvalid hbusy (s.writeCompartment_spec k e hstate)
  case zone =>
    rintro z e htakes hbuild hvalid emptied rfl
    exact writeAt_taken 1 z htakes hbuild hvalid rfl (s.writeZone_eq z (some e))
  case alarm =>
    intro a e htakes hbuild hvalid hbusy fresh left hfresh hleft
    have hwritten := hfresh.trans (congrArg (fun n => ({ s.alarm.alarms[a] with
      entry := some e, state := .normal, condition := false, onDelay := none, shelve := none, reported := n } : Alarm))
      (s.freshReport_some e).symm)
    exact ⟨fun h => writeAt_taken 0 a htakes hbuild hvalid hbusy (s.writeAlarm_of_normal hwritten h),
      fun h => writeAt_taken 0 a htakes hbuild hvalid hbusy (s.writeAlarm_of_not_normal hwritten hleft h)⟩

/-- Settles O17: a clear that is not refused leaves the object as a write of no entry does. -/
theorem clearsEmptyEntries : Obligations.ClearsEmptyEntries := by
  unfold Obligations.ClearsEmptyEntries
  refine fun s => ⟨(roundTable_clear_pending s).trans (clearAt_taken 0 0 rfl rfl), ?point, ?burner, ?line, ?run,
      ?compartment, ?zone,
    fun i => clearAt_taken 1 i rfl rfl, ?alarm, fun g => clearAt_taken 1 g rfl rfl, ?plan,
    fun i => clearAt_taken 1 i rfl rfl⟩
  case point => exact fun p h => clearAt_taken 0 p h (s.writePoint_eq p none)
  case burner =>
    intro b h
    have hbusy : ((s.burners[b]).state != .off) = false := by rw [h]; rfl
    exact clearAt_taken 1 b hbusy rfl
  case line => exact fun l h => clearAt_taken 1 l h rfl
  case run =>
    intro g hstate hwaiting
    have hbusy : s.runBusy g = false := by simp [State.runBusy, hstate, hwaiting]
    exact clearAt_taken 1 g hbusy rfl
  case compartment =>
    intro k hstate
    have hbusy : s.coolerBusy = false := by simp [State.coolerBusy, hstate]
    exact clearAt_taken 1 k hbusy rfl
  case zone =>
    rintro z emptied rfl
    exact clearAt_taken 1 z rfl (s.writeZone_eq z none)
  case alarm =>
    intro a hbusy fresh left hfresh hleft
    exact ⟨fun h => clearAt_taken 0 a hbusy (s.writeAlarm_of_normal hfresh h),
      fun h => clearAt_taken 0 a hbusy (s.writeAlarm_of_not_normal hfresh hleft h)⟩
  case plan =>
    exact (planTable_clear_one s).trans (clearAt_taken 1 0 rfl (s.setPlan_nil))

end Sys2Proof.Machine
end

section
/-!
PROOFS. The point unit (chapter 2): words, forcing, and the conditions of alarms (R26 to R39, Table 7-4).
-/
namespace Sys2Proof.Machine

/-! ### Words (R26 to R32) -/

section words

variable {x : Point} {e : PointEntry} {w : Word16} {round : Count32}

/-- R26: a FORCED point keeps value and quality. -/
theorem Point.take_of_forced (h : x.quality = .forced) :
    x.take e w round = { x with lastRaw := w, lastRound := round } := by
  simp only [Point.take, h, if_true]

/-- R30: a flag word. -/
theorem Point.take_flags16 (h : x.quality ≠ .forced) (hk : e.kind = .flags16) : x.take e w round =
    { x with value := w.toNat, quality := .good, lastRaw := w, lastRound := round } := by
  simp only [Point.take, if_neg h, hk]

/-- R27, R28: a scaled word. -/
theorem Point.take_scaled (h : x.quality ≠ .forced) (hk : e.kind.scaled = true) :
    x.take e w round = { x.takeScaled e w with lastRaw := w, lastRound := round } := by
  rcases (RawKind.scaled_iff e.kind).1 hk with hk | hk | hk
  · simp only [Point.take, if_neg h, hk]
  · simp only [Point.take, if_neg h, hk]
  · simp only [Point.take, if_neg h, hk]

/-- R27: the raw value by its kind. -/
theorem decodeRaw_eq {raw : Int}
    (h : e.kind = .u12 ∧ raw = (w.toNat / 16 : Nat) ∨ e.kind = .u16 ∧ raw = (w.toNat : Int) ∨
    e.kind = .s16 ∧ raw = w.toInt) : e.kind.scaled = true ∧ decodeRaw e.kind w = raw := by
  rcases h with ⟨hk, rfl⟩ | ⟨hk, rfl⟩ | ⟨hk, rfl⟩
  · rw [hk]; exact ⟨rfl, rfl⟩
  · rw [hk]; exact ⟨rfl, rfl⟩
  · rw [hk]; exact ⟨rfl, rfl⟩

/-- R28: the scaled value lies beyond the margin. -/
theorem outsideMargin_iff {v : Int} : outsideMargin e v = true ↔
    v < e.low - (e.high - e.low).tdiv 16 ∨ e.high + (e.high - e.low).tdiv 16 < v := by
  rw [outsideMargin, Bool.or_eq_true]
  exact or_congr decide_eq_true_iff decide_eq_true_iff

/-- R28: beyond the margin the value is held. -/
theorem Point.takeScaled_outside (h : outsideMargin e (scaledValue e w) = true) :
    x.takeScaled e w = { x with quality := .bad } := if_pos h

/-- R28, R29: within the margin the clamped value goes through the filter. -/
theorem Point.takeScaled_inside (h : ¬ outsideMargin e (scaledValue e w) = true) : x.takeScaled e w =
    { x with
      value := filteredValue x.quality x.value (clampInt (scaledValue e w) e.low e.high) (e.shift.getD 0)
      quality := .good } := if_neg h

/-- R31: a counter's word. -/
theorem Point.take_counter16 (h : x.quality ≠ .forced) (hk : e.kind = .counter16) :
    x.take e w round = { x.takeCounter e w round with lastRound := round } := by
  simp only [Point.take, if_neg h, hk]

theorem Point.formed_counter16 (hk : e.kind = .counter16) :
    x.formed e w round = (x.increment w).map fun n => (n, x.plausible e n round) := if_pos hk

/-- R31: a baseline forms no increment. -/
theorem Point.baseline (hk : e.kind = .counter16) (h : x.quality = .unset ∨ x.quality = .stale) :
    x.take e w round = { x with value := w.toNat, quality := .good, lastRaw := w, lastRound := round } ∧
      x.formed e w round = none := by
  have hnone : x.increment w = none := by rcases h with h | h <;> simp [Point.increment, h]
  have hforced : x.quality ≠ .forced := by rcases h with h | h <;> simp [h]
  rw [Point.take_counter16 hforced hk, Point.formed_counter16 hk, Point.takeCounter, hnone]
  exact ⟨rfl, rfl⟩

/-- R31: the increment of a GOOD counter, modulo 65536. -/
theorem Point.increment_good (h : x.quality = .good) :
    x.increment w = some ((w.toNat + 65536 - x.lastRaw.toNat) % 65536) := by
  have hsub : (w - x.lastRaw).toNat = (w.toNat + 65536 - x.lastRaw.toNat) % 65536 := by
    have := x.lastRaw.isLt
    rw [BitVec.toNat_sub]
    omega
  rw [Point.increment, if_pos h, hsub]

/-- R32: plausible increments. -/
theorem Point.plausible_iff {n : Nat} : x.plausible e n round = true ↔
    n ≤ e.incLimit.getD 0 * (if round = x.lastRound then 1 else (round - x.lastRound).toNat) := decide_eq_true_iff

/-- R31, R32: the increment of a GOOD counter is plausible. -/
theorem Point.take_plausible {n : Nat} (hk : e.kind = .counter16) (h : x.quality = .good)
    (hn : n = (w.toNat + 65536 - x.lastRaw.toNat) % 65536) (hp : x.plausible e n round = true) :
    x.take e w round =
      { x with value := w.toNat, quality := .good, lastRaw := w, lastRound := round, implausible := false } ∧
    x.formed e w round = some (n, true) := by
  have hforced : x.quality ≠ .forced := by simp [h]
  rw [Point.take_counter16 hforced hk, Point.formed_counter16 hk, Point.takeCounter, Point.increment_good h, ← hn]
  simp only [hp, if_true, Option.map_some, and_self]

/-- R31, R32: the increment of a GOOD counter is implausible. -/
theorem Point.take_implausible {n : Nat} (hk : e.kind = .counter16) (h : x.quality = .good)
    (hn : n = (w.toNat + 65536 - x.lastRaw.toNat) % 65536) (hp : ¬ x.plausible e n round = true) :
    x.take e w round =
      { x with
        value := w.toNat, quality := .good, lastRaw := w, lastRound := round, implausible := true
        implCount := min 65535 (x.implCount + 1) } ∧
    x.formed e w round = some (n, false) := by
  have hforced : x.quality ≠ .forced := by simp [h]
  have hp : x.plausible e n round = false := Bool.eq_false_of_not_eq_true hp
  rw [Point.take_counter16 hforced hk, Point.formed_counter16 hk, Point.takeCounter, Point.increment_good h, ← hn]
  simp only [hp, Bool.false_eq_true, if_false, Option.map_some, satAdd, and_self]

end words

/-- Section 1.5: a rounded quotient of magnitudes lies within half a divisor, and above where it lies just there. -/
theorem roundedDiv_magnitude (a d : Nat) (hd : 0 < d) : ∀ q, q = (2 * a + d) / (2 * d) →
    2 * ((a : Int) - d * q).natAbs ≤ d ∧ (2 * ((a : Int) - d * q).natAbs = d → a < d * q) := by
  rintro q rfl
  have hdiv := Nat.div_add_mod (2 * a + d) (2 * d)
  have hmod := Nat.mod_lt (2 * a + d) (show 0 < 2 * d by omega)
  generalize hq : (2 * a + d) / (2 * d) = q at hdiv ⊢
  have hassoc : 2 * d * q = 2 * (d * q) := Nat.mul_assoc 2 d q
  have hcast : ((d : Int) * q) = ((d * q : Nat) : Int) := by push_cast; rfl
  rw [hassoc] at hdiv
  rw [hcast]
  generalize d * q = p at hdiv ⊢
  omega

/-- Section 1.5: a rounded quotient is a nearest integer, and of two the one farther from zero. -/
theorem roundedDiv_nearest (n : Int) (d : Nat) (hd : 0 < d) : 2 * (n - d * roundedDiv n d).natAbs ≤ d ∧
    (2 * (n - d * roundedDiv n d).natAbs = d → n.natAbs < d * (roundedDiv n d).natAbs) := by
  obtain ⟨hle, hlt⟩ := roundedDiv_magnitude n.natAbs d hd _ rfl
  unfold roundedDiv
  generalize (2 * n.natAbs + d) / (2 * d) = q at hle hlt ⊢
  rcases lt_trichotomy n 0 with hn | rfl | hn
  · have hdiff : n - d * (n.sign * (q : Int)) = -((n.natAbs : Int) - d * q) := by
      rw [Int.sign_eq_neg_one_of_neg hn, Int.natCast_natAbs, abs_of_neg hn]; ring
    have hquotient : (n.sign * (q : Int)).natAbs = q := by simp [Int.sign_eq_neg_one_of_neg hn]
    rw [hdiff, Int.natAbs_neg, hquotient]
    exact ⟨hle, hlt⟩
  · simp only [Int.sign_zero, zero_mul, mul_zero, sub_zero, Int.natAbs_zero]
    omega
  · have hdiff : n - d * (n.sign * (q : Int)) = (n.natAbs : Int) - d * q := by
      rw [Int.sign_eq_one_of_pos hn, Int.natCast_natAbs, abs_of_pos hn]; ring
    have hquotient : (n.sign * (q : Int)).natAbs = q := by simp [Int.sign_eq_one_of_pos hn]
    rw [hdiff, hquotient]
    exact ⟨hle, hlt⟩

/-- Settles O18: each kind of word by its rule, and rounding by the division with remainder of the magnitudes. -/
theorem wordUpdatesPoint : Obligations.WordUpdatesPoint := by
  unfold Obligations.WordUpdatesPoint
  refine ⟨fun x e w round => ⟨Point.take_of_forced, Point.take_flags16, ?scaled, fun hk => ⟨Point.baseline hk, ?good⟩⟩,
    roundedDiv_nearest⟩
  case scaled =>
    rintro raw scaled margin hforced hraw rfl rfl
    obtain ⟨hk, rfl⟩ := decodeRaw_eq hraw
    rw [Point.take_scaled hforced hk]
    refine ⟨fun hout => ?_, fun hlo hhi => ?_⟩
    · rw [Point.takeScaled_outside (outsideMargin_iff.2 hout)]
    · rw [Point.takeScaled_inside fun hout => (outsideMargin_iff.1 hout).elim hlo.not_gt hhi.not_gt]
      rfl
  case good =>
    rintro n elapsed hgood hn rfl
    exact ⟨fun hle => Point.take_plausible hk hgood hn (Point.plausible_iff.2 hle),
      fun hlt => Point.take_implausible hk hgood hn fun hp => hlt.not_ge (Point.plausible_iff.1 hp)⟩

/-! ### Requests of the point unit (R35, R36, R39) -/

/-- R35: a value is held as it is where it lies in the range. -/
theorem clampInt_eq_self_iff (v lo hi : Int) : clampInt v lo hi = v ↔ lo ≤ v ∧ v ≤ hi := by
  unfold clampInt
  split_ifs <;> omega

/-- R35, R37: the consumers of a forced point are told where its value or its quality changes. -/
theorem State.forcePoint_eq (s : State) (p : Fin 256) (v : Int) : s.forcePoint p v =
    (State.pointsChanged { s with
      points := s.points.set p { s.points[p] with value := v, forced := some v, quality := .forced } }
      (if (s.points[p]).quality = .forced ∧ (s.points[p]).value = v then [] else [p])).finish := by
  have hset : (s.modPoint p fun x => { x with value := v, forced := some v, quality := .forced }).points[p] =
      { s.points[p] with value := v, forced := some v, quality := .forced } := by
    simp only [State.modPoint, Fin.getElem_fin, Vector.getElem_set_self]
  have hchanged : (pointChanged s.points[p] { s.points[p] with value := v, forced := some v, quality := .forced }) =
      !decide ((s.points[p]).quality = .forced ∧ (s.points[p]).value = v) := by
    simp [pointChanged, Quality.readable, bne, Bool.decide_and, beq_eq_decide]
  rw [State.forcePoint, hset, hchanged]
  by_cases h : (s.points[p]).quality = .forced ∧ (s.points[p]).value = v
  · simp only [h, and_self, decide_true, Bool.not_true, Bool.false_eq_true, if_false, if_true]; rfl
  · simp only [h, decide_false, Bool.not_false, if_true, if_false]; rfl

section requests

variable {s : State} {is : List Item} {p : Fin 256}

/-- R35: FORCE of a point that may be forced. -/
theorem State.force_taken {e : PointEntry} {v : Int} (hk : e.kind ≠ .counter16)
    (hscanner : s.isScannerPoint p = false) :
    s.force p e v = (s.forcePoint p (clampInt v e.low e.high),
      if e.low ≤ v ∧ v ≤ e.high then Answer.ok else Answer.clampedTo (clampInt v e.low e.high)) := by
  simp only [State.force, if_neg hk, hscanner, Bool.false_eq_true, if_false, clampInt_eq_self_iff]

theorem State.force_counter {e : PointEntry} {v : Int} (hk : e.kind = .counter16) :
    s.force p e v = (s, { result := .invalid }) := if_pos hk

theorem State.force_scanner {e : PointEntry} {v : Int} (hk : e.kind ≠ .counter16)
    (hscanner : s.isScannerPoint p = true) :
    s.force p e v = (s, { result := .inUse }) := by
  simp only [State.force, if_neg hk, hscanner, if_true, refuse]

end requests

/-- Settles O20: each request by the object it names and the branch it takes. -/
theorem forceAndUnforce : Obligations.ForceAndUnforce := by
  unfold Obligations.ForceAndUnforce
  refine ⟨fun s number args is p v h hread hp hv => ?force, fun s number args is p hread hp => ?rest⟩
  case force =>
    have hforce {u : State} {a : Answer} (hanswer : (withObject 256 0 s.popRequest is fun p =>
          match s.popRequest.pointEntry? p, intOf is 2 with
          | some e, some v => s.popRequest.force p e v
          | _, _ => refuse s.popRequest .notConfigured) = (u, a)) :
        Machine.exec .force s = .next (u.answered number 0x09#8 a) :=
      h.exec_of_handler rfl (answering_eq hread hanswer number)
    rw [withObject_zero p hp, hv] at hforce
    refine ⟨?_, ?_, ?_, ?_⟩
    · rintro e he hk hscanner held rfl
      rw [State.popRequest_pointEntry?, he] at hforce
      have htaken := State.force_taken (s := s.popRequest) (v := v) hk hscanner
      rw [State.forcePoint_eq] at htaken
      exact hforce htaken
    · intro e he hk
      rw [State.popRequest_pointEntry?, he] at hforce
      exact hforce (State.force_counter hk)
    · intro e he hk hscanner
      rw [State.popRequest_pointEntry?, he] at hforce
      exact hforce (State.force_scanner hk hscanner)
    · intro he
      rw [State.popRequest_pointEntry?, he] at hforce
      exact hforce rfl
  case rest =>
    refine ⟨fun h => ⟨fun hq => ?_, fun hq => ?_⟩, fun h => ?_, ?_, by decide⟩
    · refine h.exec_of_handler rfl (answering_eq hread ?_ number)
      rw [withObject_zero p hp]
      exact if_pos hq
    · refine h.exec_of_handler rfl (answering_eq hread ?_ number)
      rw [withObject_zero p hp]
      exact if_neg hq
    · refine h.exec_of_handler rfl (answering_eq hread ?_ number)
      rw [withObject_zero p hp]
      rfl
    · rw [State.pointItems, State.ageOf]
      cases (s.points[p]).forced <;> split_ifs <;> rfl

/-! ### Conditions of alarms (R38, Table 7-4) -/

theorem Quality.readable_iff (q : Quality) : q.readable = true ↔ q = .good ∨ q = .forced := by
  cases q <;> simp [Quality.readable]

theorem Quality.not_readable_iff (q : Quality) : q.readable = false ↔ q = .unset ∨ q = .stale ∨ q = .bad := by
  cases q <;> simp [Quality.readable]

/-- R38: the high condition of a point that can be read. -/
theorem highCondition_of_readable {q : Quality} (h : q.readable = true) {v limit band : Int} (hband : 0 ≤ band)
    (old : Bool) : (limit ≤ v → highCondition q v limit band old = true) ∧
      (v < limit - band → highCondition q v limit band old = false) ∧
      (limit - band ≤ v → v < limit → highCondition q v limit band old = old) := by
  unfold highCondition
  rw [if_pos h]
  refine ⟨fun h => if_pos h, fun h => ?_, fun h h' => ?_⟩
  · rw [if_neg (by omega), if_pos h]
  · rw [if_neg (by omega), if_neg (by omega)]

/-- R38: the low condition of a point that can be read. -/
theorem lowCondition_of_readable {q : Quality} (h : q.readable = true) {v limit band : Int} (hband : 0 ≤ band)
    (old : Bool) : (v ≤ limit → lowCondition q v limit band old = true) ∧
      (limit + band < v → lowCondition q v limit band old = false) ∧
      (limit < v → v ≤ limit + band → lowCondition q v limit band old = old) := by
  unfold lowCondition
  rw [if_pos h]
  refine ⟨fun h => if_pos h, fun h => ?_, fun h h' => ?_⟩
  · rw [if_neg (by omega), if_pos h]
  · rw [if_neg (by omega), if_neg (by omega)]

/-- R38: the conditions of a point that cannot be read. -/
theorem conditions_of_not_readable {q : Quality} (h : q.readable = false) (v limit band : Int) (old : Bool) :
    highCondition q v limit band old = old ∧ lowCondition q v limit band old = old := by
  unfold highCondition lowCondition
  simp [h]

/-- R60: the causes of a lockout that a condition stands for. -/
theorem Burner.lockedOutWith_iff {x : Burner} {f : LockoutCause → Bool} {cs : List LockoutCause}
    (hf : ∀ c, f c = true ↔ c ∈ cs) :
    x.lockedOutWith f = true ↔ x.state = .lockout ∧ ∃ r, x.lockout = some r ∧ r.cause ∈ cs := by
  simp only [Burner.lockedOutWith, Bool.and_eq_true, beq_iff_eq, Option.any_eq_true, hf]

theorem LockoutCause.isFlameFail_iff (c : LockoutCause) :
    c.isFlameFail = true ↔ c ∈ [LockoutCause.flameFail, .lightoffFail, .flameInPurge] := by
  cases c <;> simp [LockoutCause.isFlameFail]

theorem LockoutCause.isIgnitionFail_iff (c : LockoutCause) :
    c.isIgnitionFail = true ↔ c ∈ [LockoutCause.ignitionFail, .noIgnitionSource] := by
  cases c <;> simp [LockoutCause.isIgnitionFail]

/-- A station is on a list of the active round table. -/
theorem State.onActiveList_iff (s : State) (id : Nat) :
    s.onActiveList id = true ↔ ∃ t, s.floor.active = some t ∧ id ∈ t.ordinary ++ t.quick := by
  unfold State.onActiveList
  cases h : s.floor.active with
  | none => simp
  | some t => simp [RoundTable.stations]

/-- R13: STATION_ABSENT. -/
theorem State.stationAbsent_iff (s : State) (st : Fin 60) : s.stationAbsent st = true ↔
    (∃ t, s.floor.active = some t ∧ st.val + 1 ∈ t.ordinary ++ t.quick) ∧ 1 ≤ (s.floor.stations[st]).absence := by
  rw [State.stationAbsent, Bool.and_eq_true, s.onActiveList_iff, decide_eq_true_eq]

/-- Settles O21: the limit conditions by the branches of R38, the internal ones by Table 7-4. -/
theorem alarmConditionsFollowPoints : Obligations.AlarmConditionsFollowPoints := by
  unfold Obligations.AlarmConditionsFollowPoints
  refine ⟨fun s p h b v old hv hband => ⟨fun hq => ?readable, fun hq => ?unread, fun he => ?unused⟩,
    fun s b l g z st p lockedOut carries hlocked hcarries =>
    ⟨?flame, ?ignition, beq_iff_eq, beq_iff_eq, decide_eq_true_iff,
      decide_eq_true_iff, beq_iff_eq, Iff.rfl, beq_iff_eq, beq_iff_eq, beq_iff_eq, Iff.rfl, s.stationAbsent_iff st,
      Iff.rfl,
      Iff.rfl, Iff.rfl, Iff.rfl, fun c old => rfl, ?values⟩⟩
  case readable =>
    subst hv
    have hq := (Quality.readable_iff _).2 hq
    obtain ⟨hhigh, hhigh', hhigh''⟩ := highCondition_of_readable hq (v := (s.points[p]).value) (limit := h) hband old
    obtain ⟨hlow, hlow', hlow''⟩ := lowCondition_of_readable hq (v := (s.points[p]).value) (limit := h) hband old
    exact ⟨hhigh, hhigh', hhigh'', hlow, hlow', hlow'', congrArg (!·) hq⟩
  case unread =>
    have hq := (Quality.not_readable_iff _).2 hq
    obtain ⟨hhigh, hlow⟩ := conditions_of_not_readable hq (s.points[p]).value h b old
    exact ⟨hhigh, hlow, congrArg (!·) hq⟩
  case unused => simp only [State.pointQuality, he, Option.isSome_none, Bool.false_eq_true, if_false]
  case flame => exact (Burner.lockedOutWith_iff LockoutCause.isFlameFail_iff).trans (hlocked _).symm
  case ignition => exact (Burner.lockedOutWith_iff LockoutCause.isIgnitionFail_iff).trans (hlocked _).symm
  case values =>
    simp only [hcarries]
    refine ⟨rfl, rfl, rfl, rfl, rfl, rfl, rfl, ?_⟩
    have htruth (c : Condition) (h : s.conditionValue c = truthValue (s.conditionHolds c)) :
        s.conditionValue c = (s.conditionHolds c).toNat := h.trans (truthValue_eq _)
    simp only [List.forall_mem_cons]
    exact ⟨htruth _ rfl, htruth _ rfl, htruth _ rfl, htruth _ rfl, htruth _ rfl, htruth _ rfl, htruth _ rfl,
        htruth _ rfl,
      htruth _ rfl, htruth _ rfl, List.forall_mem_nil _⟩

end Sys2Proof.Machine
end

section
/-!
PROOFS. The floor engine's round tables: their commit, and a new active copy (R5 to R9).
-/
namespace Sys2Proof.Machine

/-! ### What a commit is checked for (R5) -/

/-- R5: a station that the copy would take off the floor. -/
theorem State.removes_iff (s : State) (t : RoundTable) (st : Nat) :
    s.removes t st = true ↔ s.onActiveList st = true ∧ st ∉ t.stations := by
  simp only [State.removes, Bool.and_eq_true, Bool.not_eq_true', List.contains_eq_mem, decide_eq_false_iff_not]

/-- R5: a scanner station that the copy would take from its quick slots. -/
theorem State.losesQuick_iff (s : State) (t : RoundTable) (st : Nat) :
    s.losesQuick t st = true ↔
      (s.onActiveList st = true ∧ st ∉ t.stations) ∨ (s.onQuickList st = true ∧ st ∈ t.ordinary) := by
  simp only [State.losesQuick, Bool.or_eq_true, s.removes_iff, Bool.and_eq_true, List.contains_eq_mem,
      decide_eq_true_eq]

/-- R5: a burner that is not OFF would lose the station of one of its scanners. -/
theorem State.scannersLose_iff (s : State) (t : RoundTable) (e : BurnerEntry) :
    ((s.scannerStation e.scanner1).any (s.losesQuick t) ||
        e.scanner2.any fun x => (s.scannerStation x).any (s.losesQuick t)) = true ↔
      ∃ x st, (x = e.scanner1 ∨ e.scanner2 = some x) ∧ s.scannerStation x = some st ∧
        ((s.onActiveList st = true ∧ st ∉ t.stations) ∨ (s.onQuickList st = true ∧ st ∈ t.ordinary)) := by
  simp only [Bool.or_eq_true, Option.any_eq_true, s.losesQuick_iff]
  constructor
  · rintro (⟨st, hst, h⟩ | ⟨x, hx, st, hst, h⟩)
    · exact ⟨e.scanner1, st, .inl rfl, hst, h⟩
    · exact ⟨x, st, .inr hx, hst, h⟩
  · rintro ⟨x, st, rfl | hx, hst, h⟩
    · exact .inl ⟨st, hst, h⟩
    · exact .inr ⟨x, hx, st, hst, h⟩

/-- R5: what makes a commit IN_USE. -/
theorem State.commitInUse_iff (s : State) (t : RoundTable) : s.commitInUse t = true ↔
    (∃ b e x st, s.burnerEntry? b = some e ∧ (s.burners[b]).state ≠ .off ∧ (x = e.scanner1 ∨ e.scanner2 = some x) ∧
      s.scannerStation x = some st ∧
      ((s.onActiveList st = true ∧ st ∉ t.stations) ∨ (s.onQuickList st = true ∧ st ∈ t.ordinary))) ∨
    (∃ l e, s.lineEntry? l = some e ∧ (s.lines[l]).state ≠ .out ∧ s.onActiveList e.station = true ∧
      e.station ∉ t.stations) ∨
    (s.cooler.state ≠ .stopped ∧
      ((∃ g e, s.runEntry? g = some e ∧ s.onActiveList e.station = true ∧ e.station ∉ t.stations) ∨
        ∃ k e, s.compartmentEntry? k = some e ∧ s.onActiveList e.station = true ∧ e.station ∉ t.stations)) := by
  rw [State.commitInUse, Bool.or_eq_true, Bool.or_eq_true, Bool.and_eq_true, Bool.or_eq_true, or_assoc]
  simp only [any_indices_iff, Option.any_eq_true, Bool.and_eq_true, bne_iff_ne, s.scannersLose_iff, s.removes_iff]
  refine or_congr ?_ Iff.rfl
  constructor
  · rintro ⟨b, e, he, hoff, x, st, h⟩
    exact ⟨b, e, x, st, he, hoff, h⟩
  · rintro ⟨b, e, x, st, he, hoff, h⟩
    exact ⟨b, e, he, hoff, x, st, h⟩

/-- R5: the check of a pending copy. -/
theorem State.checkCommit_of_some {s : State} {t : RoundTable} (h : s.floor.pendingCopy = some t) :
    s.checkCommit =
      if !t.valid then .error .invalid else if s.commitInUse t then .error .inUse else .ok t := by
  rw [State.checkCommit, h]

/-- R157: to take a request off its queue is none of what a commit is checked for. -/
theorem State.checkCommit_popRequest (s : State) : s.popRequest.checkCommit = s.checkCommit := rfl

/-! ### COMMIT_ROUND (R5 to R8) -/

/-- R158: a deferred reply is none of the floor's. -/
@[simp] theorem State.answerCommit_floor (s : State) (r : Result) : (s.answerCommit r).floor = s.floor := by
  unfold State.answerCommit
  split
  · rfl
  · exact (State.floor_of_outer (State.reply_outer ..)).trans rfl

/-- R5: what the owner of COMMIT_ROUND makes of a copy that is refused. -/
theorem handleCommit_error {s : State} {r : Result} (h : s.checkCommit = .error r) (n : Byte) :
    handleCommit s.popRequest n [] = (s.popRequest, some { result := r }) := by
  simp only [handleCommit, withArgs_of_read readArgs_nil, s.checkCommit_popRequest, h]

/-- R8: a copy that passes in HALTED takes effect. -/
theorem handleCommit_halted {s : State} {t : RoundTable} (h : s.checkCommit = .ok t) (hst : s.floor.state = .halted)
    (n : Byte) : handleCommit s.popRequest n [] = ((s.popRequest.activate t).finish, some Answer.ok) := by
  simp only [handleCommit, withArgs_of_read readArgs_nil, s.checkCommit_popRequest, h]
  exact if_pos hst

/-- R7: a copy that passes outside HALTED waits. -/
theorem handleCommit_waits {s : State} {t : RoundTable} (h : s.checkCommit = .ok t) (hst : s.floor.state ≠ .halted)
    (n : Byte) : handleCommit s.popRequest n [] = (s.popRequest.stageCommit t n, none) := by
  simp only [handleCommit, withArgs_of_read readArgs_nil, s.checkCommit_popRequest, h]
  exact if_neg hst

/-- A request whose answer is deferred. -/
theorem State.offers.exec_of_deferred {s u : State} {kind number : Byte} {args : List Byte} {row : Instr} {f : Handler}
    (h : s.offers kind number args) (hexec : Machine.exec row s = (s.serveKind kind f).conclude)
    (hdefer : f s.popRequest number args = (u, none)) : Machine.exec row s = .next u.driveLines := by
  rw [hexec, h.serveKind, hdefer]
  rfl

/-- R7, R8: the copy waits. -/
theorem State.stageCommit_eq (s : State) (t : RoundTable) (n : Byte) :
    s.popRequest.stageCommit t n = { s.popRequest.answerCommit .replaced with
      floor := { s.floor with staged := some t }
      port := { (s.popRequest.answerCommit .replaced).port with deferredCommit := some n } } := by
  have hfloor : (s.popRequest.answerCommit .replaced).floor = s.floor := State.answerCommit_floor ..
  simp only [State.stageCommit, State.modPort, State.modFloor, hfloor]

/-! ### A new active copy (R9, R45) -/

/-- R9: the floor that takes a new copy. -/
def State.copyTaken (s : State) (t : RoundTable) : State :=
  { s with floor := { s.floor with
    active := some t, stations := Vector.ofFn (s.stationUnder t), atQuorum := 0, belowQuorum := 0 } }

theorem State.activate_eq (s : State) (t : RoundTable) :
    s.activate t = (s.copyTaken t).dropScanners fun st => s.onQuickList st && !t.quick.contains st := rfl

theorem State.activate_outer (s : State) (t : RoundTable) : (s.activate t).outer = (s.copyTaken t).outer := by
  rw [s.activate_eq, State.dropScanners_outer]

theorem State.activate_floor (s : State) (t : RoundTable) : (s.activate t).floor = (s.copyTaken t).floor :=
  State.floor_of_outer (s.activate_outer t)

/-- R9: a station's record under the new copy. -/
theorem State.activate_station (s : State) (t : RoundTable) (i : Fin 60) :
    (s.activate t).floor.stations[i] = s.stationUnder t i := by
  rw [s.activate_floor]
  simp only [State.copyTaken, Fin.getElem_fin, Vector.getElem_ofFn]

/-- R45: a station that leaves the quick list. -/
theorem State.leavesQuick_iff (s : State) (t : RoundTable) (st : Nat) :
    (s.onQuickList st && !t.quick.contains st) = true ↔ s.onQuickList st = true ∧ st ∉ t.quick := by
  simp only [Bool.and_eq_true, Bool.not_eq_true', List.contains_eq_mem, decide_eq_false_iff_not]

/-- R9, R45: the scanners of stations that leave the quick list are lost. -/
theorem State.activate_scanners {s : State} {t : RoundTable} {b : Fin 3} {e : BurnerEntry} {st : Nat}
    (he : s.burnerEntry? b = some e) (hquick : s.onQuickList st = true) (hgone : st ∉ t.quick) :
    (s.scannerStation e.scanner1 = some st → ((s.activate t).burners[b]).scanner1 = false) ∧
    (∀ x, e.scanner2 = some x → s.scannerStation x = some st → ((s.activate t).burners[b]).scanner2 = false) := by
  have hleaves := (s.leavesQuick_iff t st).2 ⟨hquick, hgone⟩
  obtain ⟨h1, h2⟩ := State.dropScanners_spec (fun st => s.onQuickList st && !t.quick.contains st) (s.copyTaken t) b e he
  have hstation (x : Scanner) : (s.copyTaken t).scannerStation x = s.scannerStation x := rfl
  rw [s.activate_eq]
  refine ⟨fun hst => ?_, fun x hx hst => ?_⟩
  · rw [h1, hstation, hst, Option.any_some, hleaves, Bool.not_true, Bool.and_false]
  · rw [h2, hx, Option.any_some, hstation, hst, Option.any_some, hleaves, Bool.not_true, Bool.and_false]

/-- Settles O23: a request is judged by the copy's fields, then by what it would take away, and is answered or waits; a
new copy keeps the records of the stations that stay. -/
theorem commitTakesEffect : Obligations.CommitTakesEffect := by
  unfold Obligations.CommitTakesEffect
  refine ⟨fun s number h => ⟨?unconfigured, fun t ht => ⟨?invalid, fun h1 h2 h3 h4 h5 h6 => ?valid⟩⟩,
      State.commitInUse_iff,
    fun s t => ⟨s.activate t, rfl, ?floor, ?kept, ?emptied, fun b e st he hq hgone => State.activate_scanners he hq
    hgone,
      ?outer, ?drops⟩⟩
  case unconfigured =>
    intro hnone
    have hcheck : s.checkCommit = .error .notConfigured := by rw [State.checkCommit, hnone]
    exact h.exec_of_handler rfl (handleCommit_error hcheck number)
  case invalid =>
    intro hbad
    have hvalid : t.valid = false := Bool.eq_false_iff.2 (mt t.valid_iff.1 hbad)
    have hcheck : s.checkCommit = .error .invalid := by rw [State.checkCommit_of_some ht, hvalid]; rfl
    exact h.exec_of_handler rfl (handleCommit_error hcheck number)
  case valid =>
    have hvalid : t.valid = true := t.valid_iff.2 ⟨h1, h2, h3, h4, h5, h6⟩
    have hcheck : s.checkCommit = if s.commitInUse t then .error .inUse else .ok t := by
      rw [State.checkCommit_of_some ht, hvalid]; rfl
    refine ⟨fun huse => ?_, fun huse hst => ?_, fun huse hst => ?_⟩ <;> rw [huse] at hcheck
    · exact h.exec_of_handler rfl (handleCommit_error hcheck number)
    · exact h.exec_of_handler rfl (handleCommit_halted hcheck hst number)
    · exact (h.exec_of_deferred rfl (handleCommit_waits hcheck hst number)).trans
        (congrArg (fun u : State => Host.Outcome.next u.driveLines) (s.stageCommit_eq t number))
  case floor => rw [s.activate_floor]; rfl
  case kept =>
    intro i hi hactive
    rw [s.activate_station, State.stationUnder, List.contains_eq_mem, decide_eq_true hi, hactive]
    rfl
  case emptied =>
    intro i hi
    have hoff : (t.stations.contains (i.val + 1) && s.onActiveList (i.val + 1)) = false := by
      rw [Bool.and_eq_false_iff, List.contains_eq_mem, decide_eq_false_iff_not]
      exact hi
    rw [s.activate_station, State.stationUnder, hoff]
    rfl
  case outer => rw [s.activate_outer, s.activate_floor]; rfl
  case drops =>
    intro gone hgone
    have hgone : gone = fun st => s.onQuickList st && !t.quick.contains st :=
      funext fun st => Bool.eq_iff_iff.2 ((hgone st).trans (s.leavesQuick_iff t st).symm)
    rw [hgone, s.activate_floor]
    rfl

end Sys2Proof.Machine
end

section
/-!
PROOFS. The floor engine's round mark: when it falls, what it settles and opens, and the other units' work at it (R7,
R10, R34).
-/
namespace Sys2Proof.Machine

/-! ### When a mark falls (R10) -/

theorem FloorState.runs_iff (x : FloorState) : x.runs = true ↔ x = .starting ∨ x = .normal ∨ x = .degraded := by
  cases x <;> simp [FloorState.runs]

theorem FloorState.not_runs_iff (x : FloorState) : x.runs = false ↔ x = .halted ∨ x = .single := by
  cases x <;> simp [FloorState.runs]

/-- R10: the next mark is due a period after the last. -/
theorem State.markDue_of_runs {s : State} {t : RoundTable} {r : Round} (hst : s.floor.state.runs = true)
    (ht : s.floor.active = some t) (hr : s.floor.round = some r) : s.markDue = some (r.markTime + r.period) := by
  simp only [State.markDue, hst, ht, hr, Option.isSome_some, Bool.and_self, if_true, Option.map_some]

/-- Log entry 6: without rounds that follow one another no mark is due. -/
theorem State.markDue_none {s : State} (h : s.floor.state.runs = false ∨ s.floor.active = none ∨ s.floor.round = none) :
    s.markDue = none := by
  rcases h with h | h | h
  · simp only [State.markDue, h, Bool.false_and, Bool.false_eq_true, if_false]
  · simp only [State.markDue, h, Option.isSome_none, Bool.and_false, Bool.false_eq_true, if_false]
  · simp only [State.markDue, h, Option.map_none, ite_self]

theorem State.roundMark_of_due {s : State} {t : Time} (h : s.markDue = some t) :
    s.roundMark = (s.advance t).issueMark := by
  rw [State.roundMark, h]

theorem State.roundMark_of_none {s : State} (h : s.markDue = none) : s.roundMark = s := by rw [State.roundMark, h]

/-! ### The round is opened (R7, R10) -/

/-- R2, R10: a frame driven on the lines of the set is the mark of the round opened. -/
theorem State.drive_mark (s : State) (t : RoundTable) :
    (s.modFloor fun f =>
      { f with
        round :=
          some { markTime := s.timeBase, period := t.period, onA := s.floor.linkA.state != .disabled
                 onB := s.floor.linkB.state != .disabled, slots := t.slots, cmdLeft := t.cmdSlots } }).drive
      (s.floor.linkA.state != .disabled) (s.floor.linkB.state != .disabled) (markFrame s.floor.roundNo t) =
      s.roundOpened t := by
  have hset (x : FloorLink) : (if (x.state != .disabled) = true then { x with sent := markFrame s.floor.roundNo t }
      else x) =
      if x.state = .disabled then x else { x with sent := markFrame s.floor.roundNo t } := by
    cases x with | mk state => cases state <;> rfl
  simp only [State.roundOpened, State.drive, State.modFloor, hset]

/-- R7, R10: after the settling of a waiting commit the round of the active copy is opened. -/
theorem State.openRound_of_settled {s u : State} {t : RoundTable}
    (h : (s.modFloor fun f => { f with roundNo := f.roundNo + 1 }).settleCommit = u) (ht : u.floor.active = some t) :
    s.openRound = u.roundOpened t := by
  simp only [State.openRound, h, ht]
  exact u.drive_mark t

/-- R7: no commit waits. -/
theorem State.settleCommit_none {s : State} (h : s.floor.staged = none) : s.settleCommit = s := by
  rw [State.settleCommit, State.commitStaged, h]
  rfl

/-- R7: a commit that would take a station from a running function is dropped. -/
theorem State.settleCommit_dropped {s : State} {c : RoundTable} (h : s.floor.staged = some c)
    (huse : s.commitInUse c = true) :
    s.settleCommit = (s.modFloor fun f => { f with staged := none }).answerCommit .inUse := by
  simp only [State.settleCommit, State.commitStaged, h, huse, if_true, Option.elim_some]

/-- R7: a commit that still passes takes effect. -/
theorem State.settleCommit_done {s : State} {c : RoundTable} (h : s.floor.staged = some c)
    (huse : s.commitInUse c = false) :
    s.settleCommit = ((s.modFloor fun f => { f with staged := none }).activate c).answerCommit .done := by
  simp only [State.settleCommit, State.commitStaged, h, huse, Bool.false_eq_true, if_false, Option.elim_some]

/-- R9: the copy is the active one. -/
theorem State.activate_active (s : State) (t : RoundTable) : (s.activate t).floor.active = some t := by
  rw [s.activate_floor]; rfl

/-! ### Refresh counts (R78, R96) -/

theorem Line.countMark_eq (s : State) (l : Fin 6) : Line.countMark s.lines[l] =
    if s.lineEntry? l ≠ none ∧ (s.lines[l]).state ≠ .out then
      { s.lines[l] with refresh := (s.lines[l]).refresh + 1 } else s.lines[l] := by
  rw [Line.countMark]
  exact if_congr (by rw [Bool.and_eq_true, bne_iff_ne, ← Option.isSome_iff_ne_none]; exact Iff.rfl) rfl rfl

theorem Run.countMark_eq (s : State) (g : Fin 4) : Run.countMark s.cooler.runs[g] =
    if s.runEntry? g ≠ none ∧ (s.cooler.runs[g]).state ≠ .idle then
      { s.cooler.runs[g] with refresh := (s.cooler.runs[g]).refresh + 1 } else s.cooler.runs[g] := by
  rw [Run.countMark]
  exact if_congr (by rw [Bool.and_eq_true, bne_iff_ne, ← Option.isSome_iff_ne_none]; exact Iff.rfl) rfl rfl

theorem Compartment.countMark_eq (s : State) (k : Fin 12) : Compartment.countMark s.cooler.compartments[k] =
    if s.compartmentEntry? k ≠ none then
      { s.cooler.compartments[k] with refresh := (s.cooler.compartments[k]).refresh + 1 }
      else s.cooler.compartments[k] := by
  rw [Compartment.countMark]
  exact if_congr (by rw [← Option.isSome_iff_ne_none]; exact Iff.rfl) rfl rfl

/-! ### Aging (R34) -/

theorem State.stalePoint_iff (s : State) (p : Fin 256) : s.stalePoint p = true ↔ ∃ e, s.pointEntry? p = some e ∧
    ((s.points[p]).quality = .good ∨ (s.points[p]).quality = .bad) ∧
    e.fresh ≤ (s.floor.roundNo - 1 - (s.points[p]).lastRound).toNat := by
  unfold State.stalePoint
  split
  case h_1 hnone => simp [hnone]
  case h_2 e he =>
    rw [Bool.and_eq_true, Bool.or_eq_true, beq_iff_eq, beq_iff_eq, decide_eq_true_iff]
    exact ⟨fun h => ⟨e, he, h⟩, fun ⟨e', he', h⟩ => Option.some.inj (he.symm.trans he') ▸ h⟩

/-- R34: what the other units do at a mark ages the points, and is else none of the outer part. -/
theorem State.markWork_points (s : State) :
    ∃ ps : Vector Point 256, s.markWork.outer = State.outer { s with points := ps } ∧
    ∀ p : Fin 256, ps[p] = if s.stalePoint p then { s.points[p] with quality := .stale } else s.points[p] := by
  obtain ⟨ps, houter, hps⟩ := State.agePoints_spec (s.modQueue CommandQueue.atMark)
  refine ⟨ps, ?_, hps⟩
  rw [State.markWork, State.offerDigest_outer, State.finish_outer, State.coolerMark_outer, State.fuelMark_outer, houter]
  rfl

/-- The points marked STALE, and the consumers told. -/
theorem State.agePoints_eq_pointsChanged {s aged : State} {stale : List (Fin 256)} (hsorted : stale.Pairwise (· < ·))
    (hstale : ∀ p, p ∈ stale ↔ s.stalePoint p = true) (hrest : aged = { s with points := aged.points })
    (hpoints : ∀ p : Fin 256, aged.points[p] =
      if p ∈ stale then { s.points[p] with quality := .stale } else s.points[p]) :
    s.agePoints = aged.pointsChanged stale := by
  have hfilter : (indices 256).filter s.stalePoint = stale :=
    List.Pairwise.eq_of_mem_iff ((List.pairwise_lt_finRange 256).filter _) hsorted fun p => by
      rw [hstale, List.mem_filter]
      exact and_iff_right (List.mem_finRange p)
  have haged : stale.foldl (fun t p => t.modPoint p fun x => { x with quality := .stale }) s = aged := by
    rw [foldl_modPoint_spec (fun _ x => { x with quality := .stale }), hrest]
    refine congrArg (fun ps => ({ s with points := ps } : State)) (Vector.ext fun i hi => ?_)
    exact (foldl_set_get (fun _ x => { x with quality := .stale }) stale s.points
      (hsorted.imp fun h => ne_of_lt h) ⟨i, hi⟩).trans (hpoints ⟨i, hi⟩).symm
  rw [State.agePoints, hfilter, haged]

/-- Settles O24: a mark in the states where rounds follow one another counts, settles the commit, opens the round and
sets the units to work in their order; the points it ages are those whose age has reached their limit. -/
theorem roundMarksIssued : Obligations.RoundMarksIssued := by
  unfold Obligations.RoundMarksIssued
  refine ⟨fun s => ⟨fun t r hst ht hr => ?falls, fun hnone => ?quiet⟩,
    fun s v t ht hv => ⟨fun hstaged => ?opened, fun c hstaged huse => ?dropped, fun c hstaged huse => ?committed⟩,
    fun s u hu => ?counts, fun s q f c r hr hq hf hc => ⟨?work, fun u => rfl⟩, fun s u hu => ?ages⟩
  case falls =>
    have hdue := State.markDue_of_runs ((FloorState.runs_iff _).2 hst) ht hr
    exact congrArg State.conclude (State.roundMark_of_due hdue)
  case quiet =>
    have hdue : s.markDue = none := State.markDue_none (by rwa [FloorState.not_runs_iff, or_assoc])
    exact congrArg State.conclude (State.roundMark_of_none hdue)
  case opened =>
    have hsettled := State.settleCommit_none (s := s.countMark.modFloor fun f => { f with roundNo := f.roundNo + 1 })
        hstaged
    have heq : s.countMark.modFloor (fun f => { f with roundNo := f.roundNo + 1 }) = v := by
      rw [hv, ← hstaged]; rfl
    exact congrArg State.markWork (State.openRound_of_settled (hsettled.trans heq) (by rw [hv]; exact ht))
  case dropped =>
    subst hv
    exact congrArg State.markWork (State.openRound_of_settled (State.settleCommit_dropped hstaged huse)
      ((congrArg Floor.active (State.answerCommit_floor ..)).trans ht))
  case committed =>
    subst hv
    exact congrArg State.markWork (State.openRound_of_settled (State.settleCommit_done hstaged huse)
      ((congrArg Floor.active (State.answerCommit_floor ..)).trans (State.activate_active ..)))
  case counts =>
    subst hu
    refine ⟨fun l => ?_, fun g => ?_, fun k => ?_, rfl⟩
    · exact (Vector.getElem_map ..).trans (Line.countMark_eq s l)
    · exact (Vector.getElem_map ..).trans (Run.countMark_eq s g)
    · exact (Vector.getElem_map ..).trans (Compartment.countMark_eq s k)
  case work =>
    simp only [hc, hf, hq, State.markWork, State.fuelMark, State.coolerMark, State.modQueue, State.modCooler,
        CommandQueue.atMark, hr,
      Option.map_some, Option.getD_some, indices]
  case ages =>
    subst hu
    obtain ⟨ps, houter, hps⟩ := s.markWork_points
    have hpoints : s.markWork.points = ps := State.points_of_outer houter
    refine ⟨fun p e he hq hage => ?_, fun p h => ?_, by rw [houter, hpoints], fun stale aged hsorted hstale => ?_⟩
    · rw [hpoints, hps, if_pos ((s.stalePoint_iff p).2 ⟨e, he, hq, hage⟩)]
    · rw [hpoints, hps, if_neg]
      rw [s.stalePoint_iff]
      rintro ⟨e, he, hq, hage⟩
      rcases h with h | h | h | h
      · exact absurd hage (Nat.not_le.2 (h e he))
      all_goals rw [h] at hq; exact hq.elim nofun nofun
    · exact State.agePoints_eq_pointsChanged hsorted fun p => (hstale p).trans (s.stalePoint_iff p).symm

end Sys2Proof.Machine
end

section
/-!
PROOFS. Station slots: outcomes and their merge, and what an accepted answer is handed on as (R11, R12, R26, R33, R37).
-/
namespace Sys2Proof.Machine

/-! ### Outcomes and their merge (R11, R12) -/

theorem State.countA_eq (s : State) (o : SlotOutcome) (w : List Word16) : s.countA o =
    { s with
      floor := { s.floor with linkA := { s.floor.linkA with stats := s.floor.linkA.stats.plus o } }
      shift := { s.shift with record :=
        { s.shift.record with lostA := lostAfter s.shift.record.lostA (some (o, w)) } } } := by
  rw [← LinkStats.count_eq]
  cases o <;> rfl

theorem State.countB_eq (s : State) (o : SlotOutcome) (w : List Word16) : s.countB o =
    { s with
      floor := { s.floor with linkB := { s.floor.linkB with stats := s.floor.linkB.stats.plus o } }
      shift := { s.shift with record :=
        { s.shift.record with lostB := lostAfter s.shift.record.lostB (some (o, w)) } } } := by
  rw [← LinkStats.count_eq]
  cases o <;> rfl

/-- A change of a station's record that changes nothing. -/
theorem Floor.modStation_same (f : Floor) (st : Nat) : f.modStation st (fun x => x) = f := by
  unfold Floor.modStation
  split
  · rw [Fin.getElem_fin, Vector.set_getElem_self]
  · rfl

/-- R12: a disagreement is counted for the station. -/
theorem State.countDisagree_eq (s : State) (st : Nat) (d : Bool) :
    (if d then s.modFloor fun f => f.modStation st fun x => { x with disagree := satAdd 65535 x.disagree 1 } else s) =
      { s with floor := s.floor.modStation st fun x =>
          { x with disagree := if d then min 65535 (x.disagree + 1) else x.disagree } } := by
  cases d
  · exact congrArg (fun f => ({ s with floor := f } : State)) (s.floor.modStation_same st).symm
  · rfl

/-- R2, R11, R12: one station slot of the round in progress. -/
theorem State.stationSlot_eq (s : State) (r : Round) (st : Nat) (quick : Bool) (rest : List (Nat × Bool))
    (bytesA bytesB : List Byte) {a b : Option (SlotOutcome × List Word16)}
    (ha : a = if r.onA then some (judgeBytes st bytesA) else none)
    (hb : b = if r.onB then some (judgeBytes st bytesB) else none) :
    s.stationSlot r st quick rest bytesA bytesB = State.handOn
      { s with
        floor := Floor.modStation
          { s.floor with
            linkA := s.floor.linkA.slot (callFrame st) a
            linkB := s.floor.linkB.slot (callFrame st) b
            round := some (r.afterSlot st rest a b) } st fun x =>
            { x with disagree := if outcomesDisagree a b then min 65535 (x.disagree + 1) else x.disagree }
        shift := { s.shift with record := { s.shift.record with
          lostA := lostAfter s.shift.record.lostA a
          lostB := lostAfter s.shift.record.lostB b } } }
      st quick (mergeOutcomes a b) := by
  simp only [State.stationSlot, ← ha, ← hb, State.countDisagree_eq]
  cases hA : r.onA <;> cases hB : r.onB <;> rw [hA] at ha <;> rw [hB] at hb <;> subst ha hb <;>
    simp only [if_true, Bool.false_eq_true, if_false, State.drive, State.modFloor,
      State.countA_eq _ _ (judgeBytes st bytesA).2, State.countB_eq _ _ (judgeBytes st bytesB).2] <;> rfl

/-- Log entry 6: without a station slot to come nothing happens. -/
theorem State.slotOutcome_none {s : State} (h : s.floor.round = none ∨ ∃ r, s.floor.round = some r ∧ r.slots = [])
    (t : Time) (bytesA bytesB : List Byte) : s.slotOutcome t bytesA bytesB = s := by
  rcases h with h | ⟨r, h, hslots⟩
  · rw [State.slotOutcome, h]
  · simp only [State.slotOutcome, h, hslots]

theorem State.slotOutcome_cons {s : State} {r : Round} {st : Nat} {quick : Bool} {rest : List (Nat × Bool)}
    (h : s.floor.round = some r) (hslots : r.slots = (st, quick) :: rest) (t : Time) (bytesA bytesB : List Byte) :
    s.slotOutcome t bytesA bytesB = (s.advance t).stationSlot r st quick rest bytesA bytesB := by
  simp only [State.slotOutcome, h, hslots]

/-- R12: with line A not GOOD, line B's words are taken. -/
theorem mergeOutcomes_goodB {a : Option (SlotOutcome × List Word16)} (h : outcomeIs .good a = false) (w : List Word16) :
    mergeOutcomes a (some (.good, w)) = some w := by
  rcases a with _ | ⟨_ | _ | _ | _, v⟩
  case some.good => cases h
  all_goals rfl

/-- R12: without a GOOD line the slot is lost. -/
theorem mergeOutcomes_lost {a b : Option (SlotOutcome × List Word16)} (ha : outcomeIs .good a = false)
    (hb : outcomeIs .good b = false) : mergeOutcomes a b = none := by
  unfold mergeOutcomes
  split
  · cases ha
  · cases hb
  · rfl

/-- R12: a disagreement is one of two GOOD lines whose fields differ. -/
theorem outcomesDisagree_iff (a b : Option (SlotOutcome × List Word16)) :
    outcomesDisagree a b = true ↔ ∃ x y, a = some (.good, x) ∧ b = some (.good, y) ∧ x ≠ y := by
  constructor
  · unfold outcomesDisagree
    split
    · exact fun h => ⟨_, _, rfl, rfl, bne_iff_ne.1 h⟩
    · nofun
  · rintro ⟨x, y, rfl, rfl, h⟩
    exact bne_iff_ne.2 h

/-! ### An accepted answer (R26) -/

/-- R26: the end of an accepted answer's event brings the points no further change. -/
theorem State.handOn_some (s : State) (st : Nat) (quick : Bool) (words : List Word16) :
    (s.handOn st quick (some words)).outer = (s.takeAnswer st words).outer := by
  cases quick
  · exact State.finish_outer ..
  · exact (State.finish_outer ..).trans (State.scannerEvents_outer ..)

/-- R26: a point that an answer reaches, with its word. -/
def State.hitPoint (s : State) (st : Nat) (words : List Word16) (p : Fin 256) :
    Option (Fin 256 × PointEntry × Word16) :=
  match s.pointEntry? p with
  | none => none
  | some e => if e.station = st then (words[e.field]?).map fun w => (p, e, w) else none

theorem State.hitPoints_eq (s : State) (st : Nat) (words : List Word16) :
    s.hitPoints st words = (List.finRange 256).filterMap (s.hitPoint st words) := rfl

theorem State.hitPoint_fst {s : State} {st : Nat} {words : List Word16} {p : Fin 256}
    {x : Fin 256 × PointEntry × Word16}
    (h : s.hitPoint st words p = some x) : x.1 = p := by
  unfold State.hitPoint at h
  split at h
  · cases h
  · split_ifs at h
    obtain ⟨w, -, rfl⟩ := Option.map_eq_some_iff.1 h
    rfl

/-- R26: the points that an answer reaches come in ascending number. -/
theorem State.hitPoints_sorted (s : State) (st : Nat) (words : List Word16) :
    (s.hitPoints st words).Pairwise fun x y => x.1 < y.1 := by
  rw [s.hitPoints_eq]
  refine (List.pairwise_lt_finRange 256).filterMap _ fun p q hpq x hx y hy => ?_
  rw [State.hitPoint_fst hx, State.hitPoint_fst hy]
  exact hpq

/-- R37: what is told of a changed point. -/
theorem pointChanged_iff (x y : Point) : pointChanged x y = true ↔
    y.quality ≠ x.quality ∨ (y.value ≠ x.value ∧ (y.quality = .good ∨ y.quality = .forced)) := by
  rw [pointChanged, Bool.or_eq_true, Bool.and_eq_true, bne_iff_ne, bne_iff_ne, Quality.readable_iff, ne_comm,
    ne_comm (a := x.value)]

/-- R31, R32: the increments that an answer forms, with whether each is kept. -/
def State.formedBy (s : State) (st : Nat) (words : List Word16) : List (Fin 256 × Nat × Bool) :=
  (s.hitPoints st words).filterMap fun h =>
    ((s.points[h.1]).formed h.2.1 h.2.2 s.floor.roundNo).map fun n => (h.1, n)

theorem State.formedBy_mem (s : State) (st : Nat) (words : List Word16) (p : Fin 256) (n : Nat × Bool) :
    (p, n) ∈ s.formedBy st words ↔ ∃ e w, s.pointEntry? p = some e ∧ e.station = st ∧ words[e.field]? = some w ∧
      (s.points[p]).formed e w s.floor.roundNo = some n := by
  simp only [State.formedBy, List.mem_filterMap, Option.map_eq_some_iff, Prod.mk.injEq]
  constructor
  · rintro ⟨⟨q, e, w⟩, hmem, m, hm, rfl, rfl⟩
    obtain ⟨he, hst, hw⟩ := (s.hitPoints_mem st words q e w).1 hmem
    exact ⟨e, w, he, hst, hw, hm⟩
  · rintro ⟨e, w, he, hst, hw, hm⟩
    exact ⟨(p, e, w), (s.hitPoints_mem st words p e w).2 ⟨he, hst, hw⟩, n, hm, rfl, rfl⟩

theorem State.formedBy_sorted (s : State) (st : Nat) (words : List Word16) :
    (s.formedBy st words).Pairwise fun x y => x.1 < y.1 := by
  refine (s.hitPoints_sorted st words).filterMap _ fun x y hxy u hu v hv => ?_
  obtain ⟨m, -, rfl⟩ := Option.map_eq_some_iff.1 hu
  obtain ⟨n, -, rfl⟩ := Option.map_eq_some_iff.1 hv
  exact hxy

/-- Lists in ascending number with the same members are one list. -/
theorem eq_of_sorted_fst {α : Type} {l l' : List (Fin 256 × α)} (h : (l.map (·.1)).Pairwise (· < ·))
    (h' : (l'.map (·.1)).Pairwise (· < ·)) (hmem : ∀ x, x ∈ l ↔ x ∈ l') : l = l' := by
  have hanti : Std.Antisymm fun x y : Fin 256 × α => x.1 < y.1 := ⟨fun x y hxy hyx => absurd hyx hxy.asymm⟩
  have hirrefl : Std.Irrefl fun x y : Fin 256 × α => x.1 < y.1 := ⟨fun x => lt_irrefl x.1⟩
  exact List.Pairwise.eq_of_mem_iff (List.pairwise_map.1 h) (List.pairwise_map.1 h') hmem

/-- R33: the kept increments of an answer. -/
theorem State.keptIncrements_eq {s : State} {st : Nat} {words : List Word16} {increments : List (Fin 256 × Nat)}
    (hsorted : (increments.map (·.1)).Pairwise (· < ·))
    (hmem : ∀ p n, (p, n) ∈ increments ↔ ∃ e w, s.pointEntry? p = some e ∧ e.station = st ∧ words[e.field]? = some w ∧
      (s.points[p]).formed e w s.floor.roundNo = some (n, true)) :
    ((s.formedBy st words).filter (·.2.2)).map (fun f => (f.1, f.2.1)) = increments := by
  refine eq_of_sorted_fst ?_ hsorted fun x => ?_
  · rw [List.map_map, List.pairwise_map]
    exact (s.formedBy_sorted st words).filter _
  · obtain ⟨p, n⟩ := x
    rw [hmem, ← s.formedBy_mem st words p (n, true), List.mem_map]
    constructor
    · rintro ⟨⟨q, m, kept⟩, hf, hq⟩
      obtain ⟨rfl, rfl⟩ := Prod.mk.injEq .. ▸ hq
      obtain ⟨hf, rfl : kept = true⟩ := List.mem_filter.1 hf
      exact hf
    · exact fun hf => ⟨(p, n, true), List.mem_filter.2 ⟨hf, rfl⟩, rfl⟩

/-- R26: the points after an answer. -/
theorem State.answered_points {s u : State} {st : Nat} {words : List Word16}
    (hhit : ∀ p e w, s.pointEntry? p = some e → e.station = st → words[e.field]? = some w →
      u.points[p] = (s.points[p]).take e w s.floor.roundNo)
    (hmiss : ∀ p : Fin 256, (∀ e, s.pointEntry? p = some e → e.station ≠ st ∨ words.length ≤ e.field) →
      u.points[p] = s.points[p]) :
    (s.hitPoints st words).foldl (fun t h => t.modPoint h.1 fun x => x.take h.2.1 h.2.2 s.floor.roundNo) s =
      { s with points := u.points } := by
  obtain ⟨ps, hfold, hps⟩ := foldl_hits (fun h x => x.take h.2.1 h.2.2 s.floor.roundNo) (s.hitPoints st words) s
  have hps := hps (s.hitPoints_nodup st words)
  rw [hfold]
  refine congrArg (fun ps => ({ s with points := ps } : State)) (Vector.ext fun i hi => ?_)
  by_cases hreached : ∃ e w, ((⟨i, hi⟩ : Fin 256), e, w) ∈ s.hitPoints st words
  · obtain ⟨e, w, hmem⟩ := hreached
    obtain ⟨he, hst, hw⟩ := (s.hitPoints_mem st words ⟨i, hi⟩ e w).1 hmem
    exact ((hps ⟨i, hi⟩).1 _ hmem rfl).trans (hhit ⟨i, hi⟩ e w he hst hw).symm
  · refine ((hps ⟨i, hi⟩).2 fun x hx hxi => hreached ⟨x.2.1, x.2.2, hxi ▸ hx⟩).trans (hmiss ⟨i, hi⟩ fun e he => ?_).symm
    by_contra hno
    obtain ⟨hst, hfield⟩ := not_or.1 hno
    exact hreached ⟨e, words[e.field]'(not_le.1 hfield), (s.hitPoints_mem st words ⟨i, hi⟩ e _).2
      ⟨he, not_not.1 hst, List.getElem?_eq_getElem (not_le.1 hfield)⟩⟩

/-- R37: the points that an answer changed. -/
theorem State.changedPoints_eq {s u : State} {st : Nat} {words : List Word16} {changed : List (Fin 256)}
    (hmiss : ∀ p : Fin 256, (∀ e, s.pointEntry? p = some e → e.station ≠ st ∨ words.length ≤ e.field) →
      u.points[p] = s.points[p])
    (hsorted : changed.Pairwise (· < ·))
    (hmem : ∀ p : Fin 256, p ∈ changed ↔ (u.points[p]).quality ≠ (s.points[p]).quality ∨
      ((u.points[p]).value ≠ (s.points[p]).value ∧
        ((u.points[p]).quality = .good ∨ (u.points[p]).quality = .forced))) :
    ((s.hitPoints st words).map (·.1)).filter (fun p => pointChanged s.points[p] u.points[p]) = changed := by
  refine List.Pairwise.eq_of_mem_iff ((List.pairwise_map.2 (s.hitPoints_sorted st words)).filter _) hsorted fun p => ?_
  rw [hmem, ← pointChanged_iff, List.mem_filter]
  refine and_iff_right_of_imp fun hchanged => ?_
  by_contra hno
  have hsame : u.points[p] = s.points[p] := hmiss p fun e he => by
    by_contra hreached
    obtain ⟨hst, hfield⟩ := not_or.1 hreached
    exact hno (List.mem_map.2 ⟨(p, e, words[e.field]'(not_le.1 hfield)), (s.hitPoints_mem st words p e _).2
      ⟨he, not_not.1 hst, List.getElem?_eq_getElem (not_le.1 hfield)⟩, rfl⟩)
  rw [hsame, pointChanged_iff] at hchanged
  exact hchanged.elim (fun h => h rfl) fun h => h.1 rfl

/-- R26: an answer is taken whole, then told, settled and delivered. -/
theorem State.takeAnswer_eq {s t : State} {st : Nat} {words : List Word16} (ht : (s.hitPoints st words).foldl
      (fun t h => t.modPoint h.1 fun x => x.take h.2.1 h.2.2 s.floor.roundNo) s = t) :
    s.takeAnswer st words = (((s.formedBy st words).filter (·.2.2)).map fun f => (f.1, f.2.1)).foldl
      (fun t i => (t.deliverLines i.1 i.2).deliverRuns i.1 i.2)
      ((if (s.formedBy st words).any (fun f => !f.2.2) then t.flagRecord fun f => { f with countersImplausible := true }
        else t).pointsChanged
        (((s.hitPoints st words).map (·.1)).filter fun p => pointChanged s.points[p] t.points[p])).settle := by
  subst ht
  rw [List.foldl_map]
  rfl

/-- R147: an implausible increment flags the record. -/
theorem State.flagImplausible_eq (t : State) (flag : Bool) :
    (if flag then t.flagRecord fun f => { f with countersImplausible := true } else t) =
      { t with shift := { t.shift with record := { t.shift.record with flags := { t.shift.record.flags with
          countersImplausible := t.shift.record.flags.countersImplausible || flag } } } } := by
  cases flag
  · simp only [Bool.false_eq_true, if_false, Bool.or_false]
  · simp only [if_true, Bool.or_true]; rfl

end Sys2Proof.Machine
end

section
/-!
PROOFS. Station slots: the consumers of points and of counter increments, and what a merged slot is handed on as (R33,
R37, R45, R87).
-/
namespace Sys2Proof.Machine

/-! ### The consumers of changed points (R37) -/

/-- R37: the permissives on changed points. -/
theorem PermKind.names_iff (changed : List (Fin 256)) (k : PermKind) : k.names changed = true ↔
    ∃ p t, p ∈ changed ∧ (k = .pointAtLeast p t ∨ k = .pointAtMost p t) := by
  cases k <;> simp [PermKind.names]

theorem State.pointsChanged_nil (s : State) : s.pointsChanged [] = s := rfl

theorem State.pointsChanged_of_ne_nil (s : State) {changed : List (Fin 256)} (h : changed ≠ []) :
    s.pointsChanged changed =
      ((s.visitPermissives (PermKind.names changed)).checkFaultBits changed).pressureChanged changed := by
  rw [State.pointsChanged, List.isEmpty_eq_false_iff.2 h]
  rfl

/-- R47: the permissives are visited burner by burner, in list order. -/
theorem State.visitPermissives_steps (s : State) (sel : PermKind → Bool) : ∃ visit : State → Fin 3 → State,
    s.visitPermissives sel = (List.finRange 3).foldl visit s ∧
    ∀ (t : State) (b : Fin 3), (t.burnerEntry? b = none → visit t b = t) ∧
      ∀ e, t.burnerEntry? b = some e → visit t b = e.permissives.zipIdx.foldl
        (fun t x => if sel x.1.kind = true then t.visitPermissive b (x.2 + 1) x.1 else t) t := by
  refine ⟨_, rfl, fun t b => ⟨fun h => ?_, fun e h => ?_⟩⟩
  · simp only [h]
  · simp only [h]

/-- R97: the law is evaluated for the runs on a changed pressure. -/
theorem State.pressureChanged_steps (s : State) (changed : List (Fin 256)) : ∃ law : State → Fin 4 → State,
    s.pressureChanged changed = (List.finRange 4).foldl law s ∧
    ∀ (t : State) (g : Fin 4),
      (∀ e, t.runEntry? g = some e → e.pressure ∈ changed → law t g = t.applyLaw g) ∧
      ((∀ e, t.runEntry? g = some e → e.pressure ∉ changed) → law t g = t) := by
  refine ⟨_, rfl, fun t g => ⟨fun e h hmem => ?_, fun h => ?_⟩⟩
  · simp only [h, Option.any_some, List.contains_eq_mem, hmem, decide_true, if_true]
  · refine if_neg fun hany => ?_
    obtain ⟨e, he, hmem⟩ := (Option.any_eq_true ..).1 hany
    exact h e he (by rwa [List.contains_eq_mem, decide_eq_true_eq] at hmem)

/-- R33, R101: an increment reaches the runs that count by the point. -/
theorem State.deliverRuns_steps (s : State) (p : Fin 256) (n : Nat) : ∃ take : State → Fin 4 → State,
    s.deliverRuns p n = (List.finRange 4).foldl take s ∧
    ∀ (t : State) (g : Fin 4),
      (∀ e, t.runEntry? g = some e → e.counter = p → take t g = t.confirmStrokes g e n) ∧
      ((∀ e, t.runEntry? g = some e → e.counter ≠ p) → take t g = t) := by
  refine ⟨_, rfl, fun t g => ⟨fun e h hp => ?_, fun h => ?_⟩⟩
  · simp only [h, hp, if_true]
  · cases he : t.runEntry? g with
    | none => rfl
    | some e => simp only [h e he, if_false]

/-! ### The lines of a delivered counter (R33, R87) -/

/-- R85, R87: what an increment handed to a line does, by the mass and the pieces it stands for. -/
theorem State.deliverToLine_eq (t : State) (l : Fin 6) {k : LineKind} {m : Metering} {n mass pieces : Nat}
    (hm : k.metering? = some m) (hcont : ∀ m' tol win, k = .continuous m' tol win → mass = n ∧ pieces = 0)
    (hpiece : ∀ m' kg gap, k = .piece m' kg gap → mass = n * kg * 10 ∧ pieces = n) :
    t.deliverToLine l k m n =
      { t with
        lines := t.lines.set l { t.lines[l] with
          lifetime :=
            { mass := add64 (t.lines[l]).lifetime.mass mass
              heat := add64 (t.lines[l]).lifetime.heat (mass * m.cv)
              pieces := add64 (t.lines[l]).lifetime.pieces pieces }
          deviation :=
            if (t.lines[l]).state = .feeding ∧ k.isContinuous = true then
              { (t.lines[l]).deviation with increments := (t.lines[l]).deviation.increments + n }
            else (t.lines[l]).deviation }
        shift := { t.shift with record := { t.shift.record with
          lines := t.shift.record.lines.set l
            { mass := add64 (t.shift.record.lines[l]).mass mass
              heat := add64 (t.shift.record.lines[l]).heat (mass * m.cv)
              pieces := min top32 ((t.shift.record.lines[l]).pieces + pieces) } } } } := by
  have hmass : deliveredMass k n = mass ∧ deliveredPieces k n = pieces := by
    cases k with
    | continuous m' tol win => obtain ⟨rfl, rfl⟩ := hcont m' tol win rfl; exact ⟨rfl, rfl⟩
    | piece m' kg gap => obtain ⟨rfl, rfl⟩ := hpiece m' kg gap rfl; exact ⟨rfl, rfl⟩
    | ignition => cases hm
  obtain ⟨rfl, rfl⟩ := hmass
  simp only [State.deliverToLine, Bool.and_eq_true, beq_iff_eq]
  rfl

/-- R33, R87: an increment reaches the lines that meter by the point. -/
theorem State.deliverLines_steps (s : State) (p : Fin 256) (n : Nat) : ∃ take : State → Fin 6 → State,
    s.deliverLines p n = (List.finRange 6).foldl take s ∧
    ∀ (t : State) (l : Fin 6),
      (∀ e m, t.lineEntry? l = some e → e.kind.metering? = some m → m.counter = p →
        take t l = t.deliverToLine l e.kind m n) ∧
      ((∀ e m, t.lineEntry? l = some e → e.kind.metering? = some m → m.counter ≠ p) → take t l = t) := by
  refine ⟨_, rfl, fun t l => ⟨fun e m he hm hp => ?_, fun h => ?_⟩⟩
  · simp only [he, hm, hp, if_true]
  · cases he : t.lineEntry? l with
    | none => rfl
    | some e =>
      cases hm : e.kind.metering? with
      | none => simp only [hm]
      | some m => simp only [hm, h e m he hm, if_false]

/-! ### The obligation -/

/-- Settles O25: a slot by the lines of the round's set; the merge by its cases; an answer's points, flag, changes and
increments by the lists of what it reaches, each in ascending number. -/
theorem slotOutcomesMerged : Obligations.SlotOutcomesMerged := by
  unfold Obligations.SlotOutcomesMerged
  refine ⟨fun s time bytesA bytesB => ⟨fun r st quick rest a b hr hslots ha hb => ?slot, fun h => ?noSlot⟩,
    fun a b v w => ⟨?goodA, fun ha hb => ?goodB, fun ha hb => ?lost, outcomesDisagree_iff a b⟩,
    fun s u st quick => ⟨rfl, rfl, fun words hu => ?points⟩,
    fun s u st words round changed increments hround hhit hmiss hflag hsorted hchanged hisorted hincrements => ?handed,
    fun s changed sel hsel => ⟨s.pointsChanged_nil, fun h => ?told, s.visitPermissives_steps,
    s.pressureChanged_steps changed,
      s.deliverRuns_steps⟩,
    fun s p n => ?lines⟩
  case slot =>
    exact congrArg State.conclude ((State.slotOutcome_cons hr hslots time bytesA bytesB).trans
      (State.stationSlot_eq _ r st quick rest bytesA bytesB ha hb))
  case noSlot => exact congrArg State.conclude (State.slotOutcome_none h time bytesA bytesB)
  case goodA => rintro rfl; rfl
  case goodB => rw [hb, mergeOutcomes_goodB ha]
  case lost => exact mergeOutcomes_lost ha hb
  case points =>
    subst hu
    obtain ⟨ps, houter, hhit, hmiss⟩ := s.takeAnswer_spec st words
    have houter : (s.handOn st quick (some words)).outer = State.outer { s with points := ps } :=
      (s.handOn_some st quick words).trans houter
    rw [State.points_of_outer houter]
    exact ⟨hhit, hmiss, houter⟩
  case handed =>
    subst hround
    have hu := hflag ((s.formedBy st words).any fun f => !f.2.2) (by
      simp only [List.any_eq_true, Prod.exists, s.formedBy_mem, Bool.not_eq_true']
      constructor
      · rintro ⟨p, n, kept, ⟨e, w, he, hst, hw, hf⟩, rfl⟩
        exact ⟨p, e, w, n, he, hst, hw, hf⟩
      · rintro ⟨p, e, w, n, he, hst, hw, hf⟩
        exact ⟨p, n, false, ⟨e, w, he, hst, hw, hf⟩, rfl⟩)
    refine ⟨?_, rfl, rfl⟩
    rw [State.takeAnswer_eq (State.answered_points hhit hmiss), State.keptIncrements_eq hisorted hincrements,
      State.changedPoints_eq hmiss hsorted hchanged, State.flagImplausible_eq]
    exact congrArg (fun u : State => increments.foldl (fun t i => (t.deliverLines i.1 i.2).deliverRuns i.1 i.2)
      (u.pointsChanged changed).settle) hu.symm
  case told =>
    have hsel : sel = PermKind.names changed :=
      funext fun k => Bool.eq_iff_iff.2 ((hsel k).trans (PermKind.names_iff changed k).symm)
    rw [hsel, s.pointsChanged_of_ne_nil h]
  case lines =>
    obtain ⟨take, hfold, htake⟩ := s.deliverLines_steps p n
    refine ⟨take, hfold, fun t l => ⟨fun e m mass pieces he hm hp hcont hpiece => ?_, (htake t l).2⟩⟩
    rw [(htake t l).1 e m he hm hp]
    exact t.deliverToLine_eq l hm hcont hpiece

end Sys2Proof.Machine
end

section
/-!
PROOFS. The answers of stations (R164).
-/
namespace Sys2Proof.Machine

/-! ### Answer bytes (R164) -/

/-- R164: the payload of an answer of station `id`. -/
def answerPayload (id : Byte) (ws : List Word16) : List Byte := id :: ws.flatMap fun w => beBytes 2 w.toNat

theorem answerPayload_length (id : Byte) (ws : List Word16) : (answerPayload id ws).length = 2 * ws.length + 1 := by
  rw [answerPayload, List.length_cons, wordBytes_length]

theorem frameBytes_cons (kind : Byte) (payload : List Byte) : frameBytes kind payload =
    kind :: BitVec.ofNat 8 payload.length ::
      (payload ++ beBytes 2 (frameCheck (kind :: BitVec.ofNat 8 payload.length :: payload)).toNat) := rfl

/-- R164: a whole answer frame is judged by its id. -/
theorem judgeBytes_answer (st : Nat) (id : Byte) {ws : List Word16} (h : ws.length ≤ 8) :
    judgeBytes st (frameBytes 0x03#8 (answerPayload id ws)) =
      if id = BitVec.ofNat 8 st then (.good, ws) else (.foreign, []) := by
  have hplen := answerPayload_length id ws
  have hlen : (BitVec.ofNat 8 (answerPayload id ws).length).toNat = (answerPayload id ws).length := by
    rw [BitVec.toNat_ofNat, Nat.mod_eq_of_lt (by omega)]
  rw [frameBytes_cons, judgeBytes]
  simp only [hlen, List.take_left, List.drop_left]
  have hwhole : ¬ ((0x03#8 : Byte) ≠ 0x03#8 ∨ (answerPayload id ws).length % 2 = 0 ∨ 17 < (answerPayload id ws).length ∨
      (answerPayload id ws ++ beBytes 2 (frameCheck
        (0x03#8 :: BitVec.ofNat 8 (answerPayload id ws).length :: answerPayload id ws)).toNat).length ≠
        (answerPayload id ws).length + 2) := by
    rw [List.length_append, beBytes_length, hplen]
    simp only [ne_eq, not_true_eq_false, false_or, or_false]
    omega
  rw [if_neg hwhole, if_neg (not_not.2 rfl)]
  exact if_congr Option.some_inj (congrArg (Prod.mk SlotOutcome.good) (answerWords_bytes ws)) rfl

/-- R164: what is at hand of bytes: none, a whole answer frame, or neither. -/
theorem judgeBytes_cases (bytes : List Byte) :
    bytes = [] ∨ (∃ id ws, ws.length ≤ 8 ∧ bytes = frameBytes 0x03#8 (answerPayload id ws)) ∨
      ∀ st, judgeBytes st bytes = (.corrupt, []) := by
  match bytes with
  | [] => exact .inl rfl
  | [_] => exact .inr (.inr fun st => rfl)
  | kind :: len :: rest =>
    by_cases hshape : kind ≠ 0x03#8 ∨ len.toNat % 2 = 0 ∨ 17 < len.toNat ∨ rest.length ≠ len.toNat + 2
    · exact .inr (.inr fun st => if_pos hshape)
    by_cases hcheck : rest.drop len.toNat ≠ beBytes 2 (frameCheck (kind :: len :: rest.take len.toNat)).toNat
    · exact .inr (.inr fun st => (if_neg hshape).trans (if_pos hcheck))
    rw [not_not] at hcheck
    obtain ⟨hkind, hodd, hmax, hrest⟩ : kind = 0x03#8 ∧ len.toNat % 2 ≠ 0 ∧ len.toNat ≤ 17 ∧
        rest.length = len.toNat + 2 := by simpa only [not_or, not_not, not_lt] using hshape
    have htake : (rest.take len.toNat).length = len.toNat := by rw [List.length_take]; omega
    obtain ⟨id, words, hpayload⟩ : ∃ id words, rest.take len.toNat = id :: words :=
      List.exists_cons_of_length_pos (by omega)
    have hwords : words.length = 2 * (len.toNat / 2) := by
      rw [hpayload, List.length_cons] at htake
      omega
    obtain ⟨hcount, hspelt⟩ := bytes_answerWords _ words hwords
    have hanswer : answerPayload id (answerWords words) = rest.take len.toNat := by rw [answerPayload, hspelt, hpayload]
    refine .inr (.inl ⟨id, answerWords words, by omega, ?_⟩)
    rw [frameBytes_cons, hanswer, htake, BitVec.ofNat_toNat, BitVec.setWidth_eq, ← hkind, ← hcheck,
        List.take_append_drop]

/-- Settles O26: bytes are none, a whole answer frame, or neither, and only a whole frame is judged by the id in it. -/
theorem answerBytesJudged : Obligations.AnswerBytesJudged := by
  unfold Obligations.AnswerBytesJudged
  intro st bytes words
  rcases judgeBytes_cases bytes with rfl | ⟨id, ws, hlen, rfl⟩ | hcorrupt
  case inl =>
    refine ⟨⟨nofun, fun h => ?_⟩, ⟨fun _ => rfl, fun _ => rfl⟩, ⟨nofun, fun ⟨other, ws, h, _⟩ => ?_⟩⟩
    · cases h.2
    · cases h
  case inr.inl =>
    simp only [judgeBytes_answer _ id hlen]
    refine ⟨⟨fun h => ?_, fun ⟨hwords, hbytes⟩ => ?_⟩, ⟨fun h => ?_, nofun⟩,
        ⟨fun h => ?_, fun ⟨other, ws', h, hother⟩ => ?_⟩⟩
    · split_ifs at h with hid
      · cases h
        exact ⟨hlen, by rw [hid]; rfl⟩
      · cases h
    · rw [← judgeBytes_answer st id hlen, hbytes]
      exact (judgeBytes_answer st _ hwords).trans (if_pos rfl)
    · split_ifs at h
    · split_ifs at h with hid
      exact ⟨id.toNat, ws, if_pos (BitVec.ofNat_toNat 8 id).symm, by rwa [BitVec.ofNat_toNat, BitVec.setWidth_eq]⟩
    · split_ifs at h with hid
      · rw [if_neg (hid ▸ hother)]
      · cases h
  case inr.inr =>
    simp only [hcorrupt]
    refine ⟨⟨nofun, fun ⟨hwords, hbytes⟩ => ?_⟩, ⟨nofun, fun h => ?_⟩, ⟨nofun, nofun⟩⟩
    · have hgood := (congrArg (judgeBytes st) hbytes).trans ((judgeBytes_answer st _ hwords).trans (if_pos rfl))
      exact absurd (congrArg Prod.fst ((hcorrupt st).symm.trans hgood)) nofun
    · exact absurd (congrArg Prod.fst ((hcorrupt st).symm.trans (congrArg (judgeBytes st) h))) nofun

end Sys2Proof.Machine
end

section
/-!
PROOFS. The judgement of a round: presence, line health, state and cause set, and what it faults (R12 to R15, R18, R19,
R70, R84).
-/
namespace Sys2Proof.Machine

/-! ### What a judgement leaves to its parts -/

/-- R12 to R15: the floor with presence and line health judged, before its state follows. -/
def State.measuredFloor (s : State) (t : RoundTable) (r : Round) : Floor :=
  { s.floor with
    stations := Vector.ofFn (s.judgedStation r)
    presence := presenceCount t r
    linkA := if r.onA then s.floor.linkA.judge r.goodA else s.floor.linkA
    linkB := if r.onB then s.floor.linkB.judge r.goodB else s.floor.linkB
    round := some { r with judged := true } }

/-- The floor without what R18 and R19 judge: state, cause set and counts. -/
def Floor.unjudged (f : Floor) : Floor :=
  { f with state := .halted, causes := {}, atQuorum := 0, belowQuorum := 0, startCount := 0 }

theorem Floor.lineCauses_of_runs {f : Floor} (h : f.state.runs = true) : f.lineCauses =
    { f with causes := { f.causes with lineA := f.linkA.state == .failed, lineB := f.linkB.state == .failed } } :=
  if_pos h

@[simp] theorem Floor.lineCauses_unjudged (f : Floor) : f.lineCauses.unjudged = f.unjudged := by
  unfold Floor.lineCauses; split <;> rfl

@[simp] theorem Floor.countQuorum_unjudged (f : Floor) (t : RoundTable) (n : Nat) :
    (f.countQuorum t n).unjudged = f.unjudged := by
  unfold Floor.countQuorum; split <;> rfl

@[simp] theorem Floor.follow_unjudged (f : Floor) : f.follow.unjudged = f.unjudged := by
  unfold Floor.follow; split <;> rfl

@[simp] theorem Floor.judgeStart_unjudged (f : Floor) (t : RoundTable) : (f.judgeStart t).unjudged = f.unjudged := by
  unfold Floor.judgeStart; dsimp only; split_ifs <;> rfl

@[simp] theorem Floor.judgeQuorum_unjudged (f : Floor) : f.judgeQuorum.unjudged = f.unjudged :=
  Floor.follow_unjudged _

/-- R18, R19: rounds that follow one another are judged by the floor's state. -/
theorem State.judgedFloor_starting {s : State} (h : s.floor.state = .starting) (t : RoundTable) (r : Round) :
    s.judgedFloor t r = ((s.measuredFloor t r).lineCauses.countQuorum t (presenceCount t r)).judgeStart t := by
  simp only [State.judgedFloor, h]
  rw [← h]
  rfl

theorem State.judgedFloor_running {s : State} (h : s.floor.state = .normal ∨ s.floor.state = .degraded) (t : RoundTable)
    (r : Round) :
    s.judgedFloor t r = ((s.measuredFloor t r).lineCauses.countQuorum t (presenceCount t r)).judgeQuorum := by
  rcases h with h | h <;> simp only [State.judgedFloor, h] <;> rw [← h] <;> rfl

/-- R20: a single round moves presence and line health alone. -/
theorem State.judgedFloor_quiet {s : State} (h : s.floor.state = .halted ∨ s.floor.state = .single) (t : RoundTable)
    (r : Round) : s.judgedFloor t r = s.measuredFloor t r := by
  rcases h with h | h <;> simp only [State.judgedFloor, h] <;> rw [← h] <;> rfl

/-- Presence, line health and the round are those measured, whatever the floor's state. -/
theorem State.judgedFloor_unjudged (s : State) (t : RoundTable) (r : Round) :
    (s.judgedFloor t r).unjudged = (s.measuredFloor t r).unjudged := by
  cases h : s.floor.state with
  | halted => rw [State.judgedFloor_quiet (.inl h)]
  | single => rw [State.judgedFloor_quiet (.inr h)]
  | starting => rw [State.judgedFloor_starting h]; simp
  | normal => rw [State.judgedFloor_running (.inl h)]; simp
  | degraded => rw [State.judgedFloor_running (.inr h)]; simp

theorem State.judgedFloor_presence (s : State) (t : RoundTable) (r : Round) :
    (s.judgedFloor t r).presence = presenceCount t r :=
  (congrArg Floor.presence (s.judgedFloor_unjudged t r) :)

theorem State.judgedFloor_round (s : State) (t : RoundTable) (r : Round) :
    (s.judgedFloor t r).round = some { r with judged := true } :=
  (congrArg Floor.round (s.judgedFloor_unjudged t r) :)

theorem State.judgedFloor_stations (s : State) (t : RoundTable) (r : Round) :
    (s.judgedFloor t r).stations = Vector.ofFn (s.judgedStation r) :=
  (congrArg Floor.stations (s.judgedFloor_unjudged t r) :)

theorem State.judgedFloor_linkA (s : State) (t : RoundTable) (r : Round) :
    (s.judgedFloor t r).linkA = if r.onA then s.floor.linkA.judge r.goodA else s.floor.linkA :=
  (congrArg Floor.linkA (s.judgedFloor_unjudged t r) :)

theorem State.judgedFloor_linkB (s : State) (t : RoundTable) (r : Round) :
    (s.judgedFloor t r).linkB = if r.onB then s.floor.linkB.judge r.goodB else s.floor.linkB :=
  (congrArg Floor.linkB (s.judgedFloor_unjudged t r) :)

/-! ### Presence (R12, R13) -/

theorem presenceCount_eq (t : RoundTable) (r : Round) :
    presenceCount t r = (t.ordinary.filter fun st => decide (st ∈ r.accepted)).length :=
  congrArg (fun f => (t.ordinary.filter f).length) (funext fun _ => List.contains_eq_mem ..)

/-- R12, R13: the record of a station that is on no list. -/
theorem State.judgedStation_off {s : State} {i : Fin 60} (h : s.onActiveList (i.val + 1) = false) (r : Round) :
    s.judgedStation r i = { s.floor.stations[i] with misplaced := r.foreign.contains (i.val + 1) } := by
  simp only [State.judgedStation, h, Bool.false_eq_true, if_false]

/-- R12, R13: the record of a station whose answer was accepted. -/
theorem State.judgedStation_accepted {s : State} {r : Round} {i : Fin 60} (h : s.onActiveList (i.val + 1) = true)
    (hacc : i.val + 1 ∈ r.accepted) : s.judgedStation r i =
      { s.floor.stations[i] with misplaced := r.foreign.contains (i.val + 1), present := true, absence := 0 } := by
  simp only [State.judgedStation, h, List.contains_eq_mem, hacc, decide_true, if_true]

/-- R12, R13: the record of a station without an accepted answer. -/
theorem State.judgedStation_absent {s : State} {r : Round} {i : Fin 60} (h : s.onActiveList (i.val + 1) = true)
    (hacc : i.val + 1 ∉ r.accepted) : s.judgedStation r i =
      { s.floor.stations[i] with
        misplaced := r.foreign.contains (i.val + 1), present := false
        absence := min 255 ((s.floor.stations[i]).absence + 1) } := by
  simp only [State.judgedStation, h, List.contains_eq_mem, hacc, decide_false, if_true, Bool.false_eq_true, if_false]
  rfl

/-- R12: neither the count of disagreements nor the foreign mark depends on the list. -/
theorem State.judgedStation_always (s : State) (r : Round) (i : Fin 60) :
    (s.judgedStation r i).disagree = (s.floor.stations[i]).disagree ∧
      ((s.judgedStation r i).misplaced = true ↔ i.val + 1 ∈ r.foreign) := by
  have hforeign : r.foreign.contains (i.val + 1) = true ↔ i.val + 1 ∈ r.foreign := List.contains_iff_mem
  cases hon : s.onActiveList (i.val + 1)
  · rw [State.judgedStation_off hon]
    exact ⟨rfl, hforeign⟩
  · by_cases hacc : i.val + 1 ∈ r.accepted
    · rw [State.judgedStation_accepted hon hacc]
      exact ⟨rfl, hforeign⟩
    · rw [State.judgedStation_absent hon hacc]
      exact ⟨rfl, hforeign⟩

/-! ### What a judgement faults (R84) -/

/-- R84: a line is judged by its station's absence counter. -/
theorem State.checkAbsences_steps (s : State) : ∃ judge : State → Fin 6 → State,
    s.checkAbsences = (List.finRange 6).foldl judge s ∧
    ∀ (t : State) (l : Fin 6),
      (∀ e, t.lineEntry? l = some e → e.absenceLimit ≤ (t.floor.stationAt e.station).absence →
        judge t l = t.faultLine l .absent) ∧
      ((∀ e, t.lineEntry? l = some e → (t.floor.stationAt e.station).absence < e.absenceLimit) → judge t l = t) := by
  refine ⟨_, rfl, fun t l => ⟨fun e he h => ?_, fun h => ?_⟩⟩
  · simp only [he, h, if_true]
  · cases he : t.lineEntry? l with
    | none => rfl
    | some e => exact if_neg (Nat.not_le.2 (h e he))

/-- R84: a line is judged by its fault bit, where its point changed. -/
theorem State.checkFaultBits_steps (s : State) (changed : List (Fin 256)) : ∃ judge : State → Fin 6 → State,
    s.checkFaultBits changed = (List.finRange 6).foldl judge s ∧
    ∀ (t : State) (l : Fin 6),
      (∀ e, t.lineEntry? l = some e → e.flagPoint ∈ changed → t.faultBitSet e = true →
        judge t l = t.faultLine l .faultBit) ∧
      ((∀ e, t.lineEntry? l = some e → e.flagPoint ∉ changed ∨ t.faultBitSet e = false) → judge t l = t) := by
  refine ⟨_, rfl, fun t l => ⟨fun e he hmem hset => ?_, fun h => ?_⟩⟩
  · simp only [he, List.contains_eq_mem, hmem, decide_true, hset, Bool.and_self, if_true]
  · cases he : t.lineEntry? l with
    | none => rfl
    | some e =>
      refine if_neg fun hboth => ?_
      rw [Bool.and_eq_true, List.contains_iff_mem] at hboth
      exact (h e he).elim (fun hno => hno hboth.1) fun hno => absurd hboth.2 (Bool.eq_false_iff.1 hno)

/-- ROUND_JUDGEMENT: a round whose slots are known is judged. -/
theorem State.roundJudgement_ready {s : State} {r : Round} {t : RoundTable} (hr : s.floor.round = some r)
    (ht : s.floor.active = some t) (hslots : r.slots = []) (hjudged : r.judged = false) :
    s.roundJudgement = ((s.modFloor fun _ => s.judgedFloor t r).reportQuorum.checkAbsences).finish := by
  simp only [State.roundJudgement, hr, ht, hslots, hjudged, List.isEmpty_nil, Bool.not_false, Bool.and_self, if_true]

/-- Log entry 6: without a round to judge nothing happens. -/
theorem State.roundJudgement_none {s : State} (h : s.floor.round = none ∨ s.floor.active = none ∨
    (∃ r, s.floor.round = some r ∧ (r.slots ≠ [] ∨ r.judged = true))) : s.roundJudgement = s := by
  unfold State.roundJudgement
  split
  case h_1 r t hr ht =>
    rcases h with h | h | ⟨r', hr', h⟩
    · cases h.symm.trans hr
    · cases h.symm.trans ht
    · cases hr'.symm.trans hr
      refine if_neg fun hready => ?_
      rw [Bool.and_eq_true, List.isEmpty_iff, Bool.not_eq_true'] at hready
      exact h.elim (fun hno => hno hready.1) fun hno => absurd hno (Bool.eq_false_iff.1 hready.2)
  case h_2 => rfl

/-- Settles O27: the judgement's row by its cases, the stations by theirs, and the two passes over the lines. -/
theorem roundsJudged : Obligations.RoundsJudged := by
  unfold Obligations.RoundsJudged
  refine ⟨fun s => ⟨fun r t hr ht hslots hjudged => ⟨_, congrArg State.conclude
      (State.roundJudgement_ready hr ht hslots hjudged), State.setHoldAll_spec _ _ _⟩,
      fun h => congrArg State.conclude (State.roundJudgement_none h)⟩,
    fun s t r f hf => ⟨?presence, ?round, fun i => ?station⟩,
    fun s => ⟨s.checkAbsences_steps, s.checkFaultBits_steps⟩⟩
  case presence => rw [hf, s.judgedFloor_presence, presenceCount_eq]
  case round => rw [hf, s.judgedFloor_round]
  case station =>
    have hi : f.stations[i] = s.judgedStation r i := by
      rw [hf, s.judgedFloor_stations]
      exact Vector.getElem_ofFn ..
    rw [hi]
    obtain ⟨hdisagree, hforeign⟩ := s.judgedStation_always r i
    refine ⟨hdisagree, hforeign, fun hon hacc => ?_, fun hon hacc => ?_, fun hoff => ?_⟩
    · rw [State.judgedStation_accepted hon hacc]; exact ⟨rfl, rfl⟩
    · rw [State.judgedStation_absent hon hacc]; exact ⟨rfl, rfl⟩
    · rw [State.judgedStation_off hoff]; exact ⟨rfl, rfl⟩

/-! ### Line health (R15) -/

/-- R15: a live round counts no dead one. -/
theorem FloorLink.judge_true (x : FloorLink) : x.judge true = x.judgeRuns true := by
  have hstats : (x.judgeRuns true).stats = x.stats := by unfold FloorLink.judgeRuns; split <;> (try split) <;> rfl
  rw [FloorLink.judge, if_pos rfl, ← hstats]

/-- R15: a round without a GOOD slot is counted. -/
theorem FloorLink.judge_false (x : FloorLink) :
    x.judge false = { x.judgeRuns false with stats := { x.stats with dead := x.stats.dead + 1 } } := rfl

theorem FloorLink.judgeRuns_ok {x : FloorLink} (h : x.state = .ok) (good : Bool) : x.judgeRuns good =
    if good then { x with deadRun := 0 }
    else if 4 ≤ x.deadRun + 1 then { x with state := .failed, deadRun := 0, liveRun := 0 }
    else { x with deadRun := x.deadRun + 1 } := by
  cases x
  subst h
  cases good <;> rfl

theorem FloorLink.judgeRuns_failed {x : FloorLink} (h : x.state = .failed) (good : Bool) : x.judgeRuns good =
    if good then
      if 8 ≤ x.liveRun + 1 then { x with state := .ok, deadRun := 0, liveRun := 0 }
      else { x with liveRun := x.liveRun + 1 }
    else { x with liveRun := 0 } := by
  cases x
  subst h
  cases good <;> rfl

/-- Settles O28: a line's health by its state and its run. -/
theorem lineHealthJudged : Obligations.LineHealthJudged := by
  unfold Obligations.LineHealthJudged
  rintro s t r x dead rfl
  refine ⟨s.judgedFloor_linkA t r, s.judgedFloor_linkB t r, fun h => ?okLive, fun h hrun => ?okDead,
      fun h hrun => ?fails,
    fun h => ?failedDead, fun h hrun => ?failedLive, fun h hrun => ?recovers⟩
  case okLive => rw [x.judge_true, FloorLink.judgeRuns_ok h]; rfl
  case okDead => rw [x.judge_false, FloorLink.judgeRuns_ok h, if_neg nofun, if_neg (by omega)]
  case fails => rw [x.judge_false, FloorLink.judgeRuns_ok h, if_neg nofun, if_pos (by omega)]
  case failedDead => rw [x.judge_false, FloorLink.judgeRuns_failed h, if_neg nofun]
  case failedLive => rw [x.judge_true, FloorLink.judgeRuns_failed h, if_pos rfl, if_neg (by omega)]
  case recovers => rw [x.judge_true, FloorLink.judgeRuns_failed h, if_pos rfl, if_pos (by omega)]

/-! ### State and cause set (R18, R19) -/

theorem Floor.follow_of_running {f : Floor} (h : f.state = .normal ∨ f.state = .degraded) :
    f.follow = { f with state := if f.causes = {} then .normal else .degraded } := by
  have hstate : (if f.causes.isEmpty then FloorState.normal else .degraded) = if f.causes = {} then .normal
      else .degraded :=
    if_congr f.causes.isEmpty_iff rfl rfl
  rcases h with h | h <;> rw [Floor.follow, h, hstate]

/-- R19: the quorum cause by the run counts. -/
def Floor.quorumJudged (f : Floor) : Bool :=
  if f.belowQuorum = 3 then true else if f.atQuorum = 3 then false else f.causes.quorum

theorem Floor.judgeQuorum_of_running {f : Floor} (h : f.state = .normal ∨ f.state = .degraded) :
    f.judgeQuorum =
      { f with
        causes := { f.causes with quorum := f.quorumJudged }
        state := if { f.causes with quorum := f.quorumJudged } = ({} : CauseSet) then .normal else .degraded } :=
  Floor.follow_of_running h

/-- R18: a starting floor whose quorum stands. -/
theorem Floor.judgeStart_quorate {f : Floor} (h : f.atQuorum = 3) (t : RoundTable) : f.judgeStart t =
    { f with startCount := f.startCount + 1, state := if f.causes = {} then .normal else .degraded } := by
  have hstate : (if f.causes.isEmpty then FloorState.normal else .degraded) = if f.causes = {} then .normal
      else .degraded :=
    if_congr f.causes.isEmpty_iff rfl rfl
  simp only [Floor.judgeStart, h, if_true, hstate]

/-- R18: a starting floor whose window is over. -/
theorem Floor.judgeStart_late {f : Floor} {t : RoundTable} (h : f.atQuorum ≠ 3)
    (hwindow : t.window ≤ f.startCount + 1) :
    f.judgeStart t =
      { f with startCount := f.startCount + 1, state := .degraded, causes := { f.causes with quorum := true } } :=
  (if_neg h).trans (if_pos hwindow)

/-- R18: a starting floor that goes on. -/
theorem Floor.judgeStart_waits {f : Floor} {t : RoundTable} (h : f.atQuorum ≠ 3)
    (hwindow : f.startCount + 1 < t.window) :
    f.judgeStart t = { f with startCount := f.startCount + 1 } :=
  (if_neg h).trans (if_neg (Nat.not_le.2 hwindow))

/-- R19: the line causes and the quorum run counts after the round. -/
def State.countedFloor (s : State) (t : RoundTable) (r : Round) : Floor :=
  { s.measuredFloor t r with
    causes := { s.floor.causes with
      lineA := (s.measuredFloor t r).linkA.state == .failed, lineB := (s.measuredFloor t r).linkB.state == .failed }
    atQuorum := if t.quorum ≤ presenceCount t r then min 3 (s.floor.atQuorum + 1) else 0
    belowQuorum := if t.quorum ≤ presenceCount t r then 0 else min 3 (s.floor.belowQuorum + 1) }

theorem State.countedFloor_eq {s : State} (h : s.floor.state.runs = true) (t : RoundTable) (r : Round) :
    (s.measuredFloor t r).lineCauses.countQuorum t (presenceCount t r) = s.countedFloor t r := by
  rw [Floor.lineCauses_of_runs (f := s.measuredFloor t r) h]
  by_cases hquorum : t.quorum ≤ presenceCount t r <;>
    simp only [State.countedFloor, Floor.countQuorum, hquorum, if_true, if_false] <;> rfl

theorem Floor.judgeStart_startCount (f : Floor) (t : RoundTable) : (f.judgeStart t).startCount = f.startCount + 1 := by
  unfold Floor.judgeStart
  dsimp only
  split_ifs <;> rfl

/-- R18, R19: what both judgements keep of the counts and line causes. -/
theorem Floor.judgeStart_counts (f : Floor) (t : RoundTable) :
    (f.judgeStart t).atQuorum = f.atQuorum ∧ (f.judgeStart t).belowQuorum = f.belowQuorum ∧
      (f.judgeStart t).causes.lineA = f.causes.lineA ∧ (f.judgeStart t).causes.lineB = f.causes.lineB := by
  by_cases hquorum : f.atQuorum = 3
  · rw [Floor.judgeStart_quorate hquorum]
    exact ⟨rfl, rfl, rfl, rfl⟩
  rcases Nat.lt_or_ge (f.startCount + 1) t.window with hwindow | hwindow
  · rw [Floor.judgeStart_waits hquorum hwindow]
    exact ⟨rfl, rfl, rfl, rfl⟩
  · rw [Floor.judgeStart_late hquorum hwindow]
    exact ⟨rfl, rfl, rfl, rfl⟩

theorem Floor.judgeQuorum_counts {f : Floor} (h : f.state = .normal ∨ f.state = .degraded) :
    f.judgeQuorum.atQuorum = f.atQuorum ∧ f.judgeQuorum.belowQuorum = f.belowQuorum ∧
      f.judgeQuorum.causes.lineA = f.causes.lineA ∧ f.judgeQuorum.causes.lineB = f.causes.lineB := by
  rw [Floor.judgeQuorum_of_running h]
  exact ⟨rfl, rfl, rfl, rfl⟩

/-- R18, R19: the counts of a judgement where rounds follow one another. -/
theorem State.judgedFloor_counts {s : State} (h : s.floor.state.runs = true) (t : RoundTable) (r : Round) :
    (s.judgedFloor t r).atQuorum = (s.countedFloor t r).atQuorum ∧
      (s.judgedFloor t r).belowQuorum = (s.countedFloor t r).belowQuorum ∧
      (s.judgedFloor t r).causes.lineA = (s.countedFloor t r).causes.lineA ∧
      (s.judgedFloor t r).causes.lineB = (s.countedFloor t r).causes.lineB := by
  rcases (FloorState.runs_iff _).1 h with hst | hst
  · rw [State.judgedFloor_starting hst, State.countedFloor_eq h]
    exact Floor.judgeStart_counts ..
  · rw [State.judgedFloor_running hst, State.countedFloor_eq h]
    exact Floor.judgeQuorum_counts hst

/-- Settles O29: a single round leaves the state alone; else the counts and line causes are taken first, and state and
quorum cause follow from them. -/
theorem floorStateJudged : Obligations.FloorStateJudged := by
  unfold Obligations.FloorStateJudged
  rintro s t r f p hf rfl
  have hpresence : f.presence = presenceCount t r := by rw [hf, s.judgedFloor_presence]
  refine ⟨fun h => ?quiet, fun h => ?counts, fun h => ?running, fun hst => ?starting⟩
  case quiet =>
    rw [hf, State.judgedFloor_quiet h]
    exact ⟨rfl, rfl, rfl, rfl, rfl⟩
  case counts =>
    obtain ⟨hat, hbelow, hA, hB⟩ := State.judgedFloor_counts ((FloorState.runs_iff _).2 h) t r
    rw [hpresence, hf, hat, hbelow, hA, hB, s.judgedFloor_linkA, s.judgedFloor_linkB]
    refine ⟨rfl, rfl, fun h => ⟨if_pos h, if_pos h⟩, fun h => ⟨if_neg (Nat.not_le.2 h), if_neg (Nat.not_le.2 h)⟩⟩
  case running =>
    have hruns := (FloorState.runs_iff _).2 (.inr h)
    have hf : f = (s.countedFloor t r).judgeQuorum := by
      rw [hf, State.judgedFloor_running h, State.countedFloor_eq hruns]
    rw [hf, Floor.judgeQuorum_of_running (f := s.countedFloor t r) h]
    refine ⟨rfl, fun hbelow => if_pos hbelow, fun hat => ?_, fun hbelow hat => ?_, rfl⟩
    · have hbelow : (s.countedFloor t r).belowQuorum ≠ 3 := ?_
      · exact (if_neg hbelow).trans (if_pos hat)
      · intro hbelow
        by_cases hquorum : t.quorum ≤ presenceCount t r
        · exact absurd ((if_pos hquorum).symm.trans hbelow) nofun
        · exact absurd ((if_neg hquorum).symm.trans hat) nofun
    · exact (if_neg hbelow).trans (if_neg hat)
  case starting =>
    have hruns := (FloorState.runs_iff _).2 (.inl hst)
    have hf : f = (s.countedFloor t r).judgeStart t := by
      rw [hf, State.judgedFloor_starting hst, State.countedFloor_eq hruns]
    obtain ⟨hat, -⟩ := Floor.judgeStart_counts (s.countedFloor t r) t
    have hcount : f.startCount = s.floor.startCount + 1 := hf ▸ Floor.judgeStart_startCount ..
    rw [hcount]
    refine ⟨rfl, fun h => ?_, fun h hwindow => ?_, fun h hwindow => ?_⟩ <;> rw [hf, hat] at h <;> rw [hf]
    · rw [Floor.judgeStart_quorate h]
      exact ⟨rfl, rfl⟩
    · rw [Floor.judgeStart_late h hwindow]
      exact ⟨rfl, rfl⟩
    · rw [Floor.judgeStart_waits h hwindow]
      exact ⟨rfl, hst⟩

end Sys2Proof.Machine
end

section
/-!
PROOFS. Command slots, the end of a round and the halt, and the requests that start and stop rounds (R14, R16, R17, R20,
R21, R113, R158, R161).
-/
namespace Sys2Proof.Machine

/-! ### Command slots (R14, R113) -/

/-- R14: without a judged round or without slots left nothing happens. -/
theorem State.commandSlot_none {s : State}
    (h : s.floor.round = none ∨ ∃ r, s.floor.round = some r ∧ (r.judged = false ∨ r.cmdLeft = 0)) (t : Time) :
    s.commandSlot t = s := by
  rcases h with h | ⟨r, hr, h⟩
  · rw [State.commandSlot, h]
  · simp only [State.commandSlot, hr]
    refine if_neg fun hready => ?_
    rw [Bool.and_eq_true, decide_eq_true_iff] at hready
    exact h.elim (fun hno => absurd hready.1 (Bool.eq_false_iff.1 hno)) fun hno => absurd hready.2 (by omega)

/-- R14: a command slot of a judged round. -/
theorem State.commandSlot_ready {s : State} {r : Round} (hr : s.floor.round = some r) (hjudged : r.judged = true)
    (hleft : 0 < r.cmdLeft) (t : Time) {u : State} (hu : u = ((s.advance t).modFloor fun f =>
        { f with round := some { r with cmdLeft := r.cmdLeft - 1 } }).sendHead r) :
    s.commandSlot t = if r.cmdLeft = 1 then u.endRound else u := by
  rw [hu]
  simp only [State.commandSlot, hr, hjudged, hleft, decide_true, Bool.and_self, if_true]

theorem State.sendHead_nil {s : State} (h : s.queue.list = []) (r : Round) : s.sendHead r = s := by
  rw [State.sendHead, h]

theorem State.sendHead_cons {s : State} {e : QueueEntry} {rest : List QueueEntry} (h : s.queue.list = e :: rest)
    (r : Round) :
    s.sendHead r = ((s.setCommands rest).drive r.onA r.onB (commandFrame e)).tellSent e := by
  rw [State.sendHead, h]

/-- R113: a STROKE of COOLER origin is told to the run of its drive station. -/
theorem State.tellSent_stroke {s : State} {e : QueueEntry} (hkind : e.kind = .stroke) (horigin : e.origin = .cooler) :
    s.tellSent e = (s.commandRun e.station).elim s s.strokeSent := by
  rw [State.tellSent, hkind, horigin]

/-- R113: nobody is told of another command. -/
theorem State.tellSent_other (s : State) {e : QueueEntry} (h : e.kind ≠ .stroke ∨ e.origin ≠ .cooler) :
    s.tellSent e = s := by
  unfold State.tellSent
  split
  case h_1 hkind horigin => exact (h.elim (· hkind) (· horigin)).elim
  case h_2 => rfl

/-- Settles O30: a slot by the queue's head, the telling by kind and origin, the frames by their bytes. -/
theorem commandSlotSendsHead : Obligations.CommandSlotSendsHead := by
  unfold Obligations.CommandSlotSendsHead
  refine ⟨fun s t => ⟨fun r u hr hjudged hleft hnil hcons => ?slot,
      fun h => congrArg State.conclude (State.commandSlot_none h t)⟩,
    fun s e => ⟨fun hkind horigin => ⟨fun g hg => ?run, fun hg => ?noRun⟩, s.tellSent_other⟩,
    fun roundNo t st code e => ⟨?mark, ?call, fun hcode => ?command⟩⟩
  case slot =>
    refine congrArg State.conclude (State.commandSlot_ready hr hjudged hleft t ?_)
    cases hlist : s.queue.list with
    | nil =>
      rw [hnil hlist]
      exact (State.sendHead_nil (s := (s.advance t).modFloor fun f =>
        { f with round := some { r with cmdLeft := r.cmdLeft - 1 } }) hlist r).symm
    | cons e rest =>
      rw [hcons e rest hlist]
      exact (State.sendHead_cons (s := (s.advance t).modFloor fun f =>
        { f with round := some { r with cmdLeft := r.cmdLeft - 1 } }) hlist r).symm
  case run => rw [State.tellSent_stroke hkind horigin, hg]; rfl
  case noRun => rw [State.tellSent_stroke hkind horigin, hg]; rfl
  case mark => simp [markFrame, beBytes]
  case call => simp [callFrame, beBytes]
  case command =>
    have hcode : e.kind.floorCode = code := by
      simp only [List.mem_cons, Prod.mk.injEq, List.not_mem_nil, or_false] at hcode
      rcases hcode with ⟨hk, rfl⟩ | ⟨hk, rfl⟩ | ⟨hk, rfl⟩ | ⟨hk, rfl⟩ | ⟨hk, rfl⟩ | ⟨hk, rfl⟩ <;> rw [hk] <;> rfl
    simp [commandFrame, hcode, beBytes]

/-! ### The end of a round (R20, R21) -/

/-- R21: the three conditions of a stop. -/
theorem State.stopAllowed_iff (s : State) : s.stopAllowed = true ↔
    (∀ b e, s.burnerEntry? b = some e → (s.burners[b]).state = .off ∨ (s.burners[b]).state = .lockout) ∧
    (∀ l e, s.lineEntry? l = some e →
      ((s.lines[l]).state = .out ∨ (s.lines[l]).state = .ready) ∧ (s.lines[l]).feed = 0) ∧
    s.cooler.state = .stopped := by
  have hunused {α : Type} (o : Option α) (p : Prop) : (o.isNone = true ∨ p) ↔ ∀ e, o = some e → p := by
    cases o <;> simp
  simp only [State.stopAllowed, Bool.and_eq_true, List.all_eq_true, Bool.or_eq_true, beq_iff_eq, indices,
    List.mem_finRange, true_imp_iff, or_assoc, and_assoc]
  simp only [hunused]

theorem State.endRound_single {s : State} (h : s.floor.state = .single) : s.endRound = s.halt := if_pos h

theorem State.endRound_goes_on {s : State} (h : s.floor.state ≠ .single) (hstop : s.floor.stopWaiting = false) :
    s.endRound = s := by
  rw [State.endRound, if_neg h, hstop]
  rfl

theorem State.endRound_stops {s : State} (h : s.floor.state ≠ .single) (hstop : s.floor.stopWaiting = true) :
    s.endRound = s.settleStop := by
  rw [State.endRound, if_neg h, hstop]
  rfl

/-- R20, R21: a halt, by what becomes of the commit that waits. -/
theorem State.halt_of_staged {s u : State} {o : Option Result} (h : s.haltFloor.commitStaged = (u, o)) :
    s.halt = (o.elim (u.finish.offerDigest.answerSingle) (u.finish.offerDigest.answerSingle).answerCommit).answerStop
    .done := by
  rw [State.halt, h]

theorem State.commitStaged_none {s : State} (h : s.floor.staged = none) : s.commitStaged = (s, none) := by
  rw [State.commitStaged, h]

theorem State.commitStaged_dropped {s : State} {t : RoundTable} (h : s.floor.staged = some t)
    (huse : s.commitInUse t = true) :
    s.commitStaged = (s.modFloor fun f => { f with staged := none }, some .inUse) := by
  simp only [State.commitStaged, h, huse, if_true]

theorem State.commitStaged_done {s : State} {t : RoundTable} (h : s.floor.staged = some t)
    (huse : s.commitInUse t = false) :
    s.commitStaged = ((s.modFloor fun f => { f with staged := none }).activate t, some .done) := by
  simp only [State.commitStaged, h, huse, Bool.false_eq_true, if_false]

/-- R20, R21, R161: the floor in HALTED, before QUORUM is withdrawn. -/
def State.floorHalted (s : State) : State :=
  { s with floor := { s.floor with
      state := .halted, causes := {}, round := none, stopWaiting := false, haltTimer := some (s.timeBase + 1000) } }

theorem State.haltFloor_eq (s : State) : s.haltFloor = s.floorHalted.setHoldAll .quorum false := rfl

/-- R20, R21: to enter HALTED leaves the commit that waits. -/
theorem State.haltFloor_staged (s : State) : s.haltFloor.floor.staged = s.floor.staged := by
  rw [s.haltFloor_eq, State.floor_of_outer (State.setHoldAll_outer ..)]
  rfl

theorem State.answerCommit_none {s : State} (h : s.port.deferredCommit = none) (r : Result) : s.answerCommit r = s := by
  rw [State.answerCommit, h]

theorem State.answerCommit_some {s : State} {n : Byte} (h : s.port.deferredCommit = some n) (r : Result) :
    s.answerCommit r = (s.modPort fun p => { p with deferredCommit := none }).reply n 0x04#8 { result := r } := by
  rw [State.answerCommit, h]
  rfl

theorem State.answerSingle_none {s : State} (h : s.port.deferredSingle = none) : s.answerSingle = s := by
  rw [State.answerSingle, h]

theorem State.answerSingle_some {s : State} {n : Byte} (h : s.port.deferredSingle = some n) :
    s.answerSingle = (s.modPort fun p => { p with deferredSingle := none }).reply n 0x07#8 { result := .done } := by
  rw [State.answerSingle, h]
  rfl

theorem State.answerStop_none {s : State} (h : s.port.deferredStop = none) (r : Result) : s.answerStop r = s := by
  rw [State.answerStop, h]

theorem State.answerStop_some {s : State} {n : Byte} (h : s.port.deferredStop = some n) (r : Result) :
    s.answerStop r = (s.modPort fun p => { p with deferredStop := none }).reply n 0x08#8 { result := r } := by
  rw [State.answerStop, h]
  rfl

/-- R161: the digest timer runs in HALTED alone. -/
theorem State.haltedDigest_some {s : State} {t : Time} (h : s.floor.haltTimer = some t) :
    s.haltedDigest = State.offerDigest { s with
      timeBase := max s.timeBase t
      floor := { s.floor with haltTimer := some (max s.timeBase t + 1000) } } := by
  rw [State.haltedDigest, h]
  rfl

theorem State.haltedDigest_none {s : State} (h : s.floor.haltTimer = none) : s.haltedDigest = s := by
  rw [State.haltedDigest, h]

/-- Settles O31: the end of a round by the floor's state and the stop that waits; the halt by the commit that waits;
each deferred reply and the digest timer by their own two cases. -/
theorem roundEnds : Obligations.RoundEnds := by
  unfold Obligations.RoundEnds
  refine ⟨fun s => ⟨State.endRound_single, State.endRound_goes_on,
      fun h hstop => ⟨fun hok => ?halts, fun hno => ?abandoned⟩,
      s.stopAllowed_iff⟩,
    fun s => ⟨s.haltFloor, s.haltFloor_eq ▸ s.floorHalted.setHoldAll_spec .quorum false, fun h => ?noCommit,
    fun t taken h htaken => ?commit⟩,
    fun s n r => ⟨fun h => State.answerCommit_some h r, fun h => State.answerCommit_none h r, State.answerSingle_some,
      State.answerSingle_none, fun h => State.answerStop_some h r, fun h => State.answerStop_none h r⟩,
    fun s => ⟨fun t h => congrArg State.conclude (State.haltedDigest_some h),
      fun h => congrArg State.conclude (State.haltedDigest_none h)⟩⟩
  case halts => rw [State.endRound_stops h hstop, State.settleStop, if_pos hok]
  case abandoned => rw [State.endRound_stops h hstop, State.settleStop, hno]; rfl
  case noCommit => rw [State.halt_of_staged (State.commitStaged_none (s.haltFloor_staged.trans h)), Option.elim_none]
  case commit =>
    subst htaken
    have hstaged := s.haltFloor_staged.trans h
    refine ⟨fun huse => ?_, fun huse => ?_⟩
    · rw [State.halt_of_staged (State.commitStaged_dropped hstaged huse), Option.elim_some]
      rfl
    · rw [State.halt_of_staged (State.commitStaged_done hstaged huse), Option.elim_some]
      rfl

end Sys2Proof.Machine
end

section
/-!
PROOFS. The requests that start and stop rounds, and the enabling of a floor line (R16, R17, R20, R21).
-/
namespace Sys2Proof.Machine

/-! ### START_ROUNDS and SINGLE_ROUND (R17, R20) -/

theorem State.startRefusal_notPermitted {s : State} (h : s.floor.state ≠ .halted ∨ (s.floor.active ≠ none ∧
    s.floor.linkA.state = .disabled ∧ s.floor.linkB.state = .disabled)) : s.startRefusal = some .notPermitted := by
  by_cases hst : s.floor.state = .halted
  · obtain ⟨hactive, hA, hB⟩ := h.resolve_left (not_not.2 hst)
    have hsome : ¬ s.floor.active.isNone = true := mt Option.isNone_iff_eq_none.1 hactive
    rw [State.startRefusal, if_neg (not_not.2 hst), if_neg hsome, if_pos ⟨hA, hB⟩]
  · exact if_pos hst

theorem State.startRefusal_notConfigured {s : State} (hst : s.floor.state = .halted) (h : s.floor.active = none) :
    s.startRefusal = some .notConfigured := by
  rw [State.startRefusal, if_neg (not_not.2 hst), h]
  rfl

theorem State.startRefusal_none {s : State} (hst : s.floor.state = .halted) (h : s.floor.active ≠ none)
    (hlinks : s.floor.linkA.state ≠ .disabled ∨ s.floor.linkB.state ≠ .disabled) : s.startRefusal = none := by
  have hsome : ¬ s.floor.active.isNone = true := mt Option.isNone_iff_eq_none.1 h
  rw [State.startRefusal, if_neg (not_not.2 hst), if_neg hsome, if_neg (not_and_or.2 hlinks)]

theorem handleStart_refused {s : State} {r : Result} (h : s.startRefusal = some r) (n : Byte) :
    handleStart s.popRequest n [] = (s.popRequest, some { result := r }) := by
  have h : s.popRequest.startRefusal = some r := h
  exact answering_eq readArgs_nil (by rw [h]; rfl) n

theorem handleStart_taken {s : State} (h : s.startRefusal = none) (n : Byte) :
    handleStart s.popRequest n [] = (s.popRequest.startRounds, some Answer.ok) := by
  have h : s.popRequest.startRefusal = none := h
  exact answering_eq readArgs_nil (by rw [h]) n

theorem handleSingle_refused {s : State} {r : Result} (h : s.startRefusal = some r) (n : Byte) :
    handleSingle s.popRequest n [] = (s.popRequest, some { result := r }) := by
  have h : s.popRequest.startRefusal = some r := h
  rw [handleSingle, withArgs_of_read readArgs_nil, h]

theorem handleSingle_taken {s : State} (h : s.startRefusal = none) (n : Byte) :
    handleSingle s.popRequest n [] = (s.popRequest.startSingle n, none) := by
  have h : s.popRequest.startRefusal = none := h
  rw [handleSingle, withArgs_of_read readArgs_nil, h]

/-! ### STOP_ROUNDS (R21) -/

theorem State.stopRefused_iff (s : State) :
    s.stopRefused = true ↔ s.floor.state = .halted ∨ s.floor.stopWaiting = true ∨
    (s.floor.state ≠ .single ∧ s.stopAllowed = false) := by
  cases h : s.floor.state <;> simp [State.stopRefused, h]

/-- R21: the last command slot of the round has passed. -/
theorem State.roundEnded_iff (s : State) : s.roundEnded = true ↔
    s.floor.round = none ∨ ∃ r, s.floor.round = some r ∧ r.judged = true ∧ r.cmdLeft = 0 := by
  cases h : s.floor.round <;> simp [State.roundEnded, h]

/-- R21: a stop that is taken waits for the end of the round. -/
def State.stopTaken (s : State) (n : Byte) : State :=
  { s with floor := { s.floor with stopWaiting := true }, port := { s.port with deferredStop := some n } }

theorem State.takeStop_eq (s : State) (n : Byte) : s.takeStop n =
    if (s.floor.state.runs && s.roundEnded) then (s.stopTaken n).settleStop else s.stopTaken n := rfl

theorem handleStop_refused {s : State} (h : s.stopRefused = true) (n : Byte) :
    handleStop s.popRequest n [] = (s.popRequest, some { result := .notPermitted }) := by
  have h : s.popRequest.stopRefused = true := h
  rw [handleStop, withArgs_of_read readArgs_nil, if_pos h]

theorem handleStop_taken {s : State} (h : s.stopRefused = false) (n : Byte) :
    handleStop s.popRequest n [] = (s.popRequest.takeStop n, none) := by
  have h : ¬ s.popRequest.stopRefused = true := Bool.eq_false_iff.1 h
  rw [handleStop, withArgs_of_read readArgs_nil, if_neg h]

/-- R21: where rounds follow one another a stop that is allowed is settled by a halt. -/
theorem State.stopTaken_settles {s : State} (h : s.stopAllowed = true) (n : Byte) :
    (s.stopTaken n).settleStop = (s.stopTaken n).halt := if_pos h

/-- Settles O32: what refuses a start and what refuses a stop, by the floor's state; a stop is settled at once or
waits. -/
theorem roundsStartAndStop : Obligations.RoundsStartAndStop := by
  unfold Obligations.RoundsStartAndStop
  refine ⟨fun s n => ⟨fun hrefuse => ?notPermitted, fun hst hnone => ?notConfigured, fun hst hsome hlinks => ?started⟩,
    fun s w n h hw => ⟨fun hrefuse => ?stopRefused, fun hst hwait => ?stopSingle,
      fun hhalted hsingle hwait hallowed => ?stopTaken⟩⟩
  case notPermitted =>
    have hr := State.startRefusal_notPermitted hrefuse
    exact ⟨fun h => h.exec_of_handler rfl (handleStart_refused hr n),
      fun h => h.exec_of_handler rfl (handleSingle_refused hr n)⟩
  case notConfigured =>
    have hr := State.startRefusal_notConfigured hst hnone
    exact ⟨fun h => h.exec_of_handler rfl (handleStart_refused hr n),
      fun h => h.exec_of_handler rfl (handleSingle_refused hr n)⟩
  case started =>
    have hr := State.startRefusal_none hst hsome hlinks
    exact ⟨fun h => h.exec_of_handler rfl (handleStart_taken hr n),
        fun h => h.exec_of_deferred rfl (handleSingle_taken hr n)⟩
  case stopRefused => exact h.exec_of_handler rfl (handleStop_refused (s.stopRefused_iff.2 hrefuse) n)
  case stopSingle =>
    have hgo : s.stopRefused = false := by
      rw [Bool.eq_false_iff, ne_eq, s.stopRefused_iff, hst, hwait]
      simp
    have htaken : s.popRequest.takeStop n = w := by
      rw [State.takeStop_eq, hw]
      exact if_neg (by rw [show s.popRequest.floor.state = .single from hst]; exact nofun)
    exact htaken ▸ h.exec_of_deferred rfl (handleStop_taken hgo n)
  case stopTaken =>
    have hgo : s.stopRefused = false := by
      rw [Bool.eq_false_iff, ne_eq, s.stopRefused_iff, hwait, hallowed]
      simp [hhalted]
    have hruns : s.floor.state.runs = true := by
      rw [← Bool.not_eq_false, FloorState.not_runs_iff]
      exact not_or.2 ⟨hhalted, hsingle⟩
    have hw : w = s.popRequest.stopTaken n := hw
    have hexec := h.exec_of_deferred (row := .stopRounds) rfl (handleStop_taken hgo n)
    rw [State.takeStop_eq, show s.popRequest.floor.state.runs = true from hruns, Bool.true_and, ← hw] at hexec
    refine ⟨fun r hr hopen => ?_, fun hended => ?_⟩
    · have hnot : ¬ s.popRequest.roundEnded = true := by
        rw [State.roundEnded_iff]
        rintro (hnone | ⟨r', hr', hj, hleft⟩)
        · cases hnone.symm.trans hr
        · cases hr'.symm.trans hr
          exact hopen.elim (fun hno => Bool.eq_false_iff.1 hno hj) fun hno => hno hleft
      rwa [if_neg hnot] at hexec
    · rw [if_pos (s.popRequest.roundEnded_iff.2 hended), hw, State.stopTaken_settles (s := s.popRequest) hallowed,
        ← hw] at hexec
      exact hexec

/-! ### LINE_ENABLE (R16) -/

/-- R16: the floor after its lines changed, with cause set and state following. -/
theorem Floor.lineCauses_follow (f : Floor) : f.lineCauses.follow =
    { f with
      causes := f.lineCauses.causes
      state := if f.state = .normal ∨ f.state = .degraded then
          (if f.lineCauses.causes = {} then .normal else .degraded) else f.state } := by
  have hlines : f.lineCauses = { f with causes := f.lineCauses.causes } := by unfold Floor.lineCauses; split <;> rfl
  have hstate : f.lineCauses.state = f.state := by rw [hlines]
  by_cases h : f.state = .normal ∨ f.state = .degraded
  · rw [Floor.follow_of_running (by rwa [hstate]), if_pos h, hlines]
  · obtain ⟨hn, hd⟩ := not_or.1 h
    rw [if_neg h, ← hlines]
    unfold Floor.follow
    rw [hstate]
    split
    case h_1 hst => exact absurd hst hn
    case h_2 hst => exact absurd hst hd
    all_goals rfl

theorem Floor.lineCauses_causes (f : Floor) : f.lineCauses.causes =
    if f.state.runs then { f.causes with lineA := f.linkA.state == .failed, lineB := f.linkB.state == .failed }
    else f.causes := by
  unfold Floor.lineCauses
  split_ifs <;> rfl

theorem Floor.link_modLink (f : Floor) (x : LinkId) (g : FloorLink → FloorLink) :
    (f.modLink x g).link x = g (f.link x) := by
  cases x <;> rfl

theorem Floor.link_other_modLink (f : Floor) (x : LinkId) (g : FloorLink → FloorLink) :
    (f.modLink x g).link x.other = f.link x.other := by
  cases x <;> rfl

/-- R16: what the owner of LINE_ENABLE makes of a line and a flag. -/
theorem handleLineEnable_eq {s u : State} {args : List Byte} {is : List Item} {x : LinkId} {on : Bool} {a : Answer}
    (hread : readArgs [enumArg 2, intArg] args = some is) (hx : enumOf is 1 = some (if x = .a then 0 else 1))
    (hon : needFlag is 2 = some on) (h : s.enableLine x on = (u, a)) (n : Byte) :
    handleLineEnable s n args = (u, some a) := by
  have hx : (enumOf is 1).bind linkOf = some x := by rw [hx]; cases x <;> rfl
  exact answering_eq hread (by simp only [hx, hon, h]) n

theorem handleLineEnable_invalid {s : State} {args : List Byte} {is : List Item}
    (hread : readArgs [enumArg 2, intArg] args = some is) (hon : needFlag is 2 = none) (n : Byte) :
    handleLineEnable s n args = (s, some { result := .invalid }) := by
  refine answering_eq hread (a := { result := .invalid }) ?_ n
  cases (enumOf is 1).bind linkOf <;> simp only [hon] <;> rfl

/-- A flag is 1 for on and 0 for off. -/
theorem needFlag_of {is : List Item} {tag : Nat} {i : Int} (h : intOf is tag = some i) :
    needFlag is tag = if 0 ≤ i ∧ i ≤ 1 then some (i == 1) else none := by
  rw [needFlag, need_of h]
  split_ifs <;> rfl

/-- Settles O33: the flag decides; a line turned off is refused, or the cause set and the state follow the lines. -/
theorem lineEnabled : Obligations.LineEnabled := by
  unfold Obligations.LineEnabled
  intro s n args is x h hread hx
  refine ⟨fun hint => ?on, fun hint hst hother => ?refused, fun hint hallowed => ?off, fun i hint h0 h1 => ?invalid⟩
  case on => exact h.exec_of_handler rfl (handleLineEnable_eq hread hx (needFlag_of hint) rfl n)
  case refused =>
    have hrefuse : s.popRequest.enableLine x false = (s.popRequest, { result := .notPermitted }) :=
      (if_neg nofun).trans (if_pos ⟨hst, hother⟩)
    exact h.exec_of_handler rfl (handleLineEnable_eq hread hx (needFlag_of hint) hrefuse n)
  case off =>
    have hoff : s.popRequest.enableLine x false = ((State.finish
        { s.popRequest with floor := (s.floor.modLink x FloorLink.disable).lineCauses.follow }), Answer.ok) :=
      (if_neg nofun).trans (if_neg (not_and_or.2 (hallowed.imp_left not_not.2)))
    refine ⟨_, h.exec_of_handler rfl (handleLineEnable_eq hread hx (needFlag_of hint) hoff n), ?_⟩
    have hlink := s.floor.link_modLink x FloorLink.disable
    have hrest := s.floor.link_other_modLink x FloorLink.disable
    have hstate : (s.floor.modLink x FloorLink.disable).state = s.floor.state := by cases x <;> rfl
    have hcauses : (s.floor.modLink x FloorLink.disable).causes = s.floor.causes := by cases x <;> rfl
    have hkept : { s.floor.modLink x FloorLink.disable with linkA := s.floor.linkA, linkB := s.floor.linkB } =
        s.floor := by
      cases x <;> rfl
    generalize s.floor.modLink x FloorLink.disable = f at hlink hrest hstate hcauses hkept
    rw [f.lineCauses_follow, f.lineCauses_causes, hstate, hcauses]
    refine ⟨?_, ?_, rfl, rfl, ?_⟩
    · cases x <;> exact hlink
    · cases x <;> exact hrest
    · rw [← hkept]
  case invalid =>
    have hnone : needFlag is 2 = none := (needFlag_of hint).trans (if_neg (by omega))
    exact h.exec_of_handler rfl (handleLineEnable_invalid hread hnone n)

end Sys2Proof.Machine
end

section
/-!
PROOFS. Burner supervision: the flame vote, the scanners, and the stop of a burner's lines (R44 to R46, R56, R58, R79).
-/
namespace Sys2Proof.Machine

/-! ### Changes of one burner or one line -/

/-- Two changes of a burner are one. -/
theorem State.modBurner_set (s : State) (b : Fin 3) (x : Burner) (f : Burner → Burner) :
    ({ s with burners := s.burners.set b x } : State).modBurner b f = { s with burners := s.burners.set b (f x) } := by
  simp only [State.modBurner, Fin.getElem_fin, Vector.getElem_set_self, Vector.set_set]

/-- Two changes of a line are one. -/
theorem State.modLine_set (s : State) (l : Fin 6) (x : Line) (f : Line → Line) :
    ({ s with lines := s.lines.set l x } : State).modLine l f = { s with lines := s.lines.set l (f x) } := by
  simp only [State.modLine, Fin.getElem_fin, Vector.getElem_set_self, Vector.set_set]

/-- R78, R80: the line of a commanded feed. -/
def State.fedLine (s : State) (l : Fin 6) (c : Nat) : Line :=
  { followLine s.burners s.timeBase { s.lines[l] with feed := c, dose := (s.lines[l]).doseFor c s.timeBase } with
    refresh := 0 }

/-- R78: a feed is set and its FEED queued. -/
theorem State.setFeed_queueFeed (s : State) {l : Fin 6} {e : LineEntry} (he : s.lineEntry? l = some e) (c : Nat)
    (cls : CommandClass) : (s.setFeed l c).queueFeed l cls =
      ({ s with lines := s.lines.set l (s.fedLine l c) } : State).submit (.line l)
        { station := e.station, kind := .feed, value := c, cls := cls, origin := .fuel } := by
  have hset : s.setFeed l c = { s with lines := s.lines.set l (followLine s.burners s.timeBase
      { s.lines[l] with feed := c, dose := (s.lines[l]).doseFor c s.timeBase }) } := by
    rw [State.setFeed, State.refreshLineState_eq]
    simp only [State.modLine, Fin.getElem_fin, Vector.getElem_set_self, Vector.set_set]
  have he' : (s.setFeed l c).lineEntry? l = some e := (s.setFeed_lineEntry l l c).trans he
  have hfeed : ((s.setFeed l c).lines[l]).feed = c := by
    rw [State.setFeed, State.refreshLineState_line, if_pos rfl, followLine_feed, State.modLine_line, if_pos rfl]
  rw [State.queueFeed_lines _ l e he', hfeed, hset, State.modLine_set]
  rfl

/-- R79: the line of a commanded igniter. -/
def State.litLine (s : State) (l : Fin 6) (on : Bool) : Line :=
  { followLine s.burners s.timeBase { s.lines[l] with igniter := on } with refresh := 0 }

/-- R79: an igniter is set and its IGNITER queued. -/
theorem State.setIgniter_eq (s : State) {l : Fin 6} {e : LineEntry} (he : s.lineEntry? l = some e) (on : Bool)
    (cls : CommandClass) : s.setIgniter l on cls =
      ({ s with lines := s.lines.set l (s.litLine l on) } : State).submit (.line l)
        { station := e.station, kind := .igniter, value := if on then 1 else 0, cls := cls, origin := .fuel } := by
  have hset : (s.modLine l fun x => { x with igniter := on }).refreshLineState l =
      { s with lines := s.lines.set l (followLine s.burners s.timeBase { s.lines[l] with igniter := on }) } := by
    rw [State.refreshLineState_eq]
    simp only [State.modLine, Fin.getElem_fin, Vector.getElem_set_self, Vector.set_set]
  have he' : ((s.modLine l fun x => { x with igniter := on }).refreshLineState l).lineEntry? l = some e := by
    rw [State.refreshLineState_lineEntry, ← he]
    simp only [State.lineEntry?, State.modLine_line, if_pos]
  have hon : (((s.modLine l fun x => { x with igniter := on }).refreshLineState l).lines[l]).igniter = on := by
    rw [State.refreshLineState_line, if_pos rfl, followLine_igniter, State.modLine_line, if_pos rfl]
  rw [State.setIgniter, State.queueIgniter_lines _ l e he', hon, hset, State.modLine_set]
  rfl

/-! ### The flame vote (R46) -/

theorem flameVote_of {e : BurnerEntry} {s1 s2 vote : Bool} (h1 : e.scanner2 = none → vote = s1)
    (hany : e.scanner2 ≠ none → e.vote = .any → vote = (s1 || s2))
    (hall : e.scanner2 ≠ none → e.vote = .all → vote = (s1 && s2)) : flameVote e s1 s2 = vote := by
  unfold flameVote
  split
  case h_1 hnone => exact (h1 hnone).symm
  case h_2 x hx hvote => exact (hany (by rw [hx]; nofun) hvote).symm
  case h_3 x hx hvote => exact (hall (by rw [hx]; nofun) hvote).symm

theorem Burner.takeVote_eq (x : Burner) (e : BurnerEntry) : x.takeVote e =
    { x with
      vote := flameVote e x.scanner1 x.scanner2
      presentRun := if flameVote e x.scanner1 x.scanner2 then min 255 (x.presentRun + 1) else 0
      absentRun := if flameVote e x.scanner1 x.scanner2 then 0 else min 255 (x.absentRun + 1) } := by
  unfold Burner.takeVote
  cases flameVote e x.scanner1 x.scanner2 <;> rfl

section acting
variable {v : State} {b : Fin 3} {e : BurnerEntry} {x : Burner} (hx : v.burners[b] = x)
include hx

theorem State.actOnVote_purge (hst : x.state = .purge) : v.actOnVote b e =
    if (x.vote && x.presentRun == e.confirmCount) then v.enterLockout b .flameInPurge else v := by
  subst hx; simp only [State.actOnVote, hst]

theorem State.actOnVote_ignition (hst : x.state = .ignition) : v.actOnVote b e =
    if (x.vote && x.presentRun == e.confirmCount) then
      (v.modBurner b fun x => { x with confirmed := true, timer := none }).enterLightoff b e false
    else v := by
  subst hx; simp only [State.actOnVote, hst]

theorem State.actOnVote_lightoff (hst : x.state = .lightoff) : v.actOnVote b e =
    if (x.vote && x.presentRun == e.confirmCount) && !x.confirmed then
      v.modBurner b fun x => { x with confirmed := true, trialInLightoff := none }
    else if (!x.vote && x.absentRun == e.failureCount) && x.confirmed then v.enterLockout b .lightoffFail
    else v := by
  subst hx; simp only [State.actOnVote, hst]

theorem State.actOnVote_run (hst : x.state = .run) : v.actOnVote b e =
    if (!x.vote && x.absentRun == e.failureCount) then v.enterLockout b .flameFail else v := by
  subst hx; simp only [State.actOnVote, hst]

theorem State.actOnVote_idle (hst : x.state = .off ∨ x.state = .lockout) : v.actOnVote b e = v := by
  subst hx; rcases hst with hst | hst <;> simp only [State.actOnVote, hst]

/-- R50, R52, R54, R55: where neither run reaches its count in a state that asks for it, the evaluation does nothing. -/
theorem State.actOnVote_none (h : x.state = .off ∨ x.state = .lockout ∨
    (x.vote = true ∧ (x.presentRun ≠ e.confirmCount ∨ x.state = .run ∨ (x.state = .lightoff ∧ x.confirmed = true))) ∨
    (x.vote = false ∧ (x.absentRun ≠ e.failureCount ∨ x.state = .purge ∨ x.state = .ignition ∨
      (x.state = .lightoff ∧ x.confirmed = false)))) : v.actOnVote b e = v := by
  cases hst : x.state <;> simp only [hst, reduceCtorEq, true_or, false_or, or_false, false_and, true_and, or_true] at h
  case off => exact State.actOnVote_idle hx (.inl hst)
  case lockout => exact State.actOnVote_idle hx (.inr hst)
  case purge =>
    rw [State.actOnVote_purge hx hst]
    rcases h with ⟨hv, hp⟩ | ⟨hv, hp⟩ <;> simp_all
  case ignition =>
    rw [State.actOnVote_ignition hx hst]
    rcases h with ⟨hv, hp⟩ | ⟨hv, hp⟩ <;> simp_all
  case lightoff =>
    rw [State.actOnVote_lightoff hx hst]
    rcases h with ⟨hv, hp⟩ | ⟨hv, hp⟩ <;> cases hc : x.confirmed <;> simp_all
  case run =>
    rw [State.actOnVote_run hx hst]
    rcases h with ⟨hv, hp⟩ | ⟨hv, hp⟩ <;> simp_all

end acting

/-- Settles O34: the vote moves vote and runs; what it does then is read off the burner's state. (The model's vote has
the name that would be this theorem's.) -/
theorem flameVoteEvaluated : Obligations.FlameVote := by
  unfold Obligations.FlameVote
  refine ⟨fun x e vote h1 hany hall => ?vote, fun s v b e x hx hv => ?acts⟩
  case vote => rw [x.takeVote_eq, flameVote_of h1 hany hall]
  case acts =>
    have hvx : v.burners[b] = x := by rw [hv, Fin.getElem_fin, Vector.getElem_set_self]
    have hvote : (s.modBurner b fun x => x.takeVote e) = v := by rw [hv, hx, State.modBurner]
    have heval : s.evaluateVote b e = v.actOnVote b e := by rw [State.evaluateVote, hvote]
    have hmod (f : Burner → Burner) : v.modBurner b f = { s with burners := s.burners.set b (f x) } := by
      rw [hv, s.modBurner_set]
    have hpresent (hvote : x.vote = true) (hrun : x.presentRun = e.confirmCount) :
        (x.vote && x.presentRun == e.confirmCount) = true := by rw [hvote, hrun, beq_self_eq_true]; rfl
    have habsent (hvote : x.vote = false) (hrun : x.absentRun = e.failureCount) :
        (!x.vote && x.absentRun == e.failureCount) = true := by rw [hvote, hrun, beq_self_eq_true]; rfl
    rw [heval]
    refine ⟨fun hst hvote hrun => ?_, fun hst hvote hrun => ?_, fun hst hvote hrun hclear => ?_,
        fun hst hvote hrun hset => ?_,
      fun hst hvote hrun => ?_, State.actOnVote_none hvx⟩
    · exact (State.actOnVote_purge hvx hst).trans (if_pos (hpresent hvote hrun))
    · rw [State.actOnVote_ignition hvx hst, if_pos (hpresent hvote hrun), hmod]
    · rw [State.actOnVote_lightoff hvx hst, hpresent hvote hrun, hclear, hmod]
      exact if_pos rfl
    · rw [State.actOnVote_lightoff hvx hst, habsent hvote hrun, hvote, hset]
      exact (if_neg nofun).trans (if_pos rfl)
    · exact (State.actOnVote_run hvx hst).trans (if_pos (habsent hvote hrun))

/-! ### Scanners (R44, R45) -/

/-- R25, R44: a GOOD point is one in use. -/
theorem State.pointGood_iff (s : State) (p : Fin 256) :
    s.pointGood p = true ↔ ∃ e, s.pointEntry? p = some e ∧ (s.points[p]).quality = .good := by
  rw [State.pointGood, beq_iff_eq, State.pointQuality]
  cases s.pointEntry? p <;> simp

theorem State.judgeScanner_iff (s : State) (e : BurnerEntry) (x : Scanner) (was : Bool) (n : Nat) :
    s.judgeScanner e x was n = true ↔
      (∃ i f, s.pointEntry? x.intensity = some i ∧ s.pointEntry? x.flicker = some f ∧
        (s.points[x.intensity]).quality = .good ∧ (s.points[x.flicker]).quality = .good ∧ i.field < n ∧ f.field < n) ∧
      (if was then e.offThreshold else e.onThreshold) ≤ (s.points[x.intensity]).value ∧
      e.flickerLow ≤ (s.points[x.flicker]).value ∧ (s.points[x.flicker]).value ≤ e.flickerHigh := by
  have hthreshold : (if was then decide (e.offThreshold ≤ (s.points[x.intensity]).value)
      else decide (e.onThreshold ≤ (s.points[x.intensity]).value)) = true ↔
      (if was then e.offThreshold else e.onThreshold) ≤ (s.points[x.intensity]).value := by
    cases was <;> exact decide_eq_true_iff
  simp only [State.judgeScanner, Bool.and_eq_true, s.pointGood_iff, State.updatedBy, Option.any_eq_true, hthreshold,
    decide_eq_true_iff, and_assoc]
  constructor
  · rintro ⟨⟨i, hi, hgi⟩, ⟨f, hf, hgf⟩, ⟨i', hi', hfi⟩, ⟨f', hf', hff⟩, hrest⟩
    cases hi.symm.trans hi'
    cases hf.symm.trans hf'
    exact ⟨⟨i, f, hi, hf, hgi, hgf, hfi, hff⟩, hrest⟩
  · rintro ⟨⟨i, f, hi, hf, hgi, hgf, hfi, hff⟩, hrest⟩
    exact ⟨⟨i, hi, hgi⟩, ⟨f, hf, hgf⟩, ⟨i, hi, hfi⟩, ⟨f, hf, hff⟩, hrest⟩

/-- R44: the station is that of one of the burner's scanners. -/
theorem State.scansStation_iff (s : State) (e : BurnerEntry) (st : Nat) : s.scansStation e st = true ↔
    s.scannerStation e.scanner1 = some st ∨ ∃ x, e.scanner2 = some x ∧ s.scannerStation x = some st := by
  simp only [State.scansStation, Bool.or_eq_true, beq_iff_eq, Option.any_eq_true]

/-- R44: a scanner event of a burner with a scanner on the station. -/
theorem State.scannerEvent_hit {s : State} {b : Fin 3} {e : BurnerEntry} {st : Nat} (he : s.burnerEntry? b = some e)
    (h : s.scansStation e st = true) (n : Nat) : s.scannerEvent st n b = (s.modBurner b fun y =>
      { y with
        scanner1 := if s.scannerStation e.scanner1 = some st then s.judgeScanner e e.scanner1 y.scanner1 n
        else y.scanner1
        scanner2 := match e.scanner2 with
          | some x => if s.scannerStation x = some st then s.judgeScanner e x y.scanner2 n else y.scanner2
          | none => y.scanner2 }).evaluateVote b e := by
  simp only [State.scannerEvent, he, h, if_true, beq_iff_eq] <;> rfl

theorem State.scannerEvent_missed {s : State} {b : Fin 3} {st : Nat}
    (h : ∀ e, s.burnerEntry? b = some e → s.scansStation e st = false) (n : Nat) : s.scannerEvent st n b = s := by
  cases he : s.burnerEntry? b with
  | none => simp only [State.scannerEvent, he]
  | some e => simp only [State.scannerEvent, he, h e he, Bool.false_eq_true, if_false]

/-- R45: the burners are visited in ascending number. -/
theorem State.dropScanners_steps (s : State) (gone : Nat → Bool) :
    s.dropScanners gone = (List.finRange 3).foldl (dropStep gone) s := rfl

theorem dropStep_none {gone : Nat → Bool} {t : State} {b : Fin 3} (h : t.burnerEntry? b = none) :
    dropStep gone t b = t := by
  rw [dropStep, h]

/-- R45: the scanners of one burner, by which of them are lost. -/
theorem dropStep_some {gone : Nat → Bool} {t : State} {b : Fin 3} {e : BurnerEntry} {lost : Scanner → Bool}
    (he : t.burnerEntry? b = some e)
    (hlost : ∀ x, lost x = true ↔ ∃ st, t.scannerStation x = some st ∧ gone st = true) : dropStep gone t b =
      if lost e.scanner1 || e.scanner2.any lost then
        (t.modBurner b fun x =>
          { x with
            scanner1 := x.scanner1 && !lost e.scanner1
            scanner2 := x.scanner2 && !e.scanner2.any lost }).evaluateVote b e
      else t := by
  have hany (x : Scanner) : (t.scannerStation x).any gone = lost x :=
    Bool.eq_iff_iff.2 ((Option.any_eq_true ..).trans (hlost x).symm)
  simp only [dropStep, he, hany]

/-- Settles O35: a scanner by its points and thresholds; the two events by which of a burner's scanners they reach. -/
theorem scannersJudged : Obligations.ScannersJudged := by
  unfold Obligations.ScannersJudged
  refine ⟨State.judgeScanner_iff, fun s b => ⟨fun e st n he h => ?hit, fun st n h => ?missed,
    fun gone e he => s.dropScanners_spec gone b e he,
    fun gone => ⟨dropStep gone, s.dropScanners_steps gone,
    fun t b => ⟨dropStep_none, fun e lost he hlost => ⟨?kept, ?dropped⟩⟩⟩,
    fun x st => ?station⟩⟩
  case hit => exact State.scannerEvent_hit he ((s.scansStation_iff e st).2 h) n
  case missed =>
    refine State.scannerEvent_missed (fun e he => Bool.eq_false_iff.2 fun hscans => ?_) n
    obtain ⟨h1, h2⟩ := h e he
    exact ((s.scansStation_iff e st).1 hscans).elim h1 fun ⟨x, hx, hst⟩ => h2 x hx hst
  case kept =>
    intro h1 h2
    rw [dropStep_some he hlost, h1, Bool.false_or]
    refine if_neg fun hany => ?_
    obtain ⟨x, hx, hlostx⟩ := (Option.any_eq_true ..).1 hany
    exact absurd hlostx (Bool.eq_false_iff.1 (h2 x hx))
  case dropped =>
    intro h
    rw [dropStep_some he hlost, if_pos]
    · rfl
    · rw [Bool.or_eq_true, Option.any_eq_true]
      exact h
  case station => exact Option.map_eq_some_iff

/-! ### The stop of a burner (R56, R58) -/

/-- R56: the stop keeps the lockout record. -/
theorem State.stopBurner_stopped (s : State) (b : Fin 3) :
    s.BurnerStopped (s.stopBurner b) b .off (s.burners[b]).lockout
      { s.shift.record.burners[b] with runTime := s.runTimeNow b } .control := by
  have hstop := State.stopTo_spec s b .control (by decide) .off (by decide) (s.burners[b]).lockout
  have hsame : (s.modBurner b fun x => { x with lockout := (s.burners[b]).lockout }) = s :=
    congrArg (fun bs => ({ s with burners := bs } : State)) (Vector.set_getElem_self ..)
  rwa [hsame] at hstop

/-- R56, R58: a line of the burner that stops. -/
theorem State.stopLine_of_burner {s : State} {l : Fin 6} {e : LineEntry} (he : s.lineEntry? l = some e)
    (c : CommandClass) : s.stopLine e.burner c l =
      if e.kind.isMetered then ((s.modLine l fun x => { x with target := 0 }).setFeed l 0).queueFeed l c
      else if s.ignitionLine e.burner = some l then
        (if c = .trip then s.setIgniter l false c else s.changeIgniter l false)
      else s := by
  simp only [State.stopLine, he, ne_eq, not_true_eq_false, if_false]

/-- R56, R58: a metered line that stops is at 0, and a FEED of 0 is queued. -/
theorem State.stopLine_metered {s : State} {l : Fin 6} {e : LineEntry} (he : s.lineEntry? l = some e)
    (hm : e.kind.isMetered = true) (c : CommandClass) : ∃ v : State, v.queue = s.queue ∧ (v.lines[l]).feed = 0 ∧
      s.stopLine e.burner c l = v.submit (.line l)
        { station := e.station, kind := .feed, value := 0, cls := c, origin := .fuel } := by
  have he' : (s.modLine l fun x => { x with target := 0 }).lineEntry? l = some e := by
    rw [← he]
    simp only [State.lineEntry?, State.modLine_line, if_pos]
  refine ⟨_, ?_, ?_, (State.stopLine_of_burner he c).trans ((if_pos hm).trans (State.setFeed_queueFeed _ he' 0 c))⟩
  · rfl
  · simp only [Fin.getElem_fin, Vector.getElem_set_self, State.fedLine, followLine_feed]

/-- R79: an igniter that is commanded off. -/
theorem State.setIgniter_off {s : State} {l : Fin 6} {e : LineEntry} (he : s.lineEntry? l = some e) (c : CommandClass) :
    ∃ v : State, v.queue = s.queue ∧ (v.lines[l]).igniter = false ∧ s.setIgniter l false c = v.submit (.line l)
      { station := e.station, kind := .igniter, value := 0, cls := c, origin := .fuel } := by
  refine ⟨_, ?_, ?_, State.setIgniter_eq s he false c⟩
  · rfl
  · simp only [Fin.getElem_fin, Vector.getElem_set_self, State.litLine, followLine_igniter]

/-- Settles O36: the entry to LOCKOUT and the stop by `State.stopTo_spec`; one line's stop by what the line is. -/
theorem lockoutAndStop : Obligations.LockoutAndStop := by
  unfold Obligations.LockoutAndStop
  refine ⟨fun s b => ⟨s.enterLockout_lockedOut b, s.stopBurner_stopped b⟩, ?_⟩
  rintro s b c l e he rfl hc
  refine ⟨fun hm => State.stopLine_metered he hm c, fun hm hline hon => ?off, fun hm hkept => ?same⟩
  case off =>
    have hstop : s.stopLine e.burner c l = s.setIgniter l false c := by
      rw [State.stopLine_of_burner he, if_neg (Bool.eq_false_iff.1 hm), if_pos hline]
      rcases hc with rfl | rfl
      · rfl
      · have hlit : ¬ (s.lines[l]).igniter = false := by rw [hon.resolve_left nofun]; nofun
        exact if_neg hlit
    rw [hstop]
    exact State.setIgniter_off he c
  case same =>
    rw [State.stopLine_of_burner he, if_neg (Bool.eq_false_iff.1 hm)]
    rcases hkept with hline | ⟨htrip, hoff⟩
    · exact if_neg hline
    · split_ifs
      · exact if_pos hoff
      · rfl

end Sys2Proof.Machine
end

section
/-!
PROOFS. Burner supervision: permissives and their losses, and the entry to LIGHTOFF (R47, R50, R52 to R55).
-/
namespace Sys2Proof.Machine

/-! ### Lines that follow a burner (R67) -/

/-- R67: the lines follow a burner that takes a state. -/
theorem State.setBurnerState_ruled (s : State) (b : Fin 3) (x : Burner) (st : BurnerState) :
    State.LinesRuled { s with burners := s.burners.set b { x with state := st } }
      (({ s with burners := s.burners.set b x } : State).setBurnerState b st) b := by
  have h := State.setBurnerState_spec ({ s with burners := s.burners.set b x } : State) b st
  simp only [Fin.getElem_fin, Vector.getElem_set_self, Vector.set_set] at h
  exact h

theorem State.LinesRuled.entry {s u : State} {b : Fin 3} (h : s.LinesRuled u b) (l : Fin 6) :
    (u.lines[l]).entry = (s.lines[l]).entry := (congrArg Line.entry (h.fields l) :)

theorem State.LinesRuled.lineEntry? {s u : State} {b : Fin 3} (h : s.LinesRuled u b) (l : Fin 6) :
    u.lineEntry? l = s.lineEntry? l := State.lineEntry?_of_entry (h.entry l)

theorem State.LinesRuled.burners {s u : State} {b : Fin 3} (h : s.LinesRuled u b) : u.burners = s.burners :=
  (congrArg State.burners h.rest :)

theorem State.LinesRuled.timeBase {s u : State} {b : Fin 3} (h : s.LinesRuled u b) : u.timeBase = s.timeBase :=
  (congrArg State.timeBase h.rest :)

/-- R67: a line in service stays in service. -/
theorem State.LinesRuled.inService {s u : State} {b : Fin 3} (h : s.LinesRuled u b) {l : Fin 6} {e : LineEntry}
    (he : s.lineEntry? l = some e) (hb : e.burner = b) (hout : (s.lines[l]).state ≠ .out)
    (hfault : (s.lines[l]).state ≠ .fault) : (u.lines[l]).state ≠ .out ∧ (u.lines[l]).state ≠ .fault := by
  rw [h.ruled l e he hb hout hfault, State.ruledState_eq]
  exact not_or.1 (ruledOf_service _ _ _)

/-! ### Permissives (R47) -/

theorem State.permissiveMet_point (s : State) (q : Fin 256) (t : Int) :
    (s.permissiveMet (.pointAtLeast q t) = true ↔ s.pointQuality q = .good ∧ t ≤ (s.points[q]).value) ∧
      (s.permissiveMet (.pointAtMost q t) = true ↔ s.pointQuality q = .good ∧ (s.points[q]).value ≤ t) := by
  simp only [State.permissiveMet, State.pointGood, Bool.and_eq_true, beq_iff_eq, decide_eq_true_iff, and_self]

/-- R47: the flag of a permissive that is computed again. -/
theorem State.visitPermissive_eq {s v : State} {b : Fin 3} {n : Nat} {p : Permissive} (hv : v = { s with
      burners := s.burners.set b
        { s.burners[b] with permOk := (s.burners[b]).permOk.set n (s.permissiveMet p.kind) } }) :
    s.visitPermissive b (n + 1) p =
      if (((s.burners[b]).permOk.getD n false) && !s.permissiveMet p.kind) then v.permissiveLost b (n + 1) p.running
      else v := by
  rw [hv]
  rfl

theorem getD_false_of {l : List Bool} {n : Nat} {c : Bool} (h : l[n]? = some c) : l.getD n false = c := by
  rw [List.getD_eq_getElem?_getD, h, Option.getD_some]

/-- R50: a burner in PURGE that loses a permissive goes OFF. -/
theorem State.permissiveLost_purge {s : State} {b : Fin 3} (h : (s.burners[b]).state = .purge) (n : Nat)
    (running : Bool) :
    State.LinesRuled
      { s with
        burners := s.burners.set b
          { s.burners[b] with
            state := .off, timer := none, trialInLightoff := none, confirmed := false, lightoffLine := none
            purgeAborts := min 65535 ((s.burners[b]).purgeAborts + 1) } } (s.permissiveLost b n running) b := by
  have hlost : s.permissiveLost b n running = ((s.modBurner b Burner.clearFiring).modBurner b
      fun x => { x with purgeAborts := satAdd 65535 x.purgeAborts 1 }).setBurnerState b .off := by
    rw [State.permissiveLost, h]
  rw [hlost, show s.modBurner b Burner.clearFiring = { s with burners := s.burners.set b (s.burners[b]).clearFiring }
      from rfl,
    State.modBurner_set]
  exact s.setBurnerState_ruled b { (s.burners[b]).clearFiring with
    purgeAborts := satAdd 65535 (s.burners[b]).purgeAborts 1 } .off

/-- R52, R54, R55: a loss that locks the burner out. -/
theorem State.permissiveLost_lockout {s : State} {b : Fin 3} {running : Bool} (h : (s.burners[b]).state = .ignition ∨
    (s.burners[b]).state = .lightoff ∨ ((s.burners[b]).state = .run ∧ running = true)) (n : Nat) :
    s.permissiveLost b n running = s.enterLockout b .permissiveLost { permissive := some n } := by
  rcases h with h | h | ⟨h, rfl⟩ <;> rw [State.permissiveLost, h]
  rfl

theorem State.permissiveLost_none {s : State} {b : Fin 3} {running : Bool} (h : (s.burners[b]).state = .off ∨
    (s.burners[b]).state = .lockout ∨ ((s.burners[b]).state = .run ∧ running = false)) (n : Nat) :
    s.permissiveLost b n running = s := by
  rcases h with h | h | ⟨h, rfl⟩ <;> rw [State.permissiveLost, h]
  rfl

/-- Settles O38: a flag that falls is a loss, and a loss is judged by the burner's state. -/
theorem permissiveLosses : Obligations.PermissiveLosses := by
  unfold Obligations.PermissiveLosses
  refine ⟨fun s v b n p hn hv => ⟨fun h => ?kept, fun hold hnew => ?lost, s.permissiveMet_point, beq_iff_eq⟩,
    fun s b n running => ⟨fun h => State.permissiveLost_purge h n running, fun h => ?lockout,
      fun h => State.permissiveLost_none h n⟩⟩
  case kept =>
    rw [State.visitPermissive_eq hv]
    refine if_neg ?_
    rcases h with h | h
    · rw [getD_false_of h]; exact nofun
    · rw [h, Bool.not_true, Bool.and_false]; exact nofun
  case lost =>
    rw [State.visitPermissive_eq hv, getD_false_of hold, hnew]
    exact if_pos rfl
  case lockout =>
    rw [State.permissiveLost_lockout h]
    exact s.enterLockout_lockedOut b _ _

/-! ### The light-off line (R53) -/

theorem State.eligible_iff (s : State) (b : Fin 3) (l : Fin 6) : s.eligible b l = true ↔
    ∃ e, s.lineEntry? l = some e ∧ e.burner = b ∧ e.kind.isMetered = true ∧ (s.lines[l]).mode = .auto ∧
      (s.lines[l]).state ≠ .out ∧ (s.lines[l]).state ≠ .fault := by
  simp only [State.eligible, State.lineOf, Bool.and_eq_true, Option.any_eq_true, beq_iff_eq, bne_iff_ne, and_assoc]
  constructor
  · rintro ⟨⟨e, he, hb⟩, ⟨e', he', hm⟩, hrest⟩
    cases he.symm.trans he'
    exact ⟨e, he, hb, hm, hrest⟩
  · rintro ⟨e, he, hb, hm, hrest⟩
    exact ⟨⟨e, he, hb⟩, ⟨e, he, hm⟩, hrest⟩

theorem LineKind.isContinuous_iff (k : LineKind) : k.isContinuous = true ↔ ∃ m tol win, k = .continuous m tol win := by
  cases k <;> simp [LineKind.isContinuous]

/-- R53: an eligible CONTINUOUS line is among the shares that light-off chooses from. -/
theorem State.continuous_mem_eligibleSet {s : State} {b : Fin 3} {l : Fin 6} {e : LineEntry} {m : Metering}
    {tol win : Nat}
    (he : s.lineEntry? l = some e) (hel : s.eligible b l = true) (hk : e.kind = .continuous m tol win) :
    ∃ x ∈ s.eligibleSet b, (s.lineEntry? x.line).any (·.kind.isContinuous) = true ∧ x.priority = m.priority := by
  refine ⟨_, (s.mem_eligibleSet b _).2 ⟨l, e, m, hel, he, by rw [hk]; rfl, rfl⟩, ?_, rfl⟩
  rw [he, Option.any_some, hk]
  rfl

theorem State.chooseLightoffLine_none {s : State} {b : Fin 3} (h : s.chooseLightoffLine b = none)
    {l : Fin 6} {e : LineEntry}
    (he : s.lineEntry? l = some e) (hel : s.eligible b l = true) (m : Metering) (tol win : Nat) :
    e.kind ≠ .continuous m tol win := by
  intro hk
  obtain ⟨x, hx, hcont, -⟩ := State.continuous_mem_eligibleSet he hel hk
  exact List.find?_eq_none.1 (Option.map_eq_none_iff.1 h) x hx hcont

/-- R53: the chosen line comes first among the eligible CONTINUOUS lines in ascending priority number. -/
theorem State.chooseLightoffLine_some {s : State} {b : Fin 3} {l : Fin 6} (h : s.chooseLightoffLine b = some l) :
    ∃ e m tol win, s.lineEntry? l = some e ∧ s.eligible b l = true ∧ e.kind = .continuous m tol win ∧
      ∀ l' e' m' tol' win', s.lineEntry? l' = some e' → s.eligible b l' = true → e'.kind = .continuous m' tol' win' →
        m.priority ≤ m'.priority := by
  obtain ⟨x, hfind, rfl⟩ := Option.map_eq_some_iff.1 h
  obtain ⟨hcont, before, after, hsplit, hbefore⟩ := List.find?_eq_some_iff_append.1 hfind
  have hmem : x ∈ s.eligibleSet b := by rw [hsplit]; simp
  obtain ⟨l, e, m, hel, he, hm, rfl⟩ := (s.mem_eligibleSet b x).1 hmem
  rw [he, Option.any_some, LineKind.isContinuous_iff] at hcont
  obtain ⟨m', tol, win, hk⟩ := hcont
  have hmm : m' = m := by
    rw [hk] at hm
    exact Option.some.inj hm
  subst hmm
  refine ⟨e, m', tol, win, he, hel, hk, fun l₂ e₂ m₂ tol₂ win₂ he₂ hel₂ hk₂ => ?_⟩
  obtain ⟨y, hy, hycont, hprio⟩ := State.continuous_mem_eligibleSet he₂ hel₂ hk₂
  have hsorted := (sortShares_pairwise ((indices 6).filterMap (s.shareOf b))).1
  change (s.eligibleSet b).Pairwise _ at hsorted
  rw [hsplit, List.pairwise_append, List.pairwise_cons] at hsorted
  rw [hsplit, List.mem_append, List.mem_cons] at hy
  rcases hy with hy | rfl | hy
  · have := hbefore y hy
    rw [hycont] at this
    exact absurd this nofun
  · exact hprio.le
  · exact (hsorted.2.1.1 y hy).trans hprio.le

/-! ### The entry to LIGHTOFF (R53) -/

theorem State.lightoffFeed_eq {s : State} {l : Fin 6} {le : LineEntry} {m : Metering} (hle : s.lineEntry? l = some le)
    (hm : le.kind.metering? = some m) (e : BurnerEntry) :
    s.lightoffFeed e l = clampNat e.lightoffFeed m.fmin m.fmax := by
  rw [State.lightoffFeed, hle, Option.bind_some, hm]

/-- R67: a metered line with a feed is FEEDING while its burner is not in RUN. -/
theorem ruledOf_feeding {bs : Vector Burner 3} {x : Line} {e : LineEntry} (hm : e.kind.isMetered = true)
    (hb : (bs[e.burner]).state ≠ .run) (hfeed : 0 < x.feed) : ruledOf bs x e = .feeding := by
  have hrun : ((bs[e.burner]).state == .run) = false := beq_eq_false_iff_ne.2 hb
  simp only [ruledOf, hm, hrun, hfeed, Bool.and_false, Bool.false_and, Bool.false_eq_true, if_false, Bool.true_and,
    decide_true, if_true]

/-- R80: a CONTINUOUS line has no dose timer. -/
theorem Line.doseFor_continuous {x : Line} {e : LineEntry} {m : Metering} {tol win : Nat} (he : x.entry = some e)
    (hk : e.kind = .continuous m tol win) (c : Nat) (now : Time) : x.doseFor c now = none := by
  rw [Line.doseFor, he, Option.map_some, hk]

theorem State.entry_of_lineEntry? {s : State} {l : Fin 6} {e : LineEntry} (h : s.lineEntry? l = some e) :
    (s.lines[l]).entry = some e := (Option.filter_eq_some_iff.1 h).1

/-- R67, R78, R85: a CONTINUOUS line whose feed is commanded, but for its state. -/
theorem State.fedLine_fields {v : State} {l : Fin 6} {e : LineEntry} {m : Metering} {tol win : Nat}
    (he : v.lineEntry? l = some e) (hk : e.kind = .continuous m tol win) (c : Nat) :
    { v.fedLine l c with state := .out } =
      { v.lines[l] with
        state := .out, deviation := (v.lines[l]).checkAfter (v.fedLine l c).state v.timeBase
        feed := c, refresh := 0, dose := none } := by
  have hdose := Line.doseFor_continuous (State.entry_of_lineEntry? he) hk c v.timeBase
  have hcheck := followLine_check v.burners v.timeBase { v.lines[l] with feed := c, dose := none }
  rw [State.fedLine, hdose]
  exact congrArg (fun x : Line => { x with refresh := 0 }) hcheck

/-- R67, R78: the feed of a CONTINUOUS line of burner in LIGHTOFF is commanded. -/
theorem State.commandFeed_spec {v : State} {l : Fin 6} {e : LineEntry} {m : Metering} {tol win : Nat}
    (he : v.lineEntry? l = some e) (hk : e.kind = .continuous m tol win) (hb : (v.burners[e.burner]).state ≠ .run)
    (hout : (v.lines[l]).state ≠ .out) (hfault : (v.lines[l]).state ≠ .fault) (c : Nat) :
    ∃ w : State, (v.setFeed l c).queueFeed l .control = w.submit (.line l)
        { station := e.station, kind := .feed, value := c, cls := .control, origin := .fuel } ∧
      { w.lines[l] with state := .out } =
        { v.lines[l] with
          state := .out, deviation := (v.lines[l]).checkAfter (w.lines[l]).state v.timeBase
          feed := c, refresh := 0, dose := none } ∧
      (0 < c → (w.lines[l]).state = .feeding) ∧ (∀ l', l' ≠ l → w.lines[l'] = v.lines[l']) ∧
      { w with lines := v.lines } = v := by
  refine ⟨_, v.setFeed_queueFeed he c .control, ?_, fun hc => ?_, fun l' hl' => ?_, rfl⟩
  · simp only [Fin.getElem_fin, Vector.getElem_set_self]
    exact State.fedLine_fields he hk c
  · simp only [Fin.getElem_fin, Vector.getElem_set_self]
    have hm : e.kind.isMetered = true := by rw [hk]; rfl
    exact (followLine_state v.burners v.timeBase
        { v.lines[l] with feed := c, dose := (v.lines[l]).doseFor c v.timeBase } e he
      hout hfault).trans (ruledOf_feeding hm hb hc)
  · exact Vector.getElem_set_ne l.isLt l'.isLt fun h => hl' (Fin.ext h.symm)

/-- R53: a burner that enters LIGHTOFF on line `l`. -/
def State.lightoffTimed (s : State) (b : Fin 3) (e : BurnerEntry) (self : Bool) (l : Fin 6) : Burner :=
  { s.burners[b] with
    lightoffLine := some l
    timer := some (.lightoff, s.timeBase + e.lightoffTime * 1000)
    trialInLightoff := if self then some (s.timeBase + e.ignitionTrial * 1000) else none
    confirmed := if self then false else (s.burners[b]).confirmed
    presentRun := if self then 0 else (s.burners[b]).presentRun
    absentRun := if self then 0 else (s.burners[b]).absentRun }

/-- R53: the state and the lines of a burner that enters LIGHTOFF, before its feed is commanded. -/
def State.lightoffState (s : State) (b : Fin 3) (e : BurnerEntry) (self : Bool) (l : Fin 6) : State :=
  ({ s with burners := s.burners.set b (s.lightoffTimed b e self l) } : State).setBurnerState b .lightoff

theorem State.lightoffState_ruled (s : State) (b : Fin 3) (e : BurnerEntry) (self : Bool) (l : Fin 6) :
    State.LinesRuled { s with burners := s.burners.set b { s.lightoffTimed b e self l with state := .lightoff } }
      (s.lightoffState b e self l) b := s.setBurnerState_ruled b (s.lightoffTimed b e self l) .lightoff

theorem State.lightoffState_burner (s : State) (b : Fin 3) (e : BurnerEntry) (self : Bool) (l : Fin 6) :
    ((s.lightoffState b e self l).burners[b]).state = .lightoff := by
  rw [(s.lightoffState_ruled b e self l).burners, Fin.getElem_fin, Vector.getElem_set_self]

theorem State.enterLightoff_none {s : State} {b : Fin 3} (h : s.chooseLightoffLine b = none) (e : BurnerEntry)
    (self : Bool) :
    s.enterLightoff b e self = s.enterLockout b .noLightoffLine := by
  rw [State.enterLightoff, h]

theorem State.enterLightoff_some {s : State} {b : Fin 3} {l : Fin 6} (h : s.chooseLightoffLine b = some l)
    (e : BurnerEntry)
    (self : Bool) : s.enterLightoff b e self =
      ((s.lightoffState b e self l).setFeed l (s.lightoffFeed e l)).queueFeed l .control := by
  rw [State.enterLightoff, h]
  rfl

/-- Settles O39: the light-off line is the first of the sorted shares that is CONTINUOUS; the entry sets the burner,
then commands the line's feed. -/
theorem lightoffEntered : Obligations.LightoffEntered := by
  unfold Obligations.LightoffEntered
  refine ⟨fun s b => ⟨fun l => State.chooseLightoffLine_some,
      fun h l e m tol win he hel => State.chooseLightoffLine_none h he hel
      m tol win, s.eligible_iff b⟩,
    fun s b e self => ⟨fun h => State.enterLightoff_none h e self, fun l le m h hle hm => ?entered⟩⟩
  obtain ⟨le', m', tol, win, hle', hel, hk, -⟩ := State.chooseLightoffLine_some h
  cases hle.symm.trans hle'
  obtain ⟨le'', hle'', rfl, -, -, hout, hfault⟩ := (s.eligible_iff b l).1 hel
  cases hle.symm.trans hle''
  have hruled := s.lightoffState_ruled le.burner e self l
  have hlit : ((s.lightoffState le.burner e self l).burners[le.burner]).state ≠ .run := by
    rw [s.lightoffState_burner]
    exact nofun
  obtain ⟨hvout, hvfault⟩ := hruled.inService (e := le) hle rfl hout hfault
  obtain ⟨w, hw, hfields, hfeeding, hothers, hrest⟩ :=
      State.commandFeed_spec ((hruled.lineEntry? l).trans hle) hk hlit hvout
    hvfault (clampNat e.lightoffFeed m.fmin m.fmax)
  rw [hruled.timeBase] at hfields
  refine ⟨s.lightoffState le.burner e self l, w, ?_, hruled, hfields, hfeeding, hothers, hrest⟩
  rw [State.enterLightoff_some h, State.lightoffFeed_eq hle hm]
  exact hw

end Sys2Proof.Machine
end

section
/-!
PROOFS. Burner supervision: the end of the purge and of light-off, and timers that do not run (R51, R52, R54, R55, R79).
-/
namespace Sys2Proof.Machine

/-! ### Igniters (R51, R79) -/

/-- R67, R79: a line whose igniter is commanded, but for its state. -/
theorem State.litLine_fields (s : State) (l : Fin 6) (on : Bool) :
    { s.litLine l on with state := .out } =
      { s.lines[l] with
        state := .out, deviation := (s.lines[l]).checkAfter (s.litLine l on).state s.timeBase, igniter := on,
        refresh := 0 } :=
  congrArg (fun x : Line => { x with refresh := 0 })
  (followLine_check s.burners s.timeBase { s.lines[l] with igniter := on })

/-- R79: an igniter that changes is commanded. -/
theorem State.setIgniter_spec {s : State} {l : Fin 6} {e : LineEntry} (he : s.lineEntry? l = some e) (on : Bool)
    (c : CommandClass) : ∃ w : State, s.setIgniter l on c = w.submit (.line l)
        { station := e.station, kind := .igniter, value := if on then 1 else 0, cls := c, origin := .fuel } ∧
      { w.lines[l] with state := .out } =
        { s.lines[l] with
          state := .out, deviation := (s.lines[l]).checkAfter (w.lines[l]).state s.timeBase
          igniter := on, refresh := 0 } ∧
      ((s.lines[l]).state = .out ∨ (s.lines[l]).state = .fault → (w.lines[l]).state = (s.lines[l]).state) ∧
      ((s.lines[l]).state ≠ .out → (s.lines[l]).state ≠ .fault → (w.lines[l]).state = w.ruledState l e) ∧
      (∀ l', l' ≠ l → w.lines[l'] = s.lines[l']) ∧ { w with lines := s.lines } = s := by
  refine ⟨_, s.setIgniter_eq he on c, ?_, fun hs => ?_, fun hout hfault => ?_, fun l' hl' => ?_, rfl⟩
  · simp only [Fin.getElem_fin, Vector.getElem_set_self]
    exact s.litLine_fields l on
  · simp only [Fin.getElem_fin, Vector.getElem_set_self]
    exact (congrArg Line.state (followLine_standing s.burners s.timeBase { s.lines[l] with igniter := on } hs) :)
  · rw [State.ruledState_eq]
    simp only [Fin.getElem_fin, Vector.getElem_set_self]
    exact (followLine_state s.burners s.timeBase { s.lines[l] with igniter := on } e he hout hfault).trans
      (ruledOf_congr _ _ (followLine_feed _ _ _).symm (followLine_igniter _ _ _).symm)
  · exact Vector.getElem_set_ne l.isLt l'.isLt fun h => hl' (Fin.ext h.symm)

/-! ### The end of the purge (R51) -/

/-- R51: the in-use IGNITION line of the burner that its entry names. -/
theorem State.ignitionLine_iff (s : State) (b : Fin 3) (l : Fin 6) : s.ignitionLine b = some l ↔
    ∃ be le, s.burnerEntry? b = some be ∧ be.ignition = .line l ∧ s.lineEntry? l = some le ∧ le.burner = b ∧
      le.kind = .ignition := by
  have hkind (k : LineKind) : k.isMetered = false ↔ k = .ignition := by
    cases k <;> simp [LineKind.isMetered, LineKind.metering?]
  have hcond (l : Fin 6) : (s.lineOf b l && (s.lineEntry? l).any fun e => !e.kind.isMetered) = true ↔
      ∃ le, s.lineEntry? l = some le ∧ le.burner = b ∧ le.kind = .ignition := by
    simp only [State.lineOf, Bool.and_eq_true, Option.any_eq_true, beq_iff_eq, Bool.not_eq_true', hkind]
    constructor
    · rintro ⟨⟨e, he, hb⟩, e', he', hk⟩
      cases he.symm.trans he'
      exact ⟨e, he, hb, hk⟩
    · rintro ⟨e, he, hb, hk⟩
      exact ⟨⟨e, he, hb⟩, e, he, hk⟩
  unfold State.ignitionLine
  split
  case h_1 l' hl' =>
    obtain ⟨be, hbe, hig⟩ := Option.map_eq_some_iff.1 hl'
    constructor
    · intro h
      split_ifs at h with hc
      cases h
      obtain ⟨le, hle⟩ := (hcond _).1 hc
      exact ⟨be, le, hbe, hig, hle⟩
    · rintro ⟨be', le, hbe', hig', hle⟩
      cases hbe.symm.trans hbe'
      cases hig.symm.trans hig'
      exact if_pos ((hcond _).2 ⟨le, hle⟩)
  case h_2 hno =>
    refine ⟨nofun, ?_⟩
    rintro ⟨be, le, hbe, hig, -⟩
    exact absurd (by rw [hbe, Option.map_some, hig]) (hno l)

section purge
variable {s : State} {b : Fin 3} {e : BurnerEntry}

theorem State.burnerTimer_of {k : BurnerTimer} {t : Time} (h : (s.burners[b]).timer = some (k, t)) :
    s.burnerTimer b k = some t := by
  rw [State.burnerTimer, h]
  exact if_pos rfl

theorem State.burnerTimer_none {k : BurnerTimer} (h : ∀ t, (s.burners[b]).timer ≠ some (k, t)) :
    s.burnerTimer b k = none := by
  unfold State.burnerTimer
  split
  case h_1 k' t ht => exact if_neg fun hk : k' = k => h t (hk ▸ ht)
  case h_2 => rfl

theorem State.purgeExpiry_runs {t : Time} (he : s.burnerEntry? b = some e)
    (h : (s.burners[b]).timer = some (.purge, t)) :
    s.purgeExpiry b = (s.advance t).purgeEnds b e := by
  rw [State.purgeExpiry, State.burnerTimer_of h, he]

theorem State.purgeExpiry_none (h : ∀ t, (s.burners[b]).timer ≠ some (.purge, t)) : s.purgeExpiry b = s := by
  rw [State.purgeExpiry, State.burnerTimer_none h]

/-- R51: a burner whose ignition line is in service enters IGNITION. -/
theorem State.purgeEnds_lights {l : Fin 6} (hig : e.ignition = .line l) (hline : s.ignitionLine b = some l)
    (hout : (s.lines[l]).state ≠ .out) (hfault : (s.lines[l]).state ≠ .fault) : s.purgeEnds b e =
      ((s.modBurner b fun x =>
        { x with
          presentRun := 0, absentRun := 0
          timer := some (.trial, s.timeBase + e.ignitionTrial * 1000) }).setBurnerState b .ignition).changeIgniter
        l true := by
  rw [State.purgeEnds, hig, hline]
  exact if_neg (not_or.2 ⟨hout, hfault⟩)

/-- R51: without an ignition line in service there is no ignition source. -/
theorem State.purgeEnds_noLine {l : Fin 6} (hig : e.ignition = .line l) (he : s.burnerEntry? b = some e)
    (h : s.ignitionLine b = none ∨ (s.lines[l]).state = .out ∨ (s.lines[l]).state = .fault) :
    s.purgeEnds b e = s.enterLockout b .noIgnitionSource := by
  rw [State.purgeEnds, hig]
  cases hline : s.ignitionLine b with
  | none => rfl
  | some l' =>
    obtain ⟨be, -, hbe, hig', -⟩ := (s.ignitionLine_iff b l').1 hline
    cases he.symm.trans hbe
    cases hig.symm.trans hig'
    exact if_pos (h.resolve_left (by rw [hline]; exact nofun))

theorem State.purgeEnds_self {p : Fin 256} {v : Int} (hig : e.ignition = .selfPoint p v) (hq : s.pointQuality p = .good)
    (hv : v ≤ (s.points[p]).value) : s.purgeEnds b e = s.enterLightoff b e true := by
  rw [State.purgeEnds, hig]
  exact if_pos (by rw [Bool.and_eq_true, State.pointGood, beq_iff_eq, decide_eq_true_iff]; exact ⟨hq, hv⟩)

theorem State.purgeEnds_noSelf {p : Fin 256} {v : Int} (hig : e.ignition = .selfPoint p v)
    (h : s.pointQuality p ≠ .good ∨ (s.points[p]).value < v) :
    s.purgeEnds b e = s.enterLockout b .noIgnitionSource := by
  rw [State.purgeEnds, hig]
  refine if_neg ?_
  rw [Bool.and_eq_true, State.pointGood, beq_iff_eq, decide_eq_true_iff]
  exact fun ⟨hq, hv⟩ => h.elim (· hq) fun hlow => absurd hv (Int.not_le.2 hlow)

end purge

/-- Settles O40: the end of the purge by the ignition of the burner's entry; an igniter by whether it changes. -/
theorem purgeEnds : Obligations.PurgeEnds := by
  unfold Obligations.PurgeEnds
  refine ⟨fun s w b e t he ht hw => ?ends, fun s l e on he => ⟨fun h => if_pos h, fun h => ?changes⟩⟩
  case changes =>
    have hset : s.changeIgniter l on = s.setIgniter l on .control := if_neg h
    rw [hset]
    exact State.setIgniter_spec he on .control
  case ends =>
    have hexec {u : State} (hu : w.purgeEnds b e = u) :
        Machine.exec (.purgeTimerExpiry b) s = .next u.finish.driveLines := by
      rw [← hu, hw]
      exact congrArg (fun u => State.conclude (State.finish u)) (State.purgeExpiry_runs he ht)
    have hlines : w.lines = s.lines := by rw [hw]
    have hpoints : w.points = s.points := by rw [hw]
    have hburners : w.burners = s.burners := by rw [hw]
    have hline : w.ignitionLine b = s.ignitionLine b := by rw [hw]; rfl
    have hentry : w.burnerEntry? b = some e := by rw [← he, hw]; rfl
    have hquality (p : Fin 256) : w.pointQuality p = s.pointQuality p := by rw [hw]; rfl
    rw [← hlines, ← hpoints, ← hburners, ← hline]
    simp only [← hquality]
    clear hw
    refine ⟨fun l hig => ⟨fun hl hout hfault => ?_, fun h => ?_⟩,
        fun p v hig => ⟨fun hq hv => hexec (State.purgeEnds_self hig hq hv),
      fun h => ?_⟩⟩
    · refine ⟨_, hexec (State.purgeEnds_lights hig hl hout hfault), ?_⟩
      exact w.setBurnerState_ruled b { w.burners[b] with
        presentRun := 0, absentRun := 0, timer := some (.trial, w.timeBase + e.ignitionTrial * 1000) } .ignition
    · exact ⟨_, hexec (State.purgeEnds_noLine hig hentry h), w.enterLockout_lockedOut b _ _⟩
    · exact ⟨_, hexec (State.purgeEnds_noSelf hig h), w.enterLockout_lockedOut b _ _⟩

/-! ### Trial and light-off (R52, R54, R55) -/

section lightoff
variable {s : State} {b : Fin 3} {e : BurnerEntry}

/-- R52, R54: the trial locks the burner out. -/
theorem State.trialExpiry_expires {t : Time} (h : (s.burners[b]).timer = some (.trial, t) ∨
    ((∀ t', (s.burners[b]).timer ≠ some (.trial, t')) ∧ (s.burners[b]).trialInLightoff = some t ∧
      (s.burners[b]).confirmed = false)) : s.trialExpiry b = (s.advance t).enterLockout b .ignitionFail := by
  rcases h with h | ⟨hno, htrial, hclear⟩
  · rw [State.trialExpiry, State.burnerTimer_of h]
  · rw [State.trialExpiry, State.burnerTimer_none hno, htrial]
    exact if_neg (Bool.eq_false_iff.1 hclear)

theorem State.trialExpiry_none (hno : ∀ t, (s.burners[b]).timer ≠ some (.trial, t))
    (h : (s.burners[b]).trialInLightoff = none ∨ (s.burners[b]).confirmed = true) : s.trialExpiry b = s := by
  rw [State.trialExpiry, State.burnerTimer_none hno]
  cases htrial : (s.burners[b]).trialInLightoff with
  | none => rfl
  | some t => exact if_pos (h.resolve_left (by rw [htrial]; exact nofun))

theorem State.lightoffExpiry_runs {t : Time} (he : s.burnerEntry? b = some e)
    (h : (s.burners[b]).timer = some (.lightoff, t)) :
    s.lightoffExpiry b = if (s.burners[b]).confirmed then (s.advance t).enterRun b e else s := by
  rw [State.lightoffExpiry, State.burnerTimer_of h, he]

theorem State.lightoffExpiry_none (h : ∀ t, (s.burners[b]).timer ≠ some (.lightoff, t)) : s.lightoffExpiry b = s := by
  rw [State.lightoffExpiry, State.burnerTimer_none h]

/-- R67: a posting to a burner's account is none to its lines. -/
theorem State.LinesRuled.postBurner {u : State} (h : s.LinesRuled u b) (f : BurnerAccount → BurnerAccount) :
    (s.postBurner b f).LinesRuled (u.postBurner b f) b where
  others := h.others
  fields := h.fields
  standing := h.standing
  ruled := h.ruled
  rest := congrArg (fun t : State => t.postBurner b f) h.rest

/-- R79: the igniter off at the entry to RUN. -/
def State.igniterOff (s : State) (b : Fin 3) : State :=
  match s.ignitionLine b with
  | some l => s.changeIgniter l false
  | none => s

theorem fuelKeeps_firing : FuelKeeps fun s : State => (s.burners, s.shift) := ⟨fun _ _ _ => rfl, fun _ _ _ => rfl⟩

theorem State.igniterOff_keeps (s : State) (b : Fin 3) :
    (s.igniterOff b).burners = s.burners ∧ (s.igniterOff b).shift = s.shift := by
  unfold State.igniterOff
  split
  · exact Prod.mk.injEq .. ▸ fuelKeeps_firing.changeIgniter s _ false
  · exact ⟨rfl, rfl⟩

/-- R55, R62: the entry to RUN. -/
theorem State.enterRun_ruled (w v : State) (b : Fin 3) (e : BurnerEntry) (hv : w.igniterOff b = v) : State.LinesRuled
    { v with
      burners := w.burners.set b
        { w.burners[b] with
          state := .run, timer := none, trialInLightoff := none, lightoffLine := none
          runPosted := w.timeBase, demand := w.demandFromLightoff b e }
      shift := { v.shift with record := { v.shift.record with
        burners := w.shift.record.burners.set b
          { w.shift.record.burners[b] with
            starts := min top32 ((w.shift.record.burners[b]).starts + 1) } } } } (w.enterRun b e) b := by
  obtain ⟨hburners, hshift⟩ := w.igniterOff_keeps b
  rw [hv] at hburners hshift
  have hrun := v.setBurnerState_ruled b { w.burners[b] with
    demand := w.demandFromLightoff b e, timer := none, trialInLightoff := none, lightoffLine := none,
    runPosted := w.timeBase }
    .run
  have hposted := hrun.postBurner fun a => { a with starts := satAdd top32 a.starts 1 }
  rw [← hburners, ← hshift] at *
  subst hv
  exact hposted

end lightoff

/-! ### Timers that do not run (log entry 5) -/

theorem State.doseExpiry_none {s : State} {l : Fin 6} (h : (s.lines[l]).dose = none) : s.doseExpiry l = s := by
  rw [State.doseExpiry, h]

theorem State.deviationExpiry_none {s : State} {l : Fin 6} (h : (s.lines[l]).deviation.timer = none) :
    s.deviationExpiry l = s := by
  rw [State.deviationExpiry, h]

theorem State.startExpiry_none {s : State} (h : s.cooler.startTimer = none) : s.startExpiry = s := by
  rw [State.startExpiry, h]

theorem State.strokeExpiry_none {s : State} {g : Fin 4} (h : (s.cooler.runs[g]).timer = none) :
    s.strokeExpiry g = s := by
  rw [State.strokeExpiry, State.runAt, h]

/-- Settles O41: a trial that runs locks the burner out; light-off ends in RUN where the mark is set; a timer that does
not run leaves the state. -/
theorem lightoffEnds : Obligations.LightoffEnds := by
  unfold Obligations.LightoffEnds
  have hended (u : State → State) {s t : State} (h : u s = t) : (u s).finish.conclude = .next t.finish.driveLines := by
    rw [h]; rfl
  refine ⟨fun s b => ⟨fun t h => ⟨_, hended (State.trialExpiry · b) (State.trialExpiry_expires h),
      State.enterLockout_lockedOut _ b _ _⟩, fun hno h => hended (State.trialExpiry · b)
      (State.trialExpiry_none hno h)⟩,
    fun s w b e t he ht hw => ⟨fun hmark => ?runs, fun hclear => ?clear, fun l le m hl hle hm => ?demand⟩,
    fun s => ⟨fun b h => hended (State.purgeExpiry · b) (State.purgeExpiry_none h),
      fun b h => hended (State.lightoffExpiry · b) (State.lightoffExpiry_none h),
      fun l h => hended (State.doseExpiry · l) (State.doseExpiry_none h),
      fun l h => hended (State.deviationExpiry · l) (State.deviationExpiry_none h),
      fun h => hended State.startExpiry (State.startExpiry_none h),
      fun g h => hended (State.strokeExpiry · g) (State.strokeExpiry_none h)⟩⟩
  case runs =>
    have hrun : s.lightoffExpiry b = w.enterRun b e := by
      rw [State.lightoffExpiry_runs he ht, hmark, hw]
      rfl
    refine ⟨w.igniterOff b, w.enterRun b e, hended (State.lightoffExpiry · b) hrun, fun l hl => ?_, fun hl => ?_, ?_⟩
    · have hl : w.ignitionLine b = some l := by rw [hw]; exact hl
      rw [State.igniterOff, hl]
    · have hl : w.ignitionLine b = none := by rw [hw]; exact hl
      rw [State.igniterOff, hl]
    · have hruled := w.enterRun_ruled _ b e rfl
      rw [show w.burners = s.burners by rw [hw], show w.shift = s.shift by rw [hw],
        show w.demandFromLightoff b e = s.demandFromLightoff b e by rw [hw]; rfl] at hruled
      exact hruled
  case clear =>
    refine hended (State.lightoffExpiry · b) ?_
    rw [State.lightoffExpiry_runs he ht, hclear]
    rfl
  case demand =>
    simp only [State.demandFromLightoff, hl, hle, Option.bind_some, hm]
    rfl

end Sys2Proof.Machine
end

section
/-!
PROOFS. The requests that concern burners: BURNER_START, BURNER_STOP and BURNER_RESET (R48, R49, R56, R61).
-/
namespace Sys2Proof.Machine

/-! ### The lowest-numbered alarm (R48, R61, R91) -/

/-- The first index of a table that satisfies `p`. -/
theorem find?_indices_eq_some_iff {n : Nat} {p : Fin n → Bool} {i : Fin n} :
    (indices n).find? p = some i ↔ ∀ j ≤ i, p j = true ↔ j = i := by
  rw [find_indices_some]
  constructor
  · rintro ⟨hi, hbefore⟩ j hj
    refine ⟨fun hp => ?_, fun h => h ▸ hi⟩
    by_contra hne
    exact absurd hp (Bool.eq_false_iff.1 (hbefore j (lt_of_le_of_ne hj hne)))
  · exact fun h => ⟨(h i le_rfl).2 rfl, fun j hj => Bool.eq_false_iff.2 fun hp => hj.ne ((h j hj.le).1 hp)⟩

theorem State.findAlarm_eq_some_iff (s : State) (f : AlarmEntry → AlarmState → Bool) (a : Fin 192) :
    s.findAlarm f = some a ↔
      ∀ a' ≤ a, (∃ x, s.alarmEntry? a' = some x ∧ f x (s.alarmAt a').state = true) ↔ a' = a := by
  refine find?_indices_eq_some_iff.trans (forall₂_congr fun a' _ => ?_)
  rw [Option.any_eq_true]

theorem State.findAlarm_eq_none_iff (s : State) (f : AlarmEntry → AlarmState → Bool) :
    s.findAlarm f = none ↔ ∀ a x, s.alarmEntry? a = some x → f x (s.alarmAt a).state = false := by
  rw [← Option.not_isSome_iff_eq_none, s.findAlarm_isSome]
  simp only [not_exists, not_and, Bool.not_eq_true]

/-- R48, R61: an alarm that blocks a burner. -/
theorem blocksBurner_iff (b : Fin 3) (x : AlarmEntry) (st : AlarmState) :
    (x.priority == 1 && x.action.targets b && st.active) = true ↔
      x.priority = 1 ∧ (x.action = .tripBurner b ∨ x.action = .holdFuel b) ∧
        (st = .raised ∨ st = .held ∨ st = .suppressed) := by
  simp only [Bool.and_eq_true, beq_iff_eq, AlarmAction.targets_iff, AlarmState.active_iff, and_assoc]

theorem State.burnerBlockedBy_some_iff (s : State) (b : Fin 3) (a : Fin 192) : s.burnerBlockedBy b = some a ↔
    (∀ a' ≤ a, (∃ x, s.alarmEntry? a' = some x ∧ x.priority = 1 ∧
      (x.action = .tripBurner b ∨ x.action = .holdFuel b) ∧ ((s.alarmAt a').state = .raised ∨
        (s.alarmAt a').state = .held ∨ (s.alarmAt a').state = .suppressed)) ↔ a' = a) := by
  rw [State.burnerBlockedBy, s.findAlarm_eq_some_iff]
  simp only [blocksBurner_iff]

theorem State.burnerBlockedBy_none_iff (s : State) (b : Fin 3) : s.burnerBlockedBy b = none ↔
    ∀ a x, s.alarmEntry? a = some x → x.priority = 1 → (x.action = .tripBurner b ∨ x.action = .holdFuel b) →
      (s.alarmAt a).state ≠ .raised ∧ (s.alarmAt a).state ≠ .held ∧ (s.alarmAt a).state ≠ .suppressed := by
  rw [State.burnerBlockedBy, s.findAlarm_eq_none_iff]
  simp only [← Bool.not_eq_true, blocksBurner_iff, not_and, not_or, ne_eq]

/-! ### The checks of Table 3-5 (R48) -/

theorem State.scannersQuick_iff (s : State) (e : BurnerEntry) : s.scannersQuick e = true ↔
    (∃ st, s.scannerStation e.scanner1 = some st ∧ s.onQuickList st = true) ∧
      ∀ x, e.scanner2 = some x → ∃ st, s.scannerStation x = some st ∧ s.onQuickList st = true := by
  simp only [State.scannersQuick, Bool.and_eq_true, Option.any_eq_true, Option.all_eq_true]

theorem State.linesOff_iff (s : State) (b : Fin 3) : s.linesOff b = true ↔
    (∀ l le, s.lineEntry? l = some le → le.burner = b → (s.lines[l]).feed = 0) ∧
      ∀ l, s.ignitionLine b = some l → (s.lines[l]).igniter = false := by
  have hline (l : Fin 6) : (s.lineOf b l = false ∨ (s.lines[l]).feed = 0) ↔
      ∀ le, s.lineEntry? l = some le → le.burner = b → (s.lines[l]).feed = 0 := by
    cases he : s.lineEntry? l with
    | none => simp [State.lineOf_none s he]
    | some le =>
      rw [State.lineOf_some s he]
      by_cases hb : le.burner = b <;> simp [hb]
  simp only [State.linesOff, Bool.and_eq_true, List.all_eq_true, indices, List.mem_finRange, true_imp_iff,
      Bool.or_eq_true,
    Bool.not_eq_true', beq_iff_eq, Option.all_eq_true, hline]

/-- The first permissive that is not satisfied. -/
theorem findIdx?_lost {l : List Bool} {n : Nat} (h : l[n]? = some false) (hfirst : ∀ m, m < n → l[m]? ≠ some false) :
    l.findIdx? (!·) = some n := by
  obtain ⟨hn, hlost⟩ := List.getElem?_eq_some_iff.1 h
  refine List.findIdx?_eq_some_iff_getElem.2 ⟨hn, by rw [hlost]; rfl, fun m hm hlostm => hfirst m hm ?_⟩
  exact List.getElem?_eq_some_iff.2 ⟨hm.trans hn, by simpa using hlostm⟩

theorem findIdx?_satisfied {l : List Bool} (h : ∀ n : Nat, l[n]? ≠ some false) : l.findIdx? (!·) = none := by
  refine List.findIdx?_eq_none_iff.2 fun x hx => ?_
  obtain ⟨n, hn⟩ := List.mem_iff_getElem?.1 hx
  cases x
  · exact absurd hn (h n)
  · rfl

section start
variable {s : State} {b : Fin 3} {e : BurnerEntry}

theorem State.startCheck_state (h : (s.burners[b]).state ≠ .off) :
    s.startCheck b e = some (Answer.check .notPermitted .state) := if_pos h

theorem State.startCheck_floor (h : (s.burners[b]).state = .off) (hfloor : s.floor.state ≠ .normal) :
    s.startCheck b e = some (Answer.check .notPermitted .floor) := (if_neg (not_not.2 h)).trans (if_pos hfloor)

variable (h : (s.burners[b]).state = .off) (hfloor : s.floor.state = .normal)
include h hfloor

theorem State.startCheck_scanner (hq : s.scannersQuick e = false) :
    s.startCheck b e = some (Answer.check .notPermitted .scanner) := by
  rw [State.startCheck, if_neg (not_not.2 h), if_neg (not_not.2 hfloor), hq]
  rfl

variable (hq : s.scannersQuick e = true)
include hq

/-- Table 3-5, checks 4 to 8. -/
theorem State.startCheck_rest : s.startCheck b e = match (s.burners[b]).permOk.findIdx? (!·) with
    | some i => some (Answer.checkObject .notPermitted .permissive (i + 1))
    | none =>
      if !s.linesOff b then some (Answer.check .notPermitted .lines)
      else if (s.chooseLightoffLine b).isNone then some (Answer.check .notPermitted .noLightoffLine)
      else match s.burnerBlockedBy b with
      | some a => some (Answer.checkObject .notPermitted .alarm a.val)
      | none => if (s.burners[b]).vote then some (Answer.check .notPermitted .flame) else none := by
  have hq : ¬ (!s.scannersQuick e) = true := by rw [hq]; nofun
  rw [State.startCheck, if_neg (not_not.2 h), if_neg (not_not.2 hfloor), if_neg hq] <;> rfl

theorem State.startCheck_permissive {n : Nat} (hlost : (s.burners[b]).permOk[n]? = some false)
    (hfirst : ∀ m, m < n → (s.burners[b]).permOk[m]? ≠ some false) :
    s.startCheck b e = some (Answer.checkObject .notPermitted .permissive (n + 1)) := by
  rw [State.startCheck_rest h hfloor hq, findIdx?_lost hlost hfirst]

variable (hperm : ∀ n : Nat, (s.burners[b]).permOk[n]? ≠ some false)
include hperm

theorem State.startCheck_lines (hoff : s.linesOff b = false) :
    s.startCheck b e = some (Answer.check .notPermitted .lines) := by
  rw [State.startCheck_rest h hfloor hq, findIdx?_satisfied hperm, hoff]
  rfl

variable (hoff : s.linesOff b = true)
include hoff

theorem State.startCheck_noLine (hline : s.chooseLightoffLine b = none) :
    s.startCheck b e = some (Answer.check .notPermitted .noLightoffLine) := by
  rw [State.startCheck_rest h hfloor hq, findIdx?_satisfied hperm, hoff, hline]
  rfl

variable (hline : s.chooseLightoffLine b ≠ none)
include hline

/-- Table 3-5, checks 7 and 8. -/
theorem State.startCheck_last : s.startCheck b e = match s.burnerBlockedBy b with
    | some a => some (Answer.checkObject .notPermitted .alarm a.val)
    | none => if (s.burners[b]).vote then some (Answer.check .notPermitted .flame) else none := by
  have hsome : (s.chooseLightoffLine b).isNone = false := Bool.eq_false_iff.2 (mt Option.isNone_iff_eq_none.1 hline)
  rw [State.startCheck_rest h hfloor hq, findIdx?_satisfied hperm, hoff, hsome]
  rfl

theorem State.startCheck_alarm {a : Fin 192} (ha : s.burnerBlockedBy b = some a) :
    s.startCheck b e = some (Answer.checkObject .notPermitted .alarm a.val) := by
  rw [State.startCheck_last h hfloor hq hperm hoff hline, ha]

theorem State.startCheck_flame (ha : s.burnerBlockedBy b = none) (hvote : (s.burners[b]).vote = true) :
    s.startCheck b e = some (Answer.check .notPermitted .flame) := by
  rw [State.startCheck_last h hfloor hq hperm hoff hline, ha, hvote]
  rfl

theorem State.startCheck_passes (ha : s.burnerBlockedBy b = none) (hvote : (s.burners[b]).vote = false) :
    s.startCheck b e = none := by
  rw [State.startCheck_last h hfloor hq hperm hoff hline, ha, hvote]
  rfl

end start

/-! ### The rows -/

section requests
variable {s : State} {b : Fin 3} {e : BurnerEntry} {args : List Byte} {is : List Item}
  (hread : readArgs [intArg] args = some is) (hb : intOf is 1 = some (b.val + 1 : Int))

theorem withBurner_some (hb : intOf is 1 = some (b.val + 1 : Int)) (he : s.burnerEntry? b = some e)
    (f : Fin 3 → BurnerEntry → State × Answer) : withBurner s is f = f b e := by
  rw [withBurner, withObject_one b hb, he]

theorem withBurner_none (hb : intOf is 1 = some (b.val + 1 : Int)) (he : s.burnerEntry? b = none)
    (f : Fin 3 → BurnerEntry → State × Answer) : withBurner s is f = (s, { result := .notConfigured }) := by
  rw [withBurner, withObject_one b hb, he]
  rfl

include hread hb

theorem handleBurnerStart_refused {a : Answer} (he : s.burnerEntry? b = some e) (h : s.startCheck b e = some a)
    (n : Byte) :
    handleBurnerStart s.popRequest n args = (s.popRequest, some a) := by
  have h : s.popRequest.startCheck b e = some a := h
  exact answering_eq hread (by rw [withBurner_some hb (s := s.popRequest) he, h]) n

theorem handleBurnerStart_taken (he : s.burnerEntry? b = some e) (h : s.startCheck b e = none) (n : Byte) :
    handleBurnerStart s.popRequest n args = (s.popRequest.enterPurge b e, some Answer.ok) := by
  have h : s.popRequest.startCheck b e = none := h
  exact answering_eq hread (by rw [withBurner_some hb (s := s.popRequest) he, h]) n

theorem handleBurnerStop_taken (he : s.burnerEntry? b = some e) (h : (s.burners[b]).state.firing = true) (n : Byte) :
    handleBurnerStop s.popRequest n args = ((s.popRequest.stopBurner b).finish, some Answer.ok) :=
  answering_eq hread (by rw [withBurner_some hb (s := s.popRequest) he]; exact if_pos h) n

theorem handleBurnerStop_refused (he : s.burnerEntry? b = some e) (h : (s.burners[b]).state.firing = false) (n : Byte) :
    handleBurnerStop s.popRequest n args = (s.popRequest, some { result := .notPermitted }) :=
  answering_eq hread (by rw [withBurner_some hb (s := s.popRequest) he]; exact if_neg (Bool.eq_false_iff.1 h)) n

theorem handleBurnerReset_eq (he : s.burnerEntry? b = some e) {u : State} {a : Answer}
    (h : (if (s.burners[b]).state ≠ .lockout then (s.popRequest, Answer.check .notPermitted .state)
      else if (s.burners[b]).vote then (s.popRequest, Answer.check .notPermitted .flame)
      else match s.burnerBlockedBy b with
      | some a => (s.popRequest, Answer.checkObject .notPermitted .alarm a.val)
      | none => ((s.popRequest.setBurnerState b .off).finish, Answer.ok)) = (u, a)) (n : Byte) :
    handleBurnerReset s.popRequest n args = (u, some a) :=
  answering_eq hread (by rw [withBurner_some hb (s := s.popRequest) he]; exact h) n

end requests

/-- R56: a burner fires where it is neither OFF nor in LOCKOUT. -/
theorem BurnerState.not_firing_iff (x : BurnerState) : x.firing = false ↔ x = .off ∨ x = .lockout := by
  cases x <;> simp [BurnerState.firing]

section settling
variable {s : State} {b : Fin 3} {args : List Byte} {is : List Item} {number : Byte}
  (hread : readArgs [intArg] args = some is) (hb : intOf is 1 = some (b.val + 1 : Int))
include hread hb

/-- R48, R49: a start that passes its checks enters PURGE. -/
theorem exec_burnerStart_taken {e : BurnerEntry} (h : s.offers 0x0C#8 number args) (he : s.burnerEntry? b = some e)
    (hpass : s.startCheck b e = none) : ∃ u : State,
    Machine.exec .burnerStart s = .next (u.answered number 0x0C#8 Answer.ok) ∧
    State.LinesRuled
      { s.popRequest with
        burners := s.burners.set b
          { s.burners[b] with
            state := .purge, presentRun := 0, absentRun := 0, confirmed := false, lightoffLine := none
            trialInLightoff := none, timer := some (.purge, s.timeBase + e.purgeTime * 1000) } } u b :=
  ⟨_, h.exec_of_handler rfl (handleBurnerStart_taken hread hb he hpass number), s.popRequest.setBurnerState_ruled b
    { s.burners[b] with
      presentRun := 0, absentRun := 0, confirmed := false, lightoffLine := none, trialInLightoff := none
      timer := some (.purge, s.timeBase + e.purgeTime * 1000) } .purge⟩

/-- R56: BURNER_STOP. -/
theorem exec_burnerStop (h : s.offers 0x0D#8 number args) :
    (s.burnerEntry? b = none →
      Machine.exec .burnerStop s = .next (s.popRequest.answered number 0x0D#8 { result := .notConfigured })) ∧
    (s.burnerEntry? b ≠ none → ((s.burners[b]).state = .off ∨ (s.burners[b]).state = .lockout) →
      Machine.exec .burnerStop s = .next (s.popRequest.answered number 0x0D#8 { result := .notPermitted })) ∧
    (s.burnerEntry? b ≠ none → (s.burners[b]).state ≠ .off → (s.burners[b]).state ≠ .lockout → ∃ u : State,
      Machine.exec .burnerStop s = .next (u.finish.answered number 0x0D#8 Answer.ok) ∧
      s.popRequest.BurnerStopped u b .off (s.burners[b]).lockout
        { s.shift.record.burners[b] with runTime := s.runTimeNow b } .control) := by
  refine ⟨fun he => ?_, fun he hidle => ?_, fun he hoff hlock => ?_⟩
  · exact h.exec_of_handler rfl (answering_eq hread (withBurner_none hb (s := s.popRequest) he _) number)
  · obtain ⟨e, he⟩ := Option.ne_none_iff_exists'.1 he
    exact h.exec_of_handler rfl (handleBurnerStop_refused hread hb he ((BurnerState.not_firing_iff _).2 hidle) number)
  · obtain ⟨e, he⟩ := Option.ne_none_iff_exists'.1 he
    exact ⟨_, h.exec_of_handler rfl (handleBurnerStop_taken hread hb he ((BurnerState.firing_iff _).2 ⟨hoff, hlock⟩)
        number),
      s.popRequest.stopBurner_stopped b⟩

/-- R61: BURNER_RESET. -/
theorem exec_burnerReset (h : s.offers 0x0E#8 number args) :
    (s.burnerEntry? b = none →
      Machine.exec .burnerReset s = .next (s.popRequest.answered number 0x0E#8 { result := .notConfigured })) ∧
    (s.burnerEntry? b ≠ none →
      ((s.burners[b]).state ≠ .lockout → Machine.exec .burnerReset s =
        .next (s.popRequest.answered number 0x0E#8 (Answer.check .notPermitted .state))) ∧
      ((s.burners[b]).state = .lockout → (s.burners[b]).vote = true → Machine.exec .burnerReset s =
        .next (s.popRequest.answered number 0x0E#8 (Answer.check .notPermitted .flame))) ∧
      ((s.burners[b]).state = .lockout → (s.burners[b]).vote = false → ∀ a, s.burnerBlockedBy b = some a →
        Machine.exec .burnerReset s =
          .next (s.popRequest.answered number 0x0E#8 (Answer.checkObject .notPermitted .alarm a.val))) ∧
      ((s.burners[b]).state = .lockout → (s.burners[b]).vote = false → s.burnerBlockedBy b = none → ∃ u : State,
        Machine.exec .burnerReset s = .next (u.finish.answered number 0x0E#8 Answer.ok) ∧
        State.LinesRuled
          { s.popRequest with
            burners := s.burners.set b { s.burners[b] with state := .off } } u b)) := by
  refine ⟨fun he => ?_, fun he => ?_⟩
  · exact h.exec_of_handler rfl (answering_eq hread (withBurner_none hb (s := s.popRequest) he _) number)
  obtain ⟨e, he⟩ := Option.ne_none_iff_exists'.1 he
  refine ⟨fun hst => ?_, fun hst hvote => ?_, fun hst hvote a ha => ?_, fun hst hvote ha => ?_⟩
  · exact h.exec_of_handler rfl (handleBurnerReset_eq hread hb he (if_pos hst) number)
  · exact h.exec_of_handler rfl (handleBurnerReset_eq hread hb he ((if_neg (not_not.2 hst)).trans (if_pos hvote))
      number)
  · refine h.exec_of_handler rfl (handleBurnerReset_eq hread hb he ?_ number)
    rw [if_neg (not_not.2 hst), if_neg (Bool.eq_false_iff.1 hvote), ha]
  · refine ⟨s.popRequest.setBurnerState b .off, h.exec_of_handler rfl (handleBurnerReset_eq hread hb he ?_ number),
      s.popRequest.setBurnerState_spec b .off⟩
    rw [if_neg (not_not.2 hst), if_neg (Bool.eq_false_iff.1 hvote), ha]

end settling

/-- Settles O42: BURNER_START by the first check of Table 3-5 that fails; the checks by what they ask; BURNER_STOP and
BURNER_RESET by the burner's state. -/
theorem burnerRequests : Obligations.BurnerRequests := by
  unfold Obligations.BurnerRequests
  refine ⟨fun s number args is b refusal h hread hb hrefusal => ⟨fun he => ?unused, fun e he => ?start⟩,
    fun s b e => ⟨s.scannersQuick_iff e, s.linesOff_iff b, s.ignitionLine_iff b, s.burnerBlockedBy_some_iff b,
      s.burnerBlockedBy_none_iff b⟩,
    fun s number args is b hread hb => ⟨exec_burnerStop hread hb, exec_burnerReset hread hb⟩⟩
  case unused =>
    rw [hrefusal]
    exact h.exec_of_handler rfl (answering_eq hread (withBurner_none hb (s := s.popRequest) he _) number)
  case start =>
    have hrefused {a : Answer} (ha : s.startCheck b e = some a) : Machine.exec .burnerStart s = refusal a := by
      rw [hrefusal]
      exact h.exec_of_handler rfl (handleBurnerStart_refused hread hb he ha number)
    refine ⟨fun hst => hrefused (State.startCheck_state hst),
        fun hst hfloor => hrefused (State.startCheck_floor hst hfloor),
      fun hst hfloor hq => hrefused (State.startCheck_scanner hst hfloor hq), fun hst hfloor hq =>
        ⟨fun n hlost hfirst => hrefused (State.startCheck_permissive hst hfloor hq hlost hfirst), fun hperm =>
          ⟨fun hoff => hrefused (State.startCheck_lines hst hfloor hq hperm hoff),
            fun hoff hline => hrefused (State.startCheck_noLine hst hfloor hq hperm hoff hline),
            fun hoff hline a ha => hrefused (State.startCheck_alarm hst hfloor hq hperm hoff hline ha),
            fun hoff hline ha hvote => hrefused (State.startCheck_flame hst hfloor hq hperm hoff hline ha hvote),
            fun hoff hline ha hvote => ?_⟩⟩⟩
    exact exec_burnerStart_taken hread hb h he (State.startCheck_passes hst hfloor hq hperm hoff hline ha hvote)

end Sys2Proof.Machine
end

section
/-!
PROOFS. Heat: demand, the apportionment of a burner's heat, and its balance (R71 to R76).
-/
namespace Sys2Proof.Machine

/-! ### SET_DEMAND (R71) -/

section demand
variable {s : State} {b : Fin 3} {e : BurnerEntry} {args : List Byte} {is : List Item} {heat : Int}
  (hread : readArgs [intArg, intArg] args = some is) (hb : intOf is 1 = some (b.val + 1 : Int))
  (hheat : intOf is 2 = some heat) (he : s.burnerEntry? b = some e)
include hread hb hheat he

theorem handleSetDemand_negative (h : heat < 0) (n : Byte) :
    handleSetDemand s.popRequest n args = (s.popRequest, some { result := .invalid }) :=
  answering_eq hread (by rw [withBurner_some hb (s := s.popRequest) he, hheat]; exact if_pos h) n

theorem handleSetDemand_stored (h : 0 ≤ heat) (n : Byte) : handleSetDemand s.popRequest n args =
    ((s.popRequest.storeDemand b e heat.toNat).1, some (s.popRequest.storeDemand b e heat.toNat).2) :=
  answering_eq hread (by rw [withBurner_some hb (s := s.popRequest) he, hheat]; exact if_neg (Int.not_lt.2 h)) n

end demand

/-- Settles O43: a heat is stored as the lesser of itself and the max demand. -/
theorem demandStored : Obligations.DemandStored := by
  unfold Obligations.DemandStored
  intro s number args is b heat h hread hb hheat
  refine ⟨fun he => ?unused, fun e he => ⟨fun hneg => ?negative, fun hpos hle => ?stored, fun hgt => ?clamped⟩⟩
  case unused => exact h.exec_of_handler rfl (answering_eq hread (withBurner_none hb (s := s.popRequest) he _) number)
  case negative => exact h.exec_of_handler rfl (handleSetDemand_negative hread hb hheat he hneg number)
  case stored =>
    refine h.exec_of_handler rfl ((handleSetDemand_stored hread hb hheat he hpos number).trans ?_)
    have hle : heat.toNat ≤ e.maxDemand := by omega
    rw [State.storeDemand, if_pos hle, Nat.min_eq_left hle]
    rfl
  case clamped =>
    refine h.exec_of_handler rfl ((handleSetDemand_stored hread hb hheat he (by omega) number).trans ?_)
    have hgt : e.maxDemand < heat.toNat := by omega
    rw [State.storeDemand, if_neg (Nat.not_le.2 hgt), Nat.min_eq_right hgt.le]
    rfl

/-! ### The demand step (R72) -/

theorem State.demandStep_run {s : State} {b : Fin 3} {e : BurnerEntry} (he : s.burnerEntry? b = some e)
    (hst : (s.burners[b]).state = .run) (period : Nat) : s.demandStep period b =
      { s with burners := s.burners.set b { s.burners[b] with
          demand := nextDemand (s.burners[b]).demand (s.burners[b]).requested (rampStep e.demandRamp period)
            (s.burners[b]).hold.nonempty } } := by
  rw [State.demandStep, he]
  exact if_pos hst

theorem State.demandStep_idle {s : State} {b : Fin 3} (hst : (s.burners[b]).state ≠ .run) (period : Nat) :
    s.demandStep period b = s := by
  unfold State.demandStep
  split
  · exact if_neg hst
  · rfl

theorem nextDemand_falls {d requested : Nat} (h : requested ≤ d) (step : Nat) (held : Bool) :
    nextDemand d requested step held = max requested (d - step) := if_neg (Nat.not_lt.2 h)

theorem nextDemand_rises {d requested : Nat} (h : d < requested) (step : Nat) :
    nextDemand d requested step false = min requested (d + step) := if_pos h

theorem nextDemand_held {d requested : Nat} (h : d < requested) (step : Nat) : nextDemand d requested step true = d :=
  if_pos h

/-! ### One burner's apportionment (R73, R76) -/

/-- R73 to R76: targets, U and X. -/
theorem State.apportionBurner_run {s : State} {b : Fin 3} (hst : (s.burners[b]).state = .run) : s.apportionBurner b =
    { s with
      lines := Vector.ofFn fun l => targetLine b (s.apportionmentOf b) l s.lines[l]
      burners := s.burners.set b { s.burners[b] with
        undelivered := (s.apportionmentOf b).undelivered
        excess := (s.manualHeat b - (s.burners[b]).demand) + (s.apportionmentOf b).fireExcess } } := by
  rw [State.apportionBurner, if_pos hst]
  exact State.setTargets_eq _ b _

/-- R76: the target of an automatic metered line of the burner. -/
theorem targetLine_auto {s : State} {l : Fin 6} {e : LineEntry} {m : Metering} (he : s.lineEntry? l = some e)
    (hm : e.kind.metering? = some m) (hmode : (s.lines[l]).mode = .auto) (r : Apportionment) :
    targetLine e.burner r l s.lines[l] = { s.lines[l] with target := targetFeed m (r.heat l) } := by
  have he : (s.lines[l]).entry.filter (·.inUse) = some e := he
  rw [targetLine, he]
  simp only [hmode, and_self, if_true, hm]

theorem targetLine_other {s : State} {b : Fin 3} {l : Fin 6} (h : s.lineOf b l = false ∨ (s.lines[l]).mode = .manual)
    (r : Apportionment) : targetLine b r l s.lines[l] = s.lines[l] := by
  unfold targetLine
  split
  · rfl
  · rename_i e he
    refine if_neg fun ⟨hb, hauto⟩ => ?_
    rcases h with h | h
    · rw [s.lineOf_some he, hb, beq_self_eq_true] at h
      cases h
    · rw [h] at hauto
      cases hauto

/-- R73: the line that a share stands for is found by its number. -/
theorem Apportionment.heat_of_mem {r : Apportionment} (hn : (r.assigned.map (·.1)).Nodup) {l : Fin 6} {a : Nat}
    (h : (l, a) ∈ r.assigned) : r.heat l = a := by
  unfold Apportionment.heat
  cases hfind : r.assigned.find? (·.1 == l) with
  | none => exact absurd (beq_self_eq_true l) (List.find?_eq_none.1 hfind _ h)
  | some x =>
    have hx : x.1 = l := beq_iff_eq.1 (List.find?_some (p := fun y : Fin 6 × Nat => y.1 == l) hfind)
    have heq : x = (l, a) := List.inj_on_of_nodup_map hn (List.mem_of_find?_eq_some hfind) h hx
    rw [heq]

theorem Apportionment.heat_of_not_mem {r : Apportionment} {l : Fin 6} (h : l ∉ r.assigned.map (·.1)) :
    r.heat l = 0 := by
  have hfind : r.assigned.find? (·.1 == l) = none :=
    List.find?_eq_none.2 fun x hx hl => h (List.mem_map.2 ⟨x, hx, beq_iff_eq.1 hl⟩)
  rw [Apportionment.heat, hfind]

theorem Apportionment.sum_heat {r : Apportionment} (hn : (r.assigned.map (·.1)).Nodup) :
    ((indices 6).map r.heat).sum = (r.assigned.map (·.2)).sum := heat_sum r.assigned hn

/-- R73, R76: the balance of an apportionment. -/
theorem State.apportionBurner_balance {s : State} {b : Fin 3} (hst : (s.burners[b]).state = .run) :
    ∃ (heat : Fin 6 → Nat) (r : Apportionment),
      r = apportion ((s.burners[b]).demand - s.manualHeat b) (s.burners[b]).hold.nonempty (s.eligibleSet b) ∧
      (∀ l a, (l, a) ∈ r.assigned → heat l = a) ∧ (∀ l, s.eligible b l = false → heat l = 0) ∧
      ((indices 6).map heat).sum + s.manualHeat b + ((s.apportionBurner b).burners[b]).undelivered =
        (s.burners[b]).demand + ((s.apportionBurner b).burners[b]).excess ∧
      (((s.apportionBurner b).burners[b]).undelivered = 0 ∨ ((s.apportionBurner b).burners[b]).excess = 0) ∧
      (∀ l e m, s.lineEntry? l = some e → e.burner = b → e.kind.metering? = some m → (s.lines[l]).mode = .auto →
        (s.apportionBurner b).lines[l] = { s.lines[l] with
          target := if (heat l * 3600 + m.cv / 2) / m.cv = 0 then 0
            else clampNat ((heat l * 3600 + m.cv / 2) / m.cv) m.fmin m.fmax }) ∧
      (∀ l : Fin 6, s.lineOf b l = false ∨ (s.lines[l]).mode = .manual →
        (s.apportionBurner b).lines[l] = s.lines[l]) ∧
      s.apportionBurner b =
        { s with
          lines := (s.apportionBurner b).lines
          burners := s.burners.set b { s.burners[b] with
            undelivered := r.undelivered
            excess := (s.manualHeat b - (s.burners[b]).demand) + r.fireExcess } } := by
  obtain ⟨hsum, hzero, hnone, hlines⟩ := apportion_spec _ _ _ (s.apportionmentOf b) rfl
  obtain ⟨hnodup, hineligible⟩ := s.eligibleSet_lines b
  rw [← hlines] at hnodup hineligible
  have hline (l : Fin 6) : (s.apportionBurner b).lines[l] = targetLine b (s.apportionmentOf b) l s.lines[l] := by
    rw [State.apportionBurner_run hst]
    simp only [Fin.getElem_fin, Vector.getElem_ofFn]
  have hburner : (s.apportionBurner b).burners[b] = { s.burners[b] with
      undelivered := (s.apportionmentOf b).undelivered
      excess := (s.manualHeat b - (s.burners[b]).demand) + (s.apportionmentOf b).fireExcess } := by
    rw [State.apportionBurner_run hst]
    simp only [Fin.getElem_fin, Vector.getElem_set_self]
  refine ⟨(s.apportionmentOf b).heat, s.apportionmentOf b, rfl, fun l a => Apportionment.heat_of_mem hnodup,
    fun l h => Apportionment.heat_of_not_mem (hineligible l h), ?_, ?_, fun l e m he hb hm hmode => ?_, fun l h => ?_,
    ?_⟩
  · rw [hburner, Apportionment.sum_heat hnodup]
    dsimp only
    omega
  · rw [hburner]
    dsimp only
    omega
  · subst hb
    rw [hline, targetLine_auto he hm hmode]
    rfl
  · rw [hline, targetLine_other h]
  · rw [State.apportionBurner_run hst]

/-! ### Manual heat (R73) -/

theorem State.manualHeat_eq {s : State} {b : Fin 3} {manual : Fin 6 → Nat}
    (hmanual : ∀ l e m, s.lineEntry? l = some e → e.burner = b → e.kind.metering? = some m →
    (s.lines[l]).mode = .manual →
      manual l = (s.lines[l]).feed * m.cv / 3600)
    (hother : ∀ l, (∀ e m, s.lineEntry? l = some e → e.burner = b → e.kind.metering? = some m →
      (s.lines[l]).mode ≠ .manual) → manual l = 0) : s.manualHeat b = ((indices 6).map manual).sum := by
  refine congrArg List.sum (List.map_congr_left fun l _ => ?_)
  by_cases hcond : s.lineOf b l && (s.lines[l]).mode == .manual
  · rw [if_pos hcond]
    rw [Bool.and_eq_true, beq_iff_eq] at hcond
    obtain ⟨hof, hmode⟩ := hcond
    cases he : s.lineEntry? l with
    | none => rw [s.lineOf_none he] at hof; cases hof
    | some e =>
      rw [s.lineOf_some he, beq_iff_eq] at hof
      cases hm : e.kind.metering? with
      | none =>
        simp only [Option.bind_some, hm]
        exact (hother l fun e' m' he' _ hm' => by cases he.symm.trans he'; cases hm.symm.trans hm').symm
      | some m =>
        simp only [Option.bind_some, hm]
        exact (hmanual l e m he hof hm hmode).symm
  · rw [if_neg hcond]
    refine (hother l fun e m he hb hm hmode => hcond ?_).symm
    rw [s.lineOf_some he, hb, beq_self_eq_true, hmode]
    rfl

/-- R73: the eligible lines as shares. -/
theorem State.mem_eligibleSet_iff (s : State) (b : Fin 3) (x : Share) : x ∈ s.eligibleSet b ↔
    ∃ e m, s.lineEntry? x.line = some e ∧ e.kind.metering? = some m ∧ s.eligible b x.line = true ∧
      x = { line := x.line, feed := (s.lines[x.line]).feed, cv := m.cv, weight := m.weight, priority := m.priority
            fmin := m.fmin, fmax := m.fmax } := by
  rw [s.mem_eligibleSet]
  constructor
  · rintro ⟨l, e, m, hel, he, hm, rfl⟩
    exact ⟨e, m, he, hm, hel, rfl⟩
  · rintro ⟨e, m, he, hm, hel, hx⟩
    exact ⟨x.line, e, m, hel, he, hm, hx⟩

/-! ### The sharing of a net demand (R73 to R75) -/

/-- R73 to R75: what each line of a list gets, by its place: its share, the feed it needs, its cap, what it starts with,
what is left of the spill before it, and what it is given. -/
structure SharedOut (dn : Nat) (held : Bool) (xs : List Share) (weights : Nat)
    (need share cap start left given : Nat → Nat) :
    Prop where
  at_place : ∀ i x, xs[i]? = some x →
    share i = dn * x.weight / weights + (if i = 0 then dn - (xs.map fun y => dn * y.weight / weights).sum else 0) ∧
    need i = (share i * 3600 + x.cv / 2) / x.cv ∧
    cap i = (if held then min (x.fmax * x.cv / 3600) ((x.feed * x.cv + 3599) / 3600) else x.fmax * x.cv / 3600) ∧
    start i = (if need i < x.fmin then 0 else min (share i) (cap i)) ∧
    given i = (if need i < x.fmin ∨ start i = cap i then start i else start i + min (left i) (cap i - start i)) ∧
    left (i + 1) = left i - (given i - start i)
  weights_eq : weights = (xs.map (·.weight)).sum
  left_zero : left 0 = ((List.range xs.length).map fun i => share i - start i).sum

section sharing
variable {dn : Nat} {held : Bool} {xs : List Share} {weights : Nat} {need share cap start left given : Nat → Nat}
  (h : SharedOut dn held xs weights need share cap start left given)
include h

theorem SharedOut.parts_eq : (withRemainder dn (baseShares dn xs)).map (fitShare held) = fitAt held share 0 xs :=
  withRemainder_at held dn xs share fun i x hx => by
    rw [(h.at_place i x hx).1, h.weights_eq]
    rfl

/-- R74: the part of the line at a place. -/
theorem SharedOut.fitShare_eq {i : Nat} {x : Share} (hx : xs[i]? = some x) :
    (fitShare held (x, share i)).spill = share i - start i ∧
    ((fitShare held (x, share i)).cut = decide (need i < x.fmin)) := by
  obtain ⟨-, hneed, hcap, hstart, -, -⟩ := h.at_place i x hx
  have hneed : feedOf (share i) x.cv = need i := hneed.symm
  have hcap : x.cap held = cap i := hcap.symm
  rw [fitShare, hstart]
  by_cases hcut : need i < x.fmin <;> simp [hneed, hcap, hcut]

theorem SharedOut.spill_eq : ((fitAt held share 0 xs).map (·.spill)).sum = left 0 := by
  rw [h.left_zero]
  refine congrArg List.sum (List.ext_getElem (by simp [fitAt]) fun i hi _ => ?_)
  have hlen : i < xs.length := by simpa [fitAt] using hi
  simp only [fitAt, List.getElem_map, List.getElem_mapIdx, List.getElem_range, Nat.zero_add]
  exact (h.fitShare_eq (List.getElem?_eq_getElem hlen)).1

theorem SharedOut.allCut_iff : (fitAt held share 0 xs).all (·.cut) = true ↔ ∀ i x, xs[i]? = some x →
    need i < x.fmin := by
  rw [List.all_eq_true]
  constructor
  · intro hall i x hx
    have hmem : fitShare held (x, share i) ∈ fitAt held share 0 xs :=
      List.mem_iff_getElem?.2 ⟨i, by simp [fitAt, hx]⟩
    have hcut := hall _ hmem
    rwa [(h.fitShare_eq hx).2, decide_eq_true_iff] at hcut
  · intro hall p hp
    obtain ⟨i, hi⟩ := List.mem_iff_getElem?.1 hp
    simp only [fitAt, List.getElem?_mapIdx, Nat.zero_add, Option.map_eq_some_iff] at hi
    obtain ⟨x, hx, rfl⟩ := hi
    rw [(h.fitShare_eq hx).2, decide_eq_true_iff]
    exact hall i x hx

/-- R74: a net demand of which some line takes a part. -/
theorem SharedOut.apportion_shared (hne : xs ≠ []) (hfit : dn = 0 ∨ ∃ i x, xs[i]? = some x ∧ x.fmin ≤ need i) :
    apportion dn held xs =
      { assigned := xs.mapIdx fun i x => (x.line, given i), undelivered := left xs.length, fireExcess := 0 } := by
  obtain ⟨hassigned, hleft⟩ := substitute_at held need share cap start left given xs 0 fun i x hx => by
    obtain ⟨-, hneed, hcap, hstart, hgiven, hnext⟩ := h.at_place i x hx
    rw [Nat.zero_add]
    exact ⟨hneed, hcap, hstart, hgiven, hnext⟩
  simp only [Nat.zero_add] at hassigned hleft
  have hnot : ¬ ((fitAt held share 0 xs).all (·.cut) && 0 < dn) = true := by
    rw [Bool.and_eq_true, h.allCut_iff, decide_eq_true_iff]
    rintro ⟨hall, hpos⟩
    obtain ⟨i, x, hx, hge⟩ := hfit.resolve_left hpos.ne'
    exact absurd (hall i x hx) (Nat.not_lt.2 hge)
  obtain ⟨x, rest, rfl⟩ := List.exists_cons_of_ne_nil hne
  rw [apportion]
  simp only [h.parts_eq, if_neg hnot, h.spill_eq, hassigned, hleft]

/-- R75: a net demand of which no line can take its part is fired at the first line's least feed. -/
theorem SharedOut.apportion_minimum {x : Share} {rest : List Share} (hxs : xs = x :: rest) (hpos : 0 < dn)
    (hcut : ∀ i y, xs[i]? = some y → need i < y.fmin) : apportion dn held xs =
      { assigned := (x.line, max ((x.fmin * x.cv + 3599) / 3600) (min dn (cap 0))) :: rest.map fun y => (y.line, 0)
        undelivered := dn - max ((x.fmin * x.cv + 3599) / 3600) (min dn (cap 0))
        fireExcess := max ((x.fmin * x.cv + 3599) / 3600) (min dn (cap 0)) - dn } := by
  have hall : ((fitAt held share 0 xs).all (·.cut) && 0 < dn) = true := by
    rw [Bool.and_eq_true, h.allCut_iff, decide_eq_true_iff]
    exact ⟨hcut, hpos⟩
  have hcap : x.cap held = cap 0 := (h.at_place 0 x (by rw [hxs]; rfl)).2.2.1.symm
  rw [← h.parts_eq] at hall
  subst hxs
  rw [← hcap, apportion]
  exact if_pos hall

end sharing

/-- Settles O44: the demand step by whether the demand rises; the balance by `apportion_spec`; the sharing by place. -/
theorem heatIsBalanced : Obligations.HeatIsBalanced := by
  unfold Obligations.HeatIsBalanced
  refine ⟨fun s b => ⟨fun e period he hst => ⟨_, State.demandStep_run he hst period,
      fun hfall => nextDemand_falls hfall _ _,
      fun hrise hfree => by rw [hfree]; exact nextDemand_rises hrise _,
      fun hrise hheld => by rw [hheld]; exact nextDemand_held hrise _⟩,
      fun hst period => ⟨State.demandStep_idle hst period, if_neg hst⟩, State.apportionBurner_balance⟩,
    fun s b => ⟨fun manual => State.manualHeat_eq, s.mem_eligibleSet_iff b, (s.eligibleSet_lines b).1,
      (sortShares_pairwise _).1⟩,
    fun dn held xs weights need share cap start left given hweights hplace hleft => ?_⟩
  have h : SharedOut dn held xs weights need share cap start left given := ⟨hplace, hweights, hleft⟩
  exact ⟨fun hnil => by rw [hnil]; rfl, h.apportion_shared,
    fun x rest a hxs hpos hcut ha => ha ▸ h.apportion_minimum hxs hpos hcut⟩

end Sys2Proof.Machine
end

section
/-!
PROOFS. Fuel lines: ramp, feed changes, refresh and the state of a line in service (R67, R77, R78, R80, R85).
-/
namespace Sys2Proof.Machine

/-! ### The ramp (R77) -/

theorem rampedFeed_settled (m : Metering) (period c : Nat) : rampedFeed m period c c = c := by
  unfold rampedFeed
  dsimp only
  split_ifs <;> omega

theorem rampedFeed_starts (m : Metering) (period : Nat) {target : Nat} (h : 0 < target) :
    rampedFeed m period 0 target = m.fmin := by
  simp only [rampedFeed, h, if_true]

theorem rampedFeed_rises (m : Metering) (period : Nat) {c target : Nat} (hc : 0 < c) (h : c < target) :
    rampedFeed m period c target = if m.ramp = 0 then target else min target (c + rampStep m.ramp period) :=
  (if_neg hc.ne').trans (if_pos h)

theorem rampedFeed_stops (m : Metering) (period : Nat) {c : Nat} (hc : 0 < c) : rampedFeed m period c 0 =
    if m.ramp ≠ 0 ∧ m.fmin ≤ c - rampStep m.ramp period then c - rampStep m.ramp period else 0 := by
  have hramp : rampedFeed m period c 0 = if m.ramp = 0 then 0 else
      if m.fmin ≤ c - rampStep m.ramp period then c - rampStep m.ramp period else 0 :=
    (if_neg hc.ne').trans ((if_neg (Nat.not_lt_zero c)).trans (if_pos rfl))
  by_cases h0 : m.ramp = 0 <;> simp [hramp, h0]

theorem rampedFeed_falls (m : Metering) (period : Nat) {c target : Nat} (ht : 0 < target) (h : target < c) :
    rampedFeed m period c target = if m.ramp = 0 then target else max target (c - rampStep m.ramp period) :=
  (if_neg (ht.trans h).ne').trans ((if_neg (Nat.not_lt.2 h.le)).trans (if_neg ht.ne'))

theorem nextFeed_eq (m : Metering) (period c target : Nat) (held : Bool) : nextFeed m period c target held =
    if held = true ∧ c < rampedFeed m period c target then c else rampedFeed m period c target :=
  if_congr (by rw [Bool.and_eq_true, decide_eq_true_iff]) rfl rfl

/-- R67, R78: a line whose feed is commanded, but for its state and its dose timer. -/
theorem State.fedLine_rest (s : State) (l : Fin 6) (c : Nat) :
    { s.fedLine l c with state := .out, dose := none } =
      { s.lines[l] with
        state := .out, deviation := (s.lines[l]).checkAfter (s.fedLine l c).state s.timeBase
        dose := none, feed := c, refresh := 0 } :=
  congrArg (fun x : Line => { x with refresh := 0, dose := none })
    (followLine_check s.burners s.timeBase { s.lines[l] with feed := c, dose := (s.lines[l]).doseFor c s.timeBase })

theorem State.fedLine_dose (s : State) (l : Fin 6) (c : Nat) :
    (s.fedLine l c).dose = (s.lines[l]).doseFor c s.timeBase :=
  (congrArg Line.dose (followLine_rest s.burners s.timeBase
    { s.lines[l] with feed := c, dose := (s.lines[l]).doseFor c s.timeBase }) :)

section line
variable {s : State} {l : Fin 6} {e : LineEntry} (he : s.lineEntry? l = some e)
include he

theorem State.rampLine_runs {m : Metering} (hm : e.kind.metering? = some m) (hmode : (s.lines[l]).mode = .auto)
    (hst : (s.burners[e.burner]).state = .run) (period : Nat) : s.rampLine period l = s.changeFeed l
      (nextFeed m period (s.lines[l]).feed (s.lines[l]).target (s.burners[e.burner]).hold.nonempty) := by
  simp only [State.rampLine, he, hm]
  exact if_pos ⟨hmode, hst⟩

theorem State.rampLine_rests (h : e.kind.isMetered = false ∨ (s.lines[l]).mode = .manual ∨
    (s.burners[e.burner]).state ≠ .run) (period : Nat) : s.rampLine period l = s := by
  cases hm : e.kind.metering? with
  | none => simp only [State.rampLine, he, hm]
  | some m =>
    simp only [State.rampLine, he, hm]
    refine if_neg fun ⟨hauto, hrun⟩ => ?_
    rcases h with h | h | h
    · rw [LineKind.isMetered, hm] at h; cases h
    · rw [h] at hauto; cases hauto
    · exact h hrun

/-! ### A change of feed (R67, R78, R80, R85) -/

/-- R80: the dose timer of a PIECE line that feeds keeps its start, or takes the present time. -/
theorem State.doseFor_piece {m : Metering} {mass gap : Nat} (hk : e.kind = .piece m mass gap) {c : Nat} (hc : c ≠ 0) :
    (s.lines[l]).doseFor c s.timeBase = some
      { start := match (s.lines[l]).dose with
          | some d => d.start
          | none => s.timeBase
        interval := max gap (mass * 3600000 / c) } := by
  rw [Line.doseFor, State.entry_of_lineEntry? he, Option.map_some, hk]
  refine (if_neg hc).trans ?_
  cases (s.lines[l]).dose <;> rfl

/-- R78: a feed that changes is commanded. -/
theorem State.changeFeed_spec {c : Nat} (h : (s.lines[l]).feed ≠ c) : ∃ w : State, s.changeFeed l c = w.submit (.line l)
      { station := e.station, kind := .feed, value := c, cls := .control, origin := .fuel } ∧
    { w.lines[l] with state := .out, dose := none } =
      { s.lines[l] with
        state := .out, deviation := (s.lines[l]).checkAfter (w.lines[l]).state s.timeBase
        dose := none, feed := c, refresh := 0 } ∧
    (∀ m mass gap, e.kind = .piece m mass gap → (c = 0 → (w.lines[l]).dose = none) ∧
      (c ≠ 0 → (w.lines[l]).dose =
        some
          { start := match (s.lines[l]).dose with
              | some d => d.start
              | none => s.timeBase
            interval := max gap (mass * 3600000 / c) })) ∧
    ((s.lines[l]).state = .out ∨ (s.lines[l]).state = .fault → (w.lines[l]).state = (s.lines[l]).state) ∧
    ((s.lines[l]).state ≠ .out → (s.lines[l]).state ≠ .fault → (w.lines[l]).state = w.ruledState l e) ∧
    (∀ l', l' ≠ l → w.lines[l'] = s.lines[l']) ∧ { w with lines := s.lines } = s := by
  have hchange : s.changeFeed l c = (s.setFeed l c).queueFeed l .control := if_neg h
  have hl (x : Line) : (s.lines.set l x)[l] = x := by rw [Fin.getElem_fin, Vector.getElem_set_self]
  refine ⟨_, hchange.trans (s.setFeed_queueFeed he c .control), ?_, fun m mass gap hk => ⟨fun hc => ?_, fun hc => ?_⟩,
    fun hs => ?_, fun hout hfault => ?_, fun l' hl' => ?_, rfl⟩
  · rw [hl]
    exact s.fedLine_rest l c
  · rw [hl, s.fedLine_dose, hc]
    exact (s.lines[l]).doseFor_zero s.timeBase
  · rw [hl, s.fedLine_dose]
    exact State.doseFor_piece he hk hc
  · rw [hl]
    exact (congrArg Line.state (followLine_standing s.burners s.timeBase
      { s.lines[l] with feed := c, dose := (s.lines[l]).doseFor c s.timeBase } hs) :)
  · rw [State.ruledState_eq, hl]
    exact (followLine_state s.burners s.timeBase
      { s.lines[l] with feed := c, dose := (s.lines[l]).doseFor c s.timeBase } e he hout hfault).trans
      (ruledOf_congr _ _ (followLine_feed _ _ _).symm (followLine_igniter _ _ _).symm)
  · exact Vector.getElem_set_ne l.isLt l'.isLt fun h => hl' (Fin.ext h.symm)

/-! ### Refresh (R78) -/

theorem State.refreshLine_rests (h : (s.lines[l]).state = .out ∨ (s.lines[l]).refresh < e.refresh) :
    s.refreshLine l = s := by
  simp only [State.refreshLine, he]
  exact if_neg fun ⟨hout, hge⟩ => h.elim hout fun hlt => absurd hge (Nat.not_le.2 hlt)

theorem State.refreshLine_due (hout : (s.lines[l]).state ≠ .out) (hge : e.refresh ≤ (s.lines[l]).refresh) :
    s.refreshLine l = State.submit { s with lines := s.lines.set l { s.lines[l] with refresh := 0 } } (.line l)
      { station := e.station
        kind := if e.kind.isMetered then .feed else .igniter
        value := if e.kind.isMetered then (s.lines[l]).feed else if (s.lines[l]).igniter then 1 else 0
        cls := .control, origin := .fuel } := by
  have hdue : s.refreshLine l = if e.kind.isMetered then s.queueFeed l .control else s.queueIgniter l .control := by
    simp only [State.refreshLine, he]
    exact if_pos ⟨hout, hge⟩
  rw [hdue]
  cases e.kind.isMetered
  · exact s.queueIgniter_lines l e he .control
  · exact s.queueFeed_lines l e he .control

end line

/-! ### The state of a line in service (R67) -/

theorem State.ruledState_held {s : State} {e : LineEntry} (hm : e.kind.isMetered = true)
    (hst : (s.burners[e.burner]).state = .run) (hheld : (s.burners[e.burner]).hold.nonempty = true) (l : Fin 6) :
    s.ruledState l e = .held := by
  rw [State.ruledState, hm, hst, hheld]
  rfl

theorem State.ruledState_metered {s : State} {e : LineEntry} (hm : e.kind.isMetered = true)
    (h : (s.burners[e.burner]).state ≠ .run ∨ (s.burners[e.burner]).hold.nonempty = false) (l : Fin 6) :
    s.ruledState l e = if 0 < (s.lines[l]).feed then .feeding else .ready := by
  have hfree : (((s.burners[e.burner]).state == .run) && (s.burners[e.burner]).hold.nonempty) = false := by
    rw [Bool.and_eq_false_iff, beq_eq_false_iff_ne]
    exact h
  simp only [State.ruledState, hm, Bool.true_and, hfree, Bool.false_eq_true, if_false, decide_eq_true_eq, Bool.not_true,
    Bool.false_and]

theorem State.ruledState_ignition {s : State} {e : LineEntry} (hm : e.kind.isMetered = false) (l : Fin 6) :
    s.ruledState l e = if (s.lines[l]).igniter = true then .feeding else .ready := by
  simp only [State.ruledState, hm, Bool.false_and, Bool.false_eq_true, if_false, Bool.not_false, Bool.true_and]

/-- Settles O45: the ramp by where the feed stands to its target; a change of feed by the line it leaves; the refresh
and the state by their conditions. -/
theorem feedsFollowTargets : Obligations.FeedsFollowTargets := by
  unfold Obligations.FeedsFollowTargets
  intro s l e he
  refine ⟨fun m period hm hmode hst => ⟨rampedFeed m period (s.lines[l]).feed (s.lines[l]).target, ?ramp,
      fun h => ?settled,
      fun h ht => ?starts, fun hc h => rampedFeed_rises m period hc h, fun hc h => ?stops,
      fun ht h => rampedFeed_falls m period ht h⟩,
    State.rampLine_rests he, fun c => ⟨fun h => if_pos h, State.changeFeed_spec he⟩, State.refreshLine_rests he,
    State.refreshLine_due he, fun hm hst hheld => State.ruledState_held hm hst hheld l,
    fun hm h => State.ruledState_metered hm h l, fun hm => State.ruledState_ignition hm l⟩
  case ramp => rw [State.rampLine_runs he hm hmode hst, nextFeed_eq]
  case settled => rw [← h, rampedFeed_settled]
  case starts => rw [h, rampedFeed_starts m period ht]
  case stops => rw [h]; exact rampedFeed_stops m period hc

end Sys2Proof.Machine
end

section
/-!
PROOFS. Fuel lines: faults, the dose and deviation timers, and the requests of a line (R68, R69, R81, R83, R85, R86).
-/
namespace Sys2Proof.Machine

/-! ### Faults (R83) -/

/-- R83: a metered line that faults. -/
def Line.faultedFeed (x : Line) (c : FaultCause) : Line :=
  { x with state := .fault, faultCause := some c, feed := 0, dose := none, deviation := {}, refresh := 0 }

/-- R83: an ignition line that faults. -/
def Line.faultedIgniter (x : Line) (c : FaultCause) : Line :=
  { x with state := .fault, faultCause := some c, igniter := false, deviation := {}, refresh := 0 }

/-- R85: a line in FAULT has no deviation check. -/
theorem Line.deviationIn_fault (x : Line) (now : Time) : x.deviationIn .fault now = {} := rfl

section fault
variable {s : State} {l : Fin 6} {e : LineEntry} (he : s.lineEntry? l = some e) (hout : (s.lines[l]).state ≠ .out)
  (hfault : (s.lines[l]).state ≠ .fault)
include he hout hfault

/-- R67: a line in service that follows its burner is not in FAULT. -/
theorem followLine_ne_fault (bs : Vector Burner 3) (now : Time) {x : Line} (hentry : x.entry = (s.lines[l]).entry)
    (hstate : x.state = (s.lines[l]).state) : (followLine bs now x).state ≠ .fault := by
  have hx : x.entry.filter (·.inUse) = some e := by rw [hentry]; exact he
  rw [followLine_state bs now x e hx (by rwa [hstate]) (by rwa [hstate])]
  exact fun h => ruledOf_service _ _ _ (.inr h)

/-- R83: the feed of a faulting line goes to 0 and its FEED is queued. -/
theorem State.fault_feed (c : FaultCause) (cls : CommandClass) :
    ((((s.modLine l fun x => { x with faultCause := some c }).setFeed l 0).setLineState l .fault).queueFeed l cls) =
      ({ s with lines := s.lines.set l ((s.lines[l]).faultedFeed c) } : State).submit (.line l)
        { station := e.station, kind := .feed, value := 0, cls := cls, origin := .fuel } := by
  have hdose : ({ s.lines[l] with faultCause := some c } : Line).doseFor 0 s.timeBase = none := Line.doseFor_zero _ _
  have hset : (s.modLine l fun x => { x with faultCause := some c }).setFeed l 0 =
      { s with lines := s.lines.set l (followLine s.burners s.timeBase
        { s.lines[l] with faultCause := some c, feed := 0, dose := none }) } := by
    rw [State.setFeed, State.refreshLineState_eq, ← hdose]
    simp only [State.modLine, Fin.getElem_fin, Vector.getElem_set_self, Vector.set_set]
  have hstate : (((s.modLine l fun x => { x with faultCause := some c }).setFeed l 0).setLineState l .fault) =
      { s with lines := s.lines.set l { (s.lines[l]).faultedFeed c with refresh := (s.lines[l]).refresh } } := by
    have hne := followLine_ne_fault he hout hfault s.burners s.timeBase
      (x := { s.lines[l] with faultCause := some c, feed := 0, dose := none }) rfl rfl
    have hrest := followLine_rest s.burners s.timeBase { s.lines[l] with faultCause := some c, feed := 0, dose := none }
    rw [hset, State.setLineState, if_neg (by simpa only [Fin.getElem_fin, Vector.getElem_set_self] using hne),
        State.modLine_set]
    exact congrArg (fun x : Line => ({ s with lines := s.lines.set l { x with state := .fault } } : State)) hrest
  have he' : (((s.modLine l fun x => { x with faultCause := some c }).setFeed l 0).setLineState l .fault).lineEntry?
      l = some e := by
    rw [hstate, ← he]
    simp only [State.lineEntry?, Fin.getElem_fin, Vector.getElem_set_self, Line.faultedFeed]
  rw [State.queueFeed_lines _ l e he', hstate, State.modLine_set]
  simp only [Fin.getElem_fin, Vector.getElem_set_self, Line.faultedFeed]

omit hout in
/-- R83: the igniter of a faulting line goes off and its IGNITER is queued. -/
theorem State.fault_igniter (c : FaultCause) (cls : CommandClass) :
    (((((s.modLine l fun x => { x with faultCause := some c }).modLine l
    fun x => { x with igniter := false }).setLineState l
        .fault)).queueIgniter l cls) =
      ({ s with lines := s.lines.set l ((s.lines[l]).faultedIgniter c) } : State).submit (.line l)
        { station := e.station, kind := .igniter, value := 0, cls := cls, origin := .fuel } := by
  have hstate : (((s.modLine l fun x => { x with faultCause := some c }).modLine l fun x =>
      { x with igniter := false }).setLineState l .fault) =
      { s with lines := s.lines.set l { (s.lines[l]).faultedIgniter c with refresh := (s.lines[l]).refresh } } := by
    have hset : (s.modLine l fun x => { x with faultCause := some c }).modLine l
        (fun x => { x with igniter := false }) =
        { s with lines := s.lines.set l { s.lines[l] with faultCause := some c, igniter := false } } :=
      s.modLine_set l _ _
    rw [hset, State.setLineState, if_neg (by simpa only [Fin.getElem_fin, Vector.getElem_set_self] using hfault),
      State.modLine_set]
    rfl
  have he' : (((s.modLine l fun x => { x with faultCause := some c }).modLine l fun x =>
      { x with igniter := false }).setLineState l .fault).lineEntry? l = some e := by
    rw [hstate, ← he]
    simp only [State.lineEntry?, Fin.getElem_fin, Vector.getElem_set_self, Line.faultedIgniter]
  rw [State.queueIgniter_lines _ l e he', hstate, State.modLine_set]
  simp only [Fin.getElem_fin, Vector.getElem_set_self, Line.faultedIgniter, Bool.false_eq_true, if_false]

/-- R83: a line that faults, before what its fault does to its burner. -/
def State.lineFaulted (s : State) (l : Fin 6) (e : LineEntry) (c : FaultCause) : State :=
  if e.kind.isMetered then
    ({ s with lines := s.lines.set l ((s.lines[l]).faultedFeed c) } : State).submit (.line l)
      { station := e.station, kind := .feed, value := 0, cls := if s.isLightoffLine e l then .trip else .control
        origin := .fuel }
  else
    ({ s with lines := s.lines.set l ((s.lines[l]).faultedIgniter c) } : State).submit (.line l)
      { station := e.station, kind := .igniter, value := 0, cls := .control, origin := .fuel }

theorem State.faultLine_enters (c : FaultCause) : s.faultLine l c =
    if s.isLightoffLine e l then (s.lineFaulted l e c).enterLockout e.burner .lineFault { line := some l }
    else s.lineFaulted l e c := by
  have hin : ¬ ((s.lines[l]).state = .out ∨ (s.lines[l]).state = .fault) := not_or.2 ⟨hout, hfault⟩
  unfold State.faultLine
  rw [he]
  simp only [hin, if_false]
  rw [State.fault_feed he hout hfault, State.fault_igniter he hfault]
  rfl

end fault

theorem State.isLightoffLine_iff (s : State) (e : LineEntry) (l : Fin 6) : s.isLightoffLine e l = true ↔
    (s.burners[e.burner]).state = .lightoff ∧ (s.burners[e.burner]).lightoffLine = some l := by
  rw [State.isLightoffLine, Bool.and_eq_true, beq_iff_eq, beq_iff_eq]

/-! ### Timers (R81, R85) -/

theorem State.doseExpiry_runs {s : State} {l : Fin 6} {e : LineEntry} {d : DoseTimer} (he : s.lineEntry? l = some e)
    (h : (s.lines[l]).dose = some d) : s.doseExpiry l =
      ((s.advance (d.start + d.interval)).modLine l fun x =>
        { x with dose := some { d with start := (s.advance (d.start + d.interval)).timeBase } }).submit (.line l)
        { station := e.station, kind := .dose, value := 1, cls := .control, origin := .fuel } := by
  rw [State.doseExpiry, h, he]

/-- R85: the deviation of a window is the distance of what was expected and what was delivered. -/
theorem Deviation.difference_eq (d : Deviation) : (d.difference : Int) = |(d.expected : Int) - d.delivered| := by
  rw [Deviation.difference]
  rcases le_total d.delivered d.expected with h | h
  · rw [abs_of_nonneg (by omega)]
    omega
  · rw [abs_of_nonpos (by omega)]
    omega

theorem Deviation.failed_iff (d : Deviation) (tolerance : Nat) : d.failed tolerance = true ↔
    0 < d.expected ∧ (tolerance : Int) * d.expected < |(d.expected : Int) - d.delivered| * 100 := by
  rw [Deviation.failed, Bool.and_eq_true, decide_eq_true_iff, decide_eq_true_iff, ← d.difference_eq]
  exact and_congr_right fun _ => by exact_mod_cast Iff.rfl

/-- R85: a second of the deviation check, and the end of its window. -/
theorem State.deviationExpiry_runs {s : State} {l : Fin 6} {e : LineEntry} {m : Metering} {tolerance window : Nat}
    {t : Time}
    (he : s.lineEntry? l = some e) (hk : e.kind = .continuous m tolerance window)
    (h : (s.lines[l]).deviation.timer = some t) {w : State} (hw : w = s.advance t) {d : Deviation}
    (hd : d = (s.lines[l]).deviation.second (s.lines[l]).feed w.timeBase) : s.deviationExpiry l =
      if window ≤ d.seconds then
        if d.failed tolerance then (w.modLine l fun x => { x with deviation := d }).faultLine l .deviation
        else (w.modLine l fun x => { x with deviation := d }).modLine l fun x =>
        { x with deviation := { timer := d.timer } }
      else w.modLine l fun x => { x with deviation := d } := by
  subst hd hw
  have hkind : (s.lineEntry? l).map LineEntry.kind = some (.continuous m tolerance window) := by
    rw [he, Option.map_some, hk]
  rw [State.deviationExpiry, h, hkind]
  rfl

/-- Settles O46: a fault by what the line is and whether it is its burner's light-off line; a dose; a second of the
deviation check by where the window stands. -/
theorem lineFaultsAndTimers : Obligations.LineFaultsAndTimers := by
  unfold Obligations.LineFaultsAndTimers
  refine ⟨fun s l e c he => ⟨fun hs => ?kept, fun hout hfault => ?faults⟩,
    fun s w l e t he hw => ⟨fun d hd ht => ?dose, fun m tolerance window d hk htimer hd => ?deviation⟩⟩
  case kept =>
    unfold State.faultLine
    rw [he]
    exact if_pos hs
  case faults =>
    refine ⟨s.lineFaulted l e c, fun hm => ?_, fun hm => ?_, fun hst hline => ?_, fun hnot => ?_⟩
    · rw [State.lineFaulted, if_pos hm]
      simp only [s.isLightoffLine_iff]
      rfl
    · rw [State.lineFaulted, if_neg (Bool.eq_false_iff.1 hm)]
      rfl
    · rw [State.faultLine_enters he hout hfault, if_pos ((s.isLightoffLine_iff e l).2 ⟨hst, hline⟩)]
      exact State.enterLockout_lockedOut _ _ _ _
    · rw [State.faultLine_enters he hout hfault, if_neg]
      rw [s.isLightoffLine_iff]
      exact not_and_or.2 hnot
  case dose =>
    subst ht hw
    exact congrArg (fun u => State.conclude (State.finish u)) (State.doseExpiry_runs he hd)
  case deviation =>
    have hexpiry := State.deviationExpiry_runs he hk htimer (w := w) hw (d := d) hd
    have hexec {u : State} (hu : s.deviationExpiry l = u) :
        Machine.exec (.deviationTimerExpiry l) s = .next u.finish.driveLines :=
      congrArg (fun u => State.conclude (State.finish u)) hu
    have hlines : w.lines = s.lines := by rw [hw]
    rw [← hlines]
    refine ⟨fun hrun => hexec (hexpiry.trans (if_neg (Nat.not_le.2 hrun))), fun hend hpos hfail => ?_,
        fun hend hpass => ?_⟩
    · exact hexec (hexpiry.trans ((if_pos hend).trans (if_pos ((d.failed_iff tolerance).2 ⟨hpos, hfail⟩))))
    · have hpass : ¬ d.failed tolerance = true := by
        rw [d.failed_iff]
        exact fun ⟨hpos, hfail⟩ => hpass.elim hpos.ne' fun hle => absurd hfail (Int.not_lt.2 hle)
      exact hexec (hexpiry.trans ((if_pos hend).trans ((if_neg hpass).trans (w.modLine_set l _ _))))

/-! ### LINE_SERVICE, LINE_MODE and LINE_RESET (R68, R69, R86) -/

/-- R84: the fault bit of a line. -/
theorem State.faultBitSet_iff (s : State) (e : LineEntry) : s.faultBitSet e = true ↔
    (∃ p, s.pointEntry? e.flagPoint = some p ∧ p.kind = .flags16) ∧
      (s.pointQuality e.flagPoint = .good ∨ s.pointQuality e.flagPoint = .forced) ∧
      (s.points[e.flagPoint]).value.toNat.testBit e.flagBit = true := by
  simp only [State.faultBitSet, State.flagsReadable, Bool.and_eq_true, Option.any_eq_true, beq_iff_eq,
      Quality.readable_iff,
    Nat.testBit_eq_decide_div_mod_eq, decide_eq_true_iff, and_assoc]

/-- R67, R85: a line out of service that takes the state it is ruled to. -/
def State.ruledLine (s : State) (l : Fin 6) (e : LineEntry) (x : Line) : Line :=
  { x with
    state := s.ruledState l e
    deviation := if s.ruledState l e = .feeding ∧ e.kind.isContinuous = true then { timer := some (s.timeBase + 1000) }
    else {} }

theorem State.setLineState_ruled {s t : State} {l : Fin 6} {e : LineEntry} {x : Line}
    (ht : t = { s with lines := s.lines.set l x })
    (hentry : x.entry = some e) (hstate : x.state = .out ∨ x.state = .fault) :
    t.setLineState l (s.ruledState l e) = { s with lines := s.lines.set l (s.ruledLine l e x) } := by
  have hne : ¬ (t.lines[l]).state = s.ruledState l e := by
    rw [ht, Fin.getElem_fin, Vector.getElem_set_self, State.ruledState_eq]
    intro h
    rw [h] at hstate
    exact ruledOf_service _ _ _ hstate
  have hcheck : x.deviationIn (s.ruledState l e) s.timeBase =
      if s.ruledState l e = .feeding ∧ e.kind.isContinuous = true then { timer := some (s.timeBase + 1000) } else {} :=
    if_congr (by rw [Bool.and_eq_true, beq_iff_eq, hentry, Option.any_some]) rfl rfl
  rw [State.setLineState, if_neg hne, ht, State.modLine_set, hcheck]
  rfl

section requests
variable {s : State} {l : Fin 6} {args : List Byte} {is : List Item} (hl : intOf is 1 = some (l.val + 1 : Int))
include hl

theorem withLine_some {e : LineEntry} (he : s.lineEntry? l = some e) (f : Fin 6 → LineEntry → State × Answer) :
    withLine s is f = f l e := by
  rw [withLine, withObject_one l hl, he]

theorem withLine_none (he : s.lineEntry? l = none) (f : Fin 6 → LineEntry → State × Answer) :
    withLine s is f = (s, { result := .notConfigured }) := by
  rw [withLine, withObject_one l hl, he]
  rfl

variable {e : LineEntry} (he : s.lineEntry? l = some e) {u : State} {a : Answer}
include he

theorem handleLineService_in (hread : readArgs [intArg, enumArg 2] args = some is) (hin : enumOf is 2 = some 0)
    (h : s.popRequest.serviceIn l e = (u, a)) (n : Byte) : handleLineService s.popRequest n args = (u, some a) :=
  answering_eq hread (by rw [withLine_some hl (s := s.popRequest) he, hin]; exact h) n

theorem handleLineService_out (hread : readArgs [intArg, enumArg 2] args = some is) (hout : enumOf is 2 = some 1)
    (h : s.popRequest.serviceOut l = (u, a)) (n : Byte) : handleLineService s.popRequest n args = (u, some a) :=
  answering_eq hread (by rw [withLine_some hl (s := s.popRequest) he, hout]; exact h) n

theorem handleLineMode_eq (hread : readArgs [intArg, enumArg 2] args = some is) {m : Mode}
    (hm : enumOf is 2 = some 0 ∧ m = .auto ∨ enumOf is 2 = some 1 ∧ m = .manual)
    (h : (if !e.kind.isMetered then refuse s.popRequest .invalid
      else if s.popRequest.isLightoffLine e l then refuse s.popRequest .notPermitted
      else (s.popRequest.modLine l fun x => { x with mode := m }, Answer.ok)) = (u, a)) (n : Byte) :
    handleLineMode s.popRequest n args = (u, some a) := by
  have hname : needName is 2 modes = some m := by
    rcases hm with ⟨hm, rfl⟩ | ⟨hm, rfl⟩ <;> rw [needName, hm] <;> rfl
  exact answering_eq hread (by rw [withLine_some hl (s := s.popRequest) he, hname]; exact h) n

theorem handleLineReset_eq (hread : readArgs [intArg] args = some is)
    (h : (if (s.lines[l]).state ≠ .fault then (s.popRequest, Answer.check .notPermitted .state)
      else if !(s.floor.stationAt e.station).present then (s.popRequest, Answer.check .notPermitted .presence)
      else if !s.flagsReadable e.flagPoint || s.faultBitSet e then (s.popRequest, Answer.check .notPermitted .faultBit)
      else (s.popRequest.resetLine l e, Answer.ok)) = (u, a)) (n : Byte) :
    handleLineReset s.popRequest n args = (u, some a) :=
  answering_eq hread (by rw [withLine_some hl (s := s.popRequest) he]; exact h) n

/-- R68: a line is brought into service. -/
theorem exec_lineService_in {number : Byte} (h : s.offers 0x10#8 number args)
    (hread : readArgs [intArg, enumArg 2] args = some is) (hin : enumOf is 2 = some 0) :
    ((s.lines[l]).state ≠ .out → Machine.exec .lineService s =
      .next (s.popRequest.answered number 0x10#8 (Answer.check .notPermitted .state))) ∧
    ((s.lines[l]).state = .out → s.faultBitSet e = true → Machine.exec .lineService s =
      .next (s.popRequest.answered number 0x10#8 (Answer.check .notPermitted .faultBit))) ∧
    ((s.lines[l]).state = .out → s.faultBitSet e = false → ∃ st : FuelState, st = s.ruledState l e ∧
      Machine.exec .lineService s = .next (State.answered
        { s.popRequest with
          lines := s.lines.set l
            { s.lines[l] with
              state := st, refresh := 0
              deviation := if st = .feeding ∧ e.kind.isContinuous = true then
                  { timer := some (s.timeBase + 1000) } else {} } } number 0x10#8 Answer.ok)) := by
  refine ⟨fun hst => ?_, fun hst hbit => ?_, fun hst hbit => ⟨_, rfl, ?_⟩⟩
  · exact h.exec_of_handler rfl (handleLineService_in hl he hread hin (if_pos hst) number)
  · exact h.exec_of_handler rfl (handleLineService_in hl he hread hin ((if_neg (not_not.2 hst)).trans (if_pos hbit))
      number)
  · refine h.exec_of_handler rfl (handleLineService_in hl he hread hin
      ((if_neg (not_not.2 hst)).trans ((if_neg (Bool.eq_false_iff.1 hbit)).trans (congrArg (·, Answer.ok) ?_))) number)
    exact State.setLineState_ruled (s := s.popRequest) rfl (State.entry_of_lineEntry? he) (.inl hst)

/-- R68: a line is taken out of service. -/
theorem exec_lineService_out {number : Byte} (h : s.offers 0x10#8 number args)
    (hread : readArgs [intArg, enumArg 2] args = some is) (hout : enumOf is 2 = some 1) :
    ((s.lines[l]).feed = 0 → (s.lines[l]).igniter = false → Machine.exec .lineService s =
      .next (State.answered (State.finish
        { s.popRequest with
          lines := s.lines.set l
            { s.lines[l] with state := .out, dose := none, deviation := {}, faultCause := none } })
        number 0x10#8 Answer.ok)) ∧
    ((s.lines[l]).feed ≠ 0 ∨ (s.lines[l]).igniter = true → Machine.exec .lineService s =
      .next (s.popRequest.answered number 0x10#8 (Answer.check .notPermitted .feeding))) := by
  refine ⟨fun hfeed hoff => ?_, fun hon => ?_⟩
  · exact h.exec_of_handler rfl (handleLineService_out hl he hread hout (if_pos ⟨hfeed, hoff⟩) number)
  · refine h.exec_of_handler rfl (handleLineService_out hl he hread hout (if_neg fun ⟨hfeed, hoff⟩ => ?_) number)
    exact hon.elim (· hfeed) fun h => absurd h (Bool.eq_false_iff.1 hoff)

/-- R69: a metered line that is not its burner's light-off line takes a mode. -/
theorem exec_lineMode {number : Byte} (h : s.offers 0x11#8 number args)
    (hread : readArgs [intArg, enumArg 2] args = some is) {m : Mode}
    (hm : enumOf is 2 = some 0 ∧ m = .auto ∨ enumOf is 2 = some 1 ∧ m = .manual) :
    (e.kind.isMetered = false → Machine.exec .lineMode s =
      .next (s.popRequest.answered number 0x11#8 { result := .invalid })) ∧
    (e.kind.isMetered = true → (s.burners[e.burner]).state = .lightoff → (s.burners[e.burner]).lightoffLine = some l →
      Machine.exec .lineMode s = .next (s.popRequest.answered number 0x11#8 { result := .notPermitted })) ∧
    (e.kind.isMetered = true → ((s.burners[e.burner]).state ≠ .lightoff ∨ (s.burners[e.burner]).lightoffLine ≠ some l) →
      Machine.exec .lineMode s = .next (State.answered
        { s.popRequest with lines := s.lines.set l { s.lines[l] with mode := m } } number 0x11#8 Answer.ok)) := by
  have hlit := s.isLightoffLine_iff e l
  have hmetered (hk : e.kind.isMetered = true) : ¬ (!e.kind.isMetered) = true := by rw [hk]; nofun
  refine ⟨fun hk => ?_, fun hk hst hline => ?_, fun hk hnot => ?_⟩
  · exact h.exec_of_handler rfl (handleLineMode_eq hl he hread hm (if_pos (by rw [hk]; rfl)) number)
  · exact h.exec_of_handler rfl (handleLineMode_eq hl he hread hm
      ((if_neg (hmetered hk)).trans (if_pos (hlit.2 ⟨hst, hline⟩))) number)
  · exact h.exec_of_handler rfl (handleLineMode_eq hl he hread hm
      ((if_neg (hmetered hk)).trans (if_neg (mt hlit.1 (not_and_or.2 hnot)))) number)

/-- R86: a line in FAULT whose station is present and whose fault bit is read as clear is reset. -/
theorem exec_lineReset {number : Byte} (h : s.offers 0x12#8 number args) (hread : readArgs [intArg] args = some is) :
    ((s.lines[l]).state ≠ .fault → Machine.exec .lineReset s =
      .next (s.popRequest.answered number 0x12#8 (Answer.check .notPermitted .state))) ∧
    ((s.lines[l]).state = .fault → (s.floor.stationAt e.station).present = false → Machine.exec .lineReset s =
      .next (s.popRequest.answered number 0x12#8 (Answer.check .notPermitted .presence))) ∧
    ((s.lines[l]).state = .fault → (s.floor.stationAt e.station).present = true →
      ((s.flagsReadable e.flagPoint = false ∨ s.faultBitSet e = true) → Machine.exec .lineReset s =
        .next (s.popRequest.answered number 0x12#8 (Answer.check .notPermitted .faultBit))) ∧
      (s.flagsReadable e.flagPoint = true → s.faultBitSet e = false → ∃ st : FuelState, st = s.ruledState l e ∧
        Machine.exec .lineReset s = .next (State.answered (State.finish
          { s.popRequest with
            lines := s.lines.set l
              { s.lines[l] with
                state := st, faultCause := none
                deviation := if st = .feeding ∧ e.kind.isContinuous = true then
                    { timer := some (s.timeBase + 1000) } else {} } }) number 0x12#8 Answer.ok))) := by
  refine ⟨fun hst => ?_, fun hst hgone => ?_, fun hst hthere => ⟨fun hbit => ?_, fun hread' hbit => ⟨_, rfl, ?_⟩⟩⟩
  · exact h.exec_of_handler rfl (handleLineReset_eq hl he hread (if_pos hst) number)
  · exact h.exec_of_handler rfl (handleLineReset_eq hl he hread
      ((if_neg (not_not.2 hst)).trans (if_pos (by rw [hgone]; rfl))) number)
  · exact h.exec_of_handler rfl (handleLineReset_eq hl he hread ((if_neg (not_not.2 hst)).trans
      ((if_neg (by rw [hthere]; nofun)).trans (if_pos (by rwa [Bool.or_eq_true, Bool.not_eq_true'])))) number)
  · have hclear : ¬ (!s.flagsReadable e.flagPoint || s.faultBitSet e) = true := by rw [hread', hbit]; nofun
    refine h.exec_of_handler rfl (handleLineReset_eq hl he hread ((if_neg (not_not.2 hst)).trans
      ((if_neg (by rw [hthere]; nofun)).trans ((if_neg hclear).trans (congrArg (·, Answer.ok) ?_)))) number)
    exact congrArg State.finish
      (State.setLineState_ruled (s := s.popRequest) rfl (State.entry_of_lineEntry? he) (.inr hst))

end requests

/-- Settles O47: the requests of a line by the checks of R68, R69 and R86 in their order. -/
theorem lineServiceModeReset : Obligations.LineServiceModeReset := by
  unfold Obligations.LineServiceModeReset
  intro s number args is l refusal hl hrefusal
  simp only [hrefusal]
  refine ⟨s.faultBitSet_iff, fun h hread => ⟨fun he => ?serviceUnused, fun e he => ⟨exec_lineService_in hl he h hread,
      exec_lineService_out hl he h hread⟩⟩,
    fun h hread => ⟨fun he => ?modeUnused, fun e m he hm => exec_lineMode hl he h hread hm⟩,
    fun h hread => ⟨fun he => ?resetUnused, fun e he => exec_lineReset hl he h hread⟩⟩
  case serviceUnused =>
    exact h.exec_of_handler rfl (answering_eq hread (withLine_none hl (s := s.popRequest) he _) number)
  case modeUnused => exact h.exec_of_handler rfl (answering_eq hread (withLine_none hl (s := s.popRequest) he _) number)
  case resetUnused =>
    exact h.exec_of_handler rfl (answering_eq hread (withLine_none hl (s := s.popRequest) he _) number)

end Sys2Proof.Machine
end

section
/-!
PROOFS. The cooler states, and what the runs and the compartments make of them (R91 to R96).
-/
namespace Sys2Proof.Machine

/-! ### The passes of a cooler state (R91) -/

/-- R91: a change of the cooler state ends the wait of R92. -/
theorem State.modCooler_lawHeld {s : State} {v : Bool} (h : s.cooler.lawHeld = v) :
    s.modCooler (fun c => { c with lawHeld := v }) = s := by
  subst h
  rfl

section entering
variable {s s' t : State} {st : CoolerState} {timer : Option Time}

theorem State.entering_held {held : Bool}
    (ht : t = (s'.setCoolerState st).modCooler fun c => { c with lawHeld := held })
    (h : s' = s.modCooler fun c => { c with startTimer := timer }) :
    s.Entering t st timer held ∧ t.cooler.runs = s.cooler.runs ∧
      ∀ g, givenBy (.run g) t.queue.submitted = givenBy (.run g) s.queue.submitted := by
  obtain ⟨hentering, hruns, hgiven⟩ := s.entering_set s' st timer held h
  generalize s'.setCoolerState st = told at ht hentering hruns hgiven
  rw [ht]
  exact ⟨hentering, hruns, hgiven⟩

theorem State.entering_setCoolerState (ht : t = s'.setCoolerState st)
    (h : s' = s.modCooler fun c => { c with startTimer := timer }) :
    s.Entering t st timer false ∧ t.cooler.runs = s.cooler.runs ∧
      ∀ g, givenBy (.run g) t.queue.submitted = givenBy (.run g) s.queue.submitted := by
  have hheld : (s'.setCoolerState st).cooler.lawHeld = false := congrArg Cooler.lawHeld (s'.setCoolerState_cooler st)
  exact State.entering_held (ht.trans (State.modCooler_lawHeld hheld).symm) h

/-- What becomes of the runs and their accounts (R95) leaves the entry to the state as it was. -/
theorem State.Entering.withPairs {held : Bool} (h : s.Entering t st timer held) (v : Vector (Run × RunAccount) 4)
    (ho : (t.withPairs v).outer = t.outer) : s.Entering (t.withPairs v) st timer held := by
  refine ⟨?_, h.queue, h.fans, h.holds, h.told.congr rfl rfl rfl fun _ => rfl, h.alarm, ho.trans h.outer⟩
  show { t.cooler with runs := v.map Prod.fst } =
    { s.cooler with state := st, startTimer := timer, lawHeld := held, runs := v.map Prod.fst }
  rw [h.cooler]

end entering

section runs
variable {s u : State} {g : Fin 4} {e : RunEntry}

theorem Run.passed_of_none (f : RunEntry → Run → Run × List Proposal) (h : s.runEntry? g = none) :
    (s.cooler.runs[g]).passed f = (s.cooler.runs[g], []) := by
  have h : (s.cooler.runs[g]).entry.filter (·.inUse) = none := h
  rw [Run.passed, h]

theorem Run.passed_of_some (f : RunEntry → Run → Run × List Proposal) (h : s.runEntry? g = some e) :
    (s.cooler.runs[g]).passed f = f e s.cooler.runs[g] := by
  have h : (s.cooler.runs[g]).entry.filter (·.inUse) = some e := h
  rw [Run.passed, h]

/-- What a pass makes of run `g`: the run, and the commands it hands to the queue. -/
def State.RunBecame (s u : State) (g : Fin 4) (x : Run × List Proposal) : Prop :=
  u.cooler.runs[g] = x.1 ∧ givenBy (.run g) u.queue.submitted = givenBy (.run g) s.queue.submitted ++ x.2

theorem State.RunBecame.left (h : s.RunBecame u g (s.cooler.runs[g], [])) : s.RunLeft u g :=
  ⟨h.1, h.2.trans (List.append_nil _)⟩

/-- R93, R94, R97: a run that is not IDLE takes a rate. -/
theorem State.RunBecame.rated {rate : Nat} (hidle : (s.cooler.runs[g]).state ≠ .idle)
    (h : s.RunBecame u g ((s.cooler.runs[g]).rated e rate)) : s.RunRated u g e rate := by
  unfold State.RunRated
  by_cases hsame : (s.cooler.runs[g]).rate = rate
  · rw [Run.rated, if_pos hsame] at h
    rw [if_pos hsame]
    exact h.left
  · rw [Run.rated, if_neg hsame, if_neg hidle] at h
    rw [if_neg hsame]
    exact h

end runs

/-! ### STARTING and RUNNING (R91, R92) -/

/-- R91: the cooler enters STARTING. -/
theorem State.coolerStarts_spec (s : State) :
    s.CoolerEntered s.coolerStarts .starting (some (s.timeBase + 30000)) false true ∧
    ∀ g : Fin 4, s.RunLeft s.coolerStarts g := by
  obtain ⟨t, ht⟩ : ∃ t, t = (s.modCooler fun c => { c with startTimer := some (s.timeBase + 30000) }).setCoolerState
      .starting := ⟨_, rfl⟩
  have hstarts : s.coolerStarts = t.applyFans true := ht ▸ rfl
  obtain ⟨hentering, hruns, hgiven⟩ := State.entering_setCoolerState ht rfl
  rw [hstarts]
  obtain ⟨hentered, hruns', hgiven'⟩ := hentering.applyFans true
  exact ⟨hentered, fun g => ⟨congrArg (·[g]) (hruns'.trans hruns), (hgiven' g).trans (hgiven g)⟩⟩

/-- R92: what the end of a start makes of a run. -/
def Run.started (now : Time) (rate : RunEntry → Run → Nat) (e : RunEntry) (r : Run) : Run × List Proposal :=
  ({ r.stroking (rate e r) now with refresh := 0 }, [rateCommand e (rate e r)])

/-- R92: the rate at which a run starts. -/
def startRate (e : RunEntry) (r : Run) : Nat := if r.mode = .manual then r.manualRate else e.minRate

theorem State.startStroking_withRuns (t : State) (rate : RunEntry → Run → Nat) (v : Vector Run 4) (l : List Submission)
    (g : Fin 4) (e : RunEntry) (h : (t.withRuns v l).runEntry? g = some e) :
    (t.withRuns v l).startStroking g (rate e v[g]) =
      t.withRuns (v.set g (Run.started t.timeBase rate e v[g]).1)
        (l ++ fromRun g (Run.started t.timeBase rate e v[g]).2) :=
  (t.withRuns v l).startStroking_eq g e h _

theorem State.coolerRuns_spec (s : State) : s.CoolerEntered s.coolerRuns .running none true false ∧
    ∀ g : Fin 4, s.RunBecame s.coolerRuns g ((s.cooler.runs[g]).passed (Run.started s.timeBase startRate)) := by
  obtain ⟨t, ht⟩ : ∃ t, t = ((s.modCooler fun c => { c with startTimer := none }).setCoolerState .running).modCooler
      fun c => { c with lawHeld := true } := ⟨_, rfl⟩
  obtain ⟨hentering, hruns, hgiven⟩ := State.entering_held ht rfl
  have hnow := congrArg State.timeBase hentering.outer
  exact hentering.pass hruns hgiven (fun s g e => s.startStroking g (startRate e (s.runAt g)))
    (Run.started s.timeBase startRate) (fun _ _ => rfl)
    (fun v l g e he => hnow ▸ State.startStroking_withRuns _ startRate v l g e he) false s.coolerRuns (ht ▸ rfl)

/-- R92: the end of the start. -/
theorem State.startExpiry_spec {s : State} {t : Time} (ht : s.cooler.startTimer = some t) :
    State.CoolerEntered { s with timeBase := max s.timeBase t } s.startExpiry .running none true false ∧
    ∀ g : Fin 4, (s.runEntry? g = none → s.RunLeft s.startExpiry g) ∧
      ∀ e, s.runEntry? g = some e → State.RunStarted { s with timeBase := max s.timeBase t } s.startExpiry g e
        (if (s.cooler.runs[g]).mode = .manual then (s.cooler.runs[g]).manualRate else e.minRate) := by
  have hexpiry : s.startExpiry = (s.advance t).coolerRuns := by rw [State.startExpiry, ht]
  have hpass := (s.advance t).coolerRuns_spec
  obtain ⟨hentered, hpassed⟩ := hpass
  rw [hexpiry]
  refine ⟨hentered, fun g => ⟨fun he => ?_, fun e he => ?_⟩⟩
  · have hg := hpassed g
    rw [Run.passed_of_none (s := s.advance t) _ he] at hg
    exact hg.left
  · have hg := hpassed g
    rw [Run.passed_of_some (s := s.advance t) _ he] at hg
    exact hg

/-! ### SAFE (R93, R94) -/

theorem State.coolerToSafe_starting_spec {s : State} (h : s.cooler.state = .starting) :
    s.CoolerEntered s.coolerToSafe .safe none false false ∧ ∀ g : Fin 4,
      (s.runEntry? g = none → s.RunLeft s.coolerToSafe g) ∧
      ∀ e, s.runEntry? g = some e → s.RunStarted s.coolerToSafe g e e.safeRate := by
  obtain ⟨t, ht⟩ : ∃ t, t = (s.modCooler fun c => { c with startTimer := none }).setCoolerState .safe := ⟨_, rfl⟩
  obtain ⟨hentering, hruns, hgiven⟩ := State.entering_setCoolerState ht rfl
  have hnow := congrArg State.timeBase hentering.outer
  have hpass := hentering.pass hruns hgiven (fun s g e => s.startStroking g e.safeRate)
    (Run.started s.timeBase fun e _ => e.safeRate) (fun _ _ => rfl)
    (fun v l g e he => hnow ▸ State.startStroking_withRuns _ (fun e _ => e.safeRate) v l g e he) false s.coolerToSafe
    (ht ▸ if_pos h)
  obtain ⟨hentered, hpassed⟩ := hpass
  refine ⟨hentered, fun g => ⟨fun he => ?_, fun e he => ?_⟩⟩
  · exact State.RunBecame.left (Run.passed_of_none (s := s) _ he ▸ hpassed g)
  · have hg := hpassed g
    rwa [Run.passed_of_some (s := s) _ he] at hg

/-- R93: a STROKING run takes the safe rate. -/
def Run.ratedSafe (e : RunEntry) (r : Run) : Run × List Proposal :=
  if r.state = .stroking then r.rated e e.safeRate else (r, [])

theorem Run.ratedSafe_entry (e : RunEntry) (r : Run) : (r.ratedSafe e).1.entry = r.entry := by
  unfold Run.ratedSafe
  split
  · exact Run.rated_entry e _ r
  · rfl

/-- A pass that leaves run `g` alone. -/
theorem State.withRuns_set_self (t : State) (v : Vector Run 4) (l : List Submission) (g : Fin 4) :
    t.withRuns (v.set g v[g]) (l ++ fromRun g []) = t.withRuns v l := by
  simp

theorem State.coolerToSafe_running_spec {s : State} (h : s.cooler.state = .running) :
    s.CoolerEntered s.coolerToSafe .safe s.cooler.startTimer false false ∧ ∀ g : Fin 4,
      (s.runEntry? g = none ∨ (s.cooler.runs[g]).state ≠ .stroking → s.RunLeft s.coolerToSafe g) ∧
      ∀ e, s.runEntry? g = some e → (s.cooler.runs[g]).state = .stroking →
        s.RunRated s.coolerToSafe g e e.safeRate := by
  obtain ⟨t, ht⟩ : ∃ t, t = s.setCoolerState .safe := ⟨_, rfl⟩
  obtain ⟨hentering, hruns, hgiven⟩ := State.entering_setCoolerState (timer := s.cooler.startTimer) ht rfl
  have hpass := hentering.pass hruns hgiven
    (fun s g e => if (s.runAt g).state = .stroking then s.setRate g e.safeRate else s)
    (fun e r => r.ratedSafe e) (fun e r => r.ratedSafe_entry e)
    (fun v l g e he => by
      by_cases hst : (v[g]).state = .stroking
      · rw [Run.ratedSafe, if_pos hst]
        exact (if_pos hst).trans (State.setRate_eq _ g e he _)
      · rw [Run.ratedSafe, if_neg hst, State.withRuns_set_self]
        exact if_neg hst)
    false s.coolerToSafe (ht ▸ (if_neg (by rw [h]; nofun)).trans (if_pos h))
  obtain ⟨hentered, hpassed⟩ := hpass
  refine ⟨hentered, fun g => ⟨fun hleft => ?_, fun e he hst => ?_⟩⟩
  · have hg := hpassed g
    cases he : s.runEntry? g with
    | none => exact State.RunBecame.left (Run.passed_of_none (s := s) _ he ▸ hg)
    | some e =>
      rw [Run.passed_of_some (s := s) _ he, Run.ratedSafe, if_neg (hleft.resolve_left (by rw [he]; nofun))] at hg
      exact State.RunBecame.left hg
  · have hg := hpassed g
    rw [Run.passed_of_some (s := s) _ he, Run.ratedSafe, if_pos hst] at hg
    exact State.RunBecame.rated (by rw [hst]; nofun) hg

/-- R94, R97: what the return from SAFE makes of a run. -/
def State.runReturned (s : State) (e : RunEntry) (r : Run) : Run × List Proposal :=
  match r.state with
  | .stroking => r.rated e (if r.mode = .manual then r.manualRate else s.lawRateOr e e.minRate)
  | .stalled => if r.mode = .manual then r.rated e r.manualRate else (r, [])
  | .idle => (r, [])

theorem State.runReturned_entry (s : State) (e : RunEntry) (r : Run) : (s.runReturned e r).1.entry = r.entry := by
  unfold State.runReturned
  split
  · exact Run.rated_entry e _ r
  · split
    · exact Run.rated_entry e _ r
    · rfl
  · rfl

theorem State.runReturned_congr {s t : State} (h : t.points = s.points) : t.runReturned = s.runReturned := by
  funext e r
  have hlaw : t.lawRateOr e e.minRate = s.lawRateOr e e.minRate := by
    unfold State.lawRateOr State.pointGood State.pointQuality State.pointEntry?
    rw [h]
  rw [State.runReturned, hlaw]
  rfl

theorem State.runLeavesSafe_withRuns {t : State} (ht : t.cooler.state ≠ .safe) (v : Vector Run 4) (l : List Submission)
    (g : Fin 4) (e : RunEntry) (he : (t.withRuns v l).runEntry? g = some e) :
    (t.withRuns v l).runLeavesSafe g e =
      t.withRuns (v.set g (t.runReturned e v[g]).1) (l ++ fromRun g (t.runReturned e v[g]).2) := by
  have hrated (rate : Nat) := (t.withRuns v l).setRate_eq g e he rate
  have hruled : (t.withRuns v l).ruledRate g e e.minRate =
      if (v[g]).mode = .manual then (v[g]).manualRate else t.lawRateOr e e.minRate := if_neg ht
  have hrun : (t.withRuns v l).runAt g = v[g] := rfl
  rw [State.runLeavesSafe, State.runReturned, hrun, hruled]
  cases (v[g]).state with
  | stroking => exact hrated _
  | stalled =>
    dsimp only
    split
    · exact hrated _
    · exact (t.withRuns_set_self v l g).symm
  | idle => exact (t.withRuns_set_self v l g).symm

theorem State.coolerLeavesSafe_spec (s : State) :
    s.CoolerEntered s.coolerLeavesSafe .running s.cooler.startTimer false false ∧
    ∀ g : Fin 4, s.RunBecame s.coolerLeavesSafe g ((s.cooler.runs[g]).passed s.runReturned) := by
  obtain ⟨t, ht⟩ : ∃ t, t = s.setCoolerState .running := ⟨_, rfl⟩
  obtain ⟨hentering, hruns, hgiven⟩ := State.entering_setCoolerState (timer := s.cooler.startTimer) ht rfl
  have hpoints : t.points = s.points := (congrArg State.points hentering.outer :)
  have hst : t.cooler.state ≠ .safe := by
    rw [hentering.cooler]
    nofun
  rw [← State.runReturned_congr hpoints]
  exact hentering.pass hruns hgiven (fun s g e => s.runLeavesSafe g e) _ (State.runReturned_entry _)
    (State.runLeavesSafe_withRuns hst) false s.coolerLeavesSafe (ht ▸ rfl)

/-- R94, R97: the runs at the return from SAFE. -/
theorem State.coolerLeavesSafe_runs (s : State) (g : Fin 4) :
    (s.runEntry? g = none ∨ (s.cooler.runs[g]).state = .idle ∨
        ((s.cooler.runs[g]).state = .stalled ∧ (s.cooler.runs[g]).mode = .auto) → s.RunLeft s.coolerLeavesSafe g) ∧
    ∀ e, s.runEntry? g = some e →
      ((s.cooler.runs[g]).state ≠ .idle → (s.cooler.runs[g]).mode = .manual →
        s.RunRated s.coolerLeavesSafe g e (s.cooler.runs[g]).manualRate) ∧
      ((s.cooler.runs[g]).state = .stroking → (s.cooler.runs[g]).mode = .auto →
        s.RunRated s.coolerLeavesSafe g e (s.lawRateOr e e.minRate)) := by
  have hg := s.coolerLeavesSafe_spec.2 g
  refine ⟨fun hleft => ?_, fun e he => ?_⟩
  · cases he : s.runEntry? g with
    | none => exact State.RunBecame.left (Run.passed_of_none (s := s) _ he ▸ hg)
    | some e =>
      rw [Run.passed_of_some (s := s) _ he, State.runReturned] at hg
      obtain hidle | ⟨hstalled, hauto⟩ := hleft.resolve_left (by rw [he]; nofun)
      · simp only [hidle] at hg
        exact hg.left
      · simp only [hstalled, hauto, reduceCtorEq, if_false] at hg
        exact hg.left
  · rw [Run.passed_of_some (s := s) _ he, State.runReturned] at hg
    refine ⟨fun hst hmanual => State.RunBecame.rated hst ?_, fun hst hauto => ?_⟩
    · cases hrun : (s.cooler.runs[g]).state with
      | idle => exact absurd hrun hst
      | stroking => simpa only [hrun, hmanual, if_true] using hg
      | stalled => simpa only [hrun, hmanual, if_true] using hg
    · simp only [hst, hauto, reduceCtorEq, if_false] at hg
      exact hg.rated (by rw [hst]; nofun)

theorem State.coolerToSafe_off {s : State} (h : s.cooler.state = .stopped ∨ s.cooler.state = .safe) :
    s.coolerToSafe = s :=
  (if_neg (by rcases h with h | h <;> rw [h] <;> nofun)).trans (if_neg (by rcases h with h | h <;> rw [h] <;> nofun))

/-! ### STOPPED (R95) -/

theorem foldl_idleRun_outer (l : List (Fin 4)) (s : State) : (l.foldl (fun s g => s.idleRun g) s).outer = s.outer := by
  induction l generalizing s with
  | nil => rfl
  | cons g l ih => rw [List.foldl_cons, ih, State.idleRun_outer]

theorem State.coolerStops_spec (s : State) : s.CoolerEntered s.coolerStops .stopped none false true ∧ ∀ g : Fin 4,
    s.coolerStops.cooler.runs[g] = { (s.cooler.runs[g]).abandoned with state := .idle, rate := 0, timer := none } ∧
    givenBy (.run g) s.coolerStops.queue.submitted = givenBy (.run g) s.queue.submitted ∧
    (s.coolerStops.shift.record.runs[g]).abandoned =
      min top32 ((s.shift.record.runs[g]).abandoned + (s.cooler.runs[g]).outstanding.length) := by
  obtain ⟨t, ht⟩ : ∃ t, t = (s.modCooler fun c => { c with startTimer := none }).setCoolerState .stopped := ⟨_, rfl⟩
  obtain ⟨hentering, hruns, hgiven⟩ := State.entering_setCoolerState ht rfl
  have haccounts : t.shift.record.runs = s.shift.record.runs :=
    ht ▸ State.setCoolerState_runAccounts (s.modCooler fun c => { c with startTimer := none }) .stopped
  have hstops : s.coolerStops = ((indices 4).foldl (fun s g => s.idleRun g) t).applyFans true := ht ▸ rfl
  have hidle := foldl_idleRun_outer (indices 4) t
  rw [State.idleAll_eq] at hstops hidle
  rw [hstops]
  have hpairs := hentering.withPairs _ hidle
  have hfans := hpairs.applyFans true
  obtain ⟨hentered, hruns', hgiven'⟩ := hfans
  refine ⟨hentered, fun g => ⟨?_, (hgiven' g).trans (hgiven g), ?_⟩⟩
  · rw [hruns']
    simp [State.withPairs, idlePair, hruns]
  · rw [State.applyFans_eq]
    simp [State.withFans, State.withPairs, idlePair, hruns, haccounts, satAdd]

end Sys2Proof.Machine
end

section
/-!
PROOFS. The requests that change the cooler state, the fan speeds, and the refreshes of FAN and RATE (R91 to R96).
-/
namespace Sys2Proof.Machine

/-! ### The checks of Table 5-6 (R91) -/

theorem State.coolerReachable_iff (s : State) : s.coolerReachable = true ↔
    (∀ g e, s.runEntry? g = some e → s.onActiveList e.station = true) ∧
      ∀ k e, s.compartmentEntry? k = some e → s.onActiveList e.station = true := by
  simp only [State.coolerReachable, Bool.and_eq_true, List.all_eq_true, indices, List.mem_finRange, true_imp_iff,
    Option.all_eq_true]

/-- R91, R94: an alarm that keeps the cooler from its start and from its return. -/
theorem State.coolerBlockedBy_some_iff (s : State) (a : Fin 192) : s.coolerBlockedBy = some a ↔
    (∀ a' ≤ a, (∃ x, s.alarmEntry? a' = some x ∧ x.action = .coolerSafe ∧
      ((s.alarmAt a').state = .raised ∨ (s.alarmAt a').state = .held)) ↔ a' = a) := by
  rw [State.coolerBlockedBy, s.findAlarm_eq_some_iff]
  simp only [Bool.and_eq_true, Bool.or_eq_true, beq_iff_eq]

theorem State.usedRuns_isEmpty_iff (s : State) : s.usedRuns.isEmpty = true ↔ ∀ g, s.runEntry? g = none := by
  simp [State.usedRuns, List.filter_eq_nil_iff, indices]

/-- R95: no in-use burner is lit or on its way there. -/
theorem State.anyBurnerFiring_iff (s : State) : s.anyBurnerFiring = true ↔
    ∃ b e, s.burnerEntry? b = some e ∧ (s.burners[b]).state ≠ .off ∧ (s.burners[b]).state ≠ .lockout := by
  simp only [State.anyBurnerFiring, List.any_eq_true, indices, List.mem_finRange, true_and, Bool.and_eq_true,
    Option.isSome_iff_exists, BurnerState.firing_iff, exists_and_right]

/-! ### The fan speed of a compartment (R96) -/

theorem State.fanSpeed_stopped {s : State} (e : CompartmentEntry) (h : s.cooler.state = .stopped) :
    s.fanSpeed e = 0 := by
  simp only [State.fanSpeed, h]

theorem State.fanSpeed_moving {s : State} (e : CompartmentEntry) {basis : Nat}
    (hbasis : basis = (if s.cooler.state = .safe then e.safe else e.base)) (h : s.cooler.state ≠ .stopped) :
    s.fanSpeed e =
      if ∃ z, e.zone = some z ∧ (s.cooler.zones[z]).active = true then min 1000 (basis + e.boost) else basis := by
  have hzone : (e.zone.any fun z => (s.cooler.zones[z]).active) = true ↔
      ∃ z, e.zone = some z ∧ (s.cooler.zones[z]).active = true := Option.any_eq_true ..
  simp only [State.fanSpeed, hzone, hbasis]
  cases hst : s.cooler.state with
  | stopped => exact absurd hst h
  | starting => simp
  | running => simp
  | safe => simp

/-! ### COOLER_START (R91, Table 5-6) -/

section requests
variable {s : State} {number : Byte}

section start
variable (h : s.offers 0x13#8 number [])
include h

/-- Table 5-6: the answer of COOLER_START is that of its first check that fails. -/
theorem exec_coolerStart {u : State} {a : Answer}
    (hchecks : (if s.cooler.state ≠ .stopped then (s.popRequest, Answer.check .notPermitted .state)
      else if !s.floor.state.runs then (s.popRequest, Answer.check .notPermitted .floor)
      else if s.usedRuns.isEmpty then (s.popRequest, { result := .notConfigured })
      else if !s.coolerReachable then (s.popRequest, Answer.check .notPermitted .station)
      else match s.coolerBlockedBy with
      | some a => (s.popRequest, Answer.checkObject .notPermitted .alarm a.val)
      | none => (s.popRequest.coolerStarts.finish, Answer.ok)) = (u, a)) :
    Machine.exec .coolerStart s = .next (u.answered number 0x13#8 a) :=
  h.exec_of_handler rfl (answering_eq readArgs_nil hchecks number)

theorem exec_coolerStart_state (hst : s.cooler.state ≠ .stopped) :
    Machine.exec .coolerStart s = .next (s.popRequest.answered number 0x13#8 (Answer.check .notPermitted .state)) :=
  exec_coolerStart h (if_pos hst)

variable (hst : s.cooler.state = .stopped)
include hst

theorem exec_coolerStart_floor (hfloor : s.floor.state = .halted ∨ s.floor.state = .single) :
    Machine.exec .coolerStart s = .next (s.popRequest.answered number 0x13#8 (Answer.check .notPermitted .floor)) :=
  exec_coolerStart h ((if_neg (not_not.2 hst)).trans (if_pos (by rw [(FloorState.not_runs_iff _).2 hfloor]; rfl)))

variable (hfloor : s.floor.state = .starting ∨ s.floor.state = .normal ∨ s.floor.state = .degraded)
include hfloor

/-- Table 5-6, checks 3 to 5. -/
theorem exec_coolerStart_rest {u : State} {a : Answer}
    (hchecks : (if s.usedRuns.isEmpty then (s.popRequest, { result := .notConfigured })
      else if !s.coolerReachable then (s.popRequest, Answer.check .notPermitted .station)
      else match s.coolerBlockedBy with
      | some a => (s.popRequest, Answer.checkObject .notPermitted .alarm a.val)
      | none => (s.popRequest.coolerStarts.finish, Answer.ok)) = (u, a)) :
    Machine.exec .coolerStart s = .next (u.answered number 0x13#8 a) :=
  exec_coolerStart h ((if_neg (not_not.2 hst)).trans
    ((if_neg (by rw [(FloorState.runs_iff _).2 hfloor]; nofun)).trans hchecks))

theorem exec_coolerStart_noRun (hnone : ∀ g, s.runEntry? g = none) :
    Machine.exec .coolerStart s = .next (s.popRequest.answered number 0x13#8 { result := .notConfigured }) :=
  exec_coolerStart_rest h hst hfloor (if_pos (s.usedRuns_isEmpty_iff.2 hnone))

variable (hrun : ∃ g, s.runEntry? g ≠ none)
include hrun

theorem exec_coolerStart_station (hreach : s.coolerReachable = false) :
    Machine.exec .coolerStart s = .next (s.popRequest.answered number 0x13#8 (Answer.check .notPermitted .station)) :=
  exec_coolerStart_rest h hst hfloor ((if_neg (mt s.usedRuns_isEmpty_iff.1 (not_forall.2 hrun))).trans
    (if_pos (by rw [hreach]; rfl)))

variable (hreach : s.coolerReachable = true)
include hreach

theorem exec_coolerStart_alarm {a : Fin 192} (ha : s.coolerBlockedBy = some a) : Machine.exec .coolerStart s =
    .next (s.popRequest.answered number 0x13#8 (Answer.checkObject .notPermitted .alarm a.val)) :=
  exec_coolerStart_rest h hst hfloor ((if_neg (mt s.usedRuns_isEmpty_iff.1 (not_forall.2 hrun))).trans
    ((if_neg (by rw [hreach]; nofun)).trans (by rw [ha])))

theorem exec_coolerStart_taken (ha : s.coolerBlockedBy = none) : Machine.exec .coolerStart s =
    .next (s.popRequest.coolerStarts.finish.answered number 0x13#8 Answer.ok) :=
  exec_coolerStart_rest h hst hfloor ((if_neg (mt s.usedRuns_isEmpty_iff.1 (not_forall.2 hrun))).trans
    ((if_neg (by rw [hreach]; nofun)).trans (by rw [ha])))

end start

/-! ### COOLER_SAFE, COOLER_RESET_SAFE and COOLER_STOP (R93 to R95) -/

theorem exec_coolerSafe (h : s.offers 0x15#8 number []) :
    (s.cooler.state = .stopped → Machine.exec .coolerSafe s =
      .next (s.popRequest.answered number 0x15#8 (Answer.check .notPermitted .state))) ∧
    (s.cooler.state ≠ .stopped → Machine.exec .coolerSafe s =
      .next (s.popRequest.coolerToSafe.finish.answered number 0x15#8 Answer.ok)) :=
  ⟨fun hst => h.exec_of_handler rfl (answering_eq readArgs_nil (if_pos hst) number),
    fun hst => h.exec_of_handler rfl (answering_eq readArgs_nil (if_neg hst) number)⟩

/-- R94: the answer of COOLER_RESET_SAFE. -/
theorem exec_coolerResetSafe (h : s.offers 0x16#8 number []) {u : State} {a : Answer}
    (hchecks : (if s.cooler.state ≠ .safe then (s.popRequest, Answer.check .notPermitted .state)
      else match s.coolerBlockedBy with
      | some a => (s.popRequest, Answer.checkObject .notPermitted .alarm a.val)
      | none => (s.popRequest.coolerLeavesSafe.finish, Answer.ok)) = (u, a)) :
    Machine.exec .coolerResetSafe s = .next (u.answered number 0x16#8 a) :=
  h.exec_of_handler rfl (answering_eq readArgs_nil hchecks number)

theorem exec_coolerResetSafe_alarm (h : s.offers 0x16#8 number []) (hst : s.cooler.state = .safe) {a : Fin 192}
    (ha : s.coolerBlockedBy = some a) : Machine.exec .coolerResetSafe s =
      .next (s.popRequest.answered number 0x16#8 (Answer.checkObject .notPermitted .alarm a.val)) :=
  exec_coolerResetSafe h ((if_neg (not_not.2 hst)).trans (by rw [ha]))

theorem exec_coolerResetSafe_taken (h : s.offers 0x16#8 number []) (hst : s.cooler.state = .safe)
    (ha : s.coolerBlockedBy = none) : Machine.exec .coolerResetSafe s =
      .next (s.popRequest.coolerLeavesSafe.finish.answered number 0x16#8 Answer.ok) :=
  exec_coolerResetSafe h ((if_neg (not_not.2 hst)).trans (by rw [ha]))

/-- R95: the answer of COOLER_STOP. -/
theorem exec_coolerStop (h : s.offers 0x14#8 number []) {u : State} {a : Answer}
    (hchecks : (if s.anyBurnerFiring then (s.popRequest, Answer.check .notPermitted .burner)
      else if s.cooler.state = .stopped then (s.popRequest, Answer.check .notPermitted .state)
      else (s.popRequest.coolerStops.finish, Answer.ok)) = (u, a)) :
    Machine.exec .coolerStop s = .next (u.answered number 0x14#8 a) :=
  h.exec_of_handler rfl (answering_eq readArgs_nil hchecks number)

theorem State.not_anyBurnerFiring
    (hout : ∀ b e, s.burnerEntry? b = some e → (s.burners[b]).state = .off ∨ (s.burners[b]).state = .lockout) :
    ¬ s.anyBurnerFiring = true := by
  rw [s.anyBurnerFiring_iff]
  rintro ⟨b, e, he, hoff, hlock⟩
  exact (hout b e he).elim hoff hlock

end requests

/-! ### The refresh of FAN and RATE (R96) -/

section refreshes
variable {s : State}

theorem State.applyFan_spec {k : Fin 12} {e : CompartmentEntry} (he : s.compartmentEntry? k = some e) :
    ((s.cooler.compartments[k]).speed = s.fanSpeed e → s.applyFan false k = s) ∧
    ((s.cooler.compartments[k]).speed ≠ s.fanSpeed e → s.applyFan false k = State.submit
      { s with cooler := { s.cooler with
          compartments := s.cooler.compartments.set k
            { s.cooler.compartments[k] with speed := s.fanSpeed e, refresh := 0 } } } (.compartment k)
      { station := e.station, kind := .fan, value := s.fanSpeed e, cls := .control, origin := .cooler }) := by
  have hentry : (s.cooler.compartments[k]).entry.filter (·.inUse) = some e := he
  rw [State.applyFan_eq, State.fanned, hentry]
  dsimp only
  refine ⟨fun hsame => ?_, fun hnew => ?_⟩
  · rw [if_pos ⟨hsame, rfl⟩]
    simp [State.withFans]
  · rw [if_neg fun hsame => hnew hsame.1]
    rfl

theorem State.refreshCompartment_spec {k : Fin 12} {e : CompartmentEntry} (he : s.compartmentEntry? k = some e) :
    ((s.cooler.compartments[k]).refresh ≤ 99 → s.refreshCompartment k = s) ∧
    (99 < (s.cooler.compartments[k]).refresh → s.refreshCompartment k = State.submit
      { s with cooler := { s.cooler with
          compartments := s.cooler.compartments.set k
            { s.cooler.compartments[k] with refresh := 0 } } } (.compartment k)
      { station := e.station, kind := .fan, value := (s.cooler.compartments[k]).speed, cls := .control
        origin := .cooler }) :=
  ⟨fun hle => if_neg (Nat.not_lt.2 hle), fun hlt => (if_pos hlt).trans (s.queueFan_eq k e he)⟩

/-- R96: a compartment that is not in use has speed 0 and is not commanded. -/
theorem State.refreshCompartment_unused {k : Fin 12} (he : s.compartmentEntry? k = none) :
    s.refreshCompartment k = s ∧ s.applyFan false k =
      { s with cooler := { s.cooler with
          compartments := s.cooler.compartments.set k { s.cooler.compartments[k] with speed := 0 } } } := by
  refine ⟨?_, ?_⟩
  · rw [State.refreshCompartment, State.queueFan, he]
    exact ite_self s
  · rw [State.applyFan, he]
    rfl

theorem State.refreshRun_spec {g : Fin 4} {e : RunEntry} (he : s.runEntry? g = some e) :
    ((s.cooler.runs[g]).state = .idle ∨ (s.cooler.runs[g]).refresh ≤ 99 → s.refreshRun g = s) ∧
    ((s.cooler.runs[g]).state ≠ .idle → 99 < (s.cooler.runs[g]).refresh → s.refreshRun g = State.submit
      { s with cooler := { s.cooler with
          runs := s.cooler.runs.set g { s.cooler.runs[g] with refresh := 0 } } } (.run g)
      { station := e.station, kind := .rate, value := (s.cooler.runs[g]).rate, cls := .control
        origin := .cooler }) := by
  refine ⟨fun hearly => ?_, fun hst hdue => ?_⟩
  · have hnot : ¬ ((s.runAt g).state ≠ .idle ∧ Config.coolerRefreshMarks < (s.runAt g).refresh) :=
      fun hdue => hearly.elim hdue.1 (Nat.not_le.2 hdue.2)
    exact if_neg hnot
  · exact (if_pos ⟨hst, hdue⟩).trans (s.queueRate_eq g e he)

theorem State.refreshRun_unused {g : Fin 4} (he : s.runEntry? g = none) : s.refreshRun g = s := by
  rw [State.refreshRun, State.queueRate, he]
  exact ite_self s

end refreshes

/-- R97: the law's rate where the pressure point is GOOD. -/
theorem State.lawRateOr_eq (s : State) (e : RunEntry) (held : Nat) : s.lawRateOr e held =
    if s.pointQuality e.pressure = .good then lawRate e (s.points[e.pressure]).value else held := by
  simp only [State.lawRateOr, State.pointGood, beq_iff_eq]

/-- Settles O48: the requests by their checks; a cooler state by its passes over the runs and the compartments; a FAN or
a RATE by the operation that queues it. -/
theorem coolerStates : Obligations.CoolerStates := by
  unfold Obligations.CoolerStates
  refine ⟨?starts, ?safe, ?refreshes⟩
  case starts =>
    intro s number refusal hrefusal
    simp only [hrefusal]
    refine ⟨fun h => ⟨exec_coolerStart_state h, fun hst => ⟨exec_coolerStart_floor h hst, fun hfloor =>
        ⟨exec_coolerStart_noRun h hst hfloor, fun hrun => ⟨exec_coolerStart_station h hst hfloor hrun, fun hreach =>
          ⟨fun a => exec_coolerStart_alarm h hst hfloor hrun hreach, fun ha => ⟨_,
            exec_coolerStart_taken h hst hfloor hrun hreach ha, s.popRequest.coolerStarts_spec⟩⟩⟩⟩⟩⟩,
      s.coolerReachable_iff, s.coolerBlockedBy_some_iff, fun t ht => ⟨_, rfl, State.startExpiry_spec ht⟩,
      fun hnone => ?_,
      fun e basis hbasis => ⟨State.fanSpeed_stopped e, State.fanSpeed_moving e hbasis⟩⟩
    exact congrArg (fun u => State.conclude (State.finish u)) (State.startExpiry_none hnone)
  case safe =>
    intro s number refusal hrefusal
    simp only [hrefusal, ← State.lawRateOr_eq]
    refine ⟨exec_coolerSafe, State.coolerToSafe_off, State.coolerToSafe_starting_spec, State.coolerToSafe_running_spec,
      fun h => ⟨fun hst => exec_coolerResetSafe h (if_pos hst), fun hst => ⟨fun a => exec_coolerResetSafe_alarm h hst,
        fun ha => ⟨_, exec_coolerResetSafe_taken h hst ha, s.popRequest.coolerLeavesSafe_spec.1,
          s.popRequest.coolerLeavesSafe_runs⟩⟩⟩,
      fun h => ⟨fun hfiring => exec_coolerStop h (if_pos (s.anyBurnerFiring_iff.2 hfiring)), fun hout =>
        ⟨fun hst => ?stopped, fun hst => ⟨_, ?stops, s.popRequest.coolerStops_spec⟩⟩⟩⟩
    case stopped => exact exec_coolerStop h ((if_neg (State.not_anyBurnerFiring hout)).trans (if_pos hst))
    case stops => exact exec_coolerStop h ((if_neg (State.not_anyBurnerFiring hout)).trans (if_neg hst))
  case refreshes =>
    intro s
    refine ⟨fun k e fan he hfan => ?_, fun k => State.refreshCompartment_unused, fun g e => State.refreshRun_spec,
      fun g => State.refreshRun_unused⟩
    simp only [hfan]
    exact ⟨(State.applyFan_spec he).1, (State.applyFan_spec he).2, State.refreshCompartment_spec he⟩

end Sys2Proof.Machine
end

section
/-!
PROOFS. Strokes from their timer to their confirmation, and the stall of a run (R99 to R102).
-/
namespace Sys2Proof.Machine

section
variable {s : State} {g : Fin 4} {e : RunEntry}

@[simp] theorem State.runAt_modRun (s : State) (g : Fin 4) (f : Run → Run) :
    (s.modRun g f).runAt g = f s.cooler.runs[g] := by
  simp [State.runAt, State.modRun, State.modCooler]

/-- Two changes of a run are one. -/
theorem State.modRun_modRun (s : State) (g : Fin 4) (f f' : Run → Run) :
    (s.modRun g f).modRun g f' = s.modRun g fun r => f' (f r) := by
  simp [State.modRun, State.modCooler]

/-! ### The expiry of a stroke timer (R99) -/

/-- R99: the expiry is counted, and the timer starts again. -/
def Run.expired (t : StrokeTimer) (now : Time) (r : Run) : Run :=
  { r with timer := some { t with start := now }, counts := { r.counts with expiries := r.counts.expiries + 1 } }

theorem State.strokeExpiry_eq {t : StrokeTimer} (he : s.runEntry? g = some e) (ht : (s.cooler.runs[g]).timer = some t)
    {w : State} (hw : w = { s with timeBase := max s.timeBase (t.start + t.period) }) : s.strokeExpiry g =
      if 4 ≤ (s.cooler.runs[g]).outstanding.length + (s.cooler.runs[g]).waiting then
        ((w.modRun g (Run.expired t w.timeBase)).modRun g fun r =>
          { r with counts := { r.counts with skipped := r.counts.skipped + 1 } }).postRun g
          fun a => { a with skipped := satAdd top32 a.skipped 1 }
      else ((w.modRun g (Run.expired t w.timeBase)).modRun g fun r => { r with waiting := r.waiting + 1 }).submit
      (.run g)
        { station := e.station, kind := .stroke, value := 1, cls := .control, origin := .cooler } := by
  have ht : (s.runAt g).timer = some t := ht
  subst hw
  rw [State.strokeExpiry, ht, he]
  simp only [State.runAt_modRun]
  rfl

/-- R99: with four strokes out or waiting the stroke is skipped. -/
theorem State.strokeExpiry_skips {t : StrokeTimer} (he : s.runEntry? g = some e)
    (ht : (s.cooler.runs[g]).timer = some t) {w : State}
    (hw : w = { s with timeBase := max s.timeBase (t.start + t.period) })
    (hfull : 4 ≤ (s.cooler.runs[g]).outstanding.length + (s.cooler.runs[g]).waiting) : s.strokeExpiry g =
      { w with
        cooler := { s.cooler with
        runs := s.cooler.runs.set g
          { s.cooler.runs[g] with
            timer := some { t with start := w.timeBase }
            counts := { (s.cooler.runs[g]).counts with
              expiries := (s.cooler.runs[g]).counts.expiries + 1, skipped := (s.cooler.runs[g]).counts.skipped + 1 } } }
        shift := { s.shift with record := { s.shift.record with
        runs := s.shift.record.runs.set g
          { s.shift.record.runs[g] with skipped := min top32 ((s.shift.record.runs[g]).skipped + 1) } } } } := by
  rw [State.strokeExpiry_eq he ht hw, if_pos hfull, State.modRun_modRun, hw]
  rfl

theorem State.strokeExpiry_queues {t : StrokeTimer} (he : s.runEntry? g = some e)
    (ht : (s.cooler.runs[g]).timer = some t) {w : State}
    (hw : w = { s with timeBase := max s.timeBase (t.start + t.period) })
    (hroom : (s.cooler.runs[g]).outstanding.length + (s.cooler.runs[g]).waiting < 4) : s.strokeExpiry g = State.submit
      { w with
        cooler := { s.cooler with
        runs := s.cooler.runs.set g
          { s.cooler.runs[g] with
            timer := some { t with start := w.timeBase }
            waiting := (s.cooler.runs[g]).waiting + 1
            counts := { (s.cooler.runs[g]).counts with
              expiries := (s.cooler.runs[g]).counts.expiries + 1 } } } } (.run g)
      { station := e.station, kind := .stroke, value := 1, cls := .control, origin := .cooler } := by
  rw [State.strokeExpiry_eq he ht hw, if_neg (Nat.not_le.2 hroom), State.modRun_modRun, hw]
  rfl

/-! ### The sending of a STROKE (R100) -/

theorem State.strokeSent_out (h : (s.cooler.runs[g]).state ≠ .idle) : s.strokeSent g =
    { s with cooler := { s.cooler with
      runs := s.cooler.runs.set g
        { s.cooler.runs[g] with
          waiting := (s.cooler.runs[g]).waiting - 1
          outstanding := (s.cooler.runs[g]).outstanding ++ [s.timeBase]
          counts := { (s.cooler.runs[g]).counts with sent := (s.cooler.runs[g]).counts.sent + 1 } } } } :=
  (if_neg h).trans (s.modRun_modRun g _ _)

/-- R100: a STROKE of a run that has become IDLE is abandoned. -/
theorem State.strokeSent_abandoned (h : (s.cooler.runs[g]).state = .idle) : s.strokeSent g =
    { s with
      cooler := { s.cooler with
      runs := s.cooler.runs.set g
        { s.cooler.runs[g] with
          waiting := (s.cooler.runs[g]).waiting - 1
          counts := { (s.cooler.runs[g]).counts with
            sent := (s.cooler.runs[g]).counts.sent + 1, abandoned := (s.cooler.runs[g]).counts.abandoned + 1 } } }
      shift := { s.shift with record := { s.shift.record with
      runs := s.shift.record.runs.set g
        { s.shift.record.runs[g] with abandoned := min top32 ((s.shift.record.runs[g]).abandoned + 1) } } } } :=
  (if_pos h).trans (congrArg
    (fun u => u.postRun g fun a => { a with abandoned := satAdd top32 a.abandoned 1 }) (s.modRun_modRun g _ _))

/-! ### The stall check (R102) -/

theorem State.checkStall_stalls {oldest : Time} {rest : List Time} {t : StrokeTimer} (he : s.runEntry? g = some e)
    (hout : (s.cooler.runs[g]).outstanding = oldest :: rest) (ht : (s.cooler.runs[g]).timer = some t)
    (hst : (s.cooler.runs[g]).state = .stroking) (hlate : e.timeoutFactor * t.period < s.timeBase - oldest) :
    s.checkStall g =
      { s with cooler := { s.cooler with
          runs := s.cooler.runs.set g { s.cooler.runs[g] with state := .stalled, timer := none } } } := by
  have hout : (s.runAt g).outstanding = oldest :: rest := hout
  have ht : (s.runAt g).timer = some t := ht
  rw [State.checkStall, he, hout, ht]
  exact if_pos ⟨hst, hlate⟩

/-- R102: a run that is not STROKING, or whose strokes are all confirmed or not yet late, does not stall. -/
theorem State.checkStall_keeps (he : s.runEntry? g = some e)
    (h : (s.cooler.runs[g]).outstanding = [] ∨ (s.cooler.runs[g]).state ≠ .stroking ∨
      (∃ oldest t, (s.cooler.runs[g]).outstanding.head? = some oldest ∧ (s.cooler.runs[g]).timer = some t ∧
        s.timeBase - oldest ≤ e.timeoutFactor * t.period)) : s.checkStall g = s := by
  have hout : (s.runAt g).outstanding = (s.cooler.runs[g]).outstanding := rfl
  have ht : (s.runAt g).timer = (s.cooler.runs[g]).timer := rfl
  rw [State.checkStall, he, hout, ht]
  cases hlist : (s.cooler.runs[g]).outstanding with
  | nil => rfl
  | cons oldest rest =>
    cases htimer : (s.cooler.runs[g]).timer with
    | none => rfl
    | some t =>
      refine if_neg fun ⟨hst, hlate⟩ => ?_
      rw [hlist, htimer] at h
      obtain h | h | ⟨_, _, ⟨⟩, ⟨⟩, hle⟩ := h
      · cases h
      · exact h hst
      · exact Nat.not_lt.2 hle hlate

end

/-- Settles O49: the expiry, the sending, the confirmation and the stall check, each as one change of the run. -/
theorem strokesCounted : Obligations.StrokesCounted := by
  unfold Obligations.StrokesCounted
  intro s w g e r he hr
  subst hr
  refine ⟨fun t ht hw => ⟨fun hfull => ?skipped, fun hroom => ?queued⟩, State.strokeSent_out,
      State.strokeSent_abandoned,
    fun n k hk => ?confirmed, fun oldest rest t => State.checkStall_stalls he, State.checkStall_keeps he⟩
  case skipped =>
    exact congrArg (fun u => State.conclude (State.finish u)) (State.strokeExpiry_skips he ht hw hfull)
  case queued =>
    exact congrArg (fun u => State.conclude (State.finish u)) (State.strokeExpiry_queues he ht hw hroom)
  case confirmed =>
    subst hk
    rfl

end Sys2Proof.Machine
end

section
/-!
PROOFS. The stroke-rate law and the requests that concern runs: RUN_RESET and RUN_MODE (R97, R98, R103).
-/
namespace Sys2Proof.Machine

/-! ### The law (R97) -/

/-- R97: the law's rate is the limited one, as an integer. -/
theorem lawRate_eq (e : RunEntry) {p raw : Int} (hraw : raw = e.baseRate + (e.gain * (p - e.pressureSet)).tdiv 100) :
    (lawRate e p : Int) =
      if raw < e.minRate then (e.minRate : Int) else if e.maxRate < raw then e.maxRate else raw := by
  have hrate : lawRate e p = (clampInt raw e.minRate e.maxRate).toNat := by
    subst hraw
    rfl
  rw [hrate, clampInt]
  split_ifs <;> omega

section
variable {s : State} {g : Fin 4} {e : RunEntry}

theorem State.applyLaw_taken (he : s.runEntry? g = some e) (hst : s.cooler.state = .running)
    (hheld : s.cooler.lawHeld = false) (hrun : (s.cooler.runs[g]).state ≠ .idle)
    (hauto : (s.cooler.runs[g]).mode = .auto) :
    s.applyLaw g = s.setRate g (if s.pointQuality e.pressure = .good then lawRate e (s.points[e.pressure]).value
      else (s.cooler.runs[g]).rate) := by
  rw [State.applyLaw, he, ← s.lawRateOr_eq]
  exact if_pos ⟨hst, hheld, hrun, hauto⟩

theorem State.applyLaw_idle (he : s.runEntry? g = some e) (h : s.cooler.state ≠ .running ∨ s.cooler.lawHeld = true ∨
    (s.cooler.runs[g]).state = .idle ∨ (s.cooler.runs[g]).mode = .manual) : s.applyLaw g = s := by
  rw [State.applyLaw, he]
  refine if_neg fun ⟨hst, hheld, hrun, hauto⟩ => ?_
  have hauto : (s.cooler.runs[g]).mode = .auto := hauto
  obtain h | h | h | h := h
  · exact h hst
  · rw [hheld] at h
    cases h
  · exact hrun h
  · rw [hauto] at h
    cases h

/-- R96, R99: a run takes another rate. -/
theorem State.setRate_spec (he : s.runEntry? g = some e) (rate : Nat) :
    ((s.cooler.runs[g]).rate = rate → s.setRate g rate = s) ∧
    ((s.cooler.runs[g]).rate ≠ rate → (s.cooler.runs[g]).state = .idle → s.setRate g rate =
      { s with cooler := { s.cooler with
          runs := s.cooler.runs.set g ((s.cooler.runs[g]).retimed rate) } }) ∧
    ((s.cooler.runs[g]).rate ≠ rate → (s.cooler.runs[g]).state ≠ .idle → s.setRate g rate = State.submit
      { s with cooler := { s.cooler with
          runs := s.cooler.runs.set g { (s.cooler.runs[g]).retimed rate with refresh := 0 } } } (.run g)
      { station := e.station, kind := .rate, value := rate, cls := .control, origin := .cooler }) := by
  refine ⟨fun hsame => if_pos hsame, fun hnew hidle => ?_, fun hnew hrun => ?_⟩
  · rw [s.setRate_eq g e he, Run.rated, if_neg hnew, if_pos hidle]
    exact congrArg (fun l => s.withRuns (s.cooler.runs.set g ((s.cooler.runs[g]).retimed rate)) l) (List.append_nil _)
  · rw [s.setRate_eq g e he, Run.rated, if_neg hnew, if_neg hrun]
    rfl

/-! ### RUN_RESET (R103) -/

section requests
variable {args : List Byte} {is : List Item} {number : Byte}

theorem withRun_some (hg : intOf is 1 = some (g.val + 1 : Int)) (he : s.runEntry? g = some e)
    (f : Fin 4 → RunEntry → State × Answer) : withRun s is f = f g e := by
  rw [withRun, withObject_one g hg, he]

theorem withRun_none (hg : intOf is 1 = some (g.val + 1 : Int)) (he : s.runEntry? g = none)
    (f : Fin 4 → RunEntry → State × Answer) : withRun s is f = (s, { result := .notConfigured }) := by
  rw [withRun, withObject_one g hg, he]
  rfl

/-- R103: the strokes that are out are abandoned, and the run enters STROKING at a rate. -/
theorem State.restart_eq (he : s.runEntry? g = some e) (rate : Nat) : (s.abandonStrokes g).startStroking g rate =
    State.submit
      { s with
        cooler := { s.cooler with
        runs := s.cooler.runs.set g { ((s.cooler.runs[g]).abandoned).stroking rate s.timeBase with refresh := 0 } }
        shift := { s.shift with record := { s.shift.record with
        runs := s.shift.record.runs.set g
          { s.shift.record.runs[g] with
            abandoned := min top32 ((s.shift.record.runs[g]).abandoned +
              (s.cooler.runs[g]).outstanding.length) } } } } (.run g)
      { station := e.station, kind := .rate, value := rate, cls := .control, origin := .cooler } := by
  have hentry : (s.abandonStrokes g).runEntry? g = some e :=
    (s.modRun_runEntry g (fun _ => (s.cooler.runs[g]).abandoned) rfl).trans he
  rw [State.startStroking_eq _ g e hentry]
  simp [State.abandonStrokes, State.withRuns, State.modRun, State.modCooler, State.postRun, State.post, State.modShift,
    State.submit, State.modQueue, State.runAt, Run.abandoned, rateCommand, satAdd]

/-- R94, R97, R103: the rate of a run that strokes on. -/
theorem State.ruledRate_cases (s : State) (g : Fin 4) (e : RunEntry) (held : Nat) :
    (s.cooler.state = .safe → s.ruledRate g e held = e.safeRate) ∧
    (s.cooler.state ≠ .safe → (s.cooler.runs[g]).mode = .manual →
      s.ruledRate g e held = (s.cooler.runs[g]).manualRate) ∧
    (s.cooler.state ≠ .safe → (s.cooler.runs[g]).mode = .auto → s.ruledRate g e held =
      if s.pointQuality e.pressure = .good then lawRate e (s.points[e.pressure]).value else held) := by
  refine ⟨fun hsafe => if_pos hsafe, fun hst hmode => (if_neg hst).trans (if_pos hmode), fun hst hmode => ?_⟩
  have hmanual : ¬ (s.runAt g).mode = .manual := fun h => nomatch hmode.symm.trans h
  exact (if_neg hst).trans ((if_neg hmanual).trans (s.lawRateOr_eq e held))

variable (hg : intOf is 1 = some (g.val + 1 : Int)) (he : s.runEntry? g = some e)
include hg he

theorem exec_runReset (h : s.offers 0x17#8 number args) (hread : readArgs [intArg] args = some is) :
    ((s.cooler.runs[g]).state ≠ .stalled → Machine.exec .runReset s =
      .next (s.popRequest.answered number 0x17#8 (Answer.check .notPermitted .state))) ∧
    ((s.cooler.runs[g]).state = .stalled → Machine.exec .runReset s = .next (State.answered (State.finish
      ((s.popRequest.abandonStrokes g).startStroking g (s.ruledRate g e (s.cooler.runs[g]).rate)))
      number 0x17#8 Answer.ok)) := by
  refine ⟨fun hst => ?_, fun hst => ?_⟩
  · exact h.exec_of_handler rfl (answering_eq hread ((withRun_some hg (s := s.popRequest) he _).trans (if_neg hst))
      number)
  · exact h.exec_of_handler rfl (answering_eq hread ((withRun_some hg (s := s.popRequest) he _).trans (if_pos hst))
      number)

/-! ### RUN_MODE (R98) -/

variable (h : s.offers 0x18#8 number args)
  (hread : readArgs [intArg, enumArg 2, { kind := .int, mandatory := false }] args = some is)
include h hread

/-- R98: RUN_MODE answers what its mode and its rate call for. -/
theorem exec_runMode {u : State} {a : Answer}
    (hmode : (match needName is 2 modes, intOf is 3 with
      | some .manual, some v => s.popRequest.runManual g e v
      | some .manual, none => refuse s.popRequest .invalid
      | some .auto, _ => (s.popRequest.modRun g fun r => { r with mode := .auto }, Answer.ok)
      | none, _ => refuse s.popRequest .invalid) = (u, a)) :
    Machine.exec .runMode s = .next (u.answered number 0x18#8 a) :=
  h.exec_of_handler rfl (answering_eq hread ((withRun_some hg (s := s.popRequest) he _).trans hmode) number)

theorem exec_runMode_auto (hauto : enumOf is 2 = some 0) : Machine.exec .runMode s = .next (State.answered
    { s.popRequest with
      cooler := { s.cooler with runs := s.cooler.runs.set g { s.cooler.runs[g] with mode := .auto } } }
    number 0x18#8 Answer.ok) := by
  have hname : needName is 2 modes = some .auto := by rw [needName, hauto]; rfl
  exact exec_runMode hg he h hread (by rw [hname]; rfl)

theorem exec_runMode_noRate (hmanual : enumOf is 2 = some 1) (hnone : intOf is 3 = none) : Machine.exec .runMode s =
    .next (s.popRequest.answered number 0x18#8 { result := .invalid }) := by
  have hname : needName is 2 modes = some .manual := by rw [needName, hmanual]; rfl
  exact exec_runMode hg he h hread (by rw [hname, hnone]; rfl)

theorem exec_runMode_manual {v rate : Int} {set : State} (hmanual : enumOf is 2 = some 1) (hv : intOf is 3 = some v)
    (hrate : rate = clampInt v e.minRate e.maxRate)
    (hset : set = { s.popRequest with
      cooler := { s.cooler with
      runs := s.cooler.runs.set g
        { s.cooler.runs[g] with mode := .manual, manualRate := rate.toNat } } }) :
    Machine.exec .runMode s = .next (State.answered
      (if s.cooler.state = .running ∧ (s.cooler.runs[g]).state ≠ .idle then (set.setRate g rate.toNat).finish
       else set) number 0x18#8 (if rate = v then Answer.ok else Answer.clampedTo rate)) := by
  have hname : needName is 2 modes = some .manual := by rw [needName, hmanual]; rfl
  subst hset hrate
  exact exec_runMode hg he h hread (by rw [hname, hv]; rfl)

end requests

end

/-- Settles O50: the law as the rate that is set; RUN_RESET and RUN_MODE by the state and the mode of the run. -/
theorem runRequests : Obligations.RunRequests := by
  unfold Obligations.RunRequests
  intro s number args is g refusal hg hrefusal
  simp only [hrefusal]
  refine ⟨fun e p raw => lawRate_eq e, fun e he => ⟨State.applyLaw_taken he, State.applyLaw_idle he,
      State.setRate_spec he⟩,
    fun h hread => ⟨fun he => ?resetUnused, fun e he => ⟨(exec_runReset hg he h hread).1, fun hst => ?resets⟩⟩,
    fun h hread => ⟨fun he => ?modeUnused,
    fun e he => ⟨exec_runMode_auto hg he h hread, exec_runMode_noRate hg he h hread,
      fun v rate set => exec_runMode_manual hg he h hread⟩⟩⟩
  case resetUnused => exact h.exec_of_handler rfl (answering_eq hread (withRun_none hg (s := s.popRequest) he _) number)
  case modeUnused => exact h.exec_of_handler rfl (answering_eq hread (withRun_none hg (s := s.popRequest) he _) number)
  case resets =>
    obtain ⟨hsafe, hmanual, hauto⟩ := s.ruledRate_cases g e (s.cooler.runs[g]).rate
    refine ⟨_, hsafe, hmanual, hauto, ((exec_runReset hg he h hread).2 hst).trans ?_⟩
    rw [State.restart_eq (s := s.popRequest) he]
    rfl

end Sys2Proof.Machine
end

section
/-!
PROOFS. The evaluation of the zones at a round mark, and the red-river time (R104, R105).
-/
namespace Sys2Proof.Machine

section
variable {s : State}

/-! ### One zone (R104) -/

/-- R104: a zone that is not active counts the evaluations at which its difference is large enough. -/
theorem Zone.evaluate_inactive {x : Zone} (e : ZoneEntry) (d : Int) (h : x.active = false) :
    (d < e.delta → x.evaluate e d = { x with onRun := 0, diff := d }) ∧
    (e.delta ≤ d → x.onRun + 1 < e.persist → x.evaluate e d = { x with onRun := x.onRun + 1, diff := d }) ∧
    (e.delta ≤ d → e.persist ≤ x.onRun + 1 →
      x.evaluate e d = { x with active := true, onRun := 0, offRun := 0, diff := d }) := by
  have hoff : ¬ x.active = true := Bool.eq_false_iff.1 h
  refine ⟨fun hd => ?_, fun hd hrun => ?_, fun hd hrun => ?_⟩
  · rw [Zone.evaluate, if_neg hoff, if_neg (not_le.2 hd)]
  · rw [Zone.evaluate, if_neg hoff, if_pos hd, if_neg (Nat.not_le.2 hrun)]
  · rw [Zone.evaluate, if_neg hoff, if_pos hd, if_pos hrun]

/-- R104: an active zone counts the evaluations at which its difference is below the hysteresis. -/
theorem Zone.evaluate_active {x : Zone} (e : ZoneEntry) (d : Int) (h : x.active = true) :
    (e.delta - e.hysteresis ≤ d → x.evaluate e d = { x with offRun := 0, diff := d }) ∧
    (d < e.delta - e.hysteresis → x.offRun + 1 < e.persist →
      x.evaluate e d = { x with offRun := x.offRun + 1, diff := d }) ∧
    (d < e.delta - e.hysteresis → e.persist ≤ x.offRun + 1 →
      x.evaluate e d = { x with active := false, onRun := 0, offRun := 0, diff := d }) := by
  refine ⟨fun hd => ?_, fun hd hrun => ?_, fun hd hrun => ?_⟩
  · rw [Zone.evaluate, if_pos h, if_neg (not_lt.2 hd)]
  · rw [Zone.evaluate, if_pos h, if_pos hd, if_neg (Nat.not_le.2 hrun)]
  · rw [Zone.evaluate, if_pos h, if_pos hd, if_pos hrun]

/-! ### All zones (R104) -/

theorem State.mem_usedZones {z : Fin 8} : z ∈ s.usedZones ↔ ∃ e, s.zoneEntry? z = some e := by
  simp only [State.usedZones, indices, List.mem_filter, List.mem_finRange, true_and, Option.isSome_iff_exists]

/-- The state after every in-use zone is evaluated against a mean. -/
def State.zonesEvaluated (s : State) (mean : Int) : State :=
  { s with cooler := { s.cooler with
      zones := s.usedZones.foldl (fun (v : Vector Zone 8) (z : Fin 8) => v.set z (evalZone s mean z v[z]))
        s.cooler.zones } }

theorem State.zonesEvaluated_zone (s : State) (mean : Int) (z : Fin 8) : (s.zonesEvaluated mean).cooler.zones[z] =
    if z ∈ s.usedZones then evalZone s mean z s.cooler.zones[z] else s.cooler.zones[z] :=
  foldl_set_get (evalZone s mean) s.usedZones s.cooler.zones ((List.nodup_finRange 8).filter _) z

theorem State.zonesEvaluated_unused (mean : Int) {z : Fin 8} (h : s.zoneEntry? z = none) :
    (s.zonesEvaluated mean).cooler.zones[z] = s.cooler.zones[z] := by
  rw [State.zonesEvaluated_zone, if_neg]
  rw [State.mem_usedZones, h]
  nofun

theorem State.zonesEvaluated_used (mean : Int) {z : Fin 8} {e : ZoneEntry} (h : s.zoneEntry? z = some e) :
    (s.zonesEvaluated mean).cooler.zones[z] = (s.cooler.zones[z]).evaluate e ((s.points[e.point]).value - mean) := by
  have hentry : (s.cooler.zones[z]).entry.filter (·.inUse) = some e := h
  rw [State.zonesEvaluated_zone, if_pos (State.mem_usedZones.2 ⟨e, h⟩), evalZone, hentry]

/-- R104: the mean of the values of the in-use zones. -/
theorem State.zoneMean_eq {value : Fin 8 → Int}
    (hvalue : ∀ z e, s.zoneEntry? z = some e → value z = (s.points[e.point]).value) :
    s.zoneMean = ((s.usedZones.map value).sum).tdiv s.usedZones.length := by
  have hmap : (s.usedZones.map fun z => ((s.zoneEntry? z).map fun e => (s.points[e.point]).value).getD 0) =
      s.usedZones.map value := by
    refine List.map_congr_left fun z hz => ?_
    obtain ⟨e, he⟩ := State.mem_usedZones.1 hz
    rw [he, hvalue z e he]
    rfl
  rw [State.zoneMean, hmap, truncatedDiv]

/-- R104: every in-use zone has a GOOD point. -/
theorem State.zonesGood_iff (s : State) :
    (s.usedZones.all fun z => (s.zoneEntry? z).any fun e => s.pointGood e.point) = true ↔
      ∀ z e, s.zoneEntry? z = some e → s.pointQuality e.point = .good := by
  simp only [List.all_eq_true, State.mem_usedZones, Option.any_eq_true, State.pointGood, beq_iff_eq]
  constructor
  · intro h z e he
    obtain ⟨e', he', hgood⟩ := h z ⟨e, he⟩
    obtain rfl : e = e' := Option.some_inj.1 (he.symm.trans he')
    exact hgood
  · exact fun h z ⟨e, he⟩ => ⟨e, he, h z e he⟩

theorem State.evaluateZones_held (h : ∃ z e, s.zoneEntry? z = some e ∧ s.pointQuality e.point ≠ .good) :
    s.evaluateZones = s := by
  refine if_neg fun hall => ?_
  obtain ⟨z, e, he, hbad⟩ := h
  exact hbad (s.zonesGood_iff.1 hall z e he)

theorem State.evaluateZones_good (h : ∀ z e, s.zoneEntry? z = some e → s.pointQuality e.point = .good) :
    s.evaluateZones = (s.zonesEvaluated s.zoneMean).settleRedMark s.anyZoneActive := by
  have hpass := (foldl_eval s s.zoneMean s.usedZones).trans (foldl_zones (evalZone s s.zoneMean) s.usedZones s)
  exact (if_pos (s.zonesGood_iff.2 h)).trans (congrArg (fun u => u.settleRedMark s.anyZoneActive) hpass)

/-! ### The posting mark (R105) -/

theorem State.settleRedMark_same (u : State) : u.settleRedMark u.anyZoneActive = u := by
  rw [State.settleRedMark]
  cases u.anyZoneActive <;> rfl

/-- R105: the first active zone sets the posting mark. -/
theorem State.settleRedMark_begins {u : State} (h : u.anyZoneActive = true) :
    u.settleRedMark false = { u with cooler := { u.cooler with redMark := some u.timeBase } } := by
  rw [State.settleRedMark, h]
  rfl

/-- R105: when no zone is active any more the time since the posting mark is posted. -/
theorem State.settleRedMark_ends {u : State} {t : Time} (h : u.anyZoneActive = false) (ht : u.cooler.redMark = some t) :
    u.settleRedMark true =
      { u with
        cooler := { u.cooler with redMark := none }
        shift := { u.shift with record := { u.shift.record with
          redRiver := add64 u.shift.record.redRiver (u.timeBase - t) } } } := by
  rw [State.settleRedMark, h, State.postRedRiver, ht]
  rfl

end

/-- Settles O51: the zones as one pass over those in use, and the posting mark by the activity before and after it. -/
theorem redRiversFound : Obligations.RedRiversFound := by
  unfold Obligations.RedRiversFound
  intro s zones value mean hzones hvalue hmean
  have hmean : s.zoneMean = mean := by
    subst hzones hmean
    exact State.zoneMean_eq hvalue
  refine ⟨State.evaluateZones_held, fun hgood => ⟨s.zonesEvaluated mean, rfl, fun z => State.zonesEvaluated_unused mean,
    fun z e x d he hx hd => ?zone, ?mark⟩⟩
  case zone =>
    have hd : (s.points[e.point]).value - mean = d := by rw [hd, hvalue z e he]
    subst hx
    simp only [State.zonesEvaluated_used mean he, hd]
    exact ⟨fun h => (Zone.evaluate_inactive e d h).1, fun h => (Zone.evaluate_inactive e d h).2.1,
      fun h => (Zone.evaluate_inactive e d h).2.2, fun h => (Zone.evaluate_active e d h).1,
      fun h => (Zone.evaluate_active e d h).2.1, fun h => (Zone.evaluate_active e d h).2.2⟩
  case mark =>
    rw [State.evaluateZones_good hgood, hmean]
    refine ⟨fun hsame => ?_, fun hbefore hafter => ?_, fun t hbefore hafter ht => ?_⟩
    · rw [hsame, State.settleRedMark_same]
    · rw [hbefore, State.settleRedMark_begins hafter]
      rfl
    · rw [hbefore, State.settleRedMark_ends hafter ht]
      rfl

end Sys2Proof.Machine
end

section
/-!
PROOFS. A command that is lost, and what its owner does about it (R112).
-/
namespace Sys2Proof.Machine

section
variable {s t : State} {e : QueueEntry} {evicted : Bool}

/-- R112: a loss is counted for the queue and for the class of the entry, and posted. -/
def State.lossCounted (s : State) (e : QueueEntry) : State :=
  { s with
    queue := { s.queue with
      overruns := s.queue.overruns + 1
      overrunsTrip := if e.cls = .trip then s.queue.overrunsTrip + 1 else s.queue.overrunsTrip
      overrunsControl := if e.cls = .control then s.queue.overrunsControl + 1 else s.queue.overrunsControl
      overrunsRoutine := if e.cls = .routine then s.queue.overrunsRoutine + 1 else s.queue.overrunsRoutine
      overrun := true, overrunSinceMark := true }
    shift := { s.shift with record := { s.shift.record with overruns := min top32 (s.shift.record.overruns + 1) } } }

theorem CommandQueue.countOverrun_eq (q : CommandQueue) (c : CommandClass) : q.countOverrun c =
    { q with
      overruns := q.overruns + 1
      overrunsTrip := if c = .trip then q.overrunsTrip + 1 else q.overrunsTrip
      overrunsControl := if c = .control then q.overrunsControl + 1 else q.overrunsControl
      overrunsRoutine := if c = .routine then q.overrunsRoutine + 1 else q.overrunsRoutine
      overrun := true, overrunSinceMark := true } := by
  cases c with
  | trip => rfl
  | control => rfl
  | routine => rfl

theorem State.commandLost_eq (s : State) (e : QueueEntry) (evicted : Bool) :
    s.commandLost e evicted = (s.lossCounted e).tellOwner e evicted := by
  rw [State.commandLost, State.modQueue, CommandQueue.countOverrun_eq]
  rfl

/-! ### The owner in the fuel unit (R78, R81) -/

theorem State.tellOwner_line (ho : e.origin = .fuel) (hk : e.kind ≠ .dose) :
    s.tellOwner e evicted = (s.commandLine e.station e.kind).elim s s.tellLineLost := by
  rw [State.tellOwner, ho]
  cases hkind : e.kind with
  | dose => exact absurd hkind hk
  | feed | igniter | stroke | fan | rate => rfl

theorem State.tellOwner_dose (ho : e.origin = .fuel) (hk : e.kind = .dose) :
    s.tellOwner e evicted = (s.commandLine e.station e.kind).elim s s.tellDoseLost := by
  rw [State.tellOwner, ho, hk]

theorem State.tellOwner_noLine (ho : e.origin = .fuel) (hnone : s.commandLine e.station e.kind = none) :
    s.tellOwner e evicted = s := by
  by_cases hk : e.kind = .dose
  · rw [State.tellOwner_dose ho hk, hnone]
    rfl
  · rw [State.tellOwner_line ho hk, hnone]
    rfl

/-- R78: a lost FEED or IGNITER brings the refresh of its line one short of due, unless the line is OUT. -/
theorem State.tellLineLost_cases {l : Fin 6} {x : LineEntry} (hx : s.lineEntry? l = some x) :
    ((s.lines[l]).state = .out → s.tellLineLost l = s) ∧
    ((s.lines[l]).state ≠ .out → s.tellLineLost l =
      { s with lines := s.lines.set l { s.lines[l] with refresh := x.refresh - 1 } }) := by
  have hentry := State.entry_of_lineEntry? hx
  have hset {x y : Line} (h : x = y) :
      ({ s with lines := s.lines.set l x } : State) = { s with lines := s.lines.set l y } :=
    congrArg (fun x => ({ s with lines := s.lines.set l x } : State)) h
  refine ⟨fun hst => ?_, fun hst => ?_⟩
  · refine (hset (if_pos (beq_iff_eq.2 hst))).trans ?_
    simp
  · refine (hset (if_neg (mt beq_iff_eq.1 hst))).trans (hset ?_)
    simp only [hentry]

/-! ### The owner in the cooler unit (R96, R100) -/

theorem State.tellOwner_fan (ho : e.origin = .cooler) (hk : e.kind = .fan) : s.tellOwner e evicted =
    (s.commandCompartment e.station).elim s fun k => s.modCompartment k fun c => { c with refresh := 99 } := by
  rw [State.tellOwner, ho, hk]
  rfl

theorem State.tellOwner_rate (ho : e.origin = .cooler) (hk : e.kind = .rate) : s.tellOwner e evicted =
    (s.commandRun e.station).elim s fun g => s.modRun g fun r => { r with refresh := 99 } := by
  rw [State.tellOwner, ho, hk]
  rfl

theorem State.tellOwner_stroke (ho : e.origin = .cooler) (hk : e.kind = .stroke) :
    s.tellOwner e evicted = (s.commandRun e.station).elim s s.tellStrokeLost := by
  rw [State.tellOwner, ho, hk]

theorem State.tellOwner_noRun (ho : e.origin = .cooler) (hk : e.kind = .rate ∨ e.kind = .stroke)
    (hnone : s.commandRun e.station = none) : s.tellOwner e evicted = s := by
  obtain hk | hk := hk
  · rw [State.tellOwner_rate ho hk, hnone]
    rfl
  · rw [State.tellOwner_stroke ho hk, hnone]
    rfl

/-- R112: an operator's command that is evicted is counted lost. -/
theorem State.tellOwner_passThrough (ho : e.origin = .passThrough) : s.tellOwner e evicted =
    { s with queue := { s.queue with lost := if evicted = true then s.queue.lost + 1 else s.queue.lost } } := by
  rw [State.tellOwner, ho]
  cases evicted <;> rfl

end

/-- Settles O54: a loss is counted and then told to its owner, by origin and kind. -/
theorem lossesTold : Obligations.LossesTold := by
  unfold Obligations.LossesTold
  intro s e evicted t ht
  have ht : s.lossCounted e = t := ht.symm
  have hline : t.commandLine e.station e.kind = s.commandLine e.station e.kind := ht ▸ rfl
  have hrun : t.commandRun e.station = s.commandRun e.station := ht ▸ rfl
  have hfan : t.commandCompartment e.station = s.commandCompartment e.station := ht ▸ rfl
  obtain ⟨hrunSome, hrunNone⟩ := s.commandRun_spec e.station
  obtain ⟨hfanSome, hfanNone⟩ := s.commandCompartment_spec e.station
  rw [State.commandLost_eq, ht]
  refine ⟨fun ho => ⟨fun l x hl hx => ⟨fun hk => ?out, fun hk => ?line, fun hk => ?dose⟩, fun hnone => ?noLine⟩,
    fun ho => ⟨fun hk => ⟨fun k hsome => ?fan, fun hnone => ?noFan⟩,
      fun g hsome => ⟨fun hk => ?rate, fun hk => ?stroke⟩,
      fun hnone hk => ?noRun⟩,
    fun ho => ?passThrough, fun owns howns => ?owner, hrunSome, hrunNone, hfanSome, hfanNone⟩
  case out =>
    rw [State.tellOwner_line ho hk, hline, hl]
    subst ht
    exact (State.tellLineLost_cases (s := s.lossCounted e) hx).1
  case line =>
    rw [State.tellOwner_line ho hk, hline, hl]
    subst ht
    exact (State.tellLineLost_cases (s := s.lossCounted e) hx).2
  case dose =>
    rw [State.tellOwner_dose ho hk, hline, hl]
    subst ht
    rfl
  case noLine => exact State.tellOwner_noLine ho (hline.trans hnone)
  case fan =>
    rw [State.tellOwner_fan ho hk, hfan, hsome]
    subst ht
    rfl
  case noFan =>
    rw [State.tellOwner_fan ho hk, hfan, hnone]
    rfl
  case rate =>
    rw [State.tellOwner_rate ho hk, hrun, hsome]
    subst ht
    rfl
  case stroke =>
    rw [State.tellOwner_stroke ho hk, hrun, hsome]
    subst ht
    rfl
  case noRun => exact State.tellOwner_noRun ho hk (hrun.trans hnone)
  case passThrough =>
    rw [State.tellOwner_passThrough ho]
    subst ht
    rfl
  case owner =>
    have howner (x : LineEntry) : owns x ↔ x.owns e.station e.kind := howns x
    simp only [howner]
    exact s.commandLine_spec e.station e.kind

end Sys2Proof.Machine
end

section
/-!
PROOFS. The commands of an operator: the owner that judges them, and the filter (R82, R98, R114 to R116).
-/
namespace Sys2Proof.Machine

/-! ### OPERATOR_COMMAND (R115) -/

theorem need_of_intOf {is : List Item} {t : Nat} {i : Int} (h : intOf is t = some i) (lo hi : Int) :
    need is t lo hi = if lo ≤ i ∧ i ≤ hi then some i else none := by
  rw [need, h, Option.filter_some]
  simp only [Bool.and_eq_true, decide_eq_true_iff]

theorem needNat_of_intOf {is : List Item} {t lo hi : Nat} {i : Int} (h : intOf is t = some i) (hlow : lo ≤ i)
    (hhigh : i ≤ hi) : needNat is t lo hi = some i.toNat := by
  rw [needNat, need_of_intOf h, if_pos ⟨hlow, hhigh⟩, Option.map_some]

section request
variable {s : State} {number : Byte} {args : List Byte} {is : List Item} {station value : Int} {n : Nat}
  (h : s.offers 0x19#8 number args) (hread : readArgs [intArg, enumArg 6, intArg] args = some is)
  (hstation : intOf is 1 = some station)
include h hread hstation

theorem exec_operatorCommand_badIndex (hout : station < 1 ∨ 60 < station) : Machine.exec .operatorCommand s =
    .next (s.popRequest.answered number 0x19#8 { result := .badIndex }) := by
  have hnone : needNat is 1 1 60 = none := by
    rw [needNat, need_of_intOf hstation, if_neg (by omega), Option.map_none]
  exact h.exec_of_handler rfl (answering_eq hread (by rw [hnone]; rfl) number)

variable (hlow : 1 ≤ station) (hhigh : station ≤ 60)
include hlow hhigh

variable (hkind : enumOf is 2 = some n) (hvalue : intOf is 3 = some value)
include hkind hvalue

theorem exec_operatorCommand_invalid (hbad : 6 ≤ n ∨ value < -2147483648 ∨ 2147483647 < value) :
    Machine.exec .operatorCommand s = .next (s.popRequest.answered number 0x19#8 { result := .invalid }) := by
  have hst := needNat_of_intOf (lo := 1) (hi := 60) hstation hlow hhigh
  refine h.exec_of_handler rfl (answering_eq hread (u := s.popRequest) (a := { result := .invalid }) ?_ number)
  rw [hst]
  obtain hn | hv := hbad
  · have hname : needName is 2 commandKinds = none := by
      rw [needName, hkind]
      exact List.getElem?_eq_none hn
    rw [hname]
    rfl
  · have hneed : need is 3 int32Low int32High = none := by
      rw [need_of_intOf hvalue, if_neg]
      unfold int32Low int32High
      omega
    rw [hneed]
    cases needName is 2 commandKinds <;> rfl

theorem exec_operatorCommand_judged (hmin : -2147483648 ≤ value) (hmax : value ≤ 2147483647) {k : CommandKind}
    (hk : [CommandKind.feed, .dose, .igniter, .stroke, .fan, .rate][n]? = some k) :
    Machine.exec .operatorCommand s = .next (State.answered
      (s.popRequest.operatorCommand station.toNat k value).1.finish number 0x19#8
      (s.popRequest.operatorCommand station.toNat k value).2) := by
  have hst := needNat_of_intOf (lo := 1) (hi := 60) hstation hlow hhigh
  have hname : needName is 2 commandKinds = some k := by rw [needName, hkind]; exact hk
  have hneed : need is 3 int32Low int32High = some value := by rw [need_of_intOf hvalue]; exact if_pos ⟨hmin, hmax⟩
  exact h.exec_of_handler rfl (answering_eq hread (by rw [hst, hname, hneed]) number)

end request

/-- R115: who judges a command. -/
theorem State.operatorCommand_cases (s : State) (st : Nat) (k : CommandKind) (v : Int) :
    (∀ l e, s.lineAt st = some (l, e) → (k = .feed → s.operatorCommand st k v = s.operatorFeed l e v) ∧
      (k ≠ .feed → s.operatorCommand st k v = (s, Answer.check .blocked .owned))) ∧
    (s.lineAt st = none → ∀ g e, s.runAtStation st = some (g, e) →
      (k = .rate → s.operatorCommand st k v = s.operatorRate g e v) ∧
      (k ≠ .rate → s.operatorCommand st k v = (s, Answer.check .blocked .owned))) ∧
    (s.lineAt st = none → s.runAtStation st = none → s.operatorCommand st k v = s.passThrough st k v) := by
  unfold State.operatorCommand
  refine ⟨fun l e hl => ?_, fun hl g e hg => ?_, fun hl hg => ?_⟩
  · rw [hl]
    exact ⟨fun hk => if_pos hk, fun hk => if_neg hk⟩
  · rw [hl, hg]
    exact ⟨fun hk => if_pos hk, fun hk => if_neg hk⟩
  · rw [hl, hg]

/-! ### An operator FEED (R82) -/

section
variable {s : State} {value : Int}

theorem State.operatorFeed_blocked {l : Fin 6} {e : LineEntry} {c : CheckCode}
    (h : s.operatorFeedBlock l e value = some c) : s.operatorFeed l e value = (s, Answer.check .blocked c) := by
  rw [State.operatorFeed, h]

theorem State.operatorFeed_mode {l : Fin 6} {e : LineEntry}
    (h : e.kind.isMetered = false ∨ (s.lines[l]).mode = .auto) :
    s.operatorFeed l e value = (s, Answer.check .blocked .mode) := by
  refine State.operatorFeed_blocked ?_
  rw [State.operatorFeedBlock]
  cases hk : e.kind.isMetered with
  | false => rfl
  | true => exact if_pos (h.resolve_left (by rw [hk]; nofun))

section judged
variable {l : Fin 6} {e : LineEntry} (hmetered : e.kind.isMetered = true) (hmanual : (s.lines[l]).mode = .manual)
include hmetered hmanual

/-- R82: the checks of a metered line in MANUAL. -/
theorem State.operatorFeedBlock_manual : s.operatorFeedBlock l e value =
    if (s.lines[l]).state = .out ∨ (s.lines[l]).state = .fault then some .lineState
    else if (s.burners[e.burner]).state ≠ .run then some .burner
    else if value < 0 then some .value
    else none := by
  rw [State.operatorFeedBlock, if_neg (by rw [hmetered]; nofun), if_neg (by rw [hmanual]; nofun)]

theorem State.operatorFeed_lineState (hst : (s.lines[l]).state = .out ∨ (s.lines[l]).state = .fault) :
    s.operatorFeed l e value = (s, Answer.check .blocked .lineState) :=
  State.operatorFeed_blocked ((State.operatorFeedBlock_manual hmetered hmanual).trans (if_pos hst))

variable (hout : (s.lines[l]).state ≠ .out) (hfault : (s.lines[l]).state ≠ .fault)
include hout hfault

theorem State.operatorFeed_burner (hrun : (s.burners[e.burner]).state ≠ .run) :
    s.operatorFeed l e value = (s, Answer.check .blocked .burner) :=
  State.operatorFeed_blocked ((State.operatorFeedBlock_manual hmetered hmanual).trans
    ((if_neg (not_or.2 ⟨hout, hfault⟩)).trans (if_pos hrun)))

variable (hrun : (s.burners[e.burner]).state = .run)
include hrun

theorem State.operatorFeed_value (hneg : value < 0) :
    s.operatorFeed l e value = (s, Answer.check .blocked .value) :=
  State.operatorFeed_blocked ((State.operatorFeedBlock_manual hmetered hmanual).trans
    ((if_neg (not_or.2 ⟨hout, hfault⟩)).trans ((if_neg (not_not.2 hrun)).trans (if_pos hneg))))

theorem State.operatorFeed_taken (hpos : 0 ≤ value) {m : Metering} (hm : e.kind.metering? = some m) {feed : Int}
    (hfeed : (operatorFeedValue m value.toNat (s.burnerHeld e.burner) (s.lines[l]).feed : Int) = feed) :
    s.operatorFeed l e value = (s.changeFeed l feed.toNat,
      if feed = value then { result := .passed } else Answer.clampedTo feed) := by
  have hnone : s.operatorFeedBlock l e value = none := (State.operatorFeedBlock_manual hmetered hmanual).trans
    ((if_neg (not_or.2 ⟨hout, hfault⟩)).trans ((if_neg (not_not.2 hrun)).trans (if_neg (not_lt.2 hpos))))
  subst hfeed
  rw [State.operatorFeed, hnone, hm]
  rfl

end judged

/-- R82: the value within the limits of the line, and not above the present feed while the burner is held. -/
theorem operatorFeedValue_eq (m : Metering) (hpos : 0 ≤ value) (held : Bool) (c : Nat) {limited feed : Int}
    (hlimited : limited = (if value = 0 then 0 else if value < m.fmin then (m.fmin : Int)
      else if m.fmax < value then (m.fmax : Int) else value))
    (hfeed : feed = (if held = true ∧ (c : Int) < limited then (c : Int) else limited)) :
    (operatorFeedValue m value.toNat held c : Int) = feed := by
  have hclamp : ((if value.toNat = 0 then 0 else clampNat value.toNat m.fmin m.fmax : Nat) : Int) = limited := by
    subst hlimited
    unfold clampNat
    split_ifs <;> omega
  subst hfeed
  rw [← hclamp, operatorFeedValue]
  simp only [Bool.and_eq_true, decide_eq_true_iff, Nat.cast_lt]
  split_ifs <;> rfl

/-! ### An operator RATE (R98) -/

section rate
variable {g : Fin 4} {e : RunEntry}

theorem State.operatorRate_auto (hauto : (s.cooler.runs[g]).mode = .auto) :
    s.operatorRate g e value = (s, Answer.check .blocked .mode) := if_pos hauto

variable (hmanual : (s.cooler.runs[g]).mode = .manual)
include hmanual

theorem State.operatorRate_not_auto : ¬ (s.runAt g).mode = .auto := fun h => nomatch hmanual.symm.trans h

theorem State.operatorRate_cooler (hst : s.cooler.state ≠ .running) :
    s.operatorRate g e value = (s, Answer.check .blocked .cooler) :=
  (if_neg (State.operatorRate_not_auto hmanual)).trans (if_pos hst)

theorem State.operatorRate_value (hst : s.cooler.state = .running) (hneg : value < 0) :
    s.operatorRate g e value = (s, Answer.check .blocked .value) :=
  (if_neg (State.operatorRate_not_auto hmanual)).trans ((if_neg (not_not.2 hst)).trans (if_pos hneg))

theorem State.operatorRate_taken (hst : s.cooler.state = .running) (hpos : 0 ≤ value) {rate : Nat}
    (hlimits : e.minRate ≤ e.maxRate) (hrate : rate = max e.minRate (min e.maxRate value.toNat)) {set : State}
    (hset : set = { s with cooler := { s.cooler with
      runs := s.cooler.runs.set g { s.cooler.runs[g] with manualRate := rate } } }) :
    s.operatorRate g e value =
      (if (s.cooler.runs[g]).state = .stroking then set.setRate g rate else set,
        if (rate : Int) = value then { result := .passed } else Answer.clampedTo rate) := by
  have hclamp : clampInt value e.minRate e.maxRate = rate := by
    unfold clampInt
    split_ifs <;> omega
  rw [State.operatorRate, if_neg (State.operatorRate_not_auto hmanual), if_neg (not_not.2 hst), if_neg (not_lt.2 hpos),
    hclamp]
  subst hset
  rfl

end rate

/-! ### The filter (R114, R116) -/

section filter
variable {station : Nat} {k : CommandKind}

theorem State.passThrough_blocked {c : CheckCode} (h : s.filterValue station k value = .error c) :
    s.passThrough station k value = (s, Answer.check .blocked c) := by
  rw [State.passThrough, h]

/-- R116: a value that the filter admits is proposed in ROUTINE class. -/
theorem State.passThrough_admitted {v : Nat} {p : Proposal} (h : s.filterValue station k value = .ok (v : Int))
    (hp : p = { station := station, kind := k, value := v, cls := .routine, origin := .passThrough }) :
    s.passThrough station k value = (s.propose p,
      if (s.queue.list.length < 32 ∨ (k.isLevel = true ∧ ∃ e ∈ s.queue.list, e.station = station ∧ e.kind = k))
      then (if (v : Int) = value then { result := .passed } else Answer.clampedTo v)
      else Answer.check .blocked .queueFull) := by
  have hdrop := s.wouldDrop_routine p (by rw [hp])
  subst hp
  rw [State.passThrough, h]
  by_cases hroom : s.queue.list.length < 32 ∨
      (k.isLevel = true ∧ ∃ e ∈ s.queue.list, e.station = station ∧ e.kind = k)
  · rw [if_pos hroom]
    exact congrArg (Prod.mk _) (if_neg (by rw [Int.toNat_natCast, hdrop, decide_eq_true hroom]; nofun))
  · rw [if_neg hroom]
    exact congrArg (Prod.mk _) (if_pos (by rw [Int.toNat_natCast, hdrop, decide_eq_false hroom]; rfl))

theorem State.filterValue_station (h : s.onActiveList station = false) :
    s.filterValue station k value = .error .station := if_pos (by rw [h]; rfl)

theorem State.filterValue_listed (h : s.onActiveList station = true) : s.filterValue station k value =
    match s.filterAction station k with
    | .block => .error .filter
    | .pass => if 0 ≤ value ∧ value ≤ 65535 then .ok value else .error .value
    | .clamp lo hi => .ok (clampInt value lo hi) :=
  if_neg (by rw [h]; nofun)

end filter

end

/-- Settles O55: the request by its checks, the FEED and the RATE by those of their owner, and every other command by
the action of the filter. -/
theorem operatorCommands : Obligations.OperatorCommands := by
  unfold Obligations.OperatorCommands
  refine ⟨?request, fun s value => ⟨fun l e => ?feed, fun g e => ⟨State.operatorRate_auto, fun hmanual =>
    ⟨State.operatorRate_cooler hmanual, State.operatorRate_value hmanual, fun hst hpos rate hlimits hrate set hset =>
      State.operatorRate_taken hmanual hst hpos hlimits hrate hset⟩⟩⟩, ?filter⟩
  case request =>
    intro s number args is station value n h hread hstation hkind hvalue
    refine ⟨exec_operatorCommand_badIndex h hread hstation, fun hlow hhigh =>
        exec_operatorCommand_invalid h hread hstation hlow hhigh hkind hvalue, fun hlow hhigh hmin hmax k hk => ⟨_,
          exec_operatorCommand_judged h hread hstation hlow hhigh hkind hvalue hmin hmax hk,
          s.popRequest.operatorCommand_cases station.toNat k value⟩, fun st => ?_⟩
    exact ⟨(s.lineAt_spec st).1, (s.lineAt_spec st).2, (s.runAtStation_spec st).1, (s.runAtStation_spec st).2⟩
  case feed =>
    refine ⟨State.operatorFeed_mode, fun hmetered hmanual => ⟨State.operatorFeed_lineState hmetered hmanual,
      fun hout hfault => ⟨State.operatorFeed_burner hmetered hmanual hout hfault,
        State.operatorFeed_value hmetered hmanual hout hfault, fun hrun hpos m limited feed hm hlimited hfeed => ?_⟩⟩⟩
    exact State.operatorFeed_taken hmetered hmanual hout hfault hrun hpos hm
      (operatorFeedValue_eq m hpos _ _ hlimited hfeed)
  case filter =>
    intro s station k value blocked proposal admitted hblocked hproposal hadmitted
    have hadmits {v : Nat} (h : s.filterValue station k value = .ok (v : Int)) :
        s.passThrough station k value = admitted v :=
      (State.passThrough_admitted h (hproposal v)).trans (hadmitted v).symm
    have hblocks {c : CheckCode} (h : s.filterValue station k value = .error c) :
        s.passThrough station k value = blocked c := (State.passThrough_blocked h).trans (hblocked c).symm
    refine ⟨fun hout => hblocks (State.filterValue_station hout), fun hin => ⟨fun hnone => hblocks ?unnamed,
      fun i e hi huse hst hkind hone => ?named⟩⟩
    case unnamed => rw [State.filterValue_listed hin, s.filterAction_none station k hnone]
    case named =>
      have hvalue := State.filterValue_listed (k := k) (value := value) hin
      rw [s.filterAction_of station k i e hi huse hst hkind hone] at hvalue
      refine ⟨fun hact => hblocks ?_, fun hact hbad => hblocks ?_, fun hact hpos hmax => hadmits ?_,
        fun lo hi hact hlimits => ⟨fun hlow => hadmits ?_, fun hhigh => hadmits ?_, fun hlow hhigh => hadmits ?_⟩⟩
      · rw [hvalue, hact]
      · rw [hvalue, hact]
        exact if_neg (by omega)
      · rw [hvalue, hact, Int.toNat_of_nonneg hpos]
        exact if_pos ⟨hpos, hmax⟩
      · rw [hvalue, hact]
        exact congrArg Except.ok (if_pos hlow)
      · rw [hvalue, hact]
        exact congrArg Except.ok ((if_neg (by omega)).trans (if_pos hhigh))
      · rw [hvalue, hact, Int.toNat_of_nonneg (by omega)]
        exact congrArg Except.ok ((clampInt_eq_self_iff value lo hi).2 ⟨hlow, hhigh⟩)

end Sys2Proof.Machine
end

section
/-!
PROOFS. The changes of state of an alarm entry, and its entry to RAISED (R121, R123, R129, R130, R134, R136).
-/
namespace Sys2Proof.Machine

section
variable {s : State} {a : Fin 192} {e : AlarmEntry}

/-! ### A change of an entry -/

@[simp] theorem State.alarmAt_modAlarm (s : State) (a : Fin 192) (f : Alarm → Alarm) :
    (s.modAlarm a f).alarmAt a = f s.alarm.alarms[a] := by
  simp [State.alarmAt, State.modAlarm, State.modAlarmUnit]

/-- Two changes of an entry are one. -/
theorem State.modAlarm_modAlarm (s : State) (a : Fin 192) (f f' : Alarm → Alarm) :
    (s.modAlarm a f).modAlarm a f' = s.modAlarm a fun x => f' (f x) := by
  simp [State.modAlarm, State.modAlarmUnit]

theorem filter_bne_eq (l : List (Fin 192)) (a : Fin 192) : l.filter (· != a) = l.filter (· ≠ a) :=
  List.filter_congr fun x _ => by rw [Bool.eq_iff_iff, bne_iff_ne, decide_eq_true_iff]

/-- R121, R129, R130, R136: every change of state but the entry to RAISED. -/
theorem State.alarmTo_eq (s : State) (a : Fin 192) (e : AlarmEntry) (st : AlarmState) {value : Int}
    (hvalue : value = s.sourceValue e.source (s.alarm.alarms[a]).reported) : s.alarmTo a e st =
      State.reportAlarmHolds (State.notice
        { s with alarm := { s.alarm with
            alarms := s.alarm.alarms.set a { s.alarm.alarms[a] with state := st, lastValue := value }
            raisedList := s.alarm.raisedList.filter (· ≠ a) } } a) := by
  subst hvalue
  rw [State.alarmTo, State.recordValue, State.modAlarm_modAlarm, ← filter_bne_eq]
  rfl

/-! ### The raised list (R130) -/

/-- R130: what the raised list is ordered by: priority, raise time and number. -/
def State.raisedKey (u : State) (x : Fin 192) : Nat × Nat × Nat :=
  (((u.alarm.alarms[x]).entry.map (·.priority)).getD 0, ((u.alarm.alarms[x]).raiseTime).getD 0, x.val)

/-- R130: the order of the keys. -/
def keyBefore (x y : Nat × Nat × Nat) : Prop :=
  x.1 < y.1 ∨ (x.1 = y.1 ∧ (x.2.1 < y.2.1 ∨ (x.2.1 = y.2.1 ∧ x.2.2 < y.2.2)))

theorem State.raisedBefore_iff (u : State) (x y : Fin 192) :
    u.raisedBefore x y = true ↔ keyBefore (u.raisedKey x) (u.raisedKey y) := by
  simp only [State.raisedBefore, Bool.or_eq_true, Bool.and_eq_true, decide_eq_true_iff, beq_iff_eq]
  rfl

/-- R130: an alarm takes its place in the raised list. -/
theorem State.joinRaised_split {u : State} {first last : List (Fin 192)} (hlist : u.alarm.raisedList = first ++ last)
    (hfirst : ∀ x ∈ first, ¬ keyBefore (u.raisedKey a) (u.raisedKey x))
    (hlast : ∀ x ∈ last.head?, keyBefore (u.raisedKey a) (u.raisedKey x)) :
    u.joinRaised a = { u with alarm := { u.alarm with raisedList := first ++ a :: last } } := by
  have hplace : u.placeRaised a u.alarm.raisedList = first ++ a :: last := by
    rw [hlist]
    refine State.placeRaised_split u a first last (fun x hx => ?_) fun x hx => (u.raisedBefore_iff a x).2 (hlast x hx)
    exact Bool.eq_false_iff.2 fun h => hfirst x hx ((u.raisedBefore_iff a x).1 h)
  rw [State.joinRaised, State.modAlarmUnit, hplace]

/-! ### The entry to RAISED (R123, R134) -/

/-- R123: what a raise records of the entry itself. -/
def Alarm.raisedNow (x : Alarm) (now : Time) (value : Int) : Alarm :=
  { x with
    state := .raised, occurrence := x.occurrence + 1, raiseTime := some now
    ackTime := none, onDelay := none, lastValue := value }

/-- R134: the capture records after the raise of alarm `a`. -/
def State.capturesRaised (s : State) (a : Fin 192) : Option (Fin 4) → Vector CaptureRecord 4
  | none => s.alarm.captures
  | some g => s.alarm.captures.set g
    (if (s.alarm.captures[g]).armed = true then
      { armed := false, followers := 0
        first := some
          { alarm := a, occurrence := (s.alarm.alarms[a]).occurrence + 1, time := s.timeBase
            dayClock := s.dayClock, roundNo := s.floor.roundNo, snapshot := s.snapshot g } }
    else { s.alarm.captures[g] with followers := min 255 ((s.alarm.captures[g]).followers + 1) })

/-- R123: what the raise of alarm `a` records, but for its place in the raised list. -/
def State.raisedEntry (s : State) (a : Fin 192) (e : AlarmEntry) (i : Fin 4) (value : Int) : State :=
  { s with
    alarm := { s.alarm with
      alarms := s.alarm.alarms.set a ((s.alarm.alarms[a]).raisedNow s.timeBase value)
      silenced := if e.horn = true then false else s.alarm.silenced
      captures := s.capturesRaised a e.group }
    shift := { s.shift with record := { s.shift.record with
      raised := s.shift.record.raised.set i (min top32 (s.shift.record.raised[i] + 1)) } } }

/-- R131: a raise of a horn-routed entry clears the silenced flag. -/
theorem State.clearSilenced_eq (u : State) (b : Bool) :
    (if b then u.modAlarmUnit fun x => { x with silenced := false } else u) =
      { u with alarm := { u.alarm with silenced := if b = true then false else u.alarm.silenced } } := by
  cases b <;> rfl

/-- R134: an entry of a group offers its raise to the capture record. -/
def State.offerGroup (u : State) (a : Fin 192) : Option (Fin 4) → State
  | some g => u.offerFirstOut a g
  | none => u

theorem State.offerGroup_eq {u s : State} {a : Fin 192} (group : Option (Fin 4))
    (hcaptures : u.alarm.captures = s.alarm.captures)
    (hcapture : ∀ g, u.captureOf a g =
      { alarm := a, occurrence := (s.alarm.alarms[a]).occurrence + 1, time := s.timeBase
        dayClock := s.dayClock, roundNo := s.floor.roundNo, snapshot := s.snapshot g }) :
    u.offerGroup a group = { u with alarm := { u.alarm with captures := s.capturesRaised a group } } := by
  cases group with
  | none =>
    dsimp only [State.capturesRaised, State.offerGroup]
    rw [← hcaptures]
  | some g =>
    dsimp only [State.capturesRaised, State.offerGroup, State.offerFirstOut, State.modAlarmUnit]
    rw [hcapture g, hcaptures]
    rfl

theorem State.postRaised_eq (u : State) {priority : Nat} {i : Fin 4} (hi : priority = i.val + 1) :
    u.postRaised priority =
    { u with shift := { u.shift with record := { u.shift.record with
        raised := u.shift.record.raised.set i (min top32 (u.shift.record.raised[i] + 1)) } } } := by
  have hindex : objectIndex 4 1 (priority : Int) = some i := by
    rw [hi]
    exact objectIndex_one i
  rw [State.postRaised, hindex]
  rfl

/-- R123: a raise, step by step. -/
theorem State.raise_steps (s : State) (a : Fin 192) (e : AlarmEntry) : s.raise a e =
    State.act (State.reportAlarmHolds (State.notice (State.postRaised (State.offerGroup
      (if e.horn then
        ((((s.recordValue a e.source).modAlarm a fun x => x.newOccurrence s.timeBase).leaveRaised a).joinRaised
          a).modAlarmUnit fun x => { x with silenced := false }
      else (((s.recordValue a e.source).modAlarm a fun x => x.newOccurrence s.timeBase).leaveRaised a).joinRaised a)
      a e.group) e.priority) a)) a e.action := rfl

/-- R123: the entry to RAISED. -/
theorem State.raise_eq {i : Fin 4} (hi : e.priority = i.val + 1) {value : Int}
    (hvalue : value = s.sourceValue e.source (s.alarm.alarms[a]).reported) {raised : State}
    (hraised : raised = s.raisedEntry a e i value) {first last : List (Fin 192)}
    (hlist : s.alarm.raisedList.filter (· ≠ a) = first ++ last)
    (hfirst : ∀ x ∈ first, ¬ keyBefore (raised.raisedKey a) (raised.raisedKey x))
    (hlast : ∀ x ∈ last.head?, keyBefore (raised.raisedKey a) (raised.raisedKey x)) :
    s.raise a e = State.act (State.reportAlarmHolds (State.notice
      { raised with alarm := { raised.alarm with raisedList := first ++ a :: last } } a)) a e.action := by
  have hentry : (s.recordValue a e.source).modAlarm a (fun x => x.newOccurrence s.timeBase) =
      { s with alarm := { s.alarm with
          alarms := s.alarm.alarms.set a ((s.alarm.alarms[a]).raisedNow s.timeBase value) } } := by
    rw [hvalue, State.recordValue, State.modAlarm_modAlarm]
    rfl
  have hjoin : (((s.recordValue a e.source).modAlarm a fun x =>
      x.newOccurrence s.timeBase).leaveRaised a).joinRaised a =
      { s with alarm := { s.alarm with
          alarms := s.alarm.alarms.set a ((s.alarm.alarms[a]).raisedNow s.timeBase value)
          raisedList := first ++ a :: last } } := by
    rw [hentry]
    subst hraised
    exact State.joinRaised_split ((filter_bne_eq _ a).trans hlist) hfirst hlast
  rw [State.raise_steps, hjoin, State.clearSilenced_eq, State.offerGroup_eq (s := s) e.group ?captures ?capture,
    State.postRaised_eq _ hi, hraised]
  case captures => rfl
  case capture =>
    intro g
    simp only [State.captureOf, State.alarmAt, Fin.getElem_fin, Vector.getElem_set_self]
    rfl
  rfl

end

end Sys2Proof.Machine
end

section
/-!
PROOFS. The conditions of alarm entries as they rise and fall, and the expiries of their timers (R121, R122, R124, R125,
R128).
-/
namespace Sys2Proof.Machine

section
variable {s : State} {a : Fin 192} {e : AlarmEntry}

/-! ### A condition that changes (R121) -/

theorem State.visitCondition_changes {u : State}
    (hnew : s.sourceHolds e.source (s.alarm.alarms[a]).condition ≠ (s.alarm.alarms[a]).condition)
    (hu : u = { s with alarm := { s.alarm with
      alarms := s.alarm.alarms.set a
        { s.alarm.alarms[a] with
          condition := !(s.alarm.alarms[a]).condition
          reported := s.reportedValue e.source (s.alarm.alarms[a]).reported } } }) :
    s.visitCondition a e =
      if (s.alarm.alarms[a]).condition = false then u.conditionRises a e else u.conditionFalls a e := by
  have hcond : s.sourceHolds e.source (s.alarmAt a).condition = !(s.alarm.alarms[a]).condition :=
    Bool.eq_not_of_ne hnew
  subst hu
  rw [State.visitCondition, hcond]
  dsimp only
  rw [if_neg (by rw [← hcond]; exact hnew)]
  cases hc : (s.alarm.alarms[a]).condition with
  | false => rfl
  | true => rfl

theorem State.visitCondition_same
    (hsame : s.sourceHolds e.source (s.alarm.alarms[a]).condition = (s.alarm.alarms[a]).condition) :
    s.visitCondition a e = s := if_pos hsame

theorem State.visitAlarm_condition (he : s.alarmEntry? a = some e) : s.visitAlarm false a = s.visitCondition a e := by
  rw [State.visitAlarm, he]
  rfl

/-- R125: an orphan is raised. -/
theorem State.visitAlarm_orphan (he : s.alarmEntry? a = some e) : s.visitAlarm true a = s.raise a e := by
  rw [State.visitAlarm, he]
  rfl

/-! ### Suppression (R122, R125) -/

theorem State.orphaned_iff (s : State) (a : Fin 192) (e : AlarmEntry) : s.orphaned a e = true ↔
    (s.alarm.alarms[a]).state = .suppressed ∧ (s.alarm.alarms[a]).condition = true ∧ s.parentActive e = false := by
  simp only [State.orphaned, Bool.and_eq_true, beq_iff_eq, Bool.not_eq_true', and_assoc]
  rfl

theorem State.parentActive_iff (s : State) (e : AlarmEntry) : s.parentActive e = true ↔
    ∃ p y, e.parent = some p ∧ s.alarmEntry? p = some y ∧ ((s.alarm.alarms[p]).state = .raised ∨
      (s.alarm.alarms[p]).state = .held ∨ (s.alarm.alarms[p]).state = .suppressed) := by
  simp only [State.parentActive, Option.any_eq_true, Bool.and_eq_true, Option.isSome_iff_exists, AlarmState.active_iff]
  constructor
  · rintro ⟨p, hp, ⟨y, hy⟩, hst⟩
    exact ⟨p, y, hp, hy, hst⟩
  · rintro ⟨p, y, hp, hy, hst⟩
    exact ⟨p, hp, ⟨y, hy⟩, hst⟩

/-! ### Rising and falling by the state of the entry (R122, R124) -/

/-- R122: an entry in NORMAL whose condition rises waits for its on-delay; one whose condition falls waits no more. -/
theorem State.condition_normal (h : (s.alarm.alarms[a]).state = .normal) :
    s.conditionFalls a e = s.modAlarm a (fun x => { x with onDelay := none }) ∧
    (∀ t, (s.alarm.alarms[a]).onDelay = some t → s.conditionRises a e = s) ∧
    ((s.alarm.alarms[a]).onDelay = none → e.onDelay = 0 → s.conditionRises a e = s.onDelayEnds a e) ∧
    ((s.alarm.alarms[a]).onDelay = none → e.onDelay ≠ 0 → s.conditionRises a e =
      s.modAlarm a fun x => { x with onDelay := some (s.timeBase + e.onDelay) }) := by
  have hst : (s.alarmAt a).state = .normal := h
  have hwait : (s.alarmAt a).onDelay = (s.alarm.alarms[a]).onDelay := rfl
  rw [State.conditionRises, State.conditionFalls, hst, hwait]
  refine ⟨rfl, fun t ht => ?_, fun hnone hzero => ?_, fun hnone hdelay => ?_⟩
  · rw [ht]
    rfl
  · rw [hnone]
    exact if_pos hzero
  · rw [hnone]
    exact if_neg hdelay

theorem State.conditionRises_returned (h : (s.alarm.alarms[a]).state = .returned) :
    s.conditionRises a e = s.raise a e := by
  have hst : (s.alarmAt a).state = .returned := h
  rw [State.conditionRises, hst]

theorem State.conditionFalls_raised (h : (s.alarm.alarms[a]).state = .raised) :
    s.conditionFalls a e = s.alarmTo a e .returned := by
  have hst : (s.alarmAt a).state = .raised := h
  rw [State.conditionFalls, hst]

/-- R124, R125: an entry that is acknowledged or SUPPRESSED. -/
theorem State.condition_quiet (h : (s.alarm.alarms[a]).state = .held ∨ (s.alarm.alarms[a]).state = .suppressed) :
    s.conditionFalls a e = s.alarmTo a e .normal ∧ s.conditionRises a e = s := by
  rw [State.conditionFalls, State.conditionRises]
  obtain h | h := h
  · have hst : (s.alarmAt a).state = .held := h
    rw [hst]
    exact ⟨rfl, rfl⟩
  · have hst : (s.alarmAt a).state = .suppressed := h
    rw [hst]
    exact ⟨rfl, rfl⟩

theorem State.condition_shelved (h : (s.alarm.alarms[a]).state = .shelved) :
    s.conditionRises a e = s ∧ s.conditionFalls a e = s := by
  have hst : (s.alarmAt a).state = .shelved := h
  rw [State.conditionFalls, State.conditionRises, hst]
  exact ⟨rfl, rfl⟩

/-! ### The end of a shelve, and the timers (R122, R128) -/

theorem State.shelveEnds_cases {u : State} (hu : u = s.modAlarm a fun x => { x with shelve := none }) :
    ((s.alarm.alarms[a]).condition = false → s.shelveEnds a e = u.alarmTo a e .normal) ∧
    ((s.alarm.alarms[a]).condition = true → s.shelveEnds a e =
      if u.parentActive e = true then u.alarmTo a e .suppressed else u.raise a e) := by
  have hends : s.shelveEnds a e = if (s.alarm.alarms[a]).condition = true then
      if u.parentActive e then u.alarmTo a e .suppressed else u.raise a e
      else u.alarmTo a e .normal := by
    rw [State.shelveEnds, State.alarmAt_modAlarm, hu]
  rw [hends]
  exact ⟨fun hc => if_neg (Bool.eq_false_iff.1 hc), fun hc => if_pos hc⟩

theorem State.onDelayExpiry_some {t : Time} (he : s.alarmEntry? a = some e)
    (ht : (s.alarm.alarms[a]).onDelay = some t) :
    s.onDelayExpiry a = State.onDelayEnds { s with timeBase := max s.timeBase t } a e := by
  have ht : (s.alarmAt a).onDelay = some t := ht
  rw [State.onDelayExpiry, ht, he]
  rfl

theorem State.onDelayExpiry_none (ht : (s.alarm.alarms[a]).onDelay = none) : s.onDelayExpiry a = s := by
  have ht : (s.alarmAt a).onDelay = none := ht
  rw [State.onDelayExpiry, ht]

theorem State.shelveExpiry_some {t : Time} (he : s.alarmEntry? a = some e)
    (ht : (s.alarm.alarms[a]).shelve = some t) :
    s.shelveExpiry a = State.shelveEnds { s with timeBase := max s.timeBase t } a e := by
  have ht : (s.alarmAt a).shelve = some t := ht
  rw [State.shelveExpiry, ht, he]
  rfl

theorem State.shelveExpiry_none (ht : (s.alarm.alarms[a]).shelve = none) : s.shelveExpiry a = s := by
  have ht : (s.alarmAt a).shelve = none := ht
  rw [State.shelveExpiry, ht]

end

/-- R134: what a first-out record keeps of a group's points. -/
theorem State.snapshot_cases (s : State) (g : Fin 4) :
    ((∀ x, s.alarm.groups[g] = some x → x.inUse = false) → s.snapshot g = []) ∧
    ∀ x, s.alarm.groups[g] = some x → x.inUse = true → s.snapshot g = x.points.map fun p =>
      { point := p, value := if s.pointEntry? p = none then 0 else (s.points[p]).value
        quality := if s.pointEntry? p = none then .unset else (s.points[p]).quality } :=
  ⟨s.snapshot_off g, s.snapshot_on g⟩

/-- Settles O56: a change of state as one change of the entry; a condition by the state of its entry; a timer by what
its end does. -/
theorem alarmsChangeState : Obligations.AlarmsChangeState := by
  unfold Obligations.AlarmsChangeState
  refine ⟨?moves, ?conditions, ?timers⟩
  case moves =>
    intro s a e value key before hvalue hkey hbefore
    have hvalue : value = s.sourceValue e.source (s.alarm.alarms[a]).reported := by
      rw [hvalue]
      cases e.source <;> rfl
    refine ⟨fun st => s.alarmTo_eq a e st hvalue, fun raised he i hi hraised first last hlist hfirst hlast => ?_,
      s.snapshot_cases, rfl, s.reportAlarmHolds_hold, s.reportAlarmHolds_spec, s.alarmHolds_iff,
      rfl, fun _ => rfl, fun _ => rfl, fun _ => rfl, rfl⟩
    have hraised : raised = s.raisedEntry a e i value := by
      rw [hraised]
      cases hgroup : e.group <;> simp only [State.raisedEntry, State.capturesRaised, hgroup, Alarm.raisedNow]
    simp only [hbefore, hkey] at hfirst hlast
    exact State.raise_eq hi hvalue hraised hlist hfirst hlast
  case conditions =>
    intro s a e he
    refine ⟨fun u hnew hu => ?_, fun hsame => (State.visitAlarm_condition he).trans (State.visitCondition_same hsame),
      State.visitAlarm_orphan he, s.orphaned_iff a e, s.parentActive_iff e, fun u hu => ⟨?_, fun hst => ?_⟩,
      State.conditionRises_returned, State.conditionFalls_raised, State.condition_quiet, State.condition_shelved,
      fun u hu => State.shelveEnds_cases hu⟩
    · refine (State.visitAlarm_condition he).trans (State.visitCondition_changes hnew (hu.trans ?_))
      cases e.source <;> rfl
    · subst hu
      rfl
    · subst hu
      exact State.condition_normal hst
  case timers =>
    intro s a e t he
    refine ⟨fun ht => ?_, fun ht => ?_, fun ht => ?_, fun ht => ?_⟩
    · exact congrArg (fun u => State.conclude (State.finish u)) (State.onDelayExpiry_some he ht)
    · exact congrArg (fun u => State.conclude (State.finish u)) (State.onDelayExpiry_none ht)
    · exact congrArg (fun u => State.conclude (State.finish u)) (State.shelveExpiry_some he ht)
    · exact congrArg (fun u => State.conclude (State.finish u)) (State.shelveExpiry_none ht)

end Sys2Proof.Machine
end

section
/-!
PROOFS. The requests that concern alarms (R126 to R128, R131, R135, R137).
-/
namespace Sys2Proof.Machine

/-! ### The dynamic fields of an entry (R137, Table 7-5) -/

/-- Table 7-5: the fields that every entry carries. -/
def State.alarmFields (s : State) (a : Fin 192) : List Byte :=
  itemEnum 1 (s.alarm.alarms[a]).state.code ++ itemInt 2 (s.alarm.alarms[a]).condition.toNat ++
    itemInt 3 (s.alarm.alarms[a]).occurrence.toNat ++
    ((s.alarm.alarms[a]).raiseTime.map fun t => itemInt 4 (t % 2 ^ 48 : Nat)).getD [] ++
    ((s.alarm.alarms[a]).ackTime.map fun t => itemInt 5 (t % 2 ^ 48 : Nat)).getD [] ++
    itemInt 6 (s.alarm.alarms[a]).lastValue ++
    ((s.alarm.alarms[a]).onDelay.map fun t => itemInt 7 (t - s.timeBase : Nat)).getD [] ++
    ((s.alarm.alarms[a]).shelve.map fun t => itemInt 8 (t - s.timeBase : Nat)).getD [] ++
    itemInt 9 (s.alarmEntry? a).isSome.toNat

theorem State.alarmItems_eq (s : State) (a : Fin 192) : s.alarmItems a = s.alarmFields a ++
    itemOpt (fun e : AlarmEntry => if e.parent.isSome then itemBool 10 (s.parentActive e) else [])
      (s.alarm.alarms[a]).entry := by
  unfold State.alarmItems State.alarmFields
  simp only [itemBool_eq, itemOpt_eq]
  rfl

theorem State.alarmItems_alone {s : State} {a : Fin 192}
    (h : (s.alarm.alarms[a]).entry = none ∨ ∃ e, (s.alarm.alarms[a]).entry = some e ∧ e.parent = none) :
    s.alarmItems a = s.alarmFields a := by
  rw [s.alarmItems_eq]
  obtain h | ⟨e, he, hp⟩ := h
  · rw [h]
    exact List.append_nil _
  · have htail : (if e.parent.isSome then itemBool 10 (s.parentActive e) else []) = [] := if_neg (by rw [hp]; nofun)
    rw [he]
    exact (congrArg (s.alarmFields a ++ ·) htail).trans (List.append_nil _)

/-- R137: an entry with a parent carries whether that is in an active state. -/
theorem State.alarmItems_child {s : State} {a p : Fin 192} {e : AlarmEntry} (he : (s.alarm.alarms[a]).entry = some e)
    (hp : e.parent = some p) : s.alarmItems a = s.alarmFields a ++ itemInt 10 (s.parentActive e).toNat := by
  have htail : (if e.parent.isSome then itemBool 10 (s.parentActive e) else []) = itemInt 10 (s.parentActive e).toNat :=
    (if_pos (by rw [hp]; rfl)).trans (itemBool_eq 10 _)
  rw [s.alarmItems_eq, he]
  exact congrArg (s.alarmFields a ++ ·) htail

section requests
variable {s : State} {number : Byte} {args : List Byte} {is : List Item} {a : Fin 192} {e : AlarmEntry}

/-! ### ACK (R126) -/

/-- R126: only an entry that is RAISED or RETURNED can be acknowledged. -/
theorem State.acknowledge_refused (hraised : (s.alarm.alarms[a]).state ≠ .raised)
    (hreturned : (s.alarm.alarms[a]).state ≠ .returned) : s.acknowledge a e = (s, { result := .notAckable }) := by
  have hst : (s.alarmAt a).state = (s.alarm.alarms[a]).state := rfl
  rw [State.acknowledge, hst]
  cases hcase : (s.alarm.alarms[a]).state with
  | raised => exact absurd hcase hraised
  | returned => exact absurd hcase hreturned
  | normal | held | shelved | suppressed => rfl

theorem State.acknowledge_raised (hraised : (s.alarm.alarms[a]).state = .raised) : s.acknowledge a e =
    (((s.modAlarm a fun x => { x with ackTime := some s.timeBase }).alarmTo a e .held).finish, Answer.ok) := by
  have hst : (s.alarmAt a).state = .raised := hraised
  rw [State.acknowledge, hst]

theorem State.acknowledge_returned (hreturned : (s.alarm.alarms[a]).state = .returned) : s.acknowledge a e =
    (((s.modAlarm a fun x => { x with ackTime := some s.timeBase }).alarmTo a e .normal).finish, Answer.ok) := by
  have hst : (s.alarmAt a).state = .returned := hreturned
  rw [State.acknowledge, hst]

section alarm
variable (ha : intOf is 1 = some (a.val : Int))
include ha

section ack
variable {n : Int} (h : s.offers 0x1A#8 number args) (hread : readArgs [intArg, intArg] args = some is)
  (hn : intOf is 2 = some n)
include h hread

theorem exec_ack_unused (he : s.alarmEntry? a = none) :
    Machine.exec .ack s = .next (s.popRequest.answered number 0x1A#8 { result := .notConfigured }) := by
  have he : s.popRequest.alarmEntry? a = none := he
  exact h.exec_of_handler rfl (answering_eq hread ((withObject_zero a ha _ _).trans (by rw [he]; rfl)) number)

variable (he : s.alarmEntry? a = some e)
include he

/-- R126: an ACK of an entry in use judges its occurrence number. -/
theorem exec_ack {u : State} {x : Answer}
    (hack : (if intOf is 2 = some ((s.alarmAt a).occurrence.toNat : Int) then s.popRequest.acknowledge a e
      else (s.popRequest, { result := .stale })) = (u, x)) :
    Machine.exec .ack s = .next (u.answered number 0x1A#8 x) := by
  have he : s.popRequest.alarmEntry? a = some e := he
  exact h.exec_of_handler rfl (answering_eq hread ((withObject_zero a ha _ _).trans (by rw [he]; exact hack)) number)

include hn

theorem exec_ack_stale (hstale : n ≠ (s.alarm.alarms[a]).occurrence.toNat) :
    Machine.exec .ack s = .next (s.popRequest.answered number 0x1A#8 { result := .stale }) :=
  exec_ack ha h hread he (if_neg fun hsame => hstale (Option.some_inj.1 (hn.symm.trans hsame)))

theorem exec_ack_present (hsame : n = (s.alarm.alarms[a]).occurrence.toNat) {u : State} {x : Answer}
    (hack : s.popRequest.acknowledge a e = (u, x)) : Machine.exec .ack s = .next (u.answered number 0x1A#8 x) :=
  exec_ack ha h hread he ((if_pos (hn.trans (congrArg some hsame))).trans hack)

end ack

/-! ### SHELVE and UNSHELVE (R127, R128) -/

section shelve
variable {n : Int} (h : s.offers 0x1B#8 number args) (hread : readArgs [intArg, intArg] args = some is)
  (hn : intOf is 2 = some n)
include h hread hn

theorem exec_shelve_invalid (hbad : n < 1 ∨ 480 < n) :
    Machine.exec .shelve s = .next (s.popRequest.answered number 0x1B#8 { result := .invalid }) := by
  have hnone : needNat is 2 1 480 = none := by
    rw [needNat, need_of_intOf hn, if_neg (by omega), Option.map_none]
  exact h.exec_of_handler rfl (answering_eq hread ((withObject_zero a ha _ _).trans (by rw [hnone]; rfl)) number)

variable (hlow : 1 ≤ n) (hhigh : n ≤ 480)
include hlow hhigh

theorem exec_shelve_unused (he : s.alarmEntry? a = none) :
    Machine.exec .shelve s = .next (s.popRequest.answered number 0x1B#8 { result := .notConfigured }) := by
  have he : s.popRequest.alarmEntry? a = none := he
  have hminutes := needNat_of_intOf (lo := 1) (hi := 480) hn hlow hhigh
  exact h.exec_of_handler rfl
    (answering_eq hread ((withObject_zero a ha _ _).trans (by rw [hminutes, he]; rfl)) number)

/-- R127: an entry in use that may be shelved is shelved for so many minutes. -/
theorem exec_shelve (he : s.alarmEntry? a = some e) {u : State} {x : Answer}
    (hshelve : (if e.priority = 1 ∨ e.shelving = false then (s.popRequest, { result := .notPermitted })
      else (s.popRequest.shelveAlarm a e (n.toNat * 60000), Answer.ok)) = (u, x)) :
    Machine.exec .shelve s = .next (u.answered number 0x1B#8 x) := by
  have he : s.popRequest.alarmEntry? a = some e := he
  have hminutes := needNat_of_intOf (lo := 1) (hi := 480) hn hlow hhigh
  exact h.exec_of_handler rfl
    (answering_eq hread ((withObject_zero a ha _ _).trans (by rw [hminutes, he]; exact hshelve)) number)

end shelve

theorem exec_unshelve_unused (h : s.offers 0x1C#8 number args) (hread : readArgs [intArg] args = some is)
    (he : s.alarmEntry? a = none) :
    Machine.exec .unshelve s = .next (s.popRequest.answered number 0x1C#8 { result := .notConfigured }) := by
  have he : s.popRequest.alarmEntry? a = none := he
  exact h.exec_of_handler rfl (answering_eq hread ((withObject_zero a ha _ _).trans (by rw [he]; rfl)) number)

theorem exec_unshelve (h : s.offers 0x1C#8 number args) (hread : readArgs [intArg] args = some is)
    (he : s.alarmEntry? a = some e) {u : State} {x : Answer}
    (hunshelve : (if (s.alarm.alarms[a]).state = .shelved then ((s.popRequest.shelveEnds a e).finish, Answer.ok)
      else (s.popRequest, { result := .notPermitted })) = (u, x)) :
    Machine.exec .unshelve s = .next (u.answered number 0x1C#8 x) := by
  have he : s.popRequest.alarmEntry? a = some e := he
  exact h.exec_of_handler rfl (answering_eq hread ((withObject_zero a ha _ _).trans (by rw [he]; exact hunshelve))
      number)

end alarm

/-- R127: the shelve of an entry that is SHELVED already ends at the later of the two ends. -/
theorem State.shelveAlarm_again {ms : Nat} {t : Time} (hst : (s.alarm.alarms[a]).state = .shelved)
    (ht : (s.alarm.alarms[a]).shelve = some t) : s.shelveAlarm a e ms =
      s.modAlarm a fun x => { x with shelve := some (max t (s.timeBase + ms)) } := by
  have hlater : (max ((s.alarm.alarms[a]).shelve.getD (s.timeBase + ms)) (s.timeBase + ms)) =
      max t (s.timeBase + ms) := by rw [ht]; rfl
  refine (if_pos hst).trans ?_
  unfold State.modAlarm State.modAlarmUnit
  dsimp only
  rw [hlater]

end requests

/-- Settles O57: the requests of an entry in the order of their rules, and READ_ALARM by the fields of the entry. -/
theorem alarmRequests : Obligations.AlarmRequests := by
  unfold Obligations.AlarmRequests
  refine ⟨?alarm, ?others, ?items⟩
  case alarm =>
    intro s number args is a answered hanswered ha
    simp only [hanswered]
    refine ⟨fun n h hread hn => ⟨exec_ack_unused ha h hread, fun e he => ⟨exec_ack_stale ha h hread hn he,
        fun hsame acked hacked => ⟨fun hst => ?raised, fun hst => ?returned, fun hraised hreturned => ?refused⟩⟩⟩,
      fun n h hread hn => ⟨exec_shelve_invalid ha h hread hn, fun hlow hhigh =>
        ⟨exec_shelve_unused ha h hread hn hlow hhigh, fun e he => ⟨fun hnot => ?notPermitted,
          fun hpriority hshelving due timed hdue htimed => ⟨fun t hst ht => ?again, fun hst => ?shelved⟩⟩⟩⟩,
      fun h hread => ⟨exec_unshelve_unused ha h hread, fun e he => ⟨fun hst => exec_unshelve ha h hread he (if_neg hst),
        fun hst => exec_unshelve ha h hread he (if_pos hst)⟩⟩⟩
    case raised =>
      subst hacked
      exact exec_ack_present ha h hread hn he hsame (State.acknowledge_raised (s := s.popRequest) hst)
    case returned =>
      subst hacked
      exact exec_ack_present ha h hread hn he hsame (State.acknowledge_returned (s := s.popRequest) hst)
    case refused =>
      exact exec_ack_present ha h hread hn he hsame (State.acknowledge_refused (s := s.popRequest) hraised hreturned)
    case notPermitted => exact exec_shelve ha h hread hn hlow hhigh he (if_pos hnot)
    case again =>
      have hallowed : ¬ (e.priority = 1 ∨ e.shelving = false) := not_or.2 ⟨hpriority, by rw [hshelving]; nofun⟩
      refine exec_shelve ha h hread hn hlow hhigh he ((if_neg hallowed).trans (congrArg (·, Answer.ok) ?_))
      rw [State.shelveAlarm_again (s := s.popRequest) hst ht, htimed, if_pos hst, hdue]
      rfl
    case shelved =>
      have hallowed : ¬ (e.priority = 1 ∨ e.shelving = false) := not_or.2 ⟨hpriority, by rw [hshelving]; nofun⟩
      refine exec_shelve ha h hread hn hlow hhigh he ((if_neg hallowed).trans (congrArg (·, Answer.ok) ?_))
      rw [htimed, if_neg hst, hdue]
      exact if_neg hst
  case others =>
    intro s number args is
    refine ⟨fun h => h.exec_of_handler rfl (answering_eq readArgs_nil rfl number), fun h hread =>
      ⟨fun g hg => ?rearm, fun n hn hout => ?noGroup⟩, fun h hread => ⟨fun a ha => ?read, fun n hn hout => ?noAlarm⟩⟩
    case rearm => exact h.exec_of_handler rfl (answering_eq hread (withObject_one g hg _ _) number)
    case noGroup => exact h.exec_of_handler rfl (answering_eq hread (withObject_out hn (by omega) _ _) number)
    case read => exact h.exec_of_handler rfl (answering_eq hread (withObject_zero a ha _ _) number)
    case noAlarm => exact h.exec_of_handler rfl (answering_eq hread (withObject_out hn (by omega) _ _) number)
  case items =>
    intro s a x opt hx hopt
    subst hx
    simp only [hopt]
    exact ⟨State.alarmItems_alone, fun e p => State.alarmItems_child⟩

end Sys2Proof.Machine
end

section
/-!
PROOFS. The closes of the shift record, the shift unit's requests, and the bytes of a record (R140, R143 to R145, R147
to R149, R167).
-/
namespace Sys2Proof.Machine

/-! ### A close (R144, R145, R147) -/

/-- R145: what a ring of 8 records loses. -/
def ringOldest (ring : List ClosedRecord) : List ClosedRecord := if ring.length < 8 then [] else ring.take 1

theorem enterRing_eq (ring : List ClosedRecord) (r : ClosedRecord) :
    enterRing ring r = ring.drop (ringOldest ring).length ++ [r] := by
  unfold enterRing ringOldest Config.ringPlaces
  by_cases h : ring.length < 8
  · rw [if_pos h, if_pos h]
    rfl
  · have hone : (ring.take 1).length = 1 := by rw [List.length_take]; omega
    rw [if_neg h, if_neg h, hone]

theorem ringLoses_eq (ring : List ClosedRecord) : ringLoses ring = (ringOldest ring).any fun r => !r.collected := by
  unfold ringLoses ringOldest Config.ringPlaces
  by_cases h : ring.length < 8
  · rw [if_pos h, decide_eq_false (Nat.not_le.2 h)]
    rfl
  · rw [if_neg h, decide_eq_true (Nat.not_lt.1 h)]
    cases ring with
    | nil => rfl
    | cons r rs => simp

section
variable {s : State}

/-- R144: a close that is not that of a reset. -/
theorem State.closeShift_eq {cause : CloseCause} (hcause : cause ≠ .reset) (index : Nat) {posted : State}
    (hposted : posted = s.timePostings) {closed : ClosedRecord}
    (hclosed : closed = { body := posted.shift.record, sequence := s.shift.nextSequence, closeTime := s.timeBase
                          closeDay := s.dayClock, cause := cause, collected := false }) :
    s.closeShift cause index = State.offerFrame
      { posted with shift := { posted.shift with
          ring := s.shift.ring.drop (ringOldest s.shift.ring).length ++ [closed]
          nextSequence := s.shift.nextSequence + 1
          boundary := s.nextBoundary
          record :=
            { index := index, openTime := s.timeBase, openDay := s.dayClock
              flags :=
                { clockUnset := s.dayClock.isNone, clockChanged := false, continued := false
                  countersImplausible := false
                  reportsLost := (ringOldest s.shift.ring).any fun r => !r.collected } } } }
      { kind := .report, payload := closed.layout } := by
  have heq := hposted.trans s.timePostings_eq
  have hsealed : posted.sealedRecord cause = closed := by
    rw [hclosed, heq]
    rfl
  have hboundary : posted.nextBoundary = s.nextBoundary := by
    rw [heq]
    rfl
  have hring : posted.shift.ring = s.shift.ring := by rw [heq]
  have hsequence : posted.shift.nextSequence = s.shift.nextSequence := by rw [heq]
  have hopened : posted.openedRecord cause index =
      { index := index, openTime := s.timeBase, openDay := s.dayClock
        flags :=
          { clockUnset := s.dayClock.isNone, clockChanged := false, continued := false
            countersImplausible := false
            reportsLost := (ringOldest s.shift.ring).any fun r => !r.collected } } := by
    have hcontinued : (cause == .reset) = false := beq_eq_false_iff_ne.2 hcause
    rw [State.openedRecord, hcontinued, hring, ringLoses_eq, heq]
    rfl
  rw [State.closeShift, ← hposted]
  dsimp only
  rw [State.turnRecord_eq, hsealed, hboundary, hring, hsequence, hopened, enterRing_eq]

/-! ### The boundary timer (R143) -/

theorem State.boundaryExpiry_some {b : Boundary} (h : s.shift.boundary = some b) :
    s.boundaryExpiry = State.closeShift { s with timeBase := max s.timeBase b.time } .scheduled b.index := by
  rw [State.boundaryExpiry, h]
  rfl

theorem State.boundaryExpiry_none (h : s.shift.boundary = none) : s.boundaryExpiry = s := by
  rw [State.boundaryExpiry, h]

/-! ### READ_REPORT (R149) -/

theorem State.readClosed_found {q₁ q₂ : List ClosedRecord} {r : ClosedRecord} (hring : s.shift.ring = q₁ ++ r :: q₂)
    (hone : ∀ x ∈ q₁ ++ q₂, x.sequence ≠ r.sequence) : s.readClosed r.sequence.toNat =
      ({ s with shift := { s.shift with ring := q₁ ++ { r with collected := true } :: q₂ } },
        { result := .done, body := r.layout }) := by
  have hfind : (s.shift.ring.find? fun x => (x.sequence.toNat : Int) == (r.sequence.toNat : Int)) = some r := by
    rw [hring, List.find?_append, List.find?_eq_none.2, Option.none_or]
    · exact List.find?_cons_of_pos (beq_self_eq_true _)
    · intro x hx hsame
      have hsame := beq_iff_eq.1 hsame
      exact hone x (List.mem_append_left _ hx) (BitVec.eq_of_toNat_eq (by exact_mod_cast hsame))
  have hkeep (l : List ClosedRecord) (hl : ∀ x ∈ l, x.sequence ≠ r.sequence) : markCollected r.sequence l = l :=
    (List.map_congr_left fun x hx => if_neg (hl x hx)).trans (List.map_id l)
  have hmark : markCollected r.sequence s.shift.ring = q₁ ++ { r with collected := true } :: q₂ := by
    have hfirst := hkeep q₁ fun x hx => hone x (List.mem_append_left _ hx)
    have hlast := hkeep q₂ fun x hx => hone x (List.mem_append_right _ hx)
    rw [hring]
    unfold markCollected at hfirst hlast ⊢
    rw [List.map_append, List.map_cons, hfirst, hlast, if_pos rfl]
  rw [State.readClosed, hfind]
  dsimp only [State.modShift]
  rw [hmark]

theorem State.readClosed_notFound {n : Int} (h : ∀ x ∈ s.shift.ring, n ≠ x.sequence.toNat) :
    s.readClosed n = (s, { result := .notFound }) := by
  have hfind : (s.shift.ring.find? fun x => (x.sequence.toNat : Int) == n) = none :=
    List.find?_eq_none.2 fun x hx hsame => h x hx (beq_iff_eq.1 hsame).symm
  rw [State.readClosed, hfind]
  rfl

section requests
variable {number : Byte} {args : List Byte} {is : List Item}

section report
variable (h : s.offers 0x20#8 number args)
  (hread : readArgs [{ kind := .int, mandatory := false }] args = some is)
include h hread

theorem exec_readReport_number {n : Int} (hn : intOf is 1 = some n) {u : State} {a : Answer}
    (hclosed : s.popRequest.readClosed n = (u, a)) :
    Machine.exec .readReport s = .next (u.answered number 0x20#8 a) :=
  h.exec_of_handler rfl (answering_eq hread (by rw [hn]; exact hclosed) number)

omit h hread in
theorem State.openSnapshot_popRequest : s.popRequest.openSnapshot = s.openSnapshot := by
  rw [State.openSnapshot, State.openSnapshot, State.timePostings_eq, State.timePostings_eq]
  rfl

theorem exec_readReport_open (hnone : intOf is 1 = none) : Machine.exec .readReport s =
    .next (s.popRequest.answered number 0x20#8 { result := .done, body := s.openSnapshot.openLayout }) :=
  h.exec_of_handler rfl (answering_eq hread (by rw [hnone, State.openSnapshot_popRequest]) number)

end report

/-! ### SET_CLOCK (R140) -/

section clock
variable {day ms : Int} (h : s.offers 0x22#8 number args) (hread : readArgs [intArg, intArg] args = some is)
  (hday : intOf is 1 = some day) (hms : intOf is 2 = some ms)
include h hread hday hms

theorem exec_setClock_invalid (hbad : day < 0 ∨ 65535 < day ∨ ms < 0 ∨ 86399999 < ms) :
    Machine.exec .setClock s = .next (s.popRequest.answered number 0x22#8 { result := .invalid }) := by
  have hneed : needNat is 1 0 65535 = none ∨ needNat is 2 0 86399999 = none := by
    rw [needNat, needNat, need_of_intOf hday, need_of_intOf hms, Option.map_eq_none_iff, Option.map_eq_none_iff,
      ite_eq_right_iff, ite_eq_right_iff]
    by_cases hday : 0 ≤ day ∧ day ≤ 65535
    · exact .inr fun hms => absurd hms (by omega)
    · exact .inl fun hin => absurd hin hday
  refine h.exec_of_handler rfl (answering_eq hread (u := s.popRequest) (a := { result := .invalid }) ?_ number)
  obtain hnone | hnone := hneed
  · rw [hnone]
    rfl
  · rw [hnone]
    cases needNat is 1 0 65535 <;> rfl

theorem exec_setClock_set (hdayLow : 0 ≤ day) (hdayHigh : day ≤ 65535) (hmsLow : 0 ≤ ms) (hmsHigh : ms ≤ 86399999) :
    Machine.exec .setClock s =
      .next ((s.popRequest.setClock day.toNat ms.toNat).answered number 0x22#8 Answer.ok) := by
  have hneedDay := needNat_of_intOf (lo := 0) (hi := 65535) hday hdayLow hdayHigh
  have hneedMs := needNat_of_intOf (lo := 0) (hi := 86399999) hms hmsLow hmsHigh
  exact h.exec_of_handler rfl (answering_eq hread (by rw [hneedDay, hneedMs]) number)

end clock

end requests

end

/-! ### The bytes of a record (R167, Table 10-6) -/

theorem ShiftRecord.amounts_eq (r : ShiftRecord) : r.amounts =
    (List.finRange 6).flatMap (fun l =>
      [(5, (r.lines[l]).mass.toNat), (5, (r.lines[l]).heat.toNat), (3, (r.lines[l]).pieces)]) ++
    (List.finRange 3).flatMap (fun b =>
      [(5, (r.burners[b]).runTime.toNat), (3, (r.burners[b]).starts), (3, (r.burners[b]).lockouts)]) ++
    (List.finRange 4).flatMap (fun g =>
      [(3, (r.runs[g]).confirmed), (3, (r.runs[g]).dropped), (3, (r.runs[g]).skipped), (3, (r.runs[g]).abandoned),
        (5, (r.runs[g]).clinker.toNat)]) ++
    (5, r.redRiver.toNat) :: (List.finRange 4).map (fun i => (3, r.raised[i])) ++
    [(3, r.shelves), (3, r.lostA), (3, r.lostB), (3, r.overruns), (3, r.noticesLost)] := by
  rw [ShiftRecord.amounts, toList_flatMap_eq_finRange, toList_flatMap_eq_finRange, toList_flatMap_eq_finRange,
    toList_map_eq_finRange]

theorem sum_flatMap_const (n : Nat) (l : List Nat) : ((List.finRange n).flatMap fun _ => l).sum = n * l.sum := by
  simp [List.flatMap_def, List.sum_flatten]

/-- Table 10-6: the amounts fill 211 bytes. -/
theorem ShiftRecord.amounts_widths (r : ShiftRecord) : (r.amounts.map Prod.fst).sum = 211 := by
  rw [r.amounts_eq]
  have hraised : (Prod.fst ∘ fun i => (3, r.raised[i])) = fun _ : Fin 4 => 3 := rfl
  simp only [List.map_append, List.map_cons, List.map_flatMap, List.map_map, List.map_nil, List.sum_append,
    List.sum_cons, List.sum_nil, sum_flatMap_const, hraised, List.map_const', List.length_finRange, List.sum_replicate,
    smul_eq_mul]
  norm_num

theorem narrowBytes_length (amounts : List (Nat × Nat)) :
    (amounts.flatMap narrowBytes).length = (amounts.map Prod.fst).sum := by
  rw [List.length_flatMap]
  exact congrArg List.sum (List.map_congr_left fun x _ => beBytes_length _ _)

theorem dayBytes_length (d : Option DayReading) : (dayBytes d).length = 6 := by
  cases d with
  | none => rfl
  | some d => rw [dayBytes, List.length_append, beBytes_length, beBytes_length]

theorem ShiftRecord.layout_length (r : ShiftRecord) (c : CloseFields) : (r.layout c).length = 242 := by
  simp only [ShiftRecord.layout, List.length_append, beBytes_length, timeBytes, dayBytes_length, narrowBytes_length,
    r.amounts_widths]

/-- R167: a field that does not fit its width. -/
theorem any_tooWide_iff (amounts : List (Nat × Nat)) :
    amounts.any tooWide = true ↔ ∃ x ∈ amounts, 256 ^ x.1 ≤ x.2 := by
  simp only [List.any_eq_true, tooWide, decide_eq_true_iff]

/-- R147, R167: the flags of a record and its saturated bit, as a number. -/
theorem ShiftRecord.flags_eq (r : ShiftRecord) (unset : Bool) :
    bitsNat [r.flags.clockUnset, r.flags.clockChanged, r.flags.continued, r.flags.countersImplausible,
      r.flags.reportsLost, unset, false, r.amounts.any tooWide] =
    r.flags.clockUnset.toNat + 2 * r.flags.clockChanged.toNat + 4 * r.flags.continued.toNat +
      8 * r.flags.countersImplausible.toNat + 16 * r.flags.reportsLost.toNat + 32 * unset.toNat +
      if ∃ x ∈ r.amounts, 256 ^ x.1 ≤ x.2 then 128 else 0 := by
  have hwide : (if ∃ x ∈ r.amounts, 256 ^ x.1 ≤ x.2 then 128 else 0) = 128 * (r.amounts.any tooWide).toNat := by
    rw [if_congr (any_tooWide_iff r.amounts).symm rfl rfl]
    cases r.amounts.any tooWide <;> rfl
  have hnil : bitsNat [] = 0 := rfl
  rw [hwide]
  simp only [bitsNat_cons, hnil, Bool.toNat_false]
  omega

theorem dayBytes_eq (d : Option DayReading) : dayBytes d = match d with
    | some x => beBytes 2 x.day ++ beBytes 4 x.ms
    | none => [0, 0, 0, 0, 0, 0] := by
  cases d <;> rfl

/-- Table 10-6, with the amounts and the flags of the record given. -/
theorem ShiftRecord.layout_eq (r : ShiftRecord) {amounts : List (Nat × Nat)} (hamounts : r.amounts = amounts)
    {flags : Bool → Nat} (hflags : ∀ unset, bitsNat [r.flags.clockUnset, r.flags.clockChanged, r.flags.continued,
      r.flags.countersImplausible, r.flags.reportsLost, unset, false, r.amounts.any tooWide] = flags unset)
    (c : CloseFields) : r.layout c =
      beBytes 4 c.sequence ++ beBytes 1 r.index ++ beBytes 6 r.openTime ++ dayBytes r.openDay ++ beBytes 6 c.time ++
        dayBytes c.day ++ beBytes 1 c.cause ++ beBytes 1 (flags c.dayUnset) ++
        amounts.flatMap fun x => beBytes x.1 (min x.2 (256 ^ x.1 - 1)) := by
  rw [ShiftRecord.layout, hflags, hamounts]
  rfl

/-- Settles O59: a close from the time postings; the requests by their arguments; the record as its amounts, its flags
and its readings. -/
theorem shiftCloses : Obligations.ShiftCloses := by
  unfold Obligations.ShiftCloses
  refine ⟨?close, ?timer, ?requests, ?bytes⟩
  case close =>
    intro s posted hposted
    refine ⟨hposted.trans s.timePostings_eq, (congrArg (fun u : State => u.shift.record) hposted).symm,
      fun cause index closed oldest hcause hclosed holdest => ?_⟩
    have holdest : oldest = ringOldest s.shift.ring := holdest
    rw [holdest]
    exact State.closeShift_eq hcause index hposted hclosed
  case timer =>
    intro s number
    exact ⟨fun b hb => congrArg State.conclude (State.boundaryExpiry_some hb),
      fun hnone => congrArg State.conclude (State.boundaryExpiry_none hnone),
      fun h => h.exec_of_handler rfl (answering_eq readArgs_nil rfl number)⟩
  case requests =>
    intro s number args is
    refine ⟨fun h hread => ⟨fun q₁ r q₂ hring hone hn => ?found, fun n hn hall => ?notFound,
      exec_readReport_open h hread⟩, fun h hread day ms hday hms => ⟨exec_setClock_invalid h hread hday hms,
        fun hdayLow hdayHigh hmsLow hmsHigh set hset => ?set⟩⟩
    case found => exact exec_readReport_number h hread hn (State.readClosed_found (s := s.popRequest) hring hone)
    case notFound => exact exec_readReport_number h hread hn (State.readClosed_notFound (s := s.popRequest) hall)
    case set =>
      subst hset
      exact exec_setClock_set h hread hday hms hdayLow hdayHigh hmsLow hmsHigh
  case bytes =>
    intro r amounts day flags laidOut hamounts hday hflags hlaidOut
    have hamounts : r.amounts = amounts := r.amounts_eq.trans hamounts.symm
    have hday (d : Option DayReading) : day d = dayBytes d := (hday d).trans (dayBytes_eq d).symm
    have hflags (unset : Bool) := (r.flags_eq unset).trans ((hflags unset).trans (by rw [hamounts])).symm
    have hlayout (c : CloseFields) : r.layout c = laidOut c.sequence c.time c.day c.cause c.dayUnset := by
      rw [r.layout_eq hamounts hflags, hlaidOut, hday, hday]
    refine ⟨fun c hbody => ⟨?_, ?_⟩, hlayout {}⟩
    · rw [ClosedRecord.layout, hbody]
      exact hlayout _
    · exact c.body.layout_length _

end Sys2Proof.Machine
end

section
/-!
PROOFS. The next boundary of the shift plan (R142).
-/
namespace Sys2Proof.Machine

section
variable {s : State}

/-- R142: the next moment of each start time of a plan, from the reading `d`. -/
def State.boundaries (s : State) (d : DayReading) : List Boundary :=
  s.shift.plan.zipIdx.map fun mi => { time := s.timeBase + boundaryDelay d.ms mi.1, index := mi.2 + 1 }

theorem State.mem_boundaries {d : DayReading} {b : Boundary} : b ∈ s.boundaries d ↔
    ∃ (m i : Nat), s.shift.plan[i]? = some m ∧ b = { time := s.timeBase + boundaryDelay d.ms m, index := i + 1 } := by
  simp only [State.boundaries, List.mem_map, Prod.exists, List.mem_zipIdx_iff_getElem?]
  exact exists₂_congr fun m i => and_congr_right fun _ => eq_comm

theorem State.nextBoundary_none (h : s.shift.clock = none ∨ s.shift.plan = []) : s.nextBoundary = none := by
  rw [State.nextBoundary]
  obtain h | h := h
  · have hclock : s.dayClock = none := by rw [State.dayClock, h]; rfl
    rw [hclock]
  · rw [h]
    cases s.dayClock <;> rfl

/-- R142: with the clock set, the next boundary is the earliest of those of the plan. -/
theorem State.nextBoundary_some {c : ClockBase} (hclock : s.shift.clock = some c) (hplan : s.shift.plan ≠ []) :
    ∃ b, s.nextBoundary = some b ∧ b ∈ s.boundaries (c.reading s.timeBase) ∧
      ∀ y ∈ s.boundaries (c.reading s.timeBase), b.time ≤ y.time := by
  have hday : s.dayClock = some (c.reading s.timeBase) := by rw [State.dayClock, hclock]; rfl
  have hnext : s.nextBoundary = match s.boundaries (c.reading s.timeBase) with
      | [] => none
      | x :: xs => some (xs.foldl earlier x) := by
    rw [State.nextBoundary, hday]
    rfl
  rw [hnext]
  cases hlist : s.boundaries (c.reading s.timeBase) with
  | nil => exact absurd hlist (by simpa [State.boundaries] using hplan)
  | cons x xs => exact ⟨_, rfl, foldl_earlier x xs⟩

end

/-- Settles O60: the earliest of the next moments of the start times, each of which is the first of its own. -/
theorem nextBoundary : Obligations.NextBoundary := by
  unfold Obligations.NextBoundary
  intro s
  refine ⟨State.nextBoundary_none, fun c hclock hbefore hplan hstarts => ?_⟩
  obtain ⟨b, hnext, hmem, hleast⟩ := State.nextBoundary_some hclock hplan
  have hnow : (c.reading s.timeBase).ms < dayMs := Nat.mod_lt _ (by decide)
  have hdelay (m i : Nat) (hm : s.shift.plan[i]? = some m) :=
    boundaryDelay_spec hnow (hstarts m (List.mem_of_getElem? hm))
  obtain ⟨m, i, hm, rfl⟩ := State.mem_boundaries.1 hmem
  obtain ⟨hpos, hreached, -⟩ := hdelay m i hm
  refine ⟨_, hnext, Nat.lt_add_of_pos_right hpos, Nat.le_add_left 1 i, ⟨m, hm, ?_⟩, fun t hlater hsooner m' hm' => ?_⟩
  · rw [c.reading_later hbefore (Nat.le_add_right _ _), Nat.add_sub_cancel_left, hreached]
  · obtain ⟨j, hj⟩ := List.mem_iff_getElem?.1 hm'
    have hfirst := hleast _ (State.mem_boundaries.2 ⟨m', j, hj, rfl⟩)
    obtain ⟨-, -, hnone⟩ := hdelay m' j hj
    rw [c.reading_later hbefore (Nat.le_of_lt hlater)]
    exact hnone (t - s.timeBase) (Nat.sub_pos_of_lt hlater) (Nat.sub_lt_left_of_lt_add (Nat.le_of_lt hlater)
      (Nat.lt_of_lt_of_le hsooner hfirst))

end Sys2Proof.Machine
end
